-- ==== Sys2Proof/Word.lean ====
section
/-! DEFINITION. The plain data the whole model is made of: bytes, samples, small numbers, zone sets and tables of
fixed size. -/

namespace Sys2Proof

/-- A byte of a frame payload or of a control port transaction (R11, R208). -/
abbrev Byte := BitVec 8

/-- A sample, a 24-bit signed integer (00, "Levels and arithmetic"). -/
abbrev Sample := BitVec 24

/-- A claim serial or a sequence number, 0..255, which wraps (R38, R69). -/
abbrev Serial := BitVec 8

/-- A zone set with the zone bits of R11: bit 0 DRV, 1 PAS, 2 RL, 3 RR, 4 TRW. -/
abbrev ZoneSet := BitVec 5

/-- A station number, 0..7. -/
abbrev StationNo := Fin 8

/-- A stream number, 0..15: 2 × station number + slot. -/
abbrev StreamNo := Fin 16

/-- A bridge number, 0..7 (B0..B7). -/
abbrev BridgeNo := Fin 8

/-- An output number, 0..10: B0..B7, P0, P1, LO (R90). -/
abbrev OutputNo := Fin 11

/-- A feed slot of an output (R91). -/
abbrev SlotNo := Fin 4

/-- A publish slot (R66). -/
abbrev PubSlotNo := Fin 2

/-- A microphone, M0..M3 (R176). -/
abbrev MicNo := Fin 4

/-- An intake buffer, 0..5 (R76). -/
abbrev BufferNo := Fin 6

/-- An FM channel, 0..410 (00, "Radio"). -/
abbrev Channel := Fin 411

/-- A table of exactly `n` entries, numbered from 0. -/
structure Tbl (n : Nat) (α : Type) where
  toList : List α
  size : toList.length = n
deriving DecidableEq, Repr

namespace Tbl

variable {n : Nat} {α β : Type}

/-- The entry with number `i`. -/
def get (t : Tbl n α) (i : Fin n) : α := t.toList[i.val]'(by rw [t.size]; exact i.isLt)

/-- The table with entry `i` replaced. -/
def set (t : Tbl n α) (i : Fin n) (a : α) : Tbl n α := ⟨t.toList.set i.val a, by simp [t.size]⟩

/-- The table with entry `i` changed by `f`. -/
def modify (t : Tbl n α) (i : Fin n) (f : α → α) : Tbl n α := t.set i (f (t.get i))

/-- The table that holds `f i` at each number `i`. -/
def ofFn (f : Fin n → α) : Tbl n α := ⟨(List.finRange n).map f, by simp⟩

/-- The table with `f` applied to every entry. -/
def map (f : α → β) (t : Tbl n α) : Tbl n β := ⟨t.toList.map f, by simp [t.size]⟩

/-- The table whose entries are all `a`. -/
def fill (n : Nat) (a : α) : Tbl n α := ⟨List.replicate n a, by simp⟩

/-- The entries' numbers, lowest first. -/
abbrev indices (n : Nat) : List (Fin n) := List.finRange n

end Tbl

/-- A value below the range becomes its lower end, a value above it its upper end (00, "Clamp"). -/
def clampNat (lo hi x : Nat) : Nat := max lo (min hi x)

/-- The least sample value. -/
def sampleMin : Int := -8388608

/-- The greatest sample value. -/
def sampleMax : Int := 8388607

/-- Saturation to the sample range (00, "Saturate"). -/
def saturate (x : Int) : Sample := BitVec.ofInt 24 (max sampleMin (min sampleMax x))

/-- A left and a right sample: one sample frame of a stereo sound. -/
structure StereoSample where
  l : Sample
  r : Sample
deriving DecidableEq, Repr

/-- The silent sample frame. -/
def StereoSample.zero : StereoSample := ⟨0, 0⟩

/-- A mono sample as a sample frame: it gives both channels (R82, R95). -/
def StereoSample.mono (x : Sample) : StereoSample := ⟨x, x⟩

/-- A list brought to exactly `n` entries: the first `n`, made up with `d` where there are fewer. -/
def padTo {α : Type} (n : Nat) (d : α) (l : List α) : List α :=
  l.take n ++ List.replicate (n - l.length) d

end Sys2Proof
end

