-- ==== Sys2Proof/Config.lean ====
section
/-! DEFINITION. The numbers the spec fixes for every station, each under the name the spec gives it. The spec leaves
no result value of an operation undefined, so there is no free value here. -/

namespace Sys2Proof.Config

/-- Sample instants in a block (00, "Time"). -/
def blockLen : Nat := 48

/-- Block boundaries a station stays in JOINING (R24). -/
def joiningEnd : Nat := 60

/-- Block boundaries between two presence frames or two probes (R27, R30). -/
def presencePeriod : Nat := 50

/-- Age at which a peer entry expires (R35). -/
def peerAgeEnd : Nat := 160

/-- Block boundaries a bid window stays open (R52). -/
def windowEnd : Nat := 2

/-- Age at which a heard TENTATIVE entry is removed (R57). -/
def bidAgeEnd : Nat := 4

/-- Age at which a stream-heard entry becomes STARVED (R73). -/
def heardAgeEnd : Nat := 8

/-- Age at which a call-loss entry is removed (R75). -/
def callLossAgeEnd : Nat := 8

/-- Own claims of one station at most (R42), and entries of one station at most (R38). -/
def claimsPerStation : Nat := 4

/-- Frames the claim-frame queue holds at most (R13). -/
def queueCapacity : Nat := 8

/-- Consecutive bit errors at which isolation is reported (R18). -/
def bitErrorEnd : Nat := 16

/-- Consecutive boundaries without idle at which isolation is reported (R19). -/
def noIdleEnd : Nat := 2

/-- The top of the failure count (R10). -/
def errorCountTop : Nat := 65535

/-- Sample frames an intake buffer holds at most (R76). -/
def ringLen : Nat := 192

/-- Fill at which priming ends, and below which a RUNNING buffer runs low (R84, R85). -/
def primedFill : Nat := 96

/-- Fill above which a RUNNING buffer runs high (R85). -/
def highFill : Nat := 144

/-- Run at which a slip or a repeat is due (R85). -/
def runEnd : Nat := 8

/-- Call-loss entries at most (R74). -/
def callLossCapacity : Nat := 4

/-- Zero gain (00, "Attenuation step"). -/
def mute : Nat := 128

/-- The derate cap (R123). -/
def derateCap : Nat := 24

/-- Clip instants that make a clip block (R122). -/
def clipBlock : Nat := 4

/-- Thermal count at which the derate rises (R123). -/
def thermalEnd : Nat := 8

/-- Calm count at which the derate falls (R123). -/
def calmEnd : Nat := 64

/-- Offset blocks at which DC asserts (R126). -/
def dcEnd : Nat := 50

/-- Age at which an OC history entry is removed (R131). -/
def ocAgeEnd : Nat := 1000

/-- OC history entries at most (R131). -/
def ocHistoryCapacity : Nat := 3

/-- Kept reports discarded after a retune (R143). -/
def settleCount : Nat := 2

/-- The hold-off counter's top (R148). -/
def holdOffTop : Nat := 20

/-- Diversity run at which a swap is due (R150). -/
def divRunEnd : Nat := 3

/-- Qs by which the spare must beat the active path (R150). -/
def divMargin : Nat := 6

/-- The AF timer's start (R155). -/
def afStart : Nat := 200

/-- Kept reports that measure a probe candidate (R157). -/
def probeReports : Nat := 5

/-- Quality by which a candidate must beat the active path (R158). -/
def probeMargin : Nat := 10

/-- Kept reports that measure a channel in SCAN and in a seek (R164, R170). -/
def scanReports : Nat := 3

/-- Mean quality at which a scanned channel is seen (R165). -/
def seenMean : Nat := 25

/-- Mean quality at which a seek ends as found (R170). -/
def foundMean : Nat := 35

/-- Channels a seek tries before it fails (R170). -/
def seekSteps : Nat := 410

/-- Station list entries at most (R163). -/
def stationCapacity : Nat := 32

/-- Passes unseen at which a station list entry is removed (R166). -/
def unseenEnd : Nat := 4

/-- Boundaries of poor reception that end an announcement (R173). -/
def receptionEnd : Nat := 100

/-- The hang time of far and near activity (R189). -/
def hangTime : Nat := 20

/-- Run at which the challenger becomes the selected microphone (R187). -/
def micRunEnd : Nat := 5

/-- AS by which a challenger must beat the selected microphone (R187). -/
def micMargin : Nat := 6

/-- The step of the uplink suppression (R190). -/
def suStep : Nat := 4

/-- Distinct static streams at most (R78, R214). -/
def staticStreams : Nat := 6

end Sys2Proof.Config
end

