-- ==== Sys2Proof/Syntax.lean ====
section
/-! DEFINITION. The commands of the station, one constructor of `Instr` for each row of spec/opcode_table.json, and the
operands they carry. Request arguments are the raw bytes of R210, because R210 leaves their values to the owning rules. -/

namespace Sys2Proof

/-- The two front-end paths (00, "Radio"). -/
inductive Path where
  | a | b
deriving DecidableEq, Repr

/-- The sense the preamble of a frame shows (R3). -/
inductive WireSense where
  | normal | crossed
deriving DecidableEq, Repr

/-- The two activities of the Pickup Unit (R188). -/
inductive Activity where
  | far | near
deriving DecidableEq, Repr

/-- The fault sources that have a filter: every source but DC (R125). -/
inductive FilteredSource where
  | oc (b : BridgeNo)
  | ts | uv | flt0 | flt1 | tw
deriving DecidableEq, Repr

/-- A frame as the receiver read it, ended by its end delimiter: the sense of its preamble, its contention key and
its payload bytes, check included (R1, R3, R5). -/
structure LineFrame where
  sense : WireSense
  key : BitVec 6
  payload : List Byte
deriving DecidableEq, Repr

/-- The programme-data word of a report (R142, R161, R162). An ALT word's channels are the numbers it carries, of
which those above 410 are dropped. -/
inductive DataWord where
  | tagId (tag : BitVec 16)
  | name (part : Fin 4) (c0 c1 : Byte)
  | flags (traffic announce : Bool)
  | alt (first : Nat) (second : Option Nat)
deriving DecidableEq, Repr

/-- One front-end report (R142). FS, MP and AC may pass their ranges: they are then read as the top. -/
structure Report where
  channel : Nat
  fs : Nat
  mp : Nat
  ac : Nat
  mid : List Sample
  side : List Sample
  word : Option DataWord
deriving DecidableEq, Repr

/-- The samples that arrive at one sample instant: SAI0, SAI1 and the four microphones (R64, R176). -/
structure SampleInputs where
  aux0 : StereoSample
  aux1 : StereoSample
  mics : Tbl 4 Sample
deriving DecidableEq, Repr

/-- The inputs the Output Stage reads in one PWM period: every filtered comparator and fault line at the period's
start (R125), and each bridge's current-sense comparator at side A's rise and fall, high or low (R120). -/
structure PeriodInputs where
  oc : Tbl 8 Bool
  ts : Bool
  uv : Bool
  flt0 : Bool
  flt1 : Bool
  tw : Bool
  atRise : Tbl 8 Bool
  atFall : Tbl 8 Bool
deriving DecidableEq, Repr

/-- The commands. The docstring of each names its row of spec/opcode_table.json and the rule that governs it. -/
inductive Instr where
  /-- PIN_RESET, R22. -/
  | pinReset
  /-- START, R214. -/
  | start
  /-- RESTART, R37. -/
  | restart
  /-- SET_CONFIG, R212: item code, index, value bytes. -/
  | setConfig (item index : Byte) (value : List Byte)
  /-- READ_CONFIG, R213: item code, index. -/
  | readConfig (item index : Byte)
  /-- SET_LEVEL, R98: zone, level. -/
  | setLevel (zone level : Byte)
  /-- APPLY_LEVELS, R99. -/
  | applyLevels
  /-- LEVELS_APPLIED, R99. -/
  | levelsApplied
  /-- SET_SOURCE, R65: source, private flag, class when present. -/
  | setSource (source flag : Byte) (cls : Option Byte)
  /-- PUBLISH, R66: slot, source. -/
  | publish (slot source : Byte)
  /-- UNPUBLISH, R67: slot. -/
  | unpublish (slot : Byte)
  /-- CLAIM, R44: kind, urgency, zone set, stream reference when present. -/
  | claim (kind urgency zones : Byte) (ref : Option Byte)
  /-- RELEASE, R48: serial. -/
  | release (serial : Byte)
  /-- TUNE, R168: channel. -/
  | tune (channel : BitVec 16)
  /-- SEEK, R169: direction. -/
  | seek (direction : Byte)
  /-- SCAN, R167: on or off. -/
  | scan (onOff : Byte)
  /-- ANNOUNCE_ENABLE, R167: on or off. -/
  | announceEnable (onOff : Byte)
  /-- FAULT_ACK, R135: bridge. -/
  | faultAck (bridge : Byte)
  /-- READ_STATUS, R215: section. -/
  | readStatus (part : Byte)
  /-- READ_VIEW, R216: station. -/
  | readView (station : Byte)
  /-- READ_CLAIMS, R63. -/
  | readClaims
  /-- READ_STATIONS, R163. -/
  | readStations
  /-- READ_LINE_ERROR, R10. -/
  | readLineError
  /-- TAKE_NOTICE, R218. -/
  | takeNotice
  /-- MALFORMED_REQUEST, R208: the whole bytes received. -/
  | malformedRequest (bytes : List Byte)
  /-- DISCARDED_TRANSACTION, R208: the whole bytes received. -/
  | discardedTransaction (bytes : List Byte)
  /-- READ_TRANSACTION, R209: how many whole bytes were shifted out, the first included. -/
  | readTransaction (bytes : Nat)
  /-- START_OF_FRAME, R2. -/
  | startOfFrame
  /-- LINE_IDLE, R2. -/
  | lineIdle
  /-- LOST_CONTENTION, R6. -/
  | lostContention
  /-- BIT_ERROR, R7. -/
  | bitError
  /-- ATTEMPT_COMPLETION, R12. -/
  | attemptCompletion
  /-- FRAME_RECEIVED, R9: the frame as read. -/
  | frameReceived (frame : LineFrame)
  /-- BROKEN_OFF_FRAME, R7. -/
  | brokenOffFrame
  /-- BIT_ERROR_ISOLATION, R18. -/
  | bitErrorIsolation
  /-- NO_IDLE_ISOLATION, R19. -/
  | noIdleIsolation
  /-- BLOCK_BOUNDARY, R114. -/
  | blockBoundary
  /-- JOINING_COMPLETE, R24. -/
  | joiningComplete
  /-- PRESENCE_DUE, R30. -/
  | presenceDue
  /-- PROBE_DUE, R27. -/
  | probeDue
  /-- PEER_EXPIRY, R35: the peer. -/
  | peerExpiry (station : StationNo)
  /-- WINDOW_EXPIRY, R52. -/
  | windowExpiry
  /-- BID_AGE_OUT, R57: the entry. -/
  | bidAgeOut (station : StationNo) (serial : Serial)
  /-- STREAM_STARVED, R73: the stream. -/
  | streamStarved (stream : StreamNo)
  /-- CALL_LOSS_EXPIRY, R75: the entry's call reference and uplink. -/
  | callLossExpiry (station : StationNo) (serial : Serial) (uplink : StreamNo)
  /-- SLIP, R85: the buffer. -/
  | slip (buffer : BufferNo)
  /-- REPEAT, R85: the buffer. -/
  | repeatFrame (buffer : BufferNo)
  /-- RELEASE_INTERVAL_STEP, R106: the feed. -/
  | releaseIntervalStep (output : OutputNo) (slot : SlotNo)
  /-- CROSSFADE, R152. -/
  | crossfade
  /-- DIVERSITY_SWAP, R151. -/
  | diversitySwap
  /-- PROBE_SWAP, R159. -/
  | probeSwap
  /-- AF_TIMER_EXPIRY, R156. -/
  | afTimerExpiry
  /-- RECEPTION_HOLD_EXPIRY, R173. -/
  | receptionHoldExpiry
  /-- MIC_SWITCH, R187. -/
  | micSwitch
  /-- HANG_TIMER_EXPIRY, R189: which activity. -/
  | hangTimerExpiry (activity : Activity)
  /-- THERMAL_DERATE_STEP, R123: the bridge. -/
  | thermalDerateStep (bridge : BridgeNo)
  /-- CALM_DERATE_STEP, R123: the bridge. -/
  | calmDerateStep (bridge : BridgeNo)
  /-- DC_ASSERTED, R126: the bridge. -/
  | dcAsserted (bridge : BridgeNo)
  /-- OC_HISTORY_EXPIRY, R131: the bridge. -/
  | ocHistoryExpiry (bridge : BridgeNo)
  /-- FAULT_SOURCE_ASSERTED, R128: the source. -/
  | faultSourceAsserted (source : FilteredSource)
  /-- FAULT_SOURCE_DEASSERTED, R125: the source. -/
  | faultSourceDeasserted (source : FilteredSource)
  /-- SAMPLE_INSTANT, R129: the samples that arrive. -/
  | sampleInstant (inputs : SampleInputs)
  /-- BRIDGE_REENABLE, R132: the bridge. -/
  | bridgeReenable (bridge : BridgeNo)
  /-- FRONT_END_REPORT, R144: the path and its report. -/
  | frontEndReport (path : Path) (report : Report)
  /-- SCAN_PASS_END, R166. -/
  | scanPassEnd
  /-- PWM_PERIOD, R120: the comparators. -/
  | pwmPeriod (inputs : PeriodInputs)
deriving DecidableEq, Repr

end Sys2Proof
end

