-- ==== Sys2Proof/WellFormed.lean ====
section
/-! DEFINITION. Which commands are well formed: the operands have the shape the spec gives them. A command the part can
meet is well formed; `exec` does not rest on it. -/

namespace Sys2Proof

/-- The number of argument bytes the request with this code allows (R210). -/
def formFits (code n : Nat) : Bool :=
  match code with
  | 1 => n == 0
  | 2 => n == 0
  | 3 => 2 ≤ n && n ≤ 32
  | 4 => n == 2
  | 5 => n == 2
  | 6 => n == 0
  | 7 => n == 2 || n == 3
  | 8 => n == 2
  | 9 => n == 1
  | 10 => n == 3 || n == 4
  | 11 => n == 1
  | 12 => n == 2
  | 13 => n == 1
  | 14 => n == 1
  | 15 => n == 1
  | 16 => n == 1
  | 17 => n == 1
  | 18 => n == 1
  | 19 => n == 0
  | 20 => n == 0
  | 21 => n == 0
  | 22 => n == 0
  | _ => false

/-- The whole bytes of a request transaction that is taken as malformed (R208): a length above 32, fewer argument
bytes than the length, a code that names no request, or a number of argument bytes its form does not allow. -/
def isMalformed : List Byte → Bool
  | code :: len :: args =>
    code != 0 && (decide (32 < len.toNat) || decide (args.length < len.toNat) || !formFits code.toNat len.toNat)
  | _ => false

/-- The whole bytes of a transaction that is discarded (R208): fewer than two, and not a read transaction. -/
def isDiscarded : List Byte → Bool
  | [] => true
  | [code] => code != 0
  | _ => false

/-- Whether a command's operands have the shape the spec gives them. -/
def Instr.wellFormed : Instr → Bool
  | .setConfig _ _ value => value.length ≤ 30
  | .malformedRequest bytes => isMalformed bytes
  | .discardedTransaction bytes => isDiscarded bytes
  | .readTransaction n => 1 ≤ n
  | .frontEndReport _ rep => rep.mid.length == Config.blockLen && rep.side.length == Config.blockLen
  | .pinReset | .start | .restart | .readConfig .. | .setLevel .. | .applyLevels | .levelsApplied | .setSource ..
  | .publish .. | .unpublish .. | .claim .. | .release .. | .tune .. | .seek .. | .scan .. | .announceEnable ..
  | .faultAck .. | .readStatus .. | .readView .. | .readClaims | .readStations | .readLineError | .takeNotice
  | .startOfFrame | .lineIdle | .lostContention | .bitError | .attemptCompletion | .frameReceived .. | .brokenOffFrame
  | .bitErrorIsolation | .noIdleIsolation | .blockBoundary | .joiningComplete | .presenceDue | .probeDue
  | .peerExpiry .. | .windowExpiry | .bidAgeOut .. | .streamStarved .. | .callLossExpiry .. | .slip .. | .repeatFrame ..
  | .releaseIntervalStep .. | .crossfade | .diversitySwap | .probeSwap | .afTimerExpiry | .receptionHoldExpiry
  | .micSwitch | .hangTimerExpiry .. | .thermalDerateStep .. | .calmDerateStep .. | .dcAsserted .. | .ocHistoryExpiry ..
  | .faultSourceAsserted .. | .faultSourceDeasserted .. | .sampleInstant .. | .bridgeReenable .. | .scanPassEnd
  | .pwmPeriod .. => true

end Sys2Proof
end

