-- ==== Sys2Proof/Decode.lean ====
section
/-! DEFINITION. What the control port reads from the bytes of a transaction (R208, R210), the bytes a transaction of
each port command has, and the host's `decodeTableWord`. No row of spec/opcode_table.json has bits, so no word spells a
command there. -/

namespace Sys2Proof

/-- The command a word of the opcode table spells: none, because the table gives no row any bits. -/
def decodeTableWord (_nbits _w : Nat) : Option Instr := none

/-- The request that a request code and its declared argument bytes name, by the table of R210. -/
def decodeRequest (code : Byte) (args : List Byte) : Option Instr :=
  match code.toNat, args with
  | 1, [] => some .start
  | 2, [] => some .restart
  | 3, item :: index :: value => some (.setConfig item index value)
  | 4, [item, index] => some (.readConfig item index)
  | 5, [zone, level] => some (.setLevel zone level)
  | 6, [] => some .applyLevels
  | 7, [source, flag] => some (.setSource source flag none)
  | 7, [source, flag, cls] => some (.setSource source flag (some cls))
  | 8, [slot, source] => some (.publish slot source)
  | 9, [slot] => some (.unpublish slot)
  | 10, [kind, urgency, zones] => some (.claim kind urgency zones none)
  | 10, [kind, urgency, zones, ref] => some (.claim kind urgency zones (some ref))
  | 11, [serial] => some (.release serial)
  | 12, [hi, lo] => some (.tune (hi ++ lo))
  | 13, [direction] => some (.seek direction)
  | 14, [onOff] => some (.scan onOff)
  | 15, [onOff] => some (.announceEnable onOff)
  | 16, [bridge] => some (.faultAck bridge)
  | 17, [part] => some (.readStatus part)
  | 18, [station] => some (.readView station)
  | 19, [] => some .readClaims
  | 20, [] => some .readStations
  | 21, [] => some .readLineError
  | 22, [] => some .takeNotice
  | _, _ => none

/-- The command that the whole bytes of one transaction make (R208). A first byte of 0 makes a read transaction. -/
def decodeTransaction (bytes : List Byte) : Instr :=
  match bytes with
  | [] => .discardedTransaction []
  | [code] => if code = 0 then .readTransaction 1 else .discardedTransaction [code]
  | code :: len :: rest =>
    if code = 0 then .readTransaction (rest.length + 2)
    else if 32 < len.toNat ∨ rest.length < len.toNat then .malformedRequest (code :: len :: rest)
    else
      match decodeRequest code (rest.take len.toNat) with
      | some i => i
      | none => .malformedRequest (code :: len :: rest)

/-- The number that eight bits spell, most significant first. -/
def byteOfBits (bits : List Bool) : Byte := BitVec.ofNat 8 (bits.foldl (fun acc b => 2 * acc + b.toNat) 0)

/-- The whole bytes of the bits sampled on SDI while CSN was low, most significant bit first; a partial byte at the end
is discarded (R208). -/
def bytesOfBits : List Bool → List Byte
  | a :: b :: c :: d :: e :: f :: g :: h :: rest => byteOfBits [a, b, c, d, e, f, g, h] :: bytesOfBits rest
  | _ => []

/-- The bits of a byte on SDI or SDO, most significant first (R208). -/
def bitsOfByte (b : Byte) : List Bool := [7, 6, 5, 4, 3, 2, 1, 0].map (fun i => b.getLsbD i)

/-- The command that the bits of one transaction make, from the fall of CSN to its rise (R208). -/
def decodeSdi (bits : List Bool) : Instr := decodeTransaction (bytesOfBits bits)

/-- A request transaction: the code, the length and the argument bytes (10, "Transactions"). -/
def requestBytes (code : Byte) (args : List Byte) : List Byte := code :: BitVec.ofNat 8 args.length :: args

/-- The whole bytes of a transaction that is this command, for the commands that are transactions. -/
def encodeTransaction : Instr → Option (List Byte)
  | .start => some (requestBytes 1 [])
  | .restart => some (requestBytes 2 [])
  | .setConfig item index value => some (requestBytes 3 (item :: index :: value))
  | .readConfig item index => some (requestBytes 4 [item, index])
  | .setLevel zone level => some (requestBytes 5 [zone, level])
  | .applyLevels => some (requestBytes 6 [])
  | .setSource source flag none => some (requestBytes 7 [source, flag])
  | .setSource source flag (some cls) => some (requestBytes 7 [source, flag, cls])
  | .publish slot source => some (requestBytes 8 [slot, source])
  | .unpublish slot => some (requestBytes 9 [slot])
  | .claim kind urgency zones none => some (requestBytes 10 [kind, urgency, zones])
  | .claim kind urgency zones (some ref) => some (requestBytes 10 [kind, urgency, zones, ref])
  | .release serial => some (requestBytes 11 [serial])
  | .tune channel => some (requestBytes 12 [channel.extractLsb' 8 8, channel.extractLsb' 0 8])
  | .seek direction => some (requestBytes 13 [direction])
  | .scan onOff => some (requestBytes 14 [onOff])
  | .announceEnable onOff => some (requestBytes 15 [onOff])
  | .faultAck bridge => some (requestBytes 16 [bridge])
  | .readStatus part => some (requestBytes 17 [part])
  | .readView station => some (requestBytes 18 [station])
  | .readClaims => some (requestBytes 19 [])
  | .readStations => some (requestBytes 20 [])
  | .readLineError => some (requestBytes 21 [])
  | .takeNotice => some (requestBytes 22 [])
  | .malformedRequest bytes => some bytes
  | .discardedTransaction bytes => some bytes
  | .readTransaction n => some (List.replicate n 0)
  | .pinReset | .levelsApplied | .startOfFrame | .lineIdle | .lostContention | .bitError | .attemptCompletion
  | .frameReceived .. | .brokenOffFrame | .bitErrorIsolation | .noIdleIsolation | .blockBoundary | .joiningComplete
  | .presenceDue | .probeDue | .peerExpiry .. | .windowExpiry | .bidAgeOut .. | .streamStarved .. | .callLossExpiry ..
  | .slip .. | .repeatFrame .. | .releaseIntervalStep .. | .crossfade | .diversitySwap | .probeSwap | .afTimerExpiry
  | .receptionHoldExpiry | .micSwitch | .hangTimerExpiry .. | .thermalDerateStep .. | .calmDerateStep .. | .dcAsserted ..
  | .ocHistoryExpiry .. | .faultSourceAsserted .. | .faultSourceDeasserted .. | .sampleInstant .. | .bridgeReenable ..
  | .frontEndReport .. | .scanPassEnd | .pwmPeriod .. => none

end Sys2Proof
end

