-- ==== Sys2Proof/Machine/State.lean ====
section
/-! DEFINITION. Everything the spec gives the station: the nine blocks' records, the queue of waiting commands, and the
state after pin reset. -/

namespace Sys2Proof.Machine

open Sys2Proof

/-- The part has no event at which it stops, so no command raises a fault: the type is empty. (Safe: nothing is cut
short.) -/
inductive Fault where
deriving DecidableEq, Repr

/-- Why a command has no meaning. -/
inductive Refusal where
  /-- Raised by the arms of `exec` whose command has no meaning yet, with the row's mnemonic. Safe: the model stops. -/
  | notModelled (mnemonic : String)
deriving DecidableEq, Repr

/-! ### Names shared by several blocks -/

/-- The five zones (00, "Cabin geometry"). -/
inductive Zone where
  | drv | pas | rl | rr | trw
deriving DecidableEq, Repr

/-- The class every sound carries (00). -/
inductive SoundClass where
  | programme | announce | call | chime
deriving DecidableEq, Repr

/-- The five claim kinds (R40); `priv` is PRIVATE. -/
inductive ClaimKind where
  | call | priv | announce | chime | quiet
deriving DecidableEq, Repr

/-- The local sources (R64). -/
inductive Source where
  | radio | aux0 | aux1 | pickup
deriving DecidableEq, Repr

/-- The result codes (00, "Result codes"). -/
inductive Status where
  | accepted | notReady | badArgument | conflict | limit | busy | stillActive | configInvalid
deriving DecidableEq, Repr

/-- A call reference, or any claim's name: claimant station and claim serial (R175). -/
structure ClaimRef where
  station : StationNo
  serial : Serial
deriving DecidableEq, Repr

/-- What a claim says: kind, urgency, zone set and stream reference (R38). -/
structure ClaimFields where
  kind : ClaimKind
  urgency : Fin 4
  zones : ZoneSet
  ref : Option StreamNo
deriving DecidableEq, Repr

/-! ### Frames -/

/-- A claim frame of this station's queue (R11, R13). -/
inductive ClaimFrame where
  | bid (serial : Serial) (fields : ClaimFields)
  | hold (serial : Serial) (fields : ClaimFields)
  | release (serial : Serial)
deriving DecidableEq, Repr

/-- The call block of a SOUND frame: call reference and talk loss (R11). -/
structure CallBlock where
  ref : ClaimRef
  talkLoss : Nat
deriving DecidableEq, Repr

/-- The contents of a SOUND frame (R11). A mono frame's samples stand with both channels equal. -/
structure SoundFrame where
  stream : StreamNo
  seq : Serial
  cls : SoundClass
  priv : Bool
  stereo : Bool
  call : Option CallBlock
  samples : List StereoSample
deriving DecidableEq, Repr

/-- One entry of a publish list (R11, R29). -/
structure PubEntry where
  stream : StreamNo
  cls : SoundClass
  priv : Bool
  stereo : Bool
deriving DecidableEq, Repr

/-- One entry of a held-claim list (R11, R29). -/
structure HeldEntry where
  serial : Serial
  fields : ClaimFields
deriving DecidableEq, Repr

/-- The station state a presence frame carries (R11). -/
inductive PeerState where
  | active | isolated
deriving DecidableEq, Repr

/-- The contents of a PRESENCE frame (R11, R29). -/
structure PresenceFrame where
  state : PeerState
  rendered : ZoneSet
  impaired : ZoneSet
  publish : List PubEntry
  held : List HeldEntry
deriving DecidableEq, Repr

/-- The contents of a frame of any kind. -/
inductive FrameBody where
  | claim (f : ClaimFrame)
  | sound (f : SoundFrame)
  | presence (f : PresenceFrame)
deriving DecidableEq, Repr

/-- A frame's kind, as notices and the failure record name it (R10, R36). -/
inductive FrameKind where
  | bid | hold | release | sound | presence
deriving DecidableEq, Repr

/-! ### LIF -/

/-- The polarity latch (R3). -/
inductive Latch where
  | unlatched | normal | crossed
deriving DecidableEq, Repr

/-- The store a frame in flight belongs to (R12). -/
inductive TxStore where
  | queue
  | sound (slot : PubSlotNo)
  | presence
deriving DecidableEq, Repr

/-- The frame in flight: the store and contents, the sense it is driven in (R3), whether its BID is to be dropped when
the attempt fails (R15), and whether RESTART or isolation has cut it off from its store (R21, R26). -/
structure Flight where
  store : TxStore
  body : FrameBody
  inverted : Bool
  dropBid : Bool
  orphan : Bool
deriving DecidableEq, Repr

/-- A sound slot or the presence slot: its frame, and what is held beside the frame in flight (R15): nothing, an empty
frame (`some none`), or a frame. -/
structure TxSlot (α : Type) where
  frame : Option α
  beside : Option (Option α)
deriving DecidableEq, Repr

/-- The failure record of the line error capture (R10). -/
structure ErrorRecord where
  rank : Fin 4
  kind : Option FrameKind
  station : StationNo
  stream : Option StreamNo
  seq : Option Serial
deriving DecidableEq, Repr

/-- The Line Interface (01). -/
structure Lif where
  latch : Latch
  lineIdle : Bool
  queue : List ClaimFrame
  besideClaim : Option ClaimFrame
  besideBid : Option ClaimFrame
  sound : Tbl 2 (TxSlot SoundFrame)
  presence : TxSlot PresenceFrame
  flight : Option Flight
  bitErrorRun : Nat
  noIdle : Nat
  idleSeen : Bool
  errorCount : Nat
  errorRecord : Option ErrorRecord
deriving DecidableEq, Repr

/-! ### CLE -/

/-- The lifecycle states (02, 2.1). -/
inductive Lifecycle where
  | config | joining | active | isolated
deriving DecidableEq, Repr

/-- A present peer-table entry (R31). -/
structure PeerEntry where
  state : PeerState
  rendered : ZoneSet
  impaired : ZoneSet
  publish : List PubEntry
  age : Nat
deriving DecidableEq, Repr

/-- The state of a claim-list entry with the fields that go with it (R38): age of a heard TENTATIVE entry, link and
window of an own one. -/
inductive ClaimState where
  | held
  | heard (age : Nat)
  | bidding (link : Bool) (window : Option Nat)
deriving DecidableEq, Repr

/-- Who asked for an own claim (R38). -/
inductive Origin where
  | port | radio
deriving DecidableEq, Repr

/-- A claim-list entry (R38). -/
structure Claim where
  name : ClaimRef
  fields : ClaimFields
  state : ClaimState
  origin : Option Origin
deriving DecidableEq, Repr

/-- The Claim Engine (02, 03). -/
structure Cle where
  lifecycle : Lifecycle
  joining : Nat
  presenceCount : Nat
  peers : Tbl 8 (Option PeerEntry)
  claims : List Claim
  serialCounter : Serial
  marks : Tbl 16 Bool
deriving DecidableEq, Repr

/-! ### PUB -/

/-- The settable part of a source record (R64). -/
structure SourceRecord where
  cls : SoundClass
  priv : Bool
deriving DecidableEq, Repr

/-- A publish slot (R66). -/
inductive PubSlot where
  | idle
  | publishing (source : Source) (next : Serial)
deriving DecidableEq, Repr

/-- The Publisher (04). -/
structure Pub where
  radioClass : SoundClass
  radioPriv : Bool
  aux0 : SourceRecord
  aux1 : SourceRecord
  slots : Tbl 2 PubSlot
deriving DecidableEq, Repr

/-! ### IKU -/

/-- The state of a stream-heard entry (R72). -/
inductive HeardState where
  | never | live | starved
deriving DecidableEq, Repr

/-- A stream-heard entry (R72). -/
structure HeardEntry where
  state : HeardState
  lastSeq : Option Serial
  cls : SoundClass
  priv : Bool
  stereo : Bool
  age : Nat
deriving DecidableEq, Repr

/-- A call-loss entry (R74). -/
structure CallLoss where
  ref : ClaimRef
  uplink : StreamNo
  talkLoss : Nat
  age : Nat
deriving DecidableEq, Repr

/-- A sample frame in an intake ring with the private flag of its SOUND frame (R76, R96). -/
structure RingFrame where
  l : Sample
  r : Sample
  priv : Bool
deriving DecidableEq, Repr

/-- The state of an intake buffer (R76). -/
inductive BufferState where
  | free | priming | running | starved
deriving DecidableEq, Repr

/-- An intake buffer (R76). The fill is the length of the ring, oldest sample frame first. `returning` is set from entry to
STARVED until priming ends, when sound returns (R107, R207, log 38). `given`, `givenForce` and `givenReturn` are the block
it last handed to its readers, the force with it, and whether it is the first sound after STARVED (R83, R87, log 38). -/
structure Buffer where
  state : BufferState
  stream : Option StreamNo
  static : Bool
  ring : List RingFrame
  expected : Option Serial
  highRun : Nat
  lowRun : Nat
  gap : Bool
  force : Bool
  returning : Bool
  given : List RingFrame
  givenForce : Bool
  givenReturn : Bool
deriving DecidableEq, Repr

/-- A dynamic user of the Intake (R79): a feed, or the echo reference. -/
inductive User where
  | feed (output : OutputNo) (slot : SlotNo)
  | echo
deriving DecidableEq, Repr

/-- The Intake (04). -/
structure Iku where
  heard : Tbl 16 HeardEntry
  callLoss : List CallLoss
  buffers : Tbl 6 Buffer
  waiting : List (User × StreamNo)
deriving DecidableEq, Repr

/-! ### MXE -/

/-- The run-time fields of a feed slot (R91), with the class and private flag of the last boundary (R116). -/
structure Feed where
  active : Bool
  resolved : Option StreamNo
  claim : Option ClaimRef
  served : Bool
  cls : SoundClass
  priv : Bool
  target : Nat
  current : Nat
  releaseCount : Nat
deriving DecidableEq, Repr

/-- The four samples of SAO0 in their order (R196). -/
structure QuadSample where
  p0l : Sample
  p0r : Sample
  p1l : Sample
  p1r : Sample
deriving DecidableEq, Repr

/-- The Mix Engine (05). `post0`, `post1` and `lineOut` hold what is not yet played of the mixed blocks. -/
structure Mxe where
  live : Tbl 5 Nat
  staged : Tbl 5 Nat
  apply : Bool
  fallback : Bool
  feeds : Tbl 11 (Tbl 4 Feed)
  post0 : List StereoSample
  post1 : List StereoSample
  lineOut : List StereoSample
  sao0 : QuadSample
  sao1 : StereoSample
deriving DecidableEq, Repr

/-! ### OST -/

/-- The fault sources of one bridge's view, with the codes of R210's clearing modes. -/
inductive FaultKind where
  | ts | uv | flt0 | flt1 | dc | oc | tw
deriving DecidableEq, Repr

/-- A hold set: one bit for each fault kind, at its code (R128, R211). -/
abbrev HoldSet := BitVec 7

/-- Bridge states (R133). -/
inductive BridgeState where
  | off | run | halted | locked
deriving DecidableEq, Repr

/-- Sense readings (R120). -/
inductive Sense where
  | out | into | split
deriving DecidableEq, Repr

/-- A filter: its declared state and the latest sample (R125). -/
structure Filter where
  asserted : Bool
  last : Option Bool
deriving DecidableEq, Repr

/-- A bridge record (06). -/
structure Bridge where
  state : BridgeState
  sense : Sense
  hold : HoldSet
  ocHistory : List Nat
  ocLock : Bool
  clip : Nat
  derate : Nat
  thermal : Nat
  calm : Nat
  dcOn : Bool
  dcCount : Nat
  block : List Sample
  d0 : Nat
  dutySum : Nat
  instants : Nat
  duty : Option Nat
deriving DecidableEq, Repr

/-- The Output Stage (06). -/
structure Ost where
  bridges : Tbl 8 Bridge
  fOc : Tbl 8 Filter
  fTs : Filter
  fUv : Filter
  fFlt0 : Filter
  fFlt1 : Filter
  fTw : Filter
deriving DecidableEq, Repr

/-! ### RDU -/

/-- A programme-data record (R161). The name is computed from its parts. -/
structure ProgData where
  lastTag : Option (BitVec 16)
  tag : Option (BitVec 16)
  parts : Tbl 4 (Option (Byte × Byte))
  traffic : Option Bool
  announce : Option Bool
  alt : List Channel
deriving DecidableEq, Repr

/-- A path record (R143). -/
structure PathRec where
  tuned : Option Channel
  settle : Nat
  qs16 : Option Nat
  prepared : Option (List StereoSample)
  data : ProgData
deriving DecidableEq, Repr

/-- The path-B modes (R149). -/
inductive PathBMode where
  | idle | diversity | scan | probe
deriving DecidableEq, Repr

/-- A reception detector (R153). -/
structure Detector where
  above : Bool
  pending : Bool
deriving DecidableEq, Repr

/-- Phases of a probe (R157). -/
inductive ProbePhase where
  | settling | measuring | swapWanted
deriving DecidableEq, Repr

/-- A probe record (R157). -/
structure Probe where
  candidates : List Channel
  index : Nat
  phase : ProbePhase
  measured : Nat
  sum : Nat
  tagSeen : Bool
deriving DecidableEq, Repr

/-- A station list entry (R163), with whether it was seen in the pass under way (R166). -/
structure StationEntry where
  channel : Channel
  best : Nat
  tag : Option (BitVec 16)
  name : Option (List Byte)
  traffic : Option Bool
  unseen : Nat
  seen : Bool
deriving DecidableEq, Repr

/-- Seek directions (R169). -/
inductive Direction where
  | up | down
deriving DecidableEq, Repr

/-- A running seek (R169, R170). -/
structure Seek where
  direction : Direction
  start : Channel
  steps : Nat
  measured : Nat
  sum : Nat
deriving DecidableEq, Repr

/-- The announcement record (R171). -/
structure Announcement where
  running : Bool
  claim : Option Serial
  activeRun : Nat
  clearRun : Nat
  hold : Nat
deriving DecidableEq, Repr

/-- The Radio Unit (07). -/
structure Rdu where
  pathA : PathRec
  pathB : PathRec
  active : Path
  mode : PathBMode
  holdOff : Nat
  divRun : Nat
  crossfade : Bool
  deferred : Bool
  low : Detector
  good : Detector
  afTimer : Option Nat
  probe : Option Probe
  stations : List StationEntry
  scanPos : Channel
  scanMeas : Nat
  scanSum : Nat
  seek : Option Seek
  ann : Announcement
  scanEnable : Bool
  announceEnable : Bool
  radio : List StereoSample
deriving DecidableEq, Repr

/-! ### PKU -/

/-- Suppression states (R189). -/
inductive Suppression where
  | idle | receive | send | double
deriving DecidableEq, Repr

/-- The pickup record (R178); it is ACTIVE while `call` is present. `uplink` is the block handed to the PUB at the last
boundary (R191). -/
structure Pku where
  call : Option ClaimRef
  candidates : BitVec 4
  echo : Option StreamNo
  echoServed : Bool
  selected : Option MicNo
  challenger : Option MicNo
  run : Nat
  ld : Nat
  lm : Tbl 4 Nat
  far : Nat
  near : Nat
  supp : Suppression
  su : Nat
  sd : Nat
  uplink : Option (List Sample)
deriving DecidableEq, Repr

/-! ### CPT -/

/-- Feed selectors (R91). FOLLOW(QUIET) is refused where it is written. -/
inductive Selector where
  | none
  | local_ (source : Source)
  | stream (n : StreamNo)
  | follow (kind : ClaimKind)
  | uplink
deriving DecidableEq, Repr

/-- Channel picks (R91). -/
inductive Pick where
  | left | right | mid | stereo
deriving DecidableEq, Repr

/-- The configured fields of a feed slot (R91); `fallbackOnly` is the condition CHIME_FALLBACK. -/
structure FeedConfig where
  selector : Selector
  pick : Pick
  trim : Nat
  fallbackOnly : Bool
deriving DecidableEq, Repr

/-- Front-end presence (R142). -/
inductive FrontEnds where
  | none | a | ab
deriving DecidableEq, Repr

/-- Edge selections (R154). -/
inductive Edge where
  | rise | fall | both | off
deriving DecidableEq, Repr

/-- The configuration store (R212). Fault maps and the latched flags stand in the order TS, UV, FLT0, FLT1; UV's flag
is never set, because UV is always AUTO (R127). -/
structure Store where
  station : Option StationNo
  zones : Tbl 10 ZoneSet
  feeds : Tbl 11 (Tbl 4 FeedConfig)
  duck : Tbl 5 (Tbl 4 Nat)
  ceiling : Nat
  fallbackZone : Zone
  attack : Nat
  releaseInterval : Nat
  deadtime : Tbl 8 Nat
  faultMap : Tbl 4 (BitVec 8)
  tsLatched : Bool
  flt0Latched : Bool
  flt1Latched : Bool
  micZone : Tbl 4 (Option Zone)
  micTrim : Tbl 4 Nat
  pickupSlot : PubSlotNo
  callLoss : Nat
  farThreshold : Nat
  nearThreshold : Nat
  coupling : Nat
  frontEnds : FrontEnds
  diversity : Bool
  scanDefault : Bool
  announceDefault : Bool
  announceZones : ZoneSet
  lowThreshold : Nat
  goodThreshold : Nat
  lowEdge : Edge
  goodEdge : Edge
deriving DecidableEq, Repr

/-- Causes of an isolation (R26). -/
inductive IsolationCause where
  | bitErrors | noIdle
deriving DecidableEq, Repr

/-- Outcomes of a bid (R62). -/
inductive BidOutcome where
  | won | failedOutbid | failedIsolated | replaced
deriving DecidableEq, Repr

/-- Causes of the end of an announcement (R173). -/
inductive AnnounceCause where
  | flags | reception | tune | seek | disabled | programme
deriving DecidableEq, Repr

/-- Details of a RECEPTION notice (R154). -/
inductive ReceptionDetail where
  | low | regained | good | notGood | diversitySwitch | probeSuccess | probeFailed
deriving DecidableEq, Repr

/-- What a notice says of its latest occurrence, of each of the fourteen kinds (R217). -/
inductive Notice where
  | isolated (cause : IsolationCause)
  | rejoined
  | duplicateNumber (kind : FrameKind)
  | bridgeFault (bridge : BridgeNo) (enabled : Bool) (hold : HoldSet) (state : BridgeState)
  | claimLost (serial : Serial) (kind : ClaimKind) (better : ClaimRef)
  | claimResult (serial : Serial) (outcome : BidOutcome)
  | pickupActive (call : ClaimRef) (candidates : BitVec 4) (echo : Option StreamNo)
  | pickupSwitched (old new : ClaimRef) (echo : Option StreamNo)
  | pickupInactive (old : ClaimRef)
  | peerAppeared (station : StationNo)
  | peerState (station : StationNo) (state : PeerState)
  | peerExpired (station : StationNo)
  | exhausted (stream : StreamNo) (user : User)
  | overrun (stream : StreamNo)
  | underrun (stream : StreamNo)
  | announceStarted (serial : Serial)
  | announceUnclaimed
  | announceEnded (cause : AnnounceCause)
  | reception (what : ReceptionDetail) (active : Path) (tuned : Option Channel) (qs : Option Nat)
  | seekFound (channel : Channel)
  | seekFailed
  | seekCancelled
  | scan (entries removed : Nat)
  | derate (bridge : BridgeNo) (capped : Bool) (value : Nat)
  | levels (live : Tbl 5 Nat)
  | lineError (record : ErrorRecord)
deriving DecidableEq, Repr

/-- A pending notice entry (R217). -/
structure NoticeEntry where
  count : Nat
  detail : Notice
deriving DecidableEq, Repr

/-- The result holder (R209). -/
structure Result where
  number : Byte
  status : Status
  fresh : Bool
  data : List Byte
deriving DecidableEq, Repr

/-- The Control Port (10). The notice places stand in order of priority, place 0 being priority 1. -/
structure Cpt where
  store : Store
  fixed : Bool
  result : Result
  notices : Tbl 14 (Option NoticeEntry)
  atn : Bool
  sdo : List Byte
deriving DecidableEq, Repr

/-! ### The station -/

/-- The samples that have arrived since the last block boundary, oldest first (R64, R176). -/
structure Inputs where
  aux0 : List StereoSample
  aux1 : List StereoSample
  mics : Tbl 4 (List Sample)
deriving DecidableEq, Repr

/-- The station: its nine blocks, the samples arriving, and the queue of waiting commands. -/
structure State where
  lif : Lif
  cle : Cle
  pub : Pub
  iku : Iku
  mxe : Mxe
  ost : Ost
  rdu : Rdu
  pku : Pku
  cpt : Cpt
  inputs : Inputs
  pending : List Instr
deriving DecidableEq, Repr

/-! ### The values after pin reset -/

/-- An empty slot of the arbiter (R21). -/
def TxSlot.empty {α : Type} : TxSlot α := ⟨none, none⟩

/-- The Line Interface after pin reset (R21). -/
def Lif.reset : Lif where
  latch := .unlatched
  lineIdle := false
  queue := []
  besideClaim := none
  besideBid := none
  sound := Tbl.fill 2 TxSlot.empty
  presence := TxSlot.empty
  flight := none
  bitErrorRun := 0
  noIdle := 0
  idleSeen := false
  errorCount := 0
  errorRecord := none

/-- The Claim Engine after pin reset (R22, and the reset tables of 02 and 03). -/
def Cle.reset : Cle where
  lifecycle := .config
  joining := 0
  presenceCount := 0
  peers := Tbl.fill 8 none
  claims := []
  serialCounter := 0
  marks := Tbl.fill 16 false

/-- The Publisher after pin reset (R64, R71). -/
def Pub.reset : Pub where
  radioClass := .programme
  radioPriv := false
  aux0 := ⟨.programme, false⟩
  aux1 := ⟨.programme, false⟩
  slots := Tbl.fill 2 .idle

/-- A stream-heard entry of a stream never heard (R72, R73). -/
def HeardEntry.never : HeardEntry := ⟨.never, none, .programme, false, true, 0⟩

/-- A FREE intake buffer, emptied (R76). -/
def Buffer.free : Buffer where
  state := .free
  stream := none
  static := false
  ring := []
  expected := none
  highRun := 0
  lowRun := 0
  gap := false
  force := false
  returning := false
  given := []
  givenForce := false
  givenReturn := false

/-- The Intake after pin reset (R89). -/
def Iku.reset : Iku where
  heard := Tbl.fill 16 HeardEntry.never
  callLoss := []
  buffers := Tbl.fill 6 Buffer.free
  waiting := []

/-- A feed slot's inactive values (R91). -/
def Feed.inactive : Feed := ⟨false, none, none, false, .programme, false, 128, 128, 0⟩

/-- The Mix Engine after pin reset (R117). -/
def Mxe.reset : Mxe where
  live := Tbl.fill 5 48
  staged := Tbl.fill 5 48
  apply := false
  fallback := false
  feeds := Tbl.fill 11 (Tbl.fill 4 Feed.inactive)
  post0 := []
  post1 := []
  lineOut := []
  sao0 := ⟨0, 0, 0, 0⟩
  sao1 := StereoSample.zero

/-- A filter after pin reset: DEASSERTED, no sample taken (R125). -/
def Filter.reset : Filter := ⟨false, none⟩

/-- A bridge record after pin reset (R141). -/
def Bridge.reset : Bridge where
  state := .off
  sense := .split
  hold := 0
  ocHistory := []
  ocLock := false
  clip := 0
  derate := 0
  thermal := 0
  calm := 0
  dcOn := false
  dcCount := 0
  block := []
  d0 := 128
  dutySum := 0
  instants := 0
  duty := none

/-- The Output Stage after pin reset (R141). -/
def Ost.reset : Ost where
  bridges := Tbl.fill 8 Bridge.reset
  fOc := Tbl.fill 8 Filter.reset
  fTs := Filter.reset
  fUv := Filter.reset
  fFlt0 := Filter.reset
  fFlt1 := Filter.reset
  fTw := Filter.reset

/-- A cleared programme-data record (R161). -/
def ProgData.cleared : ProgData := ⟨none, none, Tbl.fill 4 none, none, none, []⟩

/-- A path record after pin reset (R174). -/
def PathRec.reset : PathRec := ⟨none, 0, none, none, ProgData.cleared⟩

/-- The announcement record at rest (R171). -/
def Announcement.rest : Announcement := ⟨false, none, 0, 0, 0⟩

/-- The Radio Unit after pin reset (R174); scan off and announce on are the defaults of R212. Until a boundary forms it the
RADIO block is empty, after RESTART too, which R174 leaves open (log 9). -/
def Rdu.reset : Rdu where
  pathA := PathRec.reset
  pathB := PathRec.reset
  active := .a
  mode := .idle
  holdOff := 20
  divRun := 0
  crossfade := false
  deferred := false
  low := ⟨true, false⟩
  good := ⟨false, false⟩
  afTimer := none
  probe := none
  stations := []
  scanPos := 0
  scanMeas := 0
  scanSum := 0
  seek := none
  ann := Announcement.rest
  scanEnable := false
  announceEnable := true
  radio := []

/-- The pickup record's inactive values (R178). -/
def Pku.inactive : Pku where
  call := none
  candidates := 0
  echo := none
  echoServed := false
  selected := none
  challenger := none
  run := 0
  ld := 128
  lm := Tbl.fill 4 128
  far := 0
  near := 0
  supp := .idle
  su := 0
  sd := 0
  uplink := none

/-- A feed slot's configured fields after pin reset on an output (R91): MID on a bridge, STEREO on a post or LO. -/
def FeedConfig.reset (o : OutputNo) : FeedConfig := ⟨.none, if o.val < 8 then .mid else .stereo, 0, false⟩

/-- A row of the duck table, in the order PROGRAMME, ANNOUNCE, CALL, CHIME (R97). -/
def duckRow (p a c h : Nat) : Tbl 4 Nat := ⟨[p, a, c, h], rfl⟩

/-- The duck table after pin reset (R97). -/
def duckReset : Tbl 5 (Tbl 4 Nat) :=
  ⟨[duckRow 24 16 0 0, duckRow 12 12 0 0, duckRow 16 0 0 0, duckRow 12 8 4 0, duckRow 128 128 0 0], rfl⟩

/-- The configuration store after pin reset (R212, column "After pin reset"). -/
def Store.reset : Store where
  station := none
  zones := Tbl.fill 10 0
  feeds := Tbl.ofFn (fun o => Tbl.fill 4 (FeedConfig.reset o))
  duck := duckReset
  ceiling := 16
  fallbackZone := .pas
  attack := 4
  releaseInterval := 2
  deadtime := Tbl.fill 8 0
  faultMap := Tbl.fill 4 255
  tsLatched := true
  flt0Latched := false
  flt1Latched := false
  micZone := Tbl.fill 4 none
  micTrim := Tbl.fill 4 0
  pickupSlot := 1
  callLoss := 36
  farThreshold := 60
  nearThreshold := 70
  coupling := 16
  frontEnds := .ab
  diversity := true
  scanDefault := false
  announceDefault := true
  announceZones := 31
  lowThreshold := 20
  goodThreshold := 45
  lowEdge := .both
  goodEdge := .off

/-- The Control Port after pin reset (R221). -/
def Cpt.reset : Cpt where
  store := Store.reset
  fixed := false
  result := ⟨0, .accepted, false, []⟩
  notices := Tbl.fill 14 none
  atn := false
  sdo := []

/-- No sample has arrived. -/
def Inputs.none : Inputs := ⟨[], [], Tbl.fill 4 []⟩

/-- The station right after pin reset, with no command waiting (R22, and the reset table of every chapter). -/
def State.reset : State where
  lif := Lif.reset
  cle := Cle.reset
  pub := Pub.reset
  iku := Iku.reset
  mxe := Mxe.reset
  ost := Ost.reset
  rdu := Rdu.reset
  pku := Pku.inactive
  cpt := Cpt.reset
  inputs := Inputs.none
  pending := []

end Sys2Proof.Machine
end

