-- ==== Sys2Proof/Machine/Flags.lean ====
section
/-! DEFINITION. The notice set with the attention line (R217, R219), and the flags of the result holder (R209). -/

namespace Sys2Proof.Machine

open Sys2Proof

/-- The place of a notice in the notice set: its priority less 1 (R217). -/
def Notice.place : Notice → Fin 14
  | .isolated .. | .rejoined | .duplicateNumber .. => 0
  | .bridgeFault .. => 1
  | .claimLost .. => 2
  | .claimResult .. => 3
  | .pickupActive .. | .pickupSwitched .. | .pickupInactive .. => 4
  | .peerAppeared .. | .peerState .. | .peerExpired .. => 5
  | .exhausted .. | .overrun .. | .underrun .. => 6
  | .announceStarted .. | .announceUnclaimed | .announceEnded .. => 7
  | .reception .. => 8
  | .seekFound .. | .seekFailed | .seekCancelled => 9
  | .scan .. => 10
  | .derate .. => 11
  | .levels .. => 12
  | .lineError .. => 13

/-- The entry of a place after a raise (R217): count 1, or one more up to 255, with the new detail. -/
def raisedEntry (old : Option NoticeEntry) (n : Notice) : NoticeEntry :=
  match old with
  | none => ⟨1, n⟩
  | some e => ⟨min 255 (e.count + 1), n⟩

/-- A raise of a notice (R217): the place takes the entry, and ATN is asserted (R219). -/
def Cpt.raise (c : Cpt) (n : Notice) : Cpt :=
  { c with notices := c.notices.modify n.place (fun old => some (raisedEntry old n)), atn := true }

/-- Several raises in their order. -/
def Cpt.raiseAll (c : Cpt) (ns : List Notice) : Cpt := ns.foldl Cpt.raise c

/-- Whether a notice entry is pending. -/
def noticePending (notices : Tbl 14 (Option NoticeEntry)) : Bool := notices.toList.any Option.isSome

/-- The pending place of highest priority (R218). -/
def firstPending (notices : Tbl 14 (Option NoticeEntry)) : Option (Fin 14) :=
  (Tbl.indices 14).find? (fun i => (notices.get i).isSome)

/-- The set with one place emptied, and ATN as the places that remain leave it (R218, R219). -/
def Cpt.emptyPlace (c : Cpt) (i : Fin 14) : Cpt :=
  { c with notices := c.notices.set i none, atn := noticePending (c.notices.set i none) }

/-- Every place emptied (R220). -/
def Cpt.emptyAll (c : Cpt) : Cpt := { c with notices := Tbl.fill 14 none, atn := false }

/-- SDO driven low for a whole transaction (R208): no byte but 0 is shifted out (log 26). -/
def Cpt.lowSdo (c : Cpt) : Cpt := { c with sdo := [] }

/-- The result holder takes a request's answer (R209): the number rises by 1 and wraps, and fresh is set. SDO is low in
the transaction of the request (R208). -/
def Cpt.answer (c : Cpt) (status : Status) (data : List Byte) : Cpt :=
  { c.lowSdo with result := ⟨c.result.number + 1, status, true, data⟩ }

/-- The fresh flag after a read transaction that shifted out this many whole bytes: cleared once the status byte, byte
2, was shifted out whole (R209). -/
def freshAfterRead (fresh : Bool) (bytes : Nat) : Bool := fresh && decide (bytes < 3)

end Sys2Proof.Machine
end

