-- ==== Sys2Proof/Machine/Operands.lean ====
section
/-! DEFINITION. The operand forms: the codes of R11 and R210 in both directions, zone sets, and the byte forms in which
results give their fields (R211). -/

namespace Sys2Proof.Machine

open Sys2Proof

/-! ### Codes -/

/-- Zones, R210; the code is the bit of the zone in a zone set (R11). -/
def Zone.code : Zone → Nat
  | .drv => 0
  | .pas => 1
  | .rl => 2
  | .rr => 3
  | .trw => 4

/-- The zone with a code. -/
def Zone.ofCode : Nat → Option Zone
  | 0 => some .drv
  | 1 => some .pas
  | 2 => some .rl
  | 3 => some .rr
  | 4 => some .trw
  | _ => none

/-- Classes, R11. -/
def SoundClass.code : SoundClass → Nat
  | .programme => 0
  | .announce => 1
  | .call => 2
  | .chime => 3

/-- The class with a code. -/
def SoundClass.ofCode : Nat → Option SoundClass
  | 0 => some .programme
  | 1 => some .announce
  | 2 => some .call
  | 3 => some .chime
  | _ => none

/-- Claim kinds, R11. -/
def ClaimKind.code : ClaimKind → Nat
  | .call => 0
  | .priv => 1
  | .announce => 2
  | .chime => 3
  | .quiet => 4

/-- The claim kind with a code. -/
def ClaimKind.ofCode : Nat → Option ClaimKind
  | 0 => some .call
  | 1 => some .priv
  | 2 => some .announce
  | 3 => some .chime
  | 4 => some .quiet
  | _ => none

/-- Sources, R210. -/
def Source.code : Source → Nat
  | .radio => 0
  | .aux0 => 1
  | .aux1 => 2
  | .pickup => 3

/-- The source with a code. -/
def Source.ofCode : Nat → Option Source
  | 0 => some .radio
  | 1 => some .aux0
  | 2 => some .aux1
  | 3 => some .pickup
  | _ => none

/-- Result codes, 10.1. -/
def Status.code : Status → Nat
  | .accepted => 0
  | .notReady => 1
  | .badArgument => 2
  | .conflict => 3
  | .limit => 4
  | .busy => 5
  | .stillActive => 6
  | .configInvalid => 7

/-- Presence states, R11. -/
def PeerState.code : PeerState → Nat
  | .active => 0
  | .isolated => 1

/-- The presence state with a code. -/
def PeerState.ofCode : Nat → Option PeerState
  | 0 => some .active
  | 1 => some .isolated
  | _ => none

/-- Lifecycle states, by their places in 2.1. -/
def Lifecycle.code : Lifecycle → Nat
  | .config => 0
  | .joining => 1
  | .active => 2
  | .isolated => 3

/-- Latch values, by their places in R3. -/
def Latch.code : Latch → Nat
  | .unlatched => 0
  | .normal => 1
  | .crossed => 2

/-- Frame kinds, in the order of 01 (log 12). -/
def FrameKind.code : FrameKind → Nat
  | .bid => 0
  | .hold => 1
  | .release => 2
  | .sound => 3
  | .presence => 4

/-- Stream-heard states, by their places in R72. -/
def HeardState.code : HeardState → Nat
  | .never => 0
  | .live => 1
  | .starved => 2

/-- Buffer states, by their places in R76. -/
def BufferState.code : BufferState → Nat
  | .free => 0
  | .priming => 1
  | .running => 2
  | .starved => 3

/-- Fault kinds, by their places in the clearing modes of R210 (log 11). -/
def FaultKind.code : FaultKind → Nat
  | .ts => 0
  | .uv => 1
  | .flt0 => 2
  | .flt1 => 3
  | .dc => 4
  | .oc => 5
  | .tw => 6

/-- Bridge states, by their places in R133. -/
def BridgeState.code : BridgeState → Nat
  | .off => 0
  | .run => 1
  | .halted => 2
  | .locked => 3

/-- Path-B modes, by their places in R149. -/
def PathBMode.code : PathBMode → Nat
  | .idle => 0
  | .diversity => 1
  | .scan => 2
  | .probe => 3

/-- Probe phases, by their places in R157. -/
def ProbePhase.code : ProbePhase → Nat
  | .settling => 0
  | .measuring => 1
  | .swapWanted => 2

/-- Paths. -/
def pathCode : Path → Nat
  | .a => 0
  | .b => 1

/-- Seek directions, R210. -/
def Direction.code : Direction → Nat
  | .up => 0
  | .down => 1

/-- Suppression states, by their places in R189. -/
def Suppression.code : Suppression → Nat
  | .idle => 0
  | .receive => 1
  | .send => 2
  | .double => 3

/-- Channel picks, R210. -/
def Pick.code : Pick → Nat
  | .left => 0
  | .right => 1
  | .mid => 2
  | .stereo => 3

/-- The channel pick with a code. -/
def Pick.ofCode : Nat → Option Pick
  | 0 => some .left
  | 1 => some .right
  | 2 => some .mid
  | 3 => some .stereo
  | _ => none

/-- Front-end presence, R210. -/
def FrontEnds.code : FrontEnds → Nat
  | .none => 0
  | .a => 1
  | .ab => 2

/-- The front-end presence with a code. -/
def FrontEnds.ofCode : Nat → Option FrontEnds
  | 0 => some .none
  | 1 => some .a
  | 2 => some .ab
  | _ => Option.none

/-- Edge selections, R210. -/
def Edge.code : Edge → Nat
  | .rise => 0
  | .fall => 1
  | .both => 2
  | .off => 3

/-- The edge selection with a code. -/
def Edge.ofCode : Nat → Option Edge
  | 0 => some .rise
  | 1 => some .fall
  | 2 => some .both
  | 3 => some .off
  | _ => none

/-- A byte that reads 0 as off or clear and 1 as on or set (R210), and no other value. -/
def onOffOfCode : Nat → Option Bool
  | 0 => some false
  | 1 => some true
  | _ => none

/-- A private flag byte: 0 clear, any other value set (R210). -/
def flagOfByte (b : Byte) : Bool := b != 0

/-- A number argument that must lie below `n`. -/
def finOfByte (n : Nat) (b : Byte) : Option (Fin n) := if h : b.toNat < n then some ⟨b.toNat, h⟩ else none

/-! ### Zone sets and streams -/

/-- The zone set of one zone. -/
def Zone.bit (z : Zone) : ZoneSet := BitVec.ofNat 5 (2 ^ z.code)

/-- Whether a zone set contains a zone. -/
def zoneIn (zs : ZoneSet) (z : Zone) : Bool := zs.getLsbD z.code

/-- Whether two zone sets share a zone (R41, R60). -/
def zonesShare (a b : ZoneSet) : Bool := a &&& b != 0

/-- A zone set byte: bits 7..5 zero (R11). -/
def zonesOfByte (b : Byte) : Option ZoneSet := if b.toNat < 32 then some (b.setWidth 5) else none

/-- The zones of a set, in the order DRV to TRW. -/
def zonesOf (zs : ZoneSet) : List Zone := [Zone.drv, .pas, .rl, .rr, .trw].filter (zoneIn zs)

/-- The five zones in the order of their codes. -/
def allZones : List Zone := [.drv, .pas, .rl, .rr, .trw]

/-- The place of a zone in a table of five. -/
def Zone.idx : Zone → Fin 5
  | .drv => 0
  | .pas => 1
  | .rl => 2
  | .rr => 3
  | .trw => 4

/-- The place of a class in a table of four. -/
def SoundClass.idx : SoundClass → Fin 4
  | .programme => 0
  | .announce => 1
  | .call => 2
  | .chime => 3

/-- The place of a claim kind in a table of five. -/
def ClaimKind.idx : ClaimKind → Fin 5
  | .call => 0
  | .priv => 1
  | .announce => 2
  | .chime => 3
  | .quiet => 4

/-- The stream number of a station's slot: 2 × station number + slot (00). -/
def streamOf (station : StationNo) (slot : PubSlotNo) : StreamNo := ⟨2 * station.val + slot.val, by omega⟩

/-- The producer of a stream. -/
def producerOf (stream : StreamNo) : StationNo := ⟨stream.val / 2, by omega⟩

/-- The publish slot of a stream. -/
def slotOf (stream : StreamNo) : PubSlotNo := ⟨stream.val % 2, by omega⟩

/-- Whether a kind is exclusive (R40). -/
def ClaimKind.exclusive : ClaimKind → Bool
  | .call | .priv => true
  | .announce | .chime | .quiet => false

/-- Whether a claim of this kind may carry this stream reference (R40). -/
def refFits (kind : ClaimKind) (ref : Option StreamNo) : Bool :=
  match kind with
  | .call | .priv => ref.isSome
  | .announce | .chime => true
  | .quiet => ref.isNone

/-! ### Byte forms of results (R211) -/

/-- A number whose range lies within 0..255. -/
def num1 (n : Nat) : List Byte := [BitVec.ofNat 8 n]

/-- A number whose range passes 255: two bytes, most significant first. -/
def num2 (n : Nat) : List Byte := [BitVec.ofNat 8 (n / 256), BitVec.ofNat 8 n]

/-- A flag, 1 when set; a link, and a yes or no, in the same form (log 10). -/
def flag1 (b : Bool) : List Byte := [if b then 1 else 0]

/-- An optional field. -/
def opt1 {α : Type} (enc : α → List Byte) : Option α → List Byte
  | none => [0]
  | some a => 1 :: enc a

/-- A list with its number of entries. -/
def counted {α : Type} (enc : α → List Byte) (l : List α) : List Byte := num1 l.length ++ l.flatMap enc

/-- A zone set byte. -/
def zones1 (zs : ZoneSet) : List Byte := [zs.setWidth 8]

/-- A serial byte. -/
def serial1 (s : Serial) : List Byte := [s]

/-- A claim's name: claimant station and serial. -/
def ref2 (r : ClaimRef) : List Byte := num1 r.station.val ++ serial1 r.serial

/-- A channel. -/
def channel2 (c : Channel) : List Byte := num2 c.val

/-- A 16-bit tag. -/
def tag2 (t : BitVec 16) : List Byte := [t.extractLsb' 8 8, t.extractLsb' 0 8]

/-- A dynamic user: a feed as 0, output and slot, the echo reference as 1 (R79, log 10). -/
def user1 : User → List Byte
  | .feed o sl => [0] ++ num1 o.val ++ num1 sl.val
  | .echo => [1]

end Sys2Proof.Machine
end

