-- ==== Sys2Proof/Machine/Ops.lean ====
section
/-! DEFINITION. The operations every family shares: answering a request and raising notices at the station. -/

namespace Sys2Proof.Machine

open Sys2Proof

/-- The answer of a meaning: every command of the part leads to a next state. -/
abbrev Answer := Host.Outcome State Fault Refusal

/-- The station with its result holder at the answer of the request just taken (R209). -/
def State.answer (s : State) (status : Status) (data : List Byte) : State := { s with cpt := s.cpt.answer status data }

/-- The station after a block raised notices, in their order (R217). -/
def State.raiseAll (s : State) (ns : List Notice) : State := { s with cpt := s.cpt.raiseAll ns }

/-- The station number in force: R214 lets no station start without one, so the value given for an absent one is never
used by a started station (log 9). -/
def Store.own (c : Store) : StationNo := c.station.getD 0

/-- A list without its first entry that satisfies `p`; none when there is no such entry. -/
def removeFirst {α : Type} (p : α → Bool) : List α → Option (List α)
  | [] => none
  | a :: l => if p a then some l else (removeFirst p l).map (a :: ·)

end Sys2Proof.Machine
end

