-- ==== Sys2Proof/Machine/Frames.lean ====
section
/-! DEFINITION. Frames: the check (R8), the payload layouts in both directions (R11), the acceptance tests (R9) and the
failure record of a discarded frame (R10). -/

namespace Sys2Proof.Machine

open Sys2Proof

/-! ### The check (R8) -/

/-- One bit of the check register: shifted left, with the polynomial added when the top bit was 1. -/
def crcBit (r : BitVec 32) : BitVec 32 := if r.msb then (r <<< 1) ^^^ 0x04C11DB7#32 else r <<< 1

/-- One byte through the check register, most significant bit first. -/
def crcByte (r : BitVec 32) (b : Byte) : BitVec 32 :=
  crcBit (crcBit (crcBit (crcBit (crcBit (crcBit (crcBit (crcBit (r ^^^ (b ++ 0#24)))))))))

/-- The check over a list of bytes: preset to ones, inverted at the end. -/
def crc32 (bytes : List Byte) : BitVec 32 := ~~~ (bytes.foldl crcByte 0xFFFFFFFF#32)

/-- The four bytes of a check, most significant first. -/
def checkBytes (c : BitVec 32) : List Byte :=
  [c.extractLsb' 24 8, c.extractLsb' 16 8, c.extractLsb' 8 8, c.extractLsb' 0 8]

/-- A payload: the bytes with their check. -/
def withCheck (bytes : List Byte) : List Byte := bytes ++ checkBytes (crc32 bytes)

/-- The payload without its check, when the check is correct (R8). -/
def checkedBytes (payload : List Byte) : Option (List Byte) :=
  if 4 ≤ payload.length then
    if payload.drop (payload.length - 4) = checkBytes (crc32 (payload.take (payload.length - 4)))
    then some (payload.take (payload.length - 4)) else none
  else none

/-! ### Keys and headers (R5, R11) -/

/-- The contention key: kind rank × 16 + station × 2 + slot (R5). -/
def contentionKey (rank : Nat) (station : StationNo) (slot : Nat) : BitVec 6 :=
  BitVec.ofNat 6 (16 * rank + 2 * station.val + slot)

/-- The kind rank of a key. -/
def keyRank (key : BitVec 6) : Fin 4 := ⟨key.toNat / 16, by have := key.isLt; omega⟩

/-- The station of a key. -/
def keyStation (key : BitVec 6) : StationNo := ⟨key.toNat / 2 % 8, by omega⟩

/-- The slot bit of a key. -/
def keySlot (key : BitVec 6) : PubSlotNo := ⟨key.toNat % 2, by omega⟩

/-- The header byte of a key: the key, then two zero bits (R11). -/
def headerByte (key : BitVec 6) : Byte := key ++ 0#2

/-- The key of a frame this station sends (R5). -/
def FrameBody.key (own : StationNo) : FrameBody → BitVec 6
  | .claim _ => contentionKey 0 own 0
  | .sound f => contentionKey 1 own (f.stream.val % 2)
  | .presence _ => contentionKey 2 own 0

/-- The kind of a claim frame. -/
def ClaimFrame.kind : ClaimFrame → FrameKind
  | .bid .. => .bid
  | .hold .. => .hold
  | .release .. => .release

/-- The serial of a claim frame. -/
def ClaimFrame.serial : ClaimFrame → Serial
  | .bid s _ => s
  | .hold s _ => s
  | .release s => s

/-- The kind of a frame (R36). -/
def FrameBody.kind : FrameBody → FrameKind
  | .claim f => f.kind
  | .sound _ => .sound
  | .presence _ => .presence

/-! ### Building payloads (R11) -/

/-- The descriptor byte: class, private flag, channel count, call reference present, three zero bits. -/
def descriptorByte (cls : SoundClass) (priv stereo call : Bool) : Byte :=
  BitVec.ofNat 8 (64 * cls.code + 32 * priv.toNat + 16 * stereo.toNat + 8 * call.toNat)

/-- The urgency and flag byte. -/
def urgencyByte (f : ClaimFields) : Byte := BitVec.ofNat 8 (128 * f.ref.isSome.toNat + f.urgency.val)

/-- A sample, most significant byte first. -/
def sampleBytes (x : Sample) : List Byte := [x.extractLsb' 16 8, x.extractLsb' 8 8, x.extractLsb' 0 8]

/-- The samples of a SOUND frame. -/
def framesBytes (stereo : Bool) (l : List StereoSample) : List Byte :=
  l.flatMap (fun x => if stereo then sampleBytes x.l ++ sampleBytes x.r else sampleBytes x.l)

/-- The call block. -/
def callBytes : Option CallBlock → List Byte
  | none => []
  | some c => num1 c.ref.station.val ++ [c.ref.serial] ++ num1 c.talkLoss ++ [0]

/-- Serial, kind, urgency and flag, zone set: the bytes a BID, a HOLD and a held-claim entry share. -/
def fieldsBytes (serial : Serial) (f : ClaimFields) : List Byte :=
  [serial] ++ num1 f.kind.code ++ [urgencyByte f] ++ zones1 f.zones

/-- The stream reference as BID and HOLD carry it: only when present. -/
def refBytes : Option StreamNo → List Byte
  | none => []
  | some n => num1 n.val

/-- One entry of a publish list. -/
def pubEntryBytes (e : PubEntry) : List Byte := num1 e.stream.val ++ [descriptorByte e.cls e.priv e.stereo false]

/-- One entry of a held-claim list, its stream reference 0 when absent. -/
def heldEntryBytes (e : HeldEntry) : List Byte :=
  fieldsBytes e.serial e.fields ++ num1 (match e.fields.ref with | none => 0 | some n => n.val)

/-- The bytes between the header and the check. -/
def FrameBody.bytes : FrameBody → List Byte
  | .claim (.bid s f) => [0] ++ fieldsBytes s f ++ refBytes f.ref
  | .claim (.hold s f) => [1] ++ fieldsBytes s f ++ refBytes f.ref
  | .claim (.release s) => [2, s]
  | .sound f =>
    num1 f.stream.val ++ [f.seq, descriptorByte f.cls f.priv f.stereo f.call.isSome] ++ callBytes f.call
      ++ framesBytes f.stereo f.samples
  | .presence f =>
    num1 f.state.code ++ zones1 f.rendered ++ zones1 f.impaired ++ num1 (16 * f.publish.length + f.held.length)
      ++ f.publish.flatMap pubEntryBytes ++ f.held.flatMap heldEntryBytes

/-- The payload of a frame this station sends, its check included. -/
def FrameBody.payload (own : StationNo) (b : FrameBody) : List Byte := withCheck (headerByte (b.key own) :: b.bytes)

/-- The frame as a receiver reads it, when it is driven in this sense. -/
def FrameBody.asRead (own : StationNo) (sense : WireSense) (b : FrameBody) : LineFrame :=
  ⟨sense, b.key own, b.payload own⟩

/-! ### Reading payloads: the format tests of R9 -/

/-- The claim fields of a kind byte, an urgency and flag byte, a zone set byte and a stream reference byte, 0 where the
reference is absent. -/
def parseFields (kind uf zones ref : Byte) : Option ClaimFields := do
  let k ← ClaimKind.ofCode kind.toNat
  let z ← zonesOfByte zones
  if uf &&& 0x7C#8 ≠ 0 ∨ z = 0 then none
  else if uf.msb then do
    let r ← finOfByte 16 ref
    if refFits k (some r) then some ⟨k, ⟨uf.toNat % 4, by omega⟩, z, some r⟩ else none
  else if ref = 0 ∧ refFits k none then some ⟨k, ⟨uf.toNat % 4, by omega⟩, z, none⟩
  else none

/-- The bytes of a BID or HOLD after its serial: a stream reference byte only when the flag says so. -/
def parseClaimBytes : List Byte → Option ClaimFields
  | [k, uf, z] => if uf.msb then none else parseFields k uf z 0
  | [k, uf, z, r] => if uf.msb then parseFields k uf z r else none
  | _ => none

/-- A claim frame after its header byte. -/
def parseClaimFrame : List Byte → Option ClaimFrame
  | sub :: serial :: rest =>
    match sub.toNat with
    | 0 => (parseClaimBytes rest).map (ClaimFrame.bid serial)
    | 1 => (parseClaimBytes rest).map (ClaimFrame.hold serial)
    | 2 => if rest = [] then some (.release serial) else none
    | _ => none
  | _ => none

/-- Class, private flag and channel count of a descriptor byte. -/
def parseDescriptor (d : Byte) : SoundClass × Bool × Bool :=
  ((SoundClass.ofCode (d.toNat / 64)).getD .programme, d.getLsbD 5, d.getLsbD 4)

/-- A sample of three bytes. -/
def sampleOf (a b c : Byte) : Sample := a ++ b ++ c

/-- Mono samples, each a sample frame with both channels equal. -/
def parseMono : List Byte → Option (List StereoSample)
  | [] => some []
  | a :: b :: c :: rest => (parseMono rest).map (fun l => StereoSample.mono (sampleOf a b c) :: l)
  | _ => none

/-- Stereo samples, left then right. -/
def parseStereo : List Byte → Option (List StereoSample)
  | [] => some []
  | a :: b :: c :: d :: e :: f :: rest =>
    (parseStereo rest).map (fun l => ⟨sampleOf a b c, sampleOf d e f⟩ :: l)
  | _ => none

/-- The 48 sample frames of a SOUND frame. -/
def parseSamples (stereo : Bool) (bytes : List Byte) : Option (List StereoSample) :=
  match if stereo then parseStereo bytes else parseMono bytes with
  | none => none
  | some l => if l.length = Config.blockLen then some l else none

/-- The call block and the samples of a SOUND frame, by bit 3 of the descriptor. -/
def parseCall (present : Bool) (bytes : List Byte) : Option (Option CallBlock × List Byte) :=
  if present then
    match bytes with
    | st :: serial :: loss :: z :: rest => do
      let station ← finOfByte 8 st
      if loss.toNat ≤ 48 ∧ z = 0 then some (some ⟨⟨station, serial⟩, loss.toNat⟩, rest) else none
    | _ => none
  else some (none, bytes)

/-- A SOUND frame after its header byte, from the stream its key names. -/
def parseSound (stream : StreamNo) : List Byte → Option SoundFrame
  | sn :: seq :: d :: rest =>
    if sn.toNat = stream.val ∧ d &&& 0x07#8 = 0 then do
      let (call, tail) ← parseCall (d.getLsbD 3) rest
      let samples ← parseSamples (d.getLsbD 4) tail
      let (cls, priv, stereo) := parseDescriptor d
      some ⟨stream, seq, cls, priv, stereo, call, samples⟩
    else none
  | _ => none

/-- The publish list of a presence: this many entries from the sender. -/
def parsePub (sender : StationNo) : Nat → List Byte → Option (List PubEntry × List Byte)
  | 0, bytes => some ([], bytes)
  | n + 1, sn :: d :: rest => do
    let stream ← finOfByte 16 sn
    if producerOf stream = sender ∧ d &&& 0x0F#8 = 0 then do
      let (l, tail) ← parsePub sender n rest
      let (cls, priv, stereo) := parseDescriptor d
      some (⟨stream, cls, priv, stereo⟩ :: l, tail)
    else none
  | _ + 1, _ => none

/-- The held-claim list of a presence: this many entries, with nothing after them. -/
def parseHeld : Nat → List Byte → Option (List HeldEntry)
  | 0, bytes => if bytes = [] then some [] else none
  | n + 1, serial :: k :: uf :: z :: r :: rest => do
    let f ← parseFields k uf z r
    let l ← parseHeld n rest
    some (⟨serial, f⟩ :: l)
  | _ + 1, _ => none

/-- A PRESENCE frame after its header byte. -/
def parsePresence (sender : StationNo) : List Byte → Option PresenceFrame
  | st :: rz :: iz :: counts :: rest =>
    if counts.toNat / 16 ≤ 2 ∧ counts.toNat % 16 ≤ 4 then do
      let state ← PeerState.ofCode st.toNat
      let rendered ← zonesOfByte rz
      let impaired ← zonesOfByte iz
      let (pubs, tail) ← parsePub sender (counts.toNat / 16) rest
      let held ← parseHeld (counts.toNat % 16) tail
      if (pubs.map PubEntry.stream).Nodup then some ⟨state, rendered, impaired, pubs, held⟩ else none
    else none
  | _ => none

/-- The contents of a frame with this key, from its bytes without the check (R9, tests 3 and 4). -/
def parseBody (key : BitVec 6) (bytes : List Byte) : Option FrameBody :=
  match bytes with
  | [] => none
  | h :: rest =>
    if h = headerByte key then
      match (keyRank key).val with
      | 0 => if keySlot key = 0 then (parseClaimFrame rest).map FrameBody.claim else none
      | 1 => (parseSound (streamOf (keyStation key) (keySlot key)) rest).map FrameBody.sound
      | 2 => if keySlot key = 0 then (parsePresence (keyStation key) rest).map FrameBody.presence else none
      | _ => none
    else none

/-- The sense a latch value stands for. -/
def Latch.ofSense : WireSense → Latch
  | .normal => .normal
  | .crossed => .crossed

/-- Whether a preamble's polarity agrees with the latch (R9, test 1). -/
def latchAgrees (latch : Latch) (sense : WireSense) : Bool := latch = .unlatched || latch = Latch.ofSense sense

/-- The contents of an accepted frame (R9), or none where the frame is discarded. -/
def acceptFrame (latch : Latch) (f : LineFrame) : Option FrameBody :=
  if latchAgrees latch f.sense then (checkedBytes f.payload).bind (parseBody f.key) else none

/-! ### The failure record (R10) -/

/-- The kind of a discarded frame: of rank 0 only where the subtype byte was received and names one (log 22). -/
def recordKind (rank : Fin 4) (subtype : Option Byte) : Option FrameKind :=
  match rank.val with
  | 0 =>
    match subtype.map BitVec.toNat with
    | some 0 => some .bid
    | some 1 => some .hold
    | some 2 => some .release
    | _ => none
  | 1 => some .sound
  | 2 => some .presence
  | _ => none

/-- The failure record of a discarded frame: from the key alone where the polarity was at fault (R10). -/
def failureRecord (latch : Latch) (f : LineFrame) : ErrorRecord :=
  let bytes := if latchAgrees latch f.sense then f.payload else []
  let sound := (keyRank f.key).val = 1
  { rank := keyRank f.key
    kind := recordKind (keyRank f.key) bytes[1]?
    station := keyStation f.key
    stream := if sound then some (streamOf (keyStation f.key) (keySlot f.key)) else none
    seq := if sound then bytes[2]? else none }

end Sys2Proof.Machine
end

