-- ==== Sys2Proof/Machine/Line.lean ====
section
/-! DEFINITION. The Line Interface: the transmit arbiter with its stores (R12 to R17), attempts and how they end (R4,
R12, R15), the isolation counters (R18, R19), the capture (R10) and RESTART (R21). -/

namespace Sys2Proof.Machine

open Sys2Proof

/-! ### The claim-frame queue (R13 to R15) -/

/-- Whether the head of the claim-frame queue is the frame in flight. -/
def Lif.queueFlying (l : Lif) : Bool :=
  match l.flight with
  | some f => f.store == .queue && !f.orphan
  | none => false

/-- The claim frame of the queue that is in flight. -/
def Lif.flyingClaim (l : Lif) : Option ClaimFrame := if l.queueFlying then l.queue.head? else none

/-- Whether a claim frame is of a kind. -/
def isKind (k : FrameKind) (f : ClaimFrame) : Bool := f.kind == k

/-- The queue without its oldest frame of a kind that is not in flight. -/
def Lif.removeOldest (l : Lif) (k : FrameKind) : Option (List ClaimFrame) :=
  if l.queueFlying then
    match l.queue with
    | [] => none
    | h :: rest => (removeFirst (isKind k) rest).map (h :: ·)
  else removeFirst (isKind k) l.queue

/-- A frame appended to the queue, with R14 where the queue is full. -/
def Lif.append (l : Lif) (f : ClaimFrame) (reassert : Bool) : Lif :=
  if l.queue.length < Config.queueCapacity then { l with queue := l.queue ++ [f] }
  else if reassert then l
  else
    match l.removeOldest .hold with
    | some q => { l with queue := q ++ [f] }
    | none =>
      if f.kind = .bid then
        match l.removeOldest .release with
        | some q => { l with queue := q ++ [f] }
        | none => { l with besideBid := some f }
      else l

/-- Whether a new frame takes the place of a queued one of its serial (R13). -/
def takesPlace (old new : ClaimFrame) (reassert : Bool) : Bool :=
  match old, new with
  | .bid .., .release _ => true
  | .hold .., .release _ => true
  | .bid .., .hold .. => true
  | .hold .., .hold .. => !reassert
  | _, _ => false

/-- The queue with the frame of the new frame's serial replaced in its position, where R13 says so. -/
def replaceInQueue (q : List ClaimFrame) (f : ClaimFrame) (reassert : Bool) : List ClaimFrame :=
  q.map (fun g => if g.serial = f.serial ∧ takesPlace g f reassert then f else g)

/-- Adding a BID, HOLD or RELEASE, or a reassert HOLD, to the claim-frame queue (R13 to R15). -/
def Lif.addClaim (l : Lif) (f : ClaimFrame) (reassert : Bool := false) : Lif :=
  match l.flyingClaim with
  | some g =>
    if g.serial = f.serial then
      if reassert ∧ g.kind = .hold then l else { l with besideClaim := some f }
    else if l.queue.any (fun q => q.serial == f.serial) then { l with queue := replaceInQueue l.queue f reassert }
    else l.append f reassert
  | none =>
    if l.queue.any (fun q => q.serial == f.serial) then { l with queue := replaceInQueue l.queue f reassert }
    else l.append f reassert

/-- Whether a claim frame is the BID of a serial. -/
def isBidOf (s : Serial) (f : ClaimFrame) : Bool := f.kind == .bid && f.serial == s

/-- Dropping the BID of a serial (R13, R15). -/
def Lif.dropBid (l : Lif) (s : Serial) : Lif :=
  if l.flyingClaim.any (isBidOf s) then { l with flight := l.flight.map (fun f => { f with dropBid := true }) }
  else
    { l with
      queue := l.queue.filter (fun f => !isBidOf s f)
      besideBid := if l.besideBid.any (isBidOf s) then none else l.besideBid }

/-- Whether the queue makes a serial busy: a frame pending, in flight or held beside it (R43). -/
def Lif.busySerial (l : Lif) (s : Serial) : Bool :=
  l.queue.any (fun f => f.serial == s) || l.besideClaim.any (fun f => f.serial == s)
    || l.besideBid.any (fun f => f.serial == s)

/-! ### The slots (R15 to R17) -/

/-- Whether the frame in flight belongs to this store still. -/
def Lif.flying (l : Lif) (st : TxStore) : Bool :=
  match l.flight with
  | some f => f.store == st && !f.orphan
  | none => false

/-- A frame, or an empty frame, handed to a slot: beside the frame in flight (R15), or in its place. -/
def TxSlot.hand {α : Type} (flying : Bool) (t : TxSlot α) (f : Option α) : TxSlot α :=
  if flying then { t with beside := some f } else ⟨f, none⟩

/-- The PUB hands a sound slot a frame or an empty frame (R16): discarded on arrival in ISOLATED. -/
def Lif.handSound (l : Lif) (lc : Lifecycle) (slot : PubSlotNo) (f : Option SoundFrame) : Lif :=
  if lc = .isolated then l
  else { l with sound := l.sound.modify slot (fun t => t.hand (l.flying (.sound slot)) f) }

/-- The CLE hands the presence slot a frame (R17). -/
def Lif.handPresence (l : Lif) (f : PresenceFrame) : Lif :=
  { l with presence := l.presence.hand (l.flying .presence) (some f) }

/-- Whether a presence is pending or in flight (R30). -/
def Lif.presencePending (l : Lif) : Bool :=
  l.presence.frame.isSome || l.presence.beside.isSome ||
    match l.flight with
    | some f => f.store == .presence
    | none => false

/-! ### Attempts (R4, R12, R15) -/

/-- The best pending frame and its store, by the lifecycle state (R12). -/
def Lif.offer (l : Lif) (lc : Lifecycle) : Option (TxStore × FrameBody) :=
  let presence := l.presence.frame.map (fun f => (TxStore.presence, FrameBody.presence f))
  match lc with
  | .config | .joining => none
  | .isolated => presence
  | .active =>
    match l.queue.head?, (l.sound.get 0).frame, (l.sound.get 1).frame with
    | some f, _, _ => some (.queue, .claim f)
    | none, some f, _ => some (.sound 0, .sound f)
    | none, none, some f => some (.sound 1, .sound f)
    | none, none, none => presence

/-- An attempt begins where R4 lets it: the line is idle, nothing is in flight and a frame is on offer. Its first
dominant bit is a start of frame, so the idle ends (R2). -/
def Lif.arbitrate (l : Lif) (lc : Lifecycle) : Lif :=
  if l.lineIdle ∧ l.flight = none then
    match l.offer lc with
    | none => l
    | some (st, body) =>
      { l with flight := some ⟨st, body, l.latch == .crossed, false, false⟩, lineIdle := false }
  else l

/-- How an attempt ends (R4). -/
inductive AttemptEnd where
  | lost | bitError | completed
deriving DecidableEq, Repr

/-- A slot after the attempt of its frame: what is held beside takes the frame's place; else a completed frame leaves
and a failed one stays pending, unless it is the probe, which a bit error removes (R12, R15, R20). -/
def TxSlot.ended {α : Type} (t : TxSlot α) (leaves : Bool) : TxSlot α :=
  match t.beside with
  | some f => ⟨f, none⟩
  | none => if leaves then ⟨none, none⟩ else t

/-- The queue after the attempt of its head (R15): a completed head leaves and the frame held beside is appended; a
failed head stays, or gives its place to the frame held beside, or is removed where its drop was asked. -/
def Lif.queueEnded (l : Lif) (drop : Bool) (completed : Bool) : Lif :=
  let l0 := { l with besideClaim := none, flight := none }
  if completed then
    let l1 := { l0 with queue := l.queue.tail }
    match l.besideClaim with
    | some f => l1.append f false
    | none => l1
  else
    match l.besideClaim with
    | some f => { l0 with queue := f :: l.queue.tail }
    | none => if drop then { l0 with queue := l.queue.tail } else l0

/-- A BID held beside a full queue is appended when the attempt in flight ends (R14). -/
def Lif.appendBeside (l : Lif) : Lif :=
  match l.besideBid with
  | none => l
  | some f => { l with besideBid := none }.append f false

/-- The stores after the attempt of the frame in flight (R12, R15, R20). A frame cut off from its store is not
retried. -/
def Lif.attemptEnded (l : Lif) (lc : Lifecycle) (f : Flight) (e : AttemptEnd) : Lif :=
  let done := e == .completed
  if f.orphan then { l with flight := none }.appendBeside
  else
    match f.store with
    | .queue => (l.queueEnded f.dropBid done).appendBeside
    | .sound i => { l with flight := none, sound := l.sound.modify i (fun t => t.ended done) }.appendBeside
    | .presence =>
      { l with flight := none, presence := l.presence.ended (done || (e == AttemptEnd.bitError && lc == Lifecycle.isolated)) }.appendBeside

/-- The bit-error run after an attempt (R18): it rises at a bit error, except in ISOLATED, and completion clears it. -/
def bitErrorRunAfter (lc : Lifecycle) (run : Nat) : AttemptEnd → Nat
  | .lost => run
  | .bitError => if lc = .isolated then run else min Config.bitErrorEnd (run + 1)
  | .completed => 0

/-! ### Idle and isolation (R2, R19, R21, R26) -/

/-- The line becomes idle (R2): the idle-seen flag is set and a pending frame is offered. -/
def Lif.becomeIdle (l : Lif) (lc : Lifecycle) : Lif := { l with lineIdle := true, idleSeen := true }.arbitrate lc

/-- Whether a frame is pending or in flight in any store (R19). -/
def Lif.anyPending (l : Lif) : Bool :=
  !l.queue.isEmpty || (l.sound.get 0).frame.isSome || (l.sound.get 1).frame.isSome || l.presence.frame.isSome

/-- The no-idle counter at a block boundary in ACTIVE (R19). -/
def Lif.noIdleAfter (l : Lif) : Nat := if l.anyPending ∧ l.idleSeen = false then l.noIdle + 1 else 0

/-- A frame in flight cut off from its store. -/
def Flight.cutOff (f : Flight) : Flight := { f with orphan := true }

/-- The LIF at entry to ISOLATED (R26, R18, R19): the slots are discarded, a sound or presence frame in flight finishes
its attempt and is not retried, and the counters start again. -/
def Lif.isolate (l : Lif) : Lif :=
  { l with
    sound := Tbl.fill 2 TxSlot.empty
    presence := TxSlot.empty
    flight := l.flight.map (fun f => if f.store = .queue then f else f.cutOff)
    bitErrorRun := 0
    noIdle := 0
    idleSeen := false }

/-- The LIF at RESTART (R21): the polarity latch, the idle condition and the capture are kept. -/
def Lif.restart (l : Lif) : Lif :=
  { l with
    queue := []
    besideClaim := none
    besideBid := none
    sound := Tbl.fill 2 TxSlot.empty
    presence := TxSlot.empty
    flight := l.flight.map Flight.cutOff
    bitErrorRun := 0
    noIdle := 0
    idleSeen := false }

/-! ### The capture (R10) and the latch (R3) -/

/-- A frame is discarded (R10): the count rises, and the record is filled where it was absent, with its notice. -/
def Lif.discard (l : Lif) (f : LineFrame) : Lif × List Notice :=
  let l1 := { l with errorCount := min Config.errorCountTop (l.errorCount + 1) }
  match l.errorRecord with
  | some _ => (l1, [])
  | none => ({ l1 with errorRecord := some (failureRecord l.latch f) }, [.lineError (failureRecord l.latch f)])

/-- The first accepted frame from a peer latches the polarity it showed (R3). -/
def Lif.takeLatch (l : Lif) (sense : WireSense) : Lif :=
  if l.latch = .unlatched then { l with latch := Latch.ofSense sense } else l

/-- The capture read and cleared (R10). -/
def Lif.clearErrors (l : Lif) : Lif := { l with errorCount := 0, errorRecord := none }

end Sys2Proof.Machine
end

