-- ==== Sys2Proof/Machine/Claims.lean ====
section
/-! DEFINITION. The Claim Engine: the claim list (R38 to R41), own claims (R42 to R53), claims heard from peers (R54 to
R57), defence (R58, R59), presence and the peer table (R29 to R36), isolation and return (R26, R28). It works on a view
of the station made of the LIF, the CLE and the CPT, which are the blocks its rules change. -/

namespace Sys2Proof.Machine

open Sys2Proof

/-- What a composition takes from other owners (R29). -/
structure Env where
  own : StationNo
  rendered : ZoneSet
  impaired : ZoneSet
  publish : List PubEntry
deriving DecidableEq, Repr

/-- The blocks the Claim Engine's rules change: the LIF, the CLE, and the notice set of the CPT. -/
structure Link where
  lif : Lif
  cle : Cle
  cpt : Cpt
deriving DecidableEq, Repr

/-! ### The claim list (R38 to R41) -/

/-- Whether a claim's key is better than another's: higher urgency, then lower station (R39). -/
def keyBetter (a b : Claim) : Bool :=
  decide (b.fields.urgency < a.fields.urgency)
    || (a.fields.urgency == b.fields.urgency && decide (a.name.station < b.name.station))

/-- A claim entered at the end of the entries of its key (R39). -/
def insertByKey (c : Claim) : List Claim → List Claim
  | [] => [c]
  | d :: l => if keyBetter c d then c :: d :: l else d :: insertByKey c l

/-- The list without the entry of a name. -/
def eraseClaim (n : ClaimRef) (l : List Claim) : List Claim := l.filter (fun c => c.name != n)

/-- The entry of a name. -/
def findClaim (n : ClaimRef) (l : List Claim) : Option Claim := l.find? (fun c => c.name == n)

/-- An entry with new values: in its place, or, where its urgency changes, at the end of its new key (R39). -/
def updateClaim (c : Claim) (l : List Claim) : List Claim :=
  match findClaim c.name l with
  | none => insertByKey c l
  | some d =>
    if d.fields.urgency = c.fields.urgency then l.map (fun e => if e.name = c.name then c else e)
    else insertByKey c (eraseClaim c.name l)

/-- Whether two claims conflict (R41). -/
def conflicts (a b : Claim) : Bool :=
  a.name.station != b.name.station && a.fields.kind.exclusive && a.fields.kind == b.fields.kind
    && zonesShare a.fields.zones b.fields.zones

/-- Whether an entry is HELD. -/
def Claim.isHeld (c : Claim) : Bool := c.state == .held

/-- Whether an entry is an own TENTATIVE one. -/
def Claim.isBidding (c : Claim) : Bool :=
  match c.state with
  | .bidding .. => true
  | _ => false

/-- The age of a heard TENTATIVE entry. -/
def Claim.heardAge (c : Claim) : Option Nat :=
  match c.state with
  | .heard a => some a
  | _ => none

/-- A station's entries. -/
def claimsOf (p : StationNo) (l : List Claim) : List Claim := l.filter (fun c => c.name.station == p)

/-- This station's HELD entries, in list order. -/
def ownHeld (own : StationNo) (l : List Claim) : List Claim := l.filter (fun c => c.name.station == own && c.isHeld)

/-- This station's TENTATIVE entry. -/
def ownBidding (own : StationNo) (l : List Claim) : Option Claim :=
  l.find? (fun c => c.name.station == own && c.isBidding)

/-- The greatest age among the heard TENTATIVE entries of a station. -/
def greatestAge (p : StationNo) (l : List Claim) : Option Nat := ((claimsOf p l).filterMap Claim.heardAge).max?

/-- The list without the heard TENTATIVE entry of p with the greatest age, the first in list order among several (R54,
R55, R33); none when p has no such entry. -/
def evictOldest (p : StationNo) (skip : Claim → Bool) (l : List Claim) : Option (List Claim) :=
  match greatestAge p (l.filter (fun c => !skip c)) with
  | none => none
  | some a => removeFirst (fun c => c.name.station == p && c.state == .heard a && !skip c) l

/-- A heard entry added, with room made for it (R54, R55). -/
def addHeard (c : Claim) (l : List Claim) : List Claim :=
  if (claimsOf c.name.station l).length < Config.claimsPerStation then insertByKey c l
  else
    match evictOldest c.name.station (fun _ => false) l with
    | some l' => insertByKey c l'
    | none => l

/-! ### What the list gives to other blocks (R60, R61) -/

/-- The effective claims that cover a zone set, in list order (R60). -/
def Cle.covering (c : Cle) (zs : ZoneSet) : List Claim := c.claims.filter (fun e => e.isHeld && zonesShare e.fields.zones zs)

/-- The best-keyed effective claim of a kind that covers a zone set (R60). -/
def Cle.bestOf (c : Cle) (k : ClaimKind) (zs : ZoneSet) : Option Claim :=
  c.claims.find? (fun e => e.isHeld && e.fields.kind == k && zonesShare e.fields.zones zs)

/-- Whether a CALL claim is a private call (R61). -/
def Cle.privateCall (c : Cle) (e : Claim) : Bool :=
  match e.fields.ref with
  | some n => c.marks.get n
  | none => false

/-- A stream's private mark written (R61). -/
def Cle.mark (c : Cle) (n : StreamNo) (priv : Bool) : Cle := { c with marks := c.marks.set n priv }

/-! ### Notices, the queue and presence -/

/-- A notice raised by the Claim Engine or the LIF. -/
def Link.raise (k : Link) (n : Notice) : Link := { k with cpt := k.cpt.raise n }

/-- A claim frame handed to the queue (R13). -/
def Link.queue (k : Link) (f : ClaimFrame) (reassert : Bool := false) : Link := { k with lif := k.lif.addClaim f reassert }

/-- The claim list changed. -/
def Link.setClaims (k : Link) (l : List Claim) : Link := { k with cle := { k.cle with claims := l } }

/-- The presence this station composes now (R29): ACTIVE, or a probe in ISOLATED. -/
def Link.compose (k : Link) (env : Env) : PresenceFrame where
  state := if k.cle.lifecycle = .isolated then .isolated else .active
  rendered := env.rendered
  impaired := env.impaired
  publish := env.publish
  held := (ownHeld env.own k.cle.claims).map (fun c => ⟨c.name.serial, c.fields⟩)

/-- The peer-table entry a presence makes (R31, R32). -/
def PeerEntry.ofPresence (f : PresenceFrame) : PeerEntry := ⟨f.state, f.rendered, f.impaired, f.publish, 0⟩

/-- A presence composed and handed to the slot; the own peer entry takes it (R29, R31). -/
def Link.handPresence (k : Link) (env : Env) : Link :=
  { k with
    lif := k.lif.handPresence (k.compose env)
    cle := { k.cle with peers := k.cle.peers.set env.own (some (PeerEntry.ofPresence (k.compose env))) } }

/-- Own HELD claims changed: while a presence is pending or in flight, in ACTIVE or ISOLATED, a fresh one is composed
(R30). -/
def Link.recompose (k : Link) (env : Env) : Link :=
  if (k.cle.lifecycle = .active ∨ k.cle.lifecycle = .isolated) ∧ k.lif.presencePending then k.handPresence env else k

/-! ### Own claims (R43, R45 to R49) -/

/-- Whether a serial is busy (R43). -/
def Link.busySerial (k : Link) (own : StationNo) (s : Serial) : Bool :=
  (findClaim ⟨own, s⟩ k.cle.claims).isSome || k.lif.busySerial s

/-- The first serial at or after `s` that is not busy, among the next `n`. -/
def Link.searchSerial (k : Link) (own : StationNo) : Nat → Serial → Serial
  | 0, s => s
  | n + 1, s => if k.busySerial own s then k.searchSerial own n (s + 1) else s

/-- The serial of the next own claim (R43). -/
def Link.nextSerial (k : Link) (own : StationNo) : Serial := k.searchSerial own 256 k.cle.serialCounter

/-- The counter after a serial was taken (R43). -/
def Link.setCounter (k : Link) (s : Serial) : Link := { k with cle := { k.cle with serialCounter := s + 1 } }

/-- An own claim entered in the list. -/
def Link.addOwn (k : Link) (own : StationNo) (s : Serial) (f : ClaimFields) (st : ClaimState) (o : Origin) : Link :=
  k.setClaims (insertByKey ⟨⟨own, s⟩, f, st, some o⟩ k.cle.claims)

/-- An own overlay claim made (R45, R49): HELD at once, its HOLD queued, a waiting presence composed again. -/
def Link.holdOverlay (k : Link) (env : Env) (f : ClaimFields) (o : Origin) : Link :=
  let s := k.nextSerial env.own
  (((k.setCounter s).addOwn env.own s f .held o).queue (.hold s f)).recompose env

/-- An own TENTATIVE claim abandoned (R47). -/
def Link.abandon (k : Link) (c : Claim) : Link :=
  let k1 := k.setClaims (eraseClaim c.name k.cle.claims)
  match c.state with
  | .bidding _ (some _) => k1.queue (.release c.name.serial)
  | _ => { k1 with lif := k1.lif.dropBid c.name.serial }

/-- The links that a predicate on own TENTATIVE entries picks are cleared (R50). -/
def clearLinks (own : StationNo) (p : Claim → Bool) (l : List Claim) : List Claim :=
  l.map (fun c =>
    match c.state with
    | .bidding _ w => if c.name.station = own ∧ p c then { c with state := .bidding false w } else c
    | _ => c)

/-- An own exclusive claim made, past the CONFLICT and LIMIT checks (R46, steps 3 to 5). -/
def Link.startBid (k : Link) (env : Env) (f : ClaimFields) (o : Origin) : Link :=
  let k1 :=
    match ownBidding env.own k.cle.claims with
    | some c => (k.abandon c).raise (.claimResult c.name.serial .replaced)
    | none => k
  let s := k1.nextSerial env.own
  let mine : Claim := ⟨⟨env.own, s⟩, f, .bidding true none, some o⟩
  let outbid := k1.cle.claims.any (fun c => c.heardAge.isSome && conflicts c mine && keyBetter c mine)
  ((k1.setCounter s).addOwn env.own s f (.bidding (!outbid) none) o).queue (.bid s f)

/-- An own HELD claim removed, with its RELEASE queued and a waiting presence composed again (R48, R49). -/
def Link.releaseHeld (k : Link) (env : Env) (c : Claim) : Link :=
  ((k.setClaims (eraseClaim c.name k.cle.claims)).queue (.release c.name.serial)).recompose env

/-- The arguments of a CLAIM as claim fields, or none where R44 answers BAD_ARGUMENT. -/
def claimArguments (kind urgency zones : Byte) (ref : Option Byte) : Option ClaimFields := do
  let k ← ClaimKind.ofCode kind.toNat
  let u ← finOfByte 4 urgency
  let z ← zonesOfByte zones
  let r ← (match ref with
    | none => some none
    | some b => (finOfByte 16 b).map some)
  if z ≠ 0 ∧ refFits k r then some ⟨k, u, z, r⟩ else none

/-- A CLAIM request (R44 to R46): the answer and the blocks after it. -/
def Link.claimRequest (k : Link) (env : Env) (kind urgency zones : Byte) (ref : Option Byte) :
    Status × List Byte × Link :=
  if k.cle.lifecycle ≠ .active then (.notReady, [], k)
  else
    match claimArguments kind urgency zones ref with
    | none => (.badArgument, [], k)
    | some f =>
      if f.kind.exclusive then
        if k.cle.claims.any (fun c => c.isHeld && conflicts c ⟨⟨env.own, 0⟩, f, .held, none⟩) then (.conflict, [], k)
        else if Config.claimsPerStation ≤ (claimsOf env.own k.cle.claims).length then (.limit, [], k)
        else
          let k1 := k.startBid env f .port
          (.accepted, [k1.cle.serialCounter - 1], k1)
      else if Config.claimsPerStation ≤ (claimsOf env.own k.cle.claims).length then (.limit, [], k)
      else
        let k1 := k.holdOverlay env f .port
        (.accepted, [k1.cle.serialCounter - 1], k1)

/-- A RELEASE request (R48). -/
def Link.releaseRequest (k : Link) (env : Env) (serial : Serial) : Status × Link :=
  if k.cle.lifecycle = .config ∨ k.cle.lifecycle = .joining then (.notReady, k)
  else
    match findClaim ⟨env.own, serial⟩ k.cle.claims with
    | none => (.badArgument, k)
    | some c =>
      if c.origin = some .radio then (.badArgument, k)
      else if c.isBidding then (.accepted, k.abandon c)
      else (.accepted, k.releaseHeld env c)

/-- The Radio Unit asks for its ANNOUNCE claim (R49): the serial when PLACED. -/
def Link.placeAnnounce (k : Link) (env : Env) (zones : ZoneSet) (ref : Option StreamNo) : Option Serial × Link :=
  if k.cle.lifecycle = .active ∧ (claimsOf env.own k.cle.claims).length < Config.claimsPerStation then
    (some (k.nextSerial env.own), k.holdOverlay env ⟨.announce, 0, zones, ref⟩ .radio)
  else (none, k)

/-- The Radio Unit ends its ANNOUNCE claim (R49). -/
def Link.endAnnounce (k : Link) (env : Env) (serial : Serial) : Link :=
  match findClaim ⟨env.own, serial⟩ k.cle.claims with
  | none => k
  | some c => k.releaseHeld env c

/-! ### Defence (R50, R58, R59) -/

/-- A reassert HOLD of an own claim (R58). -/
def Link.reassert (k : Link) (c : Claim) : Link := k.queue (.hold c.name.serial c.fields) true

/-- A heard BID meets the own claims: a better key clears the link (R50), and each conflicting own HELD claim is
reasserted (R58), in claim-list order (log 32). -/
def Link.meetBid (k : Link) (env : Env) (bid : Claim) : Link :=
  let k1 := k.setClaims (clearLinks env.own (fun c => conflicts bid c && keyBetter bid c) k.cle.claims)
  ((ownHeld env.own k1.cle.claims).filter (conflicts bid)).foldl Link.reassert k1

/-- One own HELD claim settled against a conflicting hold (R59). -/
def Link.settleOne (env : Env) (hold : Claim) (k : Link) (c : Claim) : Link :=
  if keyBetter hold c then
    (((k.setClaims (eraseClaim c.name k.cle.claims)).queue (.release c.name.serial)).raise
      (.claimLost c.name.serial c.fields.kind hold.name)).recompose env
  else k.reassert c

/-- A heard hold meets the own claims: it clears the link (R50) and is settled against each conflicting own HELD claim
(R59), in claim-list order (log 32). -/
def Link.meetHold (k : Link) (env : Env) (hold : Claim) : Link :=
  let k1 := k.setClaims (clearLinks env.own (conflicts hold) k.cle.claims)
  ((ownHeld env.own k1.cle.claims).filter (conflicts hold)).foldl (Link.settleOne env hold) k1

/-! ### Claims heard from peers (R34, R54 to R56) -/

/-- A claim frame of p makes entry p present where it is empty (R34). -/
def Link.appear (k : Link) (p : StationNo) : Link :=
  match k.cle.peers.get p with
  | some _ => k
  | none =>
    ({ k with cle := { k.cle with peers := k.cle.peers.set p (some ⟨.active, 0, 0, [], 0⟩) } }).raise (.peerAppeared p)

/-- The claim list after a heard BID (R54). -/
def bidHeard (c : Claim) (l : List Claim) : List Claim :=
  match findClaim c.name l with
  | none => addHeard c l
  | some d => if d.isHeld then l else updateClaim c l

/-- The claim list after a heard HOLD (R55). -/
def holdHeard (c : Claim) (l : List Claim) : List Claim :=
  match findClaim c.name l with
  | none => addHeard c l
  | some _ => updateClaim c l

/-- A heard BID (R34, R54, R50, R58). -/
def Link.hearBid (k : Link) (env : Env) (p : StationNo) (s : Serial) (f : ClaimFields) : Link :=
  let c : Claim := ⟨⟨p, s⟩, f, .heard 0, none⟩
  let k1 := k.appear p
  (k1.setClaims (bidHeard c k1.cle.claims)).meetBid env c

/-- A heard HOLD (R34, R55, R50, R59). -/
def Link.hearHold (k : Link) (env : Env) (p : StationNo) (s : Serial) (f : ClaimFields) : Link :=
  let c : Claim := ⟨⟨p, s⟩, f, .held, none⟩
  let k1 := k.appear p
  (k1.setClaims (holdHeard c k1.cle.claims)).meetHold env c

/-- A heard RELEASE (R34, R56). -/
def Link.hearRelease (k : Link) (p : StationNo) (s : Serial) : Link :=
  match k.cle.peers.get p with
  | none => k
  | some _ => k.setClaims (eraseClaim ⟨p, s⟩ k.cle.claims)

/-! ### Presence heard (R32, R33) -/

/-- Heard TENTATIVE entries of p that are not listed go, oldest first, until `n` listed entries fit (R33). -/
def makeRoom (p : StationNo) (listed : Claim → Bool) (n : Nat) : Nat → List Claim → List Claim
  | 0, l => l
  | fuel + 1, l =>
    if n + ((claimsOf p l).filter (fun c => !listed c)).length ≤ Config.claimsPerStation then l
    else
      match evictOldest p listed l with
      | some l' => makeRoom p listed n fuel l'
      | none => l

/-- The claim list after a presence of p with this held-claim list (R33). -/
def presenceClaims (p : StationNo) (held : List HeldEntry) (l : List Claim) : List Claim :=
  let serials := (held.map HeldEntry.serial).eraseDups
  let listed := fun (c : Claim) => serials.contains c.name.serial
  let l1 := l.filter (fun c => c.name.station != p || !c.isHeld || listed c)
  let l2 := makeRoom p listed serials.length Config.claimsPerStation l1
  held.foldl (fun acc e => updateClaim ⟨⟨p, e.serial⟩, e.fields, .held, none⟩ acc) l2

/-- The peer table and its notice at a presence of p (R32, step 1 and 2). -/
def Link.peerTaken (k : Link) (p : StationNo) (f : PresenceFrame) : Link :=
  let k1 := { k with cle := { k.cle with peers := k.cle.peers.set p (some (PeerEntry.ofPresence f)) } }
  match k.cle.peers.get p with
  | none => k1.raise (.peerAppeared p)
  | some e => if e.state = f.state then k1 else k1.raise (.peerState p f.state)

/-- The private marks at a presence (R61). -/
def Cle.markAll (c : Cle) (l : List PubEntry) : Cle := l.foldl (fun acc e => acc.mark e.stream e.priv) c

/-- A presence of peer p (R32, R33, R61). -/
def Link.hearPresence (k : Link) (env : Env) (p : StationNo) (f : PresenceFrame) : Link :=
  let k1 := k.peerTaken p f
  let k2 := { k1 with cle := { k1.cle.markAll f.publish with claims := presenceClaims p f.held k1.cle.claims } }
  f.held.foldl (fun acc e => acc.meetHold env ⟨⟨p, e.serial⟩, e.fields, .held, none⟩) k2

/-! ### Completion, window and ageing (R51, R52, R57, R35) -/

/-- An own entry's state changed in its place. -/
def setClaimState (n : ClaimRef) (st : ClaimState) (l : List Claim) : List Claim :=
  l.map (fun c => if c.name = n then { c with state := st } else c)

/-- The LIF reports a completed claim frame (R51). -/
def Link.claimCompleted (k : Link) (env : Env) (f : ClaimFrame) : Link :=
  match f with
  | .bid s _ =>
    match ownBidding env.own k.cle.claims with
    | some c =>
      if c.name.serial = s then
        match c.state with
        | .bidding link none => k.setClaims (setClaimState c.name (.bidding link (some 0)) k.cle.claims)
        | _ => k
      else k.queue (.release s)
    | none => k.queue (.release s)
  | .hold .. | .release .. => k

/-- The bid window of an own claim expires (R52). -/
def Link.expireWindow (k : Link) (env : Env) (c : Claim) (link : Bool) : Link :=
  if link then
    (((k.setClaims (setClaimState c.name .held k.cle.claims)).queue (.hold c.name.serial c.fields)).raise
      (.claimResult c.name.serial .won)).recompose env
  else (k.setClaims (eraseClaim c.name k.cle.claims)).raise (.claimResult c.name.serial .failedOutbid)

/-- The bid window at a block boundary (R52). -/
def Link.tickWindow (k : Link) (env : Env) : Link :=
  match ownBidding env.own k.cle.claims with
  | none => k
  | some c =>
    match c.state with
    | .bidding link (some w) =>
      if w + 1 < Config.windowEnd then k.setClaims (setClaimState c.name (.bidding link (some (w + 1))) k.cle.claims)
      else k.expireWindow env c link
    | _ => k

/-- The heard TENTATIVE entries at a block boundary: one older, removed at age 4 (R57). -/
def ageBids (l : List Claim) : List Claim :=
  l.filterMap (fun c =>
    match c.state with
    | .heard a => if a + 1 < Config.bidAgeEnd then some { c with state := .heard (a + 1) } else none
    | _ => some c)

/-- The peer entries at a block boundary: one older, but for the station's own (R31). -/
def agePeers (own : StationNo) (t : Tbl 8 (Option PeerEntry)) : Tbl 8 (Option PeerEntry) :=
  Tbl.ofFn (fun p => (t.get p).map (fun e => if p = own then e else { e with age := e.age + 1 }))

/-- The peers whose entries are due to expire (R35), in ascending station number: R35 and R217 give several that expire at
one boundary no order, and the PEER notice keeps the last (log 43). -/
def expiredPeers (own : StationNo) (t : Tbl 8 (Option PeerEntry)) : List StationNo :=
  (Tbl.indices 8).filter (fun p => p != own && (t.get p).any (fun e => Config.peerAgeEnd ≤ e.age))

/-- Peer entry p expires, as far as the CLE keeps it (R35). -/
def Link.expirePeer (k : Link) (p : StationNo) : Link :=
  ({ k with cle := { k.cle with
      claims := k.cle.claims.filter (fun c => c.name.station != p)
      peers := k.cle.peers.set p none } }).raise (.peerExpired p)

/-! ### Lifecycle (R24, R26 to R28, R37, R53) -/

/-- JOINING ends (R24): the station is ACTIVE, with a presence composed and handed. -/
def Link.joined (k : Link) (env : Env) : Link :=
  ({ k with cle := { k.cle with lifecycle := .active, presenceCount := 0 } }).handPresence env

/-- The presence counter reaches its end: a presence, or a probe, is composed and handed (R27, R30). -/
def Link.presenceDue (k : Link) (env : Env) : Link :=
  ({ k with cle := { k.cle with presenceCount := 0 } }).handPresence env

/-- The joining counter or the presence counter at a block boundary (R24, R27, R30). -/
def Link.tickCadence (k : Link) (env : Env) : Link :=
  match k.cle.lifecycle with
  | .config => k
  | .joining =>
    let k1 := { k with cle := { k.cle with joining := k.cle.joining + 1 } }
    if k1.cle.joining < Config.joiningEnd then k1 else k1.joined env
  | .active | .isolated =>
    let k1 := { k with cle := { k.cle with presenceCount := k.cle.presenceCount + 1 } }
    if k1.cle.presenceCount < Config.presencePeriod then k1 else k1.presenceDue env

/-- Whether the BID of a serial is in flight. -/
def Lif.bidFlying (l : Lif) (s : Serial) : Bool := l.flyingClaim.any (isBidOf s)

/-- An own TENTATIVE claim whose BID waits, at isolation (R53): abandoned, unless its BID is in flight. -/
def Link.abandonAtIsolation (k : Link) (env : Env) : Link :=
  match ownBidding env.own k.cle.claims with
  | none => k
  | some c =>
    match c.state with
    | .bidding _ none =>
      if k.lif.bidFlying c.name.serial then k
      else (k.abandon c).raise (.claimResult c.name.serial .failedIsolated)
    | _ => k

/-- Entry to ISOLATED (R26, R53). -/
def Link.isolate (k : Link) (env : Env) (cause : IsolationCause) : Link :=
  (({ k with
      lif := k.lif.isolate
      cle := { k.cle with lifecycle := .isolated, presenceCount := 0 } }).abandonAtIsolation env).raise (.isolated cause)

/-- Return to ACTIVE on a completed probe (R28). -/
def Link.rejoin (k : Link) (env : Env) : Link :=
  (({ k with cle := { k.cle with lifecycle := .active, presenceCount := 0 } }).handPresence env).raise .rejoined

/-- An attempt begins where R4 lets it. -/
def Link.arbitrate (k : Link) : Link := { k with lif := k.lif.arbitrate k.cle.lifecycle }

/-- The attempt in flight is lost (R6): the frame stays pending. A failed BID of a claim that waits in ISOLATED is
abandoned (R53). -/
def Link.attemptLost (k : Link) (env : Env) (f : Flight) : Link :=
  let k1 := { k with lif := k.lif.attemptEnded k.cle.lifecycle f .lost }
  if k.cle.lifecycle = .isolated then k1.abandonAtIsolation env else k1

/-- The attempt in flight ends in bit error (R7, R18, R20, R53): the sixteenth in a row in ACTIVE is reported. -/
def Link.attemptBitError (k : Link) (env : Env) (f : Flight) : Link :=
  let l1 := k.lif.attemptEnded k.cle.lifecycle f .bitError
  let run := bitErrorRunAfter k.cle.lifecycle k.lif.bitErrorRun .bitError
  let k1 := { k with lif := { l1 with bitErrorRun := run } }
  match k.cle.lifecycle with
  | .isolated => k1.abandonAtIsolation env
  | .active => if run < Config.bitErrorEnd then k1 else k1.isolate env .bitErrors
  | .config | .joining => k1

/-- The attempt in flight completes (R12, R18, R20, R28, R51). -/
def Link.attemptCompleted (k : Link) (env : Env) (f : Flight) : Link :=
  let l1 := k.lif.attemptEnded k.cle.lifecycle f .completed
  let k1 := { k with lif := { l1 with bitErrorRun := 0 } }
  if f.orphan then k1
  else
    match f.body with
    | .claim c => k1.claimCompleted env c
    | .sound _ => k1
    | .presence _ => if k.cle.lifecycle = .isolated then k1.rejoin env else k1

/-- The no-idle check at a block boundary in ACTIVE (R19): at 2 isolation is reported. -/
def Link.checkNoIdle (k : Link) (env : Env) : Link :=
  if k.cle.lifecycle = .active then
    let n := k.lif.noIdleAfter
    let k1 := { k with lif := { k.lif with noIdle := n, idleSeen := false } }
    if n < Config.noIdleEnd then k1 else k1.isolate env .noIdle
  else k

/-- A frame heard from a peer under another number, delivered to the CLE (R9, R32, R54 to R56). -/
def Link.hearFrame (k : Link) (env : Env) (p : StationNo) : FrameBody → Link
  | .claim (.bid s f) => k.hearBid env p s f
  | .claim (.hold s f) => k.hearHold env p s f
  | .claim (.release s) => k.hearRelease p s
  | .presence f => k.hearPresence env p f
  | .sound _ => k

/-- The CLE at RESTART (R37, R61): the own serial counter is kept. -/
def Cle.restart (c : Cle) : Cle := { Cle.reset with lifecycle := .joining, serialCounter := c.serialCounter }

end Sys2Proof.Machine
end

