-- ==== Sys2Proof/Machine/Gain.lean ====
section
/-! DEFINITION. The gain law shared by the Mix Engine, the Radio Unit and the Pickup Unit (R110, R111), and the level of
a block (R186). -/

namespace Sys2Proof.Machine

open Sys2Proof

/-- The mantissa table M (R110). -/
def mantissa : Nat → Nat
  | 0 => 32768
  | 1 => 30048
  | 2 => 27554
  | 3 => 25268
  | 4 => 23170
  | 5 => 21247
  | 6 => 19484
  | _ => 17867

/-- The linear gain G(a) = floor(M[a mod 8] / 2^(a div 8)) (R110). -/
def gain (a : Nat) : Nat := mantissa (a % 8) / 2 ^ (a / 8)

/-- The product of a sample and a gain: floor((s × G + 16384) / 32768) (R111). -/
def product (s : Int) (g : Nat) : Int := (s * g + 16384) / 32768

/-- A sample at an attenuation. -/
def attenuate (a : Nat) (s : Sample) : Sample := BitVec.ofInt 24 (product s.toInt (gain a))

/-- Shift right by 1 of a signed value (00). -/
def half (x : Int) : Int := x / 2

/-- The magnitude of a sample: that of −8,388,608 counts as 8,388,607 (R186). -/
def magnitude (x : Sample) : Nat := min 8388607 x.toInt.natAbs

/-- The peak of a block (R186). -/
def peak (l : List Sample) : Nat := l.foldl (fun acc x => max acc (magnitude x)) 0

/-- The level of a peak (R186). -/
def levelOfPeak (p : Nat) : Nat :=
  if p = 0 then Config.mute
  else
    let k := p.log2
    let m := if 3 ≤ k then p / 2 ^ (k - 3) else p * 2 ^ (3 - k)
    min Config.mute (8 * (22 - k) + (15 - m))

/-- The level of a block (R186). -/
def level (l : List Sample) : Nat := levelOfPeak (peak l)

end Sys2Proof.Machine
end

