-- ==== Sys2Proof/Machine/Intake.lean ====
section
/-! DEFINITION. The Intake: the stream-heard table (R72, R73), the call-loss table (R74, R75) and the intake buffers (R76
to R88). -/

namespace Sys2Proof.Machine

open Sys2Proof

/-! ### Buffers (R76, R81 to R88) -/

/-- A buffer emptied (R76): state, stream and static flag are kept. -/
def Buffer.emptied (b : Buffer) : Buffer :=
  { b with ring := [], expected := none, highRun := 0, lowRun := 0, gap := false }

/-- Sample frames for the ring, with the private flag of their SOUND frame. -/
def ringFrames (priv : Bool) (l : List StereoSample) : List RingFrame := l.map (fun x => ⟨x.l, x.r, priv⟩)

/-- A block of silence. -/
def silentRing (n : Nat) : List RingFrame := List.replicate n ⟨0, 0, false⟩

/-- One block appended, the oldest block discarded first where it would pass 192 (R82); whether it was. -/
def appendBlock (ring block : List RingFrame) : List RingFrame × Bool :=
  if Config.ringLen < ring.length + Config.blockLen then (ring.drop Config.blockLen ++ block, true)
  else (ring ++ block, false)

/-- Several blocks appended one after the other. -/
def appendBlocks (ring : List RingFrame) (blocks : List (List RingFrame)) : List RingFrame × Bool :=
  blocks.foldl (fun acc b => ((appendBlock acc.1 b).1, acc.2 || (appendBlock acc.1 b).2)) (ring, false)

/-- Blocks appended to a buffer, and whether any was discarded. -/
def Buffer.append (b : Buffer) (blocks : List (List RingFrame)) : Buffer × Bool :=
  let r := appendBlocks b.ring blocks
  ({ b with ring := r.1 }, r.2)

/-- The buffer enters PRIMING, emptied. -/
def Buffer.primed (b : Buffer) : Buffer := { b.emptied with state := .priming }

/-- The sequence distance of a frame from the expected one (R81). -/
def seqDistance (s e : Serial) : Nat := (s - e).toNat

/-- A frame taken by a PRIMING or RUNNING buffer (R81); whether sample frames were discarded. -/
def Buffer.takeSequenced (b : Buffer) (f : SoundFrame) : Buffer × Bool :=
  let block := ringFrames f.priv f.samples
  let r :=
    match b.expected with
    | none => b.append [block]
    | some e =>
      let d := seqDistance f.seq e
      if d < 4 then
        ({ b with gap := b.gap || decide (0 < d) }).append (List.replicate d (silentRing Config.blockLen) ++ [block])
      else ({ b.primed with force := true }).append [block]
  ({ r.1 with expected := some (f.seq + 1) }, r.2)

/-- A frame of its stream taken by a buffer (R81). -/
def Buffer.take (b : Buffer) (f : SoundFrame) : Buffer × Bool :=
  match b.state with
  | .free => (b, false)
  | .starved => b.primed.takeSequenced f
  | .priming | .running => b.takeSequenced f

/-- Entry to STARVED (R88): the force is set, and the buffer returns with its next sound (R107, R207, log 38). -/
def Buffer.starve (b : Buffer) : Buffer :=
  match b.state with
  | .priming | .running => { b.emptied with state := .starved, force := true, returning := true }
  | .free | .starved => b

/-- The mid of a sample frame: (L + R) shifted right by 1 (R85). -/
def frameMid (x : RingFrame) : Int := (x.l.toInt + x.r.toInt) / 2

/-- The place of the sample frame whose mid has the smallest magnitude, the earliest among several (R85). -/
def quietest : List RingFrame → Nat
  | [] => 0
  | [_] => 0
  | x :: y :: l =>
    let j := quietest (y :: l)
    if (frameMid ((y :: l).getD j x)).natAbs < (frameMid x).natAbs then j + 1 else 0

/-- The block a slip gives: the 49 oldest without the quietest (R85). -/
def slipBlock (ring : List RingFrame) : List RingFrame :=
  let oldest := ring.take (Config.blockLen + 1)
  oldest.eraseIdx (quietest oldest)

/-- The block a repeat gives: the 47 oldest with the quietest twice in a row (R85). -/
def repeatBlock (ring : List RingFrame) : List RingFrame :=
  let oldest := ring.take (Config.blockLen - 1)
  let i := quietest oldest
  oldest.take (i + 1) ++ oldest.drop i

/-- High-run and low-run from the fill before consumption (R85). -/
def Buffer.countRuns (b : Buffer) : Buffer :=
  { b with
    highRun := if Config.highFill < b.ring.length then b.highRun + 1 else 0
    lowRun := if b.ring.length < Config.primedFill then min Config.runEnd (b.lowRun + 1) else 0 }

/-- The block handed to the readers, with the force, which is then cleared (R87); the first block of a RUNNING buffer
after STARVED is told to them as such (R107, R207, log 38). -/
def Buffer.hand (b : Buffer) (block : List RingFrame) : Buffer :=
  { b with
    given := block
    givenForce := b.force
    force := false
    givenReturn := b.returning && b.state == .running
    returning := b.returning && b.state != .running }

/-- The gap mark turns into force at the first consumption after it (R87). -/
def Buffer.takeGap (b : Buffer) : Buffer := { b with force := b.force || b.gap, gap := false }

/-- The consumption of a RUNNING buffer after its runs were counted (R85, R86); whether it ran short. -/
def Buffer.consumeCounted (b : Buffer) : Buffer × Bool :=
  let b1 := b.takeGap
  let f := b.ring.length
  if b.highRun = Config.runEnd then
    ({ b1 with ring := b.ring.drop (Config.blockLen + 1), highRun := 0 }.hand (slipBlock b.ring), false)
  else if Config.blockLen ≤ f ∧ b.lowRun = Config.runEnd then
    ({ b1 with ring := b.ring.drop (Config.blockLen - 1), lowRun := 0 }.hand (repeatBlock b.ring), false)
  else if Config.blockLen ≤ f then
    ({ b1 with ring := b.ring.drop Config.blockLen }.hand (b.ring.take Config.blockLen), false)
  else
    ({ b1 with ring := [], force := true }.hand (b.ring ++ silentRing (Config.blockLen - f)), true)

/-- A block of silence given, nothing consumed (R83). -/
def Buffer.giveSilence (b : Buffer) : Buffer := b.hand (silentRing Config.blockLen)

/-- One buffer at step 4 of a block boundary (R83 to R87); whether it ran short. -/
def Buffer.consume (b : Buffer) : Buffer × Bool :=
  match b.state with
  | .free => (b, false)
  | .starved => (b.giveSilence, false)
  | .priming =>
    if b.ring.length < Config.primedFill then (b.giveSilence, false)
    else { b with state := .running }.countRuns.consumeCounted
  | .running => b.countRuns.consumeCounted

/-! ### The tables (R72 to R75) -/

/-- The buffer a stream is assigned to. -/
def Iku.bufferOf (k : Iku) (n : StreamNo) : Option BufferNo :=
  (Tbl.indices 6).find? (fun i => (k.buffers.get i).stream == some n)

/-- A call-loss entry of this reference and uplink. -/
def CallLoss.isFor (e : CallLoss) (r : ClaimRef) (n : StreamNo) : Bool := e.ref == r && e.uplink == n

/-- The call-loss table after a frame with a call block (R74). -/
def takeCallLoss (l : List CallLoss) (r : ClaimRef) (n : StreamNo) (loss : Nat) : List CallLoss :=
  if l.any (fun e => e.isFor r n) then
    l.map (fun e => if e.isFor r n then { e with talkLoss := loss, age := 0 } else e)
  else if l.length < Config.callLossCapacity then l ++ [⟨r, n, loss, 0⟩]
  else
    match (l.map CallLoss.age).max? with
    | none => l ++ [⟨r, n, loss, 0⟩]
    | some a => ((removeFirst (fun e => e.age == a) l).getD l) ++ [⟨r, n, loss, 0⟩]

/-- The call-loss table at a block boundary: one older, removed at age 8 (R75). -/
def ageCallLoss (l : List CallLoss) : List CallLoss :=
  l.filterMap (fun e => if e.age + 1 < Config.callLossAgeEnd then some { e with age := e.age + 1 } else none)

/-- The talk loss of a call reference: the largest of its entries (R75). -/
def talkLossOf (l : List CallLoss) (r : ClaimRef) : Option Nat :=
  ((l.filter (fun e => e.ref == r)).map CallLoss.talkLoss).max?

/-- The uplinks of a call reference, in ascending stream number (R75). -/
def uplinksOf (l : List CallLoss) (r : ClaimRef) : List StreamNo :=
  (Tbl.indices 16).filter (fun n => l.any (fun e => e.isFor r n))

/-- The stream-heard entry after a frame (R72). -/
def HeardEntry.ofFrame (f : SoundFrame) : HeardEntry := ⟨.live, some f.seq, f.cls, f.priv, f.stereo, 0⟩

/-- The call block of a SOUND frame taken (R74). -/
def Iku.takeCall (k : Iku) (f : SoundFrame) : Iku :=
  match f.call with
  | none => k
  | some c => { k with callLoss := takeCallLoss k.callLoss c.ref f.stream c.talkLoss }

/-- A SOUND frame delivered to the Intake (R72, R74, R81, R82). -/
def Iku.hearSound (k : Iku) (f : SoundFrame) : Iku × List Notice :=
  let k1 := { k with heard := k.heard.set f.stream (HeardEntry.ofFrame f) }.takeCall f
  match k1.bufferOf f.stream with
  | none => (k1, [])
  | some i =>
    let r := (k1.buffers.get i).take f
    ({ k1 with buffers := k1.buffers.set i r.1 }, if r.2 then [.overrun f.stream] else [])

/-- A stream becomes starved (R73, R88): a LIVE entry is STARVED with age 8, and its buffer, if any, enters STARVED. -/
def Iku.starve (k : Iku) (n : StreamNo) : Iku :=
  let e := k.heard.get n
  let k1 := if e.state = .live then { k with heard := k.heard.set n { e with state := .starved, age := Config.heardAgeEnd } }
    else k
  match k.bufferOf n with
  | none => k1
  | some i => { k1 with buffers := k1.buffers.modify i Buffer.starve }

/-- Both streams of a peer whose entry expired (R35, R73). -/
def Iku.expirePeer (k : Iku) (p : StationNo) : Iku := (k.starve (streamOf p 0)).starve (streamOf p 1)

/-- An entry of the stream-heard table one boundary older. -/
def HeardEntry.older (e : HeardEntry) : HeardEntry := if e.state = .live then { e with age := e.age + 1 } else e

/-- The stream-heard table at a block boundary, with starvation (R73). -/
def Iku.ageHeard (k : Iku) : Iku :=
  let k1 := { k with heard := k.heard.map HeardEntry.older }
  ((Tbl.indices 16).filter (fun n =>
      (k1.heard.get n).state == .live && decide (Config.heardAgeEnd ≤ (k1.heard.get n).age))).foldl Iku.starve k1

/-- Steps 1 and 2 of a block boundary (R77). -/
def Iku.age (k : Iku) : Iku := { k.ageHeard with callLoss := ageCallLoss k.callLoss }

/-- A stream is starved while its entry is NEVER or STARVED (R72). -/
def Iku.isStarved (k : Iku) (n : StreamNo) : Bool := (k.heard.get n).state != .live

/-! ### Users (R79, R80) -/

/-- Buffers that no dynamic user names are freed (R80). -/
def Iku.freeUnused (k : Iku) (users : List (User × StreamNo)) : Iku :=
  { k with buffers := k.buffers.map (fun b =>
      if b.static then b else if users.any (fun u => b.stream == some u.2) then b else Buffer.free) }

/-- The lowest-numbered FREE buffer. -/
def Iku.firstFree (k : Iku) : Option BufferNo := (Tbl.indices 6).find? (fun i => (k.buffers.get i).state == .free)

/-- Whether a stream is served: from a local source, or by a buffer (R79). -/
def Iku.serves (k : Iku) (own : StationNo) (n : StreamNo) : Bool := producerOf n == own || (k.bufferOf n).isSome

/-- A buffer newly assigned to a stream (R79). -/
def Buffer.assigned (n : StreamNo) (starved : Bool) : Buffer :=
  { Buffer.free with stream := some n, state := if starved then .starved else .priming }

/-- One dynamic user served, where it can be (R79). -/
def Iku.serveOne (own : StationNo) (k : Iku) (u : User × StreamNo) : Iku :=
  if k.serves own u.2 then k
  else
    match k.firstFree with
    | none => k
    | some i => { k with buffers := k.buffers.set i (Buffer.assigned u.2 (k.isStarved u.2)) }

/-- Step 3 of a block boundary (R77, R79, R80): buffers freed, the users served in order, and the waiting marks with
their notices. -/
def Iku.serve (k : Iku) (own : StationNo) (users : List (User × StreamNo)) : Iku × List Notice :=
  let k1 := users.foldl (Iku.serveOne own) (k.freeUnused users)
  let unserved := users.filter (fun u => !k1.serves own u.2)
  ({ k1 with waiting := unserved },
    (unserved.filter (fun u => !k.waiting.contains u)).map (fun u => Notice.exhausted u.2 u.1))

/-- The streams of the buffers that ran short at this boundary, for their notices. -/
def underrunNotice (b : Buffer) : List Notice :=
  if b.consume.2 then (b.stream.map Notice.underrun).toList else []

/-- The notices of the buffers that ran short, in ascending stream number (R86, R217). -/
def Iku.underruns (k : Iku) : List Notice :=
  (Tbl.indices 16).flatMap (fun n =>
    match k.bufferOf n with
    | some i => underrunNotice (k.buffers.get i)
    | none => [])

/-- Step 4 of a block boundary (R77, R83): every buffer but a FREE one gives its block. -/
def Iku.consume (k : Iku) : Iku × List Notice :=
  ({ k with buffers := k.buffers.map (fun b => b.consume.1) }, k.underruns)

/-- What a stream's buffer last gave: the block, the force, and whether its sound returned; silence where none serves
it. -/
def Iku.given (k : Iku) (n : StreamNo) : List RingFrame × Bool × Bool :=
  match k.bufferOf n with
  | some i => ((k.buffers.get i).given, (k.buffers.get i).givenForce, (k.buffers.get i).givenReturn)
  | none => (silentRing Config.blockLen, false, false)

/-! ### START and RESTART (R78, R89) -/

/-- The streams the STREAM selectors of the store name, in the order of first appearance, the own two left out (R78). -/
def staticStreams (c : Store) (own : StationNo) : List StreamNo :=
  ((Tbl.indices 11).flatMap (fun o => (Tbl.indices 4).filterMap (fun sl =>
    match ((c.feeds.get o).get sl).selector with
    | .stream n => if producerOf n = own then none else some n
    | _ => none))).eraseDups

/-- A static buffer as START leaves it (R78). -/
def Buffer.static_ (n : StreamNo) : Buffer := { Buffer.free with stream := some n, static := true, state := .starved }

/-- The six buffers with these streams allocated (R78). -/
def allocateStatic (streams : List StreamNo) : Tbl 6 Buffer :=
  Tbl.ofFn (fun i =>
    match streams[i.val]? with
    | some n => Buffer.static_ n
    | none => Buffer.free)

/-- The Intake at START and at RESTART (R78, R89). -/
def Iku.started (c : Store) (own : StationNo) : Iku := { Iku.reset with buffers := allocateStatic (staticStreams c own) }

end Sys2Proof.Machine
end

