-- ==== Sys2Proof/Machine/Publisher.lean ====
section
/-! DEFINITION. The Publisher: source records (R64, R65), publish slots (R66 to R68, R71) and the SOUND frames built at a
block boundary (R69). -/

namespace Sys2Proof.Machine

open Sys2Proof

/-- The samples of the four local sources for one block (R64, R95). -/
structure Sounds where
  radio : List StereoSample
  aux0 : List StereoSample
  aux1 : List StereoSample
  pickup : List StereoSample
deriving DecidableEq, Repr

/-- A block of silence. -/
def silentBlock : List StereoSample := List.replicate Config.blockLen StereoSample.zero

/-- A source's block. -/
def Sounds.of (s : Sounds) : Source → List StereoSample
  | .radio => s.radio
  | .aux0 => s.aux0
  | .aux1 => s.aux1
  | .pickup => s.pickup

/-- A local source's class and private flag (R64). -/
def Pub.record (p : Pub) : Source → SourceRecord
  | .radio => ⟨p.radioClass, p.radioPriv⟩
  | .aux0 => p.aux0
  | .aux1 => p.aux1
  | .pickup => ⟨.call, true⟩

/-- Whether a local source has two channels (R64). -/
def sourceStereo : Source → Bool
  | .pickup => false
  | .radio | .aux0 | .aux1 => true

/-- The source a slot publishes. -/
def PubSlot.source : PubSlot → Option Source
  | .idle => none
  | .publishing src _ => some src

/-- The entry of a publishing slot in a publish list (R29). -/
def Pub.entry (p : Pub) (own : StationNo) (slot : PubSlotNo) : Option PubEntry :=
  (p.slots.get slot).source.map (fun src =>
    ⟨streamOf own slot, (p.record src).cls, (p.record src).priv, sourceStereo src⟩)

/-- The publish list this station composes now, slot 0 first (R29). -/
def Pub.list (p : Pub) (own : StationNo) : List PubEntry := (Tbl.indices 2).filterMap (p.entry own)

/-- The own stream of the slot that publishes a source, if one does (R95). -/
def Pub.streamOfSource (p : Pub) (own : StationNo) (src : Source) : Option StreamNo :=
  ((Tbl.indices 2).find? (fun i => (p.slots.get i).source == some src)).map (streamOf own)

/-- A slot changed. -/
def Pub.setSlot (p : Pub) (i : PubSlotNo) (s : PubSlot) : Pub := { p with slots := p.slots.set i s }

/-- SET_SOURCE on the records (R65); none where it is refused. -/
def Pub.setSource (p : Pub) (src : Source) (priv : Bool) (cls : Option SoundClass) : Option Pub :=
  match src, cls with
  | .aux0, c => some { p with aux0 := ⟨c.getD p.aux0.cls, priv⟩ }
  | .aux1, c => some { p with aux1 := ⟨c.getD p.aux1.cls, priv⟩ }
  | .radio, none => some { p with radioPriv := priv }
  | .radio, some _ => none
  | .pickup, _ => none

/-- PUBLISH on the open slot (R66, checks 3 and 4). -/
def PubSlot.publish (s : PubSlot) (src : Source) : PubSlot :=
  match s with
  | .idle => .publishing src 0
  | .publishing _ next => .publishing src next

/-- The sources PUBLISH may name (R66). -/
def publishable (b : Byte) : Option Source :=
  match Source.ofCode b.toNat with
  | some .pickup => none
  | s => s

/-- The class of RADIO follows the announcement (R64). -/
def Pub.setRadioClass (p : Pub) (announcing : Bool) : Pub :=
  { p with radioClass := if announcing then .announce else .programme }

/-- The Publisher at RESTART (R64, R71). -/
def Pub.restart (p : Pub) : Pub := { p with radioClass := .programme, slots := Tbl.fill 2 .idle }

/-- A mono block as sample frames. -/
def monoBlock (l : List Sample) : List StereoSample := l.map StereoSample.mono

/-- The SOUND frame a publishing slot builds at a block boundary (R69). -/
def Pub.frame (p : Pub) (own : StationNo) (slot : PubSlotNo) (sounds : Sounds) (call : Option CallBlock) :
    Option SoundFrame :=
  match p.slots.get slot with
  | .idle => none
  | .publishing src next =>
    some
      { stream := streamOf own slot
        seq := next
        cls := (p.record src).cls
        priv := (p.record src).priv
        stereo := sourceStereo src
        call := if src = .pickup then call else none
        samples := sounds.of src }

/-- The slot after its frame was built: the next sequence rises by 1 and wraps (R69). -/
def PubSlot.built : PubSlot → PubSlot
  | .idle => .idle
  | .publishing src next => .publishing src (next + 1)

/-- The slots after the frames of a block boundary were built. -/
def Pub.built (p : Pub) : Pub := { p with slots := p.slots.map PubSlot.built }

end Sys2Proof.Machine
end

