-- ==== Sys2Proof/Machine/Mix.lean ====
section
/-! DEFINITION. The Mix Engine: levels (R98, R99), feed resolution and activity (R92 to R96), targets (R100 to R104),
chime fallback (R105), ramps (R106 to R108) and the mix (R111 to R113). -/

namespace Sys2Proof.Machine

open Sys2Proof

/-- What the Mix Engine reads of the other blocks, as it stood when the boundary began (R114, step 2). -/
structure MixView where
  own : StationNo
  store : Store
  cle : Cle
  heard : Tbl 16 HeardEntry
  callLoss : List CallLoss
  derates : Tbl 8 Nat
  running : Tbl 8 Bool
  pub : Pub
deriving DecidableEq, Repr

/-- An output is a bridge, with the number of that bridge. -/
def bridgeOf (o : OutputNo) : Option BridgeNo := if h : o.val < 8 then some ⟨o.val, h⟩ else none

/-- The zone set of an output; LO has none (R90). -/
def Store.zonesOfOutput (c : Store) (o : OutputNo) : ZoneSet := if h : o.val < 10 then c.zones.get ⟨o.val, h⟩ else 0

/-- The zone set of a bridge. -/
def Store.bridgeZones (c : Store) (b : BridgeNo) : ZoneSet := c.zones.get ⟨b.val, by omega⟩

/-- Whether an output is used (R90). -/
def Store.used (c : Store) (o : OutputNo) : Bool := o.val == 10 || c.zonesOfOutput o != 0

/-- Whether a bridge is used (R90). -/
def Store.bridgeUsed (c : Store) (b : BridgeNo) : Bool := c.bridgeZones b != 0

/-- The rendered zone set: the union over B0..B7, P0 and P1 (R29, R90). -/
def Store.rendered (c : Store) : ZoneSet := c.zones.toList.foldl (· ||| ·) 0

/-- The configured fields of a feed slot. -/
def Store.feed (c : Store) (o : OutputNo) (sl : SlotNo) : FeedConfig := (c.feeds.get o).get sl

/-! ### Levels (R98, R99) -/

/-- The staged levels made live at a boundary, where the apply flag is set (R99). -/
def Mxe.applyLevels (m : Mxe) : Mxe × List Notice :=
  if m.apply then ({ m with live := m.staged, apply := false }, [.levels m.staged]) else (m, [])

/-- A level staged, clamped to 128 (R98). -/
def Mxe.stage (m : Mxe) (z : Zone) (level : Nat) : Mxe :=
  { m with staged := m.staged.set z.idx (min Config.mute level) }

/-! ### Fallback, resolution and activity (R92 to R94, R105) -/

/-- Whether chime fallback is active, from the bridge states (R105). -/
def fallbackOf (c : Store) (running : Tbl 8 Bool) : Bool :=
  let drv := (Tbl.indices 8).filter (fun b => zoneIn (c.bridgeZones b) .drv)
  !drv.isEmpty && !drv.any running.get

/-- The resolution of a FOLLOW feed (R92): the first effective claim of its kind covering its output with a
reference. -/
def resolveFollow (v : MixView) (zs : ZoneSet) (k : ClaimKind) : Option (StreamNo × ClaimRef) :=
  (v.cle.covering zs).findSome? (fun c => if c.fields.kind = k then c.fields.ref.map (fun n => (n, c.name)) else none)

/-- The resolution of an UPLINK feed (R93): the first own HELD CALL claim with an uplink, and its lowest uplink. -/
def resolveUplink (v : MixView) : Option (StreamNo × ClaimRef) :=
  (ownHeld v.own v.cle.claims).findSome? (fun c =>
    if c.fields.kind = .call then (uplinksOf v.callLoss c.name).head?.map (fun n => (n, c.name)) else none)

/-- The resolution of a feed at this boundary. -/
def resolveFeed (v : MixView) (o : OutputNo) : Selector → Option (StreamNo × ClaimRef)
  | .follow k => resolveFollow v (v.store.zonesOfOutput o) k
  | .uplink => resolveUplink v
  | .none | .local_ _ | .stream _ => Option.none

/-- Whether a selector is resolved by a claim. -/
def Selector.dynamic : Selector → Bool
  | .follow _ | .uplink => true
  | .none | .local_ _ | .stream _ => false

/-- Whether a feed is active at this boundary (R94). -/
def feedActive (v : MixView) (fallback : Bool) (o : OutputNo) (cfg : FeedConfig) : Bool :=
  v.store.used o && cfg.selector != .none && (!cfg.fallbackOnly || fallback)
    && (!cfg.selector.dynamic || (resolveFeed v o cfg.selector).isSome)

/-- Whether a feed is activated at this boundary (R94). -/
def feedActivated (v : MixView) (fallback : Bool) (o : OutputNo) (cfg : FeedConfig) (f : Feed) : Bool :=
  feedActive v fallback o cfg &&
    (!f.active || f.resolved != (resolveFeed v o cfg.selector).map Prod.fst)

/-- A feed's activity decided (R94): activated, kept with its resolving claim, or inactive with the inactive values of R91; of class
and private flag, which R91 does not list, they are PROGRAMME and clear (log 34). -/
def decideFeed (v : MixView) (fallback : Bool) (o : OutputNo) (cfg : FeedConfig) (f : Feed) : Feed :=
  let r := resolveFeed v o cfg.selector
  if feedActivated v fallback o cfg f then
    { f with active := true, resolved := r.map Prod.fst, claim := r.map Prod.snd, current := Config.mute, releaseCount := 0 }
  else if feedActive v fallback o cfg then { f with claim := r.map Prod.snd }
  else Feed.inactive

/-- A table over outputs and feed slots. -/
abbrev FeedTbl (α : Type) := Tbl 11 (Tbl 4 α)

/-- A table over outputs and feed slots by its entries. -/
def feedTbl {α : Type} (f : OutputNo → SlotNo → α) : FeedTbl α := Tbl.ofFn (fun o => Tbl.ofFn (f o))

/-- The feed slots after steps 3 and 4 of R114. -/
def Mxe.decide_ (m : Mxe) (v : MixView) : Mxe :=
  let fb := fallbackOf v.store v.running
  { m with
    fallback := fb
    feeds := feedTbl (fun o sl => decideFeed v fb o (v.store.feed o sl) ((m.feeds.get o).get sl)) }

/-- The feeds activated at this boundary, which take no ramp step. -/
def Mxe.activated (m : Mxe) (v : MixView) : FeedTbl Bool :=
  feedTbl (fun o sl => feedActivated v (fallbackOf v.store v.running) o (v.store.feed o sl) ((m.feeds.get o).get sl))

/-- The Mix Engine's dynamic users with their streams, in order (R79, R114 step 5). -/
def Mxe.users (m : Mxe) : List (User × StreamNo) :=
  (Tbl.indices 11).flatMap (fun o => (Tbl.indices 4).filterMap (fun sl =>
    let f := (m.feeds.get o).get sl
    if f.active then f.resolved.map (fun n => (User.feed o sl, n)) else none))

/-! ### What a feed plays (R95, R96) -/

/-- The block a feed gives at a boundary, with what goes with it: class, private flag, whether its sound is private
(R96), the stream for talk loss, the force, whether it is the first sound after STARVED (log 38), and whether it is
served. -/
structure FeedSound where
  block : List StereoSample
  cls : SoundClass
  priv : Bool
  secret : Bool
  stream : Option StreamNo
  force : Bool
  returns : Bool
  served : Bool
deriving DecidableEq, Repr

/-- A local source as a feed gives it. -/
def localSound (v : MixView) (sounds : Sounds) (src : Source) (stream : Option StreamNo) : FeedSound :=
  let r := v.pub.record src
  ⟨sounds.of src, r.cls, r.priv, r.priv, stream, false, false, true⟩

/-- A stream as a feed gives it: an own one from the local source of its slot, another's from its buffer (R95). -/
def streamSound (v : MixView) (k : Iku) (sounds : Sounds) (n : StreamNo) : FeedSound :=
  if producerOf n = v.own then
    match (v.pub.slots.get (slotOf n)).source with
    | some src => localSound v sounds src (some n)
    | none => ⟨silentBlock, .programme, false, false, some n, false, false, true⟩
  else
    let g := k.given n
    let e := v.heard.get n
    ⟨g.1.map (fun x => ⟨x.l, x.r⟩), e.cls, e.priv, e.priv || g.1.any RingFrame.priv, some n, g.2.1, g.2.2,
      (k.bufferOf n).isSome⟩

/-- What an active feed gives at this boundary (R95). -/
def feedSound (v : MixView) (k : Iku) (sounds : Sounds) (sel : Selector) (f : Feed) : FeedSound :=
  match sel with
  | .local_ src => localSound v sounds src (v.pub.streamOfSource v.own src)
  | .stream n => streamSound v k sounds n
  | .follow _ | .uplink =>
    match f.resolved with
    | some n => streamSound v k sounds n
    | none => ⟨silentBlock, .programme, false, false, none, false, false, false⟩
  | .none => ⟨silentBlock, .programme, false, false, none, false, false, false⟩

/-! ### Targets (R100 to R104) -/

/-- The row of the duck table a claim takes: its kind, but PRIVATE for a private call (R97). -/
def duckKind (cle : Cle) (c : Claim) : ClaimKind := if c.fields.kind = .call ∧ cle.privateCall c then .priv else c.fields.kind

/-- Whether a claim is passed over by a feed's duck (R100). -/
def passedOver (o : OutputNo) (sel : Selector) (f : Feed) (c : Claim) : Bool :=
  f.claim == some c.name
    || (c.fields.kind == .quiet && (o.val == 8 || o.val == 9) && sel == Selector.follow .priv)

/-- The duck of a zone for a feed of a class (R100). -/
def duckOf (v : MixView) (o : OutputNo) (sel : Selector) (f : Feed) (cls : SoundClass) (z : Zone) : Nat :=
  ((v.cle.covering z.bit).filter (fun c => !passedOver o sel f c)).foldl
    (fun acc c => max acc ((v.store.duck.get (duckKind v.cle c).idx).get cls.idx)) 0

/-- The zone term Az (R100). -/
def zoneTerm (v : MixView) (live : Tbl 5 Nat) (o : OutputNo) (sel : Selector) (f : Feed) (cls : SoundClass) (z : Zone) : Nat :=
  live.get z.idx + duckOf v o sel f cls z

/-- The output term A: the least zone term of the output's zones, 0 for LO (R101). -/
def outputTerm (v : MixView) (live : Tbl 5 Nat) (o : OutputNo) (sel : Selector) (f : Feed) (cls : SoundClass) : Nat :=
  (((zonesOf (v.store.zonesOfOutput o)).map (zoneTerm v live o sel f cls)).min?).getD 0

/-- The talk loss TL (R102). -/
def talkLoss (v : MixView) (cls : SoundClass) (stream : Option StreamNo) : Nat :=
  match cls, stream with
  | .call, some s =>
    (v.cle.claims.filter (fun c => c.isHeld && c.fields.kind == .call && c.fields.ref == some s)).foldl
      (fun acc c => max acc ((talkLossOf v.callLoss c.name).getD 0)) 0
  | _, _ => 0

/-- The derate of an output (R103). -/
def MixView.derateOf (v : MixView) (o : OutputNo) : Nat :=
  match bridgeOf o with
  | some b => v.derates.get b
  | none => 0

/-- Whether the chime ceiling acts on an output (R104). -/
def ceilingActs (v : MixView) (fallback : Bool) (o : OutputNo) (cls : SoundClass) : Bool :=
  cls == .chime && (bridgeOf o).isSome
    && (zoneIn (v.store.zonesOfOutput o) .drv || (fallback && zoneIn (v.store.zonesOfOutput o) v.store.fallbackZone))

/-- The target attenuation (R100 to R104). -/
def targetOf (v : MixView) (live : Tbl 5 Nat) (fallback : Bool) (o : OutputNo) (cfg : FeedConfig) (f : Feed)
    (cls : SoundClass) (stream : Option StreamNo) : Nat :=
  let t := min Config.mute
    (outputTerm v live o cfg.selector f cls + cfg.trim + v.derateOf o + talkLoss v cls stream)
  if ceilingActs v fallback o cls then min t v.store.ceiling else t

/-! ### Ramps (R106, R107) -/

/-- One ramp step of an active feed toward its target (R106). -/
def Feed.rampStep (attack interval : Nat) (f : Feed) : Feed :=
  if f.current < f.target then { f with current := min f.target (f.current + attack), releaseCount := 0 }
  else if f.target < f.current then
    if f.releaseCount + 1 < interval then { f with releaseCount := f.releaseCount + 1 }
    else { f with current := f.current - 1, releaseCount := 0 }
  else { f with releaseCount := 0 }

/-- A feed set to 128 (R107, R108). -/
def Feed.silence (f : Feed) : Feed := { f with current := Config.mute, releaseCount := 0 }

/-- An active feed after steps 6 and 7 of R114. A force silences the feed at its boundary; the ramp goes on from the next
one (R106, R107). At the first sound after STARVED the feed ramps back from 128 (R107, R207, log 38). -/
def Feed.move (v : MixView) (live : Tbl 5 Nat) (fallback : Bool) (o : OutputNo) (cfg : FeedConfig) (activated : Bool)
    (snd : FeedSound) (f : Feed) : Feed :=
  let f1 := { f with served := snd.served, cls := snd.cls, priv := snd.priv
                     target := targetOf v live fallback o cfg f snd.cls snd.stream }
  if activated || snd.force then f1.silence
  else (if snd.returns then f1.silence else f1).rampStep v.store.attack v.store.releaseInterval

/-! ### The mix (R111 to R113) -/

/-- A feed's products on a bridge (R95, R111), zero where its sound is private (R112). -/
def bridgeProducts (pick : Pick) (a : Nat) (snd : FeedSound) : List Int :=
  snd.block.map (fun x =>
    if snd.secret then 0
    else
      match pick with
      | .left => product x.l.toInt (gain a)
      | .right => product x.r.toInt (gain a)
      | .mid | .stereo => product (half (x.l.toInt + x.r.toInt)) (gain a))

/-- A feed's left products on a post or LO. -/
def leftProducts (a : Nat) (snd : FeedSound) : List Int := snd.block.map (fun x => product x.l.toInt (gain a))

/-- A feed's right products on a post or LO. -/
def rightProducts (a : Nat) (snd : FeedSound) : List Int := snd.block.map (fun x => product x.r.toInt (gain a))

/-- Products summed instant by instant and saturated (R113). -/
def mixDown (products : List (List Int)) : List Sample :=
  (products.foldl (List.zipWith (· + ·)) (List.replicate Config.blockLen 0)).map saturate

/-- The active feeds of an output with what they give and their configuration. -/
def activeFeeds (c : Store) (feeds : FeedTbl Feed) (snds : FeedTbl FeedSound) (o : OutputNo) :
    List (FeedConfig × Feed × FeedSound) :=
  (Tbl.indices 4).filterMap (fun sl =>
    let f := (feeds.get o).get sl
    if f.active then some (c.feed o sl, f, (snds.get o).get sl) else none)

/-- The mixed block of a bridge. -/
def mixBridge (l : List (FeedConfig × Feed × FeedSound)) : List Sample :=
  mixDown (l.map (fun x => bridgeProducts x.1.pick x.2.1.current x.2.2))

/-- The mixed block of a post or LO. -/
def mixStereo (l : List (FeedConfig × Feed × FeedSound)) : List StereoSample :=
  List.zipWith StereoSample.mk (mixDown (l.map (fun x => leftProducts x.2.1.current x.2.2)))
    (mixDown (l.map (fun x => rightProducts x.2.1.current x.2.2)))

/-- What every feed gives at this boundary. -/
def Mxe.sounds (m : Mxe) (v : MixView) (k : Iku) (sounds : Sounds) : FeedTbl FeedSound :=
  feedTbl (fun o sl => feedSound v k sounds (v.store.feed o sl).selector ((m.feeds.get o).get sl))

/-- The feed slots after steps 6 and 7 of R114. -/
def Mxe.moveFeeds (m : Mxe) (v : MixView) (activated : FeedTbl Bool) (snds : FeedTbl FeedSound) : FeedTbl Feed :=
  feedTbl (fun o sl =>
    let f := (m.feeds.get o).get sl
    if f.active then
      f.move v m.live m.fallback o (v.store.feed o sl) ((activated.get o).get sl) ((snds.get o).get sl)
    else f)

/-- The mixed blocks of the posts and LO, and of the eight bridges, from the feeds after their ramps. -/
def Mxe.mixed (m : Mxe) (v : MixView) (activated : FeedTbl Bool) (k : Iku) (sounds : Sounds) : Mxe × Tbl 8 (List Sample) :=
  let snds := m.sounds v k sounds
  let feeds := m.moveFeeds v activated snds
  ({ m with
      feeds := feeds
      post0 := mixStereo (activeFeeds v.store feeds snds 8)
      post1 := mixStereo (activeFeeds v.store feeds snds 9)
      lineOut := mixStereo (activeFeeds v.store feeds snds 10) },
    Tbl.ofFn (fun b => mixBridge (activeFeeds v.store feeds snds ⟨b.val, by omega⟩)))

/-! ### Other events -/

/-- The feeds of a re-enabled bridge start again from silence (R108). -/
def Mxe.reenable (m : Mxe) (b : BridgeNo) : Mxe :=
  { m with feeds := m.feeds.modify ⟨b.val, by omega⟩ (fun row =>
      row.map (fun f => if f.active then f.silence else f)) }

/-- The next sample frames of the posts and LO leave on SAO0 and SAO1 (R113, R196). -/
def Mxe.play (m : Mxe) : Mxe :=
  let p0 := m.post0.headD StereoSample.zero
  let p1 := m.post1.headD StereoSample.zero
  { m with
    post0 := m.post0.tail
    post1 := m.post1.tail
    lineOut := m.lineOut.tail
    sao0 := ⟨p0.l, p0.r, p1.l, p1.r⟩
    sao1 := m.lineOut.headD StereoSample.zero }

/-- The Mix Engine at START (R115). -/
def Mxe.started (m : Mxe) : Mxe := { m with feeds := Tbl.fill 11 (Tbl.fill 4 Feed.inactive) }

/-- The Mix Engine at RESTART (R115, R117): every feed is inactive in this event. R207 has the follow feeds of the
claimant's own posts deactivated at the next boundary; the model follows R115 (log 46). -/
def Mxe.restart (m : Mxe) : Mxe := { m.started with apply := false, fallback := false }

end Sys2Proof.Machine
end

