-- ==== Sys2Proof/Machine/Output.lean ====
section
/-! DEFINITION. The Output Stage: duty and sense (R118 to R121), clipping and derate (R122 to R124), fault sources (R125,
R126), hold sets and bridge states (R127 to R137), and the impaired zones (R138). -/

namespace Sys2Proof.Machine

open Sys2Proof

/-! ### Duty (R118 to R121) -/

/-- The base duty d0 of a sample (R118). -/
def baseDuty (x : Sample) : Nat := ((128 : Int) + (x.toInt * 120 + 4194304) / 8388608).toNat

/-- The duty of a period from the base duty, the deadtime and the sense reading of the period before (R121). -/
def dutyOf (d0 dt : Nat) : Sense → Nat
  | .out => d0 + dt
  | .into => d0 - dt
  | .split => d0

/-- The counts of the period's 256 for which side A and side B are high (R119). -/
def highCounts (d : Nat) : Nat × Nat := (d, 256 - d)

/-- The sense reading of the comparator's samples at side A's rise and fall, true for high (R120). -/
def senseOf (atRise atFall : Bool) : Sense :=
  match atRise, atFall with
  | false, false => .out
  | true, true => .into
  | _, _ => .split

/-- Whether a bridge is enabled (R119, R133). -/
def Bridge.enabled (b : Bridge) : Bool := b.state == .run

/-- One PWM period of a bridge after the filters of the period (R119 to R121). -/
def Bridge.period (b : Bridge) (dt : Nat) (atRise atFall : Bool) : Bridge :=
  if b.enabled then { b with duty := some (dutyOf b.d0 dt b.sense), sense := senseOf atRise atFall }
  else { b with duty := none, sense := .split }

/-- A bridge's sample of one instant taken (R118, R122). -/
def Bridge.takeSample (b : Bridge) : Bridge :=
  let d := baseDuty (b.block.headD 0)
  { b with
    block := b.block.tail
    d0 := d
    dutySum := b.dutySum + d
    instants := b.instants + 1
    clip := if b.enabled && (d == 8 || d == 248) then b.clip + 1 else b.clip }

/-! ### Filters (R125) -/

/-- One sample of a filter: the declared state changes at the second of two consecutive samples that differ from it. -/
def Filter.sample (f : Filter) (x : Bool) : Filter :=
  { asserted := if f.last = some x then x else f.asserted, last := some x }

/-- Whether one sample of a filter declares assertion. -/
def Filter.declares (f : Filter) (x : Bool) : Bool := !f.asserted && (f.sample x).asserted

/-- A filter with its declared state set from outside. -/
def Filter.declare (x : Bool) : Filter := ⟨x, some x⟩

/-- A filter of the Output Stage. -/
def Ost.filter (o : Ost) : FilteredSource → Filter
  | .oc b => o.fOc.get b
  | .ts => o.fTs
  | .uv => o.fUv
  | .flt0 => o.fFlt0
  | .flt1 => o.fFlt1
  | .tw => o.fTw

/-- A filter replaced. -/
def Ost.setFilter (o : Ost) (src : FilteredSource) (f : Filter) : Ost :=
  match src with
  | .oc b => { o with fOc := o.fOc.set b f }
  | .ts => { o with fTs := f }
  | .uv => { o with fUv := f }
  | .flt0 => { o with fFlt0 := f }
  | .flt1 => { o with fFlt1 := f }
  | .tw => { o with fTw := f }

/-! ### Hold sets (R127 to R131, R133) -/

/-- The hold set of one source. -/
def FaultKind.bit (k : FaultKind) : HoldSet := BitVec.ofNat 7 (2 ^ k.code)

/-- A source's bit when a condition holds. -/
def bitIf (c : Bool) (k : FaultKind) : HoldSet := if c then k.bit else 0

/-- Whether a hold set holds a source. -/
def holds (h : HoldSet) (k : FaultKind) : Bool := h.getLsbD k.code

/-- The sources that are LATCHED for a bridge now (R130). -/
def latchedSet (c : Store) (b : Bridge) : HoldSet :=
  bitIf c.tsLatched .ts ||| bitIf c.flt0Latched .flt0 ||| bitIf c.flt1Latched .flt1 ||| FaultKind.dc.bit
    ||| bitIf b.ocLock .oc

/-- The sources declared asserted for a bridge now (R125, R126). -/
def Ost.assertedSet (o : Ost) (i : BridgeNo) : HoldSet :=
  bitIf o.fTs.asserted .ts ||| bitIf o.fUv.asserted .uv ||| bitIf o.fFlt0.asserted .flt0
    ||| bitIf o.fFlt1.asserted .flt1 ||| bitIf (o.bridges.get i).dcOn .dc ||| bitIf (o.fOc.get i).asserted .oc
    ||| bitIf o.fTw.asserted .tw

/-- The state of a disabled used bridge with a non-empty hold set (R133). -/
def heldState (c : Store) (b : Bridge) : BridgeState := if b.hold &&& latchedSet c b = 0 then .halted else .locked

/-- A bridge disabled (R128): its switches off, its sense reading SPLIT, its state from its hold set. -/
def Bridge.disable (c : Store) (b : Bridge) : Bridge := { b with state := heldState c b, sense := .split, duty := none }

/-- The state recomputed after an event on the hold set (R128, R133): a bridge in RUN with a source is disabled; one whose
set has just emptied keeps its state. -/
def Bridge.recompute (c : Store) (b : Bridge) : Bridge :=
  if b.hold = 0 then b
  else
    match b.state with
    | .off => b
    | .run => b.disable c
    | .halted | .locked => { b with state := heldState c b }

/-- The BRIDGE_FAULT notice of a bridge (R137). -/
def faultNotice (i : BridgeNo) (enabled : Bool) (b : Bridge) : Notice := .bridgeFault i enabled b.hold b.state

/-- The notice of a bridge that an event disabled (R137). -/
def disableNotice (i : BridgeNo) (before after : Bridge) : List Notice :=
  if before.enabled && !after.enabled then [faultNotice i false after] else []

/-- An assertion of OC on the history and lock (R131). -/
def Bridge.assertOc (b : Bridge) : Bridge :=
  if b.ocLock then b
  else if b.ocHistory.length < Config.ocHistoryCapacity then { b with ocHistory := b.ocHistory ++ [0] }
  else { b with ocHistory := [], ocLock := true }

/-- Sources asserted for a bridge in one event (R128, R131). -/
def Bridge.addSources (c : Store) (b : Bridge) (sources : HoldSet) : Bridge :=
  let b1 := if holds sources .oc then b.assertOc else b
  { b1 with hold := b1.hold ||| sources }.recompute c

/-- Sources asserted for each bridge in one event, with the notices in ascending bridge number (R128, R137). -/
def Ost.addSources (o : Ost) (c : Store) (sources : BridgeNo → HoldSet) : Ost × List Notice :=
  ({ o with bridges := Tbl.ofFn (fun i =>
      if sources i = 0 then o.bridges.get i else (o.bridges.get i).addSources c (sources i)) },
    (Tbl.indices 8).flatMap (fun i =>
      if sources i = 0 then [] else disableNotice i (o.bridges.get i) ((o.bridges.get i).addSources c (sources i))))

/-- A die source's bit for a bridge in its fault map (R127). -/
def mapped (c : Store) (die : Fin 4) (k : FaultKind) (asserted : Bool) (i : BridgeNo) : HoldSet :=
  bitIf (asserted && (c.faultMap.get die).getLsbD i.val) k

/-- What the assertion of one filtered source adds to each hold set (R128). -/
def sourceSet (c : Store) (src : FilteredSource) (i : BridgeNo) : HoldSet :=
  match src with
  | .oc b => bitIf (b == i) .oc
  | .ts => mapped c 0 .ts true i
  | .uv => mapped c 1 .uv true i
  | .flt0 => mapped c 2 .flt0 true i
  | .flt1 => mapped c 3 .flt1 true i
  | .tw => 0

/-- One filtered source declared asserted (R125, R128). -/
def Ost.assertSource (o : Ost) (c : Store) (src : FilteredSource) : Ost × List Notice :=
  if (o.filter src).asserted then (o, [])
  else (o.setFilter src (Filter.declare true)).addSources c (sourceSet c src)

/-- One filtered source declared deasserted (R125): it leaves hold sets later (R129, R135). -/
def Ost.deassertSource (o : Ost) (src : FilteredSource) : Ost :=
  if (o.filter src).asserted then o.setFilter src (Filter.declare false) else o

/-- The filters after one PWM period's samples (R125). -/
def Ost.sampleFilters (o : Ost) (x : PeriodInputs) : Ost :=
  { o with
    fOc := Tbl.ofFn (fun i => (o.fOc.get i).sample (x.oc.get i))
    fTs := o.fTs.sample x.ts
    fUv := o.fUv.sample x.uv
    fFlt0 := o.fFlt0.sample x.flt0
    fFlt1 := o.fFlt1.sample x.flt1
    fTw := o.fTw.sample x.tw }

/-- What the assertions of one PWM period add to each hold set (R128). -/
def Ost.periodSources (o : Ost) (c : Store) (x : PeriodInputs) (i : BridgeNo) : HoldSet :=
  mapped c 0 .ts (o.fTs.declares x.ts) i ||| mapped c 1 .uv (o.fUv.declares x.uv) i
    ||| mapped c 2 .flt0 (o.fFlt0.declares x.flt0) i ||| mapped c 3 .flt1 (o.fFlt1.declares x.flt1) i
    ||| bitIf ((o.fOc.get i).declares (x.oc.get i)) .oc

/-- One PWM period (R119 to R121, R125, R128). -/
def Ost.period (o : Ost) (c : Store) (x : PeriodInputs) : Ost × List Notice :=
  let r := (o.sampleFilters x).addSources c (o.periodSources c x)
  ({ r.1 with bridges := Tbl.ofFn (fun i =>
      (r.1.bridges.get i).period (c.deadtime.get i) (x.atRise.get i) (x.atFall.get i)) }, r.2)

/-! ### Sample instants (R129, R132) -/

/-- Deasserted AUTO sources leave a hold set (R129). -/
def Ost.removeAuto (o : Ost) (c : Store) (i : BridgeNo) (b : Bridge) : Bridge :=
  { b with hold := b.hold &&& (latchedSet c b ||| o.assertedSet i) }.recompute c

/-- Whether a bridge is due to be re-enabled (R132). -/
def Bridge.reenableDue (b : Bridge) : Bool := (b.state == .halted || b.state == .locked) && b.hold == 0

/-- The samples of the running block that the OST has not yet taken, replaced with zero (R108, R140). -/
def Bridge.silenceBlock (b : Bridge) : Bridge := { b with block := b.block.map (fun _ => 0) }

/-- A bridge re-enabled (R132): RUN, SPLIT, and what is left of its running block zero (R108). -/
def Bridge.reenable (b : Bridge) : Bridge :=
  { b.silenceBlock with state := .run, sense := .split, d0 := 128 }

/-- The bridges due to be re-enabled, in ascending number. -/
def Ost.dueBridges (o : Ost) : List BridgeNo := (Tbl.indices 8).filter (fun i => (o.bridges.get i).reenableDue)

/-- One bridge of the Output Stage changed. -/
def Ost.setBridge (o : Ost) (i : BridgeNo) (b : Bridge) : Ost := { o with bridges := o.bridges.set i b }

/-- Every bridge takes its sample of this instant, then AUTO sources that are deasserted leave (R118, R122, R129). -/
def Ost.instant (o : Ost) (c : Store) : Ost :=
  { o with bridges := Tbl.ofFn (fun i => o.removeAuto c i (o.bridges.get i).takeSample) }

/-! ### Block boundaries (R122 to R124, R126, R131) -/

/-- Whether the block that ends is a clip block (R122). -/
def Bridge.clipBlock (b : Bridge) : Bool := Config.clipBlock ≤ b.clip

/-- Clip and thermal steps of the derate (R123, steps 1 and 2). -/
def Bridge.heat (b : Bridge) (tw : Bool) : Bridge :=
  let b1 := if b.clipBlock then { b with derate := b.derate + 1 } else b
  if tw then
    if b1.thermal + 1 < Config.thermalEnd then { b1 with thermal := b1.thermal + 1 }
    else { b1 with derate := b1.derate + 1, thermal := 0 }
  else { b1 with thermal := 0 }

/-- The calm step of the derate (R123, step 3). -/
def Bridge.calmDown (b : Bridge) (tw : Bool) : Bridge :=
  if b.clipBlock || tw then { b with calm := 0 }
  else if b.calm + 1 < Config.calmEnd then { b with calm := b.calm + 1 }
  else { b with derate := b.derate - 1, calm := 0 }

/-- The cap of the derate (R123, step 4). -/
def Bridge.cap (b : Bridge) : Bridge := { b with derate := min Config.derateCap b.derate }

/-- The derate and its counters at a block boundary (R123). -/
def Bridge.derateStep (b : Bridge) (tw : Bool) : Bridge := ((b.heat tw).calmDown tw).cap

/-- Whether a bridge is capped (R124). -/
def Bridge.capped (b : Bridge) : Bool := b.derate == Config.derateCap

/-- The DERATE notice of a change between capped and uncapped (R124); an unused bridge of a started station raises none
(R134). -/
def derateNotice (c : Store) (config : Bool) (i : BridgeNo) (before after : Bridge) : List Notice :=
  if before.capped != after.capped && (config || c.bridgeUsed i) then [.derate i after.capped after.derate] else []

/-- The block-average duty of the block that ends (R126): instants whose samples were not taken count with the samples
that were left, and as 128 where none was left (log 9). -/
def Bridge.averageDuty (b : Bridge) : Nat :=
  let rest := padTo (Config.blockLen - b.instants) 0 b.block
  (b.dutySum + (rest.map baseDuty).sum) / Config.blockLen

/-- Whether an average duty is offset (R126). -/
def offsetDuty (d : Nat) : Bool := decide (176 < d) || decide (d < 80)

/-- The DC count and source at a block boundary (R126). -/
def Bridge.watchDc (b : Bridge) : Bridge :=
  if offsetDuty b.averageDuty then
    let n := min Config.dcEnd (b.dcCount + 1)
    { b with dcCount := n, dcOn := b.dcOn || n == Config.dcEnd }
  else { b with dcCount := 0, dcOn := false }

/-- DC of a bridge, where this boundary asserted it, is added to its hold set (R126, R128). -/
def Bridge.addDc (c : Store) (before : Bool) (b : Bridge) : Bridge :=
  if b.dcOn && !before then b.addSources c FaultKind.dc.bit else b

/-- The ages of an OC history at a block boundary (R131). -/
def ageHistory (l : List Nat) : List Nat := l.filterMap (fun a => if a + 1 < Config.ocAgeEnd then some (a + 1) else none)

/-- A bridge at a block boundary: derate, DC, and the OC history. -/
def Bridge.boundary (c : Store) (tw : Bool) (b : Bridge) : Bridge :=
  let b1 := b.derateStep tw
  let b2 := (b1.watchDc).addDc c b.dcOn
  { b2 with ocHistory := ageHistory b2.ocHistory, clip := 0 }

/-- The Output Stage at a block boundary, in every lifecycle state (R122, R123, R126, R131). -/
def Ost.boundary (o : Ost) (c : Store) (config : Bool) : Ost × List Notice :=
  ({ o with bridges := o.bridges.map (Bridge.boundary c o.fTw.asserted) },
    (Tbl.indices 8).flatMap (fun i =>
      let b := o.bridges.get i
      let a := b.boundary c o.fTw.asserted
      derateNotice c config i b a ++ disableNotice i b a))

/-- A bridge takes the mixed block of the boundary (R113). -/
def Bridge.load (b : Bridge) (block : List Sample) : Bridge := { b with block := block, dutySum := 0, instants := 0 }

/-- Every bridge takes its mixed block. -/
def Ost.load (o : Ost) (blocks : Tbl 8 (List Sample)) : Ost :=
  { o with bridges := Tbl.ofFn (fun i => (o.bridges.get i).load (blocks.get i)) }

/-! ### FAULT_ACK, START, RESTART and what other blocks read -/

/-- What a FAULT_ACK removes: the LATCHED sources that are deasserted (R135). -/
def Ost.acked (o : Ost) (c : Store) (i : BridgeNo) : HoldSet :=
  (o.bridges.get i).hold &&& latchedSet c (o.bridges.get i) &&& ~~~ o.assertedSet i

/-- Whether a LATCHED source stays at a FAULT_ACK (R135). -/
def Ost.stillActive (o : Ost) (c : Store) (i : BridgeNo) : Bool :=
  (o.bridges.get i).hold &&& latchedSet c (o.bridges.get i) &&& o.assertedSet i != 0

/-- A bridge acknowledged (R135): a removed OC clears its lock, and the state is recomputed. -/
def Bridge.ack (c : Store) (b : Bridge) (removed : HoldSet) : Bridge :=
  { b with hold := b.hold &&& ~~~ removed, ocLock := b.ocLock && !holds removed .oc }.recompute c

/-- The Output Stage after a FAULT_ACK (R135). -/
def Ost.faultAck (o : Ost) (c : Store) (i : BridgeNo) : Ost :=
  o.setBridge i ((o.bridges.get i).ack c (o.acked c i))

/-- A bridge at START (R134). -/
def Bridge.started (c : Store) (i : BridgeNo) (b : Bridge) : Bridge :=
  if c.bridgeUsed i then { b with state := if b.hold = 0 then .run else heldState c b } else b

/-- The Output Stage at START, with the notices of the used bridges that START finds held (R134, R137), in ascending number
(log 25). -/
def Ost.started (o : Ost) (c : Store) : Ost × List Notice :=
  ({ o with bridges := Tbl.ofFn (fun i => (o.bridges.get i).started c i) },
    (Tbl.indices 8).flatMap (fun i =>
      let b := (o.bridges.get i).started c i
      if c.bridgeUsed i && b.state != .run then [faultNotice i false b] else []))

/-- A bridge at RESTART: its clip count is 0 (R122), and it plays silence until its feeds are active again (R140). The
sample already taken holds its instant (R118, log 40). -/
def Bridge.restart (b : Bridge) : Bridge := { b.silenceBlock with clip := 0 }

/-- The Output Stage at RESTART: nothing of the protection state changes (R140). -/
def Ost.restart (o : Ost) : Ost := { o with bridges := o.bridges.map Bridge.restart }

/-- Whether each bridge is in RUN (R105, R139). -/
def Ost.running (o : Ost) : Tbl 8 Bool := o.bridges.map Bridge.enabled

/-- The derates (R139). -/
def Ost.derates (o : Ost) : Tbl 8 Nat := o.bridges.map Bridge.derate

/-- Whether a zone is impaired (R138). -/
def Ost.zoneImpaired (o : Ost) (c : Store) (z : Zone) : Bool :=
  let mine := (Tbl.indices 8).filter (fun i => zoneIn (c.bridgeZones i) z)
  !mine.isEmpty && !mine.any (fun i => (o.bridges.get i).enabled)

/-- The impaired zone set; empty in CONFIG (R138). -/
def Ost.impaired (o : Ost) (c : Store) (config : Bool) : ZoneSet :=
  if config then 0 else allZones.foldl (fun acc z => if o.zoneImpaired c z then acc ||| z.bit else acc) 0

end Sys2Proof.Machine
end

