-- ==== Sys2Proof/Machine/Pickup.lean ====
section
/-! DEFINITION. The Pickup Unit: activation, switch and deactivation (R180 to R184), the echo reference (R185), levels
(R186), selection (R187), activity and suppression (R188, R189), the loss split (R190) and the uplink block (R191). -/

namespace Sys2Proof.Machine

open Sys2Proof

/-- The zones of the microphones (R176). -/
def Store.micZones (c : Store) : ZoneSet :=
  c.micZone.toList.foldl (fun acc z => acc ||| (z.map Zone.bit).getD 0) 0

/-- The first qualifying claim (R180). -/
def qualifying (c : Store) (cle : Cle) : Option Claim := cle.bestOf .call c.micZones

/-- The microphones whose zone lies in a zone set (R187). -/
def candidatesOf (c : Store) (zs : ZoneSet) : BitVec 4 :=
  BitVec.ofBoolListLE ((Tbl.indices 4).map (fun m => (c.micZone.get m).any (zoneIn zs)))

/-- Whether a microphone is in a set. -/
def micIn (s : BitVec 4) (m : MicNo) : Bool := s.getLsbD m.val

/-- The split both parts start from at activation and at a switch: Su floor(L / 2), Sd L − Su (R181, R182). -/
def Pku.startSplit (p : Pku) (lossL : Nat) : Pku :=
  { p with far := 0, near := 0, supp := .idle, su := lossL / 2, sd := lossL - lossL / 2 }

/-- Activation for a claim (R181). -/
def Pku.activate (store : Store) (c : Claim) : Pku :=
  { Pku.inactive with
    call := some c.name
    candidates := candidatesOf store c.fields.zones
    echo := c.fields.ref }.startSplit store.callLoss

/-- A switch to another claim (R182). -/
def Pku.switch (p : Pku) (store : Store) (c : Claim) : Pku :=
  { p with
    call := some c.name
    candidates := candidatesOf store c.fields.zones
    selected := none
    challenger := none
    run := 0
    echo := c.fields.ref }.startSplit store.callLoss

/-- The followed claim's fields taken (R183). -/
def Pku.follow (p : Pku) (store : Store) (c : Claim) : Pku :=
  let cand := candidatesOf store c.fields.zones
  let p1 := { p with candidates := cand, echo := c.fields.ref }
  if p.selected.all (micIn cand) then p1 else { p1 with selected := none, challenger := none, run := 0 }

/-- What step 1 decides for the pickup slot (R68, R181, R184). -/
inductive PickupSlot where
  | keep | start | stop
deriving DecidableEq, Repr

/-- Step 1 of a block boundary (R179, R180): the record, what becomes of the slot, and the notice. -/
def Pku.decide_ (p : Pku) (store : Store) (cle : Cle) : Pku × PickupSlot × List Notice :=
  match p.call, qualifying store cle with
  | none, none => (p, .keep, [])
  | none, some c =>
    let q := Pku.activate store c
    (q, .start, [.pickupActive c.name q.candidates q.echo])
  | some r, some c =>
    if c.name = r then (p.follow store c, .keep, [])
    else (p.switch store c, .keep, [.pickupSwitched r c.name c.fields.ref])
  | some r, none => (Pku.inactive, .stop, [.pickupInactive r])

/-- The echo reference named to the Intake (R185). -/
def Pku.user (p : Pku) : List (User × StreamNo) :=
  match p.call, p.echo with
  | some _, some n => [(.echo, n)]
  | _, _ => []

/-- Step 3 (R186): Ld from the echo block, each Lm from its microphone block and trim. -/
def Pku.measure (p : Pku) (store : Store) (echo : List StereoSample) (mics : Tbl 4 (List Sample)) : Pku :=
  { p with
    ld := level (echo.flatMap (fun x => [x.l, x.r]))
    lm := Tbl.ofFn (fun m => min Config.mute (level (mics.get m) + store.micTrim.get m)) }

/-- The candidate with the smallest Lm but for those left out, the lowest-numbered among several (R187). -/
def Pku.loudest (p : Pku) (skip : MicNo → Bool) : Option MicNo :=
  (Tbl.indices 4).foldl (fun acc m =>
    if micIn p.candidates m && !skip m then
      match acc with
      | none => some m
      | some b => if p.lm.get m < p.lm.get b then some m else some b
    else acc) none

/-- Step 4 (R187). -/
def Pku.select (p : Pku) : Pku :=
  match p.selected with
  | none => { p with selected := p.loudest (fun _ => false), challenger := none, run := 0 }
  | some sel =>
    match p.loudest (fun m => m == sel) with
    | none => { p with challenger := none, run := 0 }
    | some c =>
      if p.lm.get sel < p.lm.get c + Config.micMargin then { p with challenger := none, run := 0 }
      else
        let run := if p.challenger = some c then p.run + 1 else 1
        if run < Config.micRunEnd then { p with challenger := some c, run := run }
        else { p with selected := some c, challenger := none, run := 0 }

/-- Whether far activity is detected (R188). -/
def Pku.farActive (p : Pku) (store : Store) : Bool := decide (p.ld < Config.mute) && decide (p.ld ≤ store.farThreshold)

/-- The selected microphone's Lm, 128 without one. -/
def Pku.selectedLm (p : Pku) : Nat :=
  match p.selected with
  | some m => p.lm.get m
  | none => Config.mute

/-- Whether near activity is detected (R188). -/
def Pku.nearActive (p : Pku) (store : Store) : Bool :=
  decide (p.selectedLm < Config.mute) && decide (p.selectedLm ≤ store.nearThreshold)
    && decide (p.selectedLm < p.ld + store.coupling)

/-- A hang timer after the detection (R189). -/
def hangAfter (detected : Bool) (timer : Nat) : Nat := if detected then Config.hangTime else timer - 1

/-- The suppression state of two timers (R189). -/
def suppressionOf (far near : Nat) : Suppression :=
  if 0 < far then if 0 < near then .double else .receive
  else if 0 < near then .send else .idle

/-- The suppression state set from the timers (R189). -/
def Pku.setSuppression (p : Pku) : Pku := { p with supp := suppressionOf p.far p.near }

/-- Step 5 (R188, R189). -/
def Pku.hang (p : Pku) (store : Store) : Pku :=
  { p with far := hangAfter (p.farActive store) p.far, near := hangAfter (p.nearActive store) p.near }.setSuppression

/-- The target of Su (R190). -/
def suTarget (lossL : Nat) : Suppression → Nat
  | .receive => lossL
  | .send => 0
  | .double | .idle => lossL / 2

/-- Su after one move toward its target (R190). -/
def suAfter (target su : Nat) : Nat :=
  if su < target then min target (su + Config.suStep)
  else max target (su - Config.suStep)

/-- Step 6 (R190). -/
def Pku.split (p : Pku) (store : Store) : Pku :=
  let su := suAfter (suTarget store.callLoss p.supp) p.su
  { p with su := su, sd := store.callLoss - su }

/-- Step 7 (R191): the uplink block of the selected microphone. -/
def Pku.formUplink (p : Pku) (store : Store) (mics : Tbl 4 (List Sample)) : Pku :=
  { p with uplink :=
      match p.selected with
      | some m => some ((mics.get m).map (attenuate (min Config.mute (p.su + store.micTrim.get m))))
      | none => some (List.replicate Config.blockLen 0) }

/-- Steps 3 to 7 of a block boundary while ACTIVE (R179). -/
def Pku.run_ (p : Pku) (store : Store) (echo : List StereoSample) (served : Bool) (mics : Tbl 4 (List Sample)) : Pku :=
  if p.call.isNone then p
  else
    (((({ p with echoServed := served }.measure store echo mics).select).hang store).split store).formUplink store mics

/-- The call block of this boundary's pickup frame (R69, R191). -/
def Pku.callBlock (p : Pku) : Option CallBlock := p.call.map (fun r => ⟨r, p.sd⟩)

/-- The PICKUP source's block from an uplink block: silence where none was handed (R191). -/
def pickupBlock (uplink : Option (List Sample)) : List StereoSample :=
  match uplink with
  | some l => monoBlock l
  | none => silentBlock

end Sys2Proof.Machine
end

