-- ==== Sys2Proof/Machine/Radio.lean ====
section
/-! DEFINITION. The Radio Unit: reports and quality (R142 to R146), the RADIO block (R147, R152), roles and the path-B
control (R148, R149), diversity (R150, R151), the reception watch (R153 to R156), probing (R157 to R160), programme data
(R161, R162), scanning (R163 to R166), tuning and seeking (R168 to R170) and announcements (R171 to R173). -/

namespace Sys2Proof.Machine

open Sys2Proof

/-- What the Radio Unit passes to other blocks in an event: a notice, or the start or end of an announcement, the end
with the claim it had (R172, R173). -/
inductive RduEffect where
  | notice (n : Notice)
  | announceStart
  | announceEnd (claim : Option Serial) (cause : AnnounceCause)
deriving DecidableEq, Repr

/-- The Radio Unit after a piece of its work, with what it passes on, in order. -/
abbrev RduOut := Rdu × List RduEffect

/-- One piece of work after another. -/
def RduOut.andThen (o : RduOut) (f : Rdu → RduOut) : RduOut := ((f o.1).1, o.2 ++ (f o.1).2)

/-! ### Paths and roles (R143, R148) -/

/-- The other path. -/
def otherPath : Path → Path
  | .a => .b
  | .b => .a

/-- A path's record. -/
def Rdu.path (r : Rdu) : Path → PathRec
  | .a => r.pathA
  | .b => r.pathB

/-- A path's record replaced. -/
def Rdu.setPath (r : Rdu) (p : Path) (x : PathRec) : Rdu :=
  match p with
  | .a => { r with pathA := x }
  | .b => { r with pathB := x }

/-- The spare path. -/
def Rdu.spare (r : Rdu) : Path := otherPath r.active

/-- The active path's record. -/
def Rdu.activeRec (r : Rdu) : PathRec := r.path r.active

/-- The spare path's record. -/
def Rdu.spareRec (r : Rdu) : PathRec := r.path r.spare

/-- Whether a path is present (R142). -/
def pathPresent : FrontEnds → Path → Bool
  | .none, _ => false
  | .a, p => p == .a
  | .ab, _ => true

/-- Qs of a path (R143). -/
def PathRec.qs (p : PathRec) : Option Nat := p.qs16.map (· / 16)

/-- A path record after a retune (R143): the prepared block is left as it is, and so heard at the next boundary where no
report replaces it (log 35). -/
def PathRec.retuned (p : PathRec) (c : Channel) : PathRec :=
  { tuned := some c, settle := Config.settleCount, qs16 := none, prepared := p.prepared, data := ProgData.cleared }

/-- The announcement's runs set to 0 (R171). -/
def Announcement.clearRuns (a : Announcement) : Announcement := { a with activeRun := 0, clearRun := 0 }

/-- A path retuned (R143): the diversity run is set to 0 (R150), and for the active path the announcement's runs
(R171). -/
def Rdu.retune (r : Rdu) (p : Path) (c : Channel) : Rdu :=
  { r.setPath p ((r.path p).retuned c) with
    divRun := 0
    ann := if p = r.active then r.ann.clearRuns else r.ann }

/-- Both pending flags cleared (R153). -/
def Detector.clearPending (d : Detector) : Detector := { d with pending := false }

/-- A path made active (R148, R150, R153, R171): at a change of roles the runs are set to 0 and the pending flags are
cleared. -/
def Rdu.makeActive (r : Rdu) (p : Path) : Rdu :=
  if r.active = p then r
  else
    { r with
      active := p
      divRun := 0
      low := r.low.clearPending
      good := r.good.clearPending
      ann := r.ann.clearRuns }

/-- The detectors as TUNE and the start of a seek set them (R153). -/
def Rdu.setDetectors (r : Rdu) : Rdu := { r with low := ⟨true, false⟩, good := ⟨false, false⟩ }

/-- The RECEPTION notice of an event, with the active path after it (R154). -/
def Rdu.reception (r : Rdu) (what : ReceptionDetail) : RduEffect :=
  .notice (.reception what r.active r.activeRec.tuned r.activeRec.qs)

/-! ### The path-B control (R149) -/

/-- The mode the control chooses (R149). -/
def Rdu.chosenMode (r : Rdu) (c : Store) : PathBMode :=
  if c.frontEnds ≠ .ab then .idle
  else if r.probe.isSome then .probe
  else if r.scanEnable ∧ r.good.above then .scan
  else if c.diversity then .diversity
  else .idle

/-- The effect of a mode on the spare (R149). -/
def Rdu.useSpare (r : Rdu) : Rdu :=
  match r.mode with
  | .idle => r
  | .diversity =>
    match r.seek, r.activeRec.tuned with
    | none, some c => r.retune r.spare c
    | _, _ => r
  | .scan => { r.retune r.spare r.scanPos with scanMeas := 0, scanSum := 0 }
  | .probe =>
    match r.probe with
    | none => r
    | some p =>
      match p.candidates with
      | [] => r
      | c :: _ =>
        { r.retune r.spare c with
          probe := some { p with index := 0, phase := .settling, measured := 0, sum := 0, tagSeen := false } }

/-- The effect of a mode on the spare, or its wait for the crossfade (R149, R152). -/
def Rdu.useSpareOrWait (r : Rdu) : Rdu :=
  if r.crossfade then { r with deferred := true } else { r.useSpare with deferred := false }

/-- The control chooses (R149): entering a mode acts on the spare, and so does `again`, a change of which path is spare
or a retune that a request asks for. -/
def Rdu.control (r : Rdu) (c : Store) (again : Bool) : Rdu :=
  let m := r.chosenMode c
  let r1 := { r with mode := m, divRun := if m = .diversity then r.divRun else 0 }
  if m ≠ r.mode ∨ again then r1.useSpareOrWait else r1

/-- In DIVERSITY a request or the end of a seek retunes the spare as well (R168, R170). -/
def Rdu.controlRetuning (r : Rdu) (c : Store) (again : Bool) : Rdu :=
  r.control c (again || r.chosenMode c == .diversity)

/-! ### Quality and the prepared block (R145, R146) -/

/-- The quality Q of a report (R142, R145): FS, MP and AC above their ranges are read as the top. -/
def reportQuality (x : Report) : Nat :=
  min 100 (min 120 x.fs - 20 - 3 * min 15 x.mp - 2 * min 15 x.ac)

/-- Qs16 after a kept report (R145). -/
def smooth (old : Option Nat) (q : Nat) : Nat :=
  match old with
  | none => 16 * q
  | some o => ((o : Int) + Int.tdiv (16 * q - o) 4).toNat

/-- The blend of a Qs (R146). -/
def blendOf (qs : Nat) : Nat := min 32 (qs - 30) / 2

/-- The soft mute of a Qs, forced while a seek runs on the path (R146). -/
def softMute (qs : Nat) (forced : Bool) : Nat := if forced then Config.mute else if qs < 40 then 2 * (40 - qs) else 0

/-- One sample frame of a kept report's block (R146). -/
def stereoFrame (b g : Nat) (m s : Sample) : StereoSample :=
  let w := s.toInt * b / 16
  ⟨saturate (product (m.toInt + w) g), saturate (product (m.toInt - w) g)⟩

/-- The block a kept report prepares (R146). -/
def preparedBlock (x : Report) (qs : Nat) (forced : Bool) : List StereoSample :=
  List.zipWith (stereoFrame (blendOf qs) (gain (softMute qs forced)))
    (padTo Config.blockLen 0 x.mid) (padTo Config.blockLen 0 x.side)

/-! ### Programme data (R161, R162) -/

/-- A TAG_ID word taken; whether it was a tag change (R161). -/
def ProgData.takeTag (d : ProgData) (t : BitVec 16) : ProgData × Bool :=
  if d.tag = some t then ({ d with lastTag := some t }, false)
  else if d.lastTag = some t then ({ ProgData.cleared with lastTag := some t, tag := some t }, true)
  else ({ d with lastTag := some t }, false)

/-- One channel of an ALT word taken (R162). -/
def ProgData.takeAlt (d : ProgData) (tuned : Option Channel) (n : Nat) : ProgData :=
  if h : n < 411 then
    let c : Channel := ⟨n, h⟩
    if d.alt.contains c || tuned == some c || decide (6 ≤ d.alt.length) then d else { d with alt := d.alt ++ [c] }
  else d

/-- A programme-data word taken; whether it was a tag change (R161, R162). -/
def ProgData.take (d : ProgData) (tuned : Option Channel) : DataWord → ProgData × Bool
  | .tagId t => d.takeTag t
  | .name i a b => (if d.tag.isSome then { d with parts := d.parts.set i (some (a, b)) } else d, false)
  | .flags traffic announce => ({ d with traffic := some traffic, announce := some announce }, false)
  | .alt x y =>
    (if d.tag.isSome then
      match y with
      | none => d.takeAlt tuned x
      | some z => (d.takeAlt tuned x).takeAlt tuned z
    else d, false)

/-- The name, present when all four parts are (R161). -/
def ProgData.name (d : ProgData) : Option (List Byte) :=
  d.parts.toList.foldr (fun p acc =>
    match p, acc with
    | some (a, b), some l => some (a :: b :: l)
    | _, _ => none) (some [])

/-! ### Announcements (R171 to R173) -/

/-- A running announcement ends (R173). -/
def Rdu.endAnnouncement (r : Rdu) (cause : AnnounceCause) : RduOut :=
  if r.ann.running then
    ({ r with ann := { r.ann with running := false, claim := none } }, [.announceEnd r.ann.claim cause])
  else (r, [])

/-- The runs after a FLAGS word of the active path (R171). -/
def Announcement.count (a : Announcement) (announce : Bool) : Announcement :=
  if announce then { a with activeRun := min 2 (a.activeRun + 1), clearRun := 0 }
  else { a with clearRun := min 2 (a.clearRun + 1), activeRun := 0 }

/-- A FLAGS word of the active path at the announcement record (R171 to R173). -/
def Rdu.takeFlags (r : Rdu) (traffic announce : Bool) : RduOut :=
  let r1 := { r with ann := r.ann.count announce }
  if r1.ann.running then
    if announce = false ∧ r1.ann.clearRun = 2 then r1.endAnnouncement .flags else (r1, [])
  else if announce ∧ r1.ann.activeRun = 2 ∧ r1.announceEnable ∧ traffic then
    ({ r1 with ann := { r1.ann with running := true, clearRun := 0, hold := 0 } }, [.announceStart])
  else (r1, [])

/-- A tag change on the active path (R171, R173). -/
def Rdu.tagChanged (r : Rdu) : RduOut := ({ r with ann := r.ann.clearRuns }).endAnnouncement .programme

/-- The word of a kept report (R161, R162, R171). -/
def Rdu.takeWord (r : Rdu) (p : Path) (w : Option DataWord) : RduOut :=
  match w with
  | none => (r, [])
  | some w =>
    let x := r.path p
    let d := x.data.take x.tuned w
    let r1 := r.setPath p { x with data := d.1 }
    if p = r.active then
      match w with
      | .flags traffic announce => r1.takeFlags traffic announce
      | _ => if d.2 then r1.tagChanged else (r1, [])
    else (r1, [])

/-! ### The reception watch (R153 to R155) -/

/-- A detector after a compared Qs; whether it crossed (R153). -/
def Detector.compare (d : Detector) (threshold qs : Nat) : Detector × Bool :=
  let above := decide (threshold ≤ qs)
  if above = d.above then (⟨d.above, false⟩, false)
  else if d.pending then (⟨above, false⟩, true)
  else (⟨d.above, true⟩, false)

/-- Whether an edge selection reports a crossing (R154). -/
def Edge.reports (e : Edge) (rising : Bool) : Bool :=
  match e with
  | .rise => rising
  | .fall => !rising
  | .both => true
  | .off => false

/-- The LOW detector at a kept report of the active path (R153 to R155). -/
def Rdu.watchLow (r : Rdu) (c : Store) (qs : Nat) : RduOut :=
  let d := r.low.compare c.lowThreshold qs
  let r1 := { r with low := d.1 }
  if d.2 then
    if d.1.above then
      ({ r1 with afTimer := none, probe := none },
        if c.lowEdge.reports true then [r1.reception .regained] else [])
    else
      ({ r1 with afTimer := some Config.afStart },
        if c.lowEdge.reports false then [r1.reception .low] else [])
  else (r1, [])

/-- The GOOD detector at a kept report of the active path (R153, R154). -/
def Rdu.watchGood (r : Rdu) (c : Store) (qs : Nat) : RduOut :=
  let d := r.good.compare c.goodThreshold qs
  let r1 := { r with good := d.1 }
  if d.2 && c.goodEdge.reports d.1.above then
    (r1, [r1.reception (if d.1.above then .good else .notGood)])
  else (r1, [])

/-- Both detectors, LOW before GOOD (log 36), after which the control chooses again (R149, R153). -/
def Rdu.watch (r : Rdu) (c : Store) : RduOut :=
  match r.activeRec.qs with
  | none => (r, [])
  | some qs => ((r.watchLow c qs).andThen (fun r1 => r1.watchGood c qs)).andThen (fun r2 => (r2.control c false, []))

/-! ### Diversity (R150) -/

/-- The diversity run at a kept report of the spare (R150). -/
def Rdu.compareSpare (r : Rdu) : Rdu :=
  match r.seek, r.crossfade, r.spareRec.qs, r.activeRec.qs with
  | none, false, some s, some a =>
    if r.spareRec.tuned = r.activeRec.tuned then
      { r with divRun := if a + Config.divMargin ≤ s then min Config.divRunEnd (r.divRun + 1) else 0 }
    else r
  | _, _, _, _ => r

/-! ### Probing (R156 to R160) -/

/-- The AF timer after the end of a probe: 200 while LOW is BELOW (R159, R160). -/
def Rdu.restartAf (r : Rdu) : Rdu := if r.low.above then r else { r with afTimer := some Config.afStart }

/-- A probe ends with every candidate failed (R160). -/
def Rdu.probeFailed (r : Rdu) (c : Store) : RduOut :=
  let r1 := ({ r with probe := none }).restartAf
  (r1.control c false, [r.reception .probeFailed])

/-- A candidate judged at its fifth measured report (R158). -/
def Rdu.judge (r : Rdu) (c : Store) (p : Probe) : RduOut :=
  let good := match r.activeRec.qs with
    | some a => decide (a + Config.probeMargin ≤ p.sum / Config.probeReports) && p.tagSeen
    | none => false
  if good then ({ r with probe := some { p with phase := .swapWanted } }, [])
  else
    match p.candidates[p.index + 1]? with
    | some ch =>
      ({ r.retune r.spare ch with
          probe := some { p with index := p.index + 1, phase := .settling, measured := 0, sum := 0, tagSeen := false } }, [])
    | none => r.probeFailed c

/-- Whether a word is a TAG_ID word of a tag (R157). -/
def wordIsTag (w : Option DataWord) (tag : Option (BitVec 16)) : Bool :=
  match w, tag with
  | some (.tagId t), some u => t == u
  | _, _ => false

/-- A kept report of the spare while probing (R157, R158). -/
def Rdu.measureProbe (r : Rdu) (c : Store) (q : Nat) (w : Option DataWord) : RduOut :=
  match r.probe with
  | none => (r, [])
  | some p =>
    if p.phase = .swapWanted then (r, [])
    else
      let p1 := { p with
        phase := .measuring
        measured := p.measured + 1
        sum := p.sum + q
        tagSeen := p.tagSeen || wordIsTag w r.activeRec.data.tag }
      if p1.measured < Config.probeReports then ({ r with probe := some p1 }, [])
      else r.judge c p1

/-! ### Scanning (R163 to R166) -/

/-- An entry in its channel place. -/
def insertStation (e : StationEntry) : List StationEntry → List StationEntry
  | [] => [e]
  | f :: l => if e.channel < f.channel then e :: f :: l else f :: insertStation e l

/-- A list entry for a measured channel, from the spare's record (R165). -/
def StationEntry.ofData (ch : Channel) (mean : Nat) (d : ProgData) : StationEntry :=
  ⟨ch, mean, d.tag, d.name, d.traffic, 0, true⟩

/-- An entry already in the list after its channel was measured (R165). -/
def StationEntry.seenAgain (e : StationEntry) (mean : Nat) (d : ProgData) : StationEntry :=
  { e with
    best := max e.best mean
    tag := d.tag.or e.tag
    name := d.name.or e.name
    traffic := d.traffic.or e.traffic
    unseen := 0
    seen := true }

/-- The entry with the lowest best quality, the lowest channel among several (R165). -/
def weakest : List StationEntry → Option StationEntry
  | [] => none
  | e :: l =>
    match weakest l with
    | none => some e
    | some f => if f.best < e.best then some f else some e

/-- A measured channel entered into the station list (R165). -/
def enterStation (ch : Channel) (mean : Nat) (d : ProgData) (l : List StationEntry) : List StationEntry :=
  if mean < Config.seenMean then l
  else if l.any (fun e => e.channel == ch) then l.map (fun e => if e.channel = ch then e.seenAgain mean d else e)
  else if l.length < Config.stationCapacity then insertStation (StationEntry.ofData ch mean d) l
  else
    match weakest l with
    | none => l
    | some w =>
      if w.best < mean then
        insertStation (StationEntry.ofData ch mean d) (l.filter (fun e => e.channel != w.channel))
      else l

/-- The station list at the end of a pass (R166). -/
def ageStations (l : List StationEntry) : List StationEntry :=
  l.filterMap (fun e =>
    if e.seen then some { e with seen := false }
    else if e.unseen + 1 < Config.unseenEnd then some { e with unseen := e.unseen + 1 }
    else none)

/-- The end of a scan pass (R164, R166). -/
def Rdu.endPass (r : Rdu) : RduOut :=
  let l := ageStations r.stations
  ({ r with stations := l, scanPos := 0 }, [.notice (.scan l.length (r.stations.length - l.length))])

/-- The scan position moves on, at 410 with the end of the pass, and the spare is retuned to it (R164). -/
def Rdu.nextScan (r : Rdu) : RduOut :=
  let o : RduOut := if h : r.scanPos.val < 410 then ({ r with scanPos := ⟨r.scanPos.val + 1, by omega⟩ }, []) else r.endPass
  o.andThen (fun r1 => ({ r1.retune r1.spare r1.scanPos with scanMeas := 0, scanSum := 0 }, []))

/-- A kept report of the spare while scanning (R164). -/
def Rdu.measureScan (r : Rdu) (q : Nat) : RduOut :=
  let n := r.scanMeas + 1
  let sum := r.scanSum + q
  if n < Config.scanReports then ({ r with scanMeas := n, scanSum := sum }, [])
  else
    ({ r with stations := enterStation r.scanPos (sum / Config.scanReports) r.spareRec.data r.stations }).nextScan

/-! ### Seeking (R169, R170) -/

/-- The next channel in a direction, wrapping (R169). -/
def nextChannel (d : Direction) (c : Channel) : Channel :=
  match d with
  | .up => if h : c.val < 410 then ⟨c.val + 1, by omega⟩ else 0
  | .down => if h : 0 < c.val then ⟨c.val - 1, by omega⟩ else 410

/-- A kept report of the active path while a seek runs (R170). -/
def Rdu.measureSeek (r : Rdu) (c : Store) (k : Seek) (q : Nat) : RduOut :=
  let n := k.measured + 1
  let sum := k.sum + q
  if n < Config.scanReports then ({ r with seek := some { k with measured := n, sum := sum } }, [])
  else
    let here := r.activeRec.tuned.getD 0
    let steps := k.steps + 1
    if Config.foundMean ≤ sum / Config.scanReports then
      (({ r with seek := none }).controlRetuning c false, [.notice (.seekFound here)])
    else if steps < Config.seekSteps then
      ({ r.retune r.active (nextChannel k.direction here) with
          seek := some { k with steps := steps, measured := 0, sum := 0 } }, [])
    else
      ((({ r with seek := none }).retune r.active k.start).controlRetuning c false, [.notice .seekFailed])

/-! ### Reports (R142, R144) -/

/-- The block of a discarded report (R146), and the settling of the path (R144). -/
def PathRec.discardReport (p : PathRec) (onChannel : Bool) : PathRec :=
  { p with settle := if onChannel then p.settle - 1 else p.settle, prepared := some silentBlock }

/-- The path record after a kept report's quality and block (R145, R146). -/
def PathRec.keepReport (p : PathRec) (x : Report) (forced : Bool) : PathRec :=
  let q16 := smooth p.qs16 (reportQuality x)
  { p with qs16 := some q16, prepared := some (preparedBlock x (q16 / 16) forced) }

/-- What a kept report of the active path is used for (R153, R170). -/
def Rdu.useActive (r : Rdu) (c : Store) (seek : Option Seek) (q : Nat) : RduOut :=
  match seek with
  | some k => r.measureSeek c k q
  | none => r.watch c

/-- What a kept report of the spare is used for (R150, R157, R164). -/
def Rdu.useSpareReport (r : Rdu) (c : Store) (q : Nat) (w : Option DataWord) : RduOut :=
  match r.mode with
  | .idle => (r, [])
  | .diversity => (r.compareSpare, [])
  | .probe => if r.deferred then (r, []) else r.measureProbe c q w
  | .scan => if r.deferred then (r, []) else r.measureScan q

/-- A kept report (R144 to R146, R161). -/
def Rdu.keep (r : Rdu) (c : Store) (p : Path) (x : Report) : RduOut :=
  let forced := r.seek.isSome && p == r.active
  let r1 := r.setPath p ((r.path p).keepReport x forced)
  (r1.takeWord p x.word).andThen (fun r2 =>
    if p = r.active then r2.useActive c r.seek (reportQuality x) else r2.useSpareReport c (reportQuality x) x.word)

/-- A report of a present path (R144): discarded or kept. -/
def Rdu.report (r : Rdu) (c : Store) (p : Path) (x : Report) : RduOut :=
  let onChannel := (r.path p).tuned.any (fun t => t.val == x.channel)
  if onChannel ∧ (r.path p).settle = 0 then r.keep c p x
  else (r.setPath p ((r.path p).discardReport onChannel), [])

/-! ### The block boundary (R147, R148, R151, R152, R156, R159, R173) -/

/-- One channel of a crossfade (R152). -/
def crossfadeSample (n : Nat) (old new : Sample) : Sample :=
  BitVec.ofInt 24 ((old.toInt * (48 - n) + new.toInt * n + 24) / 48)

/-- The crossfade of two blocks from place `n` on (R152). -/
def crossfadeFrom : Nat → List StereoSample → List StereoSample → List StereoSample
  | n, a :: old, b :: new => ⟨crossfadeSample n a.l b.l, crossfadeSample n a.r b.r⟩ :: crossfadeFrom (n + 1) old new
  | _, _, _ => []

/-- A path's prepared block, silence where it has none. -/
def PathRec.preparedOrSilence (p : PathRec) : List StereoSample := p.prepared.getD silentBlock

/-- A path's prepared block taken. -/
def PathRec.taken (p : PathRec) : PathRec := { p with prepared := none }

/-- The crossfade formed (R152): both prepared blocks are taken, and a retune that waited is made. -/
def Rdu.formCrossfade (r : Rdu) : Rdu :=
  let block := crossfadeFrom 0 r.spareRec.preparedOrSilence r.activeRec.preparedOrSilence
  let r1 := { r with radio := block, crossfade := false, pathA := r.pathA.taken, pathB := r.pathB.taken }
  if r1.deferred then { r1.useSpare with deferred := false } else r1

/-- The RADIO block formed (R147), from a block prepared before a retune as well (log 35). -/
def Rdu.formRadio (r : Rdu) (c : Store) : Rdu :=
  if c.frontEnds = .none then { r with radio := silentBlock }
  else if r.crossfade then r.formCrossfade
  else { r.setPath r.active r.activeRec.taken with radio := r.activeRec.preparedOrSilence }

/-- A swap of the roles (R152). -/
def Rdu.swap (r : Rdu) : Rdu :=
  let new := r.spare
  let r1 := r.setPath new { r.path new with data := r.activeRec.data }
  { r1.makeActive new with holdOff := 0, crossfade := true, deferred := true }

/-- The diversity swap (R151). -/
def Rdu.diversitySwap (r : Rdu) : RduOut := (r.swap, [r.swap.reception .diversitySwitch])

/-- Whether a diversity swap is due once the hold-off counter is 20 (R151). -/
def Rdu.diversityDue (r : Rdu) : Bool := r.mode == .diversity && r.divRun == Config.divRunEnd

/-- The probe swap (R159). -/
def Rdu.probeSwap (r : Rdu) (c : Store) : RduOut :=
  let r1 := r.swap
  ((({ r1 with probe := none }).restartAf).control c false, [r1.reception .probeSuccess])

/-- Whether a probe swap is due once the hold-off counter is 20 (R159). -/
def Rdu.probeDue (r : Rdu) : Bool := r.probe.any (fun p => p.phase == .swapWanted)

/-- The hold-off counter's rise (R148). -/
def Rdu.riseHoldOff (r : Rdu) : Rdu := { r with holdOff := min Config.holdOffTop (r.holdOff + 1) }

/-- The candidates of a probe (R156). -/
def Rdu.candidates (r : Rdu) : List Channel := r.activeRec.data.alt.filter (fun c => r.activeRec.tuned != some c)

/-- The AF timer expires (R156). -/
def Rdu.afExpires (r : Rdu) (c : Store) : Rdu :=
  if r.candidates ≠ [] ∧ c.frontEnds = .ab then
    ({ r with afTimer := none, probe := some ⟨r.candidates, 0, .settling, 0, 0, false⟩ }).control c false
  else { r with afTimer := some Config.afStart }

/-- The AF timer at a block boundary (R156). -/
def Rdu.tickAf (r : Rdu) (c : Store) : Rdu :=
  match r.afTimer with
  | none => r
  | some n => if 1 < n then { r with afTimer := some (n - 1) } else r.afExpires c

/-- The announcement's reception hold at a block boundary (R173). -/
def Rdu.tickReception (r : Rdu) : RduOut :=
  if r.ann.running then
    if r.low.above then ({ r with ann := { r.ann with hold := 0 } }, [])
    else
      let r1 := { r with ann := { r.ann with hold := r.ann.hold + 1 } }
      if r1.ann.hold < Config.receptionEnd then (r1, []) else r1.endAnnouncement .reception
  else (r, [])

/-- The role swaps and the AF timer at a block boundary: the timer that a probe swap restarts is not stepped at the same
boundary (R151, R156, R159). -/
def Rdu.swapOrTick (r : Rdu) (c : Store) : RduOut :=
  if r.holdOff = Config.holdOffTop ∧ r.probeDue then r.probeSwap c
  else
    let o := if r.holdOff = Config.holdOffTop ∧ r.diversityDue then r.diversitySwap else (r, [])
    o.andThen (fun r1 => (r1.tickAf c, []))

/-- The Radio Unit's work at a block boundary after the RADIO block (R147). -/
def Rdu.boundary (r : Rdu) (c : Store) : RduOut :=
  ((r.riseHoldOff).swapOrTick c).andThen Rdu.tickReception

/-! ### Requests, START and RESTART (R167 to R169, R174) -/

/-- What TUNE and SEEK end: a probe, the AF timer, and a pending crossfade (R168, R169). -/
def Rdu.dropWork (r : Rdu) : Rdu := { r with probe := none, afTimer := none, crossfade := false, deferred := false }

/-- Whether the control must act on the spare again after TUNE or SEEK: path A was not active, or a retune waited for the
crossfade they dropped. -/
def Rdu.spareAgain (r : Rdu) : Bool := r.active != .a || r.deferred

/-- TUNE taken (R168). -/
def Rdu.tune (r : Rdu) (c : Store) (ch : Channel) : RduOut :=
  let cancelled : List RduEffect := if r.seek.isSome then [.notice .seekCancelled] else []
  let r1 := ({ ({ r with seek := none }).dropWork.makeActive .a with holdOff := 0 }.retune .a ch).setDetectors
  let o := r1.endAnnouncement .tune
  (o.1.controlRetuning c r.spareAgain, cancelled ++ o.2)

/-- SEEK taken (R169). -/
def Rdu.startSeek (r : Rdu) (c : Store) (d : Direction) : RduOut :=
  let start := r.activeRec.tuned.getD 0
  let o := r.dropWork.endAnnouncement .seek
  let r1 := ({ o.1.makeActive .a with holdOff := 0 }).setDetectors
  let r2 := { r1.retune .a (nextChannel d start) with seek := some ⟨d, start, 0, 0, 0⟩ }
  (r2.control c r.spareAgain, o.2)

/-- SCAN taken outside CONFIG (R167). -/
def Rdu.setScan (r : Rdu) (c : Store) (on : Bool) : Rdu := ({ r with scanEnable := on }).control c false

/-- ANNOUNCE_ENABLE taken outside CONFIG (R167, R173). -/
def Rdu.setAnnounce (r : Rdu) (on : Bool) : RduOut :=
  let r1 := { r with announceEnable := on }
  if on then (r1, []) else r1.endAnnouncement .disabled

/-- The Radio Unit at START (R174): as pin reset set it, which CONFIG leaves so, with A active and no channel tuned; the
enables take their defaults, and the control chooses a mode. -/
def Rdu.started (r : Rdu) (c : Store) : Rdu :=
  ({ Rdu.reset with
    radio := r.radio, scanEnable := c.scanDefault, announceEnable := c.announceDefault }).control c false

/-- A path record at RESTART before any retune: no prepared block, programme data cleared; its channel stays, and its
settle count and Qs16, which retunes alone set (R174, log 41). -/
def PathRec.restarted (p : PathRec) : PathRec := { p with prepared := none, data := ProgData.cleared }

/-- The Radio Unit at RESTART (R174): the channel of the active path is kept, retuned on A; B stays where it is until the
new mode moves it. -/
def Rdu.restart (r : Rdu) (c : Store) : Rdu :=
  let fresh := { Rdu.reset with
    pathB := r.pathB.restarted, scanEnable := c.scanDefault, announceEnable := c.announceDefault, holdOff := 0 }
  let r1 :=
    match r.activeRec.tuned with
    | some ch => fresh.retune .a ch
    | none => fresh
  r1.control c false

end Sys2Proof.Machine
end

