-- ==== Sys2Proof/Machine/Port.lean ====
section
/-! DEFINITION. The Control Port: the configuration items (R210, R212, R213), START's validation (R214), and the data of
every result (R211, R215 to R218). -/

namespace Sys2Proof.Machine

open Sys2Proof

/-! ### Configuration items (R210, R212) -/

/-- A value of one byte, as a number. -/
def oneByte : List Byte → Option Nat
  | [b] => some b.toNat
  | _ => none

/-- A zone set of one byte. -/
def oneZoneSet : List Byte → Option ZoneSet
  | [b] => zonesOfByte b
  | _ => none

/-- A number of one byte brought into its range. -/
def clampedByte (lo hi : Nat) (v : List Byte) : Option Nat := (oneByte v).map (clampNat lo hi)

/-- The entry of a list at an index that must lie below `n`. -/
def indexed (n index : Nat) : Option (Fin n) := if h : index < n then some ⟨index, h⟩ else none

/-- The index of an item without one. -/
def noIndex {α : Type} (index : Nat) (a : Option α) : Option α := if index = 0 then a else none

/-- The only zone of a set of at most one. -/
def zoneOrNone (zs : ZoneSet) : Option (Option Zone) :=
  match zonesOf zs with
  | [] => some none
  | [z] => some (some z)
  | _ => none

/-- A selector from its type and argument bytes (R210); FOLLOW(QUIET) and streams above 15 are refused (R91). -/
def parseSelector (type arg : Nat) : Option Selector :=
  match type with
  | 0 => if arg = 0 then some .none else Option.none
  | 1 => (Source.ofCode arg).map Selector.local_
  | 2 => (indexed 16 arg).map Selector.stream
  | 3 =>
    match ClaimKind.ofCode arg with
    | some .quiet => Option.none
    | some k => some (.follow k)
    | none => Option.none
  | 4 => if arg = 0 then some .uplink else Option.none
  | _ => Option.none

/-- Whether a channel pick suits an output (R91). -/
def pickSuits (o : OutputNo) (p : Pick) : Bool := if o.val < 8 then p != .stereo else p == .stereo

/-- A feed slot's value (R91, R210), its trim clamped. -/
def parseFeed (o : OutputNo) : List Byte → Option FeedConfig
  | [type, arg, pick, trim, cond] => do
    let sel ← parseSelector type.toNat arg.toNat
    let p ← Pick.ofCode pick.toNat
    let only ← onOffOfCode cond.toNat
    if pickSuits o p then some ⟨sel, p, min 32 trim.toNat, only⟩ else Option.none
  | _ => Option.none

/-- The bytes of a selector (R210). -/
def selectorBytes : Selector → List Byte
  | .none => [0, 0]
  | .local_ src => [1] ++ num1 src.code
  | .stream n => [2] ++ num1 n.val
  | .follow k => [3] ++ num1 k.code
  | .uplink => [4, 0]

/-- The bytes of a feed slot (R210). -/
def feedBytes (f : FeedConfig) : List Byte :=
  selectorBytes f.selector ++ num1 f.pick.code ++ num1 f.trim ++ flag1 f.fallbackOnly

/-- The output and slot of a feed slot index, 4 × output + slot (R210). -/
def feedIndex (index : Nat) : Option (OutputNo × SlotNo) :=
  if h : index < 44 then some (⟨index / 4, by omega⟩, ⟨index % 4, by omega⟩) else none

/-- The kind and class of a duck entry index, 4 × kind + class (R210). -/
def duckIndex (index : Nat) : Option (Fin 5 × Fin 4) :=
  if h : index < 20 then some (⟨index / 4, by omega⟩, ⟨index % 4, by omega⟩) else none

/-- The zone set of an output as SET_CONFIG may write it: a post takes at most one zone (R90). -/
def outputZones (i : Fin 10) (v : List Byte) : Option ZoneSet :=
  match oneZoneSet v with
  | none => none
  | some zs => if 8 ≤ i.val ∧ (zonesOf zs).length > 1 then none else some zs

/-- A clearing mode written (R127): TS, FLT0 and FLT1 alone have one. -/
def Store.setClearing (c : Store) (index : Nat) (latched : Bool) : Option Store :=
  match index with
  | 0 => some { c with tsLatched := latched }
  | 2 => some { c with flt0Latched := latched }
  | 3 => some { c with flt1Latched := latched }
  | _ => none

/-- A clearing mode read. -/
def Store.clearing (c : Store) (index : Nat) : Option Bool :=
  match index with
  | 0 => some c.tsLatched
  | 2 => some c.flt0Latched
  | 3 => some c.flt1Latched
  | _ => none

/-- A fallback zone: any but DRV (R105). -/
def fallbackZoneOf (n : Nat) : Option Zone :=
  match Zone.ofCode n with
  | some .drv => none
  | z => z

/-- SET_CONFIG past its first check (R212): the store with the item written, after refusal and clamp; none where it is
refused. -/
def Store.write (c : Store) (item index : Nat) (v : List Byte) : Option Store :=
  match item with
  | 0 => noIndex index ((oneByte v).bind (indexed 8)) |>.map (fun n => { c with station := some n })
  | 1 => do
    let i ← indexed 10 index
    let zs ← outputZones i v
    some { c with zones := c.zones.set i zs }
  | 2 => do
    let (o, sl) ← feedIndex index
    let f ← parseFeed o v
    some { c with feeds := c.feeds.modify o (fun row => row.set sl f) }
  | 3 => do
    let (k, cl) ← duckIndex index
    let n ← clampedByte 0 128 v
    some { c with duck := c.duck.modify k (fun row => row.set cl n) }
  | 4 => (noIndex index (clampedByte 0 24 v)).map (fun n => { c with ceiling := n })
  | 5 => (noIndex index ((oneByte v).bind fallbackZoneOf)).map (fun z => { c with fallbackZone := z })
  | 6 => (noIndex index (clampedByte 1 16 v)).map (fun n => { c with attack := n })
  | 7 => (noIndex index (clampedByte 1 16 v)).map (fun n => { c with releaseInterval := n })
  | 8 => do
    let b ← indexed 8 index
    let n ← clampedByte 0 7 v
    some { c with deadtime := c.deadtime.set b n }
  | 9 => do
    let d ← indexed 4 index
    let n ← oneByte v
    some { c with faultMap := c.faultMap.set d (BitVec.ofNat 8 n) }
  | 10 => (oneByte v).bind onOffOfCode |>.bind (c.setClearing index)
  | 11 => do
    let m ← indexed 4 index
    let zs ← oneZoneSet v
    let z ← zoneOrNone zs
    some { c with micZone := c.micZone.set m z }
  | 12 => do
    let m ← indexed 4 index
    let n ← clampedByte 0 32 v
    some { c with micTrim := c.micTrim.set m n }
  | 13 => (noIndex index ((oneByte v).bind (indexed 2))).map (fun n => { c with pickupSlot := n })
  | 14 => (noIndex index (clampedByte 24 48 v)).map (fun n => { c with callLoss := n })
  | 15 => (noIndex index (clampedByte 0 128 v)).map (fun n => { c with farThreshold := n })
  | 16 => (noIndex index (clampedByte 0 128 v)).map (fun n => { c with nearThreshold := n })
  | 17 => (noIndex index (clampedByte 0 48 v)).map (fun n => { c with coupling := n })
  | 18 => (noIndex index ((oneByte v).bind FrontEnds.ofCode)).map (fun x => { c with frontEnds := x })
  | 19 => (noIndex index ((oneByte v).bind onOffOfCode)).map (fun x => { c with diversity := x })
  | 20 => (noIndex index ((oneByte v).bind onOffOfCode)).map (fun x => { c with scanDefault := x })
  | 21 => (noIndex index ((oneByte v).bind onOffOfCode)).map (fun x => { c with announceDefault := x })
  | 22 => (noIndex index ((oneZoneSet v).filter (fun zs => zs != 0))).map (fun zs => { c with announceZones := zs })
  | 23 => (noIndex index (clampedByte 0 100 v)).map (fun n => { c with lowThreshold := n })
  | 24 => (noIndex index (clampedByte 0 100 v)).map (fun n => { c with goodThreshold := n })
  | 25 => (noIndex index ((oneByte v).bind Edge.ofCode)).map (fun x => { c with lowEdge := x })
  | 26 => (noIndex index ((oneByte v).bind Edge.ofCode)).map (fun x => { c with goodEdge := x })
  | _ => none

/-- The value bytes of an item (R210, R213); none where the item or the index is unknown. -/
def Store.read (c : Store) (item index : Nat) : Option (List Byte) :=
  match item with
  | 0 => noIndex index (some (opt1 (fun n => num1 n.val) c.station))
  | 1 => (indexed 10 index).map (fun i => zones1 (c.zones.get i))
  | 2 => (feedIndex index).map (fun i => feedBytes (c.feed i.1 i.2))
  | 3 => (duckIndex index).map (fun i => num1 ((c.duck.get i.1).get i.2))
  | 4 => noIndex index (some (num1 c.ceiling))
  | 5 => noIndex index (some (num1 c.fallbackZone.code))
  | 6 => noIndex index (some (num1 c.attack))
  | 7 => noIndex index (some (num1 c.releaseInterval))
  | 8 => (indexed 8 index).map (fun b => num1 (c.deadtime.get b))
  | 9 => (indexed 4 index).map (fun d => [c.faultMap.get d])
  | 10 => (c.clearing index).map flag1
  | 11 => (indexed 4 index).map (fun m => zones1 (((c.micZone.get m).map Zone.bit).getD 0))
  | 12 => (indexed 4 index).map (fun m => num1 (c.micTrim.get m))
  | 13 => noIndex index (some (num1 c.pickupSlot.val))
  | 14 => noIndex index (some (num1 c.callLoss))
  | 15 => noIndex index (some (num1 c.farThreshold))
  | 16 => noIndex index (some (num1 c.nearThreshold))
  | 17 => noIndex index (some (num1 c.coupling))
  | 18 => noIndex index (some (num1 c.frontEnds.code))
  | 19 => noIndex index (some (flag1 c.diversity))
  | 20 => noIndex index (some (flag1 c.scanDefault))
  | 21 => noIndex index (some (flag1 c.announceDefault))
  | 22 => noIndex index (some (zones1 c.announceZones))
  | 23 => noIndex index (some (num1 c.lowThreshold))
  | 24 => noIndex index (some (num1 c.goodThreshold))
  | 25 => noIndex index (some (num1 c.lowEdge.code))
  | 26 => noIndex index (some (num1 c.goodEdge.code))
  | _ => none

/-- The data of an accepted SET_CONFIG: the stored value, after the clamp (R212). A station number just stored stands as
its value byte (log 10). -/
def Store.stored (c : Store) (item index : Nat) : List Byte :=
  if item = 0 then num1 c.own.val else (c.read item index).getD []

/-! ### START (R214) -/

/-- The first feed slot in use on an output whose zone set is empty (R214, check 2): of several the lowest output, and in it
the lowest slot (log 45). -/
def unusedOutput (c : Store) : Option (OutputNo × SlotNo) :=
  ((Tbl.indices 11).flatMap (fun o => (Tbl.indices 4).map (fun sl => (o, sl)))).find?
    (fun x => !c.used x.1 && (c.feed x.1 x.2).selector != .none)

/-- The first check of START that fails, as the data of CONFIG_INVALID (R214, log 10). -/
def startFailure (c : Store) : Option (List Byte) :=
  match c.station with
  | none => some [0]
  | some own =>
    match unusedOutput c with
    | some (o, sl) => some ([1] ++ num1 o.val ++ num1 sl.val)
    | none =>
      if Config.staticStreams < (staticStreams c own).length then some ([2] ++ num1 (staticStreams c own).length)
      else none

/-! ### Data of results (R211, R215, R216) -/

/-- READ_STATUS LINE. A slot whose frame is in flight holds it still, so it shows as holding one (log 39). -/
def lineStatus (s : State) : List Byte :=
  num1 s.cle.lifecycle.code ++ num1 s.cle.joining ++ num1 s.cle.presenceCount ++ num1 s.lif.latch.code
    ++ num1 s.lif.bitErrorRun ++ num1 s.lif.noIdle ++ num1 s.lif.queue.length
    ++ flag1 (s.lif.sound.get 0).frame.isSome ++ flag1 (s.lif.sound.get 1).frame.isSome
    ++ flag1 s.lif.presence.frame.isSome

/-- One buffer in READ_STATUS INTAKE (R76). -/
def bufferStatus (b : Buffer) : List Byte :=
  num1 b.state.code ++ opt1 (fun n => num1 n.val) b.stream ++ flag1 b.static ++ num1 b.ring.length

/-- One stream-heard entry in READ_STATUS INTAKE (R72). -/
def heardStatus (e : HeardEntry) : List Byte :=
  num1 e.state.code ++ opt1 serial1 e.lastSeq ++ num1 e.cls.code ++ flag1 e.priv ++ num1 e.age

/-- One call-loss entry (R74). -/
def callLossStatus (e : CallLoss) : List Byte := ref2 e.ref ++ num1 e.uplink.val ++ num1 e.talkLoss ++ num1 e.age

/-- READ_STATUS INTAKE. -/
def intakeStatus (s : State) : List Byte :=
  s.iku.buffers.toList.flatMap bufferStatus ++ s.iku.heard.toList.flatMap heardStatus
    ++ counted callLossStatus s.iku.callLoss

/-- One feed in READ_STATUS MIX (R116). -/
def feedStatus (f : Feed) : List Byte :=
  flag1 f.active ++ opt1 (fun n => num1 n.val) f.resolved ++ opt1 ref2 f.claim ++ flag1 f.served
    ++ num1 f.cls.code ++ flag1 f.priv ++ num1 f.target ++ num1 f.current

/-- Five levels. -/
def levelBytes (t : Tbl 5 Nat) : List Byte := t.toList.flatMap num1

/-- READ_STATUS MIX (R116). -/
def mixStatus (s : State) : List Byte :=
  levelBytes s.mxe.live ++ levelBytes s.mxe.staged ++ flag1 s.mxe.apply ++ flag1 s.mxe.fallback
    ++ s.mxe.feeds.toList.flatMap (fun row => row.toList.flatMap feedStatus)

/-- A declared state, ASSERTED 0, DEASSERTED 1 (R125). -/
def declaredByte (asserted : Bool) : List Byte := flag1 (!asserted)

/-- A cap state, CAPPED 0, RELEASED 1 (R124). -/
def capByte (capped : Bool) : List Byte := flag1 (!capped)

/-- A hold set byte (R211). -/
def hold1 (h : HoldSet) : List Byte := [h.setWidth 8]

/-- One bridge in READ_STATUS OUTPUT. -/
def bridgeStatus (b : Bridge) : List Byte :=
  num1 b.state.code ++ hold1 b.hold ++ flag1 b.ocLock ++ num1 b.ocHistory.length ++ num1 b.derate
    ++ capByte b.capped ++ num1 b.dcCount

/-- READ_STATUS OUTPUT. -/
def outputStatus (s : State) : List Byte :=
  s.ost.bridges.toList.flatMap bridgeStatus ++ s.ost.fOc.toList.flatMap (fun f => declaredByte f.asserted)
    ++ s.ost.bridges.toList.flatMap (fun b => declaredByte b.dcOn)
    ++ declaredByte s.ost.fTs.asserted ++ declaredByte s.ost.fUv.asserted ++ declaredByte s.ost.fFlt0.asserted
    ++ declaredByte s.ost.fFlt1.asserted ++ declaredByte s.ost.fTw.asserted
    ++ zones1 (s.ost.impaired s.cpt.store (s.cle.lifecycle == .config))

/-- The role of a path, active 0, spare 1 (R148). -/
def roleByte (r : Rdu) (p : Path) : List Byte := flag1 (r.active != p)

/-- One path in READ_STATUS RADIO: tuned channel and Qs. -/
def pathStatus (p : PathRec) : List Byte := opt1 channel2 p.tuned ++ opt1 num1 p.qs

/-- A detector's state, ABOVE 0, BELOW 1 (R153). -/
def detectorByte (d : Detector) : List Byte := flag1 (!d.above)

/-- READ_STATUS RADIO. The AF timer stands as an optional field: 0 while it is stopped, 1 and its count while it runs
(R156, log 10). -/
def radioStatus (s : State) : List Byte :=
  let r := s.rdu
  roleByte r .a ++ roleByte r .b ++ num1 r.mode.code ++ pathStatus r.pathA ++ pathStatus r.pathB ++ num1 r.holdOff
    ++ detectorByte r.low ++ detectorByte r.good ++ opt1 num1 r.afTimer
    ++ opt1 (fun p => num1 p.phase.code ++ num1 p.index) r.probe
    ++ opt1 (fun k => num1 k.direction.code ++ channel2 (r.activeRec.tuned.getD 0)) r.seek
    ++ channel2 r.scanPos ++ flag1 r.ann.running ++ opt1 serial1 r.ann.claim
    ++ opt1 tag2 r.activeRec.data.tag ++ opt1 id r.activeRec.data.name ++ opt1 flag1 r.activeRec.data.traffic
    ++ counted channel2 r.activeRec.data.alt

/-- A set of microphones. -/
def mics1 (m : BitVec 4) : List Byte := [m.setWidth 8]

/-- READ_STATUS PICKUP (R194). An IDLE pickup slot shows next sequence 0 (log 33). -/
def pickupStatus (s : State) : List Byte :=
  let p := s.pku
  let slot := s.pub.slots.get s.cpt.store.pickupSlot
  flag1 p.call.isSome ++ opt1 ref2 p.call ++ mics1 p.candidates ++ opt1 (fun n => num1 n.val) p.echo
    ++ flag1 p.echoServed ++ opt1 (fun m => num1 m.val) p.selected ++ opt1 (fun m => num1 m.val) p.challenger
    ++ num1 p.run ++ num1 p.ld ++ p.lm.toList.flatMap num1 ++ num1 p.far ++ num1 p.near ++ num1 p.supp.code
    ++ num1 p.su ++ num1 p.sd
    ++ (Tbl.indices 4).flatMap (fun m =>
        opt1 (fun z => num1 z.code) (s.cpt.store.micZone.get m) ++ num1 (s.cpt.store.micTrim.get m))
    ++ (match slot with
        | .idle => [0, 0]
        | .publishing _ next => [1, next])

/-- One notice place in READ_STATUS PORT: whether an entry is pending, and its count, 0 for an empty place (log 10). -/
def placeStatus (e : Option NoticeEntry) : List Byte :=
  match e with
  | none => [0, 0]
  | some x => [1] ++ num1 x.count

/-- READ_STATUS PORT; the attention line as a flag, 1 when asserted (log 10). -/
def portStatus (s : State) : List Byte :=
  s.cpt.notices.toList.flatMap placeStatus ++ flag1 s.cpt.atn ++ [s.cpt.result.number + 1] ++ flag1 s.cpt.fixed

/-- The contents of a READ_STATUS section (R215). -/
def sectionStatus (s : State) : Nat → Option (List Byte)
  | 0 => some (lineStatus s)
  | 1 => some (intakeStatus s)
  | 2 => some (mixStatus s)
  | 3 => some (outputStatus s)
  | 4 => some (radioStatus s)
  | 5 => some (pickupStatus s)
  | 6 => some (portStatus s)
  | _ => none

/-- One publish-list entry in READ_VIEW (R31). -/
def viewEntry (e : PubEntry) : List Byte :=
  num1 e.stream.val ++ num1 e.cls.code ++ num1 (if e.stereo then 2 else 1) ++ flag1 e.priv

/-- A peer-table entry in READ_VIEW (R31, R216). -/
def viewBytes (e : Option PeerEntry) : List Byte :=
  opt1 (fun x => num1 x.state.code ++ zones1 x.rendered ++ zones1 x.impaired ++ counted viewEntry x.publish
    ++ num1 x.age) e

/-- An origin, PORT 0, RADIO 1 (R38). -/
def originByte : Origin → List Byte
  | .port => [0]
  | .radio => [1]

/-- What READ_CLAIMS adds for a claim (R63); the link and the private call as flags (log 10). -/
def claimExtra (cle : Cle) (c : Claim) : List Byte :=
  (match c.state with
    | .heard a => num1 a
    | _ => [])
    ++ (match c.origin with
    | some o => originByte o
    | none => [])
    ++ (match c.state with
    | .bidding link w => flag1 link ++ opt1 num1 w
    | .held => if c.fields.kind = .call then flag1 (cle.privateCall c) else []
    | .heard _ => [])

/-- One claim in READ_CLAIMS (R63): TENTATIVE 0, HELD 1. -/
def claimBytes (cle : Cle) (c : Claim) : List Byte :=
  ref2 c.name ++ num1 c.fields.kind.code ++ num1 c.fields.urgency.val ++ zones1 c.fields.zones
    ++ opt1 (fun n => num1 n.val) c.fields.ref ++ flag1 c.isHeld ++ claimExtra cle c

/-- The data of READ_CLAIMS (R63). -/
def claimsBytes (cle : Cle) : List Byte := counted (claimBytes cle) cle.claims

/-- One station list entry (R163). -/
def stationBytes (e : StationEntry) : List Byte :=
  channel2 e.channel ++ num1 e.best ++ opt1 tag2 e.tag ++ opt1 id e.name ++ opt1 flag1 e.traffic ++ num1 e.unseen

/-- The failure record (R10, log 22). -/
def recordBytes (r : ErrorRecord) : List Byte :=
  num1 r.rank.val ++ opt1 (fun k => num1 k.code) r.kind ++ opt1 (fun n => num1 n.val) (some r.station)
    ++ opt1 (fun n => num1 n.val) r.stream ++ opt1 serial1 r.seq

/-- The data of READ_LINE_ERROR (R10). -/
def lineErrorBytes (l : Lif) : List Byte := num2 l.errorCount ++ opt1 recordBytes l.errorRecord

/-! ### Notice details (R217, R218) -/

/-- Isolation causes, by their places in R26. -/
def IsolationCause.code : IsolationCause → Nat
  | .bitErrors => 0
  | .noIdle => 1

/-- An outcome, WON 0, FAILED 1 with OUTBID 0 or ISOLATED 1, REPLACED 2 (R62). -/
def outcomeBytes : BidOutcome → List Byte
  | .won => [0]
  | .failedOutbid => [1, 0]
  | .failedIsolated => [1, 1]
  | .replaced => [2]

/-- Announcement causes, by their places in R173. -/
def AnnounceCause.code : AnnounceCause → Nat
  | .flags => 0
  | .reception => 1
  | .tune => 2
  | .seek => 3
  | .disabled => 4
  | .programme => 5

/-- RECEPTION details, by their places in R154. -/
def ReceptionDetail.code : ReceptionDetail → Nat
  | .low => 0
  | .regained => 1
  | .good => 2
  | .notGood => 3
  | .diversitySwitch => 4
  | .probeSuccess => 5
  | .probeFailed => 6

/-- The detail of a notice (R217). A PICKUP notice gives its call references as they are, and the echo stream as an optional
field (R193, log 10). -/
def noticeDetail : Notice → List Byte
  | .isolated c => [0] ++ num1 c.code
  | .rejoined => [1]
  | .duplicateNumber k => [2] ++ num1 k.code
  | .bridgeFault b enabled h st => num1 b.val ++ flag1 enabled ++ hold1 h ++ num1 st.code
  | .claimLost s k better => serial1 s ++ num1 k.code ++ ref2 better
  | .claimResult s o => serial1 s ++ outcomeBytes o
  | .pickupActive c m e => [0] ++ ref2 c ++ mics1 m ++ opt1 (fun n => num1 n.val) e
  | .pickupSwitched old new e => [1] ++ ref2 old ++ ref2 new ++ opt1 (fun n => num1 n.val) e
  | .pickupInactive old => [2] ++ ref2 old
  | .peerAppeared p => [0] ++ num1 p.val
  | .peerState p st => [1] ++ num1 p.val ++ num1 st.code
  | .peerExpired p => [2] ++ num1 p.val
  | .exhausted n u => [0] ++ num1 n.val ++ user1 u
  | .overrun n => [1] ++ num1 n.val
  | .underrun n => [2] ++ num1 n.val
  | .announceStarted s => [0] ++ serial1 s
  | .announceUnclaimed => [1]
  | .announceEnded c => [2] ++ num1 c.code
  | .reception w p t q => num1 w.code ++ num1 (pathCode p) ++ opt1 channel2 t ++ opt1 num1 q
  | .seekFound c => [0] ++ channel2 c
  | .seekFailed => [1]
  | .seekCancelled => [2]
  | .scan n removed => num1 n ++ num1 removed
  | .derate b capped v => num1 b.val ++ capByte capped ++ num1 v
  | .levels t => levelBytes t
  | .lineError r => recordBytes r

/-- The data of TAKE_NOTICE for an entry (R211, R218). -/
def noticeBytes (i : Fin 14) (e : NoticeEntry) : List Byte := num1 (i.val + 1) ++ num1 e.count ++ noticeDetail e.detail

/-- The bytes a read transaction shifts out (R209): the holder's layout, then zeros. -/
def readBytes (r : Result) (n : Nat) : List Byte :=
  padTo n 0 ([0, r.number, BitVec.ofNat 8 r.status.code] ++ flag1 r.fresh ++ num2 r.data.length ++ r.data)

end Sys2Proof.Machine
end

