-- ==== Sys2Proof/Machine/Station.lean ====
section
/-! DEFINITION. The paths between the blocks: the view the Claim Engine works on, what the Radio Unit passes on, and the
parts of a block boundary (R114, R179, R77, R147) put together. -/

namespace Sys2Proof.Machine

open Sys2Proof

/-! ### Paths between blocks -/

/-- Whether the station is in CONFIG. -/
def State.inConfig (s : State) : Bool := s.cle.lifecycle == .config

/-- This station's number. -/
def State.own (s : State) : StationNo := s.cpt.store.own

/-- The impaired zone set (R138). -/
def State.impaired (s : State) : ZoneSet := s.ost.impaired s.cpt.store s.inConfig

/-- What a composition of presence takes from other owners now (R29). -/
def State.env (s : State) : Env := ⟨s.own, s.cpt.store.rendered, s.impaired, s.pub.list s.own⟩

/-- The blocks the Claim Engine's rules change. -/
def State.link (s : State) : Link := ⟨s.lif, s.cle, s.cpt⟩

/-- The station with those blocks replaced. -/
def State.setLink (s : State) (k : Link) : State := { s with lif := k.lif, cle := k.cle, cpt := k.cpt }

/-- An attempt begins where R4 lets it. -/
def State.arbitrate (s : State) : State := { s with lif := s.lif.arbitrate s.cle.lifecycle }

/-- The open slot: the one that is not the pickup slot (R66). -/
def Store.openSlot (c : Store) : PubSlotNo := if c.pickupSlot = 0 then 1 else 0

/-- The stream reference of an announcement's claim: the open slot's stream while it publishes RADIO (R172). -/
def State.announceRef (s : State) : Option StreamNo :=
  if (s.pub.slots.get s.cpt.store.openSlot).source = some .radio then some (streamOf s.own s.cpt.store.openSlot) else none

/-- An announcement starts (R172): the class of RADIO, the claim, and the notice. -/
def State.announceStart (s : State) : State :=
  let s1 := { s with pub := s.pub.setRadioClass true }
  let r := s1.link.placeAnnounce s1.env s1.cpt.store.announceZones s1.announceRef
  let s2 := s1.setLink r.2
  match r.1 with
  | some serial =>
    { s2 with rdu := { s2.rdu with ann := { s2.rdu.ann with claim := some serial } }
              cpt := s2.cpt.raise (.announceStarted serial) }
  | none => { s2 with cpt := s2.cpt.raise .announceUnclaimed }

/-- An announcement ends (R173): the class of RADIO, the claim, and the notice. -/
def State.announceEnd (s : State) (claim : Option Serial) (cause : AnnounceCause) : State :=
  let s1 := { s with pub := s.pub.setRadioClass false }
  let s2 :=
    match claim with
    | some serial => s1.setLink (s1.link.endAnnounce s1.env serial)
    | none => s1
  { s2 with cpt := s2.cpt.raise (.announceEnded cause) }

/-- What the Radio Unit passes on in an event. -/
def State.rduEffect (s : State) : RduEffect → State
  | .notice n => { s with cpt := s.cpt.raise n }
  | .announceStart => s.announceStart
  | .announceEnd claim cause => s.announceEnd claim cause

/-- The station after a piece of the Radio Unit's work. -/
def State.setRdu (s : State) (o : RduOut) : State := o.2.foldl State.rduEffect { s with rdu := o.1 }

/-- A bridge re-enabled (R132, R108, R137). -/
def State.reenable (s : State) (i : BridgeNo) : State :=
  let b := (s.ost.bridges.get i).reenable
  { s with
    ost := s.ost.setBridge i b
    mxe := s.mxe.reenable i
    cpt := s.cpt.raise (faultNotice i true b) }

/-- Peer entry p expires (R35): the CLE's part and the Intake's. -/
def State.expirePeer (s : State) (p : StationNo) : State :=
  { s.setLink (s.link.expirePeer p) with iku := s.iku.expirePeer p }

/-! ### The block boundary -/

/-- What the Mix Engine reads as the boundary begins (R114, step 2), the publish slots among it: a reader of the own pickup
stream sees that slot as it was before step 1 of the Pickup Unit (log 42). -/
def State.mixView (s : State) : MixView where
  own := s.own
  store := s.cpt.store
  cle := s.cle
  heard := s.iku.heard
  callLoss := s.iku.callLoss
  derates := s.ost.derates
  running := s.ost.running
  pub := s.pub

/-- The blocks of the local sources that this boundary ends, with an uplink block for PICKUP. -/
def State.sounds (s : State) (uplink : Option (List Sample)) : Sounds where
  radio := s.rdu.radio
  aux0 := padTo Config.blockLen StereoSample.zero s.inputs.aux0
  aux1 := padTo Config.blockLen StereoSample.zero s.inputs.aux1
  pickup := pickupBlock uplink

/-- The microphone blocks that this boundary ends. -/
def State.micBlocks (s : State) : Tbl 4 (List Sample) := s.inputs.mics.map (padTo Config.blockLen 0)

/-- The staged levels applied, in every lifecycle state (R99). -/
def State.boundaryLevels (s : State) : State :=
  let r := s.mxe.applyLevels
  { s with mxe := r.1, cpt := s.cpt.raiseAll r.2 }

/-- The Output Stage's block work, in every lifecycle state (R122 to R126, R131). -/
def State.boundaryOutput (s : State) : State :=
  let r := s.ost.boundary s.cpt.store s.inConfig
  { s with ost := r.1, cpt := s.cpt.raiseAll r.2 }

/-- The no-idle check (R19). -/
def State.boundaryIdle (s : State) : State := s.setLink (s.link.checkNoIdle s.env)

/-- The RADIO block formed (R147). -/
def State.boundaryRadioBlock (s : State) : State := { s with rdu := s.rdu.formRadio s.cpt.store }

/-- The feeds' resolution and activity (R114, steps 3 and 4). -/
def State.boundaryDecide (v : MixView) (s : State) : State := { s with mxe := s.mxe.decide_ v }

/-- The pickup slot as step 1 of the Pickup Unit leaves it (R68). -/
def State.pickupSlot (s : State) (p : PickupSlot) : State :=
  let i := s.cpt.store.pickupSlot
  match p with
  | .keep => s
  | .start => { s with pub := s.pub.setSlot i ((s.pub.slots.get i).publish .pickup) }
  | .stop =>
    { s with
      pub := s.pub.setSlot i .idle
      lif := s.lif.handSound s.cle.lifecycle i none }

/-- Step 1 of the Pickup Unit (R179). -/
def State.boundaryPickup (v : MixView) (s : State) : State :=
  let r := s.pku.decide_ v.store v.cle
  let s1 := { s with pku := r.1, cpt := s.cpt.raiseAll r.2.2 }
  s1.pickupSlot r.2.1

/-- The Intake's work (R77). -/
def State.boundaryIntake (s : State) : State :=
  let r := s.iku.age.serve s.own (s.mxe.users ++ s.pku.user)
  let c := r.1.consume
  { s with iku := c.1, cpt := s.cpt.raiseAll (r.2 ++ c.2) }

/-- Targets, ramps and the mix, and the blocks handed on (R114, steps 6 to 8). -/
def State.boundaryMix (v : MixView) (activated : FeedTbl Bool) (sounds : Sounds) (s : State) : State :=
  let r := s.mxe.mixed v activated s.iku sounds
  { s with mxe := r.1, ost := s.ost.load r.2 }

/-- Steps 2 to 7 of the Pickup Unit (R179). An echo reference that names the own pickup stream gives the block of the
previous boundary (R191, log 37). -/
def State.boundaryUplink (v : MixView) (sounds : Sounds) (s : State) : State :=
  let echo :=
    match s.pku.echo with
    | some n => streamSound v s.iku sounds n
    | none => ⟨silentBlock, .programme, false, false, none, false, false, false⟩
  { s with pku := s.pku.run_ s.cpt.store echo.block echo.served s.micBlocks }

/-- One publish slot at the boundary (R69, R70): its frame built, its private mark and call-loss entry, and the frame
handed to the LIF where the station is ACTIVE. -/
def State.publishSlot (hand : Bool) (s : State) (i : PubSlotNo) : State :=
  match s.pub.frame s.own i (s.sounds s.pku.uplink) s.pku.callBlock with
  | none => s
  | some f =>
    { s with
      cle := s.cle.mark f.stream f.priv
      iku := s.iku.takeCall f
      lif := if hand then s.lif.handSound s.cle.lifecycle i (some f) else s.lif }

/-- The Publisher's work (R69): frames are handed in ACTIVE, but not at the boundary that ends JOINING. -/
def State.boundaryPublish (hand : Bool) (s : State) : State :=
  let s1 := (Tbl.indices 2).foldl (State.publishSlot hand) s
  { s1 with pub := s1.pub.built }

/-- The Radio Unit's other work (R147). -/
def State.boundaryRadio (s : State) : State := s.setRdu (s.rdu.boundary s.cpt.store)

/-- The bid window and the ages of heard bids (R52, R57). -/
def State.boundaryClaims (s : State) : State :=
  let k := s.link.tickWindow s.env
  s.setLink (k.setClaims (ageBids k.cle.claims))

/-- The peer entries' ages, with expiry (R31, R35). -/
def State.boundaryPeers (s : State) : State :=
  let t := agePeers s.own s.cle.peers
  (expiredPeers s.own t).foldl State.expirePeer { s with cle := { s.cle with peers := t } }

/-- The joining or presence counter (R24, R27, R30). -/
def State.boundaryCadence (s : State) : State := s.setLink (s.link.tickCadence s.env)

/-- The samples that arrived are used up. -/
def State.clearInputs (s : State) : State := { s with inputs := Inputs.none }

/-- The boundary in CONFIG (R115, R147): levels and the Output Stage; every output gives zero samples. -/
def State.boundaryConfig (s : State) : State :=
  let s1 := s.boundaryOutput.boundaryLevels
  { s1 with
    mxe := { s1.mxe with post0 := silentBlock, post1 := silentBlock, lineOut := silentBlock }
    ost := s1.ost.load (Tbl.fill 8 (List.replicate Config.blockLen 0))
    rdu := { s1.rdu with radio := silentBlock } }.clearInputs

/-- The boundary in JOINING, ACTIVE and ISOLATED, in the order of log 4. -/
def State.boundaryRun (s : State) : State :=
  let v := s.mixView
  let s1 := s.boundaryOutput.boundaryLevels.boundaryIdle.boundaryRadioBlock
  let sounds := s1.sounds s.pku.uplink
  let s2 := ((s1.boundaryDecide v).boundaryPickup v).boundaryIntake
  let s3 := (s2.boundaryMix v (s.mxe.activated v) sounds).boundaryUplink v sounds
  let s4 := s3.boundaryPublish (s.cle.lifecycle == .active)
  let s5 := s4.boundaryRadio.boundaryClaims.boundaryPeers
  let s6 := if s5.cle.lifecycle = s.cle.lifecycle then s5.boundaryCadence else s5
  s6.clearInputs.arbitrate

end Sys2Proof.Machine
end

