-- ==== Sys2Proof/Machine/ClaimCommands.lean ====
section
/-! DEFINITION. The claim requests and the parts of the Claim Engine's boundary that have rows of their own (R44 to R48, R52, R57). -/

namespace Sys2Proof.Machine

open Sys2Proof

/-- CLAIM (R44 to R46). -/
def execClaim (kind urgency zones : Byte) (ref : Option Byte) (s : State) : Answer :=
  let r := s.link.claimRequest s.env kind urgency zones ref
  .next ((s.setLink r.2.2).answer r.1 r.2.1).arbitrate

/-- RELEASE (R48). -/
def execRelease (serial : Byte) (s : State) : Answer :=
  let r := s.link.releaseRequest s.env serial
  .next ((s.setLink r.2).answer r.1 []).arbitrate

/-- Whether the bid window of the own TENTATIVE claim is one boundary short of its end. -/
def windowEnding (s : State) : Bool :=
  (ownBidding s.own s.cle.claims).any (fun c =>
    match c.state with
    | .bidding _ (some w) => w + 1 == Config.windowEnd
    | _ => false)

/-- WINDOW_EXPIRY (R52): the window count reaches 2. -/
def execWindowExpiry (s : State) : Answer :=
  if windowEnding s then .next (s.setLink (s.link.tickWindow s.env)).arbitrate else .next s

/-- BID_AGE_OUT (R57): a heard TENTATIVE entry reaches age 4. -/
def execBidAgeOut (p : StationNo) (serial : Serial) (s : State) : Answer :=
  if (findClaim ⟨p, serial⟩ s.cle.claims).any (fun c => c.heardAge == some (Config.bidAgeEnd - 1)) then
    .next { s with cle := { s.cle with claims := eraseClaim ⟨p, serial⟩ s.cle.claims } }
  else .next s

end Sys2Proof.Machine
end

