-- ==== Sys2Proof/Machine/ClockCommands.lean ====
section
/-! DEFINITION. The three clocks (00, Time): the PWM period (R120), the sample instant (R129) and the block boundary (R114). -/

namespace Sys2Proof.Machine

open Sys2Proof

/-- The samples of one instant appended to those that have arrived since the boundary (R64, R176). -/
def Inputs.push (x : Inputs) (y : SampleInputs) : Inputs where
  aux0 := x.aux0 ++ [y.aux0]
  aux1 := x.aux1 ++ [y.aux1]
  mics := Tbl.ofFn (fun m => x.mics.get m ++ [y.mics.get m])

/-- The due bridges re-enabled (R132), in ascending number (log 25). -/
def State.reenableDue (s : State) : State := s.ost.dueBridges.foldl State.reenable s

/-- SAMPLE_INSTANT (R118, R122, R129, R132, R113, R196): re-enables, then the samples that take over on every output,
then the removal of AUTO sources, and the samples that arrive. -/
def execSampleInstant (x : SampleInputs) (s : State) : Answer :=
  let s1 := s.reenableDue
  .next { s1 with
    ost := s1.ost.instant s1.cpt.store
    mxe := s1.mxe.play
    inputs := s1.inputs.push x }

/-- PWM_PERIOD (R119 to R121, R125, R128). -/
def execPwmPeriod (x : PeriodInputs) (s : State) : Answer :=
  let r := s.ost.period s.cpt.store x
  .next { s with ost := r.1, cpt := s.cpt.raiseAll r.2 }

/-- BLOCK_BOUNDARY (R114, R115). -/
def execBlockBoundary (s : State) : Answer := .next (if s.inConfig then s.boundaryConfig else s.boundaryRun)

end Sys2Proof.Machine
end

