-- ==== Sys2Proof/Machine/IntakeCommands.lean ====
section
/-! DEFINITION. The parts of the Intake's boundary that have rows of their own (R73, R75, R85). -/

namespace Sys2Proof.Machine

open Sys2Proof

/-- STREAM_STARVED (R73): the age of a LIVE entry reaches 8. -/
def execStreamStarved (n : StreamNo) (s : State) : Answer :=
  if (s.iku.heard.get n).state = .live ∧ (s.iku.heard.get n).age + 1 = Config.heardAgeEnd then
    .next { s with iku := s.iku.starve n }
  else .next s

/-- CALL_LOSS_EXPIRY (R75): the age of an entry reaches 8. -/
def execCallLossExpiry (p : StationNo) (serial : Serial) (uplink : StreamNo) (s : State) : Answer :=
  let l := s.iku.callLoss.filter (fun e => !(e.isFor ⟨p, serial⟩ uplink && e.age + 1 == Config.callLossAgeEnd))
  .next { s with iku := { s.iku with callLoss := l } }

/-- A buffer that gives its block now, out of the order of a boundary. -/
def State.consumeBuffer (s : State) (i : BufferNo) : State :=
  { s with iku := { s.iku with buffers := s.iku.buffers.set i (s.iku.buffers.get i).consume.1 } }

/-- SLIP (R85): high-run reaches 8. -/
def execSlip (i : BufferNo) (s : State) : Answer :=
  let b := s.iku.buffers.get i
  if b.state = .running ∧ b.countRuns.highRun = Config.runEnd then .next (s.consumeBuffer i) else .next s

/-- REPEAT (R85): low-run reaches 8 with a block held. -/
def execRepeatFrame (i : BufferNo) (s : State) : Answer :=
  let b := s.iku.buffers.get i
  if b.state = .running ∧ Config.blockLen ≤ b.ring.length ∧ b.countRuns.lowRun = Config.runEnd then
    .next (s.consumeBuffer i)
  else .next s

end Sys2Proof.Machine
end

