-- ==== Sys2Proof/Machine/LifecycleCommands.lean ====
section
/-! DEFINITION. Resets, START, and the changes of lifecycle state (R22 to R28, R30, R35, R37, R214). -/

namespace Sys2Proof.Machine

open Sys2Proof

/-- PIN_RESET (R22, R221): every block at its reset value. Commands already waiting come from outside and stay. -/
def execPinReset (s : State) : Answer := .next { State.reset with pending := s.pending }

/-- The station as an accepted START leaves it (R214). -/
def State.started (s : State) : State :=
  let c := s.cpt.store
  let o := s.ost.started c
  { s with
    cle := { s.cle with lifecycle := .joining, joining := 0 }
    iku := Iku.started c c.own
    mxe := s.mxe.started
    ost := o.1
    rdu := s.rdu.started c
    cpt := { s.cpt.raiseAll o.2 with fixed := true } }

/-- START (R23, R214). -/
def execStart (s : State) : Answer :=
  if s.inConfig then
    match startFailure s.cpt.store with
    | some data => .next (s.answer .configInvalid data)
    | none => .next (s.started.answer .accepted [])
  else .next (s.answer .notReady [])

/-- The station as RESTART leaves it, its own result apart (R37, R220). -/
def State.restarted (s : State) : State :=
  let c := s.cpt.store
  { s with
    lif := s.lif.restart
    cle := s.cle.restart
    pub := s.pub.restart
    iku := Iku.started c c.own
    mxe := s.mxe.restart
    ost := s.ost.restart
    rdu := s.rdu.restart c
    pku := Pku.inactive
    cpt := s.cpt.emptyAll }

/-- RESTART (R37, R220). -/
def execRestart (s : State) : Answer :=
  if s.inConfig then .next (s.answer .notReady []) else .next (s.restarted.answer .accepted [])

/-- JOINING_COMPLETE (R24): the joining counter reaches 60. -/
def execJoiningComplete (s : State) : Answer :=
  if s.cle.lifecycle = .joining ∧ s.cle.joining + 1 = Config.joiningEnd then
    .next ((s.setLink (s.link.tickCadence s.env)).arbitrate)
  else .next s

/-- PRESENCE_DUE (R30): the presence counter reaches 50 in ACTIVE. -/
def execPresenceDue (s : State) : Answer :=
  if s.cle.lifecycle = .active ∧ s.cle.presenceCount + 1 = Config.presencePeriod then
    .next ((s.setLink (s.link.tickCadence s.env)).arbitrate)
  else .next s

/-- PROBE_DUE (R27): the presence counter reaches 50 in ISOLATED. -/
def execProbeDue (s : State) : Answer :=
  if s.cle.lifecycle = .isolated ∧ s.cle.presenceCount + 1 = Config.presencePeriod then
    .next ((s.setLink (s.link.tickCadence s.env)).arbitrate)
  else .next s

/-- PEER_EXPIRY (R35): the age of a peer's entry reaches 160. -/
def execPeerExpiry (p : StationNo) (s : State) : Answer :=
  if s.inConfig = false ∧ p ≠ s.own ∧ (s.cle.peers.get p).any (fun e => e.age + 1 == Config.peerAgeEnd) then
    .next (s.expirePeer p)
  else .next s

/-- BIT_ERROR_ISOLATION (R18): the attempt in flight ends in the sixteenth bit error in a row, in ACTIVE. -/
def execBitErrorIsolation (s : State) : Answer :=
  match s.lif.flight with
  | some f =>
    if s.cle.lifecycle = .active ∧ s.lif.bitErrorRun + 1 = Config.bitErrorEnd then
      .next (s.setLink (s.link.attemptBitError s.env f))
    else .next s
  | none => .next s

/-- NO_IDLE_ISOLATION (R19): the no-idle counter reaches 2 in ACTIVE. -/
def execNoIdleIsolation (s : State) : Answer :=
  if s.cle.lifecycle = .active ∧ s.lif.noIdleAfter = Config.noIdleEnd then
    .next (s.setLink (s.link.checkNoIdle s.env))
  else .next s

end Sys2Proof.Machine
end

