-- ==== Sys2Proof/Machine/LineCommands.lean ====
section
/-! DEFINITION. The events of the pair (R2, R6, R7, R9, R12). -/

namespace Sys2Proof.Machine

open Sys2Proof

/-- START_OF_FRAME (R2, R4): the idle ends; a station that had not begun its preamble does not join. -/
def execStartOfFrame (s : State) : Answer := .next { s with lif := { s.lif with lineIdle := false } }

/-- LINE_IDLE (R2): the line becomes idle; nothing changes where it is idle already or a frame is in flight (log 6). -/
def execLineIdle (s : State) : Answer :=
  if s.lif.lineIdle ∨ s.lif.flight.isSome then .next s
  else .next { s with lif := s.lif.becomeIdle s.cle.lifecycle }

/-- LOST_CONTENTION (R6). -/
def execLostContention (s : State) : Answer :=
  match s.lif.flight with
  | some f => .next (s.setLink (s.link.attemptLost s.env f))
  | none => .next s

/-- BIT_ERROR (R7). -/
def execBitError (s : State) : Answer :=
  match s.lif.flight with
  | some f => .next (s.setLink (s.link.attemptBitError s.env f))
  | none => .next s

/-- ATTEMPT_COMPLETION (R12). -/
def execAttemptCompletion (s : State) : Answer :=
  match s.lif.flight with
  | some f => .next (s.setLink (s.link.attemptCompleted s.env f))
  | none => .next s

/-- A SOUND frame of a peer delivered to the Intake, with its private mark (R72, R81, R61). -/
def State.hearSound (s : State) (f : SoundFrame) : State :=
  let r := s.iku.hearSound f
  { s with iku := r.1, cle := s.cle.mark f.stream f.priv, cpt := s.cpt.raiseAll r.2 }

/-- An accepted frame delivered by kind and lifecycle state (R9, R36). -/
def State.deliver (s : State) (p : StationNo) (body : FrameBody) : State :=
  if s.inConfig then s
  else if p = s.own then { s with cpt := s.cpt.raise (.duplicateNumber body.kind) }
  else
    match body with
    | .sound f => s.hearSound f
    | .claim f => s.setLink (s.link.hearFrame s.env p (.claim f))
    | .presence f => s.setLink (s.link.hearFrame s.env p (.presence f))

/-- FRAME_RECEIVED (R9): accepted, latched and delivered, or discarded (R10). -/
def execFrameReceived (frame : LineFrame) (s : State) : Answer :=
  match acceptFrame s.lif.latch frame with
  | none =>
    let r := s.lif.discard frame
    .next { s with lif := r.1, cpt := s.cpt.raiseAll r.2 }
  | some body =>
    .next (({ s with lif := s.lif.takeLatch frame.sense }.deliver (keyStation frame.key) body).arbitrate)

/-- BROKEN_OFF_FRAME (R7): not delivered, not counted and not captured. -/
def execBrokenOffFrame (s : State) : Answer := .next s

end Sys2Proof.Machine
end

