-- ==== Sys2Proof/Machine/MixCommands.lean ====
section
/-! DEFINITION. The Mix Engine's requests and the parts of its boundary that have rows of their own (R98, R99, R106). -/

namespace Sys2Proof.Machine

open Sys2Proof

/-- SET_LEVEL (R98). -/
def execSetLevel (zone level : Byte) (s : State) : Answer :=
  match Zone.ofCode zone.toNat with
  | some z => .next ({ s with mxe := s.mxe.stage z level.toNat }.answer .accepted (num1 (min Config.mute level.toNat)))
  | none => .next (s.answer .badArgument [])

/-- APPLY_LEVELS (R99). -/
def execApplyLevels (s : State) : Answer := .next ({ s with mxe := { s.mxe with apply := true } }.answer .accepted [])

/-- LEVELS_APPLIED (R99): nothing happens while the apply flag is clear. -/
def execLevelsApplied (s : State) : Answer := .next s.boundaryLevels

/-- RELEASE_INTERVAL_STEP (R106): the release count of a feed reaches the release interval. -/
def execReleaseIntervalStep (o : OutputNo) (sl : SlotNo) (s : State) : Answer :=
  let f := (s.mxe.feeds.get o).get sl
  if f.active ∧ f.target < f.current ∧ s.cpt.store.releaseInterval ≤ f.releaseCount + 1 then
    .next { s with mxe := { s.mxe with
      feeds := s.mxe.feeds.modify o (fun row => row.set sl { f with current := f.current - 1, releaseCount := 0 }) } }
  else .next s

end Sys2Proof.Machine
end

