-- ==== Sys2Proof/Machine/OutputCommands.lean ====
section
/-! DEFINITION. FAULT_ACK and the Output Stage's events that have rows of their own (R123, R125, R126, R128, R131, R132, R135). -/

namespace Sys2Proof.Machine

open Sys2Proof

/-- FAULT_ACK (R135). -/
def execFaultAck (bridge : Byte) (s : State) : Answer :=
  match finOfByte 8 bridge with
  | none => .next (s.answer .badArgument [])
  | some i =>
    let o := s.ost.faultAck s.cpt.store i
    .next ({ s with ost := o }.answer (if s.ost.stillActive s.cpt.store i then .stillActive else .accepted)
      (hold1 (o.bridges.get i).hold ++ num1 (o.bridges.get i).state.code))

/-- One bridge changed, with its DERATE notice (R124). -/
def State.derateBridge (s : State) (i : BridgeNo) (b : Bridge) : State :=
  { s with
    ost := s.ost.setBridge i b
    cpt := s.cpt.raiseAll (derateNotice s.cpt.store s.inConfig i (s.ost.bridges.get i) b) }

/-- THERMAL_DERATE_STEP (R123): the thermal count would reach 8. -/
def execThermalDerateStep (i : BridgeNo) (s : State) : Answer :=
  let b := s.ost.bridges.get i
  if s.ost.fTw.asserted ∧ b.thermal + 1 = Config.thermalEnd then
    .next (s.derateBridge i { b with derate := b.derate + 1, thermal := 0 }.cap)
  else .next s

/-- CALM_DERATE_STEP (R123): the calm count would reach 64. -/
def execCalmDerateStep (i : BridgeNo) (s : State) : Answer :=
  let b := s.ost.bridges.get i
  if s.ost.fTw.asserted = false ∧ b.clipBlock = false ∧ b.calm + 1 = Config.calmEnd then
    .next (s.derateBridge i { b with derate := b.derate - 1, calm := 0 })
  else .next s

/-- DC_ASSERTED (R126): the DC count reaches 50 with the running block offset. -/
def execDcAsserted (i : BridgeNo) (s : State) : Answer :=
  let b := s.ost.bridges.get i
  if b.dcOn = false ∧ b.dcCount + 1 = Config.dcEnd ∧ offsetDuty b.averageDuty then
    let b1 := b.watchDc.addDc s.cpt.store false
    .next { s with ost := s.ost.setBridge i b1, cpt := s.cpt.raiseAll (disableNotice i b b1) }
  else .next s

/-- OC_HISTORY_EXPIRY (R131): entries of age 999 would reach 1000. -/
def execOcHistoryExpiry (i : BridgeNo) (s : State) : Answer :=
  let b := s.ost.bridges.get i
  let b1 := { b with ocHistory := b.ocHistory.filter (fun a => decide (a + 1 < Config.ocAgeEnd)) }
  .next { s with ost := s.ost.setBridge i b1 }

/-- FAULT_SOURCE_ASSERTED (R128). -/
def execFaultSourceAsserted (src : FilteredSource) (s : State) : Answer :=
  let r := s.ost.assertSource s.cpt.store src
  .next { s with ost := r.1, cpt := s.cpt.raiseAll r.2 }

/-- FAULT_SOURCE_DEASSERTED (R125). -/
def execFaultSourceDeasserted (src : FilteredSource) (s : State) : Answer :=
  .next { s with ost := s.ost.deassertSource src }

/-- BRIDGE_REENABLE (R132): a disabled bridge whose hold set is empty. -/
def execBridgeReenable (i : BridgeNo) (s : State) : Answer :=
  if (s.ost.bridges.get i).reenableDue then .next (s.reenable i) else .next s

end Sys2Proof.Machine
end

