-- ==== Sys2Proof/Machine/PickupCommands.lean ====
section
/-! DEFINITION. The parts of the Pickup Unit's boundary that have rows of their own (R187, R189). -/

namespace Sys2Proof.Machine

open Sys2Proof

/-- Whether the next challenger step of the selection would switch microphones (R187). -/
def Pku.switchDue (p : Pku) : Bool :=
  p.call.isSome && p.selected.isSome && p.run + 1 == Config.micRunEnd && p.select.selected != p.selected

/-- MIC_SWITCH (R187): the challenger run reaches 5. -/
def execMicSwitch (s : State) : Answer :=
  if s.pku.switchDue then .next { s with pku := s.pku.select } else .next s

/-- A hang timer. -/
def Pku.timer (p : Pku) : Activity → Nat
  | .far => p.far
  | .near => p.near

/-- A hang timer run out. -/
def Pku.clearTimer (p : Pku) : Activity → Pku
  | .far => { p with far := 0 }
  | .near => { p with near := 0 }

/-- HANG_TIMER_EXPIRY (R189): the timer reaches 0, and the suppression state is set again. -/
def execHangTimerExpiry (a : Activity) (s : State) : Answer :=
  if s.pku.call.isSome ∧ s.pku.timer a = 1 then .next { s with pku := (s.pku.clearTimer a).setSuppression } else .next s

end Sys2Proof.Machine
end

