-- ==== Sys2Proof/Machine/PortCommands.lean ====
section
/-! DEFINITION. The requests of the Control Port itself and the transactions that take no request (R208, R209, R212, R213, R215, R216, R218). -/

namespace Sys2Proof.Machine

open Sys2Proof

/-- SET_CONFIG (R212). -/
def execSetConfig (item index : Byte) (value : List Byte) (s : State) : Answer :=
  if s.inConfig then
    match s.cpt.store.write item.toNat index.toNat value with
    | some c => .next ({ s with cpt := { s.cpt with store := c } }.answer .accepted (c.stored item.toNat index.toNat))
    | none => .next (s.answer .badArgument [])
  else .next (s.answer .notReady [])

/-- READ_CONFIG (R213). -/
def execReadConfig (item index : Byte) (s : State) : Answer :=
  match s.cpt.store.read item.toNat index.toNat with
  | some data => .next (s.answer .accepted data)
  | none => .next (s.answer .badArgument [])

/-- READ_STATUS (R215). -/
def execReadStatus (part : Byte) (s : State) : Answer :=
  match sectionStatus s part.toNat with
  | some data => .next (s.answer .accepted data)
  | none => .next (s.answer .badArgument [])

/-- READ_VIEW (R216). -/
def execReadView (station : Byte) (s : State) : Answer :=
  match finOfByte 8 station with
  | some p => .next (s.answer .accepted (viewBytes (s.cle.peers.get p)))
  | none => .next (s.answer .badArgument [])

/-- READ_CLAIMS (R63). -/
def execReadClaims (s : State) : Answer := .next (s.answer .accepted (claimsBytes s.cle))

/-- READ_STATIONS (R163). -/
def execReadStations (s : State) : Answer := .next (s.answer .accepted (counted stationBytes s.rdu.stations))

/-- READ_LINE_ERROR (R10): the count and the record, cleared in the same request. -/
def execReadLineError (s : State) : Answer :=
  .next ({ s with lif := s.lif.clearErrors }.answer .accepted (lineErrorBytes s.lif))

/-- TAKE_NOTICE (R218). -/
def execTakeNotice (s : State) : Answer :=
  match firstPending s.cpt.notices with
  | none => .next (s.answer .accepted [0, 0])
  | some i =>
    match s.cpt.notices.get i with
    | none => .next (s.answer .accepted [0, 0])
    | some e => .next ({ s with cpt := s.cpt.emptyPlace i }.answer .accepted (noticeBytes i e))

/-- MALFORMED_REQUEST (R208). -/
def execMalformedRequest (_bytes : List Byte) (s : State) : Answer := .next (s.answer .badArgument [])

/-- DISCARDED_TRANSACTION (R208): no request is taken, and nothing changes but SDO, which was low. -/
def execDiscardedTransaction (_bytes : List Byte) (s : State) : Answer := .next { s with cpt := s.cpt.lowSdo }

/-- READ_TRANSACTION (R209): this many whole bytes of the holder's layout are shifted out. -/
def execReadTransaction (bytes : Nat) (s : State) : Answer :=
  .next { s with cpt := { s.cpt with
    sdo := readBytes s.cpt.result bytes
    result := { s.cpt.result with fresh := freshAfterRead s.cpt.result.fresh bytes } } }

end Sys2Proof.Machine
end

