-- ==== Sys2Proof/Machine/PublishCommands.lean ====
section
/-! DEFINITION. The Publisher's requests (R65 to R67). -/

namespace Sys2Proof.Machine

open Sys2Proof

/-- The class argument of SET_SOURCE; none where its code names no class (log 14). -/
def classArgument : Option Byte → Option (Option SoundClass)
  | none => some none
  | some b => (SoundClass.ofCode b.toNat).map some

/-- SET_SOURCE (R65). -/
def execSetSource (source flag : Byte) (cls : Option Byte) (s : State) : Answer :=
  match Source.ofCode source.toNat, classArgument cls with
  | some src, some c =>
    match s.pub.setSource src (flagOfByte flag) c with
    | some p => .next ({ s with pub := p }.answer .accepted [])
    | none => .next (s.answer .badArgument [])
  | _, _ => .next (s.answer .badArgument [])

/-- The open slot that a slot argument names (R66, R67). -/
def openSlotArgument (c : Store) (slot : Byte) : Option PubSlotNo :=
  (finOfByte 2 slot).filter (fun i => i != c.pickupSlot)

/-- PUBLISH (R66). -/
def execPublish (slot source : Byte) (s : State) : Answer :=
  if s.cle.lifecycle = .active then
    match openSlotArgument s.cpt.store slot, publishable source with
    | some i, some src =>
      .next ({ s with pub := s.pub.setSlot i ((s.pub.slots.get i).publish src) }.answer .accepted [])
    | _, _ => .next (s.answer .badArgument [])
  else .next (s.answer .notReady [])

/-- UNPUBLISH (R67). -/
def execUnpublish (slot : Byte) (s : State) : Answer :=
  if s.inConfig then .next (s.answer .notReady [])
  else
    match openSlotArgument s.cpt.store slot with
    | some i =>
      if s.pub.slots.get i = .idle then .next (s.answer .accepted [])
      else
        .next ({ s with
          pub := s.pub.setSlot i .idle
          lif := s.lif.handSound s.cle.lifecycle i none }.answer .accepted [])
    | none => .next (s.answer .badArgument [])

end Sys2Proof.Machine
end

