-- ==== Sys2Proof/Machine/RadioCommands.lean ====
section
/-! DEFINITION. The Radio Unit's requests, its reports, and the parts of its boundary that have rows of their own (R142 to R174). -/

namespace Sys2Proof.Machine

open Sys2Proof

/-- Whether the station takes TUNE and SEEK (R168, R169). -/
def State.radioReady (s : State) : Bool := !s.inConfig && s.cpt.store.frontEnds != .none

/-- A channel argument. -/
def channelArgument (c : BitVec 16) : Option Channel := if h : c.toNat < 411 then some ⟨c.toNat, h⟩ else none

/-- A direction argument (R210). -/
def directionArgument (b : Byte) : Option Direction :=
  match b.toNat with
  | 0 => some .up
  | 1 => some .down
  | _ => none

/-- TUNE (R168). Where the Radio Unit is not ready that is answered first, also for a channel above 410 (log 44). -/
def execTune (channel : BitVec 16) (s : State) : Answer :=
  if s.radioReady then
    match channelArgument channel with
    | some ch => .next ((s.setRdu (s.rdu.tune s.cpt.store ch)).answer .accepted []).arbitrate
    | none => .next (s.answer .badArgument [])
  else .next (s.answer .notReady [])

/-- SEEK (R169). Where the Radio Unit is not ready that is answered first, also for a bad direction, and a bad direction is
answered BAD_ARGUMENT before a running seek is asked for (log 44). -/
def execSeek (direction : Byte) (s : State) : Answer :=
  if s.radioReady then
    match directionArgument direction with
    | some d =>
      if s.rdu.seek.isSome then .next (s.answer .busy [])
      else .next ((s.setRdu (s.rdu.startSeek s.cpt.store d)).answer .accepted []).arbitrate
    | none => .next (s.answer .badArgument [])
  else .next (s.answer .notReady [])

/-- SCAN (R167, R213). -/
def execScan (onOff : Byte) (s : State) : Answer :=
  match onOffOfCode onOff.toNat with
  | none => .next (s.answer .badArgument [])
  | some on =>
    if s.inConfig then
      .next ({ s with cpt := { s.cpt with store := { s.cpt.store with scanDefault := on } } }.answer .accepted [])
    else .next ({ s with rdu := s.rdu.setScan s.cpt.store on }.answer .accepted [])

/-- ANNOUNCE_ENABLE (R167, R213). -/
def execAnnounceEnable (onOff : Byte) (s : State) : Answer :=
  match onOffOfCode onOff.toNat with
  | none => .next (s.answer .badArgument [])
  | some on =>
    if s.inConfig then
      .next ({ s with cpt := { s.cpt with store := { s.cpt.store with announceDefault := on } } }.answer .accepted [])
    else .next ((s.setRdu (s.rdu.setAnnounce on)).answer .accepted []).arbitrate

/-- FRONT_END_REPORT (R142, R144): ignored in CONFIG and on the port of a path that is not present. -/
def execFrontEndReport (p : Path) (x : Report) (s : State) : Answer :=
  if s.inConfig = false ∧ pathPresent s.cpt.store.frontEnds p then
    .next (s.setRdu (s.rdu.report s.cpt.store p x)).arbitrate
  else .next s

/-- SCAN_PASS_END (R166): the scan position passes 410. -/
def execScanPassEnd (s : State) : Answer :=
  if s.rdu.mode = .scan ∧ s.rdu.scanPos = 410 then .next (s.setRdu s.rdu.nextScan) else .next s

/-- CROSSFADE (R152): the block of a pending crossfade is formed. -/
def execCrossfade (s : State) : Answer :=
  if s.rdu.crossfade then .next { s with rdu := s.rdu.formCrossfade } else .next s

/-- DIVERSITY_SWAP (R151): the diversity run is 3 and the hold-off counter reaches, or is, 20. -/
def execDiversitySwap (s : State) : Answer :=
  if s.rdu.diversityDue ∧ s.rdu.riseHoldOff.holdOff = Config.holdOffTop then
    .next (s.setRdu s.rdu.riseHoldOff.diversitySwap)
  else .next s

/-- PROBE_SWAP (R159): a candidate has succeeded and the hold-off counter reaches, or is, 20. -/
def execProbeSwap (s : State) : Answer :=
  if s.rdu.probeDue ∧ s.rdu.riseHoldOff.holdOff = Config.holdOffTop then
    .next (s.setRdu (s.rdu.riseHoldOff.probeSwap s.cpt.store))
  else .next s

/-- AF_TIMER_EXPIRY (R156): the AF timer reaches 0. -/
def execAfTimerExpiry (s : State) : Answer :=
  if s.rdu.afTimer = some 1 then .next { s with rdu := s.rdu.afExpires s.cpt.store } else .next s

/-- RECEPTION_HOLD_EXPIRY (R173): the reception hold reaches 100. -/
def execReceptionHoldExpiry (s : State) : Answer :=
  if s.rdu.ann.running ∧ s.rdu.low.above = false ∧ s.rdu.ann.hold + 1 = Config.receptionEnd then
    .next (s.setRdu s.rdu.tickReception).arbitrate
  else .next s

end Sys2Proof.Machine
end

