-- ==== Sys2Proof/Machine/Dispatch.lean ====
section
/-! DEFINITION. The meaning of each command, one arm for each constructor of `Instr`. -/

namespace Sys2Proof.Machine

open Sys2Proof

def exec (i : Instr) (s : State) : Host.Outcome State Fault Refusal :=
  match i with
  | .pinReset => Sys2Proof.Machine.execPinReset s
  | .start => Sys2Proof.Machine.execStart s
  | .restart => Sys2Proof.Machine.execRestart s
  | .setConfig item index value => Sys2Proof.Machine.execSetConfig item index value s
  | .readConfig item index => Sys2Proof.Machine.execReadConfig item index s
  | .setLevel zone level => Sys2Proof.Machine.execSetLevel zone level s
  | .applyLevels => Sys2Proof.Machine.execApplyLevels s
  | .levelsApplied => Sys2Proof.Machine.execLevelsApplied s
  | .setSource source flag cls => Sys2Proof.Machine.execSetSource source flag cls s
  | .publish slot source => Sys2Proof.Machine.execPublish slot source s
  | .unpublish slot => Sys2Proof.Machine.execUnpublish slot s
  | .claim kind urgency zones ref => Sys2Proof.Machine.execClaim kind urgency zones ref s
  | .release serial => Sys2Proof.Machine.execRelease serial s
  | .tune channel => Sys2Proof.Machine.execTune channel s
  | .seek direction => Sys2Proof.Machine.execSeek direction s
  | .scan onOff => Sys2Proof.Machine.execScan onOff s
  | .announceEnable onOff => Sys2Proof.Machine.execAnnounceEnable onOff s
  | .faultAck bridge => Sys2Proof.Machine.execFaultAck bridge s
  | .readStatus part => Sys2Proof.Machine.execReadStatus part s
  | .readView station => Sys2Proof.Machine.execReadView station s
  | .readClaims => Sys2Proof.Machine.execReadClaims s
  | .readStations => Sys2Proof.Machine.execReadStations s
  | .readLineError => Sys2Proof.Machine.execReadLineError s
  | .takeNotice => Sys2Proof.Machine.execTakeNotice s
  | .malformedRequest bytes => Sys2Proof.Machine.execMalformedRequest bytes s
  | .discardedTransaction bytes => Sys2Proof.Machine.execDiscardedTransaction bytes s
  | .readTransaction bytes => Sys2Proof.Machine.execReadTransaction bytes s
  | .startOfFrame => Sys2Proof.Machine.execStartOfFrame s
  | .lineIdle => Sys2Proof.Machine.execLineIdle s
  | .lostContention => Sys2Proof.Machine.execLostContention s
  | .bitError => Sys2Proof.Machine.execBitError s
  | .attemptCompletion => Sys2Proof.Machine.execAttemptCompletion s
  | .frameReceived frame => Sys2Proof.Machine.execFrameReceived frame s
  | .brokenOffFrame => Sys2Proof.Machine.execBrokenOffFrame s
  | .bitErrorIsolation => Sys2Proof.Machine.execBitErrorIsolation s
  | .noIdleIsolation => Sys2Proof.Machine.execNoIdleIsolation s
  | .blockBoundary => Sys2Proof.Machine.execBlockBoundary s
  | .joiningComplete => Sys2Proof.Machine.execJoiningComplete s
  | .presenceDue => Sys2Proof.Machine.execPresenceDue s
  | .probeDue => Sys2Proof.Machine.execProbeDue s
  | .peerExpiry station => Sys2Proof.Machine.execPeerExpiry station s
  | .windowExpiry => Sys2Proof.Machine.execWindowExpiry s
  | .bidAgeOut station serial => Sys2Proof.Machine.execBidAgeOut station serial s
  | .streamStarved stream => Sys2Proof.Machine.execStreamStarved stream s
  | .callLossExpiry station serial uplink => Sys2Proof.Machine.execCallLossExpiry station serial uplink s
  | .slip buffer => Sys2Proof.Machine.execSlip buffer s
  | .repeatFrame buffer => Sys2Proof.Machine.execRepeatFrame buffer s
  | .releaseIntervalStep output slot => Sys2Proof.Machine.execReleaseIntervalStep output slot s
  | .crossfade => Sys2Proof.Machine.execCrossfade s
  | .diversitySwap => Sys2Proof.Machine.execDiversitySwap s
  | .probeSwap => Sys2Proof.Machine.execProbeSwap s
  | .afTimerExpiry => Sys2Proof.Machine.execAfTimerExpiry s
  | .receptionHoldExpiry => Sys2Proof.Machine.execReceptionHoldExpiry s
  | .micSwitch => Sys2Proof.Machine.execMicSwitch s
  | .hangTimerExpiry activity => Sys2Proof.Machine.execHangTimerExpiry activity s
  | .thermalDerateStep bridge => Sys2Proof.Machine.execThermalDerateStep bridge s
  | .calmDerateStep bridge => Sys2Proof.Machine.execCalmDerateStep bridge s
  | .dcAsserted bridge => Sys2Proof.Machine.execDcAsserted bridge s
  | .ocHistoryExpiry bridge => Sys2Proof.Machine.execOcHistoryExpiry bridge s
  | .faultSourceAsserted source => Sys2Proof.Machine.execFaultSourceAsserted source s
  | .faultSourceDeasserted source => Sys2Proof.Machine.execFaultSourceDeasserted source s
  | .sampleInstant inputs => Sys2Proof.Machine.execSampleInstant inputs s
  | .bridgeReenable bridge => Sys2Proof.Machine.execBridgeReenable bridge s
  | .frontEndReport path report => Sys2Proof.Machine.execFrontEndReport path report s
  | .scanPassEnd => Sys2Proof.Machine.execScanPassEnd s
  | .pwmPeriod inputs => Sys2Proof.Machine.execPwmPeriod inputs s

end Sys2Proof.Machine
end

