-- ==== Sys2Proof/Machine/Wire.lean ====
section
/-! DEFINITION. The frame on the pair (R1), the sense it is driven in (R3), and what a transmitter reads back bit by bit
(R6, R7). The station's state holds the frame in flight; these functions say what it looks like on the wire. -/

namespace Sys2Proof.Machine

open Sys2Proof

/-- A bit of the contention phase (1.1). -/
inductive PairBit where
  | dominant | recessive
deriving DecidableEq, Repr

/-- A frame on the pair (R1): the contention bits, the Manchester half bits and the end delimiter's half bits, each half
bit true for positive drive. `inverted` says that all of it is driven in the crossed sense (R3). -/
structure WireImage where
  contention : List PairBit
  halves : List Bool
  delimiter : List Bool
  inverted : Bool
deriving DecidableEq, Repr

/-- A key bit on the pair: dominant is 0 (R1). -/
def keyBit (b : Bool) : PairBit := if b then .recessive else .dominant

/-- The six key bits, most significant first. -/
def keyBits (key : BitVec 6) : List PairBit := [5, 4, 3, 2, 1, 0].map (fun i => keyBit (key.getLsbD i))

/-- Preamble, key and switch interval (R1). -/
def contentionBits (key : BitVec 6) : List PairBit :=
  [.dominant, .recessive, .dominant] ++ keyBits key ++ [.recessive]

/-- The Manchester half bits of one bit: 1 is positive then negative, 0 the reverse (R7). -/
def manchester (b : Bool) : List Bool := [b, !b]

/-- The half bits of a byte, most significant bit first. -/
def byteHalves (b : Byte) : List Bool := [7, 6, 5, 4, 3, 2, 1, 0].flatMap (fun i => manchester (b.getLsbD i))

/-- The level a half bit has on the pair, driven in this sense (R3). -/
def drive (inverted b : Bool) : Bool := b != inverted

/-- The frame on the pair. -/
def wireImage (inverted : Bool) (key : BitVec 6) (payload : List Byte) : WireImage where
  contention := contentionBits key
  halves := (payload.flatMap byteHalves).map (drive inverted)
  delimiter := [true, true, true, true].map (drive inverted)
  inverted := inverted

/-- The frame in flight on the pair. -/
def flightImage (own : StationNo) (f : Flight) : WireImage := wireImage f.inverted (f.body.key own) (f.body.payload own)

/-- Clock periods a frame takes: 16 for a contention bit, 2 for a payload bit, 2 payload bits of end delimiter (R1). -/
def frameClocks (payloadLen : Nat) : Nat := 10 * 16 + 8 * payloadLen * 2 + 2 * 2

/-- What the pair reads when these stations send: dominant when any of them drives (1.1). -/
def pairRead (sent : List PairBit) : PairBit := if sent.any (· == .dominant) then .dominant else .recessive

/-- How the contention phase ends for one station (R6). -/
inductive Contention where
  | won | lost | bitError
deriving DecidableEq, Repr

/-- The contention of the key bits: a recessive bit read dominant loses, a dominant bit read recessive is a bit error
(R6). -/
def contendKey : List PairBit → List PairBit → Contention
  | .recessive :: _, .dominant :: _ => .lost
  | .dominant :: _, .recessive :: _ => .bitError
  | _ :: sent, _ :: read => contendKey sent read
  | _, _ => .won

/-- The bits stations with these keys put on the pair together, key bit by key bit, while none has dropped out: a
station that has lost sends nothing more, which reads as recessive (R6). -/
def pairKeyBits : Nat → List (BitVec 6) → List PairBit
  | 0, _ => []
  | n + 1, keys =>
    let bit := pairRead (keys.map (fun k => keyBit (k.getLsbD n)))
    bit :: pairKeyBits n (keys.filter (fun k => keyBit (k.getLsbD n) == bit))

/-- The bits read back in the payload phase: any half bit at the other level is a bit error (R7). -/
def payloadBitError (sent read : List Bool) : Bool := sent != read.take sent.length

end Sys2Proof.Machine
end

