-- ==== Sys2Proof/Safety.lean ====
section
/-! DEFINITION. What a well-behaved station keeps at every step, in the terms the statements use. Each is a rule of the
spec about every state of the part. -/

namespace Sys2Proof.Machine

open Sys2Proof

/-- The attention line is asserted exactly while a notice entry is pending (R219). -/
def AttentionAgrees (s : State) : Prop := s.cpt.atn = noticePending s.cpt.notices

/-- A bridge is enabled only while its hold set is empty (R132), and only an enabled bridge switches (R121). -/
def BridgesSafe (s : State) : Prop :=
  ∀ i : BridgeNo, ((s.ost.bridges.get i).state = .run → (s.ost.bridges.get i).hold = 0) ∧
    ((s.ost.bridges.get i).duty ≠ none → (s.ost.bridges.get i).state = .run)

/-- An intake buffer's fill never exceeds 192 sample frames (R76). -/
def FillsBounded (s : State) : Prop := ∀ i : BufferNo, (s.iku.buffers.get i).ring.length ≤ Config.ringLen

/-- The target and current attenuation of every feed stay within 0..128 (R106). -/
def FeedsBounded (s : State) : Prop :=
  ∀ (o : OutputNo) (sl : SlotNo), ((s.mxe.feeds.get o).get sl).target ≤ Config.mute ∧
    ((s.mxe.feeds.get o).get sl).current ≤ Config.mute

/-- Live and staged levels stay within 0..128 (R98). -/
def LevelsBounded (s : State) : Prop := ∀ z : Fin 5, s.mxe.live.get z ≤ Config.mute ∧ s.mxe.staged.get z ≤ Config.mute

/-- While a station's pickup is active, Su plus Sd equals the call loss (R190); in CONFIG it is inactive (R192). -/
def SplitAgrees (s : State) : Prop :=
  (s.pku.call ≠ none → s.pku.su + s.pku.sd = s.cpt.store.callLoss) ∧ (s.inConfig = true → s.pku.call = none)

/-- The claim-frame queue holds at most 8 frames (R13). -/
def QueueBounded (s : State) : Prop := s.lif.queue.length ≤ Config.queueCapacity

/-- Every base duty lies in 8..248 (R118), every deadtime in 0..7, and every duty in 1..255 (R121). -/
def DutiesBounded (s : State) : Prop :=
  ∀ i : BridgeNo, 8 ≤ (s.ost.bridges.get i).d0 ∧ (s.ost.bridges.get i).d0 ≤ 248 ∧ s.cpt.store.deadtime.get i ≤ 7 ∧
    ∀ d ∈ (s.ost.bridges.get i).duty, 1 ≤ d ∧ d ≤ 255

/-- Every bridge's derate stays within 0..24 (R123). -/
def DeratesBounded (s : State) : Prop := ∀ i : BridgeNo, (s.ost.bridges.get i).derate ≤ Config.derateCap

/-- The station list keeps strictly rising channels (R163). -/
def StationsOrdered (s : State) : Prop := s.rdu.stations.Pairwise (fun a b => a.channel < b.channel)

/-- A FREE intake buffer is assigned to no stream (R76), and no two buffers to one stream (R79). -/
def BuffersAssigned (s : State) : Prop :=
  (∀ i : BufferNo, (s.iku.buffers.get i).state = .free → (s.iku.buffers.get i).stream = none) ∧
    ∀ (i j : BufferNo) (n : StreamNo), (s.iku.buffers.get i).stream = some n → (s.iku.buffers.get j).stream = some n → i = j

/-- In CONFIG the peer table and the claim list are empty (R22). -/
def ConfigQuiet (s : State) : Prop :=
  s.inConfig = true → s.cle.claims = [] ∧ ∀ p : StationNo, s.cle.peers.get p = none

/-- The bounds of the claim list (R38, R42): no two entries of one name, at most four of one station, only own entries
bid, and none in CONFIG. -/
def ClaimsBounded (s : State) : Prop :=
  (s.cle.claims.map Claim.name).Nodup ∧ (∀ p : StationNo, (claimsOf p s.cle.claims).length ≤ Config.claimsPerStation) ∧
    (∀ c ∈ s.cle.claims, c.isBidding = true → c.name.station = s.own) ∧ (s.inConfig = true → s.cle.claims = [])

/-- The list order of R39: no entry stands before one with a better key. -/
def ClaimsOrdered (s : State) : Prop := s.cle.claims.Pairwise (fun a b => keyBetter b a = false)

/-- At most one own claim is TENTATIVE (R42). -/
def OneBid (s : State) : Prop := (s.cle.claims.filter Claim.isBidding).length ≤ 1

/-- The presence a station composes now, in the station state given (R29). -/
def State.presenceNow (s : State) (state : PeerState) : PresenceFrame where
  state := state
  rendered := s.cpt.store.rendered
  impaired := s.impaired
  publish := s.pub.list s.own
  held := (ownHeld s.own s.cle.claims).map (fun c => ⟨c.name.serial, c.fields⟩)

/-- The CLE with a composed presence in the station's own peer entry (R31). -/
def State.withOwnEntry (s : State) (c : Cle) (f : PresenceFrame) : Cle :=
  { c with peers := s.cle.peers.set s.own (some (PeerEntry.ofPresence f)) }

/-- What entry to ISOLATED leaves (R26): nothing changes outside the LIF, the CLE and the notice set. -/
def Isolated (s t : State) : Prop :=
  t.cle.lifecycle = .isolated ∧ t.cle.presenceCount = 0 ∧ t.cle.peers = s.cle.peers ∧
    (∀ c ∈ s.cle.claims, (∀ d ∈ s.cle.claims, d.isBidding = true → d.name ≠ c.name) → c ∈ t.cle.claims) ∧
    (∀ i, (t.lif.sound.get i).frame = none ∧ (t.lif.sound.get i).beside = none) ∧ t.lif.presence.frame = none ∧
    t.lif.presence.beside = none ∧ t.lif.bitErrorRun = 0 ∧ t.lif.noIdle = 0 ∧ t.lif.idleSeen = false ∧
    t.cpt.atn = true ∧ t = { s with lif := t.lif, cle := t.cle, cpt := t.cpt }

/-! ### What a boundary does to claims, peers, streams and calls (R19, R35, R52, R53, R57, R73, R75, R173) -/

/-- Whether a boundary isolates the station: the second in a row at which a frame waits and no idle was seen (R19). -/
def State.isolatesAtBoundary (s : State) : Bool :=
  s.cle.lifecycle == .active && s.lif.anyPending && !s.lif.idleSeen && decide (1 ≤ s.lif.noIdle)

/-- Whether a boundary brings the entry of this peer to age 160 (R35). -/
def State.peerExpires (s : State) (p : StationNo) : Bool :=
  p != s.own && (s.cle.peers.get p).any (fun e => decide (159 ≤ e.age))

/-- Whether a boundary ends this claim with its announcement, after 100 of poor reception (R173). -/
def State.announcementGoes (s : State) (n : ClaimRef) : Bool :=
  s.rdu.ann.running && !s.rdu.low.above && decide (99 ≤ s.rdu.ann.hold) && n.station == s.own
    && s.rdu.ann.claim == some n.serial

/-- Whether a boundary abandons this own claim that has no window yet: it isolates, and the BID is not in flight (R53). -/
def State.abandonsAtBoundary (s : State) (c : Claim) : Bool := s.isolatesAtBoundary && !s.lif.bidFlying c.name.serial

/-- What a boundary makes of a claim: the entry in its place, or none where it goes. -/
def State.claimAtBoundary (s : State) (c : Claim) : Option Claim :=
  if s.peerExpires c.name.station || s.announcementGoes c.name then none
  else
    match c.state with
    | .held => some c
    | .heard age => if age < 3 then some { c with state := .heard (age + 1) } else none
    | .bidding _ none => if s.abandonsAtBoundary c then none else some c
    | .bidding link (some 0) => some { c with state := .bidding link (some 1) }
    | .bidding link (some _) => if link then some { c with state := .held } else none

/-- A buffer u that starved from b: emptied, for the same stream (R76, R88), and marked as returning (log 38). -/
def Emptied (b u : Buffer) : Prop :=
  u.state = .starved ∧ u.stream = b.stream ∧ u.static = b.static ∧ u.ring = [] ∧ u.expected = none ∧ u.highRun = 0 ∧
    u.lowRun = 0 ∧ u.gap = false ∧ u.returning = true

/-- The call-loss table once a frame gave this entry (R74): it stands in the place of the one with its reference and
uplink, else at the end, and in a full table the oldest entry goes before, the first of several. -/
def CallTaken (x : CallLoss) (l after : List CallLoss) : Prop :=
  let same := fun (e : CallLoss) => e.ref = x.ref ∧ e.uplink = x.uplink
  ((∃ e ∈ l, same e) → after = l.map (fun e => if same e then x else e)) ∧
  ((∀ e ∈ l, ¬ same e) →
    (l.length < 4 → after = l ++ [x]) ∧
    (4 ≤ l.length → ∀ a d b, l = a ++ d :: b → (∀ e ∈ a, e.age < d.age) → (∀ e ∈ b, e.age ≤ d.age) → after = a ++ b ++ [x]))

/-! ### What a boundary reads (R92, R93, R95, R96, R100 to R104) -/

/-- The greatest of these numbers, 0 where there is none. -/
def GreatestIn (l : List Nat) (n : Nat) : Prop := (∀ x ∈ l, x ≤ n) ∧ (n ∈ l ∨ (l = [] ∧ n = 0))

/-- The least of these numbers, 0 where there is none. -/
def LeastIn (l : List Nat) (n : Nat) : Prop := (∀ x ∈ l, n ≤ x) ∧ (n ∈ l ∨ (l = [] ∧ n = 0))

/-- The stream and the claim that a selector resolves to from the claim list and the call-loss table as they stand: the
first HELD claim of the kind that covers the output and carries a reference (R92), or the first own HELD CALL claim with
an uplink, and its lowest (R93). -/
def State.resolution (s : State) (o : OutputNo) : Selector → Option (StreamNo × ClaimRef)
  | .follow k =>
    (s.cle.claims.find? (fun c => c.isHeld && c.fields.kind == k && c.fields.ref.isSome
      && zonesShare c.fields.zones (s.cpt.store.zonesOfOutput o))).bind (fun c => c.fields.ref.map (fun n => (n, c.name)))
  | .uplink =>
    (s.cle.claims.find? (fun c => c.isHeld && c.name.station == s.own && c.fields.kind == .call
      && s.iku.callLoss.any (fun e => e.ref == c.name))).bind (fun c =>
        ((List.finRange 16).find? (fun n => s.iku.callLoss.any (fun e => e.ref == c.name && e.uplink == n))).map
          (fun n => (n, c.name)))
  | .none | .local_ _ | .stream _ => Option.none

/-- The 48 sample frames a local source gives a reader at the boundary from s to t: the RADIO block formed at it, the AUX
samples that arrived, the uplink block of the boundary before (R95, R191). -/
def sourceBlock (s t : State) : Source → List StereoSample
  | .radio => t.rdu.radio
  | .aux0 => padTo 48 StereoSample.zero s.inputs.aux0
  | .aux1 => padTo 48 StereoSample.zero s.inputs.aux1
  | .pickup =>
    match s.pku.uplink with
    | some l => l.map (fun x => ⟨x, x⟩)
    | none => List.replicate 48 StereoSample.zero

/-- A local source's sound (R95): class and private flag from its record, its sound private by that flag alone (R96). -/
def SourceSound (s t : State) (src : Source) (stream : Option StreamNo) (x : FeedSound) : Prop :=
  x = ⟨sourceBlock s t src, (s.pub.record src).cls, (s.pub.record src).priv, (s.pub.record src).priv, stream, false, false, true⟩

/-- A stream's sound (R95, R96): an own stream plays its slot's source; another station's the block that its buffer gave,
silence where none serves it, private by the stream's flag or by any sample frame's. -/
def StreamSound (s t : State) (n : StreamNo) (x : FeedSound) : Prop :=
  if producerOf n = s.own then
    match s.pub.slots.get (slotOf n) with
    | .publishing src _ => SourceSound s t src (some n) x
    | .idle => x = ⟨List.replicate 48 StereoSample.zero, .programme, false, false, some n, false, false, true⟩
  else
    let e := s.iku.heard.get n
    match t.iku.bufferOf n with
    | some j =>
      let b := t.iku.buffers.get j
      x = ⟨b.given.map (fun y => ⟨y.l, y.r⟩), e.cls, e.priv, e.priv || b.given.any RingFrame.priv, some n, b.givenForce,
        b.givenReturn, true⟩
    | none => x = ⟨List.replicate 48 StereoSample.zero, e.cls, e.priv, e.priv, some n, false, false, false⟩

/-- What an active feed with this selector and resolved stream gives at the boundary from s to t (R95, R96). -/
def SoundOf (s t : State) (sel : Selector) (resolved : Option StreamNo) (x : FeedSound) : Prop :=
  match sel with
  | .none => True
  | .local_ src =>
    SourceSound s t src (((List.finRange 2).find? (fun i => (s.pub.slots.get i).source == some src)).map (streamOf s.own)) x
  | .stream n => StreamSound s t n x
  | .follow _ | .uplink => ∀ n, resolved = some n → StreamSound s t n x

/-- The duck of a zone for a feed (R97, R100): the greatest entry over the effective claims of the zone, but for the
feed's own and, for FOLLOW(PRIVATE) on a post, QUIET claims. -/
def DuckIs (s : State) (o : OutputNo) (sel : Selector) (claim : Option ClaimRef) (cls : SoundClass) (z : Zone) (d : Nat) :
    Prop :=
  let row : Claim → ClaimKind := fun c =>
    if c.fields.kind = .call ∧ (∃ n, c.fields.ref = some n ∧ s.cle.marks.get n = true) then .priv else c.fields.kind
  GreatestIn
    ((s.cle.claims.filter (fun c => c.isHeld && zoneIn c.fields.zones z && claim != some c.name
      && !(c.fields.kind == .quiet && (o.val == 8 || o.val == 9) && sel == .follow .priv))).map
        (fun c => (s.cpt.store.duck.get (row c).idx).get cls.idx)) d

/-- The talk loss of a feed (R102): the greatest over the HELD CALL claims that name its stream. -/
def TalkLossIs (s : State) (cls : SoundClass) (stream : Option StreamNo) (d : Nat) : Prop :=
  if cls = .call ∧ stream.isSome then
    GreatestIn ((s.cle.claims.filter (fun c => c.isHeld && c.fields.kind == .call && c.fields.ref == stream)).flatMap
      (fun c => (s.iku.callLoss.filter (fun e => e.ref == c.name)).map CallLoss.talkLoss)) d
  else d = 0

/-- The target of an active feed at the boundary from s to t (R100 to R104), with the levels and the fallback that hold
from it on, and all else as it stood before. -/
def TargetIs (s t : State) (o : OutputNo) (cfg : FeedConfig) (claim : Option ClaimRef) (x : FeedSound) (target : Nat) :
    Prop :=
  ∃ (d : Zone → Nat) (a loss : Nat),
    (∀ z, DuckIs s o cfg.selector claim x.cls z (d z)) ∧
    LeastIn ((zonesOf (s.cpt.store.zonesOfOutput o)).map (fun z => t.mxe.live.get z.idx + d z)) a ∧
    TalkLossIs s x.cls x.stream loss ∧
    let derate := if h : o.val < 8 then (s.ost.bridges.get ⟨o.val, h⟩).derate else 0
    let sum := min 128 (a + cfg.trim + derate + loss)
    let ceiling := x.cls = .chime ∧ o.val < 8 ∧ (zoneIn (s.cpt.store.zonesOfOutput o) .drv = true ∨
      (t.mxe.fallback = true ∧ zoneIn (s.cpt.store.zonesOfOutput o) s.cpt.store.fallbackZone = true))
    (ceiling → target = min sum s.cpt.store.ceiling) ∧ (¬ ceiling → target = sum)

/-! ### Programme data (R161, R162) -/

/-- The record of a path after a programme-data word: a tag is accepted at the second of two TAG_ID words in a row, and
clears the rest; NAME and ALT words are taken only with an accepted tag; an ALT list takes channels in range, once each,
but for the path's own, while it holds fewer than six. -/
def DataAfter (tuned : Option Channel) (d : ProgData) (w : Option DataWord) (e : ProgData) : Prop :=
  let add := fun (l : List Channel) (n : Nat) =>
    if n ≤ 410 ∧ (∀ c ∈ l, c.val ≠ n) ∧ tuned.map Fin.val ≠ some n ∧ l.length < 6 then l ++ [Fin.ofNat 411 n] else l
  match w with
  | none => e = d
  | some (.tagId v) =>
    (d.tag = some v → e = { d with lastTag := some v }) ∧
    (d.tag ≠ some v → d.lastTag = some v → e = ⟨some v, some v, Tbl.fill 4 none, none, none, []⟩) ∧
    (d.tag ≠ some v → d.lastTag ≠ some v → e = { d with lastTag := some v })
  | some (.name i a b) => e = if d.tag = none then d else { d with parts := d.parts.set i (some (a, b)) }
  | some (.flags traffic announce) => e = { d with traffic := some traffic, announce := some announce }
  | some (.alt u v) => e = if d.tag = none then d else { d with alt :=
      match v with
      | none => add d.alt u
      | some w => add (add d.alt u) w }

/-! ### Fault sources (R125, R127, R128, R130, R131, R133) -/

/-- Whether a source is LATCHED for a bridge (R130). -/
def LatchedFor (c : Store) (b : Bridge) : FaultKind → Prop
  | .ts => c.tsLatched = true
  | .flt0 => c.flt0Latched = true
  | .flt1 => c.flt1Latched = true
  | .dc => True
  | .oc => b.ocLock = true
  | .uv | .tw => False

/-- Whether the assertion of a filtered source adds this source to the hold set of bridge i (R128). -/
def Adds (c : Store) (i : BridgeNo) (src : FilteredSource) (k : FaultKind) : Prop :=
  match src with
  | .oc j => j = i ∧ k = .oc
  | .ts => k = .ts ∧ (c.faultMap.get 0).getLsbD i.val = true
  | .uv => k = .uv ∧ (c.faultMap.get 1).getLsbD i.val = true
  | .flt0 => k = .flt0 ∧ (c.faultMap.get 2).getLsbD i.val = true
  | .flt1 => k = .flt1 ∧ (c.faultMap.get 3).getLsbD i.val = true
  | .tw => False

/-- What sources that join the hold set of a bridge make of it (R128, R131, R133): the fourth assertion of OC within the
window locks it; an enabled bridge is disabled; a bridge that is not OFF is LOCKED with a LATCHED source, else HALTED. -/
def SourcesJoin (c : Store) (added : FaultKind → Prop) (b u : Bridge) : Prop :=
  (∀ k, holds u.hold k = true ↔ holds b.hold k = true ∨ added k) ∧
  ((∀ k, ¬ added k) → u.state = b.state) ∧
  ((∃ k, added k) →
    (b.state = .off → u.state = .off) ∧
    (b.state ≠ .off → (∃ k, holds u.hold k = true ∧ LatchedFor c u k) → u.state = .locked) ∧
    (b.state ≠ .off → (∀ k, holds u.hold k = true → ¬ LatchedFor c u k) → u.state = .halted) ∧
    (b.state = .run → u.sense = .split ∧ u.duty = none)) ∧
  (added .oc → b.ocLock = false →
    (b.ocHistory.length < 3 → u.ocHistory = b.ocHistory ++ [0] ∧ u.ocLock = false) ∧
    (3 ≤ b.ocHistory.length → u.ocHistory = [] ∧ u.ocLock = true)) ∧
  (¬ added .oc ∨ b.ocLock = true → u.ocHistory = b.ocHistory ∧ u.ocLock = b.ocLock)

/-- The BRIDGE_FAULT notices of the bridges that an event disabled, in ascending number (R137). -/
def disabledNotices (s t : State) : List Notice :=
  (List.finRange 8).filterMap (fun i =>
    let b := s.ost.bridges.get i
    let u := t.ost.bridges.get i
    if b.state = .run ∧ u.state ≠ .run then some (.bridgeFault i false u.hold u.state) else none)

/-- The BRIDGE_FAULT notices of the used bridges that START finds held, in ascending number (R134, R137). -/
def heldNotices (s t : State) : List Notice :=
  (List.finRange 8).filterMap (fun i =>
    let u := t.ost.bridges.get i
    if s.cpt.store.bridgeUsed i = true ∧ u.hold ≠ 0 then some (.bridgeFault i false u.hold u.state) else none)

/-! ### Configuration values (R212) -/

/-- The value that an accepted SET_CONFIG of an item stores (R212): a number brought into its range, a feed slot with its
trim brought into 0..32, and any other value as it was written. -/
def storedValue (item : Nat) (v : List Byte) : List Byte :=
  let clamped := fun (lo hi : Nat) => v.map (fun b => BitVec.ofNat 8 (max lo (min hi b.toNat)))
  match item, v with
  | 2, [type, arg, pick, trim, cond] => [type, arg, pick, BitVec.ofNat 8 (min 32 trim.toNat), cond]
  | 3, _ | 15, _ | 16, _ => clamped 0 128
  | 4, _ => clamped 0 24
  | 6, _ | 7, _ => clamped 1 16
  | 8, _ => clamped 0 7
  | 12, _ => clamped 0 32
  | 14, _ => clamped 24 48
  | 17, _ => clamped 0 48
  | 23, _ | 24, _ => clamped 0 100
  | _, _ => v

/-- The values that the item table takes (R212, with R90, R91, R105, R127, R142, R154, R176): every other one, and every
other item or index, is refused. That a selector without an argument has argument byte 0 is log 30. -/
def itemTakes (item index : Nat) (v : List Byte) : Prop :=
  let byteIn := fun (p : Nat → Prop) => ∃ b : Byte, v = [b] ∧ p b.toNat
  let fewZones := fun (b : Nat) => (zonesOf (BitVec.ofNat 5 b)).length ≤ 1
  match item with
  | 0 => index = 0 ∧ byteIn (· < 8)
  | 1 => index < 10 ∧ byteIn (fun b => b < 32 ∧ (8 ≤ index → fewZones b))
  | 2 => index < 44 ∧ ∃ type arg pick trim cond : Byte, v = [type, arg, pick, trim, cond] ∧ cond.toNat ≤ 1 ∧
      (if index / 4 < 8 then pick.toNat ≤ 2 else pick.toNat = 3) ∧
      (type = 0 ∧ arg = 0 ∨ type = 1 ∧ arg.toNat ≤ 3 ∨ type = 2 ∧ arg.toNat ≤ 15 ∨ type = 3 ∧ arg.toNat ≤ 3 ∨
        type = 4 ∧ arg = 0)
  | 3 => index < 20 ∧ byteIn (fun _ => True)
  | 4 | 6 | 7 | 14 | 15 | 16 | 17 | 23 | 24 => index = 0 ∧ byteIn (fun _ => True)
  | 5 => index = 0 ∧ byteIn (fun b => 1 ≤ b ∧ b ≤ 4)
  | 8 => index < 8 ∧ byteIn (fun _ => True)
  | 9 | 12 => index < 4 ∧ byteIn (fun _ => True)
  | 10 => (index = 0 ∨ index = 2 ∨ index = 3) ∧ byteIn (· ≤ 1)
  | 11 => index < 4 ∧ byteIn (fun b => b < 32 ∧ fewZones b)
  | 13 | 19 | 20 | 21 => index = 0 ∧ byteIn (· ≤ 1)
  | 18 => index = 0 ∧ byteIn (· ≤ 2)
  | 22 => index = 0 ∧ byteIn (fun b => 0 < b ∧ b < 32)
  | 25 | 26 => index = 0 ∧ byteIn (· ≤ 3)
  | _ => False

/-! ### The claim-frame queue (R13 to R15) -/

/-- A frame appended to the queue (R13, R14), whose frame in flight, if it has one, is `head` and the frames behind it `q`:
at the tail, with room made in a full queue behind the frame in flight where the rule finds it; a BID for which there is
no room is held beside the queue, any other frame is not added. -/
def Appended (head q : List ClaimFrame) (f : ClaimFrame) (after : List ClaimFrame) (beside : Option ClaimFrame) : Prop :=
  let inPlaceOf := fun (k : FrameKind) =>
    ∃ a h b, q = a ++ h :: b ∧ h.kind = k ∧ (∀ g ∈ a, g.kind ≠ k) ∧ after = head ++ (a ++ b) ++ [f] ∧ beside = none
  ((head ++ q).length < 8 → after = head ++ q ++ [f] ∧ beside = none) ∧
  (8 ≤ (head ++ q).length →
    ((∃ g ∈ q, g.kind = .hold) → inPlaceOf .hold) ∧
    ((∀ g ∈ q, g.kind ≠ .hold) →
      (f.kind = .bid → (∃ g ∈ q, g.kind = .release) → inPlaceOf .release) ∧
      (f.kind = .bid → (∀ g ∈ q, g.kind ≠ .release) → after = head ++ q ∧ beside = some f) ∧
      (f.kind ≠ .bid → after = head ++ q ∧ beside = none)))

/-- Adding a claim frame, or a reassert HOLD, to the queue (R13 to R15): a frame of its serial in flight keeps its place
and the new one is held beside; a waiting one gives its place where the new one says more; else the new one is appended,
a reassert only where there is room. Nothing in flight changes. -/
def Placed (l : Lif) (f : ClaimFrame) (reassert : Bool) (m : Lif) : Prop :=
  let head := if l.queueFlying then l.queue.take 1 else []
  let q := if l.queueFlying then l.queue.drop 1 else l.queue
  let mine := fun (g : ClaimFrame) => g.serial = f.serial
  (∀ x, l.flight = some x → m.flight = some x) ∧
  (∀ g ∈ head, mine g → m.queue = l.queue ∧ m.besideBid = l.besideBid ∧
    m.besideClaim = if reassert = true ∧ g.kind = .hold then l.besideClaim else some f) ∧
  ((∀ g ∈ head, ¬ mine g) → m.besideClaim = l.besideClaim ∧
    ((∃ g ∈ l.queue, mine g) → m.besideBid = l.besideBid ∧
      m.queue = l.queue.map (fun g =>
        if g.serial = f.serial ∧ g.kind ≠ .release ∧ f.kind ≠ .bid ∧ ¬ (reassert = true ∧ g.kind = .hold) then f else g)) ∧
    ((∀ g ∈ l.queue, ¬ mine g) → ∃ left, m.besideBid = left.or l.besideBid ∧
      ((reassert = false ∨ l.queue.length < 8) → Appended head q f m.queue left) ∧
      (reassert = true → 8 ≤ l.queue.length → m.queue = l.queue ∧ left = none)))

/-- Dropping the BID of a serial (R13, R15): in flight, it is marked to go if its attempt fails; else it leaves the queue,
and the place beside it. -/
def BidDropped (l : Lif) (n : Serial) (m : Lif) : Prop :=
  let mine := fun (g : ClaimFrame) => g.kind = .bid ∧ g.serial = n
  m.besideClaim = l.besideClaim ∧
  ((l.queueFlying = true ∧ ∃ g, l.queue.head? = some g ∧ mine g) → m.queue = l.queue ∧ m.besideBid = l.besideBid ∧
    ∀ x, l.flight = some x → m.flight = some { x with dropBid := true }) ∧
  (¬ (l.queueFlying = true ∧ ∃ g, l.queue.head? = some g ∧ mine g) →
    m.queue = l.queue.filter (fun g => decide (¬ mine g)) ∧ m.besideBid = l.besideBid.filter (fun g => decide (¬ mine g)) ∧
    ∀ x, l.flight = some x → m.flight = some x)

/-- What a request or an event of claims alone may change in the LIF: the claim frames, the presence slot (R30), and an
attempt that begins. -/
def LifFrame (l m : Lif) : Prop :=
  m = { l with
    queue := m.queue, besideClaim := m.besideClaim, besideBid := m.besideBid, presence := m.presence, flight := m.flight
    lineIdle := m.lineIdle }

/-- What a change of the own HELD claims does to presence (R30): while one is pending or in flight, in ACTIVE and
ISOLATED, a fresh one is composed, handed to the slot (R15, R17) and taken as the own peer entry (R31); else both stay. -/
def Recomposed (s t : State) : Prop :=
  let l := s.lif
  let waits := (s.cle.lifecycle = .active ∨ s.cle.lifecycle = .isolated) ∧
    (l.presence.frame.isSome = true ∨ l.presence.beside.isSome = true ∨ ∃ x, l.flight = some x ∧ x.store = .presence)
  let f := t.presenceNow (if s.cle.lifecycle = .isolated then .isolated else .active)
  (waits → t.cle.peers.get s.own = some (PeerEntry.ofPresence f) ∧
    t.lif.presence = if l.flying .presence then { l.presence with beside := some (some f) } else ⟨some f, none⟩) ∧
  (¬ waits → t.cle.peers.get s.own = s.cle.peers.get s.own ∧ t.lif.presence = l.presence)

/-! ### The claim list after a heard claim (R54, R55) -/

/-- The list once a heard HOLD or BID is entered or updates its entry: a new one has its place by key, with four entries
of its station in the place of the oldest heard bid among them, the first of several, and none where there is no such
bid; a BID leaves a HELD entry as it is; a new urgency moves the entry. -/
def HeardEntered (c : Claim) (l after : List Claim) : Prop :=
  let bidOf := fun (e : Claim) (age : Nat) => e.name.station = c.name.station ∧ e.heardAge = some age
  match findClaim c.name l with
  | some d => after = if d.isHeld = true ∧ c.isHeld = false then l
      else if d.fields.urgency = c.fields.urgency then l.map (fun e => if e.name = c.name then c else e)
      else insertByKey c (eraseClaim c.name l)
  | none =>
    ((claimsOf c.name.station l).length < 4 → after = insertByKey c l) ∧
    (4 ≤ (claimsOf c.name.station l).length →
      (∀ a d b age, l = a ++ d :: b → bidOf d age → (∀ e ∈ a, ∀ y, bidOf e y → y < age) → (∀ e ∈ b, ∀ y, bidOf e y → y ≤ age) →
        after = insertByKey c (a ++ b)) ∧
      ((∀ e ∈ l, ∀ y, ¬ bidOf e y) → after = l))

/-- The queue once a BID held beside it is appended (R14). -/
def BesideAppended (q : List ClaimFrame) (beside : Option ClaimFrame) (m : Lif) : Prop :=
  match beside with
  | none => m.queue = q ∧ m.besideBid = none
  | some g => Appended [] q g m.queue m.besideBid

/-- The queue after an attempt that failed (R14, R15): the head gives its place to the frame held beside it, or goes where
its drop was asked, or stays. -/
def QueueFailed (l : Lif) (f : Flight) (m : Lif) : Prop :=
  let q := match l.besideClaim with
    | some h => h :: l.queue.tail
    | none => if f.dropBid then l.queue.tail else l.queue
  (f.store = .queue → BesideAppended q l.besideBid m ∧ m.besideClaim = none) ∧
    (f.store ≠ .queue → BesideAppended l.queue l.besideBid m ∧ m.besideClaim = l.besideClaim)

/-- An own TENTATIVE claim whose BID has not completed yet (R51, R53). -/
def WaitsToBid (s : State) (c : Claim) : Prop :=
  ownBidding s.own s.cle.claims = some c ∧ ∃ link, c.state = .bidding link none

/-- What a failed attempt leaves in ISOLATED (R53): a claim that waits to bid is abandoned; else the CLE is as before. -/
def FailedInIsolation (s : State) (f : Flight) (t : State) : Prop :=
  (∀ c, WaitsToBid s c → t.cle.claims = eraseClaim c.name s.cle.claims ∧
    t.cpt = s.cpt.raise (.claimResult c.name.serial .failedIsolated) ∧
    ∀ g ∈ t.lif.queue, isBidOf c.name.serial g = false) ∧
  ((∀ c, ¬ WaitsToBid s c) → t = { s with lif := t.lif } ∧ QueueFailed s.lif f t.lif)

/-- The queue after its head completed (R12, R14, R15): the head leaves, and the frame held beside it is appended. -/
def QueueCompleted (l m : Lif) : Prop :=
  m.besideClaim = none ∧ match l.besideClaim with
  | none => BesideAppended l.queue.tail l.besideBid m
  | some h => ∃ q left, Appended [] l.queue.tail h q left ∧ BesideAppended q (left.or l.besideBid) m

/-! ### Slots and filters (R15, R125) -/

/-- A slot after a failed attempt: what was held beside takes the frame's place, else the frame stays pending (R15). -/
def TxSlot.kept {α : Type} (t : TxSlot α) : TxSlot α := ⟨t.beside.getD t.frame, none⟩

/-- A slot whose frame left: what was held beside takes its place (R12, R15). -/
def TxSlot.left {α : Type} (t : TxSlot α) : TxSlot α := ⟨t.beside.getD none, none⟩

/-- A filter after one more sample: its declared state follows the second of two equal samples (R125). -/
def Filter.next (f : Filter) (x : Bool) : Filter := ⟨if f.last = some x then x else f.asserted, some x⟩

/-! ### Which commands are requests (R208, R209) -/

/-- Whether a command is a request transaction, which the part answers in its result holder. -/
def isRequest : Instr → Bool
  | .start | .restart | .setConfig .. | .readConfig .. | .setLevel .. | .applyLevels | .setSource .. | .publish ..
  | .unpublish .. | .claim .. | .release .. | .tune .. | .seek .. | .scan .. | .announceEnable .. | .faultAck ..
  | .readStatus .. | .readView .. | .readClaims | .readStations | .readLineError | .takeNotice
  | .malformedRequest .. => true
  | _ => false

/-- The CLAIM request that asks for these fields (R44, R210). -/
def claimCommand (f : ClaimFields) : Instr :=
  .claim (BitVec.ofNat 8 f.kind.code) (BitVec.ofNat 8 f.urgency.val) (f.zones.setWidth 8)
    (f.ref.map (fun n => BitVec.ofNat 8 n.val))

/-! ### Frames a station can send (R9, R11) -/

/-- The BID/HOLD field tests of R9: a zone set that is not empty, and a stream reference where the kind asks for one. -/
def ClaimFields.wf (f : ClaimFields) : Bool := f.zones != 0 && refFits f.kind f.ref

/-- A claim frame whose fields pass the format test. -/
def ClaimFrame.wf : ClaimFrame → Bool
  | .bid _ f => f.wf
  | .hold _ f => f.wf
  | .release _ => true

/-- A SOUND frame of a station: its own stream, 48 sample frames, equal channels in a mono frame, and a talk loss of at
most 48. -/
def SoundFrame.wf (own : StationNo) (f : SoundFrame) : Prop :=
  producerOf f.stream = own ∧ f.samples.length = Config.blockLen ∧ (f.stereo = false → ∀ x ∈ f.samples, x.l = x.r) ∧
    ∀ c, f.call = some c → c.talkLoss ≤ 48

/-- A PRESENCE frame of a station: at most two publish entries, of its own streams and no two of the same, and at most
four held claims that pass the field tests. -/
def PresenceFrame.wf (own : StationNo) (f : PresenceFrame) : Prop :=
  f.publish.length ≤ 2 ∧ (∀ e ∈ f.publish, producerOf e.stream = own) ∧ (f.publish.map PubEntry.stream).Nodup ∧
    f.held.length ≤ 4 ∧ ∀ e ∈ f.held, e.fields.wf = true

/-- The contents of a frame that a station with this number can send. -/
def FrameBody.wf (own : StationNo) : FrameBody → Prop
  | .claim f => f.wf = true
  | .sound f => f.wf own
  | .presence f => f.wf own

end Sys2Proof.Machine
end

