-- ==== Sys2Proof/Certificates/Slice0/Obligations.lean ====
section
/-! DEFINITION. The statements for the provers. -/

open Sys2Proof Sys2Proof.Machine

/-! ### The machine -/

/-- A step runs the command at the front of the queue on the station with the queue's rest. That it idles on an empty
queue is the model's choice, log 1. -/
def Obligations.StepRunsFrontCommand : Prop :=
  (∀ (c : Instr) (s : State), step { s with pending := c :: s.pending } = exec c s) ∧
    ∀ s : State, s.pending = [] → step s = .next s

/-- Every command leads to a next state. That it leaves the commands that wait as they are is about the model's own
queue, which is its choice: log 1, and for PIN_RESET log 23. -/
def Obligations.EveryCommandLeadsToANextState : Prop :=
  ∀ (c : Instr) (s : State), ∃ t, exec c s = .next t ∧ t.pending = s.pending

/-- PIN_RESET leads to the reset state, and that state has every value that the reset tables of the chapters and the
configuration items give. The reset values that no table gives, and that the commands that wait stay, are the model's
choices, logs 9 and 23; that its own mark on a buffer that returns from STARVED is clear, log 38. -/
def Obligations.PinResetGivesTheStatedValues : Prop :=
  (∀ s : State, exec .pinReset s = .next { State.reset with pending := s.pending }) ∧
  let s := State.reset
  let c := s.cpt.store
  (s.cle.lifecycle = .config ∧ s.cle.joining = 0 ∧ s.cle.presenceCount = 0 ∧ s.cle.claims = [] ∧
    (∀ p, s.cle.peers.get p = none) ∧ s.cle.serialCounter = 0 ∧ ∀ n, s.cle.marks.get n = false) ∧
  (s.lif.latch = .unlatched ∧ s.lif.lineIdle = false ∧ s.lif.queue = [] ∧ s.lif.besideClaim = none ∧
    s.lif.besideBid = none ∧ (∀ i, s.lif.sound.get i = ⟨none, none⟩) ∧ s.lif.presence = ⟨none, none⟩ ∧
    s.lif.bitErrorRun = 0 ∧ s.lif.noIdle = 0 ∧ s.lif.idleSeen = false ∧ s.lif.errorCount = 0 ∧
    s.lif.errorRecord = none) ∧
  (s.pub.aux0 = ⟨.programme, false⟩ ∧ s.pub.aux1 = ⟨.programme, false⟩ ∧ s.pub.radioClass = .programme ∧
    s.pub.radioPriv = false ∧ ∀ i, s.pub.slots.get i = .idle) ∧
  ((∀ n, let e := s.iku.heard.get n
    e.state = .never ∧ e.lastSeq = none ∧ e.cls = .programme ∧ e.priv = false ∧ e.stereo = true) ∧ s.iku.callLoss = [] ∧ s.iku.waiting = [] ∧
    ∀ i, let b := s.iku.buffers.get i
      b.state = .free ∧ b.stream = none ∧ b.static = false ∧ b.ring = [] ∧ b.expected = none ∧ b.highRun = 0 ∧
        b.lowRun = 0 ∧ b.gap = false ∧ b.force = false ∧ b.returning = false) ∧
  ((∀ z, s.mxe.live.get z = 48 ∧ s.mxe.staged.get z = 48) ∧ s.mxe.apply = false ∧ s.mxe.fallback = false ∧
    ∀ o sl, let f := (s.mxe.feeds.get o).get sl
      f.active = false ∧ f.resolved = none ∧ f.claim = none ∧ f.served = false ∧ f.target = 128 ∧ f.current = 128 ∧
        f.releaseCount = 0) ∧
  ((∀ b, let r := s.ost.bridges.get b
    r.state = .off ∧ r.sense = .split ∧ r.hold = 0 ∧ r.ocHistory = [] ∧ r.ocLock = false ∧ r.clip = 0 ∧ r.derate = 0 ∧
      r.thermal = 0 ∧ r.calm = 0 ∧ r.dcOn = false ∧ r.dcCount = 0) ∧
    (∀ src, s.ost.filter src = ⟨false, none⟩) ∧ s.impaired = 0) ∧
  (s.rdu.active = .a ∧ (∀ p, s.rdu.path p = ⟨none, 0, none, none, ⟨none, none, Tbl.fill 4 none, none, none, []⟩⟩) ∧
    s.rdu.mode = .idle ∧ s.rdu.holdOff = 20 ∧ s.rdu.divRun = 0 ∧ s.rdu.low = ⟨true, false⟩ ∧ s.rdu.good = ⟨false, false⟩ ∧
    s.rdu.afTimer = none ∧ s.rdu.probe = none ∧ s.rdu.scanEnable = false ∧ s.rdu.announceEnable = true ∧
    s.rdu.stations = [] ∧ s.rdu.scanPos = 0 ∧ s.rdu.seek = none ∧ s.rdu.ann = ⟨false, none, 0, 0, 0⟩) ∧
  (s.pku.call = none ∧ s.pku.candidates = 0 ∧ s.pku.echo = none ∧ s.pku.echoServed = false ∧ s.pku.selected = none ∧
    s.pku.challenger = none ∧ s.pku.run = 0 ∧ s.pku.ld = 128 ∧ (∀ m, s.pku.lm.get m = 128) ∧ s.pku.far = 0 ∧
    s.pku.near = 0 ∧ s.pku.supp = .idle ∧ s.pku.su = 0 ∧ s.pku.sd = 0) ∧
  (s.cpt.fixed = false ∧ s.cpt.result = ⟨0, .accepted, false, []⟩ ∧ (∀ i, s.cpt.notices.get i = none) ∧
    s.cpt.atn = false) ∧
  (c.station = none ∧ (∀ o, c.zones.get o = 0) ∧
    (∀ (o : OutputNo) sl, c.feed o sl = ⟨.none, if o.val < 8 then .mid else .stereo, 0, false⟩) ∧
    c.duck.toList.map Tbl.toList = [[24, 16, 0, 0], [12, 12, 0, 0], [16, 0, 0, 0], [12, 8, 4, 0], [128, 128, 0, 0]] ∧
    c.ceiling = 16 ∧ c.fallbackZone = .pas ∧ c.attack = 4 ∧ c.releaseInterval = 2 ∧ (∀ b, c.deadtime.get b = 0) ∧
    (∀ d, c.faultMap.get d = 255) ∧ c.tsLatched = true ∧ c.flt0Latched = false ∧ c.flt1Latched = false ∧
    (∀ m, c.micZone.get m = none ∧ c.micTrim.get m = 0) ∧ c.pickupSlot = 1 ∧ c.callLoss = 36 ∧ c.farThreshold = 60 ∧
    c.nearThreshold = 70 ∧ c.coupling = 16 ∧ c.frontEnds = .ab ∧ c.diversity = true ∧ c.scanDefault = false ∧
    c.announceDefault = true ∧ c.announceZones = 31 ∧ c.lowThreshold = 20 ∧ c.goodThreshold = 45 ∧ c.lowEdge = .both ∧
    c.goodEdge = .off)

/-! ### What every step keeps -/

/-- The attention line agrees with the notice set after every step (R219). -/
def Obligations.AttentionKept : Prop :=
 ∀ s t : State, AttentionAgrees s → step s = .next t → AttentionAgrees t

/-- A bridge is enabled only while its hold set is empty, and only an enabled bridge switches, after every step. -/
def Obligations.BridgesKeptSafe : Prop :=
 ∀ s t : State, BridgesSafe s → step s = .next t → BridgesSafe t

/-- After every step no intake buffer holds more than 192 sample frames and the claim-frame queue at most 8 frames;
feed attenuations and zone levels stay within 0..128, and derates within 0..24; duties stay within 1..255, base duties
within 8..248 and deadtimes within 0..7; no FREE buffer is assigned and no two to one stream; the station list keeps
its order. -/
def Obligations.BoundsKept : Prop :=
  ∀ s t : State, step s = .next t →
    (FillsBounded s → FillsBounded t) ∧ (QueueBounded s → QueueBounded t) ∧ (FeedsBounded s → FeedsBounded t) ∧
      (LevelsBounded s → LevelsBounded t) ∧ (DeratesBounded s → DeratesBounded t) ∧ (DutiesBounded s → DutiesBounded t) ∧
      (BuffersAssigned s → BuffersAssigned t) ∧ (StationsOrdered s → StationsOrdered t)

/-- While a pickup is active, Su plus Sd equals the call loss after every step, and in CONFIG none is active. -/
def Obligations.LossSplitKept : Prop :=
 ∀ s t : State, SplitAgrees s → step s = .next t → SplitAgrees t

/-- The claim list keeps its names distinct, four entries a station at most, only own bids and one of them at most,
and the key order, after every step; in CONFIG it and the peer table stay empty. -/
def Obligations.ClaimListKept : Prop :=
  ∀ s t : State, step s = .next t →
    (QueueBounded s → ClaimsBounded s → ClaimsOrdered s → OneBid s → ClaimsBounded t ∧ ClaimsOrdered t ∧ OneBid t) ∧
    (ConfigQuiet s → ConfigQuiet t)

/-- The state after pin reset has every one of these properties. -/
def Obligations.ResetMeetsTheInvariants : Prop :=
  AttentionAgrees State.reset ∧ BridgesSafe State.reset ∧ FillsBounded State.reset ∧ FeedsBounded State.reset ∧
    LevelsBounded State.reset ∧ SplitAgrees State.reset ∧ QueueBounded State.reset ∧ ConfigQuiet State.reset ∧
    ClaimsBounded State.reset ∧ ClaimsOrdered State.reset ∧ OneBid State.reset ∧ DutiesBounded State.reset ∧
    DeratesBounded State.reset ∧ BuffersAssigned State.reset ∧ StationsOrdered State.reset

/-- From START until the next pin reset the configuration store stays as it is and CONFIG is not entered; a latched
polarity stays latched until pin reset. -/
def Obligations.OnlyPinResetUndoes : Prop :=
  ∀ (c : Instr) (s t : State), c ≠ .pinReset → exec c s = .next t →
    (s.inConfig = false → t.cpt.store = s.cpt.store ∧ t.cpt.fixed = s.cpt.fixed ∧ t.inConfig = false) ∧
    (s.lif.latch ≠ .unlatched → t.lif.latch = s.lif.latch)

/-! ### Lifecycle (R22 to R37) -/

/-- START: NOT_READY outside CONFIG; in CONFIG the checks in their order, and on acceptance JOINING, a fixed store and each
block in its operation of START. Every feed slot takes its inactive values; the static buffers are allocated in order,
emptied and STARVED; A is active and untuned, the enables take their defaults and the control chooses the mode of path B.
A used bridge enters RUN where its hold set is empty, else LOCKED or HALTED with a BRIDGE_FAULT notice; an unused one
stays as it is. The rest of the Intake and the Radio Unit is as pin reset set it. The bytes of CONFIG_INVALID, which
failing slot it names, the order of the notices, and the reset values that no table gives are the model's choices, logs
10, 45, 25 and 9; the mark on a returning buffer is its own, log 38. -/
def Obligations.StartValidatesAndJoins : Prop :=
  ∀ s : State,
    let c := s.cpt.store
    let fails := fun (o : OutputNo) (sl : SlotNo) => c.used o = false ∧ (c.feed o sl).selector ≠ .none
    (s.inConfig = false → exec .start s = .next (s.answer .notReady [])) ∧
    (s.inConfig = true → c.station = none → exec .start s = .next (s.answer .configInvalid [0])) ∧
    (s.inConfig = true → c.station ≠ none → ∀ (o : OutputNo) (sl : SlotNo), fails o sl →
      (∀ (p : OutputNo) (k : SlotNo), fails p k → o < p ∨ o = p ∧ sl ≤ k) →
      exec .start s = .next (s.answer .configInvalid ([1] ++ num1 o.val ++ num1 sl.val))) ∧
    (s.inConfig = true → c.station ≠ none → (∀ (o : OutputNo) (sl : SlotNo), ¬ fails o sl) →
      let streams := staticStreams c s.own
      (6 < streams.length → exec .start s = .next (s.answer .configInvalid ([2] ++ num1 streams.length))) ∧
      (streams.length ≤ 6 → ∃ t, exec .start s = .next t ∧
        let latched := fun (b : Bridge) => ∃ k, holds b.hold k = true ∧ LatchedFor c b k
        t = { s with cle := t.cle, iku := t.iku, mxe := t.mxe, ost := t.ost, rdu := t.rdu, cpt := t.cpt } ∧
        t.cle = { s.cle with lifecycle := .joining, joining := 0 } ∧
        t.cpt = Cpt.answer { s.cpt.raiseAll (heldNotices s t) with fixed := true } .accepted [] ∧
        t.mxe = { s.mxe with feeds := t.mxe.feeds } ∧
        (∀ (o : OutputNo) (sl : SlotNo), let f := (t.mxe.feeds.get o).get sl
          f.active = false ∧ f.resolved = none ∧ f.claim = none ∧ f.served = false ∧ f.target = 128 ∧ f.current = 128 ∧
            f.releaseCount = 0) ∧
        t.iku = { Iku.reset with buffers := t.iku.buffers } ∧
        (∀ i : BufferNo, let b := t.iku.buffers.get i
          b.stream = streams[i.val]? ∧ b.static = b.stream.isSome ∧ b.state = (if b.stream = none then .free else .starved) ∧
            b.ring = [] ∧ b.expected = none ∧ b.highRun = 0 ∧ b.lowRun = 0 ∧ b.gap = false ∧ b.force = false ∧
            b.returning = false) ∧
        t.ost = { s.ost with bridges := t.ost.bridges } ∧
        (∀ i : BridgeNo,
          let b := s.ost.bridges.get i
          let u := t.ost.bridges.get i
          (c.bridgeUsed i = false → u = b) ∧
          (c.bridgeUsed i = true → u = { b with state := u.state } ∧ (b.hold = 0 → u.state = .run) ∧
            (b.hold ≠ 0 → latched b → u.state = .locked) ∧ (b.hold ≠ 0 → ¬ latched b → u.state = .halted))) ∧
        t.rdu = { Rdu.reset with
          radio := s.rdu.radio, scanEnable := c.scanDefault, announceEnable := c.announceDefault
          mode := if c.frontEnds = .ab ∧ c.diversity = true then .diversity else .idle }))

/-- RESTART: NOT_READY in CONFIG; elsewhere the station joins again with an empty view, empty stores and an empty
notice set, and keeps its configuration, its latch, its capture, its levels and its protection state; bridges play
silence, path B stays where it is while its new mode is IDLE, and every announcement, seek and probe ends. A frame in
flight finishes its attempt, cut off from its store. That a cut-off frame is so marked, that the bridges play zeros and
that path B keeps its channel there are the model's readings, logs 7, 40 and 41; that every feed is inactive at once, as
R115 says, and not at the next boundary, as R207 says of follow feeds, is its choice, log 46; the mark on a returning
buffer is its own, log 38. -/
def Obligations.RestartJoinsAgain : Prop :=
  ∀ s : State,
    (s.inConfig = true → exec .restart s = .next (s.answer .notReady [])) ∧
    (s.inConfig = false → ∃ t, exec .restart s = .next t ∧
      t.cle.lifecycle = .joining ∧ t.cle.joining = 0 ∧ t.cle.claims = [] ∧ (∀ p, t.cle.peers.get p = none) ∧
      t.cle.serialCounter = s.cle.serialCounter ∧
      t.lif.queue = [] ∧ t.lif.besideClaim = none ∧ t.lif.besideBid = none ∧
      (∀ i, (t.lif.sound.get i).frame = none ∧ (t.lif.sound.get i).beside = none) ∧ t.lif.presence = ⟨none, none⟩ ∧
      t.lif.bitErrorRun = 0 ∧ t.lif.noIdle = 0 ∧ t.lif.idleSeen = false ∧ t.lif.latch = s.lif.latch ∧
      t.lif.lineIdle = s.lif.lineIdle ∧ t.lif.errorCount = s.lif.errorCount ∧ t.lif.errorRecord = s.lif.errorRecord ∧
      t.lif.flight = s.lif.flight.map (fun f => { f with orphan := true }) ∧ t.cle.presenceCount = 0 ∧
      t.rdu.mode = (if s.cpt.store.frontEnds = .ab ∧ s.cpt.store.diversity = true then .diversity else .idle) ∧
      (∀ i, t.pub.slots.get i = .idle) ∧ t.pub.aux0 = s.pub.aux0 ∧ t.pub.aux1 = s.pub.aux1 ∧
      t.pub.radioPriv = s.pub.radioPriv ∧ t.pub.radioClass = .programme ∧
      (∀ n, t.cle.marks.get n = false ∧ (t.iku.heard.get n).state = .never) ∧ t.iku.callLoss = [] ∧ t.iku.waiting = [] ∧
      (∀ i : BufferNo, let b := t.iku.buffers.get i
        b.ring = [] ∧ b.force = false ∧ b.returning = false ∧ b.stream = (staticStreams s.cpt.store s.own)[i.val]? ∧
          b.state = if b.stream = none then .free else .starved) ∧
      t.mxe.live = s.mxe.live ∧ t.mxe.staged = s.mxe.staged ∧ t.mxe.apply = false ∧ t.mxe.fallback = false ∧
      (∀ o sl, ((t.mxe.feeds.get o).get sl).active = false ∧ ((t.mxe.feeds.get o).get sl).current = 128) ∧
      (∀ i, t.ost.bridges.get i = { s.ost.bridges.get i with
        clip := 0, block := (s.ost.bridges.get i).block.map (fun _ => 0) }) ∧
      t.ost = { s.ost with bridges := t.ost.bridges } ∧
      t.pku = Pku.inactive ∧ t.rdu.active = .a ∧ t.rdu.pathA.tuned = s.rdu.activeRec.tuned ∧
      (t.rdu.pathA.tuned ≠ none → t.rdu.pathA.settle = 2 ∧ t.rdu.pathA.qs16 = none) ∧
      (t.rdu.mode = .idle → t.rdu.pathB.tuned = s.rdu.pathB.tuned) ∧
      (t.rdu.mode = .diversity → t.rdu.pathA.tuned ≠ none → t.rdu.pathB.tuned = t.rdu.pathA.tuned ∧ t.rdu.pathB.settle = 2) ∧
      (∀ p, (t.rdu.path p).prepared = none ∧ (t.rdu.path p).data = ProgData.cleared) ∧ t.rdu.holdOff = 0 ∧
      t.rdu.crossfade = false ∧ t.rdu.low = ⟨true, false⟩ ∧ t.rdu.good = ⟨false, false⟩ ∧ t.rdu.afTimer = none ∧
      t.rdu.probe = none ∧ t.rdu.seek = none ∧ t.rdu.stations = [] ∧ t.rdu.scanPos = 0 ∧ t.rdu.ann = ⟨false, none, 0, 0, 0⟩ ∧
      t.rdu.scanEnable = s.cpt.store.scanDefault ∧ t.rdu.announceEnable = s.cpt.store.announceDefault ∧
      t.cpt.store = s.cpt.store ∧ t.cpt.fixed = s.cpt.fixed ∧ (∀ i, t.cpt.notices.get i = none) ∧ t.cpt.atn = false ∧
      t.cpt.result = ⟨s.cpt.result.number + 1, .accepted, true, []⟩)

/-- The joining counter at 60 makes the station ACTIVE with a presence handed to its slot; the presence counter at 50
hands a presence in ACTIVE and a probe in ISOLATED; each then may begin an attempt. The block boundary that brings a
counter there does the same, but for one that isolates: what it composes is taken as the own peer entry too. The
impaired zones that a presence carries are those that a bridge serves, and of whose bridges none is in RUN. That a
boundary steps the counters after its other work, and not where it isolates, is the model's reading, log 4. -/
def Obligations.PresenceIsComposedWhenDue : Prop :=
  (∀ s : State,
    (s.cle.lifecycle = .joining → s.cle.joining = 59 →
      exec .joiningComplete s = .next (State.arbitrate { s with
        cle := s.withOwnEntry { s.cle with lifecycle := .active, joining := 60, presenceCount := 0 } (s.presenceNow .active)
        lif := s.lif.handPresence (s.presenceNow .active) })) ∧
    (s.cle.lifecycle = .active → s.cle.presenceCount = 49 →
      exec .presenceDue s = .next (State.arbitrate { s with
        cle := s.withOwnEntry { s.cle with presenceCount := 0 } (s.presenceNow .active)
        lif := s.lif.handPresence (s.presenceNow .active) })) ∧
    (s.cle.lifecycle = .isolated → s.cle.presenceCount = 49 →
      exec .probeDue s = .next (State.arbitrate { s with
        cle := s.withOwnEntry { s.cle with presenceCount := 0 } (s.presenceNow .isolated)
        lif := s.lif.handPresence (s.presenceNow .isolated) }))) ∧
  (∀ s : State, (s.cle.lifecycle = .joining ∧ s.cle.joining = 59 ∨
      s.cle.lifecycle = .active ∧ s.cle.presenceCount = 49 ∧ ¬ s.isolatesAtBoundary ∨
      s.cle.lifecycle = .isolated ∧ s.cle.presenceCount = 49) →
    ∃ t, exec .blockBoundary s = .next t ∧
      let f := t.presenceNow (if s.cle.lifecycle = .isolated then .isolated else .active)
      t.cle.lifecycle = (if s.cle.lifecycle = .isolated then .isolated else .active) ∧ t.cle.presenceCount = 0 ∧
      t.cle.peers.get s.own = some (PeerEntry.ofPresence f) ∧
      t.lif.presence = if s.lif.flying .presence then { s.lif.presence with beside := some (some f) } else ⟨some f, none⟩) ∧
  ∀ (s : State) (z : Zone),
    let serves := fun (b : BridgeNo) => zoneIn (s.cpt.store.zones.get ⟨b.val, by omega⟩) z = true
    zoneIn s.impaired z = true ↔
      s.inConfig = false ∧ (∃ b, serves b) ∧ ∀ b, serves b → (s.ost.bridges.get b).state ≠ .run

/-- The sixteenth bit error in a row and the second boundary without idle isolate an ACTIVE station: the slots are
discarded, the counters start again, the claims that bid not and the peer table stay, and a LINE notice tells the
cause. The claim-frame queue keeps its frames, the failed one as the bit error leaves it. An own bid whose BID has not
been sent, and is not in flight, is abandoned with CLAIM_RESULT FAILED, ISOLATED and its BID dropped; one with a window
stays as it is. A sound or presence frame in flight at the isolation by no idle, alone or at a block boundary, is cut off
from its store, and a claim frame goes on with its attempt. What a bit error leaves in the queue, and the mark on a
cut-off frame, are the model's readings, logs 17 and 7. -/
def Obligations.IsolationDiscardsSlotsAndKeepsClaims : Prop :=
  ∀ s : State, s.cle.lifecycle = .active →
    let bids := fun (t : State) (m : Lif) (sent : Claim → Prop) =>
      let old := s.cpt.notices.get 3
      (∀ c, WaitsToBid s c → ¬ sent c → t.cle.claims = eraseClaim c.name s.cle.claims ∧
        t.cpt.notices.get 3 = some (raisedEntry old (.claimResult c.name.serial .failedIsolated)) ∧
        t.lif.queue = m.queue.filter (fun g => !isBidOf c.name.serial g) ∧ t.lif.besideClaim = m.besideClaim ∧
        t.lif.besideBid = m.besideBid.filter (fun g => !isBidOf c.name.serial g)) ∧
      ((∀ c, WaitsToBid s c → sent c) → t.cle.claims = s.cle.claims ∧ t.cpt.notices.get 3 = old ∧
        t.lif.queue = m.queue ∧ t.lif.besideClaim = m.besideClaim ∧ t.lif.besideBid = m.besideBid)
    (∀ f, s.lif.flight = some f → s.lif.bitErrorRun = 15 →
      exec .bitErrorIsolation s = exec .bitError s ∧ ∃ (t : State) (m : Lif), exec .bitErrorIsolation s = .next t ∧
        t.lif.flight = none ∧ t.cpt.notices.get 0 = some (raisedEntry (s.cpt.notices.get 0) (.isolated .bitErrors)) ∧
        Isolated s t ∧ bids t m (fun _ => False) ∧ (f.orphan = false → QueueFailed s.lif f m) ∧
        (f.orphan = true → BesideAppended s.lif.queue s.lif.besideBid m ∧ m.besideClaim = s.lif.besideClaim)) ∧
    let goesOn := s.lif.flight.map (fun f => if f.store = .queue then f else { f with orphan := true })
    (s.lif.anyPending = true → s.lif.idleSeen = false → s.lif.noIdle = 1 →
      ∃ t, exec .noIdleIsolation s = .next t ∧ t.lif.flight = goesOn ∧
        t.cpt.notices.get 0 = some (raisedEntry (s.cpt.notices.get 0) (.isolated .noIdle)) ∧ Isolated s t ∧
        bids t s.lif (fun c => s.lif.bidFlying c.name.serial = true)) ∧
    (s.isolatesAtBoundary = true → ∃ t, exec .blockBoundary s = .next t ∧ t.lif.flight = goesOn)

/-- A peer entry of age 159 expires at the next count: its claims go, its streams starve, the entry empties, and a
PEER notice names it. So it does at the block boundary, with the buffers of its streams, emptied; of several PEER
notices the last one stays, and that they come in ascending station number is the model's choice, log 43. The mark on
the returning buffer is its own, log 38. -/
def Obligations.PeerExpiryRemovesThePeer : Prop :=
  (∀ (s : State) (p : StationNo) (e : PeerEntry), s.inConfig = false → p ≠ s.own → s.cle.peers.get p = some e →
    e.age = 159 →
    exec (.peerExpiry p) s = .next { s with
      cle := { s.cle with claims := s.cle.claims.filter (fun c => c.name.station != p), peers := s.cle.peers.set p none }
      iku := (s.iku.starve (streamOf p 0)).starve (streamOf p 1)
      cpt := s.cpt.raise (.peerExpired p) }) ∧
  ∀ s : State, s.inConfig = false → BuffersAssigned s → ∃ t, exec .blockBoundary s = .next t ∧
    (∀ p, s.peerExpires p = true → t.cle.peers.get p = none ∧ (∀ c ∈ t.cle.claims, c.name.station ≠ p) ∧
      ∀ n, producerOf n = p → (t.iku.heard.get n).state ≠ .live ∧
        ∀ i : BufferNo, (s.iku.buffers.get i).stream = some n → (t.iku.buffers.get i).stream = some n →
          (t.iku.buffers.get i).state = .starved ∧
          (((s.iku.buffers.get i).state = .priming ∨ (s.iku.buffers.get i).state = .running) →
            Emptied (s.iku.buffers.get i) (t.iku.buffers.get i))) ∧
    t.cpt.notices.get 5 = ((List.finRange 8).filter s.peerExpires).foldl
      (fun e p => some (raisedEntry e (.peerExpired p))) (s.cpt.notices.get 5)

/-! ### The Control Port (10) -/

/-- Every request is answered with the next request number and a fresh result, and SDO is low in its transaction; no
event touches the result or SDO, but for a read transaction, which shifts the result out and clears fresh once the
status was shifted out, a discarded transaction, in which SDO is low, and pin reset. What stands for SDO is the model's
choice, log 26. -/
def Obligations.EveryRequestIsAnswered : Prop :=
  ∀ (c : Instr) (s t : State), exec c s = .next t →
    (isRequest c = true → t.cpt.sdo = [] ∧ ∃ st d, t.cpt.result = ⟨s.cpt.result.number + 1, st, true, d⟩) ∧
    (isRequest c = false → c ≠ .pinReset →
      t.cpt.result = { s.cpt.result with
        fresh := match c with
          | .readTransaction n => s.cpt.result.fresh && decide (n < 3)
          | _ => s.cpt.result.fresh } ∧
      t.cpt.sdo = match c with
        | .readTransaction n => readBytes s.cpt.result n
        | .discardedTransaction _ => []
        | _ => s.cpt.sdo)

/-- A read transaction shifts out request number, status, fresh flag, length and data, and changes nothing but the
fresh flag and what SDO carried; a malformed request is answered BAD_ARGUMENT with no other effect; a discarded
transaction changes nothing, with SDO low. What stands for SDO is the model's choice, log 26. -/
def Obligations.OtherTransactionsChangeThePortAlone : Prop :=
  (∀ (s : State) (n : Nat),
    ∃ t, exec (.readTransaction n) s = .next t ∧ t.cpt.sdo = readBytes s.cpt.result n ∧
      t = { s with cpt := { s.cpt with sdo := t.cpt.sdo, result := t.cpt.result } } ∧
      t.cpt.result = { s.cpt.result with fresh := s.cpt.result.fresh && decide (n < 3) }) ∧
  ∀ (s : State) (bytes : List Byte),
    exec (.malformedRequest bytes) s = .next (s.answer .badArgument []) ∧ 
    exec (.discardedTransaction bytes) s = .next { s with cpt := { s.cpt with sdo := [] } }

/-- The port reads back every command that is a transaction from the bytes of that transaction, and from its bits on
SDI, most significant first, with a partial byte at the end dropped. -/
def Obligations.TransactionsDecodeToTheirCommands : Prop :=
  ∀ (i : Instr) (bytes : List Byte), i.wellFormed = true → encodeTransaction i = some bytes →
    decodeTransaction bytes = i ∧
    ∀ extra : List Bool, extra.length < 8 → decodeSdi (bytes.flatMap bitsOfByte ++ extra) = i

/-- SET_CONFIG is answered NOT_READY outside CONFIG and BAD_ARGUMENT for every item, index and value that the item
table refuses; every other one is stored and answered with the value stored. Each item's value lands in its own field
of the store: the numbers clamped to their ranges, the others as they were written. The answer's byte for the station
number is the model's choice, log 10; the argument byte of a selector without one and the clearing modes that may be
named are its readings, logs 30 and 15. -/
def Obligations.SetConfigWritesOrRefuses : Prop :=
  (∀ (s : State) (item index : Byte) (v : List Byte),
    (s.inConfig = false → exec (.setConfig item index v) s = .next (s.answer .notReady [])) ∧
    (s.inConfig = true → ¬ itemTakes item.toNat index.toNat v →
      exec (.setConfig item index v) s = .next (s.answer .badArgument [])) ∧
    (s.inConfig = true → itemTakes item.toNat index.toNat v →
      ∃ d, s.cpt.store.write item.toNat index.toNat v = some d ∧ exec (.setConfig item index v) s = .next
        (State.answer { s with cpt := { s.cpt with store := d } } .accepted (storedValue item.toNat v)))) ∧
  ∀ (c : Store) (b : Byte),
    let n := b.toNat
    (∀ p : StationNo, n = p.val → c.write 0 0 [b] = some { c with station := some p }) ∧
    (∀ o : Fin 10, n < 32 → (8 ≤ o.val → (zonesOf (b.setWidth 5)).length ≤ 1) →
      c.write 1 o.val [b] = some { c with zones := c.zones.set o (b.setWidth 5) }) ∧
    (∀ (o : OutputNo) (sl : SlotNo) (f : FeedConfig), f.selector ≠ .follow .quiet → (o.val < 8 ↔ f.pick ≠ .stereo) →
      c.write 2 (4 * o.val + sl.val)
          (selectorBytes f.selector ++ [BitVec.ofNat 8 f.pick.code, b, if f.fallbackOnly then 1 else 0]) =
        some { c with feeds := c.feeds.set o ((c.feeds.get o).set sl { f with trim := min 32 n }) }) ∧
    (∀ (k : ClaimKind) (cl : SoundClass), c.write 3 (4 * k.code + cl.code) [b] =
      some { c with duck := c.duck.set k.idx ((c.duck.get k.idx).set cl.idx (min 128 n)) }) ∧
    c.write 4 0 [b] = some { c with ceiling := min 24 n } ∧
    (∀ z : Zone, z ≠ .drv → n = z.code → c.write 5 0 [b] = some { c with fallbackZone := z }) ∧
    c.write 6 0 [b] = some { c with attack := max 1 (min 16 n) } ∧
    c.write 7 0 [b] = some { c with releaseInterval := max 1 (min 16 n) } ∧
    (∀ i : BridgeNo, c.write 8 i.val [b] = some { c with deadtime := c.deadtime.set i (min 7 n) }) ∧
    (∀ i : Fin 4, c.write 9 i.val [b] = some { c with faultMap := c.faultMap.set i b }) ∧
    (∀ x : Bool, n = x.toNat → c.write 10 0 [b] = some { c with tsLatched := x } ∧
      c.write 10 2 [b] = some { c with flt0Latched := x } ∧ c.write 10 3 [b] = some { c with flt1Latched := x } ∧
      c.write 19 0 [b] = some { c with diversity := x } ∧ c.write 20 0 [b] = some { c with scanDefault := x } ∧
      c.write 21 0 [b] = some { c with announceDefault := x }) ∧
    (∀ m : MicNo, (n = 0 → c.write 11 m.val [b] = some { c with micZone := c.micZone.set m none }) ∧
      (∀ z : Zone, n = 2 ^ z.code → c.write 11 m.val [b] = some { c with micZone := c.micZone.set m (some z) }) ∧
      c.write 12 m.val [b] = some { c with micTrim := c.micTrim.set m (min 32 n) }) ∧
    (∀ i : PubSlotNo, n = i.val → c.write 13 0 [b] = some { c with pickupSlot := i }) ∧
    c.write 14 0 [b] = some { c with callLoss := max 24 (min 48 n) } ∧
    c.write 15 0 [b] = some { c with farThreshold := min 128 n } ∧
    c.write 16 0 [b] = some { c with nearThreshold := min 128 n } ∧
    c.write 17 0 [b] = some { c with coupling := min 48 n } ∧
    (∀ x : FrontEnds, n = x.code → c.write 18 0 [b] = some { c with frontEnds := x }) ∧
    (0 < n → n < 32 → c.write 22 0 [b] = some { c with announceZones := b.setWidth 5 }) ∧
    c.write 23 0 [b] = some { c with lowThreshold := min 100 n } ∧
    c.write 24 0 [b] = some { c with goodThreshold := min 100 n } ∧
    ∀ x : Edge, n = x.code → c.write 25 0 [b] = some { c with lowEdge := x } ∧ c.write 26 0 [b] = some { c with goodEdge := x }

/-- An item reads as the value written, a number as its clamp; that value is the answer's, it can be written back
without a change, and no other item reads otherwise. The answer's byte for the station number is the model's choice,
log 10. -/
def Obligations.ConfigurationReadsWhatWasWritten : Prop :=
  ∀ (c d : Store) (item index : Nat) (v : List Byte), c.write item index v = some d →
    d.read item index = some (if item = 0 then 1 :: v else storedValue item v) ∧
    d.stored item index = storedValue item v ∧ d.write item index (storedValue item v) = some d ∧
    ∀ i j : Nat, (i ≠ item ∨ j ≠ index) → d.read i j = c.read i j

/-- The read requests change nothing but the result: READ_CONFIG, READ_STATUS, READ_VIEW, READ_CLAIMS and
READ_STATIONS answer ACCEPTED with what they read where their argument names something, and BAD_ARGUMENT where it does
not. READ_CLAIMS and READ_STATIONS give the count and every entry in list order. READ_LINE_ERROR answers with the failure
count and the record, and clears both in the same request. The form of the bytes and what the record holds are in part
the model's choices and readings, logs 10 and 22. -/
def Obligations.ReadRequestsChangeOnlyTheResult : Prop :=
  (∀ (s : State) (a b : Byte),
    exec (.readConfig a b) s = .next (match s.cpt.store.read a.toNat b.toNat with
      | some d => s.answer .accepted d
      | none => s.answer .badArgument []) ∧
    (a.toNat ≤ 6 → ∃ d, sectionStatus s a.toNat = some d ∧ exec (.readStatus a) s = .next (s.answer .accepted d)) ∧
    (6 < a.toNat → exec (.readStatus a) s = .next (s.answer .badArgument [])) ∧
    (∀ p : StationNo, a.toNat = p.val → exec (.readView a) s = .next (s.answer .accepted (viewBytes (s.cle.peers.get p)))) ∧
    (7 < a.toNat → exec (.readView a) s = .next (s.answer .badArgument [])) ∧
    exec .readClaims s = .next (s.answer .accepted
      (BitVec.ofNat 8 s.cle.claims.length :: s.cle.claims.flatMap (claimBytes s.cle))) ∧
    exec .readStations s = .next (s.answer .accepted
      (BitVec.ofNat 8 s.rdu.stations.length :: s.rdu.stations.flatMap stationBytes))) ∧
  ∀ s : State, exec .readLineError s = .next (State.answer { s with lif := { s.lif with errorCount := 0, errorRecord := none } }
    .accepted (num2 s.lif.errorCount ++ opt1 recordBytes s.lif.errorRecord))

/-- TAKE_NOTICE takes the pending entry of highest priority and empties its place; with none pending it answers NONE
with count 0, whose bytes are the model's choice, log 10. A raise puts the notice in the place of its kind, with count
1 or one more up to 255, asserts ATN, and leaves every other place. -/
def Obligations.NoticesWaitByPriority : Prop :=
  (∀ s : State,
    (∀ (i : Fin 14) (e : NoticeEntry), s.cpt.notices.get i = some e → (∀ j < i, s.cpt.notices.get j = none) →
      ∃ t, exec .takeNotice s = .next (State.answer t .accepted (noticeBytes i e)) ∧ t = { s with cpt := t.cpt } ∧
        t.cpt.notices = s.cpt.notices.set i none ∧ t.cpt.store = s.cpt.store ∧ t.cpt.fixed = s.cpt.fixed) ∧
    ((∀ i, s.cpt.notices.get i = none) → exec .takeNotice s = .next (s.answer .accepted [0, 0]))) ∧
  ∀ (c : Cpt) (n : Notice), (c.raise n).atn = true ∧
    (c.notices.get n.place = none → (c.raise n).notices.get n.place = some ⟨1, n⟩) ∧
    (∀ e, c.notices.get n.place = some e → (c.raise n).notices.get n.place = some ⟨min 255 (e.count + 1), n⟩) ∧
    ∀ i, i ≠ n.place → (c.raise n).notices.get i = c.notices.get i

/-! ### The Publisher (04) -/

/-- SET_SOURCE writes the class and private flag of an AUX source and the private flag of RADIO, and refuses a class
for RADIO, and PICKUP or an unknown source. PUBLISH in ACTIVE starts the open slot at sequence 0, or gives a
publishing slot the new source with its sequence kept; it refuses another slot or source, and every other lifecycle
state. UNPUBLISH outside CONFIG stops the open slot and hands the LIF an empty frame, accepts an idle open slot with
no change, and refuses another slot. -/
def Obligations.PublisherRequestsAct : Prop :=
  (∀ (s : State) (flag : Byte),
    let p := flag != 0
    let wrote := fun (q : Pub) => Host.Outcome.next (State.answer { s with pub := q } .accepted [])
    (∀ k : SoundClass,
      exec (.setSource 1 flag (some (BitVec.ofNat 8 k.code))) s = wrote { s.pub with aux0 := ⟨k, p⟩ } ∧
      exec (.setSource 2 flag (some (BitVec.ofNat 8 k.code))) s = wrote { s.pub with aux1 := ⟨k, p⟩ }) ∧
    exec (.setSource 1 flag none) s = wrote { s.pub with aux0 := ⟨s.pub.aux0.cls, p⟩ } ∧
    exec (.setSource 2 flag none) s = wrote { s.pub with aux1 := ⟨s.pub.aux1.cls, p⟩ } ∧
    exec (.setSource 0 flag none) s = wrote { s.pub with radioPriv := p } ∧
    (∀ c : Byte, exec (.setSource 0 flag (some c)) s = .next (s.answer .badArgument [])) ∧
    (∀ (b : Byte) (c : Option Byte), 3 ≤ b.toNat → exec (.setSource b flag c) s = .next (s.answer .badArgument []))) ∧
  (∀ (s : State) (slot source : Byte),
    let i := s.cpt.store.openSlot
    (s.cle.lifecycle ≠ .active → exec (.publish slot source) s = .next (s.answer .notReady [])) ∧
    (s.cle.lifecycle = .active → (slot.toNat ≠ i.val ∨ 2 < source.toNat) →
      exec (.publish slot source) s = .next (s.answer .badArgument [])) ∧
    (s.cle.lifecycle = .active → slot.toNat = i.val → ∀ src : Source, src ≠ .pickup → source.toNat = src.code →
      (s.pub.slots.get i = .idle → exec (.publish slot source) s =
        .next (State.answer { s with pub := { s.pub with slots := s.pub.slots.set i (.publishing src 0) } } .accepted [])) ∧
      (∀ old n, s.pub.slots.get i = .publishing old n → exec (.publish slot source) s =
        .next (State.answer { s with pub := { s.pub with slots := s.pub.slots.set i (.publishing src n) } } .accepted [])))) ∧
  ∀ (s : State) (slot : Byte),
    let i := s.cpt.store.openSlot
    (s.inConfig = true → exec (.unpublish slot) s = .next (s.answer .notReady [])) ∧
    (s.inConfig = false → slot.toNat ≠ i.val → exec (.unpublish slot) s = .next (s.answer .badArgument [])) ∧
    (s.inConfig = false → slot.toNat = i.val →
      (s.pub.slots.get i = .idle → exec (.unpublish slot) s = .next (s.answer .accepted [])) ∧
      (s.pub.slots.get i ≠ .idle → ∃ t, exec (.unpublish slot) s = .next (State.answer t .accepted []) ∧
        t = { s with pub := { s.pub with slots := s.pub.slots.set i .idle }, lif := { s.lif with sound := t.lif.sound } } ∧
        t.lif.sound.get (1 - i) = s.lif.sound.get (1 - i) ∧
        (s.cle.lifecycle = .isolated → t.lif = s.lif) ∧
        (s.cle.lifecycle ≠ .isolated → s.lif.flying (.sound i) = false → (t.lif.sound.get i).frame = none) ∧
        (s.cle.lifecycle ≠ .isolated → s.lif.flying (.sound i) = true → (t.lif.sound.get i).beside = some none)))

/-- At a boundary outside CONFIG each publishing slot builds the frame of its source: stream, sequence, class, private
flag, channel count, samples and, for PICKUP, the call block with the talk loss. Its sequence rises by 1, its stream's
private mark and its own call-loss entry are written, and an ACTIVE station hands it to the sound slot, beside a frame
in flight. An idle slot builds none; no other mark changes. That missing samples are zero, and that the own call-loss
entry is written after the ages of the table rose and so has age 0, are the model's readings, logs 8 and 4. -/
def Obligations.PublisherBuildsItsFrames : Prop :=
  ∀ s : State, s.inConfig = false → ∃ t, exec .blockBoundary s = .next t ∧
    (∀ n, producerOf n ≠ s.own → t.cle.marks.get n = s.cle.marks.get n) ∧
    ∀ i : PubSlotNo,
      let stream := streamOf s.own i
      let slot : PubSlot :=
        if i = s.cpt.store.pickupSlot then
          match s.pku.call, t.pku.call, s.pub.slots.get i with
          | none, some _, .idle => .publishing .pickup 0
          | none, some _, .publishing _ n => .publishing .pickup n
          | some _, none, _ => .idle
          | _, _, q => q
        else s.pub.slots.get i
      (slot = .idle → t.pub.slots.get i = .idle ∧ t.cle.marks.get stream = s.cle.marks.get stream) ∧
      (∀ src n, slot = .publishing src n →
        let r : SourceRecord := match src with
          | .radio => ⟨s.pub.radioClass, s.pub.radioPriv⟩
          | .aux0 => s.pub.aux0
          | .aux1 => s.pub.aux1
          | .pickup => ⟨.call, true⟩
        let f : SoundFrame :=
          { stream := stream, seq := n, cls := r.cls, priv := r.priv, stereo := decide (src ≠ .pickup)
            call := if src = .pickup then t.pku.call.map (fun c => ⟨c, t.pku.sd⟩) else none
            samples := match src with
              | .radio => t.rdu.radio
              | .aux0 => padTo 48 StereoSample.zero s.inputs.aux0
              | .aux1 => padTo 48 StereoSample.zero s.inputs.aux1
              | .pickup => match t.pku.uplink with
                | some l => l.map (fun x => ⟨x, x⟩)
                | none => List.replicate 48 StereoSample.zero }
        t.pub.slots.get i = .publishing src (n + 1) ∧ t.cle.marks.get stream = r.priv ∧
        (s.cle.lifecycle = .active → t.cle.lifecycle = .active →
          (s.lif.flying (.sound i) = false → t.lif.sound.get i = ⟨some f, none⟩) ∧
          (s.lif.flying (.sound i) = true → t.lif.sound.get i = ⟨(s.lif.sound.get i).frame, some (some f)⟩)) ∧
        (s.cle.lifecycle = .active → t.cle.lifecycle = .isolated → t.lif.sound.get i = ⟨none, none⟩) ∧
        (s.cle.lifecycle ≠ .active → t.lif.sound.get i = s.lif.sound.get i) ∧
        ∀ c, f.call = some c → (∀ j m, j ≠ i → t.pub.slots.get j ≠ .publishing .pickup m) →
          ⟨c.ref, stream, c.talkLoss, 0⟩ ∈ t.iku.callLoss)

/-! ### Levels, the gain law and the mix (05) -/

/-- SET_LEVEL stages a level clamped to 128 and leaves the live level; every level lies in 0..128, is 48 after pin
reset and is kept by RESTART. -/
def Obligations.SetLevelStagesTheLevel : Prop :=
  ∀ (s : State) (zone level : Byte),
    (∀ z : Zone, zone.toNat = z.code → exec (.setLevel zone level) s =
      .next (State.answer { s with mxe := { s.mxe with staged := s.mxe.staged.set z.idx (min 128 level.toNat) } } .accepted
        (num1 (min 128 level.toNat)))) ∧
    (4 < zone.toNat → exec (.setLevel zone level) s = .next (s.answer .badArgument [])) ∧
    (∀ z, State.reset.mxe.live.get z = 48 ∧ State.reset.mxe.staged.get z = 48) ∧
    (∀ t, exec .restart s = .next t → t.mxe.live = s.mxe.live ∧ t.mxe.staged = s.mxe.staged) ∧
    (∀ (c : Instr) (t : State), LevelsBounded s → exec c s = .next t → LevelsBounded t)

/-- APPLY_LEVELS sets the apply flag; the boundary that finds it set makes the five staged levels live together,
clears it and raises LEVELS, in every lifecycle state; one that finds it clear leaves the levels. -/
def Obligations.ApplyMakesStagedLevelsLive : Prop :=
  ∀ s : State,
    exec .applyLevels s = .next (State.answer { s with mxe := { s.mxe with apply := true } } .accepted []) ∧
    (s.mxe.apply = true → exec .levelsApplied s = .next { s with
      mxe := { s.mxe with live := s.mxe.staged, apply := false }, cpt := s.cpt.raise (.levels s.mxe.staged) }) ∧
    (s.mxe.apply = false → exec .levelsApplied s = .next s) ∧
    ∃ t, exec .blockBoundary s = .next t ∧ t.mxe.apply = false ∧ t.mxe.staged = s.mxe.staged ∧
      t.mxe.live = (if s.mxe.apply then s.mxe.staged else s.mxe.live) ∧
      t.cpt.notices.get 12 = if s.mxe.apply then some (raisedEntry (s.cpt.notices.get 12) (.levels s.mxe.staged))
        else s.cpt.notices.get 12

/-- The ramp step, by the three cases of R106, and the release step of a feed whose count reaches the interval. The
linear gain: floor(M[a mod 8] / 2^(a div 8)), within 0..32768, halved by each step of 8, with the values of the table
and 0 from 121 on. -/
def Obligations.RampsAndGainsFollowTheirTables : Prop :=
  ((∀ (attack interval : Nat) (f : Feed),
    (f.current < f.target →
      f.rampStep attack interval = { f with current := min f.target (f.current + attack), releaseCount := 0 }) ∧
    (f.target < f.current → f.releaseCount + 1 < interval →
      f.rampStep attack interval = { f with releaseCount := f.releaseCount + 1 }) ∧
    (f.target < f.current → interval ≤ f.releaseCount + 1 →
      f.rampStep attack interval = { f with current := f.current - 1, releaseCount := 0 }) ∧
    (f.target = f.current → f.rampStep attack interval = { f with releaseCount := 0 })) ∧
  (∀ (s : State) (o : OutputNo) (sl : SlotNo) (f : Feed), (s.mxe.feeds.get o).get sl = f → f.active = true →
    f.target < f.current → f.releaseCount + 1 = s.cpt.store.releaseInterval →
    exec (.releaseIntervalStep o sl) s = .next { s with mxe := { s.mxe with
      feeds := s.mxe.feeds.set o ((s.mxe.feeds.get o).set sl { f with current := f.current - 1, releaseCount := 0 }) } })) ∧
  (∀ a ≤ 128, gain a = [32768, 30048, 27554, 25268, 23170, 21247, 19484, 17867].getD (a % 8) 0 / 2 ^ (a / 8) ∧
    gain a ≤ 32768 ∧ gain (a + 8) = gain a / 2) ∧
  [0, 1, 4, 8, 23, 24, 32, 39, 47, 48, 64, 96, 112, 120, 121, 128].map gain =
    [32768, 30048, 23170, 16384, 4466, 4096, 2048, 1116, 558, 512, 128, 8, 2, 1, 0, 0] ∧
  ∀ a, 121 ≤ a → a ≤ 128 → gain a = 0

/-- The product is floor((s × G + 16384) / 32768), within the sample range, and the sample itself at unity; the three
cases of the rounding table; a STEREO feed's left and right products take the same gain. -/
def Obligations.ProductRoundsToTheNearest : Prop :=
  (∀ (x : Sample) (a : Nat), a ≤ 128 →
    let p := product x.toInt (gain a)
    p * 32768 ≤ x.toInt * gain a + 16384 ∧ x.toInt * gain a + 16384 < (p + 1) * 32768 ∧
      (x.toInt * gain a).natAbs ≤ 2 ^ 38 ∧ sampleMin ≤ p ∧ p ≤ sampleMax ∧ product x.toInt 32768 = x.toInt) ∧
  product 1 16384 = 1 ∧ product (-1) 16384 = 0 ∧ product (-1) 32768 = -1 ∧
  ∀ (a : Nat) (snd : FeedSound), leftProducts a snd = snd.block.map (fun x => product x.l.toInt (gain a)) ∧
    rightProducts a snd = snd.block.map (fun x => product x.r.toInt (gain a))

/-- A private sound gives a bridge nothing, whatever its gain: its products are 0, a bridge's mix is the same without
it, its target and ramp go on, and on a post or LO it sounds as any other. At a boundary the block of a bridge whose
active feeds all have private sound, by the private flag or by a flag kept with a sample frame of the block, is
silent. -/
def Obligations.PrivateSoundNeverReachesABridge : Prop :=
  ((∀ (pick : Pick) (a : Nat) (snd : FeedSound), snd.secret = true → ∀ p ∈ bridgeProducts pick a snd, p = 0) ∧
  (∀ (l m : List (FeedConfig × Feed × FeedSound)) (x : FeedConfig × Feed × FeedSound), x.2.2.secret = true →
    x.2.2.block.length = 48 → mixBridge (l ++ x :: m) = mixBridge (l ++ m)) ∧
  (∀ (v : MixView) (live : Tbl 5 Nat) (fb act b : Bool) (o : OutputNo) (cfg : FeedConfig) (snd : FeedSound) (f : Feed),
    Feed.move v live fb o cfg act { snd with secret := b } f = Feed.move v live fb o cfg act snd f) ∧
  ∀ (a : Nat) (b : Bool) (snd : FeedSound), leftProducts a { snd with secret := b } = leftProducts a snd ∧
    rightProducts a { snd with secret := b } = rightProducts a snd) ∧
  ∀ s : State, s.inConfig = false → ∃ t, exec .blockBoundary s = .next t ∧ ∀ b : BridgeNo,
    (∀ sl, let g := (t.mxe.feeds.get ⟨b.val, by omega⟩).get sl
      g.active = true → ∀ x, SoundOf s t (s.cpt.store.feed ⟨b.val, by omega⟩ sl).selector g.resolved x → x.secret = true) →
    ∀ y ∈ (t.ost.bridges.get b).block, y = 0

/-- At a boundary outside CONFIG chime fallback is active exactly where a bridge of zone DRV exists and none is in RUN
as the boundary began. A feed is active exactly where its output is used, it has a selector, its condition holds and a
dynamic selector resolves; an active one has the resolution, from 128 where it is activated or its stream changed; an
inactive one has the inactive values. -/
def Obligations.BoundaryDecidesFeeds : Prop :=
  ∀ s : State, s.inConfig = false → ∃ t, exec .blockBoundary s = .next t ∧
    let drv : BridgeNo → Prop := fun b => zoneIn (s.cpt.store.zones.get ⟨b.val, by omega⟩) .drv = true
    (t.mxe.fallback = true ↔ (∃ b, drv b) ∧ ∀ b, drv b → (s.ost.bridges.get b).state ≠ .run) ∧
    ∀ (o : OutputNo) (sl : SlotNo),
      let f := (s.mxe.feeds.get o).get sl
      let g := (t.mxe.feeds.get o).get sl
      let cfg := s.cpt.store.feed o sl
      let r := s.resolution o cfg.selector
      (g.active = true ↔ s.cpt.store.used o = true ∧ cfg.selector ≠ .none ∧
        (cfg.fallbackOnly = true → t.mxe.fallback = true) ∧
        (((∃ k, cfg.selector = .follow k) ∨ cfg.selector = .uplink) → r ≠ none)) ∧
      (g.active = true → g.resolved = r.map Prod.fst ∧ g.claim = r.map Prod.snd ∧
        ((f.active = false ∨ f.resolved ≠ r.map Prod.fst) → g.current = 128 ∧ g.releaseCount = 0)) ∧
      (g.active = false → g.resolved = none ∧ g.claim = none ∧ g.served = false ∧ g.target = 128 ∧ g.current = 128 ∧
        g.releaseCount = 0)

/-- At a boundary outside CONFIG every active feed plays its source or stream, takes its target from levels, ducks,
trim, derate, talk loss and the chime ceiling, and is at 128 where it was activated or forced, else one ramp step on.
Each bridge, post and LO takes the mix of its active feeds: the saturated sum of their products, of which a private
sound has none on a bridge. That the step of the first boundary with sound after STARVED begins at 128 is the model's
reading, log 38; that a feed of the own pickup stream sees the pickup slot as the boundary began is its choice, log 42,
and that missing AUX samples are zero its reading, log 8. -/
def Obligations.BoundarySetsTargetsAndMixes : Prop :=
  (∀ s : State, s.inConfig = false → ∃ (t : State) (snd : OutputNo → SlotNo → FeedSound), exec .blockBoundary s = .next t ∧
    let row := fun (o : OutputNo) => (List.finRange 4).filterMap (fun sl =>
      let g := (t.mxe.feeds.get o).get sl
      if g.active then some (s.cpt.store.feed o sl, g, snd o sl) else none)
    (∀ (o : OutputNo) (sl : SlotNo),
      let f := (s.mxe.feeds.get o).get sl
      let g := (t.mxe.feeds.get o).get sl
      let cfg := s.cpt.store.feed o sl
      let x := snd o sl
      g.active = true →
        SoundOf s t cfg.selector g.resolved x ∧ g.served = x.served ∧ g.cls = x.cls ∧ g.priv = x.priv ∧
        TargetIs s t o cfg g.claim x g.target ∧
        (let from_ : Feed := if x.returns then { f with current := 128, releaseCount := 0 } else f
         let step := ({ from_ with target := g.target } : Feed).rampStep s.cpt.store.attack s.cpt.store.releaseInterval
         let silent := f.active = false ∨ f.resolved ≠ g.resolved ∨ x.force = true;
          (silent → g.current = 128 ∧ g.releaseCount = 0) ∧
          (¬ silent → g.current = step.current ∧ g.releaseCount = step.releaseCount))) ∧
    (∀ b : BridgeNo, (t.ost.bridges.get b).block = mixBridge (row ⟨b.val, by omega⟩)) ∧
    t.mxe.post0 = mixStereo (row 8) ∧ t.mxe.post1 = mixStereo (row 9) ∧ t.mxe.lineOut = mixStereo (row 10)) ∧
  ∀ (l : List (FeedConfig × Feed × FeedSound)) (n : Nat), n < 48 → (∀ x ∈ l, n < x.2.2.block.length) →
    let sum := fun (p : FeedConfig × Feed × FeedSound → Int) => saturate (l.map p).sum
    let at_ := fun (x : FeedConfig × Feed × FeedSound) => x.2.2.block.getD n StereoSample.zero
    let g := fun (x : FeedConfig × Feed × FeedSound) => gain x.2.1.current
    (mixBridge l)[n]? = some (sum (fun x =>
      if x.2.2.secret then 0
      else product (match x.1.pick with
        | .left => (at_ x).l.toInt
        | .right => (at_ x).r.toInt
        | .mid | .stereo => ((at_ x).l.toInt + (at_ x).r.toInt) / 2) (g x))) ∧
    (mixStereo l)[n]? = some ⟨sum (fun x => product (at_ x).l.toInt (g x)), sum (fun x => product (at_ x).r.toInt (g x))⟩

/-! ### Claims (03) -/

/-- Two claims conflict exactly when their stations differ, both are CALL or both PRIVATE, and they share a zone. -/
def Obligations.ConflictNeedsAllThree : Prop :=
  ∀ a b : Claim, conflicts a b = true ↔
    a.name.station ≠ b.name.station ∧
    (a.fields.kind = .call ∧ b.fields.kind = .call ∨ a.fields.kind = .priv ∧ b.fields.kind = .priv) ∧
    ∃ z : Zone, zoneIn a.fields.zones z = true ∧ zoneIn b.fields.zones z = true

/-- Of two keys the higher urgency is better, then the lower station; of two stations' claims exactly one is better;
two claims of one station with one urgency have the same key. The serial taken for a new own claim is not busy: no own
claim has it and no queued frame carries it. -/
def Obligations.ClaimKeysAndSerialsTellClaimsApart : Prop :=
  (∀ a b : Claim,
    (b.fields.urgency < a.fields.urgency → keyBetter a b = true ∧ keyBetter b a = false) ∧
    (a.fields.urgency = b.fields.urgency → a.name.station < b.name.station → keyBetter a b = true ∧ keyBetter b a = false) ∧
    (a.name.station ≠ b.name.station → (keyBetter a b = true ∧ keyBetter b a = false) ∨ (keyBetter a b = false ∧ keyBetter b a = true)) ∧
    (a.fields.urgency = b.fields.urgency → a.name.station = b.name.station → keyBetter a b = false ∧ keyBetter b a = false)) ∧
  ∀ (s : State), QueueBounded s → ClaimsBounded s →
    let n := s.link.nextSerial s.own
    (∀ c ∈ s.cle.claims, c.name ≠ ⟨s.own, n⟩) ∧ (∀ f ∈ s.lif.queue, f.serial ≠ n) ∧
      (∀ f, s.lif.besideClaim = some f → f.serial ≠ n) ∧ ∀ f, s.lif.besideBid = some f → f.serial ≠ n

/-- CLAIM is refused: outside ACTIVE, for arguments out of their ranges, for a conflict with a HELD claim, and with
four own claims. The state changes in the result alone (an attempt that was due may begin). -/
def Obligations.ClaimRefusals : Prop :=
  ∀ (s : State) (kind urgency zones : Byte) (ref : Option Byte),
    let no := fun (st : Status) => Host.Outcome.next (s.answer st []).arbitrate
    let mine := fun (f : ClaimFields) => (⟨⟨s.own, 0⟩, f, .held, none⟩ : Claim)
    (s.cle.lifecycle ≠ .active → exec (.claim kind urgency zones ref) s = no .notReady) ∧
    (s.cle.lifecycle = .active →
      (4 < kind.toNat ∨ 3 < urgency.toNat ∨ zones = 0 ∨ 31 < zones.toNat ∨ (kind.toNat ≤ 1 ∧ ref = none) ∨
        (kind = 4 ∧ ref ≠ none) ∨ (∃ r, ref = some r ∧ 15 < r.toNat)) →
      exec (.claim kind urgency zones ref) s = no .badArgument) ∧
    (s.cle.lifecycle = .active → ∀ f : ClaimFields, f.wf = true →
      ((∃ c ∈ s.cle.claims, c.isHeld = true ∧ conflicts c (mine f) = true) → exec (claimCommand f) s = no .conflict) ∧
      ((∀ c ∈ s.cle.claims, c.isHeld = true → conflicts c (mine f) = false) →
        4 ≤ (claimsOf s.own s.cle.claims).length → exec (claimCommand f) s = no .limit))

/-- A CLAIM of an overlay kind is HELD at once: a free serial is taken, the entry stands in its place, its HOLD is added
to the queue by R13 to R15, a presence that waits is composed again, and the answer carries the serial. -/
def Obligations.OverlayClaimIsHeldAtOnce : Prop :=
  ∀ (s : State) (f : ClaimFields), s.cle.lifecycle = .active → f.wf = true → f.kind.exclusive = false →
    (claimsOf s.own s.cle.claims).length < 4 → QueueBounded s → ClaimsBounded s →
    let n := s.link.nextSerial s.own
    ∃ t, exec (claimCommand f) s = .next t ∧
      t.cpt = s.cpt.answer .accepted [n] ∧ Placed s.lif (.hold n f) false t.lif ∧ LifFrame s.lif t.lif ∧ Recomposed s t ∧
      t = { s with
        lif := t.lif
        cle := { s.cle with
          claims := insertByKey ⟨⟨s.own, n⟩, f, .held, some .port⟩ s.cle.claims, serialCounter := n + 1
          peers := s.cle.peers.set s.own (t.cle.peers.get s.own) }
        cpt := t.cpt }

/-- A CLAIM of an exclusive kind that no HELD claim conflicts with bids: a TENTATIVE entry, its link clear only where
a better heard bid conflicts already, its BID added to the queue. An own bid under way is abandoned before, its BID
dropped or, where that was sent, a RELEASE added, and its REPLACED notice raised. -/
def Obligations.ExclusiveClaimBids : Prop :=
  ∀ (s : State) (f : ClaimFields), s.cle.lifecycle = .active → f.wf = true → f.kind.exclusive = true →
    (claimsOf s.own s.cle.claims).length < 4 → QueueBounded s → ClaimsBounded s → OneBid s →
    (∀ c ∈ s.cle.claims, c.isHeld = true → conflicts c ⟨⟨s.own, 0⟩, f, .held, none⟩ = false) →
    let bids := fun (t : State) (n : Serial) (l : List Claim) (m : Lif) (c : Cpt) =>
      let mine : Claim := ⟨⟨s.own, n⟩, f, .held, none⟩
      let outbid := l.any (fun c => c.heardAge.isSome && conflicts c mine && keyBetter c mine)
      n = Link.nextSerial ⟨m, { s.cle with claims := l }, s.cpt⟩ s.own ∧ Placed m (.bid n f) false t.lif ∧
      LifFrame s.lif t.lif ∧ t.lif.presence = s.lif.presence ∧
      t = { s with
        lif := t.lif
        cle := { s.cle with
          claims := insertByKey ⟨⟨s.own, n⟩, f, .bidding (!outbid) none, some .port⟩ l, serialCounter := n + 1 }
        cpt := c.answer .accepted [n] }
    (ownBidding s.own s.cle.claims = none →
      ∃ t n, exec (claimCommand f) s = .next t ∧ bids t n s.cle.claims s.lif s.cpt) ∧
    (∀ c link window, ownBidding s.own s.cle.claims = some c → c.state = .bidding link window →
      ∃ t n m, exec (claimCommand f) s = .next t ∧
        (window = none → BidDropped s.lif c.name.serial m) ∧
        (window ≠ none → Placed s.lif (.release c.name.serial) false m) ∧
        bids t n (eraseClaim c.name s.cle.claims) m (s.cpt.raise (.claimResult c.name.serial .replaced)))

/-- RELEASE ends an own claim of origin PORT: a HELD one with its RELEASE added to the queue by R13 to R15 and a presence
that waits composed again, a TENTATIVE one abandoned with no notice, its BID dropped or, where that was sent, a RELEASE
added; it refuses a claim of origin RADIO, an unknown serial, and CONFIG and JOINING. -/
def Obligations.ReleaseEndsAnOwnClaim : Prop :=
  ∀ (s : State) (n : Serial),
    let no := fun (st : Status) => Host.Outcome.next (s.answer st []).arbitrate
    ((s.cle.lifecycle = .config ∨ s.cle.lifecycle = .joining) → exec (.release n) s = no .notReady) ∧
    ((s.cle.lifecycle = .active ∨ s.cle.lifecycle = .isolated) →
      (findClaim ⟨s.own, n⟩ s.cle.claims = none → exec (.release n) s = no .badArgument) ∧
      (∀ c, findClaim ⟨s.own, n⟩ s.cle.claims = some c → c.origin = some .radio → exec (.release n) s = no .badArgument) ∧
      (∀ c, findClaim ⟨s.own, n⟩ s.cle.claims = some c → c.origin = some .port →
        ∃ t, exec (.release n) s = .next t ∧ LifFrame s.lif t.lif ∧
          t = { s with
            lif := t.lif
            cle := { s.cle with
              claims := eraseClaim ⟨s.own, n⟩ s.cle.claims, peers := s.cle.peers.set s.own (t.cle.peers.get s.own) }
            cpt := s.cpt.answer .accepted [] } ∧
          (c.isHeld = true → Placed s.lif (.release n) false t.lif ∧ Recomposed s t) ∧
          (∀ link window, c.state = .bidding link window →
            (window = none → BidDropped s.lif n t.lif) ∧ (window ≠ none → Placed s.lif (.release n) false t.lif) ∧
            t.lif.presence = s.lif.presence ∧ t.cle.peers.get s.own = s.cle.peers.get s.own)))

/-- The bid window at its second boundary ends in HELD with a HOLD added to the queue, a presence that waits composed
again and outcome WON where the link is set, and in removal with outcome FAILED, OUTBID where it is clear. A heard bid of
age 3 goes at its fourth boundary, with no notice. A block boundary does both for the whole list: it leaves every claim
in its place as `State.claimAtBoundary` says, with those results, and takes away only the claims of peers that expire, the
heard bids of age 4, the bid that ends outbid or is abandoned at isolation, and the claim of an announcement that ends. -/
def Obligations.BidsEndAtBoundaries : Prop :=
  (∀ (s : State) (c : Claim) (link : Bool), ownBidding s.own s.cle.claims = some c → c.state = .bidding link (some 1) →
    (link = true → ∃ t, exec .windowExpiry s = .next t ∧ Placed s.lif (.hold c.name.serial c.fields) false t.lif ∧
      LifFrame s.lif t.lif ∧ Recomposed s t ∧
      t = { s with
        lif := t.lif
        cle := { s.cle with
          claims := setClaimState c.name .held s.cle.claims, peers := s.cle.peers.set s.own (t.cle.peers.get s.own) }
        cpt := s.cpt.raise (.claimResult c.name.serial .won) }) ∧
    (link = false → exec .windowExpiry s = .next (State.arbitrate { s with
      cle := { s.cle with claims := eraseClaim c.name s.cle.claims }
      cpt := s.cpt.raise (.claimResult c.name.serial .failedOutbid) }))) ∧
  (∀ (s : State) (p : StationNo) (n : Serial) (c : Claim), findClaim ⟨p, n⟩ s.cle.claims = some c → c.state = .heard 3 →
    exec (.bidAgeOut p n) s = .next { s with cle := { s.cle with claims := eraseClaim ⟨p, n⟩ s.cle.claims } }) ∧
  ∀ s : State, s.inConfig = false → ClaimsBounded s → OneBid s → ∃ t, exec .blockBoundary s = .next t ∧
    let old := s.cpt.notices.get 3
    let result := fun (c : Claim) (r : BidOutcome) => t.cpt.notices.get 3 = some (raisedEntry old (.claimResult c.name.serial r))
    t.cle.claims = s.cle.claims.filterMap s.claimAtBoundary ∧
    ((∀ c ∈ s.cle.claims, c.isBidding = false) → t.cpt.notices.get 3 = old) ∧
    ∀ c ∈ s.cle.claims, s.announcementGoes c.name = false → ∀ link,
      (c.state = .bidding link none → if s.abandonsAtBoundary c = true then result c .failedIsolated
        else t.cpt.notices.get 3 = old) ∧
      (∀ w, c.state = .bidding link (some w) →
        (w = 0 → t.cpt.notices.get 3 = old) ∧
        (1 ≤ w → link = false → result c .failedOutbid) ∧
        (1 ≤ w → link = true → result c .won ∧ ((∀ d, s.announcementGoes d = false) →
          Placed s.lif (.hold c.name.serial c.fields) false { t.lif with flight := s.lif.flight } ∧
          (s.cle.lifecycle ≠ .joining → s.cle.presenceCount < 49 → s.isolatesAtBoundary = false → Recomposed s t))))

/-! ### The line (01) -/

/-- LINE_IDLE sets the idle-seen flag and offers the best frame: nothing in CONFIG and JOINING, the presence slot
alone in ISOLATED, and in ACTIVE the head of the queue, then sound slot 0, sound slot 1 and the presence. The attempt
ends the idle and is driven crossed exactly where the latch reads CROSSED. A start of frame ends the idle; a broken-
off frame changes nothing. -/
def Obligations.LineIdleOffersTheBestFrame : Prop :=
  ∀ s : State,
    exec .startOfFrame s = .next { s with lif := { s.lif with lineIdle := false } } ∧
    exec .brokenOffFrame s = .next s ∧
    (s.lif.lineIdle = false → s.lif.flight = none →
      let waits := exec .lineIdle s = .next { s with lif := { s.lif with lineIdle := true, idleSeen := true } }
      let begins := fun (st : TxStore) (b : FrameBody) => exec .lineIdle s = .next { s with
        lif := { s.lif with
          idleSeen := true, flight := some ⟨st, b, decide (s.lif.latch = .crossed), false, false⟩ } }
      ((s.cle.lifecycle = .config ∨ s.cle.lifecycle = .joining) → waits) ∧
      (s.cle.lifecycle = .isolated → match s.lif.presence.frame with
        | some f => begins .presence (.presence f)
        | none => waits) ∧
      (s.cle.lifecycle = .active → match s.lif.queue, (s.lif.sound.get 0).frame, (s.lif.sound.get 1).frame, s.lif.presence.frame with
        | f :: _, _, _, _ => begins .queue (.claim f)
        | [], some f, _, _ => begins (.sound 0) (.sound f)
        | [], none, some f, _ => begins (.sound 1) (.sound f)
        | [], none, none, some f => begins .presence (.presence f)
        | [], none, none, none => waits))

/-- How an attempt ends. Lost contention and bit error leave the frame pending, or what was held beside it in its
place; a dropped BID goes; completion takes the frame out and appends what was held beside; a BID held beside a full
queue is then appended. A bit error raises the run, and in ISOLATED takes the probe; completion sets it to 0. A failed
claim that waits to bid in ISOLATED is abandoned. A completed own BID opens the window at 0; one whose claim is gone
queues a RELEASE; a completed probe makes the station ACTIVE. A frame cut off from its store is neither retried nor
reported; its bit error counts, and its failure in ISOLATED abandons a claim that waits to bid too. The frames held
beside and the frame cut off follow the model's readings, logs 17 and 7. -/
def Obligations.AttemptsEndByTheirOutcome : Prop :=
  (∀ (s : State) (f : Flight), s.lif.flight = some f → f.orphan = false →
    let slotsKept := fun (m : Lif) =>
      (f.store = .presence → m.presence = s.lif.presence.kept) ∧
      ∀ i, f.store = .sound i → m.sound.get i = (s.lif.sound.get i).kept
    (∃ t, exec .lostContention s = .next t ∧ t.lif.flight = none ∧ t.lif.bitErrorRun = s.lif.bitErrorRun ∧
      slotsKept t.lif ∧
      (s.cle.lifecycle ≠ .isolated → t = { s with lif := t.lif } ∧ QueueFailed s.lif f t.lif) ∧
      (s.cle.lifecycle = .isolated → FailedInIsolation s f t)) ∧
    ((s.cle.lifecycle = .active → s.lif.bitErrorRun < 15) →
      ∃ t, exec .bitError s = .next t ∧ t.lif.flight = none ∧
      (s.cle.lifecycle = .isolated → t.lif.bitErrorRun = s.lif.bitErrorRun ∧
        (f.store = .presence → t.lif.presence = s.lif.presence.left) ∧ FailedInIsolation s f t) ∧
      (s.cle.lifecycle = .active → t = { s with lif := t.lif } ∧ t.lif.bitErrorRun = s.lif.bitErrorRun + 1 ∧
        slotsKept t.lif ∧ QueueFailed s.lif f t.lif)) ∧
    (∃ t, exec .attemptCompletion s = .next t ∧ t.lif.flight = none ∧ t.lif.bitErrorRun = 0 ∧
      (∀ i x, f.store = .sound i → f.body = .sound x →
        t.lif.sound.get i = (s.lif.sound.get i).left ∧ t = { s with lif := t.lif } ∧
          BesideAppended s.lif.queue s.lif.besideBid t.lif) ∧
      (∀ x, f.store = .presence → f.body = .presence x →
        BesideAppended s.lif.queue s.lif.besideBid t.lif ∧
        (s.cle.lifecycle ≠ .isolated → t.lif.presence = s.lif.presence.left ∧ t = { s with lif := t.lif }) ∧
        (s.cle.lifecycle = .isolated → t.lif.presence = ⟨some (s.presenceNow .active), none⟩ ∧
          t = { s with
            lif := t.lif
            cle := s.withOwnEntry { s.cle with lifecycle := .active, presenceCount := 0 } (s.presenceNow .active)
            cpt := s.cpt.raise .rejoined })) ∧
      (∀ c, f.store = .queue → f.body = .claim c →
        (c.kind ≠ .bid → QueueCompleted s.lif t.lif ∧ t = { s with lif := t.lif }) ∧
        (c.kind = .bid → ∀ own, ownBidding s.own s.cle.claims = some own → own.name.serial = c.serial →
          QueueCompleted s.lif t.lif ∧ ∀ link, own.state = .bidding link none → t = { s with
            lif := t.lif, cle := { s.cle with claims := setClaimState own.name (.bidding link (some 0)) s.cle.claims } }) ∧
        (c.kind = .bid → (∀ own, ownBidding s.own s.cle.claims = some own → own.name.serial ≠ c.serial) →
          t = { s with lif := t.lif } ∧
          ∃ m : Lif, QueueCompleted s.lif m ∧ t.lif = m.addClaim (.release c.serial))))) ∧
  ∀ (s : State) (f : Flight), s.lif.flight = some f → f.orphan = true →
    let noMore := fun (t : State) (run : Nat) => t = { s with lif := t.lif } ∧ t.lif.flight = none ∧
      t.lif.bitErrorRun = run ∧ t.lif.sound = s.lif.sound ∧ t.lif.presence = s.lif.presence ∧
      BesideAppended s.lif.queue s.lif.besideBid t.lif
    let abandons := fun (t : State) =>
      ((∀ c, ¬ WaitsToBid s c) → noMore t s.lif.bitErrorRun) ∧
      ∀ c, WaitsToBid s c → t.cle = { s.cle with claims := eraseClaim c.name s.cle.claims } ∧
        t.cpt = s.cpt.raise (.claimResult c.name.serial .failedIsolated) ∧ t.lif.flight = none ∧
        t.lif.bitErrorRun = s.lif.bitErrorRun ∧ t.lif.sound = s.lif.sound ∧ t.lif.presence = s.lif.presence ∧
        t = { s with lif := t.lif, cle := t.cle, cpt := t.cpt } ∧ ∀ g ∈ t.lif.queue, isBidOf c.name.serial g = false
    (∃ t, exec .attemptCompletion s = .next t ∧ noMore t 0) ∧
    (s.cle.lifecycle ≠ .isolated → (∃ t, exec .lostContention s = .next t ∧ noMore t s.lif.bitErrorRun) ∧
      ((s.cle.lifecycle = .active → s.lif.bitErrorRun < 15) →
        ∃ t, exec .bitError s = .next t ∧ noMore t (min 16 (s.lif.bitErrorRun + 1)))) ∧
    (s.cle.lifecycle = .isolated → (∃ t, exec .lostContention s = .next t ∧ abandons t) ∧
      ∃ t, exec .bitError s = .next t ∧ abandons t)

/-- A frame that fails acceptance is counted and, the first since the last read, recorded with a LINE ERROR notice. An
accepted one latches the polarity; in CONFIG it does no more; under this station's own number it raises
DUPLICATE_NUMBER; a SOUND frame makes its stream LIVE with its fields, sets its private mark, enters its call block in
the call-loss table, in a full one in the place of the oldest, and reaches its buffer alone, where a frame of the
expected sequence is appended. What the record holds is in part the model's reading, log 22. -/
def Obligations.ReceivedFramesAreDeliveredOrDiscarded : Prop :=
  ∀ (s : State) (x : LineFrame),
    (acceptFrame s.lif.latch x = none →
      exec (.frameReceived x) s = .next { s with
        lif := { s.lif with
          errorCount := min 65535 (s.lif.errorCount + 1)
          errorRecord := some (s.lif.errorRecord.getD (failureRecord s.lif.latch x)) }
        cpt := match s.lif.errorRecord with
          | some _ => s.cpt
          | none => s.cpt.raise (.lineError (failureRecord s.lif.latch x)) }) ∧
    (∀ b, acceptFrame s.lif.latch x = some b →
      let latched : Lif := { s.lif with latch := if s.lif.latch = .unlatched then Latch.ofSense x.sense else s.lif.latch }
      (s.inConfig = true → exec (.frameReceived x) s = .next { s with lif := latched }) ∧
      (s.inConfig = false → keyStation x.key = s.own → exec (.frameReceived x) s =
        .next (State.arbitrate { s with lif := latched, cpt := s.cpt.raise (.duplicateNumber b.kind) })) ∧
      (s.inConfig = false → keyStation x.key ≠ s.own → ∀ f, b = .sound f →
        ∃ t, exec (.frameReceived x) s = .next (State.arbitrate t) ∧
          t = { s with lif := latched, cle := t.cle, iku := t.iku, cpt := t.cpt } ∧
          t.cle = { s.cle with marks := s.cle.marks.set f.stream f.priv } ∧
          t.iku.heard = s.iku.heard.set f.stream ⟨.live, some f.seq, f.cls, f.priv, f.stereo, 0⟩ ∧
          (f.call = none → t.iku.callLoss = s.iku.callLoss) ∧
          (∀ c, f.call = some c → CallTaken ⟨c.ref, f.stream, c.talkLoss, 0⟩ s.iku.callLoss t.iku.callLoss) ∧
          (∀ i, (s.iku.buffers.get i).stream ≠ some f.stream → t.iku.buffers.get i = s.iku.buffers.get i) ∧
          (∀ i, s.iku.bufferOf f.stream = some i → (s.iku.buffers.get i).state = .running →
            (s.iku.buffers.get i).expected = some f.seq → (s.iku.buffers.get i).ring.length + 48 ≤ 192 →
            t.iku.buffers.get i = { s.iku.buffers.get i with
              ring := (s.iku.buffers.get i).ring ++ f.samples.map (fun y => ⟨y.l, y.r, f.priv⟩)
              expected := some (f.seq + 1) })))

/-- Claim and presence frames of a peer. A HOLD or BID makes its peer appear and enters or updates its claim, in a full
list in the place of its oldest heard bid. A HOLD that conflicts with an own bid clears its link, and a conflicting BID
where its key is better. After a HOLD no own held claim with a worse key conflicts with it, the others stay, and a lone
conflicting one is withdrawn with RELEASE, CLAIM_LOST and a fresh presence where one waits, or reasserted, as a BID
reasserts it. That a HOLD not added for want of room settles own claims too is the model's reading, log 16. A RELEASE
removes its entry. A presence fills the peer entry, makes every claim it lists HELD with its listed fields, leaves no
other held one, in a claim list within its bounds (`ClaimsBounded`, the invariant of `ClaimListKept`) keeps the unlisted
bids that fit, and sets the marks. Each claim it lists meets the own claims as a HOLD does: those with which none
conflicts, or none with a better key, stay, and a lone conflicting one is withdrawn or reasserted. Other peers stay. -/
def Obligations.PeerFramesUpdateTheView : Prop :=
  ∀ (s : State) (x : LineFrame) (b : FrameBody), acceptFrame s.lif.latch x = some b → s.inConfig = false →
    keyStation x.key ≠ s.own →
    let p := keyStation x.key
    let mine := fun (c : Claim) => c.name.station = s.own ∧ c.isHeld = true
    let only := fun (d c : Claim) => s.cle.claims.filter (fun e => decide (mine e) && conflicts d e) = [c]
    let settled := fun (d c : Claim) (t : State) =>
      (keyBetter d c = true → Placed s.lif (.release c.name.serial) false t.lif ∧ Recomposed s t ∧
        t.cpt.notices.get 2 =
          some (raisedEntry (s.cpt.notices.get 2) (.claimLost c.name.serial c.fields.kind d.name))) ∧
      (keyBetter d c = false → Placed s.lif (.hold c.name.serial c.fields) true t.lif ∧
        t.cpt.notices.get 2 = s.cpt.notices.get 2)
    let appears := fun (t : State) =>
      t.cle.peers.get p = some ((s.cle.peers.get p).getD ⟨.active, 0, 0, [], 0⟩) ∧
      t.cpt.notices.get 5 = if (s.cle.peers.get p).isSome then s.cpt.notices.get 5
        else some (raisedEntry (s.cpt.notices.get 5) (.peerAppeared p))
    let linked := fun (t : State) (clears : Claim → Bool) => (s.cle.claims.map Claim.name).Nodup →
      ∀ c ∈ s.cle.claims, c.name.station = s.own → ∀ link window, c.state = .bidding link window →
        { c with state := .bidding (link && !clears c) window } ∈ t.cle.claims
    ∃ t, exec (.frameReceived x) s = .next t ∧
      (∀ q, q ≠ p → q ≠ s.own → t.cle.peers.get q = s.cle.peers.get q ∧
        ∀ n, findClaim ⟨q, n⟩ t.cle.claims = findClaim ⟨q, n⟩ s.cle.claims) ∧
      (∀ n f, b = .claim (.hold n f) →
        let hold : Claim := ⟨⟨p, n⟩, f, .held, none⟩
        t = { s with lif := t.lif, cle := t.cle, cpt := t.cpt } ∧ appears t ∧ linked t (conflicts hold) ∧
        ((∀ c ∈ s.cle.claims, c.name.station = s.own → conflicts hold c = false) →
          HeardEntered hold s.cle.claims t.cle.claims) ∧
        (∀ c ∈ t.cle.claims, mine c → conflicts hold c = true → keyBetter hold c = false) ∧
        ((s.cle.claims.map Claim.name).Nodup → ∀ c ∈ s.cle.claims, mine c →
          (conflicts hold c = false ∨ keyBetter hold c = false) → c ∈ t.cle.claims) ∧
        (∀ c, only hold c → settled hold c t)) ∧
      (∀ n f, b = .claim (.bid n f) →
        let bid : Claim := ⟨⟨p, n⟩, f, .heard 0, none⟩
        t = { s with lif := t.lif, cle := t.cle, cpt := t.cpt } ∧ appears t ∧
        linked t (fun c => conflicts bid c && keyBetter bid c) ∧
        ((∀ c ∈ s.cle.claims, c.name.station = s.own → conflicts bid c = false) →
          HeardEntered bid s.cle.claims t.cle.claims) ∧
        (∀ c ∈ s.cle.claims, mine c → c ∈ t.cle.claims) ∧
        (∀ c, only bid c → Placed s.lif (.hold c.name.serial c.fields) true t.lif)) ∧
      (∀ n, b = .claim (.release n) → t.cle.claims = if (s.cle.peers.get p).isSome then
        s.cle.claims.filter (fun c => c.name != ⟨p, n⟩) else s.cle.claims) ∧
      (∀ f, b = .presence f →
        let listed := fun (n : Serial) => f.held.any (fun e => e.serial == n)
        let waiting := s.cle.claims.filter (fun c =>
          c.name.station == p && c.heardAge.isSome && !listed c.name.serial)
        let old := s.cpt.notices.get 5
        t = { s with lif := t.lif, cle := t.cle, cpt := t.cpt } ∧
        t.cle.peers.get p = some ⟨f.state, f.rendered, f.impaired, f.publish, 0⟩ ∧
        linked t (fun c => f.held.any (fun e => conflicts ⟨⟨p, e.serial⟩, e.fields, .held, none⟩ c)) ∧
        (∀ l e m, f.held = l ++ e :: m → (∀ d ∈ m, d.serial ≠ e.serial) →
          findClaim ⟨p, e.serial⟩ t.cle.claims = some ⟨⟨p, e.serial⟩, e.fields, .held, none⟩) ∧
        (∀ c ∈ t.cle.claims, c.name.station = p → c.isHeld = true → listed c.name.serial = true) ∧
        (ClaimsBounded s → (f.held.map HeldEntry.serial).eraseDups.length + waiting.length ≤ 4 →
          ∀ c ∈ waiting, c ∈ t.cle.claims) ∧
        (∀ e ∈ f.held, ∀ c ∈ t.cle.claims, mine c → conflicts ⟨⟨p, e.serial⟩, e.fields, .held, none⟩ c = true →
          keyBetter ⟨⟨p, e.serial⟩, e.fields, .held, none⟩ c = false) ∧
        ((s.cle.claims.map Claim.name).Nodup → ∀ c ∈ s.cle.claims, mine c →
          (∀ e ∈ f.held, conflicts ⟨⟨p, e.serial⟩, e.fields, .held, none⟩ c = false ∨
            keyBetter ⟨⟨p, e.serial⟩, e.fields, .held, none⟩ c = false) → c ∈ t.cle.claims) ∧
        (∀ e c, f.held.filter (fun d => s.cle.claims.any (fun c => decide (mine c) &&
            conflicts ⟨⟨p, d.serial⟩, d.fields, .held, none⟩ c)) = [e] →
          only ⟨⟨p, e.serial⟩, e.fields, .held, none⟩ c → settled ⟨⟨p, e.serial⟩, e.fields, .held, none⟩ c t) ∧
        ((∀ e ∈ f.held, ∀ c ∈ s.cle.claims, mine c → conflicts ⟨⟨p, e.serial⟩, e.fields, .held, none⟩ c = false) →
          t.lif.queue = s.lif.queue ∧ t.cpt.notices.get 2 = s.cpt.notices.get 2) ∧
        (∀ e ∈ f.publish, t.cle.marks.get e.stream = e.priv) ∧
        (∀ n, (∀ e ∈ f.publish, e.stream ≠ n) → t.cle.marks.get n = s.cle.marks.get n) ∧
        t.cpt.notices.get 5 = match s.cle.peers.get p with
          | none => some (raisedEntry old (.peerAppeared p))
          | some d => if d.state = f.state then old else some (raisedEntry old (.peerState p f.state)))

/-- The contention key is kind rank × 16 + station × 2 + slot, with the examples of the spec; frames of distinct
stations never have the same key; no station sends kind rank 3, and a frame heard with it is discarded. -/
def Obligations.ContentionKeysAreDistinct : Prop :=
  (∀ (own : StationNo) (b : FrameBody), b.wf own → (b.key own).toNat = match b with
    | .claim _ => 0 * 16 + own.val * 2 + 0
    | .sound f => 1 * 16 + own.val * 2 + f.stream.val % 2
    | .presence _ => 2 * 16 + own.val * 2 + 0) ∧
  contentionKey 0 1 0 = 2 ∧ contentionKey 1 0 1 = 17 ∧ contentionKey 2 3 0 = 38 ∧
  (∀ (p q : StationNo) (a b : FrameBody), p ≠ q → a.key p ≠ b.key q) ∧
  (∀ (own : StationNo) (b : FrameBody), keyRank (b.key own) ≠ 3 ∧ keyStation (b.key own) = own) ∧
  ∀ (latch : Latch) (x : LineFrame), keyRank x.key = 3 → acceptFrame latch x = none

/-- Contention bit by bit: of the stations that send, those with the lowest key win, and every other one loses; none
has a bit error. -/
def Obligations.TheLowestKeyWins : Prop :=
  ∀ (keys : List (BitVec 6)) (k : BitVec 6), k ∈ keys →
    contendKey (keyBits k) (pairKeyBits 6 keys) = if ∀ q ∈ keys, k ≤ q then .won else .lost

/-- A receiver accepts exactly the frames that a station can send: it takes the contents b from a frame if and only if
the polarity agrees with its latch and the frame is what the station of its key sends for contents b. -/
def Obligations.AcceptedFramesAreTheSentOnes : Prop :=
  ∀ (latch : Latch) (x : LineFrame) (b : FrameBody), acceptFrame latch x = some b ↔
    latchAgrees latch x.sense = true ∧ b.wf (keyStation x.key) ∧ x = b.asRead (keyStation x.key) x.sense

/-! ### The Intake (04) -/

/-- A LIVE stream of age 7 starves at the next boundary, with its buffer; a call-loss entry of age 7 goes. A block
boundary does so for every stream and entry and makes the others one older; the streams of a peer that expires starve
too; a starved buffer is emptied and, where its stream aged out, gives silence with force at the same boundary. The own
pickup frame is then taken in the call-loss table. That the buffer marks itself returning, and that the table ages before
the own frame is taken, are the model's readings, logs 38 and 4. -/
def Obligations.StreamsAndCallsAgeOut : Prop :=
  (∀ (s : State) (n : StreamNo), (s.iku.heard.get n).state = .live → (s.iku.heard.get n).age = 7 →
    ∃ t, exec (.streamStarved n) s = .next t ∧
      t = { s with iku := { s.iku with
        heard := s.iku.heard.set n { s.iku.heard.get n with state := .starved, age := 8 }, buffers := t.iku.buffers } } ∧
      ∀ i, (s.iku.bufferOf n ≠ some i → t.iku.buffers.get i = s.iku.buffers.get i) ∧
        (s.iku.bufferOf n = some i →
          ((s.iku.buffers.get i).state = .priming ∨ (s.iku.buffers.get i).state = .running) →
          t.iku.buffers.get i = { s.iku.buffers.get i with
            state := .starved, ring := [], expected := none, highRun := 0, lowRun := 0, gap := false, force := true
            returning := true })) ∧
  (∀ (s : State) (p : StationNo) (n : Serial) (u : StreamNo),
    ∃ t, exec (.callLossExpiry p n u) s = .next t ∧ t = { s with iku := { s.iku with callLoss := t.iku.callLoss } } ∧
      ∀ e, e ∈ t.iku.callLoss ↔ e ∈ s.iku.callLoss ∧ ¬ (e.ref = ⟨p, n⟩ ∧ e.uplink = u ∧ e.age = 7)) ∧
  ∀ s : State, s.inConfig = false → BuffersAssigned s → ∃ t, exec .blockBoundary s = .next t ∧
    (∀ n,
      let e := s.iku.heard.get n
      let old := decide (7 ≤ e.age)
      (e.state ≠ .live → t.iku.heard.get n = e) ∧
      (e.state = .live → (old || s.peerExpires (producerOf n)) = false → t.iku.heard.get n = { e with age := e.age + 1 }) ∧
      (e.state = .live → (old || s.peerExpires (producerOf n)) = true →
        t.iku.heard.get n = { e with state := .starved, age := 8 } ∧
        ∀ i : BufferNo,
          let b := s.iku.buffers.get i
          let u := t.iku.buffers.get i
          b.stream = some n → u.stream = some n → (b.state = .priming ∨ b.state = .running) →
            Emptied b u ∧ u.force = !old ∧
            (old = true → u.given = List.replicate 48 ⟨0, 0, false⟩ ∧ u.givenForce = true))) ∧
    let aged := s.iku.callLoss.filterMap (fun e => if e.age < 7 then some { e with age := e.age + 1 } else none)
    let publishes := fun (i : PubSlotNo) => ∃ n, t.pub.slots.get i = .publishing .pickup n
    (((∀ i, ¬ publishes i) ∨ t.pku.call = none) → t.iku.callLoss = aged) ∧
    ∀ (i : PubSlotNo) (c : ClaimRef), publishes i → (∀ j, j ≠ i → ¬ publishes j) → t.pku.call = some c →
      CallTaken ⟨c, streamOf s.own i, t.pku.sd, 0⟩ aged t.iku.callLoss

/-- A SOUND frame of a peer at the buffer of its stream: a STARVED buffer primes with it; a PRIMING or RUNNING one
appends it, with silence for up to three missing frames and the gap mark; a greater jump, or a frame out of order,
empties the buffer, which primes anew with force. Frames that would pass 192 push out the oldest blocks, with an
OVERRUN notice. Each sample frame keeps its SOUND frame's private flag. -/
def Obligations.ArrivalsFillTheBuffer : Prop :=
  ∀ (s : State) (x : LineFrame) (f : SoundFrame) (i : BufferNo), acceptFrame s.lif.latch x = some (.sound f) →
    s.inConfig = false → keyStation x.key ≠ s.own → s.iku.bufferOf f.stream = some i → FillsBounded s →
    ∃ t, exec (.frameReceived x) s = .next t ∧
      let b := s.iku.buffers.get i
      let block := f.samples.map (fun y => (⟨y.l, y.r, f.priv⟩ : RingFrame))
      let again : Buffer := { b with
        state := .priming, ring := block, expected := some (f.seq + 1), highRun := 0, lowRun := 0, gap := false }
      let d := match b.expected with
        | none => 0
        | some e => (f.seq - e).toNat
      let lost := (b.ring.length + 48 * (d + 1) - 192 + 47) / 48
      (b.state = .starved → t.iku.buffers.get i = again ∧ t.cpt = s.cpt) ∧
      ((b.state = .priming ∨ b.state = .running) →
        (d < 4 → t.iku.buffers.get i = { b with
            ring := (b.ring ++ List.replicate (48 * d) (⟨0, 0, false⟩ : RingFrame) ++ block).drop (48 * lost)
            expected := some (f.seq + 1), gap := b.gap || decide (0 < d) } ∧
          t.cpt = if 0 < lost then s.cpt.raise (.overrun f.stream) else s.cpt) ∧
        (4 ≤ d → t.iku.buffers.get i = { again with force := true } ∧ t.cpt = s.cpt))

/-- At a boundary outside CONFIG the Intake frees the dynamic buffers that no user names and gives the free buffers,
lowest first, to the unserved streams of its users, feeds first and then the echo reference: emptied, PRIMING for a
live stream, else STARVED. Every user it cannot serve waits, and each that did not wait before raises EXHAUSTED.
Static buffers and those in use stay. That such a buffer hands no force, also where the one it was freed from had it
set, and that it is not marked as returning, are the model's readings, logs 28 and 38. -/
def Obligations.IntakeServesItsUsers : Prop :=
  ∀ s : State, s.inConfig = false → BuffersAssigned s → ∃ t, exec .blockBoundary s = .next t ∧
    let users := (List.finRange 11).flatMap (fun o => (List.finRange 4).filterMap (fun sl =>
        let g := (t.mxe.feeds.get o).get sl
        if g.active then g.resolved.map (fun n => (User.feed o sl, n)) else none)) ++
      (match t.pku.call, t.pku.echo with
        | some _, some n => [(User.echo, n)]
        | _, _ => [])
    let unservedBy := fun (x : State) (u : User × StreamNo) => producerOf u.2 != s.own &&
      !(List.finRange 6).any (fun i => (x.iku.buffers.get i).stream == some u.2)
    let free := (List.finRange 6).filter (fun i =>
      let b := s.iku.buffers.get i
      b.state == .free || (!b.static && !users.any (fun u => b.stream == some u.2)))
    let wanted := ((users.filter (unservedBy s)).map Prod.snd).eraseDups
    (∀ i, i ∉ free → (t.iku.buffers.get i).stream = (s.iku.buffers.get i).stream ∧
      (t.iku.buffers.get i).static = (s.iku.buffers.get i).static ∧ (t.iku.buffers.get i).state ≠ .free) ∧
    (∀ k i, free[k]? = some i →
      let b := t.iku.buffers.get i
      (∀ n, wanted[k]? = some n →
        b = ⟨b.state, some n, false, [], none, 0, 0, false, b.force, b.returning, List.replicate 48 ⟨0, 0, false⟩, false, false⟩ ∧
        (b.state = .priming ∨ b.state = .starved) ∧
        ((t.iku.heard.get n).state = .live → b.state = .priming ∧ b.force = false ∧ b.returning = false) ∧
        (((s.iku.heard.get n).state ≠ .live ∨ 7 ≤ (s.iku.heard.get n).age) → b.state = .starved)) ∧
      (wanted.length ≤ k → b.state = .free ∧ b.stream = none)) ∧
    t.iku.waiting = users.filter (unservedBy t) ∧
    ((∀ i, (s.iku.buffers.get i).state = .running → 48 ≤ (s.iku.buffers.get i).ring.length) →
      t.cpt.notices.get 6 = (t.iku.waiting.filter (fun u => !s.iku.waiting.contains u)).foldl
        (fun e u => some (raisedEntry e (.exhausted u.2 u.1))) (s.cpt.notices.get 6))

/-- A slip takes the 49 oldest sample frames and gives them without the quietest, the earliest of several; a repeat
takes the 47 oldest and gives the quietest twice. At a boundary a buffer of a live stream that stays assigned gives:
silence while it primes below 96 frames; else its 48 oldest, a slip at the eighth high boundary, a repeat at the
eighth low one, or all it has and silence, with force and an UNDERRUN notice. One that stays STARVED gives silence, with
force only where that was still to be handed, and nothing else of it changes. The mark that tells the readers of the
first block with sound after STARVED is the model's own, log 38. -/
def Obligations.BuffersGiveTheirBlocks : Prop :=
  (∀ (s : State) (i : BufferNo), (s.iku.buffers.get i).state = .running →
    let b := s.iku.buffers.get i
    let quiet := fun (l : List RingFrame) (k : Nat) =>
      k < l.length ∧ (∀ (j : Nat) (x y : RingFrame), l[j]? = some x → l[k]? = some y → (frameMid y).natAbs ≤ (frameMid x).natAbs) ∧
        ∀ (j : Nat) (x y : RingFrame), j < k → l[j]? = some x → l[k]? = some y → (frameMid y).natAbs < (frameMid x).natAbs
    (b.highRun = 7 → 144 < b.ring.length → ∃ (k : Nat) (g : List RingFrame),
      quiet (b.ring.take 49) k ∧ g = (b.ring.take 49).eraseIdx k ∧ g.length = 48 ∧
      exec (.slip i) s = .next { s with iku := { s.iku with buffers := s.iku.buffers.set i { b with
        ring := b.ring.drop 49, highRun := 0, lowRun := 0, gap := false, force := false, given := g
        givenForce := b.force || b.gap, returning := false, givenReturn := b.returning } } }) ∧
    ((b.lowRun = 7 ∨ b.lowRun = 8) → 48 ≤ b.ring.length → b.ring.length < 96 → ∃ (k : Nat) (g : List RingFrame),
      quiet (b.ring.take 47) k ∧ g = (b.ring.take 47).take (k + 1) ++ (b.ring.take 47).drop k ∧ g.length = 48 ∧
      exec (.repeatFrame i) s = .next { s with iku := { s.iku with buffers := s.iku.buffers.set i { b with
        ring := b.ring.drop 47, highRun := 0, lowRun := 0, gap := false, force := false, given := g
        givenForce := b.force || b.gap, returning := false, givenReturn := b.returning } } })) ∧
  ∀ s : State, s.inConfig = false → BuffersAssigned s → ∃ t, exec .blockBoundary s = .next t ∧
    (∀ (i : BufferNo) (n : StreamNo), (s.iku.buffers.get i).stream = some n → (t.iku.buffers.get i).stream = some n →
      (s.iku.buffers.get i).state = .starved → t.iku.buffers.get i = { s.iku.buffers.get i with
        given := List.replicate 48 ⟨0, 0, false⟩, givenForce := (s.iku.buffers.get i).force, force := false
        givenReturn := false }) ∧
    ∀ (i : BufferNo) (n : StreamNo), (s.iku.buffers.get i).stream = some n → (t.iku.buffers.get i).stream = some n →
      (t.iku.heard.get n).state = .live →
      let b := s.iku.buffers.get i
      let r := t.iku.buffers.get i
      let len := b.ring.length
      let high := if 144 < len then b.highRun + 1 else 0
      let low := if len < 96 then min 8 (b.lowRun + 1) else 0
      let gives := fun (k : Nat) (high low : Nat) (g : List RingFrame) (force : Bool) => r = { b with
        state := .running, ring := b.ring.drop k, highRun := high, lowRun := low, gap := false, force := false, given := g
        returning := false, givenReturn := b.returning, givenForce := force || b.force || b.gap }
      let quiet := fun (l : List RingFrame) (k : Nat) =>
        k < l.length ∧ (∀ (j : Nat) (x y : RingFrame), l[j]? = some x → l[k]? = some y → (frameMid y).natAbs ≤ (frameMid x).natAbs) ∧
        ∀ (j : Nat) (x y : RingFrame), j < k → l[j]? = some x → l[k]? = some y → (frameMid y).natAbs < (frameMid x).natAbs
      (b.state = .priming → len < 96 →
        r = { b with
          given := List.replicate 48 ⟨0, 0, false⟩, givenForce := b.force, force := false, givenReturn := false }) ∧
      ((b.state = .running ∨ b.state = .priming ∧ 96 ≤ len) →
        (high = 8 → ∃ k, quiet (b.ring.take 49) k ∧ gives 49 0 low ((b.ring.take 49).eraseIdx k) false) ∧
        (high ≠ 8 → low = 8 → 48 ≤ len → ∃ k, quiet (b.ring.take 47) k ∧
          gives 47 high 0 ((b.ring.take 47).take (k + 1) ++ (b.ring.take 47).drop k) false) ∧
        (high ≠ 8 → ¬ (low = 8 ∧ 48 ≤ len) → 48 ≤ len → gives 48 high low (b.ring.take 48) false) ∧
        (high ≠ 8 → len < 48 → gives len high low (b.ring ++ List.replicate (48 - len) ⟨0, 0, false⟩) true ∧
          ((∀ j, j ≠ i → (s.iku.buffers.get j).state = .running → 48 ≤ (s.iku.buffers.get j).ring.length) →
            t.cpt.notices.get 6 = some (raisedEntry ((t.iku.waiting.filter (fun u => !s.iku.waiting.contains u)).foldl
              (fun e u => some (raisedEntry e (.exhausted u.2 u.1))) (s.cpt.notices.get 6)) (.underrun n)))))

/-! ### The Radio Unit (07) -/

/-- TUNE and SEEK: refused in CONFIG and without a front end, for a channel above 410 or an unknown direction, and SEEK
while one runs; taken, they make A active, retune it, end probe, AF timer and crossfade, and end an announcement with
its class, claim and notice; TUNE cancels a seek with its notice. Path B is in DIVERSITY where it is enabled, else IDLE:
in DIVERSITY a TUNE retunes B to the channel. SCAN and ANNOUNCE_ENABLE write the default in CONFIG and the switch
elsewhere; SCAN has path B chosen again, and a new mode retunes the spare; switching announcements off ends a running
one. That the control chooses at the end of a SEEK, and leaves B where it is, is the model's reading, log 18; that
NOT_READY is answered before an argument out of range, and that before a running seek, is its choice, log 44. -/
def Obligations.RadioRequestsAct : Prop :=
  ∀ s : State,
    let retuned := fun (t : State) (ch : Nat) =>
      t.rdu.active = .a ∧ t.rdu.pathA.tuned.map Fin.val = some ch ∧ t.rdu.pathA.settle = 2 ∧ t.rdu.pathA.qs16 = none ∧
        t.rdu.pathA.data = ProgData.cleared ∧ t.rdu.probe = none ∧ t.rdu.afTimer = none ∧ t.rdu.crossfade = false ∧
        t.rdu.holdOff = 0 ∧ t.rdu.ann.running = false ∧ t.rdu.low = ⟨true, false⟩ ∧ t.rdu.good = ⟨false, false⟩ ∧
        t.rdu.stations = s.rdu.stations ∧ t.cpt.result = ⟨s.cpt.result.number + 1, .accepted, true, []⟩ ∧
        t = { s with lif := t.lif, cle := t.cle, pub := t.pub, rdu := t.rdu, cpt := t.cpt } ∧
        t.rdu.mode = if s.cpt.store.frontEnds = .ab ∧ s.cpt.store.diversity = true then .diversity else .idle
    let a := s.rdu.ann
    let announced := fun (t : State) (cause : AnnounceCause) =>
      let old := s.cpt.notices.get 7
      let present := fun (n : Serial) => findClaim ⟨s.own, n⟩ s.cle.claims ≠ none
      t.rdu.ann.claim = (if a.running = true then none else a.claim) ∧
      (a.running = false → t.pub = s.pub ∧ t.cle = s.cle ∧ t.cpt.notices.get 7 = old) ∧
      (a.running = true → t.pub = { s.pub with radioClass := .programme } ∧
        t.cpt.notices.get 7 = some (raisedEntry old (.announceEnded cause)) ∧
        (∀ n, a.claim = some n → present n → t.cle.claims = eraseClaim ⟨s.own, n⟩ s.cle.claims ∧
          Placed s.lif (.release n) false t.lif ∧ Recomposed s t) ∧
        ((∀ n, a.claim = some n → ¬ present n) → t.cle = s.cle))
    ((s.inConfig = true ∨ s.cpt.store.frontEnds = .none) → ∀ ch d,
      exec (.tune ch) s = .next (s.answer .notReady []) ∧ exec (.seek d) s = .next (s.answer .notReady [])) ∧
    (s.inConfig = false → s.cpt.store.frontEnds ≠ .none → ∀ ch d,
      (410 < ch.toNat → exec (.tune ch) s = .next (s.answer .badArgument [])) ∧
      (ch.toNat ≤ 410 → ∃ t, exec (.tune ch) s = .next t ∧ retuned t ch.toNat ∧ t.rdu.seek = none ∧ announced t .tune ∧
        (t.rdu.mode = .idle → t.rdu.pathB = s.rdu.pathB) ∧
        (t.rdu.mode = .diversity → t.rdu.pathB =
          ⟨t.rdu.pathA.tuned, 2, none, s.rdu.pathB.prepared, ⟨none, none, Tbl.fill 4 none, none, none, []⟩⟩) ∧
        t.cpt.notices.get 9 = if s.rdu.seek = none then s.cpt.notices.get 9
          else some (raisedEntry (s.cpt.notices.get 9) .seekCancelled)) ∧
      (1 < d.toNat → exec (.seek d) s = .next (s.answer .badArgument [])) ∧
      (d.toNat ≤ 1 → s.rdu.seek ≠ none → exec (.seek d) s = .next (s.answer .busy [])) ∧
      (d.toNat ≤ 1 → s.rdu.seek = none → ∃ t, exec (.seek d) s = .next t ∧
        let start := s.rdu.activeRec.tuned.getD 0
        retuned t ((start.val + if d = 0 then 1 else 410) % 411) ∧ announced t .seek ∧ t.rdu.pathB = s.rdu.pathB ∧
        t.cpt.notices.get 9 = s.cpt.notices.get 9 ∧
        t.rdu.seek = some ⟨if d = 0 then .up else .down, start, 0, 0, 0⟩)) ∧
    (∀ b : Byte, 1 < b.toNat → exec (.scan b) s = .next (s.answer .badArgument []) ∧
      exec (.announceEnable b) s = .next (s.answer .badArgument [])) ∧
    (∀ on : Bool,
      let b : Byte := if on then 1 else 0
      (s.inConfig = true →
        exec (.scan b) s = .next (State.answer { s with
          cpt := { s.cpt with store := { s.cpt.store with scanDefault := on } } } .accepted []) ∧
        exec (.announceEnable b) s = .next (State.answer { s with
          cpt := { s.cpt with store := { s.cpt.store with announceDefault := on } } } .accepted [])) ∧
      (s.inConfig = false →
        (∃ t, exec (.scan b) s = .next t ∧ t.rdu.scanEnable = on ∧ t.cpt = s.cpt.answer .accepted [] ∧
          t = { s with rdu := t.rdu, cpt := t.cpt } ∧
          (let r := s.rdu
           let u := t.rdu
           let chosen : PathBMode :=
             if s.cpt.store.frontEnds ≠ .ab then .idle
             else if r.probe ≠ none then .probe
             else if on = true ∧ r.good.above = true then .scan
             else if s.cpt.store.diversity = true then .diversity
             else .idle
           let follows := chosen = .diversity ∧ r.seek = none ∧ r.activeRec.tuned ≠ none
           u.mode = chosen ∧ u.active = r.active ∧ u.activeRec = r.activeRec ∧
           ((chosen = r.mode ∨ r.crossfade = true) → u.spareRec = r.spareRec) ∧
           (chosen ≠ r.mode → r.crossfade = true → u.deferred = true) ∧
           (chosen ≠ r.mode → r.crossfade = false →
             (chosen = .scan → u.spareRec.tuned = some r.scanPos ∧ u.spareRec.settle = 2) ∧
             (follows → u.spareRec.tuned = r.activeRec.tuned ∧ u.spareRec.settle = 2) ∧
             ((chosen = .idle ∨ chosen = .diversity) → ¬ follows → u.spareRec = r.spareRec)))) ∧
        ((on = true ∨ s.rdu.ann.running = false) → exec (.announceEnable b) s = .next (State.arbitrate
          (State.answer { s with rdu := { s.rdu with announceEnable := on } } .accepted []))) ∧
        (on = false → s.rdu.ann.running = true → ∃ t, exec (.announceEnable b) s = .next t ∧
          t.rdu = { s.rdu with announceEnable := false, ann := { s.rdu.ann with running := false, claim := none } } ∧
          t.pub.radioClass = .programme ∧
          t.cpt.notices.get 7 = some (raisedEntry (s.cpt.notices.get 7) (.announceEnded .disabled)) ∧
          t.cpt.result = ⟨s.cpt.result.number + 1, .accepted, true, []⟩ ∧
          ∀ n, s.rdu.ann.claim = some n → findClaim ⟨s.own, n⟩ t.cle.claims = none)))

/-- The quality of a report is FS − 20 − 3 × MP − 2 × AC clamped to 0..100, and the smoothed quality moves a quarter of
the way, toward zero, within 0..1600. The prepared block blends, mutes softly below Qs 40 and is silent while a seek
runs on the path. A report in CONFIG or of an absent path is ignored; one of another channel, or while the path
settles, prepares silence; a kept one writes quality and block, and in a seek counts, finds, moves on, or fails after
the whole circuit. That values above their ranges are read as the top of the range, and that the last block of a found
seek is muted, are the model's readings, logs 21 and 27. -/
def Obligations.ReportsAreKeptOrDiscarded : Prop :=
  (∀ x : Report,
    (reportQuality x : Int) =
      max 0 (min 100 ((min 120 x.fs : Nat) - 20 - 3 * (min 15 x.mp : Nat) - 2 * (min 15 x.ac : Nat)))) ∧
  (∀ o q : Nat, o ≤ 1600 → q ≤ 100 → smooth none q = 16 * q ∧
    (smooth (some o) q : Int) = o + Int.tdiv (16 * q - o) 4 ∧ smooth (some o) q ≤ 1600) ∧
  (∀ (x : Report) (qs : Nat) (forced : Bool), (preparedBlock x qs forced).length = 48 ∧
    ∀ (n : Nat) (m d : Sample), n < 48 → x.mid[n]? = some m → x.side[n]? = some d →
      let w := d.toInt * (min 32 (qs - 30) / 2 : Nat) / 16
      let a := if forced then 128 else if qs < 40 then 2 * (40 - qs) else 0
      (preparedBlock x qs forced)[n]? =
        some ⟨saturate (product (m.toInt + w) (gain a)), saturate (product (m.toInt - w) (gain a))⟩) ∧
  ∀ (s : State) (p : Path) (x : Report),
    let r := s.rdu.path p
    let onChannel := r.tuned.map Fin.val = some x.channel
    ((s.inConfig = true ∨ pathPresent s.cpt.store.frontEnds p = false) → exec (.frontEndReport p x) s = .next s) ∧
    (s.inConfig = false → pathPresent s.cpt.store.frontEnds p = true →
      (¬ onChannel → exec (.frontEndReport p x) s =
        .next (State.arbitrate { s with rdu := s.rdu.setPath p { r with prepared := some silentBlock } })) ∧
      (onChannel → 0 < r.settle → exec (.frontEndReport p x) s = .next (State.arbitrate
        { s with rdu := s.rdu.setPath p { r with settle := r.settle - 1, prepared := some silentBlock } })) ∧
      (onChannel → r.settle = 0 → ∃ t, exec (.frontEndReport p x) s = .next t ∧
        let q := smooth r.qs16 (reportQuality x)
        let u := t.rdu.path p
        let old := s.cpt.notices.get 9
        t = { s with lif := t.lif, cle := t.cle, pub := t.pub, rdu := t.rdu, cpt := t.cpt } ∧
          u.prepared = some (preparedBlock x (q / 16) (decide (p = s.rdu.active ∧ s.rdu.seek ≠ none))) ∧
          (u.settle = 0 → u.tuned = r.tuned ∧ u.qs16 = some q) ∧ (u.settle ≠ 0 → u.settle = 2 ∧ u.qs16 = none) ∧
          ((p = s.rdu.active ∧ s.rdu.seek = none ∨ p ≠ s.rdu.active ∧ (s.rdu.mode = .idle ∨ s.rdu.mode = .diversity)) →
            u.settle = 0) ∧
          (p = s.rdu.active → ∀ k, s.rdu.seek = some k →
            let sum := k.sum + reportQuality x
            let ended := t.rdu.seek = none ∧ (t.rdu.mode = .diversity → s.rdu.crossfade = false →
              t.rdu.spareRec.tuned = u.tuned ∧ t.rdu.spareRec.settle = 2)
            (k.measured + 1 < 3 → t.rdu.seek = some { k with measured := k.measured + 1, sum := sum } ∧ u.settle = 0 ∧
              t.cpt.notices.get 9 = old) ∧
            (3 ≤ k.measured + 1 → 35 ≤ sum / 3 → ended ∧ u.settle = 0 ∧
              t.cpt.notices.get 9 = some (raisedEntry old (.seekFound (r.tuned.getD 0)))) ∧
            (3 ≤ k.measured + 1 → sum / 3 < 35 → k.steps + 1 < 410 →
              t.rdu.seek = some { k with steps := k.steps + 1, measured := 0, sum := 0 } ∧
              u.tuned = some (nextChannel k.direction (r.tuned.getD 0)) ∧ u.settle = 2 ∧ t.cpt.notices.get 9 = old) ∧
            (3 ≤ k.measured + 1 → sum / 3 < 35 → 410 ≤ k.steps + 1 → ended ∧ u.tuned = some k.start ∧ u.settle = 2 ∧
              t.cpt.notices.get 9 = some (raisedEntry old .seekFailed)))))

/-- The word of a kept report goes into the record of its path: tags by two in a row, name parts, flags, alternatives.
On the active path two FLAGS words in a row with announce set start an announcement where it is enabled and traffic is
set: RADIO turns ANNOUNCE, and its claim is held and queued where the station may claim. Two with announce clear end
it, and so does a tag change. Other words leave it. A name is present with all four parts. That the clear run counts
while no announcement runs is the model's reading, log 27. -/
def Obligations.RadioTakesItsWords : Prop :=
  (∀ (s : State) (p : Path) (x : Report), s.inConfig = false → pathPresent s.cpt.store.frontEnds p = true →
    (s.rdu.path p).tuned.map Fin.val = some x.channel → (s.rdu.path p).settle = 0 →
    ∃ t, exec (.frontEndReport p x) s = .next t ∧
      let d := (s.rdu.path p).data
      let u := t.rdu.path p
      (u.settle = 0 → DataAfter (s.rdu.path p).tuned d x.word u.data) ∧
      (u.settle ≠ 0 → u.settle = 2 ∧ u.data = ⟨none, none, Tbl.fill 4 none, none, none, []⟩) ∧
      (p ≠ s.rdu.active → t.rdu.ann = s.rdu.ann ∧ t.pub = s.pub ∧ t.cle = s.cle) ∧
      (p = s.rdu.active → (∀ k, s.rdu.seek = some k → k.measured < 2) →
        let a := s.rdu.ann
        let before := s.cpt.notices.get 7
        let after := t.cpt.notices.get 7
        let same := t.pub = s.pub ∧ t.cle = s.cle ∧ after = before
        let ends := fun (cause : AnnounceCause) (active clear : Nat) =>
          t.rdu.ann = ⟨false, none, active, clear, a.hold⟩ ∧ t.pub = { s.pub with radioClass := .programme } ∧
          after = some (raisedEntry before (.announceEnded cause)) ∧
          (∀ n, a.claim = some n → findClaim ⟨s.own, n⟩ t.cle.claims = none) ∧ (a.claim = none → t.cle = s.cle)
        (∀ traffic announce, x.word = some (.flags traffic announce) →
          let active := if announce then min 2 (a.activeRun + 1) else 0
          let clear := if announce then 0 else min 2 (a.clearRun + 1)
          let starts := a.running = false ∧ active = 2 ∧ s.rdu.announceEnable = true ∧ traffic = true
          let stops := a.running = true ∧ clear = 2
          (starts → t.pub = { s.pub with radioClass := .announce } ∧
            let n := s.link.nextSerial s.own
            let f : ClaimFields := ⟨.announce, 0, s.cpt.store.announceZones,
              match s.pub.slots.get s.cpt.store.openSlot with
              | .publishing .radio _ => some (streamOf s.own s.cpt.store.openSlot)
              | _ => none⟩
            let placed := s.cle.lifecycle = .active ∧ (claimsOf s.own s.cle.claims).length < 4
            (placed → t.rdu.ann = ⟨true, some n, 2, 0, 0⟩ ∧ after = some (raisedEntry before (.announceStarted n)) ∧
              t.cle.claims = insertByKey ⟨⟨s.own, n⟩, f, .held, some .radio⟩ s.cle.claims ∧
              (QueueBounded s → ClaimsBounded s → s.lif.queue.length < 8 → t.lif.queue = s.lif.queue ++ [.hold n f])) ∧
            (¬ placed → t.rdu.ann = ⟨true, a.claim, 2, 0, 0⟩ ∧ after = some (raisedEntry before .announceUnclaimed) ∧
              t.cle = s.cle)) ∧
          (stops → ends .flags active clear) ∧
          (¬ starts → ¬ stops → t.rdu.ann = { a with activeRun := active, clearRun := clear } ∧ same)) ∧
        (∀ v, x.word = some (.tagId v) → d.tag ≠ some v → d.lastTag = some v →
          (a.running = true → ends .programme 0 0) ∧
          (a.running = false → t.rdu.ann = { a with activeRun := 0, clearRun := 0 } ∧ same)) ∧
        ((∀ tr an, x.word ≠ some (.flags tr an)) → (∀ v, x.word = some (.tagId v) → d.tag = some v ∨ d.lastTag ≠ some v) →
          t.rdu.ann = a ∧ same))) ∧
  ∀ d : ProgData, ((∃ i, d.parts.get i = none) → d.name = none) ∧
    ∀ f : Fin 4 → Byte × Byte, (∀ i, d.parts.get i = some (f i)) →
      d.name = some ((List.finRange 4).flatMap (fun i => [(f i).1, (f i).2]))

/-- A kept report of the active path moves the LOW and GOOD detectors at the second crossing in a row, with the notices
of the edge selections, the AF timer and probe with LOW, and the mode the control chooses; that LOW is compared before
GOOD is the model's choice, log 36. One of the spare counts the diversity run, measures a probe candidate up to its
fifth report and judges it, or measures the scanned channel up to its third report, enters it in the station list and
moves on; after channel 410 the list ages, entries unseen for a fourth pass go, and a SCAN notice tells. -/
def Obligations.ReportsWatchAndMeasure : Prop :=
  ∀ (s : State) (p : Path) (x : Report), s.inConfig = false → pathPresent s.cpt.store.frontEnds p = true →
    (s.rdu.path p).tuned.map Fin.val = some x.channel → (s.rdu.path p).settle = 0 → StationsOrdered s →
    ∃ t, exec (.frontEndReport p x) s = .next t ∧
      let r := s.rdu
      let u := t.rdu
      let c := s.cpt.store
      let quality := reportQuality x
      let qs := smooth (r.path p).qs16 quality / 16
      let chosen : PathBMode :=
        if c.frontEnds ≠ .ab then .idle
        else if u.probe ≠ none then .probe
        else if r.scanEnable = true ∧ u.good.above = true then .scan
        else if c.diversity = true then .diversity
        else .idle
      (p = r.active → r.seek = none →
        let watched := fun (d : Detector) (threshold : Nat) (e : Detector) =>
          (decide (threshold ≤ qs) = d.above → e = ⟨d.above, false⟩) ∧
          (decide (threshold ≤ qs) ≠ d.above → d.pending = false → e = ⟨d.above, true⟩) ∧
          (decide (threshold ≤ qs) ≠ d.above → d.pending = true → e = ⟨!d.above, false⟩)
        let reported := fun (edge : Edge) (rise fall : ReceptionDetail) (d e : Detector) (old : Option NoticeEntry) =>
          let detail := fun (what : ReceptionDetail) => some (raisedEntry old (.reception what p (r.path p).tuned (some qs)))
          if d.above = false ∧ e.above = true ∧ (edge = .rise ∨ edge = .both) then detail rise
          else if d.above = true ∧ e.above = false ∧ (edge = .fall ∨ edge = .both) then detail fall
          else old
        watched r.low c.lowThreshold u.low ∧ watched r.good c.goodThreshold u.good ∧
        (r.low.above = u.low.above → u.afTimer = r.afTimer ∧ (u.probe = none ↔ r.probe = none) ∧
          (r.mode = .probe → u.probe = r.probe)) ∧
        (r.low.above = true → u.low.above = false → u.afTimer = some 200) ∧
        (r.low.above = false → u.low.above = true → u.afTimer = none ∧ u.probe = none) ∧
        t.cpt.notices.get 8 = reported c.goodEdge .good .notGood r.good u.good
          (reported c.lowEdge .regained .low r.low u.low (s.cpt.notices.get 8)) ∧
        u.mode = chosen ∧
        (u.mode ≠ r.mode → r.crossfade = false →
          (u.mode = .scan → u.spareRec.tuned = some r.scanPos ∧ u.spareRec.settle = 2) ∧
          (u.mode = .diversity → u.spareRec.tuned = (r.path p).tuned ∧ u.spareRec.settle = 2))) ∧
      (p ≠ r.active → r.mode = .diversity →
        u.divRun = match r.seek, r.activeRec.qs with
          | none, some a =>
            if r.crossfade = false ∧ (r.path p).tuned = r.activeRec.tuned then
              if a + 6 ≤ qs then min 3 (r.divRun + 1) else 0
            else r.divRun
          | _, _ => r.divRun) ∧
      (p ≠ r.active → r.mode = .probe → r.deferred = false → ∀ k, r.probe = some k → k.phase ≠ .swapWanted →
        let seen := k.tagSeen || match x.word with
          | some (.tagId v) => r.activeRec.data.tag == some v
          | _ => false
        let sum := k.sum + quality
        let succeeds := seen = true ∧ ∃ a, r.activeRec.qs = some a ∧ a + 10 ≤ sum / 5
        (k.measured + 1 < 5 → u.probe = some { k with
          phase := .measuring, measured := k.measured + 1, sum := sum, tagSeen := seen }) ∧
        (5 ≤ k.measured + 1 →
          (succeeds → u.probe = some { k with
            phase := .swapWanted, measured := k.measured + 1, sum := sum, tagSeen := seen }) ∧
          (¬ succeeds → ∀ ch, k.candidates[k.index + 1]? = some ch →
            u.probe = some ⟨k.candidates, k.index + 1, .settling, 0, 0, false⟩ ∧ (u.path p).tuned = some ch ∧
            (u.path p).settle = 2) ∧
          (¬ succeeds → k.candidates.length ≤ k.index + 1 →
            u.probe = none ∧ u.afTimer = (if r.low.above then r.afTimer else some 200) ∧ u.mode = chosen ∧
            t.cpt.notices.get 8 = some (raisedEntry (s.cpt.notices.get 8)
              (.reception .probeFailed r.active r.activeRec.tuned r.activeRec.qs))))) ∧
      (p ≠ r.active → r.mode = .scan → r.deferred = false →
        let sum := r.scanSum + quality
        let mean := sum / 3
        let l := r.stations
        let ch := r.scanPos
        let entered := fun (l : List StationEntry) (d : ProgData) =>
          l.takeWhile (fun e => decide (e.channel < ch)) ++ ⟨ch, mean, d.tag, d.name, d.traffic, 0, true⟩ ::
            l.dropWhile (fun e => decide (e.channel < ch))
        (r.scanMeas + 1 < 3 → u.scanMeas = r.scanMeas + 1 ∧ u.scanSum = sum ∧ u.stations = l ∧ u.scanPos = ch) ∧
        (3 ≤ r.scanMeas + 1 → u.scanMeas = 0 ∧ u.scanSum = 0 ∧ (u.path p).tuned = some u.scanPos ∧ (u.path p).settle = 2 ∧
          u.scanPos.val = (ch.val + 1) % 411 ∧
          ∃ d m, DataAfter (r.path p).tuned (r.path p).data x.word d ∧
            (ch.val < 410 → u.stations = m ∧ t.cpt.notices.get 10 = s.cpt.notices.get 10) ∧
            (ch.val = 410 →
              let kept := m.filter (fun e => e.seen || decide (e.unseen + 1 < 4))
              u.stations = kept.map (fun e => if e.seen then { e with seen := false } else { e with unseen := e.unseen + 1 }) ∧
              t.cpt.notices.get 10 =
                some (raisedEntry (s.cpt.notices.get 10) (.scan kept.length (m.length - kept.length)))) ∧
            (mean < 25 → m = l) ∧
            (25 ≤ mean → (∃ e ∈ l, e.channel = ch) → m = l.map (fun e => if e.channel = ch then { e with
              best := max e.best mean, tag := d.tag.or e.tag, name := d.name.or e.name
              traffic := d.traffic.or e.traffic, unseen := 0, seen := true } else e)) ∧
            (25 ≤ mean → (∀ e ∈ l, e.channel ≠ ch) → l.length < 32 → m = entered l d) ∧
            (25 ≤ mean → (∀ e ∈ l, e.channel ≠ ch) → 32 ≤ l.length → ∀ w ∈ l,
              (∀ e ∈ l, w.best < e.best ∨ (w.best = e.best ∧ w.channel ≤ e.channel)) →
              (w.best < mean → m = entered (l.filter (fun e => e.channel != w.channel)) d) ∧
              (mean ≤ w.best → m = l))))

/-- What the Radio Unit does at a boundary: a crossfade's block with its weights, the swaps at hold-off 20 with their
notices, the AF timer's probe or restart, the end of a scan pass, and the end of an announcement after 100 boundaries
of poor reception. Each boundary outside CONFIG forms the RADIO block from the prepared blocks and takes them, raises
the hold-off, makes the swap that is due, a probe's before a diversity one, steps the AF timer but after a probe swap,
and counts the reception hold. The retune of the spare after a crossfade, a pass end taken alone, and that the AF timer
does not step at a probe swap that restarts it, are the model's readings, logs 19, 20 and 4. -/
def Obligations.RadioBoundaryEventsAct : Prop :=
  ∀ s : State,
    let r := s.rdu
    let candidates := fun (tuned : Option Channel) => r.activeRec.data.alt.filter (fun c => decide (tuned ≠ some c))
    let faded := fun (l : List StereoSample) => ∀ (n : Nat) (a b : StereoSample),
      r.spareRec.preparedOrSilence[n]? = some a → r.activeRec.preparedOrSilence[n]? = some b → n < 48 →
      ∃ y, l[n]? = some y ∧ y.l.toInt = (a.l.toInt * (48 - n) + b.l.toInt * n + 24) / 48 ∧
        y.r.toInt = (a.r.toInt * (48 - n) + b.r.toInt * n + 24) / 48
    (r.crossfade = true → ∃ t, exec .crossfade s = .next t ∧ t = { s with rdu := t.rdu } ∧ t.rdu.crossfade = false ∧
      t.rdu.deferred = false ∧ t.rdu.pathA.prepared = none ∧ t.rdu.pathB.prepared = none ∧ t.rdu.active = r.active ∧
      (r.deferred = true → r.mode = .diversity → r.seek = none → r.activeRec.tuned ≠ none →
        t.rdu.spareRec.tuned = r.activeRec.tuned ∧ t.rdu.spareRec.settle = 2) ∧ faded t.rdu.radio) ∧
    (r.mode = .diversity → r.divRun = 3 → (r.holdOff = 19 ∨ r.holdOff = 20) → ∃ t, exec .diversitySwap s = .next t ∧
      t = { s with rdu := t.rdu, cpt := t.cpt } ∧ t.rdu.active = r.spare ∧ t.rdu.holdOff = 0 ∧ t.rdu.crossfade = true ∧
      t.rdu.divRun = 0 ∧ t.rdu.activeRec = { r.spareRec with data := r.activeRec.data } ∧ t.rdu.spareRec = r.activeRec ∧
      t.cpt = s.cpt.raise (.reception .diversitySwitch r.spare r.spareRec.tuned r.spareRec.qs)) ∧
    (∀ p, r.probe = some p → p.phase = .swapWanted → (r.holdOff = 19 ∨ r.holdOff = 20) → ∃ t, exec .probeSwap s = .next t ∧
      t = { s with rdu := t.rdu, cpt := t.cpt } ∧ t.rdu.active = r.spare ∧ t.rdu.holdOff = 0 ∧ t.rdu.crossfade = true ∧
      t.rdu.probe = none ∧ t.rdu.afTimer = (if r.low.above then r.afTimer else some 200) ∧
      t.cpt = s.cpt.raise (.reception .probeSuccess r.spare r.spareRec.tuned r.spareRec.qs)) ∧
    (r.afTimer = some 1 →
      let found := candidates r.activeRec.tuned
      ((found = [] ∨ s.cpt.store.frontEnds ≠ .ab) →
        exec .afTimerExpiry s = .next { s with rdu := { r with afTimer := some 200 } }) ∧
      (s.cpt.store.frontEnds = .ab → ∀ c l, found = c :: l → ∃ t, exec .afTimerExpiry s = .next t ∧
        t = { s with rdu := t.rdu } ∧ t.rdu.afTimer = none ∧ t.rdu.mode = .probe ∧
        t.rdu.probe = some ⟨c :: l, 0, .settling, 0, 0, false⟩ ∧
        (r.mode ≠ .probe → r.crossfade = false → t.rdu.spareRec.tuned = some c ∧ t.rdu.spareRec.settle = 2))) ∧
    (r.mode = .scan → r.scanPos = 410 → ∃ t, exec .scanPassEnd s = .next t ∧
      t = { s with rdu := t.rdu, cpt := t.cpt } ∧ t.rdu.scanPos = 0 ∧ t.rdu.spareRec.tuned = some 0 ∧
      (∀ e ∈ r.stations, (e.seen = true → { e with seen := false } ∈ t.rdu.stations) ∧
        (e.seen = false → e.unseen + 1 < 4 → { e with unseen := e.unseen + 1 } ∈ t.rdu.stations)) ∧
      t.rdu.stations.length = (r.stations.filter (fun e => e.seen || decide (e.unseen + 1 < 4))).length ∧
      t.cpt = s.cpt.raise (.scan t.rdu.stations.length (r.stations.length - t.rdu.stations.length))) ∧
    (r.ann.running = true → r.low.above = false → r.ann.hold = 99 → ∃ t, exec .receptionHoldExpiry s = .next t ∧
      t.rdu.ann.running = false ∧ t.rdu.ann.claim = none ∧ t.pub.radioClass = .programme ∧
      t.cpt.notices.get 7 = some (raisedEntry (s.cpt.notices.get 7) (.announceEnded .reception)) ∧
      (∀ n, r.ann.claim = some n → findClaim ⟨s.own, n⟩ t.cle.claims = none) ∧
      t = { s with lif := t.lif, cle := t.cle, pub := t.pub, rdu := t.rdu, cpt := t.cpt }) ∧
    (s.inConfig = false → ∃ t, exec .blockBoundary s = .next t ∧
      let u := t.rdu
      let ends := s.cpt.store.frontEnds
      let old := s.cpt.notices.get
      let holdOff := min 20 (r.holdOff + 1)
      let probed := holdOff == 20 && r.probe.any (fun p => p.phase == .swapWanted)
      let swaps := probed || (holdOff == 20 && r.mode == .diversity && r.divRun == 3)
      (ends = .none → u.radio = List.replicate 48 StereoSample.zero) ∧
      (ends ≠ .none → r.crossfade = false → u.radio = r.activeRec.preparedOrSilence ∧
        (u.path r.active).prepared = none ∧ (u.path r.spare).prepared = r.spareRec.prepared) ∧
      (ends ≠ .none → r.crossfade = true → faded u.radio ∧ u.pathA.prepared = none ∧ u.pathB.prepared = none) ∧
      ((r.crossfade = false ∨ r.holdOff < 19) →
        u.active = (if swaps then r.spare else r.active) ∧ u.holdOff = (if swaps then 0 else holdOff) ∧
        (ends ≠ .none → u.crossfade = swaps) ∧
        (swaps = true → u.activeRec = { r.spareRec with data := r.activeRec.data }) ∧
        t.cpt.notices.get 8 = (if swaps then some (raisedEntry (old 8) (.reception
            (if probed then .probeSuccess else .diversitySwitch) r.spare r.spareRec.tuned r.spareRec.qs))
          else old 8) ∧
        (probed = true → u.probe = none ∧ u.afTimer = if r.low.above then r.afTimer else some 200) ∧
        (probed = false →
          let found := candidates u.activeRec.tuned
          let keeps := r.crossfade = false → u.probe = r.probe;
          (r.afTimer = none → u.afTimer = none ∧ keeps) ∧
          (∀ n, r.afTimer = some n → 1 < n → u.afTimer = some (n - 1) ∧ keeps) ∧
          (∀ n, r.afTimer = some n → n ≤ 1 →
            ((found = [] ∨ ends ≠ .ab) → u.afTimer = some 200 ∧ keeps) ∧
            (found ≠ [] → ends = .ab →
              u.afTimer = none ∧ u.probe = some ⟨found, 0, .settling, 0, 0, false⟩ ∧ u.mode = .probe)))) ∧
      (let a := r.ann
       let goes := a.running && !r.low.above && decide (99 ≤ a.hold)
       (goes = false → u.ann.running = a.running ∧ u.ann.claim = a.claim ∧
         u.ann.hold = (if a.running then if r.low.above then 0 else a.hold + 1 else a.hold) ∧
         t.pub.radioClass = s.pub.radioClass ∧ t.cpt.notices.get 7 = old 7) ∧
       (goes = true → u.ann.running = false ∧ u.ann.claim = none ∧ t.pub.radioClass = .programme ∧
         t.cpt.notices.get 7 = some (raisedEntry (old 7) (.announceEnded .reception)) ∧
         ∀ n, a.claim = some n → findClaim ⟨s.own, n⟩ t.cle.claims = none)))

/-! ### The Pickup Unit (08) -/

/-- At a boundary outside CONFIG the pickup is active for the first HELD CALL claim that covers a zone of a configured
microphone, with its candidates and echo stream; it starts, switches and stops with its PICKUP notice. When it starts,
its slot publishes PICKUP from sequence 0 where it was idle; while it lasts the slot goes on; when it stops, the slot
stops and the LIF gets an empty frame. -/
def Obligations.PickupFollowsTheFirstCall : Prop :=
  ∀ s : State, s.inConfig = false → ∃ t, exec .blockBoundary s = .next t ∧
    let covered := fun (zs : ZoneSet) (m : MicNo) => (s.cpt.store.micZone.get m).any (zoneIn zs)
    let first := s.cle.claims.find? (fun c => c.isHeld && c.fields.kind == .call &&
      (List.finRange 4).any (covered c.fields.zones))
    let i := s.cpt.store.pickupSlot
    let old := s.cpt.notices.get 4
    t.pku.call = first.map Claim.name ∧
    (∀ c, first = some c → t.pku.echo = c.fields.ref ∧ ∀ m, micIn t.pku.candidates m = covered c.fields.zones m) ∧
    (first = none → t.pku = if s.pku.call = none then s.pku else Pku.inactive) ∧
    t.cpt.notices.get 4 = (match s.pku.call, first with
      | none, none => old
      | none, some c => some (raisedEntry old (.pickupActive c.name t.pku.candidates c.fields.ref))
      | some r, some c => if c.name = r then old else some (raisedEntry old (.pickupSwitched r c.name c.fields.ref))
      | some r, none => some (raisedEntry old (.pickupInactive r))) ∧
    (s.pku.call = none → first ≠ none → s.pub.slots.get i = .idle → t.pub.slots.get i = .publishing .pickup 1) ∧
    (s.pku.call ≠ none → first ≠ none → ∀ src n, s.pub.slots.get i = .publishing src n →
      t.pub.slots.get i = .publishing src (n + 1)) ∧
    (s.pku.call ≠ none → first = none → t.pub.slots.get i = .idle ∧
      (s.cle.lifecycle = .isolated → t.lif.sound.get i = s.lif.sound.get i) ∧
      (s.cle.lifecycle ≠ .isolated → s.lif.flying (.sound i) = false → (t.lif.sound.get i).frame = none) ∧
      (s.cle.lifecycle ≠ .isolated → t.cle.lifecycle ≠ .isolated → s.lif.flying (.sound i) = true →
        t.lif.sound.get i = ⟨(s.lif.sound.get i).frame, some none⟩))

/-- The fifth boundary in a row at which the loudest other candidate beats the selected microphone by 6 switches to it;
a hang timer that runs out sets the suppression state from the other; the uplink suppression moves by 4 toward its
target and the talk loss is the rest of the call loss. At a boundary the active pickup measures the echo and every
microphone, selects, detects far and near activity, sets the suppression and forms the uplink block. The level of a
block follows from its peak. Which block an echo of the own pickup stream gives, and from which state of that slot, are
the model's choices, logs 37 and 42; that missing microphone samples are zero is its reading, log 8. -/
def Obligations.PickupSelectsAndSuppresses : Prop :=
  ((∀ (s : State) (r : ClaimRef) (m c : MicNo), s.pku.call = some r → s.pku.selected = some m → s.pku.run = 4 →
    s.pku.challenger = some c → c ≠ m → micIn s.pku.candidates c = true →
    s.pku.lm.get c + 6 ≤ s.pku.lm.get m →
    (∀ d, d ≠ m → micIn s.pku.candidates d = true →
      s.pku.lm.get c < s.pku.lm.get d ∨ (s.pku.lm.get c = s.pku.lm.get d ∧ c ≤ d)) →
    exec .micSwitch s = .next { s with pku := { s.pku with selected := some c, challenger := none, run := 0 } }) ∧
  (∀ (s : State) (r : ClaimRef), s.pku.call = some r →
    (s.pku.far = 1 → exec (.hangTimerExpiry .far) s = .next { s with
      pku := { s.pku with far := 0, supp := if 0 < s.pku.near then .send else .idle } }) ∧
    (s.pku.near = 1 → exec (.hangTimerExpiry .near) s = .next { s with
      pku := { s.pku with near := 0, supp := if 0 < s.pku.far then .receive else .idle } })) ∧
  ∀ (p : Pku) (c : Store),
    let target := match p.supp with
      | .receive => c.callLoss
      | .send => 0
      | .double | .idle => c.callLoss / 2
    (p.su < target → (p.split c).su = min target (p.su + 4)) ∧
    (target < p.su → (p.split c).su = max target (p.su - 4)) ∧
    (p.su = target → (p.split c).su = p.su) ∧ (p.split c).sd = c.callLoss - (p.split c).su) ∧
  (∀ s : State, s.inConfig = false → ∃ t, exec .blockBoundary s = .next t ∧ ∀ r, t.pku.call = some r →
    let c := s.cpt.store
    let q := t.pku
    let lm := fun (m : MicNo) => q.lm.get m
    let mic := fun (m : MicNo) => padTo 48 (0 : Sample) (s.inputs.mics.get m)
    let anew := s.pku.call ≠ some r
    let kept := if anew then none else s.pku.selected.filter (micIn q.candidates)
    let best := fun (skip : Option MicNo) (m : MicNo) => micIn q.candidates m = true ∧ some m ≠ skip ∧
      ∀ d, micIn q.candidates d = true → some d ≠ skip → lm m < lm d ∨ (lm m = lm d ∧ m ≤ d)
    (∀ n, q.echo = some n → ∃ x, StreamSound s t n x ∧ q.echoServed = x.served ∧
      q.ld = level (x.block.flatMap (fun y => [y.l, y.r]))) ∧
    (∀ m, lm m = min 128 (level (mic m) + c.micTrim.get m)) ∧
    (kept = none → (∀ m, q.selected = some m ↔ best none m) ∧ q.challenger = none ∧ q.run = 0) ∧
    (∀ m, kept = some m →
      ((∀ d, best (some m) d → lm m < lm d + 6) → q.selected = some m ∧ q.challenger = none ∧ q.run = 0) ∧
      (∀ d, best (some m) d → lm d + 6 ≤ lm m →
        let run := if s.pku.challenger = some d then s.pku.run + 1 else 1
        (run < 5 → q.selected = some m ∧ q.challenger = some d ∧ q.run = run) ∧
        (5 ≤ run → q.selected = some d ∧ q.challenger = none ∧ q.run = 0))) ∧
    (let near := match q.selected with
        | some m => lm m
        | none => 128
     let start := fun (n d : Nat) => if anew then d else n
     q.far = (if q.ld < 128 ∧ q.ld ≤ c.farThreshold then 20 else start s.pku.far 0 - 1) ∧
      q.near = (if near < 128 ∧ near ≤ c.nearThreshold ∧ near < q.ld + c.coupling then 20 else start s.pku.near 0 - 1) ∧
      q.supp = (if 0 < q.far then if 0 < q.near then .double else .receive else if 0 < q.near then .send else .idle) ∧
      (let su := start s.pku.su (c.callLoss / 2)
       let target := match q.supp with
         | .receive => c.callLoss
         | .send => 0
         | .double | .idle => c.callLoss / 2
       q.su = if su < target then min target (su + 4) else max target (su - 4)) ∧
      q.sd = c.callLoss - q.su ∧
      q.uplink = some (match q.selected with
        | some m => (mic m).map (fun x => BitVec.ofInt 24 (product x.toInt (gain (min 128 (q.su + c.micTrim.get m)))))
        | none => List.replicate 48 0))) ∧
  ∀ (l : List Sample) (p : Nat), GreatestIn (l.map (fun x => min 8388607 x.toInt.natAbs)) p →
    (p = 0 → level l = 128) ∧
    ∀ k, 2 ^ k ≤ p → p < 2 ^ (k + 1) → level l = min 128 (8 * (22 - k) + (15 - 8 * p / 2 ^ k))

/-! ### The Output Stage (06) -/

/-- FAULT_ACK removes the LATCHED sources that are deasserted, clears the OC lock with OC, and answers STILL_ACTIVE
where a LATCHED source stays. A source declared asserted joins the hold sets it is mapped to, the fourth OC within the
window locks, and those bridges are disabled, LOCKED or HALTED, with their notices; deasserted it leaves the hold sets
as they are. A disabled bridge with an empty hold set is re-enabled at SPLIT, d0 128 and silence. OC history entries go
at age 1000. The codes in the answer, and that several bridges raise their notices in
ascending number, are the model's choices, logs 11 and 25. -/
def Obligations.FaultSourcesHoldBridges : Prop :=
  (∀ (s : State) (b : Byte), 7 < b.toNat → exec (.faultAck b) s = .next (s.answer .badArgument [])) ∧
  (∀ (s : State) (i : BridgeNo),
    let b := s.ost.bridges.get i
    (∃ t, exec (.faultAck (BitVec.ofNat 8 i.val)) s = .next t ∧
      let u := t.ost.bridges.get i
      let latched := LatchedFor s.cpt.store b
      let asserted := fun (k : FaultKind) => holds (s.ost.assertedSet i) k = true
      t = { s with ost := { s.ost with bridges := t.ost.bridges }, cpt := t.cpt } ∧
      (∀ j, j ≠ i → t.ost.bridges.get j = s.ost.bridges.get j) ∧
      (∀ k, holds u.hold k = true ↔ holds b.hold k = true ∧ ¬ (latched k ∧ ¬ asserted k)) ∧
      t.cpt = s.cpt.answer t.cpt.result.status (hold1 u.hold ++ num1 u.state.code) ∧
      ((∃ k, holds b.hold k = true ∧ latched k ∧ asserted k) → t.cpt.result.status = .stillActive) ∧
      ((∀ k, holds b.hold k = true → latched k → ¬ asserted k) → t.cpt.result.status = .accepted) ∧
      u.ocHistory = b.ocHistory ∧ (u.ocLock = true ↔ b.ocLock = true ∧ (holds b.hold .oc = true → asserted .oc)) ∧
      (u.hold = 0 ∨ b.state = .off → u.state = b.state) ∧
      (u.hold ≠ 0 → b.state = .halted ∨ b.state = .locked →
        ((∃ k, holds u.hold k = true ∧ LatchedFor s.cpt.store u k) → u.state = .locked) ∧
        ((∀ k, holds u.hold k = true → ¬ LatchedFor s.cpt.store u k) → u.state = .halted))) ∧
    ((b.state = .halted ∨ b.state = .locked) → b.hold = 0 → ∃ t, exec (.bridgeReenable i) s = .next t ∧
      t = { s with ost := { s.ost with bridges := t.ost.bridges }, mxe := { s.mxe with feeds := t.mxe.feeds }, cpt := t.cpt } ∧
      t.ost.bridges.get i = { b with state := .run, sense := .split, d0 := 128, block := b.block.map (fun _ => 0) } ∧
      (∀ j, j ≠ i → t.ost.bridges.get j = s.ost.bridges.get j) ∧
      (∀ sl, let f := (s.mxe.feeds.get ⟨i.val, by omega⟩).get sl
        f.active = true → ((t.mxe.feeds.get ⟨i.val, by omega⟩).get sl).current = 128) ∧
      (∀ o : OutputNo, o.val ≠ i.val → t.mxe.feeds.get o = s.mxe.feeds.get o) ∧
      t.cpt = s.cpt.raise (.bridgeFault i true 0 .run)) ∧
    exec (.ocHistoryExpiry i) s = .next { s with ost := { s.ost with
      bridges := s.ost.bridges.set i { b with ocHistory := b.ocHistory.filter (fun a => decide (a < 999)) } } }) ∧
  (∀ (s : State) (src : FilteredSource),
    ((s.ost.filter src).asserted = false → ∃ t, exec (.faultSourceAsserted src) s = .next t ∧
      t = { s with ost := t.ost, cpt := t.cpt } ∧ (t.ost.filter src).asserted = true ∧
      (∀ i, SourcesJoin s.cpt.store (Adds s.cpt.store i src) (s.ost.bridges.get i) (t.ost.bridges.get i) ∧
        ((∀ k, ¬ Adds s.cpt.store i src k) → t.ost.bridges.get i = s.ost.bridges.get i)) ∧
      t.cpt = s.cpt.raiseAll (disabledNotices s t)) ∧
    ((s.ost.filter src).asserted = true → exec (.faultSourceDeasserted src) s =
      .next { s with ost := s.ost.setFilter src ⟨false, some false⟩ })) ∧
  ∀ (s : State) (i : BridgeNo),
    let asserted := fun (k : FaultKind) => holds (s.ost.assertedSet i) k
    asserted .ts = s.ost.fTs.asserted ∧ asserted .uv = s.ost.fUv.asserted ∧ asserted .flt0 = s.ost.fFlt0.asserted ∧
      asserted .flt1 = s.ost.fFlt1.asserted ∧ asserted .dc = (s.ost.bridges.get i).dcOn ∧
      asserted .oc = (s.ost.fOc.get i).asserted ∧ asserted .tw = s.ost.fTw.asserted

/-- The eighth warm boundary raises the derate by 1 up to 24, the sixty-fourth calm one lowers it, each with a DERATE
notice at the cap's edge; the fiftieth offset block asserts DC, which locks an enabled bridge. At every boundary, in
every lifecycle state, each bridge starts its clip count again and takes its derate, its warm and calm counts, its
offset count and DC, and the ages of its OC history from these rules, with the notices in ascending number, an order that
is the model's choice, log 25. That the notice is raised for every bridge in CONFIG, and after START for used ones alone,
is the model's reading of R124 and R134, log 24; what an average over untaken samples counts is its reading, log 9. -/
def Obligations.DerateAndOffsetFollowTheirCounts : Prop :=
  ∀ (s : State) (i : BridgeNo),
    let b := s.ost.bridges.get i
    let written := fun (x : Bridge) (c : Cpt) =>
      Host.Outcome.next (φ := Fault) (ρ := Refusal) { s with ost := { s.ost with bridges := s.ost.bridges.set i x }, cpt := c }
    (s.ost.fTw.asserted = true → b.thermal = 7 → b.derate ≤ 24 →
      exec (.thermalDerateStep i) s = written { b with derate := min 24 (b.derate + 1), thermal := 0 }
        (if b.derate = 23 ∧ (s.inConfig = true ∨ s.cpt.store.bridgeUsed i = true) then s.cpt.raise (.derate i true 24)
          else s.cpt)) ∧
    (s.ost.fTw.asserted = false → b.clip < 4 → b.calm = 63 → b.derate ≤ 24 →
      exec (.calmDerateStep i) s = written { b with derate := b.derate - 1, calm := 0 }
        (if b.derate = 24 ∧ (s.inConfig = true ∨ s.cpt.store.bridgeUsed i = true) then s.cpt.raise (.derate i false 23) else s.cpt)) ∧
    (b.instants = 48 → b.averageDuty = b.dutySum / 48) ∧
    (b.dcOn = false → b.dcCount = 49 → (176 < b.averageDuty ∨ b.averageDuty < 80) →
      ∃ t, exec (.dcAsserted i) s = .next t ∧ t = { s with ost := { s.ost with bridges := t.ost.bridges }, cpt := t.cpt } ∧
        (∀ j, j ≠ i → t.ost.bridges.get j = s.ost.bridges.get j) ∧
        (t.ost.bridges.get i).dcOn = true ∧ (t.ost.bridges.get i).dcCount = 50 ∧
        (t.ost.bridges.get i).hold = b.hold ||| FaultKind.dc.bit ∧
        (b.state = .run → (t.ost.bridges.get i).state = .locked ∧
          t.cpt = s.cpt.raise (.bridgeFault i false (b.hold ||| FaultKind.dc.bit) .locked)) ∧
        (b.state ≠ .run → t.cpt = s.cpt)) ∧
    ∃ t, exec .blockBoundary s = .next t ∧
      let raised := fun (place : Fin 14) (l : List Notice) =>
        t.cpt.notices.get place = l.foldl (fun e n => some (raisedEntry e n)) (s.cpt.notices.get place)
      let u := t.ost.bridges.get i
      let tw := s.ost.fTw.asserted
      let clip := decide (4 ≤ b.clip)
      let offset := decide (176 < b.averageDuty ∨ b.averageDuty < 80)
      u.clip = 0 ∧ u.thermal = (if tw && decide (b.thermal < 7) then b.thermal + 1 else 0) ∧
      u.calm = (if !clip && !tw && decide (b.calm < 63) then b.calm + 1 else 0) ∧
      u.derate = min 24 (if clip || tw then b.derate + clip.toNat + (tw && decide (7 ≤ b.thermal)).toNat
        else if 63 ≤ b.calm then b.derate - 1 else b.derate) ∧
      u.dcCount = (if offset then min 50 (b.dcCount + 1) else 0) ∧
      u.dcOn = (offset && (b.dcOn || decide (49 ≤ b.dcCount))) ∧
      SourcesJoin s.cpt.store (fun k => k = .dc ∧ b.dcOn = false ∧ u.dcOn = true)
        { b with ocHistory := (b.ocHistory.filter (fun a => decide (a < 999))).map (· + 1) } u ∧
      raised 1 (disabledNotices s t) ∧
      raised 11 ((List.finRange 8).filterMap (fun j =>
        let d := (s.ost.bridges.get j).derate
        let e := (t.ost.bridges.get j).derate
        if (d = 24 ↔ e = 24) ∨ (s.inConfig = false ∧ s.cpt.store.bridgeUsed j = false) then none
        else some (.derate j (decide (e = 24)) e)))

/-- The base duty of a sample, with its ends. At a sample instant every bridge takes its sample, the posts and LO
leave, the samples that arrive are kept, and deasserted AUTO sources leave the hold sets. A bridge due to be re-enabled
goes to RUN at SPLIT with d0 128, what is left of its block is zero, its active feeds stand at 128 with release count 0,
and it raises ENABLED; no other feed, level or notice changes. In a PWM period every filter takes its sample, the sources
it declares join the hold sets of their bridges and disable them, an enabled bridge switches at the duty its last sense
reading gives, and a disabled one does not switch. That a bridge raises one notice for all the sources of a period, and
that several bridges raise in ascending number, is the model's reading and choice, log 25; that samples arrive one an
instant, log 8. -/
def Obligations.SampleInstantsAndPeriodsDriveTheBridges : Prop :=
  (∀ x : Sample, (baseDuty x : Int) = 128 + (x.toInt * 120 + 4194304) / 8388608 ∧ 8 ≤ baseDuty x ∧ baseDuty x ≤ 248 ∧
    (baseDuty x = 248 ↔ 8353656 ≤ x.toInt) ∧ (baseDuty x = 8 ↔ x.toInt ≤ -8353656)) ∧ baseDuty 0 = 128 ∧
  (∀ (s : State) (x : SampleInputs), ∃ t, exec (.sampleInstant x) s = .next t ∧
    t = { s with mxe := t.mxe, ost := t.ost, cpt := t.cpt, inputs := t.inputs } ∧
    t.inputs.aux0 = s.inputs.aux0 ++ [x.aux0] ∧ t.inputs.aux1 = s.inputs.aux1 ++ [x.aux1] ∧
    (∀ m, t.inputs.mics.get m = s.inputs.mics.get m ++ [x.mics.get m]) ∧
    t.mxe = { s.mxe with
      feeds := t.mxe.feeds, post0 := s.mxe.post0.tail, post1 := s.mxe.post1.tail, lineOut := s.mxe.lineOut.tail
      sao0 := t.mxe.sao0, sao1 := t.mxe.sao1 } ∧
    (∀ (o : OutputNo) (sl : SlotNo),
      let f := (s.mxe.feeds.get o).get sl
      let again := f.active = true ∧ ∃ i : BridgeNo, i.val = o.val ∧ (s.ost.bridges.get i).reenableDue = true
      (again → (t.mxe.feeds.get o).get sl = { f with current := 128, releaseCount := 0 }) ∧
      (¬ again → (t.mxe.feeds.get o).get sl = f)) ∧
    t.cpt = s.cpt.raiseAll ((List.finRange 8).filterMap (fun i =>
      if (s.ost.bridges.get i).reenableDue = true then some (.bridgeFault i true 0 .run) else none)) ∧
    t.ost = { s.ost with bridges := t.ost.bridges } ∧
    (∀ a b, s.mxe.post0.head? = some a → s.mxe.post1.head? = some b → t.mxe.sao0 = ⟨a.l, a.r, b.l, b.r⟩) ∧
    (∀ c, s.mxe.lineOut.head? = some c → t.mxe.sao1 = c) ∧
    ∀ i : BridgeNo,
      let b := s.ost.bridges.get i
      let u := t.ost.bridges.get i
      let hit := u.d0 = 8 ∨ u.d0 = 248
      u = { b with block := u.block, state := u.state, sense := u.sense, duty := u.duty, hold := u.hold, d0 := u.d0
                   instants := b.instants + 1, dutySum := b.dutySum + u.d0
                   clip := if b.state = .run ∧ hit then b.clip + 1 else b.clip } ∧
      (b.reenableDue = true → u.state = .run ∧ u.d0 = 128 ∧ u.sense = .split ∧ u.duty = b.duty ∧ u.hold = 0 ∧
        u.block = List.replicate (b.block.length - 1) 0) ∧
      (b.reenableDue = false → u.block = b.block.tail ∧ (∀ y, b.block.head? = some y → u.d0 = baseDuty y) ∧
        (u.hold = 0 → u.state = b.state ∧ u.sense = b.sense ∧ u.duty = b.duty) ∧
        (b.state ≠ .run → (b.state = .off → u.state = .off) ∧ u.sense = b.sense ∧ u.duty = b.duty) ∧
        ((b.state = .halted ∨ b.state = .locked) → u.hold ≠ 0 →
          ((∃ k, holds u.hold k = true ∧ LatchedFor s.cpt.store u k) → u.state = .locked) ∧
          ((∀ k, holds u.hold k = true → ¬ LatchedFor s.cpt.store u k) → u.state = .halted)) ∧
        (∀ k, holds u.hold k = (holds b.hold k && (holds (latchedSet s.cpt.store b) k || holds (s.ost.assertedSet i) k))) ∧
        (b.hold = 0 → u.hold = 0))) ∧
  ∀ (s : State) (x : PeriodInputs), ∃ t, exec (.pwmPeriod x) s = .next t ∧
    t = { s with ost := t.ost, cpt := t.cpt } ∧
    t.ost.fTs = s.ost.fTs.next x.ts ∧ t.ost.fUv = s.ost.fUv.next x.uv ∧ t.ost.fFlt0 = s.ost.fFlt0.next x.flt0 ∧
    t.ost.fFlt1 = s.ost.fFlt1.next x.flt1 ∧ t.ost.fTw = s.ost.fTw.next x.tw ∧
    t.cpt = s.cpt.raiseAll (disabledNotices s t) ∧
    ∀ i : BridgeNo,
      let b := s.ost.bridges.get i
      let u := t.ost.bridges.get i
      let dt := s.cpt.store.deadtime.get i
      let asserts := fun (src : FilteredSource) => (s.ost.filter src).asserted = false ∧ (t.ost.filter src).asserted = true
      t.ost.fOc.get i = (s.ost.fOc.get i).next (x.oc.get i) ∧ u.d0 = b.d0 ∧
      SourcesJoin s.cpt.store (fun k => ∃ src, asserts src ∧ Adds s.cpt.store i src k) b u ∧
      (u.state = .run → u.sense = senseOf (x.atRise.get i) (x.atFall.get i) ∧ u.duty = some (match b.sense with
        | .out => b.d0 + dt
        | .into => b.d0 - dt
        | .split => b.d0)) ∧
      (u.state ≠ .run → u.duty = none ∧ u.sense = .split)

/-! ### The block boundary (05) -/

/-- At a block boundary the samples that arrived are used up, which is the model's reading, log 8. In CONFIG every
output gets silence and line, claims and Publisher stand still. Elsewhere the joining counter or the presence counter
rises, JOINING ends at 60, an ACTIVE station that saw no idle for the second boundary is isolated, and the other
stations' peer entries age. That the presence counter is 0 at the boundary that isolates or ends JOINING, and that the
no-idle check comes before the other work, is the model's reading, log 4. -/
def Obligations.BoundaryAdvancesTheStation : Prop :=
  ∀ s : State, ∃ t, exec .blockBoundary s = .next t ∧ t.inputs = Inputs.none ∧ t.cpt.store = s.cpt.store ∧
    t.cpt.result = s.cpt.result ∧ t.lif.latch = s.lif.latch ∧
    (s.inConfig = true → t.lif = s.lif ∧ t.cle = s.cle ∧ t.pub = s.pub ∧ t.iku = s.iku ∧ t.pku = s.pku ∧
      t.mxe.post0 = silentBlock ∧ t.mxe.post1 = silentBlock ∧ t.mxe.lineOut = silentBlock ∧
      ∀ i, (t.ost.bridges.get i).block = List.replicate 48 0) ∧
    (s.cle.lifecycle = .joining →
      (s.cle.joining < 59 → t.cle.lifecycle = .joining ∧ t.cle.joining = s.cle.joining + 1) ∧
      (s.cle.joining = 59 → t.cle.lifecycle = .active ∧ t.cle.joining = 60 ∧ t.cle.presenceCount = 0)) ∧
    (s.cle.lifecycle = .isolated → s.cle.presenceCount < 49 →
      t.cle.lifecycle = .isolated ∧ t.cle.presenceCount = s.cle.presenceCount + 1) ∧
    (s.cle.lifecycle = .active →
      ((s.lif.anyPending = false ∨ s.lif.idleSeen = true) →
        t.cle.lifecycle = .active ∧ t.lif.noIdle = 0 ∧ t.lif.idleSeen = false ∧
        (s.cle.presenceCount < 49 → t.cle.presenceCount = s.cle.presenceCount + 1) ∧
        (s.cle.presenceCount = 49 → t.cle.presenceCount = 0)) ∧
      (s.lif.anyPending = true → s.lif.idleSeen = false →
        (s.lif.noIdle = 0 → t.cle.lifecycle = .active ∧ t.lif.noIdle = 1 ∧ t.lif.idleSeen = false) ∧
        (s.lif.noIdle = 1 → t.cle.lifecycle = .isolated ∧ t.cle.presenceCount = 0 ∧ t.lif.noIdle = 0))) ∧
    (s.inConfig = false → ∀ p e, p ≠ s.own → s.cle.peers.get p = some e →
      t.cle.peers.get p = if e.age < 159 then some { e with age := e.age + 1 } else none)
end

