-- ==== Sys2Proof/Laws/Line.lean ====
section
/-! SUPPORT. What every operation of the Line Interface can do: the claim-frame queue stays within its capacity, and the
polarity latch and the capture are kept. -/

namespace Sys2Proof.Machine

open Sys2Proof

/-- What an operation on the stores and attempts of the LIF leaves as it was: the bound of the queue (R13), the latch
(R3) and the capture (R10). -/
structure Lif.Keeps (l m : Lif) : Prop where
  queue : l.queue.length ≤ Config.queueCapacity → m.queue.length ≤ Config.queueCapacity
  latch : m.latch = l.latch
  count : m.errorCount = l.errorCount
  record : m.errorRecord = l.errorRecord

theorem Lif.Keeps.refl (l : Lif) : l.Keeps l := ⟨id, rfl, rfl, rfl⟩

theorem Lif.Keeps.trans {l m n : Lif} (h : l.Keeps m) (k : m.Keeps n) : l.Keeps n :=
  ⟨k.queue ∘ h.queue, k.latch.trans h.latch, k.count.trans h.count, k.record.trans h.record⟩

/-- An operation that leaves the queue, the latch and the capture alone keeps them. -/
theorem Lif.Keeps.of_eq {l m : Lif} (q : m.queue = l.queue) (a : m.latch = l.latch)
    (c : m.errorCount = l.errorCount) (r : m.errorRecord = l.errorRecord) : l.Keeps m :=
  ⟨by rw [q]; exact id, a, c, r⟩

theorem removeFirst_length {α : Type} {p : α → Bool} {l m : List α} (h : removeFirst p l = some m) :
    m.length + 1 = l.length := by
  induction l generalizing m with
  | nil => simp [removeFirst] at h
  | cons a l ih =>
    rw [removeFirst] at h
    split at h
    · cases h; rfl
    · cases hr : removeFirst p l with
      | none => simp [hr] at h
      | some r =>
        simp only [hr, Option.map_some, Option.some.injEq] at h
        subst h
        have := ih hr
        simp only [List.length_cons]
        omega

theorem Lif.removeOldest_length {l : Lif} {k : FrameKind} {q : List ClaimFrame} (h : l.removeOldest k = some q) :
    q.length + 1 = l.queue.length := by
  rw [Lif.removeOldest] at h
  split at h
  · split at h
    · cases h
    · rename_i hd rest heq
      cases hr : removeFirst (isKind k) rest with
      | none => simp [hr] at h
      | some r =>
        simp only [hr, Option.map_some, Option.some.injEq] at h
        subst h
        have := removeFirst_length hr
        simp only [List.length_cons, heq]
        omega
  · exact removeFirst_length h

theorem Lif.append_keeps (l : Lif) (f : ClaimFrame) (re : Bool) : l.Keeps (l.append f re) := by
  unfold Lif.append
  split
  · refine ⟨fun _ => ?_, rfl, rfl, rfl⟩
    simp only [List.length_append, List.length_cons, List.length_nil]
    omega
  · split
    · exact .refl l
    · split
      · rename_i q hq
        have := removeOldest_length hq
        refine ⟨fun h => ?_, rfl, rfl, rfl⟩
        simp only [List.length_append, List.length_cons, List.length_nil]
        omega
      · split
        · split
          · rename_i q hq
            have := removeOldest_length hq
            refine ⟨fun h => ?_, rfl, rfl, rfl⟩
            simp only [List.length_append, List.length_cons, List.length_nil]
            omega
          · exact .of_eq rfl rfl rfl rfl
        · exact .refl l

theorem replaceInQueue_length (q : List ClaimFrame) (f : ClaimFrame) (re : Bool) :
    (replaceInQueue q f re).length = q.length := by simp [replaceInQueue]

theorem Lif.addClaim_keeps (l : Lif) (f : ClaimFrame) (re : Bool) : l.Keeps (l.addClaim f re) := by
  have hr : l.Keeps { l with queue := replaceInQueue l.queue f re } :=
    ⟨fun h => by simpa [replaceInQueue_length] using h, rfl, rfl, rfl⟩
  unfold Lif.addClaim
  split
  · split
    · split
      · exact .refl l
      · exact .of_eq rfl rfl rfl rfl
    · split
      · exact hr
      · exact append_keeps l f re
  · split
    · exact hr
    · exact append_keeps l f re

theorem Lif.dropBid_keeps (l : Lif) (s : Serial) : l.Keeps (l.dropBid s) := by
  unfold Lif.dropBid
  split
  · exact .of_eq rfl rfl rfl rfl
  · exact ⟨fun h => (List.length_filter_le _ _).trans h, rfl, rfl, rfl⟩

theorem Lif.handSound_keeps (l : Lif) (lc : Lifecycle) (i : PubSlotNo) (f : Option SoundFrame) :
    l.Keeps (l.handSound lc i f) := by
  unfold Lif.handSound
  split
  · exact .refl l
  · exact .of_eq rfl rfl rfl rfl

theorem Lif.handPresence_keeps (l : Lif) (f : PresenceFrame) : l.Keeps (l.handPresence f) := .of_eq rfl rfl rfl rfl

theorem Lif.arbitrate_keeps (l : Lif) (lc : Lifecycle) : l.Keeps (l.arbitrate lc) := by
  unfold Lif.arbitrate
  split
  · split
    · exact .refl l
    · exact .of_eq rfl rfl rfl rfl
  · exact .refl l

theorem Lif.appendBeside_keeps (l : Lif) : l.Keeps l.appendBeside := by
  unfold Lif.appendBeside
  split
  · exact .refl l
  · rename_i f _
    exact Lif.Keeps.trans (m := { l with besideBid := none }) (.of_eq rfl rfl rfl rfl) (append_keeps _ f false)

theorem Lif.queueEnded_keeps (l : Lif) (drop done : Bool) : l.Keeps (l.queueEnded drop done) := by
  have ht : l.Keeps { l with besideClaim := none, flight := none, queue := l.queue.tail } :=
    ⟨fun h => by simp only [List.length_tail]; omega, rfl, rfl, rfl⟩
  unfold Lif.queueEnded
  dsimp only
  split
  · split
    · rename_i f _
      exact ht.trans (append_keeps _ f false)
    · exact ht
  · split
    · refine ⟨fun h => ?_, rfl, rfl, rfl⟩
      simp only [List.length_cons, List.length_tail, Config.queueCapacity] at h ⊢
      omega
    · split
      · exact ht
      · exact .of_eq rfl rfl rfl rfl

theorem Lif.attemptEnded_keeps (l : Lif) (lc : Lifecycle) (f : Flight) (e : AttemptEnd) :
    l.Keeps (l.attemptEnded lc f e) := by
  unfold Lif.attemptEnded
  dsimp only
  split
  · exact Lif.Keeps.trans (m := { l with flight := none }) (.of_eq rfl rfl rfl rfl) (appendBeside_keeps _)
  · split
    · exact (queueEnded_keeps l _ _).trans (appendBeside_keeps _)
    all_goals
      refine Lif.Keeps.trans ?_ (appendBeside_keeps _)
      exact .of_eq rfl rfl rfl rfl

theorem Lif.becomeIdle_keeps (l : Lif) (lc : Lifecycle) : l.Keeps (l.becomeIdle lc) :=
  Lif.Keeps.trans (m := { l with lineIdle := true, idleSeen := true }) (.of_eq rfl rfl rfl rfl) (arbitrate_keeps _ lc)

theorem Lif.isolate_keeps (l : Lif) : l.Keeps l.isolate := .of_eq rfl rfl rfl rfl

theorem Lif.restart_keeps (l : Lif) : l.Keeps l.restart := ⟨fun _ => Nat.zero_le _, rfl, rfl, rfl⟩

/-- A latched polarity is never changed by a frame (R3). -/
theorem Lif.takeLatch_of_latched (l : Lif) (sense : WireSense) (h : l.latch ≠ .unlatched) : l.takeLatch sense = l := by
  simp [Lif.takeLatch, h]

@[simp] theorem Lif.takeLatch_queue (l : Lif) (sense : WireSense) : (l.takeLatch sense).queue = l.queue := by
  unfold Lif.takeLatch; split <;> rfl

@[simp] theorem Lif.discard_queue (l : Lif) (f : LineFrame) : (l.discard f).1.queue = l.queue := by
  unfold Lif.discard; dsimp only; split <;> rfl

@[simp] theorem Lif.discard_latch (l : Lif) (f : LineFrame) : (l.discard f).1.latch = l.latch := by
  unfold Lif.discard; dsimp only; split <;> rfl

@[simp] theorem Lif.clearErrors_queue (l : Lif) : l.clearErrors.queue = l.queue := rfl
@[simp] theorem Lif.clearErrors_latch (l : Lif) : l.clearErrors.latch = l.latch := rfl

end Sys2Proof.Machine
end

