-- ==== Sys2Proof/Laws/Tbl.lean ====
section
/-! SUPPORT. The laws of the tables of fixed size. -/

namespace Sys2Proof.Tbl

variable {n : Nat} {α β : Type}

theorem ext_get {t u : Tbl n α} (h : ∀ i, t.get i = u.get i) : t = u := by
  obtain ⟨a, ha⟩ := t
  obtain ⟨b, hb⟩ := u
  congr
  apply List.ext_getElem (by rw [ha, hb])
  intro i h1 h2
  exact h ⟨i, by omega⟩

@[simp] theorem get_set_self (t : Tbl n α) (i : Fin n) (a : α) : (t.set i a).get i = a := by
  simp [get, set]

theorem get_set_of_ne (t : Tbl n α) {i j : Fin n} (a : α) (h : i ≠ j) : (t.set i a).get j = t.get j := by
  have : i.val ≠ j.val := fun e => h (Fin.ext e)
  simp [get, set, this]

theorem get_set (t : Tbl n α) (i j : Fin n) (a : α) : (t.set i a).get j = if i = j then a else t.get j := by
  by_cases h : i = j
  · subst h; simp
  · simp [h, get_set_of_ne t a h]

@[simp] theorem get_modify_self (t : Tbl n α) (i : Fin n) (f : α → α) : (t.modify i f).get i = f (t.get i) := by
  simp [modify]

theorem get_modify (t : Tbl n α) (i j : Fin n) (f : α → α) :
    (t.modify i f).get j = if i = j then f (t.get j) else t.get j := by
  by_cases h : i = j
  · subst h; simp
  · simp [modify, h, get_set_of_ne]

@[simp] theorem get_ofFn (f : Fin n → α) (i : Fin n) : (ofFn f).get i = f i := by
  simp [get, ofFn]

@[simp] theorem get_map (f : α → β) (t : Tbl n α) (i : Fin n) : (t.map f).get i = f (t.get i) := by
  simp [get, map]

@[simp] theorem get_fill (a : α) (i : Fin n) : (fill n a).get i = a := by
  simp [get, fill]

/-- A property of every entry is a property of the entry at every number. -/
theorem forall_mem_iff (t : Tbl n α) (p : α → Prop) : (∀ a ∈ t.toList, p a) ↔ ∀ i, p (t.get i) := by
  constructor
  · intro h i
    exact h _ (List.getElem_mem _)
  · intro h a ha
    obtain ⟨i, hi, rfl⟩ := List.getElem_of_mem ha
    exact h ⟨i, by rw [t.size] at hi; exact hi⟩

/-- Whether any entry satisfies a test. -/
theorem any_iff (t : Tbl n α) (p : α → Bool) : t.toList.any p = true ↔ ∃ i, p (t.get i) = true := by
  rw [List.any_eq_true]
  constructor
  · rintro ⟨a, ha, hp⟩
    obtain ⟨i, hi, rfl⟩ := List.getElem_of_mem ha
    exact ⟨⟨i, by rw [t.size] at hi; exact hi⟩, hp⟩
  · rintro ⟨i, hp⟩
    exact ⟨_, List.getElem_mem _, hp⟩

/-- Storing an entry that is there already changes nothing. -/
theorem set_get (t : Tbl n α) (i : Fin n) : t.set i (t.get i) = t := by
  apply ext_get
  intro j
  rw [get_set]
  split
  · subst_vars; rfl
  · rfl

end Sys2Proof.Tbl
end

