-- ==== Sys2Proof/Laws/Notices.lean ====
section
/-! SUPPORT. What raising, taking and clearing notices can do to the Control Port. -/

namespace Sys2Proof.Machine

open Sys2Proof

/-! ### One raise -/

@[simp] theorem Cpt.raise_store (c : Cpt) (n : Notice) : (c.raise n).store = c.store := rfl
@[simp] theorem Cpt.raise_fixed (c : Cpt) (n : Notice) : (c.raise n).fixed = c.fixed := rfl
@[simp] theorem Cpt.raise_result (c : Cpt) (n : Notice) : (c.raise n).result = c.result := rfl
@[simp] theorem Cpt.raise_sdo (c : Cpt) (n : Notice) : (c.raise n).sdo = c.sdo := rfl
@[simp] theorem Cpt.raise_atn (c : Cpt) (n : Notice) : (c.raise n).atn = true := rfl
@[simp] theorem Cpt.raise_place (c : Cpt) (n : Notice) :
    (c.raise n).notices.get n.place = some (raisedEntry (c.notices.get n.place) n) := by
  simp [Cpt.raise]

theorem Cpt.raise_other (c : Cpt) (n : Notice) {i : Fin 14} (h : n.place ≠ i) :
    (c.raise n).notices.get i = c.notices.get i := by
  simp [Cpt.raise, Tbl.get_modify, h]

/-! ### Several raises -/

@[simp] theorem Cpt.raiseAll_nil (c : Cpt) : c.raiseAll [] = c := rfl
@[simp] theorem Cpt.raiseAll_cons (c : Cpt) (n : Notice) (l : List Notice) :
    c.raiseAll (n :: l) = (c.raise n).raiseAll l := rfl
theorem Cpt.raiseAll_append (c : Cpt) (l m : List Notice) : c.raiseAll (l ++ m) = (c.raiseAll l).raiseAll m := by
  simp [Cpt.raiseAll]

@[simp] theorem Cpt.raiseAll_store (c : Cpt) (l : List Notice) : (c.raiseAll l).store = c.store := by
  induction l generalizing c <;> simp_all
@[simp] theorem Cpt.raiseAll_fixed (c : Cpt) (l : List Notice) : (c.raiseAll l).fixed = c.fixed := by
  induction l generalizing c <;> simp_all
@[simp] theorem Cpt.raiseAll_result (c : Cpt) (l : List Notice) : (c.raiseAll l).result = c.result := by
  induction l generalizing c <;> simp_all
@[simp] theorem Cpt.raiseAll_sdo (c : Cpt) (l : List Notice) : (c.raiseAll l).sdo = c.sdo := by
  induction l generalizing c <;> simp_all

/-- What a piece of work that only raises notices leaves of the Control Port. -/
def Cpt.RaisedFrom (c d : Cpt) : Prop := ∃ l, d = c.raiseAll l

theorem Cpt.RaisedFrom.refl (c : Cpt) : c.RaisedFrom c := ⟨[], rfl⟩
theorem Cpt.RaisedFrom.raise (c : Cpt) (n : Notice) : c.RaisedFrom (c.raise n) := ⟨[n], rfl⟩
theorem Cpt.RaisedFrom.raiseAll (c : Cpt) (l : List Notice) : c.RaisedFrom (c.raiseAll l) := ⟨l, rfl⟩
theorem Cpt.RaisedFrom.trans {c d e : Cpt} (h : c.RaisedFrom d) (k : d.RaisedFrom e) : c.RaisedFrom e := by
  obtain ⟨l, rfl⟩ := h
  obtain ⟨m, rfl⟩ := k
  exact ⟨l ++ m, (c.raiseAll_append l m).symm⟩
theorem Cpt.RaisedFrom.then_raise {c d : Cpt} (h : c.RaisedFrom d) (n : Notice) : c.RaisedFrom (d.raise n) :=
  h.trans (.raise d n)

theorem Cpt.RaisedFrom.store {c d : Cpt} (h : c.RaisedFrom d) : d.store = c.store := by
  obtain ⟨l, rfl⟩ := h; simp
theorem Cpt.RaisedFrom.fixed {c d : Cpt} (h : c.RaisedFrom d) : d.fixed = c.fixed := by
  obtain ⟨l, rfl⟩ := h; simp
theorem Cpt.RaisedFrom.result {c d : Cpt} (h : c.RaisedFrom d) : d.result = c.result := by
  obtain ⟨l, rfl⟩ := h; simp
theorem Cpt.RaisedFrom.sdo {c d : Cpt} (h : c.RaisedFrom d) : d.sdo = c.sdo := by
  obtain ⟨l, rfl⟩ := h; simp

/-! ### The attention line -/

/-- ATN agrees with the notice set (R219). -/
def Cpt.Agrees (c : Cpt) : Prop := c.atn = noticePending c.notices

theorem Cpt.raise_agrees (c : Cpt) (n : Notice) : (c.raise n).Agrees := by
  have : noticePending (c.raise n).notices = true := by
    rw [noticePending, Tbl.any_iff]
    exact ⟨n.place, by simp⟩
  rw [Cpt.Agrees, this, Cpt.raise_atn]

theorem Cpt.Agrees.raiseAll {c : Cpt} (h : c.Agrees) (l : List Notice) : (c.raiseAll l).Agrees := by
  induction l generalizing c with
  | nil => exact h
  | cons n l ih => exact ih (c.raise_agrees n)

theorem Cpt.Agrees.of_raised {c d : Cpt} (h : c.Agrees) (k : c.RaisedFrom d) : d.Agrees := by
  obtain ⟨l, rfl⟩ := k
  exact h.raiseAll l

theorem Cpt.emptyPlace_agrees (c : Cpt) (i : Fin 14) : (c.emptyPlace i).Agrees := rfl

theorem Cpt.emptyAll_agrees (c : Cpt) : c.emptyAll.Agrees := by
  simp only [Cpt.Agrees, Cpt.emptyAll, noticePending]
  decide

theorem Cpt.Agrees.answer {c : Cpt} (h : c.Agrees) (st : Status) (d : List Byte) : (c.answer st d).Agrees := h

/-! ### The answer of a request, and the places -/

@[simp] theorem Cpt.answer_store (c : Cpt) (st : Status) (d : List Byte) : (c.answer st d).store = c.store := rfl
@[simp] theorem Cpt.answer_fixed (c : Cpt) (st : Status) (d : List Byte) : (c.answer st d).fixed = c.fixed := rfl
@[simp] theorem Cpt.answer_notices (c : Cpt) (st : Status) (d : List Byte) : (c.answer st d).notices = c.notices := rfl
@[simp] theorem Cpt.answer_atn (c : Cpt) (st : Status) (d : List Byte) : (c.answer st d).atn = c.atn := rfl
@[simp] theorem Cpt.answer_sdo (c : Cpt) (st : Status) (d : List Byte) : (c.answer st d).sdo = [] := rfl
@[simp] theorem Cpt.answer_result (c : Cpt) (st : Status) (d : List Byte) :
    (c.answer st d).result = ⟨c.result.number + 1, st, true, d⟩ := rfl

@[simp] theorem Cpt.emptyPlace_store (c : Cpt) (i : Fin 14) : (c.emptyPlace i).store = c.store := rfl
@[simp] theorem Cpt.emptyPlace_fixed (c : Cpt) (i : Fin 14) : (c.emptyPlace i).fixed = c.fixed := rfl
@[simp] theorem Cpt.emptyPlace_result (c : Cpt) (i : Fin 14) : (c.emptyPlace i).result = c.result := rfl
@[simp] theorem Cpt.emptyAll_store (c : Cpt) : c.emptyAll.store = c.store := rfl
@[simp] theorem Cpt.emptyAll_fixed (c : Cpt) : c.emptyAll.fixed = c.fixed := rfl
@[simp] theorem Cpt.emptyAll_result (c : Cpt) : c.emptyAll.result = c.result := rfl

@[simp] theorem Cpt.lowSdo_store (c : Cpt) : c.lowSdo.store = c.store := rfl
@[simp] theorem Cpt.lowSdo_fixed (c : Cpt) : c.lowSdo.fixed = c.fixed := rfl
@[simp] theorem Cpt.lowSdo_result (c : Cpt) : c.lowSdo.result = c.result := rfl
@[simp] theorem Cpt.lowSdo_notices (c : Cpt) : c.lowSdo.notices = c.notices := rfl
@[simp] theorem Cpt.lowSdo_atn (c : Cpt) : c.lowSdo.atn = c.atn := rfl
@[simp] theorem Cpt.lowSdo_sdo (c : Cpt) : c.lowSdo.sdo = [] := rfl
theorem Cpt.Agrees.lowSdo {c : Cpt} (h : c.Agrees) : c.lowSdo.Agrees := h

/-- The first pending place is pending, and no place before it is. -/
theorem firstPending_some {t : Tbl 14 (Option NoticeEntry)} {i : Fin 14} (h : firstPending t = some i) :
    (t.get i).isSome = true := by
  have := List.find?_some h
  simpa using this

/-- Where no place is first, none is pending. -/
theorem firstPending_none {t : Tbl 14 (Option NoticeEntry)} (h : firstPending t = none) (i : Fin 14) :
    t.get i = none := by
  have := List.find?_eq_none.mp h i (List.mem_finRange i)
  simpa using this

end Sys2Proof.Machine
end

