-- ==== Sys2Proof/Laws/Claims.lean ====
section
/-! SUPPORT. What every operation of the Claim Engine can do to the blocks it works on: the LIF keeps its bounds, the
Control Port is only given notices, and no operation enters or leaves CONFIG. -/

namespace Sys2Proof.Machine

open Sys2Proof

/-- What an operation of the Claim Engine keeps. -/
structure Link.Keeps (k m : Link) : Prop where
  lif : k.lif.Keeps m.lif
  cpt : k.cpt.RaisedFrom m.cpt
  config : m.cle.lifecycle = .config ↔ k.cle.lifecycle = .config

theorem Link.Keeps.refl (k : Link) : k.Keeps k := ⟨.refl _, .refl _, Iff.rfl⟩

theorem Link.Keeps.trans {k m n : Link} (h : k.Keeps m) (j : m.Keeps n) : k.Keeps n :=
  ⟨h.lif.trans j.lif, h.cpt.trans j.cpt, j.config.trans h.config⟩

theorem Link.raise_keeps (k : Link) (n : Notice) : k.Keeps (k.raise n) := ⟨.refl _, .raise _ n, Iff.rfl⟩
theorem Link.queue_keeps (k : Link) (f : ClaimFrame) (re : Bool) : k.Keeps (k.queue f re) :=
  ⟨Lif.addClaim_keeps _ f re, .refl _, Iff.rfl⟩
theorem Link.setClaims_keeps (k : Link) (l : List Claim) : k.Keeps (k.setClaims l) := ⟨.refl _, .refl _, Iff.rfl⟩
theorem Link.setCounter_keeps (k : Link) (s : Serial) : k.Keeps (k.setCounter s) := ⟨.refl _, .refl _, Iff.rfl⟩
theorem Link.dropBid_keeps (k : Link) (s : Serial) : k.Keeps { k with lif := k.lif.dropBid s } :=
  ⟨Lif.dropBid_keeps _ s, .refl _, Iff.rfl⟩
theorem Link.handPresence_keeps (k : Link) (env : Env) : k.Keeps (k.handPresence env) :=
  ⟨Lif.handPresence_keeps _ _, .refl _, Iff.rfl⟩
theorem Link.arbitrate_keeps (k : Link) : k.Keeps k.arbitrate := ⟨Lif.arbitrate_keeps _ _, .refl _, Iff.rfl⟩

theorem Link.recompose_keeps (k : Link) (env : Env) : k.Keeps (k.recompose env) := by
  unfold Link.recompose
  split
  · exact handPresence_keeps k env
  · exact .refl k

/-- An operation repeated over a list keeps what each keeps. -/
theorem Link.foldl_keeps {α : Type} {f : Link → α → Link} (h : ∀ (k : Link) (a : α), k.Keeps (f k a)) (l : List α) (k : Link) :
    k.Keeps (l.foldl f k) := by
  induction l generalizing k with
  | nil => exact .refl k
  | cons a l ih => exact (h k a).trans (ih (f k a))

theorem Link.addOwn_keeps (k : Link) (own : StationNo) (s : Serial) (f : ClaimFields) (st : ClaimState) (o : Origin) :
    k.Keeps (k.addOwn own s f st o) := setClaims_keeps _ _

theorem Link.holdOverlay_keeps (k : Link) (env : Env) (f : ClaimFields) (o : Origin) : k.Keeps (k.holdOverlay env f o) :=
  (setCounter_keeps _ _).trans ((addOwn_keeps _ _ _ _ _ _).trans ((queue_keeps _ _ _).trans (recompose_keeps _ _)))

theorem Link.abandon_keeps (k : Link) (c : Claim) : k.Keeps (k.abandon c) := by
  unfold Link.abandon
  dsimp only
  split
  · exact (setClaims_keeps _ _).trans (queue_keeps _ _ _)
  · exact (setClaims_keeps _ _).trans (dropBid_keeps _ _)

theorem Link.startBid_keeps (k : Link) (env : Env) (f : ClaimFields) (o : Origin) : k.Keeps (k.startBid env f o) := by
  have h : k.Keeps (match ownBidding env.own k.cle.claims with
      | some c => (k.abandon c).raise (.claimResult c.name.serial .replaced)
      | none => k) := by
    split
    · exact (abandon_keeps _ _).trans (raise_keeps _ _)
    · exact .refl k
  exact h.trans ((setCounter_keeps _ _).trans ((addOwn_keeps _ _ _ _ _ _).trans (queue_keeps _ _ _)))

theorem Link.releaseHeld_keeps (k : Link) (env : Env) (c : Claim) : k.Keeps (k.releaseHeld env c) :=
  (setClaims_keeps _ _).trans ((queue_keeps _ _ _).trans (recompose_keeps _ _))

theorem Link.claimRequest_keeps (k : Link) (env : Env) (a b c : Byte) (r : Option Byte) :
    k.Keeps (k.claimRequest env a b c r).2.2 := by
  unfold Link.claimRequest
  split
  · exact .refl k
  · split
    · exact .refl k
    · split
      · split
        · exact .refl k
        · split
          · exact .refl k
          · exact startBid_keeps _ _ _ _
      · split
        · exact .refl k
        · exact holdOverlay_keeps _ _ _ _

theorem Link.releaseRequest_keeps (k : Link) (env : Env) (s : Serial) : k.Keeps (k.releaseRequest env s).2 := by
  unfold Link.releaseRequest
  split
  · exact .refl k
  · split
    · exact .refl k
    · split
      · exact .refl k
      · split
        · exact abandon_keeps _ _
        · exact releaseHeld_keeps _ _ _

theorem Link.placeAnnounce_keeps (k : Link) (env : Env) (z : ZoneSet) (r : Option StreamNo) :
    k.Keeps (k.placeAnnounce env z r).2 := by
  unfold Link.placeAnnounce
  split
  · exact holdOverlay_keeps _ _ _ _
  · exact .refl k

theorem Link.endAnnounce_keeps (k : Link) (env : Env) (s : Serial) : k.Keeps (k.endAnnounce env s) := by
  unfold Link.endAnnounce
  split
  · exact .refl k
  · exact releaseHeld_keeps _ _ _

theorem Link.reassert_keeps (k : Link) (c : Claim) : k.Keeps (k.reassert c) := queue_keeps _ _ _

theorem Link.meetBid_keeps (k : Link) (env : Env) (b : Claim) : k.Keeps (k.meetBid env b) :=
  (setClaims_keeps _ _).trans (foldl_keeps (fun k c => reassert_keeps k c) _ _)

theorem Link.settleOne_keeps (env : Env) (h : Claim) (k : Link) (c : Claim) : k.Keeps (Link.settleOne env h k c) := by
  unfold Link.settleOne
  split
  · exact (setClaims_keeps _ _).trans ((queue_keeps _ _ _).trans ((raise_keeps _ _).trans (recompose_keeps _ _)))
  · exact reassert_keeps _ _

theorem Link.meetHold_keeps (k : Link) (env : Env) (h : Claim) : k.Keeps (k.meetHold env h) :=
  (setClaims_keeps _ _).trans (foldl_keeps (fun k c => settleOne_keeps env h k c) _ _)

theorem Link.setPeer_keeps (k : Link) (t : Tbl 8 (Option PeerEntry)) : k.Keeps { k with cle := { k.cle with peers := t } } :=
  ⟨.refl _, .refl _, Iff.rfl⟩

theorem Link.appear_keeps (k : Link) (p : StationNo) : k.Keeps (k.appear p) := by
  unfold Link.appear
  split
  · exact .refl k
  · exact (setPeer_keeps _ _).trans (raise_keeps _ _)

theorem Link.hearBid_keeps (k : Link) (env : Env) (p : StationNo) (s : Serial) (f : ClaimFields) :
    k.Keeps (k.hearBid env p s f) :=
  (appear_keeps _ _).trans ((setClaims_keeps _ _).trans (meetBid_keeps _ _ _))

theorem Link.hearHold_keeps (k : Link) (env : Env) (p : StationNo) (s : Serial) (f : ClaimFields) :
    k.Keeps (k.hearHold env p s f) :=
  (appear_keeps _ _).trans ((setClaims_keeps _ _).trans (meetHold_keeps _ _ _))

theorem Link.hearRelease_keeps (k : Link) (p : StationNo) (s : Serial) : k.Keeps (k.hearRelease p s) := by
  unfold Link.hearRelease
  split
  · exact .refl k
  · exact setClaims_keeps _ _

theorem Link.peerTaken_keeps (k : Link) (p : StationNo) (f : PresenceFrame) : k.Keeps (k.peerTaken p f) := by
  unfold Link.peerTaken
  dsimp only
  split
  · exact (setPeer_keeps _ _).trans (raise_keeps _ _)
  · split
    · exact setPeer_keeps _ _
    · exact (setPeer_keeps _ _).trans (raise_keeps _ _)

@[simp] theorem Cle.markAll_lifecycle (c : Cle) (l : List PubEntry) : (c.markAll l).lifecycle = c.lifecycle := by
  unfold Cle.markAll
  induction l generalizing c with
  | nil => rfl
  | cons e l ih => rw [List.foldl_cons, ih]; rfl

theorem Link.hearPresence_keeps (k : Link) (env : Env) (p : StationNo) (f : PresenceFrame) :
    k.Keeps (k.hearPresence env p f) := by
  refine (peerTaken_keeps k p f).trans (Link.Keeps.trans ?_ (foldl_keeps (fun k e => meetHold_keeps k env _) _ _))
  exact ⟨.refl _, .refl _, by simp⟩

theorem Link.hearFrame_keeps (k : Link) (env : Env) (p : StationNo) (b : FrameBody) : k.Keeps (k.hearFrame env p b) := by
  unfold Link.hearFrame
  split
  · exact hearBid_keeps _ _ _ _ _
  · exact hearHold_keeps _ _ _ _ _
  · exact hearRelease_keeps _ _ _
  · exact hearPresence_keeps _ _ _ _
  · exact .refl k

theorem Link.claimCompleted_keeps (k : Link) (env : Env) (f : ClaimFrame) : k.Keeps (k.claimCompleted env f) := by
  unfold Link.claimCompleted
  split
  · split
    · split
      · split
        · exact setClaims_keeps _ _
        · exact .refl k
      · exact queue_keeps _ _ _
    · exact queue_keeps _ _ _
  · exact .refl k
  · exact .refl k

theorem Link.expireWindow_keeps (k : Link) (env : Env) (c : Claim) (b : Bool) : k.Keeps (k.expireWindow env c b) := by
  unfold Link.expireWindow
  split
  · exact (setClaims_keeps _ _).trans ((queue_keeps _ _ _).trans ((raise_keeps _ _).trans (recompose_keeps _ _)))
  · exact (setClaims_keeps _ _).trans (raise_keeps _ _)

theorem Link.tickWindow_keeps (k : Link) (env : Env) : k.Keeps (k.tickWindow env) := by
  unfold Link.tickWindow
  split
  · exact .refl k
  · split
    · split
      · exact setClaims_keeps _ _
      · exact expireWindow_keeps _ _ _ _
    · exact .refl k

theorem Link.expirePeer_keeps (k : Link) (p : StationNo) : k.Keeps (k.expirePeer p) :=
  Link.Keeps.trans (m := { k with cle := { k.cle with
      claims := k.cle.claims.filter (fun c => c.name.station != p), peers := k.cle.peers.set p none } })
    ⟨.refl _, .refl _, Iff.rfl⟩ (raise_keeps _ _)

/-- Entering a lifecycle state other than CONFIG from another such state. -/
theorem Link.setLifecycle_keeps (k : Link) (lif : Lif) (cle : Cle) (hl : k.lif.Keeps lif)
    (h : cle.lifecycle ≠ .config) (hk : k.cle.lifecycle ≠ .config) : k.Keeps { k with lif := lif, cle := cle } :=
  ⟨hl, .refl _, ⟨fun e => absurd e h, fun e => absurd e hk⟩⟩

theorem Link.joined_keeps (k : Link) (env : Env) (h : k.cle.lifecycle ≠ .config) : k.Keeps (k.joined env) :=
  (setLifecycle_keeps k k.lif _ (.refl _) (by simp) h).trans (handPresence_keeps _ _)

theorem Link.tickCadence_keeps (k : Link) (env : Env) : k.Keeps (k.tickCadence env) := by
  unfold Link.tickCadence
  split
  · exact .refl k
  · rename_i h
    dsimp only
    split
    · exact ⟨.refl _, .refl _, Iff.rfl⟩
    · exact Link.Keeps.trans (m := { k with cle := { k.cle with joining := k.cle.joining + 1 } })
        ⟨.refl _, .refl _, Iff.rfl⟩ (joined_keeps _ _ (by simp [h]))
  all_goals
    dsimp only
    split
    · exact ⟨.refl _, .refl _, Iff.rfl⟩
    · exact Link.Keeps.trans (m := { k with cle := { k.cle with presenceCount := 0 } })
        ⟨.refl _, .refl _, Iff.rfl⟩ (handPresence_keeps _ _)

theorem Link.abandonAtIsolation_keeps (k : Link) (env : Env) : k.Keeps (k.abandonAtIsolation env) := by
  unfold Link.abandonAtIsolation
  split
  · exact .refl k
  · split
    · split
      · exact .refl k
      · exact (abandon_keeps _ _).trans (raise_keeps _ _)
    · exact .refl k

theorem Link.isolate_keeps (k : Link) (env : Env) (c : IsolationCause) (h : k.cle.lifecycle ≠ .config) :
    k.Keeps (k.isolate env c) :=
  (setLifecycle_keeps k k.lif.isolate _ (Lif.isolate_keeps _) (by simp) h).trans
    ((abandonAtIsolation_keeps _ _).trans (raise_keeps _ _))

theorem Link.rejoin_keeps (k : Link) (env : Env) (h : k.cle.lifecycle ≠ .config) : k.Keeps (k.rejoin env) :=
  (setLifecycle_keeps k k.lif _ (.refl _) (by simp) h).trans ((handPresence_keeps _ _).trans (raise_keeps _ _))

/-- The LIF of a link replaced by one that keeps. -/
theorem Link.setLif_keeps (k : Link) (l : Lif) (h : k.lif.Keeps l) : k.Keeps { k with lif := l } := ⟨h, .refl _, Iff.rfl⟩

theorem Link.attemptLost_keeps (k : Link) (env : Env) (f : Flight) : k.Keeps (k.attemptLost env f) := by
  unfold Link.attemptLost
  dsimp only
  split
  · exact (setLif_keeps _ _ (Lif.attemptEnded_keeps _ _ _ _)).trans (abandonAtIsolation_keeps _ _)
  · exact setLif_keeps _ _ (Lif.attemptEnded_keeps _ _ _ _)

theorem Lif.setRun_keeps (l m : Lif) (n : Nat) (h : l.Keeps m) : l.Keeps { m with bitErrorRun := n } :=
  ⟨h.queue, h.latch, h.count, h.record⟩

theorem Link.attemptBitError_keeps (k : Link) (env : Env) (f : Flight) : k.Keeps (k.attemptBitError env f) := by
  have h : k.Keeps { k with lif := { k.lif.attemptEnded k.cle.lifecycle f .bitError with
      bitErrorRun := bitErrorRunAfter k.cle.lifecycle k.lif.bitErrorRun .bitError } } :=
    setLif_keeps _ _ (Lif.setRun_keeps _ _ _ (Lif.attemptEnded_keeps _ _ _ _))
  unfold Link.attemptBitError
  dsimp only
  split
  · exact h.trans (abandonAtIsolation_keeps _ _)
  · split
    · exact h
    · exact h.trans (isolate_keeps _ _ _ (by simp_all))
  · exact h
  · exact h

theorem Link.attemptCompleted_keeps (k : Link) (env : Env) (f : Flight) : k.Keeps (k.attemptCompleted env f) := by
  have h : k.Keeps { k with lif := { k.lif.attemptEnded k.cle.lifecycle f .completed with bitErrorRun := 0 } } :=
    setLif_keeps _ _ (Lif.setRun_keeps _ _ _ (Lif.attemptEnded_keeps _ _ _ _))
  unfold Link.attemptCompleted
  dsimp only
  split
  · exact h
  · split
    · exact h.trans (claimCompleted_keeps _ _ _)
    · exact h
    · split
      · exact h.trans (rejoin_keeps _ _ (by simp_all))
      · exact h

theorem Link.checkNoIdle_keeps (k : Link) (env : Env) : k.Keeps (k.checkNoIdle env) := by
  have h : k.Keeps { k with lif := { k.lif with noIdle := k.lif.noIdleAfter, idleSeen := false } } :=
    setLif_keeps _ _ (.of_eq rfl rfl rfl rfl)
  unfold Link.checkNoIdle
  split
  · dsimp only
    split
    · exact h
    · exact h.trans (isolate_keeps _ _ _ (by simp_all))
  · exact .refl k

end Sys2Proof.Machine
end

