-- ==== Sys2Proof/Laws/State.lean ====
section
/-! SUPPORT. What each named update of the station does to each of its eleven fields, so that no proof unfolds a record
update. -/

namespace Sys2Proof.Machine

open Sys2Proof

@[simp] theorem State.answer_lif (s : State) (st : Status) (d : List Byte) : (s.answer st d).lif = s.lif := rfl
@[simp] theorem State.answer_cle (s : State) (st : Status) (d : List Byte) : (s.answer st d).cle = s.cle := rfl
@[simp] theorem State.answer_pub (s : State) (st : Status) (d : List Byte) : (s.answer st d).pub = s.pub := rfl
@[simp] theorem State.answer_iku (s : State) (st : Status) (d : List Byte) : (s.answer st d).iku = s.iku := rfl
@[simp] theorem State.answer_mxe (s : State) (st : Status) (d : List Byte) : (s.answer st d).mxe = s.mxe := rfl
@[simp] theorem State.answer_ost (s : State) (st : Status) (d : List Byte) : (s.answer st d).ost = s.ost := rfl
@[simp] theorem State.answer_rdu (s : State) (st : Status) (d : List Byte) : (s.answer st d).rdu = s.rdu := rfl
@[simp] theorem State.answer_pku (s : State) (st : Status) (d : List Byte) : (s.answer st d).pku = s.pku := rfl
@[simp] theorem State.answer_cpt (s : State) (st : Status) (d : List Byte) : (s.answer st d).cpt = s.cpt.answer st d := rfl
@[simp] theorem State.answer_inputs (s : State) (st : Status) (d : List Byte) : (s.answer st d).inputs = s.inputs := rfl
@[simp] theorem State.answer_pending (s : State) (st : Status) (d : List Byte) : (s.answer st d).pending = s.pending := rfl

@[simp] theorem State.raiseAll_lif (s : State) (l : List Notice) : (s.raiseAll l).lif = s.lif := rfl
@[simp] theorem State.raiseAll_cle (s : State) (l : List Notice) : (s.raiseAll l).cle = s.cle := rfl
@[simp] theorem State.raiseAll_pub (s : State) (l : List Notice) : (s.raiseAll l).pub = s.pub := rfl
@[simp] theorem State.raiseAll_iku (s : State) (l : List Notice) : (s.raiseAll l).iku = s.iku := rfl
@[simp] theorem State.raiseAll_mxe (s : State) (l : List Notice) : (s.raiseAll l).mxe = s.mxe := rfl
@[simp] theorem State.raiseAll_ost (s : State) (l : List Notice) : (s.raiseAll l).ost = s.ost := rfl
@[simp] theorem State.raiseAll_rdu (s : State) (l : List Notice) : (s.raiseAll l).rdu = s.rdu := rfl
@[simp] theorem State.raiseAll_pku (s : State) (l : List Notice) : (s.raiseAll l).pku = s.pku := rfl
@[simp] theorem State.raiseAll_cpt (s : State) (l : List Notice) : (s.raiseAll l).cpt = s.cpt.raiseAll l := rfl
@[simp] theorem State.raiseAll_inputs (s : State) (l : List Notice) : (s.raiseAll l).inputs = s.inputs := rfl
@[simp] theorem State.raiseAll_pending (s : State) (l : List Notice) : (s.raiseAll l).pending = s.pending := rfl

@[simp] theorem State.setLink_lif (s : State) (k : Link) : (s.setLink k).lif = k.lif := rfl
@[simp] theorem State.setLink_cle (s : State) (k : Link) : (s.setLink k).cle = k.cle := rfl
@[simp] theorem State.setLink_pub (s : State) (k : Link) : (s.setLink k).pub = s.pub := rfl
@[simp] theorem State.setLink_iku (s : State) (k : Link) : (s.setLink k).iku = s.iku := rfl
@[simp] theorem State.setLink_mxe (s : State) (k : Link) : (s.setLink k).mxe = s.mxe := rfl
@[simp] theorem State.setLink_ost (s : State) (k : Link) : (s.setLink k).ost = s.ost := rfl
@[simp] theorem State.setLink_rdu (s : State) (k : Link) : (s.setLink k).rdu = s.rdu := rfl
@[simp] theorem State.setLink_pku (s : State) (k : Link) : (s.setLink k).pku = s.pku := rfl
@[simp] theorem State.setLink_cpt (s : State) (k : Link) : (s.setLink k).cpt = k.cpt := rfl
@[simp] theorem State.setLink_inputs (s : State) (k : Link) : (s.setLink k).inputs = s.inputs := rfl
@[simp] theorem State.setLink_pending (s : State) (k : Link) : (s.setLink k).pending = s.pending := rfl

@[simp] theorem State.arbitrate_lif (s : State) : (s.arbitrate).lif = s.lif.arbitrate s.cle.lifecycle := rfl
@[simp] theorem State.arbitrate_cle (s : State) : (s.arbitrate).cle = s.cle := rfl
@[simp] theorem State.arbitrate_pub (s : State) : (s.arbitrate).pub = s.pub := rfl
@[simp] theorem State.arbitrate_iku (s : State) : (s.arbitrate).iku = s.iku := rfl
@[simp] theorem State.arbitrate_mxe (s : State) : (s.arbitrate).mxe = s.mxe := rfl
@[simp] theorem State.arbitrate_ost (s : State) : (s.arbitrate).ost = s.ost := rfl
@[simp] theorem State.arbitrate_rdu (s : State) : (s.arbitrate).rdu = s.rdu := rfl
@[simp] theorem State.arbitrate_pku (s : State) : (s.arbitrate).pku = s.pku := rfl
@[simp] theorem State.arbitrate_cpt (s : State) : (s.arbitrate).cpt = s.cpt := rfl
@[simp] theorem State.arbitrate_inputs (s : State) : (s.arbitrate).inputs = s.inputs := rfl
@[simp] theorem State.arbitrate_pending (s : State) : (s.arbitrate).pending = s.pending := rfl

@[simp] theorem State.clearInputs_lif (s : State) : (s.clearInputs).lif = s.lif := rfl
@[simp] theorem State.clearInputs_cle (s : State) : (s.clearInputs).cle = s.cle := rfl
@[simp] theorem State.clearInputs_pub (s : State) : (s.clearInputs).pub = s.pub := rfl
@[simp] theorem State.clearInputs_iku (s : State) : (s.clearInputs).iku = s.iku := rfl
@[simp] theorem State.clearInputs_mxe (s : State) : (s.clearInputs).mxe = s.mxe := rfl
@[simp] theorem State.clearInputs_ost (s : State) : (s.clearInputs).ost = s.ost := rfl
@[simp] theorem State.clearInputs_rdu (s : State) : (s.clearInputs).rdu = s.rdu := rfl
@[simp] theorem State.clearInputs_pku (s : State) : (s.clearInputs).pku = s.pku := rfl
@[simp] theorem State.clearInputs_cpt (s : State) : (s.clearInputs).cpt = s.cpt := rfl
@[simp] theorem State.clearInputs_inputs (s : State) : (s.clearInputs).inputs = Inputs.none := rfl
@[simp] theorem State.clearInputs_pending (s : State) : (s.clearInputs).pending = s.pending := rfl

@[simp] theorem State.reenable_lif (s : State) (i : BridgeNo) : (s.reenable i).lif = s.lif := rfl
@[simp] theorem State.reenable_cle (s : State) (i : BridgeNo) : (s.reenable i).cle = s.cle := rfl
@[simp] theorem State.reenable_pub (s : State) (i : BridgeNo) : (s.reenable i).pub = s.pub := rfl
@[simp] theorem State.reenable_iku (s : State) (i : BridgeNo) : (s.reenable i).iku = s.iku := rfl
@[simp] theorem State.reenable_mxe (s : State) (i : BridgeNo) : (s.reenable i).mxe = s.mxe.reenable i := rfl
@[simp] theorem State.reenable_ost (s : State) (i : BridgeNo) : (s.reenable i).ost = s.ost.setBridge i (s.ost.bridges.get i).reenable := rfl
@[simp] theorem State.reenable_rdu (s : State) (i : BridgeNo) : (s.reenable i).rdu = s.rdu := rfl
@[simp] theorem State.reenable_pku (s : State) (i : BridgeNo) : (s.reenable i).pku = s.pku := rfl
@[simp] theorem State.reenable_cpt (s : State) (i : BridgeNo) : (s.reenable i).cpt = s.cpt.raise (faultNotice i true (s.ost.bridges.get i).reenable) := rfl
@[simp] theorem State.reenable_inputs (s : State) (i : BridgeNo) : (s.reenable i).inputs = s.inputs := rfl
@[simp] theorem State.reenable_pending (s : State) (i : BridgeNo) : (s.reenable i).pending = s.pending := rfl

@[simp] theorem State.boundaryLevels_lif (s : State) : (s.boundaryLevels).lif = s.lif := rfl
@[simp] theorem State.boundaryLevels_cle (s : State) : (s.boundaryLevels).cle = s.cle := rfl
@[simp] theorem State.boundaryLevels_pub (s : State) : (s.boundaryLevels).pub = s.pub := rfl
@[simp] theorem State.boundaryLevels_iku (s : State) : (s.boundaryLevels).iku = s.iku := rfl
@[simp] theorem State.boundaryLevels_mxe (s : State) : (s.boundaryLevels).mxe = s.mxe.applyLevels.1 := rfl
@[simp] theorem State.boundaryLevels_ost (s : State) : (s.boundaryLevels).ost = s.ost := rfl
@[simp] theorem State.boundaryLevels_rdu (s : State) : (s.boundaryLevels).rdu = s.rdu := rfl
@[simp] theorem State.boundaryLevels_pku (s : State) : (s.boundaryLevels).pku = s.pku := rfl
@[simp] theorem State.boundaryLevels_cpt (s : State) : (s.boundaryLevels).cpt = s.cpt.raiseAll s.mxe.applyLevels.2 := rfl
@[simp] theorem State.boundaryLevels_inputs (s : State) : (s.boundaryLevels).inputs = s.inputs := rfl
@[simp] theorem State.boundaryLevels_pending (s : State) : (s.boundaryLevels).pending = s.pending := rfl

@[simp] theorem State.boundaryOutput_lif (s : State) : (s.boundaryOutput).lif = s.lif := rfl
@[simp] theorem State.boundaryOutput_cle (s : State) : (s.boundaryOutput).cle = s.cle := rfl
@[simp] theorem State.boundaryOutput_pub (s : State) : (s.boundaryOutput).pub = s.pub := rfl
@[simp] theorem State.boundaryOutput_iku (s : State) : (s.boundaryOutput).iku = s.iku := rfl
@[simp] theorem State.boundaryOutput_mxe (s : State) : (s.boundaryOutput).mxe = s.mxe := rfl
@[simp] theorem State.boundaryOutput_ost (s : State) : (s.boundaryOutput).ost = (s.ost.boundary s.cpt.store s.inConfig).1 := rfl
@[simp] theorem State.boundaryOutput_rdu (s : State) : (s.boundaryOutput).rdu = s.rdu := rfl
@[simp] theorem State.boundaryOutput_pku (s : State) : (s.boundaryOutput).pku = s.pku := rfl
@[simp] theorem State.boundaryOutput_cpt (s : State) : (s.boundaryOutput).cpt = s.cpt.raiseAll (s.ost.boundary s.cpt.store s.inConfig).2 := rfl
@[simp] theorem State.boundaryOutput_inputs (s : State) : (s.boundaryOutput).inputs = s.inputs := rfl
@[simp] theorem State.boundaryOutput_pending (s : State) : (s.boundaryOutput).pending = s.pending := rfl

@[simp] theorem State.boundaryIdle_lif (s : State) : (s.boundaryIdle).lif = (s.link.checkNoIdle s.env).lif := rfl
@[simp] theorem State.boundaryIdle_cle (s : State) : (s.boundaryIdle).cle = (s.link.checkNoIdle s.env).cle := rfl
@[simp] theorem State.boundaryIdle_pub (s : State) : (s.boundaryIdle).pub = s.pub := rfl
@[simp] theorem State.boundaryIdle_iku (s : State) : (s.boundaryIdle).iku = s.iku := rfl
@[simp] theorem State.boundaryIdle_mxe (s : State) : (s.boundaryIdle).mxe = s.mxe := rfl
@[simp] theorem State.boundaryIdle_ost (s : State) : (s.boundaryIdle).ost = s.ost := rfl
@[simp] theorem State.boundaryIdle_rdu (s : State) : (s.boundaryIdle).rdu = s.rdu := rfl
@[simp] theorem State.boundaryIdle_pku (s : State) : (s.boundaryIdle).pku = s.pku := rfl
@[simp] theorem State.boundaryIdle_cpt (s : State) : (s.boundaryIdle).cpt = (s.link.checkNoIdle s.env).cpt := rfl
@[simp] theorem State.boundaryIdle_inputs (s : State) : (s.boundaryIdle).inputs = s.inputs := rfl
@[simp] theorem State.boundaryIdle_pending (s : State) : (s.boundaryIdle).pending = s.pending := rfl

@[simp] theorem State.boundaryRadioBlock_lif (s : State) : (s.boundaryRadioBlock).lif = s.lif := rfl
@[simp] theorem State.boundaryRadioBlock_cle (s : State) : (s.boundaryRadioBlock).cle = s.cle := rfl
@[simp] theorem State.boundaryRadioBlock_pub (s : State) : (s.boundaryRadioBlock).pub = s.pub := rfl
@[simp] theorem State.boundaryRadioBlock_iku (s : State) : (s.boundaryRadioBlock).iku = s.iku := rfl
@[simp] theorem State.boundaryRadioBlock_mxe (s : State) : (s.boundaryRadioBlock).mxe = s.mxe := rfl
@[simp] theorem State.boundaryRadioBlock_ost (s : State) : (s.boundaryRadioBlock).ost = s.ost := rfl
@[simp] theorem State.boundaryRadioBlock_rdu (s : State) : (s.boundaryRadioBlock).rdu = s.rdu.formRadio s.cpt.store := rfl
@[simp] theorem State.boundaryRadioBlock_pku (s : State) : (s.boundaryRadioBlock).pku = s.pku := rfl
@[simp] theorem State.boundaryRadioBlock_cpt (s : State) : (s.boundaryRadioBlock).cpt = s.cpt := rfl
@[simp] theorem State.boundaryRadioBlock_inputs (s : State) : (s.boundaryRadioBlock).inputs = s.inputs := rfl
@[simp] theorem State.boundaryRadioBlock_pending (s : State) : (s.boundaryRadioBlock).pending = s.pending := rfl

@[simp] theorem State.boundaryDecide_lif (s : State) (v : MixView) : (State.boundaryDecide v s).lif = s.lif := rfl
@[simp] theorem State.boundaryDecide_cle (s : State) (v : MixView) : (State.boundaryDecide v s).cle = s.cle := rfl
@[simp] theorem State.boundaryDecide_pub (s : State) (v : MixView) : (State.boundaryDecide v s).pub = s.pub := rfl
@[simp] theorem State.boundaryDecide_iku (s : State) (v : MixView) : (State.boundaryDecide v s).iku = s.iku := rfl
@[simp] theorem State.boundaryDecide_mxe (s : State) (v : MixView) : (State.boundaryDecide v s).mxe = s.mxe.decide_ v := rfl
@[simp] theorem State.boundaryDecide_ost (s : State) (v : MixView) : (State.boundaryDecide v s).ost = s.ost := rfl
@[simp] theorem State.boundaryDecide_rdu (s : State) (v : MixView) : (State.boundaryDecide v s).rdu = s.rdu := rfl
@[simp] theorem State.boundaryDecide_pku (s : State) (v : MixView) : (State.boundaryDecide v s).pku = s.pku := rfl
@[simp] theorem State.boundaryDecide_cpt (s : State) (v : MixView) : (State.boundaryDecide v s).cpt = s.cpt := rfl
@[simp] theorem State.boundaryDecide_inputs (s : State) (v : MixView) : (State.boundaryDecide v s).inputs = s.inputs := rfl
@[simp] theorem State.boundaryDecide_pending (s : State) (v : MixView) : (State.boundaryDecide v s).pending = s.pending := rfl

@[simp] theorem State.boundaryIntake_lif (s : State) : (s.boundaryIntake).lif = s.lif := rfl
@[simp] theorem State.boundaryIntake_cle (s : State) : (s.boundaryIntake).cle = s.cle := rfl
@[simp] theorem State.boundaryIntake_pub (s : State) : (s.boundaryIntake).pub = s.pub := rfl
@[simp] theorem State.boundaryIntake_mxe (s : State) : (s.boundaryIntake).mxe = s.mxe := rfl
@[simp] theorem State.boundaryIntake_ost (s : State) : (s.boundaryIntake).ost = s.ost := rfl
@[simp] theorem State.boundaryIntake_rdu (s : State) : (s.boundaryIntake).rdu = s.rdu := rfl
@[simp] theorem State.boundaryIntake_pku (s : State) : (s.boundaryIntake).pku = s.pku := rfl
@[simp] theorem State.boundaryIntake_inputs (s : State) : (s.boundaryIntake).inputs = s.inputs := rfl
@[simp] theorem State.boundaryIntake_pending (s : State) : (s.boundaryIntake).pending = s.pending := rfl

@[simp] theorem State.boundaryMix_lif (s : State) (v : MixView) (a : FeedTbl Bool) (x : Sounds) : (State.boundaryMix v a x s).lif = s.lif := rfl
@[simp] theorem State.boundaryMix_cle (s : State) (v : MixView) (a : FeedTbl Bool) (x : Sounds) : (State.boundaryMix v a x s).cle = s.cle := rfl
@[simp] theorem State.boundaryMix_pub (s : State) (v : MixView) (a : FeedTbl Bool) (x : Sounds) : (State.boundaryMix v a x s).pub = s.pub := rfl
@[simp] theorem State.boundaryMix_iku (s : State) (v : MixView) (a : FeedTbl Bool) (x : Sounds) : (State.boundaryMix v a x s).iku = s.iku := rfl
@[simp] theorem State.boundaryMix_mxe (s : State) (v : MixView) (a : FeedTbl Bool) (x : Sounds) : (State.boundaryMix v a x s).mxe = (s.mxe.mixed v a s.iku x).1 := rfl
@[simp] theorem State.boundaryMix_ost (s : State) (v : MixView) (a : FeedTbl Bool) (x : Sounds) : (State.boundaryMix v a x s).ost = s.ost.load (s.mxe.mixed v a s.iku x).2 := rfl
@[simp] theorem State.boundaryMix_rdu (s : State) (v : MixView) (a : FeedTbl Bool) (x : Sounds) : (State.boundaryMix v a x s).rdu = s.rdu := rfl
@[simp] theorem State.boundaryMix_pku (s : State) (v : MixView) (a : FeedTbl Bool) (x : Sounds) : (State.boundaryMix v a x s).pku = s.pku := rfl
@[simp] theorem State.boundaryMix_cpt (s : State) (v : MixView) (a : FeedTbl Bool) (x : Sounds) : (State.boundaryMix v a x s).cpt = s.cpt := rfl
@[simp] theorem State.boundaryMix_inputs (s : State) (v : MixView) (a : FeedTbl Bool) (x : Sounds) : (State.boundaryMix v a x s).inputs = s.inputs := rfl
@[simp] theorem State.boundaryMix_pending (s : State) (v : MixView) (a : FeedTbl Bool) (x : Sounds) : (State.boundaryMix v a x s).pending = s.pending := rfl

@[simp] theorem State.boundaryUplink_lif (s : State) (v : MixView) (x : Sounds) : (State.boundaryUplink v x s).lif = s.lif := rfl
@[simp] theorem State.boundaryUplink_cle (s : State) (v : MixView) (x : Sounds) : (State.boundaryUplink v x s).cle = s.cle := rfl
@[simp] theorem State.boundaryUplink_pub (s : State) (v : MixView) (x : Sounds) : (State.boundaryUplink v x s).pub = s.pub := rfl
@[simp] theorem State.boundaryUplink_iku (s : State) (v : MixView) (x : Sounds) : (State.boundaryUplink v x s).iku = s.iku := rfl
@[simp] theorem State.boundaryUplink_mxe (s : State) (v : MixView) (x : Sounds) : (State.boundaryUplink v x s).mxe = s.mxe := rfl
@[simp] theorem State.boundaryUplink_ost (s : State) (v : MixView) (x : Sounds) : (State.boundaryUplink v x s).ost = s.ost := rfl
@[simp] theorem State.boundaryUplink_rdu (s : State) (v : MixView) (x : Sounds) : (State.boundaryUplink v x s).rdu = s.rdu := rfl
@[simp] theorem State.boundaryUplink_cpt (s : State) (v : MixView) (x : Sounds) : (State.boundaryUplink v x s).cpt = s.cpt := rfl
@[simp] theorem State.boundaryUplink_inputs (s : State) (v : MixView) (x : Sounds) : (State.boundaryUplink v x s).inputs = s.inputs := rfl
@[simp] theorem State.boundaryUplink_pending (s : State) (v : MixView) (x : Sounds) : (State.boundaryUplink v x s).pending = s.pending := rfl

@[simp] theorem State.boundaryClaims_pub (s : State) : (s.boundaryClaims).pub = s.pub := rfl
@[simp] theorem State.boundaryClaims_iku (s : State) : (s.boundaryClaims).iku = s.iku := rfl
@[simp] theorem State.boundaryClaims_mxe (s : State) : (s.boundaryClaims).mxe = s.mxe := rfl
@[simp] theorem State.boundaryClaims_ost (s : State) : (s.boundaryClaims).ost = s.ost := rfl
@[simp] theorem State.boundaryClaims_rdu (s : State) : (s.boundaryClaims).rdu = s.rdu := rfl
@[simp] theorem State.boundaryClaims_pku (s : State) : (s.boundaryClaims).pku = s.pku := rfl
@[simp] theorem State.boundaryClaims_inputs (s : State) : (s.boundaryClaims).inputs = s.inputs := rfl
@[simp] theorem State.boundaryClaims_pending (s : State) : (s.boundaryClaims).pending = s.pending := rfl

@[simp] theorem State.boundaryCadence_lif (s : State) : (s.boundaryCadence).lif = (s.link.tickCadence s.env).lif := rfl
@[simp] theorem State.boundaryCadence_cle (s : State) : (s.boundaryCadence).cle = (s.link.tickCadence s.env).cle := rfl
@[simp] theorem State.boundaryCadence_pub (s : State) : (s.boundaryCadence).pub = s.pub := rfl
@[simp] theorem State.boundaryCadence_iku (s : State) : (s.boundaryCadence).iku = s.iku := rfl
@[simp] theorem State.boundaryCadence_mxe (s : State) : (s.boundaryCadence).mxe = s.mxe := rfl
@[simp] theorem State.boundaryCadence_ost (s : State) : (s.boundaryCadence).ost = s.ost := rfl
@[simp] theorem State.boundaryCadence_rdu (s : State) : (s.boundaryCadence).rdu = s.rdu := rfl
@[simp] theorem State.boundaryCadence_pku (s : State) : (s.boundaryCadence).pku = s.pku := rfl
@[simp] theorem State.boundaryCadence_cpt (s : State) : (s.boundaryCadence).cpt = (s.link.tickCadence s.env).cpt := rfl
@[simp] theorem State.boundaryCadence_inputs (s : State) : (s.boundaryCadence).inputs = s.inputs := rfl
@[simp] theorem State.boundaryCadence_pending (s : State) : (s.boundaryCadence).pending = s.pending := rfl

@[simp] theorem State.consumeBuffer_lif (s : State) (i : BufferNo) : (s.consumeBuffer i).lif = s.lif := rfl
@[simp] theorem State.consumeBuffer_cle (s : State) (i : BufferNo) : (s.consumeBuffer i).cle = s.cle := rfl
@[simp] theorem State.consumeBuffer_pub (s : State) (i : BufferNo) : (s.consumeBuffer i).pub = s.pub := rfl
@[simp] theorem State.consumeBuffer_mxe (s : State) (i : BufferNo) : (s.consumeBuffer i).mxe = s.mxe := rfl
@[simp] theorem State.consumeBuffer_ost (s : State) (i : BufferNo) : (s.consumeBuffer i).ost = s.ost := rfl
@[simp] theorem State.consumeBuffer_rdu (s : State) (i : BufferNo) : (s.consumeBuffer i).rdu = s.rdu := rfl
@[simp] theorem State.consumeBuffer_pku (s : State) (i : BufferNo) : (s.consumeBuffer i).pku = s.pku := rfl
@[simp] theorem State.consumeBuffer_cpt (s : State) (i : BufferNo) : (s.consumeBuffer i).cpt = s.cpt := rfl
@[simp] theorem State.consumeBuffer_inputs (s : State) (i : BufferNo) : (s.consumeBuffer i).inputs = s.inputs := rfl
@[simp] theorem State.consumeBuffer_pending (s : State) (i : BufferNo) : (s.consumeBuffer i).pending = s.pending := rfl

@[simp] theorem State.derateBridge_lif (s : State) (i : BridgeNo) (b : Bridge) : (s.derateBridge i b).lif = s.lif := rfl
@[simp] theorem State.derateBridge_cle (s : State) (i : BridgeNo) (b : Bridge) : (s.derateBridge i b).cle = s.cle := rfl
@[simp] theorem State.derateBridge_pub (s : State) (i : BridgeNo) (b : Bridge) : (s.derateBridge i b).pub = s.pub := rfl
@[simp] theorem State.derateBridge_iku (s : State) (i : BridgeNo) (b : Bridge) : (s.derateBridge i b).iku = s.iku := rfl
@[simp] theorem State.derateBridge_mxe (s : State) (i : BridgeNo) (b : Bridge) : (s.derateBridge i b).mxe = s.mxe := rfl
@[simp] theorem State.derateBridge_ost (s : State) (i : BridgeNo) (b : Bridge) : (s.derateBridge i b).ost = s.ost.setBridge i b := rfl
@[simp] theorem State.derateBridge_rdu (s : State) (i : BridgeNo) (b : Bridge) : (s.derateBridge i b).rdu = s.rdu := rfl
@[simp] theorem State.derateBridge_pku (s : State) (i : BridgeNo) (b : Bridge) : (s.derateBridge i b).pku = s.pku := rfl
@[simp] theorem State.derateBridge_inputs (s : State) (i : BridgeNo) (b : Bridge) : (s.derateBridge i b).inputs = s.inputs := rfl
@[simp] theorem State.derateBridge_pending (s : State) (i : BridgeNo) (b : Bridge) : (s.derateBridge i b).pending = s.pending := rfl

@[simp] theorem State.hearSound_lif (s : State) (f : SoundFrame) : (s.hearSound f).lif = s.lif := rfl
@[simp] theorem State.hearSound_cle (s : State) (f : SoundFrame) : (s.hearSound f).cle = s.cle.mark f.stream f.priv := rfl
@[simp] theorem State.hearSound_pub (s : State) (f : SoundFrame) : (s.hearSound f).pub = s.pub := rfl
@[simp] theorem State.hearSound_iku (s : State) (f : SoundFrame) : (s.hearSound f).iku = (s.iku.hearSound f).1 := rfl
@[simp] theorem State.hearSound_mxe (s : State) (f : SoundFrame) : (s.hearSound f).mxe = s.mxe := rfl
@[simp] theorem State.hearSound_ost (s : State) (f : SoundFrame) : (s.hearSound f).ost = s.ost := rfl
@[simp] theorem State.hearSound_rdu (s : State) (f : SoundFrame) : (s.hearSound f).rdu = s.rdu := rfl
@[simp] theorem State.hearSound_pku (s : State) (f : SoundFrame) : (s.hearSound f).pku = s.pku := rfl
@[simp] theorem State.hearSound_cpt (s : State) (f : SoundFrame) : (s.hearSound f).cpt = s.cpt.raiseAll (s.iku.hearSound f).2 := rfl
@[simp] theorem State.hearSound_inputs (s : State) (f : SoundFrame) : (s.hearSound f).inputs = s.inputs := rfl
@[simp] theorem State.hearSound_pending (s : State) (f : SoundFrame) : (s.hearSound f).pending = s.pending := rfl

@[simp] theorem State.expirePeer_lif (s : State) (p : StationNo) : (s.expirePeer p).lif = (s.link.expirePeer p).lif := rfl
@[simp] theorem State.expirePeer_cle (s : State) (p : StationNo) : (s.expirePeer p).cle = (s.link.expirePeer p).cle := rfl
@[simp] theorem State.expirePeer_pub (s : State) (p : StationNo) : (s.expirePeer p).pub = s.pub := rfl
@[simp] theorem State.expirePeer_iku (s : State) (p : StationNo) : (s.expirePeer p).iku = s.iku.expirePeer p := rfl
@[simp] theorem State.expirePeer_mxe (s : State) (p : StationNo) : (s.expirePeer p).mxe = s.mxe := rfl
@[simp] theorem State.expirePeer_ost (s : State) (p : StationNo) : (s.expirePeer p).ost = s.ost := rfl
@[simp] theorem State.expirePeer_rdu (s : State) (p : StationNo) : (s.expirePeer p).rdu = s.rdu := rfl
@[simp] theorem State.expirePeer_pku (s : State) (p : StationNo) : (s.expirePeer p).pku = s.pku := rfl
@[simp] theorem State.expirePeer_cpt (s : State) (p : StationNo) : (s.expirePeer p).cpt = (s.link.expirePeer p).cpt := rfl
@[simp] theorem State.expirePeer_inputs (s : State) (p : StationNo) : (s.expirePeer p).inputs = s.inputs := rfl
@[simp] theorem State.expirePeer_pending (s : State) (p : StationNo) : (s.expirePeer p).pending = s.pending := rfl

end Sys2Proof.Machine
end

