-- ==== Sys2Proof/Laws/Station.lean ====
section
/-! SUPPORT. What the paths between the blocks and the parts of a block boundary can do: the LIF keeps its bounds, the
Control Port is only given notices, CONFIG is neither entered nor left, and no waiting command is touched. -/

namespace Sys2Proof.Machine

open Sys2Proof

/-- What an internal event of the station keeps. -/
structure State.Keeps (s t : State) : Prop where
  lif : s.lif.Keeps t.lif
  cpt : s.cpt.RaisedFrom t.cpt
  config : t.cle.lifecycle = .config ↔ s.cle.lifecycle = .config
  pending : t.pending = s.pending

theorem State.Keeps.refl (s : State) : s.Keeps s := ⟨.refl _, .refl _, Iff.rfl, rfl⟩

theorem State.Keeps.trans {s t u : State} (h : s.Keeps t) (k : t.Keeps u) : s.Keeps u :=
  ⟨h.lif.trans k.lif, h.cpt.trans k.cpt, k.config.trans h.config, k.pending.trans h.pending⟩

theorem State.Keeps.inConfig {s t : State} (h : s.Keeps t) : t.inConfig = s.inConfig := by
  simp only [State.inConfig]
  by_cases e : s.cle.lifecycle = .config
  · rw [e, h.config.mpr e]
  · have := fun x => e (h.config.mp x)
    simp only [beq_eq_false_iff_ne.mpr e, beq_eq_false_iff_ne.mpr this]

/-- A change of blocks other than the LIF, the CLE and the CPT, and of the samples that arrive. -/
theorem State.Keeps.of_eq {s t : State} (l : t.lif = s.lif) (c : t.cle = s.cle) (p : t.cpt = s.cpt)
    (q : t.pending = s.pending) : s.Keeps t :=
  ⟨by rw [l]; exact .refl _, by rw [p]; exact .refl _, by rw [c], q⟩

/-- Notices raised beside a change of blocks other than the LIF and the CLE. -/
theorem State.Keeps.of_raised {s t : State} (l : t.lif = s.lif) (c : t.cle = s.cle) (p : s.cpt.RaisedFrom t.cpt)
    (q : t.pending = s.pending) : s.Keeps t :=
  ⟨by rw [l]; exact .refl _, p, by rw [c], q⟩

theorem State.foldl_keeps {α : Type} {f : State → α → State} (h : ∀ (s : State) (a : α), s.Keeps (f s a)) (l : List α)
    (s : State) : s.Keeps (l.foldl f s) := by
  induction l generalizing s with
  | nil => exact .refl s
  | cons a l ih => exact (h s a).trans (ih (f s a))

theorem State.setLink_keeps (s : State) {k : Link} (h : s.link.Keeps k) : s.Keeps (s.setLink k) :=
  ⟨h.lif, h.cpt, h.config, rfl⟩

theorem State.arbitrate_keeps (s : State) : s.Keeps s.arbitrate := ⟨Lif.arbitrate_keeps _ _, .refl _, Iff.rfl, rfl⟩

/-- A notice raised, and the Radio Unit's record set, after a piece of work that keeps. -/
theorem State.Keeps.noted {s t : State} (h : s.Keeps t) (r : Rdu) (n : Notice) :
    s.Keeps { t with rdu := r, cpt := t.cpt.raise n } := ⟨h.lif, h.cpt.then_raise n, h.config, h.pending⟩

theorem State.announceStart_keeps (s : State) : s.Keeps s.announceStart := by
  have h (env : Env) (z : ZoneSet) (r : Option StreamNo) :
      s.Keeps ({ s with pub := s.pub.setRadioClass true }.setLink (s.link.placeAnnounce env z r).2) :=
    State.Keeps.trans (t := { s with pub := s.pub.setRadioClass true }) (.of_eq rfl rfl rfl rfl)
      (setLink_keeps _ (Link.placeAnnounce_keeps s.link env z r))
  unfold State.announceStart
  dsimp only
  split
  · exact (h _ _ _).noted _ _
  · exact (h _ _ _).noted s.rdu _

theorem State.announceEnd_keeps (s : State) (c : Option Serial) (a : AnnounceCause) : s.Keeps (s.announceEnd c a) := by
  have h (env : Env) (x : Serial) :
      s.Keeps ({ s with pub := s.pub.setRadioClass false }.setLink (s.link.endAnnounce env x)) :=
    State.Keeps.trans (t := { s with pub := s.pub.setRadioClass false }) (.of_eq rfl rfl rfl rfl)
      (setLink_keeps _ (Link.endAnnounce_keeps s.link env x))
  unfold State.announceEnd
  dsimp only
  split
  · exact (h _ _).noted s.rdu _
  · exact .of_raised rfl rfl (.raise _ _) rfl

theorem State.rduEffect_keeps (s : State) (e : RduEffect) : s.Keeps (s.rduEffect e) := by
  cases e
  · exact .of_raised rfl rfl (.raise _ _) rfl
  · exact announceStart_keeps s
  · exact announceEnd_keeps s _ _

theorem State.setRdu_keeps (s : State) (o : RduOut) : s.Keeps (s.setRdu o) :=
  State.Keeps.trans (t := { s with rdu := o.1 }) (.of_eq rfl rfl rfl rfl) (foldl_keeps rduEffect_keeps _ _)

theorem State.reenable_keeps (s : State) (i : BridgeNo) : s.Keeps (s.reenable i) := .of_raised rfl rfl (.raise _ _) rfl

theorem State.expirePeer_keeps (s : State) (p : StationNo) : s.Keeps (s.expirePeer p) :=
  (setLink_keeps s (Link.expirePeer_keeps _ p)).trans (.of_eq rfl rfl rfl rfl)

theorem State.boundaryLevels_keeps (s : State) : s.Keeps s.boundaryLevels := .of_raised rfl rfl (.raiseAll _ _) rfl
theorem State.boundaryOutput_keeps (s : State) : s.Keeps s.boundaryOutput := .of_raised rfl rfl (.raiseAll _ _) rfl
theorem State.boundaryIdle_keeps (s : State) : s.Keeps s.boundaryIdle := setLink_keeps s (Link.checkNoIdle_keeps _ _)
theorem State.boundaryRadioBlock_keeps (s : State) : s.Keeps s.boundaryRadioBlock := .of_eq rfl rfl rfl rfl
theorem State.boundaryDecide_keeps (v : MixView) (s : State) : s.Keeps (s.boundaryDecide v) := .of_eq rfl rfl rfl rfl

theorem State.pickupSlot_keeps (s : State) (p : PickupSlot) : s.Keeps (s.pickupSlot p) := by
  cases p
  · exact .refl s
  · exact .of_eq rfl rfl rfl rfl
  · exact ⟨Lif.handSound_keeps _ _ _ _, .refl _, Iff.rfl, rfl⟩

theorem State.boundaryPickup_keeps (v : MixView) (s : State) : s.Keeps (s.boundaryPickup v) := by
  unfold State.boundaryPickup
  refine State.Keeps.trans ?_ (pickupSlot_keeps _ _)
  exact .of_raised rfl rfl (.raiseAll _ _) rfl

theorem State.boundaryIntake_keeps (s : State) : s.Keeps s.boundaryIntake := .of_raised rfl rfl (.raiseAll _ _) rfl

theorem State.boundaryMix_keeps (v : MixView) (a : FeedTbl Bool) (x : Sounds) (s : State) :
    s.Keeps (s.boundaryMix v a x) := .of_eq rfl rfl rfl rfl

theorem State.boundaryUplink_keeps (v : MixView) (x : Sounds) (s : State) : s.Keeps (s.boundaryUplink v x) :=
  .of_eq rfl rfl rfl rfl

theorem State.publishSlot_keeps (hand : Bool) (s : State) (i : PubSlotNo) : s.Keeps (State.publishSlot hand s i) := by
  unfold State.publishSlot
  split
  · exact .refl s
  · refine ⟨?_, .refl _, Iff.rfl, rfl⟩
    dsimp only
    split
    · exact Lif.handSound_keeps _ _ _ _
    · exact .refl _

theorem State.boundaryPublish_keeps (hand : Bool) (s : State) : s.Keeps (s.boundaryPublish hand) :=
  (foldl_keeps (publishSlot_keeps hand) _ s).trans (.of_eq rfl rfl rfl rfl)

theorem State.boundaryRadio_keeps (s : State) : s.Keeps s.boundaryRadio := setRdu_keeps s _

theorem State.boundaryClaims_keeps (s : State) : s.Keeps s.boundaryClaims :=
  setLink_keeps s ((Link.tickWindow_keeps _ _).trans (Link.setClaims_keeps _ _))

theorem State.boundaryPeers_keeps (s : State) : s.Keeps s.boundaryPeers :=
  State.Keeps.trans (t := { s with cle := { s.cle with peers := agePeers s.own s.cle.peers } })
    ⟨.refl _, .refl _, Iff.rfl, rfl⟩ (foldl_keeps expirePeer_keeps _ _)

theorem State.boundaryCadence_keeps (s : State) : s.Keeps s.boundaryCadence :=
  setLink_keeps s (Link.tickCadence_keeps _ _)

theorem State.clearInputs_keeps (s : State) : s.Keeps s.clearInputs := .of_eq rfl rfl rfl rfl

theorem State.boundaryConfig_keeps (s : State) : s.Keeps s.boundaryConfig :=
  (boundaryOutput_keeps s).trans ((boundaryLevels_keeps _).trans (.of_eq rfl rfl rfl rfl))

theorem State.boundaryRun_keeps (s : State) : s.Keeps s.boundaryRun := by
  unfold State.boundaryRun
  dsimp only
  refine State.Keeps.trans ?_ ((clearInputs_keeps _).trans (arbitrate_keeps _))
  have h5 : s.Keeps ((((((((s.boundaryOutput.boundaryLevels.boundaryIdle.boundaryRadioBlock.boundaryDecide
      s.mixView).boundaryPickup s.mixView).boundaryIntake).boundaryMix s.mixView (s.mxe.activated s.mixView)
      (s.boundaryOutput.boundaryLevels.boundaryIdle.boundaryRadioBlock.sounds s.pku.uplink)).boundaryUplink s.mixView
      (s.boundaryOutput.boundaryLevels.boundaryIdle.boundaryRadioBlock.sounds s.pku.uplink)).boundaryPublish
      (s.cle.lifecycle == .active)).boundaryRadio.boundaryClaims.boundaryPeers)) :=
    (boundaryOutput_keeps s).trans <| (boundaryLevels_keeps _).trans <| (boundaryIdle_keeps _).trans <|
    (boundaryRadioBlock_keeps _).trans <| (boundaryDecide_keeps _ _).trans <| (boundaryPickup_keeps _ _).trans <|
    (boundaryIntake_keeps _).trans <| (boundaryMix_keeps _ _ _ _).trans <| (boundaryUplink_keeps _ _ _).trans <|
    (boundaryPublish_keeps _ _).trans <| (boundaryRadio_keeps _).trans <| (boundaryClaims_keeps _).trans
    (boundaryPeers_keeps _)
  split
  · exact h5.trans (boundaryCadence_keeps _)
  · exact h5

theorem State.reenableDue_keeps (s : State) : s.Keeps s.reenableDue := foldl_keeps reenable_keeps _ s

theorem State.hearSound_keeps (s : State) (f : SoundFrame) : s.Keeps (s.hearSound f) :=
  ⟨.refl _, .raiseAll _ _, Iff.rfl, rfl⟩

theorem State.deliver_keeps (s : State) (p : StationNo) (b : FrameBody) : s.Keeps (s.deliver p b) := by
  unfold State.deliver
  split
  · exact .refl s
  · split
    · exact .of_raised rfl rfl (.raise _ _) rfl
    · split
      · exact hearSound_keeps s _
      · exact setLink_keeps s (Link.hearFrame_keeps _ _ _ _)
      · exact setLink_keeps s (Link.hearFrame_keeps _ _ _ _)

end Sys2Proof.Machine
end

