-- ==== Sys2Proof/Laws/Boundary.lean ====
section
/-! SUPPORT. What a block boundary outside CONFIG leaves in each block: the parts of `State.boundaryRun` that each block
does not take part in leave it alone, and so its content after the boundary is that of its own part. -/

namespace Sys2Proof.Machine

open Sys2Proof

/-- A piece of work that leaves the blocks of the sound path alone. -/
structure State.KeepsSound (s t : State) : Prop where
  mxe : t.mxe = s.mxe
  ost : t.ost = s.ost
  pku : t.pku = s.pku
  inputs : t.inputs = s.inputs

theorem State.KeepsSound.refl (s : State) : s.KeepsSound s := ⟨rfl, rfl, rfl, rfl⟩

theorem State.KeepsSound.trans {s t u : State} (h : s.KeepsSound t) (k : t.KeepsSound u) : s.KeepsSound u :=
  ⟨k.mxe.trans h.mxe, k.ost.trans h.ost, k.pku.trans h.pku, k.inputs.trans h.inputs⟩

theorem State.foldl_keepsSound {α : Type} {f : State → α → State} (h : ∀ (s : State) (a : α), s.KeepsSound (f s a))
    (l : List α) (s : State) : s.KeepsSound (l.foldl f s) := by
  induction l generalizing s with
  | nil => exact .refl s
  | cons a l ih => exact (h s a).trans (ih (f s a))

/-! ### The Radio Unit's effects -/

theorem State.announceStart_keepsSound (s : State) : s.KeepsSound s.announceStart := by
  unfold State.announceStart
  dsimp only
  split <;> exact ⟨rfl, rfl, rfl, rfl⟩

theorem State.announceEnd_keepsSound (s : State) (c : Option Serial) (a : AnnounceCause) :
    s.KeepsSound (s.announceEnd c a) := by
  unfold State.announceEnd
  dsimp only
  split <;> exact ⟨rfl, rfl, rfl, rfl⟩

theorem State.rduEffect_keepsSound (s : State) (e : RduEffect) : s.KeepsSound (s.rduEffect e) := by
  cases e
  · exact ⟨rfl, rfl, rfl, rfl⟩
  · exact announceStart_keepsSound s
  · exact announceEnd_keepsSound s _ _

theorem State.setRdu_keepsSound (s : State) (o : RduOut) : s.KeepsSound (s.setRdu o) :=
  State.KeepsSound.trans (t := { s with rdu := o.1 }) ⟨rfl, rfl, rfl, rfl⟩ (foldl_keepsSound rduEffect_keepsSound _ _)

theorem State.announceStart_iku (s : State) : s.announceStart.iku = s.iku := by
  unfold State.announceStart
  dsimp only
  split <;> rfl

theorem State.announceEnd_iku (s : State) (c : Option Serial) (a : AnnounceCause) : (s.announceEnd c a).iku = s.iku := by
  unfold State.announceEnd
  dsimp only
  split <;> rfl

theorem State.setRdu_iku (s : State) (o : RduOut) : (s.setRdu o).iku = s.iku := by
  have h : ∀ (l : List RduEffect) (t : State), (l.foldl State.rduEffect t).iku = t.iku := by
    intro l
    induction l with
    | nil => intro t; rfl
    | cons e l ih =>
      intro t
      rw [List.foldl_cons, ih]
      cases e
      · rfl
      · exact announceStart_iku t
      · exact announceEnd_iku t _ _
  exact h _ _

/-- What an effect of the Radio Unit may change in the Radio Unit itself: the announcement's claim. -/
theorem State.rduEffect_rdu (s : State) (e : RduEffect) : ∃ c, (s.rduEffect e).rdu = { s.rdu with ann := { s.rdu.ann with claim := c } } := by
  cases e
  · exact ⟨s.rdu.ann.claim, rfl⟩
  · simp only [State.rduEffect]
    unfold State.announceStart
    dsimp only
    split
    · exact ⟨_, rfl⟩
    · exact ⟨s.rdu.ann.claim, rfl⟩
  · simp only [State.rduEffect]
    unfold State.announceEnd
    dsimp only
    split <;> exact ⟨s.rdu.ann.claim, rfl⟩

theorem State.setRdu_rdu (s : State) (o : RduOut) : ∃ c, (s.setRdu o).rdu = { o.1 with ann := { o.1.ann with claim := c } } := by
  have h : ∀ (l : List RduEffect) (t : State), ∃ c, (l.foldl State.rduEffect t).rdu = { t.rdu with ann := { t.rdu.ann with claim := c } } := by
    intro l
    induction l with
    | nil => intro t; exact ⟨t.rdu.ann.claim, rfl⟩
    | cons e l ih =>
      intro t
      rw [List.foldl_cons]
      obtain ⟨c, hc⟩ := ih (t.rduEffect e)
      obtain ⟨d, hd⟩ := t.rduEffect_rdu e
      exact ⟨c, by rw [hc, hd]⟩
  exact h _ _

/-! ### The RADIO block is formed once -/

@[simp] theorem Rdu.setPath_radio (r : Rdu) (p : Path) (x : PathRec) : (r.setPath p x).radio = r.radio := by
  cases p <;> rfl

@[simp] theorem Rdu.retune_radio (r : Rdu) (p : Path) (c : Channel) : (r.retune p c).radio = r.radio := by
  simp [Rdu.retune]

@[simp] theorem Rdu.makeActive_radio (r : Rdu) (p : Path) : (r.makeActive p).radio = r.radio := by
  unfold Rdu.makeActive; split <;> rfl

@[simp] theorem Rdu.useSpare_radio (r : Rdu) : r.useSpare.radio = r.radio := by
  unfold Rdu.useSpare
  split
  · rfl
  · split <;> simp
  · simp
  · split
    · rfl
    · split <;> simp

@[simp] theorem Rdu.useSpareOrWait_radio (r : Rdu) : r.useSpareOrWait.radio = r.radio := by
  unfold Rdu.useSpareOrWait; split <;> simp

@[simp] theorem Rdu.control_radio (r : Rdu) (c : Store) (a : Bool) : (r.control c a).radio = r.radio := by
  unfold Rdu.control
  dsimp only
  split <;> simp

@[simp] theorem Rdu.endAnnouncement_radio (r : Rdu) (a : AnnounceCause) : (r.endAnnouncement a).1.radio = r.radio := by
  unfold Rdu.endAnnouncement; split <;> rfl

@[simp] theorem Rdu.restartAf_radio (r : Rdu) : r.restartAf.radio = r.radio := by
  unfold Rdu.restartAf; split <;> rfl

@[simp] theorem Rdu.swap_radio (r : Rdu) : r.swap.radio = r.radio := by
  simp [Rdu.swap]

@[simp] theorem Rdu.tickAf_radio (r : Rdu) (c : Store) : (r.tickAf c).radio = r.radio := by
  unfold Rdu.tickAf
  split
  · rfl
  · split
    · rfl
    · unfold Rdu.afExpires; split <;> simp

@[simp] theorem Rdu.tickReception_radio (r : Rdu) : r.tickReception.1.radio = r.radio := by
  unfold Rdu.tickReception
  split
  · split
    · rfl
    · dsimp only
      split <;> simp
  · rfl

/-- The Radio Unit's work at a boundary after the RADIO block leaves that block. -/
@[simp] theorem Rdu.boundary_radio (r : Rdu) (c : Store) : (r.boundary c).1.radio = r.radio := by
  unfold Rdu.boundary Rdu.swapOrTick
  simp only [RduOut.andThen, Rdu.tickReception_radio]
  split
  · simp [Rdu.probeSwap, Rdu.riseHoldOff]
  · split <;> simp [Rdu.diversitySwap, Rdu.riseHoldOff]

/-! ### The Intake's buffers after their blocks were given -/

/-- The Intake after a piece of work that takes nothing of what its buffers give: streams, static flags and given blocks
stay. -/
def Iku.KeepsGiven (k l : Iku) : Prop :=
  ∀ i : BufferNo, (l.buffers.get i).stream = (k.buffers.get i).stream ∧ (l.buffers.get i).given = (k.buffers.get i).given ∧
    (l.buffers.get i).givenForce = (k.buffers.get i).givenForce ∧
    (l.buffers.get i).givenReturn = (k.buffers.get i).givenReturn

theorem Iku.KeepsGiven.refl (k : Iku) : k.KeepsGiven k := fun _ => ⟨rfl, rfl, rfl, rfl⟩

theorem Iku.KeepsGiven.trans {k l m : Iku} (h : k.KeepsGiven l) (g : l.KeepsGiven m) : k.KeepsGiven m := fun i =>
  ⟨(g i).1.trans (h i).1, (g i).2.1.trans (h i).2.1, (g i).2.2.1.trans (h i).2.2.1, (g i).2.2.2.trans (h i).2.2.2⟩

theorem Buffer.starve_given (b : Buffer) : b.starve.stream = b.stream ∧ b.starve.given = b.given ∧
    b.starve.givenForce = b.givenForce ∧ b.starve.givenReturn = b.givenReturn := by
  unfold Buffer.starve; split <;> exact ⟨rfl, rfl, rfl, rfl⟩

theorem Iku.starve_keepsGiven (k : Iku) (n : StreamNo) : k.KeepsGiven (k.starve n) := by
  intro i
  unfold Iku.starve
  dsimp only
  split <;> split <;> try exact ⟨rfl, rfl, rfl, rfl⟩
  all_goals
    simp only [Tbl.get_modify]
    split
    · exact Buffer.starve_given _
    · exact ⟨rfl, rfl, rfl, rfl⟩

theorem Iku.takeCall_keepsGiven (k : Iku) (f : SoundFrame) : k.KeepsGiven (k.takeCall f) := by
  intro i
  unfold Iku.takeCall
  split <;> exact ⟨rfl, rfl, rfl, rfl⟩

theorem Iku.KeepsGiven.bufferOf {k l : Iku} (h : k.KeepsGiven l) (n : StreamNo) : l.bufferOf n = k.bufferOf n := by
  unfold Iku.bufferOf
  congr 1
  funext i
  rw [(h i).1]

/-- What a stream last gave stays. -/
theorem Iku.KeepsGiven.given {k l : Iku} (h : k.KeepsGiven l) (n : StreamNo) : l.given n = k.given n := by
  unfold Iku.given
  rw [h.bufferOf n]
  split
  · rw [(h _).2.1, (h _).2.2.1, (h _).2.2.2]
  · rfl

/-! ### The parts of a boundary -/

theorem State.pickupSlot_keepsSound (s : State) (p : PickupSlot) : s.KeepsSound (s.pickupSlot p) := by
  cases p <;> exact ⟨rfl, rfl, rfl, rfl⟩

@[simp] theorem State.pickupSlot_iku (s : State) (p : PickupSlot) : (s.pickupSlot p).iku = s.iku := by cases p <;> rfl
@[simp] theorem State.pickupSlot_rdu (s : State) (p : PickupSlot) : (s.pickupSlot p).rdu = s.rdu := by cases p <;> rfl
@[simp] theorem State.pickupSlot_cle (s : State) (p : PickupSlot) : (s.pickupSlot p).cle = s.cle := by cases p <;> rfl
@[simp] theorem State.pickupSlot_cpt (s : State) (p : PickupSlot) : (s.pickupSlot p).cpt = s.cpt := by cases p <;> rfl

@[simp] theorem State.boundaryPickup_mxe (s : State) (v : MixView) : (s.boundaryPickup v).mxe = s.mxe := (pickupSlot_keepsSound _ _).mxe
@[simp] theorem State.boundaryPickup_ost (s : State) (v : MixView) : (s.boundaryPickup v).ost = s.ost := (pickupSlot_keepsSound _ _).ost
@[simp] theorem State.boundaryPickup_inputs (s : State) (v : MixView) : (s.boundaryPickup v).inputs = s.inputs :=
  (pickupSlot_keepsSound _ _).inputs
@[simp] theorem State.boundaryPickup_pku (s : State) (v : MixView) : (s.boundaryPickup v).pku = (s.pku.decide_ v.store v.cle).1 :=
  (pickupSlot_keepsSound _ _).pku
@[simp] theorem State.boundaryPickup_iku (s : State) (v : MixView) : (s.boundaryPickup v).iku = s.iku := by
  simp [State.boundaryPickup]
@[simp] theorem State.boundaryPickup_rdu (s : State) (v : MixView) : (s.boundaryPickup v).rdu = s.rdu := by
  simp [State.boundaryPickup]
@[simp] theorem State.boundaryPickup_cle (s : State) (v : MixView) : (s.boundaryPickup v).cle = s.cle := by
  simp [State.boundaryPickup]

theorem State.publishSlot_keepsSound (h : Bool) (s : State) (i : PubSlotNo) : s.KeepsSound (State.publishSlot h s i) := by
  unfold State.publishSlot
  split <;> exact ⟨rfl, rfl, rfl, rfl⟩

theorem State.publishSlot_given (h : Bool) (s : State) (i : PubSlotNo) : s.iku.KeepsGiven (State.publishSlot h s i).iku := by
  unfold State.publishSlot
  split
  · exact .refl _
  · exact Iku.takeCall_keepsGiven _ _

theorem State.publishSlot_rdu (h : Bool) (s : State) (i : PubSlotNo) : (State.publishSlot h s i).rdu = s.rdu := by
  unfold State.publishSlot
  split <;> rfl

theorem State.boundaryPublish_keepsSound (h : Bool) (s : State) : s.KeepsSound (s.boundaryPublish h) := by
  have := foldl_keepsSound (publishSlot_keepsSound h) (Tbl.indices 2) s
  exact ⟨this.mxe, this.ost, this.pku, this.inputs⟩

theorem State.boundaryPublish_given (h : Bool) (s : State) : s.iku.KeepsGiven (s.boundaryPublish h).iku := by
  have : ∀ (l : List PubSlotNo) (t : State), t.iku.KeepsGiven (l.foldl (State.publishSlot h) t).iku := by
    intro l
    induction l with
    | nil => intro t; exact .refl _
    | cons i l ih => intro t; exact (publishSlot_given h t i).trans (ih _)
  exact this _ _

theorem State.boundaryPublish_rdu (h : Bool) (s : State) : (s.boundaryPublish h).rdu = s.rdu := by
  have : ∀ (l : List PubSlotNo) (t : State), (l.foldl (State.publishSlot h) t).rdu = t.rdu := by
    intro l
    induction l with
    | nil => intro t; rfl
    | cons i l ih => intro t; rw [List.foldl_cons, ih, publishSlot_rdu]
  exact this _ _

theorem State.expirePeer_keepsSound (s : State) (p : StationNo) : s.KeepsSound (s.expirePeer p) := ⟨rfl, rfl, rfl, rfl⟩

theorem State.boundaryPeers_keepsSound (s : State) : s.KeepsSound s.boundaryPeers :=
  State.KeepsSound.trans (t := { s with cle := { s.cle with peers := agePeers s.own s.cle.peers } })
    ⟨rfl, rfl, rfl, rfl⟩ (foldl_keepsSound expirePeer_keepsSound _ _)

theorem State.boundaryPeers_rdu (s : State) : s.boundaryPeers.rdu = s.rdu := by
  have : ∀ (l : List StationNo) (t : State), (l.foldl State.expirePeer t).rdu = t.rdu := by
    intro l
    induction l with
    | nil => intro t; rfl
    | cons i l ih => intro t; rw [List.foldl_cons, ih]; rfl
  exact this _ _

theorem State.boundaryPeers_pub (s : State) : s.boundaryPeers.pub = s.pub := by
  have : ∀ (l : List StationNo) (t : State), (l.foldl State.expirePeer t).pub = t.pub := by
    intro l
    induction l with
    | nil => intro t; rfl
    | cons i l ih => intro t; rw [List.foldl_cons, ih]; rfl
  exact this _ _

theorem State.boundaryPeers_given (s : State) : s.iku.KeepsGiven s.boundaryPeers.iku := by
  have : ∀ (l : List StationNo) (t : State), t.iku.KeepsGiven (l.foldl State.expirePeer t).iku := by
    intro l
    induction l with
    | nil => intro t; exact .refl _
    | cons p l ih =>
      intro t
      exact ((Iku.starve_keepsGiven _ _).trans (Iku.starve_keepsGiven _ _)).trans (ih _)
  exact this _ _

/-! ### The whole boundary -/

/-- The Mix Engine after steps 1 to 4 of R114. -/
def State.decidedMxe (s : State) : Mxe := s.mxe.applyLevels.1.decide_ s.mixView

/-- The pickup record after step 1 of R179. -/
def State.decidedPku (s : State) : Pku := (s.pku.decide_ s.cpt.store s.cle).1

/-- The Intake when its blocks have been given. -/
def State.servedIku (s : State) : Iku :=
  (s.iku.age.serve s.own (s.decidedMxe.users ++ s.decidedPku.user)).1.consume.1

/-- The local sources' blocks at this boundary. -/
def State.boundarySounds (s : State) : Sounds := { s with rdu := s.rdu.formRadio s.cpt.store }.sounds s.pku.uplink

/-- The mix of this boundary, and the blocks for the bridges. -/
def State.boundaryMixed (s : State) : Mxe × Tbl 8 (List Sample) :=
  s.decidedMxe.mixed s.mixView (s.mxe.activated s.mixView) s.servedIku s.boundarySounds

theorem Link.checkNoIdle_store (k : Link) (env : Env) : (k.checkNoIdle env).cpt.store = k.cpt.store :=
  (Link.checkNoIdle_keeps k env).cpt.store

/-- The station when its feeds, its pickup and its Intake have been decided. -/
theorem State.boundary_served (s : State) :
    let s1 := s.boundaryOutput.boundaryLevels.boundaryIdle.boundaryRadioBlock
    let s2 := ((s1.boundaryDecide s.mixView).boundaryPickup s.mixView).boundaryIntake
    s2.mxe = s.decidedMxe ∧ s2.iku = s.servedIku ∧ s2.pku = s.decidedPku ∧ s2.inputs = s.inputs ∧
      s2.ost = (s.ost.boundary s.cpt.store s.inConfig).1 ∧ s2.rdu = s.rdu.formRadio s.cpt.store ∧
      s2.cpt.store = s.cpt.store ∧ s1.sounds s.pku.uplink = s.boundarySounds := by
  intro s1 s2
  have hs1 : s.Keeps s1 := ((boundaryOutput_keeps s).trans (boundaryLevels_keeps _)).trans
    ((boundaryIdle_keeps _).trans (boundaryRadioBlock_keeps _))
  have hs : (((s1.boundaryDecide s.mixView).boundaryPickup s.mixView)).Keeps s2 := boundaryIntake_keeps _
  have hp : s1.Keeps ((s1.boundaryDecide s.mixView).boundaryPickup s.mixView) :=
    (boundaryDecide_keeps _ _).trans (boundaryPickup_keeps _ _)
  have st1 : s1.cpt.store = s.cpt.store := hs1.cpt.store
  have stp := hp.cpt.store
  have hst : s.boundaryOutput.boundaryLevels.boundaryIdle.cpt.store = s.cpt.store :=
    (((boundaryOutput_keeps s).trans (boundaryLevels_keeps _)).trans (boundaryIdle_keeps _)).cpt.store
  have hrdu : s1.rdu = s.rdu.formRadio s.cpt.store := by
    simp only [s1, boundaryRadioBlock_rdu, boundaryIdle_rdu, hst]
    rfl
  have hown : ((s1.boundaryDecide s.mixView).boundaryPickup s.mixView).own = s.own := by
    unfold State.own
    rw [stp, st1]
  refine ⟨?_, ?_, ?_, ?_, ?_, ?_, ?_, ?_⟩
  · simp only [s2, s1, boundaryIntake_mxe, boundaryPickup_mxe, boundaryDecide_mxe]
    rfl
  · show (((s1.boundaryDecide s.mixView).boundaryPickup s.mixView).iku.age.serve
      ((s1.boundaryDecide s.mixView).boundaryPickup s.mixView).own _).1.consume.1 = _
    rw [hown]
    simp only [boundaryPickup_iku, boundaryPickup_mxe, boundaryPickup_pku]
    rfl
  · simp only [s2, boundaryIntake_pku, boundaryPickup_pku]
    rfl
  · simp only [s2, boundaryIntake_inputs, boundaryPickup_inputs]
    rfl
  · simp only [s2, boundaryIntake_ost, boundaryPickup_ost]
    rfl
  · simp only [s2, boundaryIntake_rdu, boundaryPickup_rdu, boundaryDecide_rdu, hrdu]
  · rw [hs.cpt.store, stp, st1]
  · unfold State.boundarySounds State.sounds
    rw [hrdu]
    rfl

/-- The pickup's echo block at a boundary (R185). -/
def State.echoSound (s : State) : FeedSound :=
  match s.decidedPku.echo with
  | some n => streamSound s.mixView s.servedIku s.boundarySounds n
  | none => ⟨silentBlock, .programme, false, false, none, false, false, false⟩

/-- What a boundary outside CONFIG leaves in the Mix Engine, the Output Stage, the Pickup Unit, the Intake's given blocks
and the RADIO block. -/
theorem State.boundaryRun_holds (s : State) :
    s.boundaryRun.mxe = s.boundaryMixed.1 ∧
      s.boundaryRun.ost = (s.ost.boundary s.cpt.store s.inConfig).1.load s.boundaryMixed.2 ∧
      s.boundaryRun.pku = s.decidedPku.run_ s.cpt.store s.echoSound.block s.echoSound.served s.micBlocks ∧
      s.servedIku.KeepsGiven s.boundaryRun.iku ∧
      (∃ c, s.boundaryRun.rdu = { ((s.rdu.formRadio s.cpt.store).boundary s.cpt.store).1 with
        ann := { ((s.rdu.formRadio s.cpt.store).boundary s.cpt.store).1.ann with claim := c } }) ∧
      s.boundaryRun.rdu.radio = (s.rdu.formRadio s.cpt.store).radio ∧ s.boundaryRun.cpt.store = s.cpt.store ∧
      s.boundaryRun.inputs = Inputs.none := by
  obtain ⟨hm, hi, hp, hn, ho, hr, hc, hx⟩ := s.boundary_served
  have hk := s.boundaryRun_keeps
  unfold State.boundaryRun at hk ⊢
  dsimp only at hk hx ⊢
  rw [hx] at hk ⊢
  generalize hs2 : (((s.boundaryOutput.boundaryLevels.boundaryIdle.boundaryRadioBlock).boundaryDecide
    s.mixView).boundaryPickup s.mixView).boundaryIntake = s2 at hm hi hp hn ho hr hc hk ⊢
  generalize hs3 : (State.boundaryUplink s.mixView s.boundarySounds
    (State.boundaryMix s.mixView (s.mxe.activated s.mixView) s.boundarySounds s2)) = s3 at hk ⊢
  have h3m : s3.mxe = s.boundaryMixed.1 := by
    rw [← hs3]; simp only [boundaryUplink_mxe, boundaryMix_mxe, hm, hi]; rfl
  have h3o : s3.ost = (s.ost.boundary s.cpt.store s.inConfig).1.load s.boundaryMixed.2 := by
    rw [← hs3]; simp only [boundaryUplink_ost, boundaryMix_ost, hm, hi, ho]; rfl
  have h3i : s3.iku = s.servedIku := by
    rw [← hs3]; simp only [boundaryUplink_iku, boundaryMix_iku, hi]
  have h3r : s3.rdu = s.rdu.formRadio s.cpt.store := by
    rw [← hs3]; simp only [boundaryUplink_rdu, boundaryMix_rdu, hr]
  have h3c : s3.cpt.store = s.cpt.store := by
    rw [← hs3]; simp only [boundaryUplink_cpt, boundaryMix_cpt, hc]
  have h3p : s3.pku = s.decidedPku.run_ s.cpt.store s.echoSound.block s.echoSound.served s.micBlocks := by
    rw [← hs3]
    unfold State.boundaryUplink State.micBlocks State.echoSound
    simp only [boundaryMix_pku, boundaryMix_iku, boundaryMix_cpt, boundaryMix_inputs, hp, hi, hc, hn] <;> rfl
  generalize hs4 : s3.boundaryPublish (s.cle.lifecycle == .active) = s4 at hk ⊢
  have k4 := hs4 ▸ boundaryPublish_keepsSound (s.cle.lifecycle == Lifecycle.active) s3
  have g4 := hs4 ▸ boundaryPublish_given (s.cle.lifecycle == Lifecycle.active) s3
  have r4 : s4.rdu = s3.rdu := hs4 ▸ boundaryPublish_rdu (s.cle.lifecycle == Lifecycle.active) s3
  have c4 : s4.cpt.store = s3.cpt.store := hs4 ▸ (boundaryPublish_keeps (s.cle.lifecycle == Lifecycle.active) s3).cpt.store
  have k5 : s4.KeepsSound s4.boundaryRadio.boundaryClaims.boundaryPeers := by
    have a : s4.KeepsSound s4.boundaryRadio := setRdu_keepsSound _ _
    have b : s4.boundaryRadio.KeepsSound s4.boundaryRadio.boundaryClaims := ⟨rfl, rfl, rfl, rfl⟩
    exact (a.trans b).trans (boundaryPeers_keepsSound _)
  have g5 : s4.iku.KeepsGiven s4.boundaryRadio.boundaryClaims.boundaryPeers.iku := by
    have e : s4.boundaryRadio.boundaryClaims.iku = s4.iku := by
      rw [boundaryClaims_iku]; exact setRdu_iku _ _
    have := s4.boundaryRadio.boundaryClaims.boundaryPeers_given
    rwa [e] at this
  have r5 : ∃ c, s4.boundaryRadio.boundaryClaims.boundaryPeers.rdu =
      { ((s.rdu.formRadio s.cpt.store).boundary s.cpt.store).1 with
        ann := { ((s.rdu.formRadio s.cpt.store).boundary s.cpt.store).1.ann with claim := c } } := by
    rw [boundaryPeers_rdu, boundaryClaims_rdu]
    obtain ⟨c, h⟩ := State.setRdu_rdu s4 (s4.rdu.boundary s4.cpt.store)
    refine ⟨c, ?_⟩
    show (s4.setRdu (s4.rdu.boundary s4.cpt.store)).rdu = _
    rw [h, r4, h3r, c4, h3c]
  generalize s4.boundaryRadio.boundaryClaims.boundaryPeers = s5 at hk k5 g5 r5 ⊢
  have k6 : s5.KeepsSound (if s5.cle.lifecycle = s.cle.lifecycle then s5.boundaryCadence else s5) := by
    split
    · exact ⟨rfl, rfl, rfl, rfl⟩
    · exact .refl _
  have g6 : (if s5.cle.lifecycle = s.cle.lifecycle then s5.boundaryCadence else s5).iku = s5.iku := by split <;> rfl
  have r6 : (if s5.cle.lifecycle = s.cle.lifecycle then s5.boundaryCadence else s5).rdu = s5.rdu := by split <;> rfl
  generalize (if s5.cle.lifecycle = s.cle.lifecycle then s5.boundaryCadence else s5) = s6 at hk k6 g6 r6 ⊢
  obtain ⟨c, r5⟩ := r5
  refine ⟨?_, ?_, ?_, ?_, ⟨c, ?_⟩, ?_, hk.cpt.store, rfl⟩
  · exact k6.mxe.trans (k5.mxe.trans (k4.mxe.trans h3m))
  · exact k6.ost.trans (k5.ost.trans (k4.ost.trans h3o))
  · exact k6.pku.trans (k5.pku.trans (k4.pku.trans h3p))
  · show s.servedIku.KeepsGiven s6.iku
    rw [g6, ← h3i]
    exact g4.trans g5
  · exact r6.trans r5
  · show s6.rdu.radio = _
    rw [r6, r5]
    exact Rdu.boundary_radio _ _

end Sys2Proof.Machine
end

