-- ==== Sys2Proof/Laws/Raised.lean ====
section
/-! SUPPORT. Which places of the notice set the parts of a block boundary can touch. -/

namespace Sys2Proof.Machine

open Sys2Proof

/-- One place of the notice set stays. -/
def Cpt.SameAt (i : Fin 14) (c d : Cpt) : Prop := d.notices.get i = c.notices.get i

theorem Cpt.SameAt.refl (i : Fin 14) (c : Cpt) : c.SameAt i c := rfl

theorem Cpt.SameAt.trans {i : Fin 14} {c d e : Cpt} (h : c.SameAt i d) (k : d.SameAt i e) : c.SameAt i e := Eq.trans k h

theorem Cpt.raise_sameAt {i : Fin 14} (c : Cpt) {n : Notice} (h : n.place ≠ i) : c.SameAt i (c.raise n) :=
  Cpt.raise_other _ _ h

theorem Cpt.raiseAll_sameAt {i : Fin 14} (c : Cpt) {l : List Notice} (h : ∀ n ∈ l, n.place ≠ i) :
    c.SameAt i (c.raiseAll l) := by
  induction l generalizing c with
  | nil => rfl
  | cons n l ih => exact (c.raise_sameAt (h n (by simp))).trans (ih _ (fun m hm => h m (by simp [hm])))

theorem State.foldl_sameAt {i : Fin 14} {α : Type} {f : State → α → State} (h : ∀ (s : State) (a : α), s.cpt.SameAt i (f s a).cpt)
    (l : List α) (s : State) : s.cpt.SameAt i (l.foldl f s).cpt := by
  induction l generalizing s with
  | nil => rfl
  | cons a l ih => exact (h s a).trans (ih (f s a))

/-! ### The Claim Engine's work -/

@[simp] theorem Link.recompose_cpt (k : Link) (e : Env) : (k.recompose e).cpt = k.cpt := by
  unfold Link.recompose; split <;> rfl

@[simp] theorem Link.abandon_cpt (k : Link) (c : Claim) : (k.abandon c).cpt = k.cpt := by
  unfold Link.abandon; dsimp only; split <;> rfl

@[simp] theorem Link.tickCadence_cpt (k : Link) (e : Env) : (k.tickCadence e).cpt = k.cpt := by
  unfold Link.tickCadence
  split
  · rfl
  all_goals dsimp only; split <;> rfl

@[simp] theorem Link.placeAnnounce_cpt (k : Link) (e : Env) (z : ZoneSet) (r : Option StreamNo) :
    (k.placeAnnounce e z r).2.cpt = k.cpt := by
  unfold Link.placeAnnounce
  split
  · unfold Link.holdOverlay; dsimp only; rw [recompose_cpt]; rfl
  · rfl

@[simp] theorem Link.endAnnounce_cpt (k : Link) (e : Env) (n : Serial) : (k.endAnnounce e n).cpt = k.cpt := by
  unfold Link.endAnnounce
  split
  · rfl
  · unfold Link.releaseHeld; rw [recompose_cpt]; rfl

/-- The no-idle check raises LINE and CLAIM_RESULT alone. -/
theorem Link.checkNoIdle_sameAt {i : Fin 14} (k : Link) (e : Env) (h0 : i ≠ 0) (h3 : i ≠ 3) :
    k.cpt.SameAt i (k.checkNoIdle e).cpt := by
  have iso : ∀ c, (Notice.isolated c).place ≠ i := fun _ => h0.symm
  have res : ∀ n o, (Notice.claimResult n o).place ≠ i := fun _ _ => h3.symm
  unfold Link.checkNoIdle
  split
  · dsimp only; split
    · rfl
    · unfold Link.isolate Link.abandonAtIsolation
      dsimp only
      unfold Link.raise
      split
      · exact Cpt.raise_sameAt _ (iso _)
      · split
        · split
          · exact Cpt.raise_sameAt _ (iso _)
          · refine Cpt.SameAt.trans ?_ (Cpt.raise_sameAt _ (iso _))
            simp only [abandon_cpt]
            exact Cpt.raise_sameAt _ (res _ _)
        · exact Cpt.raise_sameAt _ (iso _)
  · rfl

/-- The bid window raises CLAIM_RESULT alone. -/
theorem Link.tickWindow_sameAt {i : Fin 14} (k : Link) (e : Env) (h3 : i ≠ 3) : k.cpt.SameAt i (k.tickWindow e).cpt := by
  have res : ∀ n o, (Notice.claimResult n o).place ≠ i := fun _ _ => h3.symm
  unfold Link.tickWindow
  split
  · rfl
  · split
    · split
      · rfl
      · unfold Link.expireWindow
        split
        · rw [recompose_cpt]; exact Cpt.raise_sameAt _ (res _ _)
        · exact Cpt.raise_sameAt _ (res _ _)
    · rfl

/-! ### The Radio Unit's work -/

/-- An effect of the Radio Unit that raises nothing in this place. -/
def RduEffect.spares (i : Fin 14) : RduEffect → Prop
  | .notice n => n.place ≠ i
  | .announceStart | .announceEnd _ _ => i ≠ 7

theorem State.rduEffect_sameAt {i : Fin 14} (s : State) {e : RduEffect} (h : e.spares i) : s.cpt.SameAt i (s.rduEffect e).cpt := by
  cases e with
  | notice n => exact Cpt.raise_sameAt _ h
  | announceStart =>
    show Cpt.SameAt i _ (s.announceStart).cpt
    unfold State.announceStart
    dsimp only
    split
    · refine Cpt.SameAt.trans ?_ (Cpt.raise_sameAt _ h.symm)
      simp only [State.setLink, Link.placeAnnounce_cpt]; rfl
    · refine Cpt.SameAt.trans ?_ (Cpt.raise_sameAt _ h.symm)
      simp only [State.setLink, Link.placeAnnounce_cpt]; rfl
  | announceEnd c a =>
    show Cpt.SameAt i _ (s.announceEnd c a).cpt
    unfold State.announceEnd
    dsimp only
    split
    · refine Cpt.SameAt.trans ?_ (Cpt.raise_sameAt _ h.symm)
      simp only [State.setLink, Link.endAnnounce_cpt]; rfl
    · exact Cpt.raise_sameAt _ h.symm

theorem State.setRdu_sameAt {i : Fin 14} (s : State) {o : RduOut} (h : ∀ e ∈ o.2, e.spares i) :
    s.cpt.SameAt i (s.setRdu o).cpt := by
  have : ∀ (l : List RduEffect) (x : State), (∀ e ∈ l, e.spares i) → x.cpt.SameAt i (l.foldl State.rduEffect x).cpt := by
    intro l
    induction l with
    | nil => intro x _; rfl
    | cons a l ih => intro x hl; exact (x.rduEffect_sameAt (hl a (by simp))).trans (ih _ (fun e he => hl e (by simp [he])))
  exact this _ { s with rdu := o.1 } h

/-- At a boundary the Radio Unit raises RECEPTION and ANNOUNCE alone. -/
theorem Rdu.boundary_spares {i : Fin 14} (r : Rdu) (c : Store) (h7 : i ≠ 7) (h8 : i ≠ 8) :
    ∀ e ∈ (r.boundary c).2, e.spares i := by
  unfold Rdu.boundary RduOut.andThen
  dsimp only
  intro e he
  rw [List.mem_append] at he
  rcases he with he | he
  · unfold Rdu.swapOrTick at he
    split at he
    · simp only [Rdu.probeSwap, Rdu.reception, List.mem_cons, List.not_mem_nil, or_false] at he
      subst he; exact h8.symm
    · split at he
      · simp only [RduOut.andThen, Rdu.diversitySwap, Rdu.reception, List.append_nil, List.mem_cons, List.not_mem_nil, or_false] at he
        subst he; exact h8.symm
      · simp [RduOut.andThen] at he
  · unfold Rdu.tickReception at he
    split at he
    · split at he
      · simp at he
      · dsimp only at he
        split at he
        · simp at he
        · unfold Rdu.endAnnouncement at he
          split at he
          · simp only [List.mem_cons, List.not_mem_nil, or_false] at he
            subst he; exact h7
          · simp_all
    · simp at he

/-! ### The parts of a boundary -/

theorem State.boundaryOutput_sameAt {i : Fin 14} (s : State) (h1 : i ≠ 1) (h11 : i ≠ 11) : s.cpt.SameAt i s.boundaryOutput.cpt := by
  apply Cpt.raiseAll_sameAt
  intro n hn
  unfold Ost.boundary at hn
  simp only [List.mem_flatMap, List.mem_append] at hn
  obtain ⟨i, _, hn | hn⟩ := hn
  · unfold derateNotice at hn
    split at hn <;> simp only [List.mem_cons, List.not_mem_nil, or_false] at hn
    all_goals
      subst hn; exact h11.symm
  · unfold disableNotice at hn
    split at hn <;> simp only [List.mem_cons, List.not_mem_nil, or_false] at hn
    subst hn; exact h1.symm

theorem State.boundaryLevels_sameAt {i : Fin 14} (s : State) (h12 : i ≠ 12) : s.cpt.SameAt i s.boundaryLevels.cpt := by
  apply Cpt.raiseAll_sameAt
  intro n hn
  unfold Mxe.applyLevels at hn
  split at hn <;> simp only [List.mem_cons, List.not_mem_nil, or_false] at hn
  subst hn; exact h12.symm

theorem State.boundaryIdle_sameAt {i : Fin 14} (s : State) (h0 : i ≠ 0) (h3 : i ≠ 3) : s.cpt.SameAt i s.boundaryIdle.cpt :=
  Link.checkNoIdle_sameAt _ _ h0 h3

theorem State.boundaryPickup_sameAt {i : Fin 14} (v : MixView) (s : State) (h4 : i ≠ 4) : s.cpt.SameAt i (s.boundaryPickup v).cpt := by
  unfold State.boundaryPickup
  dsimp only
  rw [pickupSlot_cpt]
  apply Cpt.raiseAll_sameAt
  intro n hn
  unfold Pku.decide_ at hn
  split at hn
  · simp at hn
  · simp only [List.mem_cons, List.not_mem_nil, or_false] at hn; subst hn; exact h4.symm
  · split at hn <;> simp only [List.mem_cons, List.not_mem_nil, or_false] at hn
    subst hn; exact h4.symm
  · simp only [List.mem_cons, List.not_mem_nil, or_false] at hn; subst hn; exact h4.symm

@[simp] theorem State.boundaryPublish_cpt (h : Bool) (s : State) : (s.boundaryPublish h).cpt = s.cpt := by
  have : ∀ (l : List PubSlotNo) (t : State), (l.foldl (State.publishSlot h) t).cpt = t.cpt := by
    intro l
    induction l with
    | nil => intro t; rfl
    | cons i l ih => intro t; rw [List.foldl_cons, ih]; unfold State.publishSlot; split <;> rfl
  exact this _ _

theorem State.boundaryIntake_sameAt {i : Fin 14} (s : State) (h6 : i ≠ 6) : s.cpt.SameAt i s.boundaryIntake.cpt := by
  apply Cpt.raiseAll_sameAt
  intro n hn
  rw [List.mem_append] at hn
  rcases hn with hn | hn
  · simp only [Iku.serve, List.mem_map] at hn
    obtain ⟨u, _, rfl⟩ := hn; exact h6.symm
  · simp only [Iku.consume, Iku.underruns, List.mem_flatMap] at hn
    obtain ⟨m, _, hn⟩ := hn
    split at hn
    · unfold underrunNotice at hn
      split at hn
      · simp only [Option.mem_toList, Option.mem_def, Option.map_eq_some_iff] at hn
        obtain ⟨a, _, rfl⟩ := hn; exact h6.symm
      · simp at hn
    · simp at hn

/-- After the Publisher, a boundary raises CLAIM_RESULT, PEER, ANNOUNCE and RECEPTION alone. -/
theorem State.boundaryRest_sameAt {i : Fin 14} (s : State) (h3 : i ≠ 3) (h5 : i ≠ 5) (h7 : i ≠ 7) (h8 : i ≠ 8) (c : Prop)
    [Decidable c] : s.cpt.SameAt i (if c then s.boundaryRadio.boundaryClaims.boundaryPeers.boundaryCadence
      else s.boundaryRadio.boundaryClaims.boundaryPeers).cpt := by
  have a : s.cpt.SameAt i s.boundaryRadio.cpt := setRdu_sameAt _ (Rdu.boundary_spares _ _ h7 h8)
  have b : s.boundaryRadio.cpt.SameAt i s.boundaryRadio.boundaryClaims.cpt := Link.tickWindow_sameAt s.boundaryRadio.link _ h3
  have d : ∀ x : State, x.cpt.SameAt i x.boundaryPeers.cpt := fun x =>
    foldl_sameAt (fun y p => Cpt.raise_sameAt _ (n := Notice.peerExpired p) h5.symm) _
      { x with cle := { x.cle with peers := agePeers x.own x.cle.peers } }
  have := a.trans (b.trans (d _))
  split
  · exact this.trans (congrArg (fun x : Cpt => x.notices.get i) (Link.tickCadence_cpt _ _))
  · exact this

end Sys2Proof.Machine
end

