-- ==== Sys2Proof/Laws/Radio.lean ====
section
/-! SUPPORT. What the Radio Unit's work on a report leaves alone, and what a programme-data word leaves. -/

namespace Sys2Proof.Machine

open Sys2Proof

/-- A path's record stays, or the path was retuned. -/
def PathRec.SameOrRetuned (x u : PathRec) : Prop := u = x ∨ (u.settle = 2 ∧ u.data = ProgData.cleared)
theorem PathRec.SameOrRetuned.trans {x u w : PathRec} (h : x.SameOrRetuned u) (k : u.SameOrRetuned w) : x.SameOrRetuned w := by
  rcases k with rfl | k
  · exact h
  · exact Or.inr k
@[simp] theorem Rdu.setPath_path (r : Rdu) (p : Path) (x) : (r.setPath p x).path p = x := by cases p <;> rfl
@[simp] theorem Rdu.setPath_active (r : Rdu) (p : Path) (x) : (r.setPath p x).active = r.active := by cases p <;> rfl
@[simp] theorem Rdu.setPath_ann (r : Rdu) (p : Path) (x) : (r.setPath p x).ann = r.ann := by cases p <;> rfl
theorem Rdu.setPath_other (r : Rdu) (p q : Path) (x) (h : p ≠ q) : (r.setPath p x).path q = r.path q := by cases p <;> cases q <;> first | rfl | exact absurd rfl h
theorem Rdu.spare_ne (r : Rdu) : r.spare ≠ r.active := by unfold Rdu.spare otherPath; cases r.active <;> decide
theorem Rdu.retune_path (r : Rdu) (p q : Path) (c) : (r.path q).SameOrRetuned ((r.retune p c).path q) := by
  unfold Rdu.retune
  by_cases h : p = q
  · subst h
    right
    have : ((r.setPath p ((r.path p).retuned c)).path p) = (r.path p).retuned c := setPath_path _ _ _
    cases p <;> exact ⟨rfl, rfl⟩
  · left
    have := setPath_other r p q ((r.path p).retuned c) h
    cases q <;> exact this
theorem Rdu.retune_other (r : Rdu) (p q : Path) (c) (h : p ≠ q) : (r.retune p c).path q = r.path q := by
    have := setPath_other r p q ((r.path p).retuned c) h
    unfold Rdu.retune
    cases q <;> exact this
@[simp] theorem Rdu.retune_active (r : Rdu) (p : Path) (c) : (r.retune p c).active = r.active := by
  unfold Rdu.retune; exact setPath_active _ _ _
theorem Rdu.retune_ann (r : Rdu) (p : Path) (c) (h : p ≠ r.active) : (r.retune p c).ann = r.ann := by
  unfold Rdu.retune; simp [h]

/-- What the control may do to what the words and the announcement depend on. -/
structure Rdu.KeepsWords (r q : Rdu) : Prop where
  active : q.active = r.active
  ann : q.ann = r.ann
  activePath : q.path r.active = r.path r.active
  path : ∀ p, (r.path p).SameOrRetuned (q.path p)
theorem Rdu.KeepsWords.refl (r : Rdu) : r.KeepsWords r := ⟨rfl, rfl, rfl, fun _ => Or.inl rfl⟩
theorem Rdu.KeepsWords.trans {r q w : Rdu} (h : r.KeepsWords q) (k : q.KeepsWords w) : r.KeepsWords w :=
  ⟨k.active.trans h.active, k.ann.trans h.ann, by have := k.activePath; rw [h.active] at this; exact this.trans h.activePath, fun p => (h.path p).trans (k.path p)⟩
theorem Rdu.retune_keepsWords (r : Rdu) (c) : r.KeepsWords (r.retune r.spare c) :=
  ⟨retune_active _ _ _, retune_ann _ _ _ r.spare_ne, retune_other _ _ _ _ r.spare_ne, fun p => retune_path r _ p c⟩
theorem Rdu.useSpare_keepsWords (r : Rdu) : r.KeepsWords r.useSpare := by
  unfold Rdu.useSpare
  split
  · exact .refl _
  · split
    · exact retune_keepsWords _ _
    · exact .refl _
  · exact (retune_keepsWords r _).trans ⟨rfl, rfl, rfl, fun p => Or.inl (by cases p <;> rfl)⟩
  · split
    · exact .refl _
    · split
      · exact .refl _
      · exact (retune_keepsWords r _).trans ⟨rfl, rfl, rfl, fun p => Or.inl (by cases p <;> rfl)⟩
theorem Rdu.useSpareOrWait_keepsWords (r : Rdu) : r.KeepsWords r.useSpareOrWait := by
  unfold Rdu.useSpareOrWait
  split
  · exact ⟨rfl, rfl, rfl, fun p => Or.inl (by cases p <;> rfl)⟩
  · exact (useSpare_keepsWords r).trans ⟨rfl, rfl, rfl, fun p => Or.inl (by cases p <;> rfl)⟩
theorem Rdu.control_keepsWords (r : Rdu) (c a) : r.KeepsWords (r.control c a) := by
  unfold Rdu.control
  have h : ∀ m n, r.KeepsWords { r with mode := m, divRun := n } := fun m n => ⟨rfl, rfl, rfl, fun p => Or.inl (by cases p <;> rfl)⟩
  dsimp only
  split
  · exact (h _ _).trans (useSpareOrWait_keepsWords _)
  · exact h _ _

theorem Rdu.compareSpare_keepsWords (r : Rdu) : r.KeepsWords r.compareSpare := by
  unfold Rdu.compareSpare
  split
  · split
    · exact ⟨rfl, rfl, rfl, fun p => Or.inl (by cases p <;> rfl)⟩
    · exact .refl _
  · exact .refl _
theorem Rdu.watch_keepsWords (r : Rdu) (c) : r.KeepsWords (r.watch c).1 := by
  unfold Rdu.watch
  split
  · exact .refl _
  · rename_i qs _
    have a : r.KeepsWords (r.watchLow c qs).1 := by
      unfold Rdu.watchLow; dsimp only; split
      · split <;> exact ⟨rfl, rfl, rfl, fun p => Or.inl (by cases p <;> rfl)⟩
      · exact ⟨rfl, rfl, rfl, fun p => Or.inl (by cases p <;> rfl)⟩
    have b : ∀ x : Rdu, x.KeepsWords (x.watchGood c qs).1 := by
      intro x
      unfold Rdu.watchGood; dsimp only; split <;> exact ⟨rfl, rfl, rfl, fun p => Or.inl (by cases p <;> rfl)⟩
    exact (a.trans (b _)).trans (control_keepsWords _ _ _)
/-- An effect that raises a notice elsewhere than in ANNOUNCE. -/
def RduEffect.Other : RduEffect → Prop
  | .notice n => n.place ≠ 7
  | _ => False
theorem Rdu.watch_other (r : Rdu) (c) : ∀ e ∈ (r.watch c).2, e.Other := by
  unfold Rdu.watch
  split
  · simp
  · rename_i qs _
    simp only [RduOut.andThen, List.append_nil, List.mem_append]
    intro e he
    rcases he with he | he
    · unfold Rdu.watchLow at he
      dsimp only at he
      split at he
      · split at he <;> (dsimp only at he; split at he <;> simp [Rdu.reception] at he <;> subst he <;> simp [RduEffect.Other, Notice.place])
      · simp at he
    · unfold Rdu.watchGood at he
      dsimp only at he
      split at he
      · simp [Rdu.reception] at he; subst he; simp [RduEffect.Other, Notice.place]
      · simp at he
theorem Rdu.restartAf_keepsWords (r : Rdu) : r.KeepsWords r.restartAf := by
  unfold Rdu.restartAf; split
  · exact .refl _
  · exact ⟨rfl, rfl, rfl, fun p => Or.inl (by cases p <;> rfl)⟩
theorem Rdu.set_keepsWords {r q : Rdu} (a : q.active = r.active) (b : q.ann = r.ann) (c : q.pathA = r.pathA) (d : q.pathB = r.pathB) : r.KeepsWords q :=
  ⟨a, b, by cases h : r.active <;> simp [Rdu.path, c, d], fun p => Or.inl (by cases p <;> simp [Rdu.path, c, d])⟩
theorem Rdu.measureProbe_keepsWords (r : Rdu) (c q w) : r.KeepsWords (r.measureProbe c q w).1 ∧ ∀ e ∈ (r.measureProbe c q w).2, e.Other := by
  unfold Rdu.measureProbe
  split
  · exact ⟨.refl _, by simp⟩
  · split
    · exact ⟨.refl _, by simp⟩
    · dsimp only
      split
      · exact ⟨set_keepsWords rfl rfl rfl rfl, by simp⟩
      · unfold Rdu.judge
        have h2 : ∀ (g : Bool) (o : Option Channel) (y : Probe) (f : Channel → Option Probe), r.KeepsWords (if g = true then (({ r with probe := some y }, []) : RduOut) else
            match o with
            | some ch => ({ r.retune r.spare ch with probe := f ch }, [])
            | none => r.probeFailed c).1 ∧ ∀ e ∈ (if g = true then (({ r with probe := some y }, []) : RduOut) else
            match o with
            | some ch => ({ r.retune r.spare ch with probe := f ch }, [])
            | none => r.probeFailed c).2, e.Other := by
          intro g o y f
          cases g
          · cases o
            · unfold Rdu.probeFailed
              refine ⟨KeepsWords.trans (q := { r with probe := none }) (set_keepsWords rfl rfl rfl rfl) (KeepsWords.trans (q := ({ r with probe := none } : Rdu).restartAf) (restartAf_keepsWords _) (control_keepsWords _ _ _)), ?_⟩
              simp [Rdu.reception, RduEffect.Other, Notice.place]
            · exact ⟨(retune_keepsWords r _).trans (set_keepsWords rfl rfl rfl rfl), by simp⟩
          · exact ⟨set_keepsWords rfl rfl rfl rfl, by simp⟩
        exact h2 _ _ _ (fun _ => some _)
theorem Rdu.measureScan_keepsWords (r : Rdu) (q) : r.KeepsWords (r.measureScan q).1 ∧ ∀ e ∈ (r.measureScan q).2, e.Other := by
  unfold Rdu.measureScan
  dsimp only
  split
  · exact ⟨set_keepsWords rfl rfl rfl rfl, by simp⟩
  · have h : ∀ x : Rdu, x.KeepsWords x.nextScan.1 ∧ ∀ e ∈ x.nextScan.2, e.Other := by
      intro x
      have g : ∀ y : Rdu, x.KeepsWords y → x.KeepsWords { y.retune y.spare y.scanPos with scanMeas := 0, scanSum := 0 } := fun y hy =>
        (hy.trans (retune_keepsWords y y.scanPos)).trans (set_keepsWords rfl rfl rfl rfl)
      unfold Rdu.nextScan
      simp only [RduOut.andThen, List.append_nil]
      split
      · exact ⟨g { x with scanPos := _ } (set_keepsWords rfl rfl rfl rfl), by simp⟩
      · refine ⟨g x.endPass.1 (set_keepsWords rfl rfl rfl rfl), ?_⟩
        simp [Rdu.endPass, RduEffect.Other, Notice.place]
    have h1 := h { r with stations := enterStation r.scanPos ((r.scanSum + q) / Config.scanReports) r.spareRec.data r.stations }
    exact ⟨KeepsWords.trans (q := { r with stations := enterStation r.scanPos ((r.scanSum + q) / Config.scanReports) r.spareRec.data r.stations }) (set_keepsWords rfl rfl rfl rfl) h1.1, h1.2⟩
theorem Rdu.useSpareReport_keepsWords (r : Rdu) (c q w) : r.KeepsWords (r.useSpareReport c q w).1 ∧ ∀ e ∈ (r.useSpareReport c q w).2, e.Other := by
  unfold Rdu.useSpareReport
  split
  · exact ⟨.refl _, by simp⟩
  · exact ⟨compareSpare_keepsWords _, by simp⟩
  · split
    · exact ⟨.refl _, by simp⟩
    · exact measureProbe_keepsWords _ _ _ _
  · split
    · exact ⟨.refl _, by simp⟩
    · exact measureScan_keepsWords _ _
theorem Rdu.measureSeek_path (r : Rdu) (c k q) : ∀ p, (r.path p).SameOrRetuned ((r.measureSeek c k q).1.path p) := by
  intro p
  unfold Rdu.measureSeek
  dsimp only
  split
  · exact Or.inl (by cases p <;> rfl)
  · split
    · exact (control_keepsWords { r with seek := none } _ _).path p
    · split
      · exact (retune_path r r.active p _).trans (Or.inl (by cases p <;> rfl))
      · exact (retune_path { r with seek := none } r.active p _).trans ((control_keepsWords _ _ _).path p)
theorem Rdu.measureSeek_keepsWords (r : Rdu) (c k q) (h : k.measured < 2) : r.KeepsWords (r.measureSeek c k q).1 ∧ (r.measureSeek c k q).2 = [] := by
  unfold Rdu.measureSeek
  dsimp only
  rw [if_pos (by show k.measured + 1 < 3; omega)]
  exact ⟨set_keepsWords rfl rfl rfl rfl, rfl⟩
theorem Rdu.measureSeek_other (r : Rdu) (c k q) : ∀ e ∈ (r.measureSeek c k q).2, e.Other := by
  unfold Rdu.measureSeek
  dsimp only
  split
  · simp
  · split
    · simp [RduEffect.Other, Notice.place]
    · split <;> simp [RduEffect.Other, Notice.place]

theorem State.setRdu_append (s : State) (r : Rdu) (l m : List RduEffect) : s.setRdu (r, l ++ m) = m.foldl State.rduEffect (s.setRdu (r, l)) := by
  unfold State.setRdu; rw [List.foldl_append]

theorem State.others (l : List RduEffect) (h : ∀ e ∈ l, e.Other) : ∀ s : State, let t := l.foldl State.rduEffect s
   t.rdu = s.rdu ∧ t.pub = s.pub ∧ t.cle = s.cle ∧ t.lif = s.lif ∧ s.cpt.SameAt 7 t.cpt := by
  induction l with
  | nil => intro s; exact ⟨rfl, rfl, rfl, rfl, rfl⟩
  | cons e l ih =>
    intro s
    have he := h e (by simp)
    have := ih (fun e he => h e (by simp [he])) (s.rduEffect e)
    cases e with
    | notice n => exact ⟨this.1, this.2.1, this.2.2.1, this.2.2.2.1, (Cpt.raise_sameAt _ he).trans this.2.2.2.2⟩
    | announceStart => cases he
    | announceEnd _ _ => cases he

/-- A word taken leaves the record R161 and R162 say. -/
theorem ProgData.take_holds (tuned : Option Channel) (d : ProgData) (w : DataWord) : DataAfter tuned d (some w) (d.take tuned w).1 := by
  have hadd : ∀ (d : ProgData) (n : Nat), d.takeAlt tuned n = { d with alt := if n ≤ 410 ∧ (∀ c ∈ d.alt, c.val ≠ n) ∧ tuned.map Fin.val ≠ some n ∧ d.alt.length < 6 then d.alt ++ [Fin.ofNat 411 n] else d.alt } := by
    intro d n
    unfold ProgData.takeAlt
    by_cases hn : n < 411
    · rw [dif_pos hn]
      dsimp only
      have e : (d.alt.contains (⟨n, hn⟩ : Channel) || tuned == some ⟨n, hn⟩ || decide (6 ≤ d.alt.length)) = true ↔ ¬ ((∀ c ∈ d.alt, c.val ≠ n) ∧ tuned.map Fin.val ≠ some n ∧ d.alt.length < 6) := by
        have e1 : d.alt.contains (⟨n, hn⟩ : Channel) = true ↔ ¬ (∀ c ∈ d.alt, c.val ≠ n) := by
          simp only [List.contains_iff_mem, ne_eq, not_forall, not_not]
          constructor
          · intro h; exact ⟨_, h, rfl⟩
          · rintro ⟨c, h, rfl⟩; exact h
        have e2 : (tuned == some ⟨n, hn⟩) = true ↔ tuned.map Fin.val = some n := by
          cases tuned with
          | none => simp
          | some c => simp [Fin.ext_iff]
        simp only [Bool.or_eq_true, e1, e2, decide_eq_true_eq, ← Nat.not_lt, ne_eq]
        tauto
      by_cases hc : (d.alt.contains (⟨n, hn⟩ : Channel) || tuned == some ⟨n, hn⟩ || decide (6 ≤ d.alt.length)) = true
      · rw [if_pos hc, if_neg (fun k => e.mp hc k.2)]
      · rw [if_neg hc, if_pos ⟨by omega, by by_contra k; exact hc (e.mpr k)⟩]
        congr 2
        congr 1
        apply Fin.ext; simp [Fin.ofNat, Nat.mod_eq_of_lt hn]
    · rw [dif_neg hn, if_neg (by omega)]
  unfold DataAfter
  cases w with
  | tagId v =>
    dsimp only [ProgData.take]
    unfold ProgData.takeTag
    refine ⟨fun h => by rw [if_pos h], fun h k => by rw [if_neg h, if_pos k]; rfl, fun h k => by rw [if_neg h, if_neg k]⟩
  | name i a b =>
    dsimp only [ProgData.take]
    cases d.tag <;> simp
  | flags a b => rfl
  | alt u v =>
    dsimp only [ProgData.take]
    cases v with
    | none =>
      dsimp only
      rw [hadd]
      cases d.tag <;> simp
    | some w =>
      dsimp only
      rw [hadd, hadd]
      cases h : d.tag <;> simp [h]

end Sys2Proof.Machine
end

