-- ==== Sys2Proof/Laws/ClaimList.lean ====
section
/-! SUPPORT. The laws of the claim list (R38, R39, R42): what each operation on the list keeps of its order and bounds. -/

namespace Sys2Proof.Machine

open Sys2Proof

/-- Two entries are alike for the order: the same name and the same fields. -/
def Claim.Alike (a b : Claim) : Prop := a.name = b.name ∧ a.fields = b.fields

theorem keyBetter_alike {a a' b b' : Claim} (ha : a.Alike a') (hb : b.Alike b') : keyBetter a b = keyBetter a' b' := by
  simp only [keyBetter, ha.1, ha.2, hb.1, hb.2]

theorem keyBetter_iff (a b : Claim) : keyBetter a b = true ↔
    b.fields.urgency < a.fields.urgency ∨ (a.fields.urgency = b.fields.urgency ∧ a.name.station < b.name.station) := by
  simp [keyBetter]

theorem keyBetter_false_iff (a b : Claim) : keyBetter a b = false ↔
    ¬ (b.fields.urgency < a.fields.urgency ∨ (a.fields.urgency = b.fields.urgency ∧ a.name.station < b.name.station)) := by
  rw [← keyBetter_iff]; simp

theorem keyBetter_trans_false {c d e : Claim} (h : keyBetter c d = true) (g : keyBetter e d = false) :
    keyBetter e c = false := by
  rw [keyBetter_iff] at h
  rw [keyBetter_false_iff] at g ⊢
  rintro (x | ⟨x, y⟩)
  · apply g
    rcases h with h | ⟨h1, h2⟩
    · exact Or.inl (h.trans x)
    · exact Or.inl (h1 ▸ x)
  · apply g
    rcases h with h | ⟨h1, h2⟩
    · exact Or.inl (x ▸ h)
    · exact Or.inr ⟨x.trans h1, y.trans h2⟩

theorem keyBetter_asymm {c d : Claim} (h : keyBetter c d = true) : keyBetter d c = false := by
  rw [keyBetter_iff] at h
  rw [keyBetter_false_iff]
  rintro (x | ⟨x, y⟩) <;> rcases h with h | ⟨h1, h2⟩
  · exact absurd (h.trans x) (lt_irrefl _)
  · rw [h1] at x; exact lt_irrefl _ x
  · rw [x] at h; exact lt_irrefl _ h
  · exact absurd (h2.trans y) (lt_irrefl _)

/-- The order of the list. -/
abbrev Ordered (l : List Claim) : Prop := l.Pairwise (fun a b => keyBetter b a = false)

theorem insertByKey_perm (c : Claim) (l : List Claim) : (insertByKey c l).Perm (c :: l) := by
  induction l with
  | nil => exact .refl _
  | cons d l ih =>
    rw [insertByKey]
    split
    · exact .refl _
    · exact (ih.cons d).trans (.swap c d l)

theorem insertByKey_ordered {c : Claim} {l : List Claim} (h : Ordered l) : Ordered (insertByKey c l) := by
  induction l with
  | nil => exact List.pairwise_singleton _ _
  | cons d l ih =>
    rw [insertByKey]
    have hd := List.pairwise_cons.mp h
    split
    · rename_i hb
      refine List.pairwise_cons.mpr ⟨fun e he => ?_, h⟩
      rcases List.mem_cons.mp he with rfl | he
      · exact keyBetter_asymm hb
      · exact keyBetter_trans_false hb (hd.1 e he)
    · rename_i hb
      refine List.pairwise_cons.mpr ⟨fun e he => ?_, ih hd.2⟩
      rcases List.mem_cons.mp ((insertByKey_perm c l).mem_iff.mp he) with rfl | he
      · simpa using hb
      · exact hd.1 e he

theorem map_ordered {f : Claim → Claim} (hf : ∀ c, (f c).Alike c) {l : List Claim} (h : Ordered l) :
    Ordered (l.map f) := by
  rw [Ordered, List.pairwise_map]
  exact h.imp (fun {a b} hab => by rw [keyBetter_alike (hf b) (hf a)]; exact hab)

/-- The bounds of a claim list (R38, R39, R42) at a station with this number. -/
structure GoodList (own : StationNo) (l : List Claim) : Prop where
  names : (l.map Claim.name).Nodup
  four : ∀ p : StationNo, (claimsOf p l).length ≤ Config.claimsPerStation
  bids : ∀ c ∈ l, c.isBidding = true → c.name.station = own
  ordered : Ordered l
  one : (l.filter Claim.isBidding).length ≤ 1

theorem GoodList.nil (own : StationNo) : GoodList own [] :=
  ⟨List.nodup_nil, fun _ => Nat.zero_le _, fun _ h => absurd h List.not_mem_nil, List.Pairwise.nil, Nat.zero_le _⟩

theorem GoodList.sublist {own : StationNo} {l m : List Claim} (h : GoodList own l) (s : m.Sublist l) :
    GoodList own m where
  names := h.names.sublist (s.map _)
  four p := (s.filter _).length_le.trans (h.four p)
  bids c hc := h.bids c (s.subset hc)
  ordered := h.ordered.sublist s
  one := (s.filter _).length_le.trans h.one

theorem GoodList.filter {own : StationNo} {l : List Claim} (h : GoodList own l) (p : Claim → Bool) :
    GoodList own (l.filter p) := h.sublist List.filter_sublist

theorem GoodList.erase {own : StationNo} {l : List Claim} (h : GoodList own l) (n : ClaimRef) :
    GoodList own (eraseClaim n l) := h.filter _

/-- A map that keeps names and fields, and makes no new bid. -/
theorem GoodList.map {own : StationNo} {l : List Claim} (h : GoodList own l) {f : Claim → Claim}
    (hf : ∀ c, (f c).Alike c) (hb : ∀ c, (f c).isBidding = true → c.isBidding = true) : GoodList own (l.map f) where
  names := by
    rw [List.map_map]
    have : (Claim.name ∘ f) = Claim.name := funext (fun c => (hf c).1)
    rw [this]; exact h.names
  four p := by
    have : (claimsOf p (l.map f)).length = (claimsOf p l).length := by
      simp only [claimsOf, List.filter_map, List.length_map]
      congr 1
      apply List.filter_congr
      intro c _
      simp [(hf c).1]
    rw [this]; exact h.four p
  bids c hc := by
    obtain ⟨d, hd, rfl⟩ := List.mem_map.mp hc
    intro hb'
    rw [(hf d).1]
    exact h.bids d hd (hb d hb')
  ordered := map_ordered hf h.ordered
  one := by
    rw [List.filter_map, List.length_map]
    refine le_trans ?_ h.one
    have : l.filter (Claim.isBidding ∘ f) = (l.filter Claim.isBidding).filter (Claim.isBidding ∘ f) := by
      rw [List.filter_filter]
      apply List.filter_congr
      intro c _
      by_cases e : (f c).isBidding = true
      · simp [e, hb c e]
      · simp [e]
    rw [this]
    exact List.length_filter_le _ _

/-- A new name entered with room for its station: a bid only where there is none. -/
theorem GoodList.insert {own : StationNo} {l : List Claim} (h : GoodList own l) {c : Claim}
    (hn : c.name ∉ l.map Claim.name) (hr : (claimsOf c.name.station l).length < Config.claimsPerStation)
    (hb : c.isBidding = true → c.name.station = own ∧ l.filter Claim.isBidding = []) :
    GoodList own (insertByKey c l) where
  names := by
    rw [((insertByKey_perm c l).map _).nodup_iff, List.map_cons, List.nodup_cons]
    exact ⟨hn, h.names⟩
  four p := by
    have := ((insertByKey_perm c l).filter (fun c => c.name.station == p)).length_eq
    rw [claimsOf, this, List.filter_cons]
    split
    · rename_i e
      have e : c.name.station = p := by simpa using e
      subst e
      simpa [claimsOf] using hr
    · exact h.four p
  bids d hd := by
    rcases List.mem_cons.mp ((insertByKey_perm c l).mem_iff.mp hd) with rfl | hd
    · exact fun e => (hb e).1
    · exact h.bids d hd
  ordered := insertByKey_ordered h.ordered
  one := by
    have := ((insertByKey_perm c l).filter Claim.isBidding).length_eq
    rw [this, List.filter_cons]
    split
    · rename_i e
      simp [(hb e).2]
    · exact h.one

theorem findClaim_none {n : ClaimRef} {l : List Claim} (h : findClaim n l = none) : n ∉ l.map Claim.name := by
  intro hm
  obtain ⟨c, hc, rfl⟩ := List.mem_map.mp hm
  have := List.find?_eq_none.mp h c hc
  simp at this

theorem findClaim_some {n : ClaimRef} {l : List Claim} {c : Claim} (h : findClaim n l = some c) : c ∈ l ∧ c.name = n :=
  ⟨List.mem_of_find?_eq_some h, by simpa using List.find?_some h⟩

theorem erase_not_mem (n : ClaimRef) (l : List Claim) : n ∉ (eraseClaim n l).map Claim.name := by
  intro hm
  obtain ⟨c, hc, rfl⟩ := List.mem_map.mp hm
  simp [eraseClaim] at hc

/-- In a list without a name repeated, taking an entry out makes room for its station. -/
theorem GoodList.erase_room {own : StationNo} {l : List Claim} (h : GoodList own l) {d : Claim} (hd : d ∈ l) :
    (claimsOf d.name.station (eraseClaim d.name l)).length < Config.claimsPerStation := by
  refine lt_of_lt_of_le ?_ (h.four d.name.station)
  rw [claimsOf, claimsOf, eraseClaim, List.filter_filter]
  have hs : (l.filter (fun a => (a.name.station == d.name.station) && (a.name != d.name))).Sublist
      (l.filter (fun a => a.name.station == d.name.station)) := by
    have : l.filter (fun a => (a.name.station == d.name.station) && (a.name != d.name)) =
        (l.filter (fun a => a.name.station == d.name.station)).filter (fun a => a.name != d.name) := by
      rw [List.filter_filter]
      apply List.filter_congr
      intro a _
      rw [Bool.and_comm]
    rw [this]
    exact List.filter_sublist
  refine lt_of_le_of_ne hs.length_le (fun e => ?_)
  have heq := hs.eq_of_length e
  have : d ∈ l.filter (fun a => a.name.station == d.name.station) := by simp [hd]
  rw [← heq] at this
  simp at this

/-- An entry that is no bid takes new values, or enters where there is room for its station. -/
theorem GoodList.update {own : StationNo} {l : List Claim} (h : GoodList own l) {c : Claim} (hc : c.isBidding = false)
    (hr : c.name ∉ l.map Claim.name → (claimsOf c.name.station l).length < Config.claimsPerStation) :
    GoodList own (updateClaim c l) := by
  have nob : ∀ m : List Claim, c.isBidding = true → c.name.station = own ∧ m.filter Claim.isBidding = [] :=
    fun m e => absurd e (by simp [hc])
  unfold updateClaim
  split
  · rename_i hn
    exact h.insert (findClaim_none hn) (hr (findClaim_none hn)) (nob l)
  · rename_i d hd
    obtain ⟨hm, hname⟩ := findClaim_some hd
    split
    · rename_i hu
      -- in its place
      have uniq : ∀ e ∈ l, e.name = c.name → e = d := by
        intro e he hen
        have := List.inj_on_of_nodup_map h.names he hm
        exact this (hen.trans hname.symm)
      have hkey : ∀ e ∈ l, ∀ x : Claim, keyBetter x (if e.name = c.name then c else e) = keyBetter x e ∧
          keyBetter (if e.name = c.name then c else e) x = keyBetter e x := by
        intro e he x
        split
        · rename_i hen
          have := uniq e he hen
          subst this
          simp only [keyBetter, ← hu, ← hname, and_self]
        · simp
      refine ⟨?_, fun p => ?_, ?_, ?_, ?_⟩
      · have : (l.map (fun e => if e.name = c.name then c else e)).map Claim.name = l.map Claim.name := by
          rw [List.map_map]
          apply List.map_congr_left
          intro e _
          simp only [Function.comp_apply]
          split <;> simp_all
        rw [this]; exact h.names
      · have : (claimsOf p (l.map (fun e => if e.name = c.name then c else e))).length = (claimsOf p l).length := by
          simp only [claimsOf, List.filter_map, List.length_map]
          congr 1
          apply List.filter_congr
          intro e _
          simp only [Function.comp_apply]
          split <;> simp_all
        rw [this]; exact h.four p
      · intro e he hb
        obtain ⟨x, hx, rfl⟩ := List.mem_map.mp he
        split at hb
        · rw [hc] at hb; cases hb
        · rename_i hne
          rw [if_neg hne]
          exact h.bids x hx hb
      · rw [Ordered, List.pairwise_map]
        refine h.ordered.imp_of_mem (fun {a b} ha hb hab => ?_)
        rw [(hkey b hb _).2, (hkey a ha _).1]
        exact hab
      · rw [List.filter_map, List.length_map]
        refine le_trans (List.Sublist.length_le ?_) h.one
        have : l.filter (Claim.isBidding ∘ fun e => if e.name = c.name then c else e) =
            (l.filter Claim.isBidding).filter (Claim.isBidding ∘ fun e => if e.name = c.name then c else e) := by
          rw [List.filter_filter]
          apply List.filter_congr
          intro e _
          simp only [Function.comp_apply]
          split <;> simp_all
        rw [this]
        exact List.filter_sublist
    · refine (h.erase c.name).insert (erase_not_mem _ _) ?_ (nob _)
      have := h.erase_room hm
      rwa [hname] at this

theorem removeFirst_sublist {α : Type} {p : α → Bool} {l m : List α} (h : removeFirst p l = some m) : m.Sublist l := by
  induction l generalizing m with
  | nil => simp [removeFirst] at h
  | cons a l ih =>
    rw [removeFirst] at h
    split at h
    · cases h; exact List.sublist_cons_self _ _
    · cases hr : removeFirst p l with
      | none => simp [hr] at h
      | some r =>
        simp only [hr, Option.map_some, Option.some.injEq] at h
        subst h
        exact (ih hr).cons_cons a

end Sys2Proof.Machine
end

