-- ==== Sys2Proof/Laws/Serials.lean ====
section
/-! SUPPORT. The serial taken for an own claim is not busy (R43). -/

namespace Sys2Proof.Machine

open Sys2Proof

/-- The serials that are busy, as a list. -/
def busyList (k : Link) (own : StationNo) : List Serial :=
  (claimsOf own k.cle.claims).map (fun c => c.name.serial) ++ k.lif.queue.map ClaimFrame.serial
    ++ (k.lif.besideClaim.toList.map ClaimFrame.serial ++ k.lif.besideBid.toList.map ClaimFrame.serial)

theorem busySerial_mem {k : Link} {own : StationNo} {s : Serial} (h : k.busySerial own s = true) : s ∈ busyList k own := by
  simp only [Link.busySerial, Lif.busySerial, Bool.or_eq_true] at h
  simp only [busyList, List.mem_append]
  rcases h with h | (h | h) | h
  · obtain ⟨c, hc⟩ := Option.isSome_iff_exists.mp h
    obtain ⟨hm, hn⟩ := findClaim_some hc
    refine Or.inl (Or.inl (List.mem_map.mpr ⟨c, ?_, by rw [hn]⟩))
    simp [claimsOf, hm, hn]
  · obtain ⟨f, hf, he⟩ := List.any_eq_true.mp h
    exact Or.inl (Or.inr (List.mem_map.mpr ⟨f, hf, by simpa using he⟩))
  · cases e : k.lif.besideClaim with
    | none => simp [e] at h
    | some f => exact Or.inr (Or.inl (by simp [e] at h; simp [h]))
  · cases e : k.lif.besideBid with
    | none => simp [e] at h
    | some f => exact Or.inr (Or.inr (by simp [e] at h; simp [h]))

theorem busyList_length {k : Link} {own : StationNo} (hq : k.lif.queue.length ≤ Config.queueCapacity)
    (hc : (claimsOf own k.cle.claims).length ≤ Config.claimsPerStation) : (busyList k own).length ≤ 14 := by
  have h1 : k.lif.besideClaim.toList.length ≤ 1 := by cases k.lif.besideClaim <;> simp
  have h2 : k.lif.besideBid.toList.length ≤ 1 := by cases k.lif.besideBid <;> simp
  simp only [Config.queueCapacity, Config.claimsPerStation] at hq hc
  simp only [busyList, List.length_append, List.length_map]
  omega

theorem exists_free {k : Link} {own : StationNo} (hq : k.lif.queue.length ≤ Config.queueCapacity)
    (hc : (claimsOf own k.cle.claims).length ≤ Config.claimsPerStation) : ∃ s : Serial, k.busySerial own s = false := by
  by_contra hne
  have hall : ∀ s : Serial, s ∈ (busyList k own).toFinset := by
    intro s
    rw [List.mem_toFinset]
    apply busySerial_mem
    by_contra hb
    exact hne ⟨s, by simpa using hb⟩
  have hcard : (Finset.univ : Finset (Fin 256)).card ≤ (busyList k own).toFinset.card := by
    refine Finset.card_le_card_of_injOn (fun i => BitVec.ofFin i) (fun i _ => hall _) (fun i _ j _ e => ?_)
    simpa using congrArg BitVec.toFin e
  have h1 := List.toFinset_card_le (busyList k own)
  have h2 := busyList_length hq hc
  simp only [Finset.card_univ, Fintype.card_fin] at hcard
  omega

theorem searchSerial_free {k : Link} {own : StationNo} (n : Nat) (s : Serial)
    (h : ∃ j < n, k.busySerial own (s + BitVec.ofNat 8 j) = false) :
    k.busySerial own (k.searchSerial own n s) = false := by
  induction n generalizing s with
  | zero => obtain ⟨j, hj, _⟩ := h; omega
  | succ n ih =>
    rw [Link.searchSerial]
    split
    · rename_i hb
      obtain ⟨j, hj, hf⟩ := h
      apply ih
      cases j with
      | zero => simp only [BitVec.add_zero] at hf; rw [hf] at hb; cases hb
      | succ j =>
        refine ⟨j, by omega, ?_⟩
        have e : s + 1 + BitVec.ofNat 8 j = s + BitVec.ofNat 8 (j + 1) := by
          rw [BitVec.add_assoc]
          congr 1
          rw [BitVec.ofNat_add, BitVec.add_comm]
          rfl
        rw [e]; exact hf
    · rename_i hb
      simpa using hb

/-- The serial taken is not busy, where the queue and the own claims keep their bounds (R43). -/
theorem nextSerial_free {k : Link} {own : StationNo} (hq : k.lif.queue.length ≤ Config.queueCapacity)
    (hc : (claimsOf own k.cle.claims).length ≤ Config.claimsPerStation) :
    k.busySerial own (k.nextSerial own) = false := by
  obtain ⟨s, hs⟩ := exists_free hq hc
  refine searchSerial_free 256 _ ⟨(s - k.cle.serialCounter).toNat, (s - k.cle.serialCounter).isLt, ?_⟩
  have e : k.cle.serialCounter + BitVec.ofNat 8 (s - k.cle.serialCounter).toNat = s := by
    rw [BitVec.ofNat_toNat, BitVec.setWidth_eq, BitVec.add_comm, BitVec.sub_add_cancel]
  rw [e]; exact hs

theorem not_busy_claim {k : Link} {own : StationNo} {s : Serial} (h : k.busySerial own s = false) :
    (⟨own, s⟩ : ClaimRef) ∉ k.cle.claims.map Claim.name := by
  simp only [Link.busySerial, Bool.or_eq_false_iff] at h
  exact findClaim_none (Option.not_isSome_iff_eq_none.mp (by simp [h.1]))

end Sys2Proof.Machine
end

