-- ==== Sys2Proof/Laws/Announce.lean ====
section
/-! SUPPORT. What a programme-data word, and the start and the end of an announcement, do. -/

namespace Sys2Proof.Machine

open Sys2Proof

/-- A frame of a serial that is not busy is appended to a queue with room (R13). -/
theorem Lif.addClaim_free (k : Link) (f : ClaimFrame) (h : k.lif.busySerial f.serial = false) (hq : k.lif.queue.length < 8) :
    (k.lif.addClaim f false).queue = k.lif.queue ++ [f] := by
  unfold Lif.busySerial at h
  simp only [Bool.or_eq_false_iff] at h
  have hap : (k.lif.append f false).queue = k.lif.queue ++ [f] := by
    unfold Lif.append; rw [if_pos (show _ < Config.queueCapacity from hq)]
  unfold Lif.addClaim
  rw [if_neg (by rw [h.1.1]; simp)]
  split
  · rename_i g hg
    have : g.serial ≠ f.serial := by
      unfold Lif.flyingClaim at hg
      split at hg
      · have := List.mem_of_head? hg
        intro e
        have h2 := h.1.1
        rw [List.any_eq_false] at h2
        exact h2 g this (by simp [e])
      · cases hg
    rw [if_neg this]; exact hap
  · exact hap

/-- What the word of a kept report leaves alone, and the record it leaves (R161, R162). -/
theorem Rdu.takeWord_holds (r : Rdu) (p : Path) (w : Option DataWord) :
    (r.takeWord p w).1.active = r.active ∧ (r.takeWord p w).1.seek = r.seek ∧
    DataAfter (r.path p).tuned (r.path p).data w ((r.takeWord p w).1.path p).data ∧ ((r.takeWord p w).1.path p).settle = (r.path p).settle ∧
    (p ≠ r.active → (r.takeWord p w).1.ann = r.ann ∧ (r.takeWord p w).2 = []) := by
  unfold Rdu.takeWord
  cases w with
  | none => exact ⟨rfl, rfl, rfl, rfl, fun _ => ⟨rfl, rfl⟩⟩
  | some w =>
    dsimp only
    have hd := ProgData.take_holds (r.path p).tuned (r.path p).data w
    have key : ∀ o : RduOut, (∃ a, o.1 = { r.setPath p { r.path p with data := ((r.path p).data.take (r.path p).tuned w).1 } with ann := a }) →
       o.1.active = r.active ∧ o.1.seek = r.seek ∧ DataAfter (r.path p).tuned (r.path p).data (some w) (o.1.path p).data ∧ (o.1.path p).settle = (r.path p).settle := by
      rintro o ⟨a, ha⟩
      rw [ha]
      refine ⟨?_, ?_, ?_, ?_⟩
      · exact Rdu.setPath_active _ _ _
      · cases p <;> rfl
      · cases p <;> exact hd
      · cases p <;> rfl
    have hend : ∀ (x : Rdu) c, ∃ a, (x.endAnnouncement c).1 = { x with ann := a } := by
      intro x c; unfold Rdu.endAnnouncement; split; exact ⟨_, rfl⟩; exact ⟨x.ann, rfl⟩
    split
    · rename_i hp
      have : ∀ o : RduOut, (∃ a, o.1 = { r.setPath p { r.path p with data := ((r.path p).data.take (r.path p).tuned w).1 } with ann := a }) →
         o.1.active = r.active ∧ o.1.seek = r.seek ∧ DataAfter (r.path p).tuned (r.path p).data (some w) (o.1.path p).data ∧ (o.1.path p).settle = (r.path p).settle ∧
         (p ≠ r.active → o.1.ann = r.ann ∧ o.2 = []) := fun o ho => by
        obtain ⟨a, b, c, d⟩ := key o ho; exact ⟨a, b, c, d, fun h => absurd hp h⟩
      split
      · apply this
        unfold Rdu.takeFlags
        dsimp only
        split
        · split
          · obtain ⟨a, ha⟩ := hend { r.setPath p { r.path p with data := ((r.path p).data.take (r.path p).tuned (.flags _ _)).1 } with ann := (r.setPath p _).ann.count _ } .flags
            exact ⟨a, by rw [ha]⟩
          · exact ⟨_, rfl⟩
        · split
          · exact ⟨_, rfl⟩
          · exact ⟨_, rfl⟩
      · apply this
        split
        · unfold Rdu.tagChanged
          obtain ⟨a, ha⟩ := hend { r.setPath p { r.path p with data := ((r.path p).data.take (r.path p).tuned w).1 } with ann := (r.setPath p { r.path p with data := ((r.path p).data.take (r.path p).tuned w).1 }).ann.clearRuns } .programme
          exact ⟨a, by rw [ha]⟩
        · exact ⟨(r.setPath p _).ann, rfl⟩
    · obtain ⟨a, b, c, d⟩ := key (r.setPath p { r.path p with data := ((r.path p).data.take (r.path p).tuned w).1 }, []) ⟨(r.setPath p _).ann, rfl⟩
      exact ⟨a, b, c, d, fun _ => ⟨Rdu.setPath_ann _ _ _, rfl⟩⟩

/-- What the start of an announcement does (R172). -/
theorem State.announceStart_holds (s : State) (r : Rdu) :
   let s0 : State := { s with rdu := r }
   let t := s0.announceStart
   let n := s.link.nextSerial s.own
   let f : ClaimFields := ⟨.announce, 0, s.cpt.store.announceZones, s.announceRef⟩
   let placed := s.cle.lifecycle = .active ∧ (claimsOf s.own s.cle.claims).length < 4
   t.pub = { s.pub with radioClass := .announce } ∧
   (placed → t.rdu = { r with ann := { r.ann with claim := some n } } ∧ t.cpt.notices.get 7 = some (raisedEntry (s.cpt.notices.get 7) (.announceStarted n)) ∧
     t.cle.claims = insertByKey ⟨⟨s.own, n⟩, f, .held, some .radio⟩ s.cle.claims ∧
     (QueueBounded s → ClaimsBounded s → s.lif.queue.length < 8 → t.lif.queue = s.lif.queue ++ [.hold n f])) ∧
   (¬ placed → t.rdu = r ∧ t.cpt.notices.get 7 = some (raisedEntry (s.cpt.notices.get 7) .announceUnclaimed) ∧ t.cle = s.cle) := by
  intro s0 t n f placed
  have hr7 : ∀ (c : Cpt) (n : Notice), n.place = 7 → (c.raise n).notices.get 7 = some (raisedEntry (c.notices.get 7) n) := by
    intro c n h; have := Cpt.raise_place c n; rw [h] at this; exact this
  have href : ({ s0 with pub := s0.pub.setRadioClass true } : State).announceRef = s.announceRef := rfl
  have ht : t = s0.announceStart := rfl
  unfold State.announceStart at ht
  dsimp only at ht
  have hpl : ∀ e z rf, (s.link.placeAnnounce e z rf) = if s.cle.lifecycle = .active ∧ (claimsOf e.own s.cle.claims).length < 4 then
      (some (s.link.nextSerial e.own), s.link.holdOverlay e ⟨.announce, 0, z, rf⟩ .radio) else (none, s.link) := fun _ _ _ => rfl
  have hown : ({ s0 with pub := s0.pub.setRadioClass true } : State).env.own = s.own := rfl
  have hlink : ({ s0 with pub := s0.pub.setRadioClass true } : State).link = s.link := rfl
  rw [hlink, hpl, hown] at ht
  by_cases hp : placed
  · rw [if_pos hp] at ht
    dsimp only at ht
    rw [ht]
    refine ⟨rfl, fun _ => ⟨rfl, ?_, ?_, ?_⟩, fun h => absurd hp h⟩
    · refine (hr7 _ _ rfl).trans ?_
      have : ∀ e g o, (s.link.holdOverlay e g o).cpt = s.cpt := by intro e g o; unfold Link.holdOverlay; dsimp only; rw [Link.recompose_cpt]; rfl
      simp only [State.setLink, this]; rfl
    · have : ∀ e g, (s.link.holdOverlay e g .radio).cle.claims = insertByKey ⟨⟨e.own, s.link.nextSerial e.own⟩, g, .held, some .radio⟩ s.cle.claims := by
        intro e g; unfold Link.holdOverlay; dsimp only; unfold Link.recompose; split <;> rfl
      exact this _ _
    · intro hq hc hl
      have hfree := nextSerial_free (k := s.link) (own := s.own) hq (hc.2.1 s.own)
      have : ∀ e g, e.own = s.own → (s.link.holdOverlay e g .radio).lif.queue = s.lif.queue ++ [.hold n g] := by
        intro e g he
        have h1 : ∀ k : Link, (k.recompose e).lif.queue = k.lif.queue := by intro k; unfold Link.recompose; split <;> rfl
        unfold Link.holdOverlay; dsimp only
        rw [h1, he]
        exact Lif.addClaim_free _ (.hold (s.link.nextSerial s.own) g) (by simp only [Link.busySerial, Bool.or_eq_false_iff] at hfree; exact hfree.2) hl
      exact this _ _ rfl
  · rw [if_neg hp] at ht
    dsimp only at ht
    rw [ht]
    exact ⟨rfl, fun h => absurd h hp, fun _ => ⟨rfl, hr7 _ _ rfl, rfl⟩⟩

/-- What the end of an announcement does (R173). -/
theorem State.announceEnd_holds (s : State) (r : Rdu) (cl : Option Serial) (cause) :
   let t := ({ s with rdu := r } : State).announceEnd cl cause
   t.rdu = r ∧ t.pub = { s.pub with radioClass := .programme } ∧ t.cpt.notices.get 7 = some (raisedEntry (s.cpt.notices.get 7) (.announceEnded cause)) ∧
    (∀ n, cl = some n → findClaim ⟨s.own, n⟩ t.cle.claims = none) ∧ (cl = none → t.cle = s.cle) := by
  intro t
  have hr7 : ∀ (c : Cpt) (n : Notice), n.place = 7 → (c.raise n).notices.get 7 = some (raisedEntry (c.notices.get 7) n) := by
    intro c n h; have := Cpt.raise_place c n; rw [h] at this; exact this
  have ht : t = ({ s with rdu := r } : State).announceEnd cl cause := rfl
  unfold State.announceEnd at ht
  dsimp only at ht
  cases cl with
  | none =>
    dsimp only at ht; rw [ht]
    exact ⟨rfl, rfl, hr7 _ _ rfl, by simp, fun _ => rfl⟩
  | some n =>
    dsimp only at ht; rw [ht]
    refine ⟨rfl, rfl, ?_, ?_, by simp⟩
    · refine (hr7 _ _ rfl).trans ?_
      simp only [State.setLink, Link.endAnnounce_cpt]; rfl
    · intro m hm; injection hm with hm; subst hm
      show findClaim ⟨s.own, n⟩ (Link.endAnnounce _ _ n).cle.claims = none
      unfold Link.endAnnounce
      split
      · rename_i h; exact h
      · rename_i c h
        have : ∀ (k : Link) e, (k.releaseHeld e c).cle.claims = eraseClaim c.name k.cle.claims := by
          intro k e; unfold Link.releaseHeld Link.recompose; split <;> rfl
        rw [this]
        have hn : c.name = ⟨s.own, n⟩ := by
          unfold findClaim at h; have := List.find?_some h; exact beq_iff_eq.mp this
        rw [hn]
        unfold findClaim eraseClaim
        rw [List.find?_eq_none]
        intro x hx; simp only [List.mem_filter] at hx; simpa using hx.2

end Sys2Proof.Machine
end

