-- ==== Sys2Proof/Laws/Arms.lean ====
section
/-! SUPPORT. The meaning that each arm of `exec` calls. -/

namespace Sys2Proof.Machine

open Sys2Proof

@[simp] theorem exec_pinReset (s : State) :
    exec (.pinReset) s = execPinReset s := rfl
@[simp] theorem exec_start (s : State) :
    exec (.start) s = execStart s := rfl
@[simp] theorem exec_restart (s : State) :
    exec (.restart) s = execRestart s := rfl
@[simp] theorem exec_setConfig (item index : Byte) (value : List Byte) (s : State) :
    exec (.setConfig item index value) s = execSetConfig item index value s := rfl
@[simp] theorem exec_readConfig (item index : Byte) (s : State) :
    exec (.readConfig item index) s = execReadConfig item index s := rfl
@[simp] theorem exec_setLevel (zone level : Byte) (s : State) :
    exec (.setLevel zone level) s = execSetLevel zone level s := rfl
@[simp] theorem exec_applyLevels (s : State) :
    exec (.applyLevels) s = execApplyLevels s := rfl
@[simp] theorem exec_levelsApplied (s : State) :
    exec (.levelsApplied) s = execLevelsApplied s := rfl
@[simp] theorem exec_setSource (source flag : Byte) (cls : Option Byte) (s : State) :
    exec (.setSource source flag cls) s = execSetSource source flag cls s := rfl
@[simp] theorem exec_publish (slot source : Byte) (s : State) :
    exec (.publish slot source) s = execPublish slot source s := rfl
@[simp] theorem exec_unpublish (slot : Byte) (s : State) :
    exec (.unpublish slot) s = execUnpublish slot s := rfl
@[simp] theorem exec_claim (kind urgency zones : Byte) (ref : Option Byte) (s : State) :
    exec (.claim kind urgency zones ref) s = execClaim kind urgency zones ref s := rfl
@[simp] theorem exec_release (serial : Byte) (s : State) :
    exec (.release serial) s = execRelease serial s := rfl
@[simp] theorem exec_tune (channel : BitVec 16) (s : State) :
    exec (.tune channel) s = execTune channel s := rfl
@[simp] theorem exec_seek (direction : Byte) (s : State) :
    exec (.seek direction) s = execSeek direction s := rfl
@[simp] theorem exec_scan (onOff : Byte) (s : State) :
    exec (.scan onOff) s = execScan onOff s := rfl
@[simp] theorem exec_announceEnable (onOff : Byte) (s : State) :
    exec (.announceEnable onOff) s = execAnnounceEnable onOff s := rfl
@[simp] theorem exec_faultAck (bridge : Byte) (s : State) :
    exec (.faultAck bridge) s = execFaultAck bridge s := rfl
@[simp] theorem exec_readStatus (part : Byte) (s : State) :
    exec (.readStatus part) s = execReadStatus part s := rfl
@[simp] theorem exec_readView (station : Byte) (s : State) :
    exec (.readView station) s = execReadView station s := rfl
@[simp] theorem exec_readClaims (s : State) :
    exec (.readClaims) s = execReadClaims s := rfl
@[simp] theorem exec_readStations (s : State) :
    exec (.readStations) s = execReadStations s := rfl
@[simp] theorem exec_readLineError (s : State) :
    exec (.readLineError) s = execReadLineError s := rfl
@[simp] theorem exec_takeNotice (s : State) :
    exec (.takeNotice) s = execTakeNotice s := rfl
@[simp] theorem exec_malformedRequest (bytes : List Byte) (s : State) :
    exec (.malformedRequest bytes) s = execMalformedRequest bytes s := rfl
@[simp] theorem exec_discardedTransaction (bytes : List Byte) (s : State) :
    exec (.discardedTransaction bytes) s = execDiscardedTransaction bytes s := rfl
@[simp] theorem exec_readTransaction (bytes : Nat) (s : State) :
    exec (.readTransaction bytes) s = execReadTransaction bytes s := rfl
@[simp] theorem exec_startOfFrame (s : State) :
    exec (.startOfFrame) s = execStartOfFrame s := rfl
@[simp] theorem exec_lineIdle (s : State) :
    exec (.lineIdle) s = execLineIdle s := rfl
@[simp] theorem exec_lostContention (s : State) :
    exec (.lostContention) s = execLostContention s := rfl
@[simp] theorem exec_bitError (s : State) :
    exec (.bitError) s = execBitError s := rfl
@[simp] theorem exec_attemptCompletion (s : State) :
    exec (.attemptCompletion) s = execAttemptCompletion s := rfl
@[simp] theorem exec_frameReceived (frame : LineFrame) (s : State) :
    exec (.frameReceived frame) s = execFrameReceived frame s := rfl
@[simp] theorem exec_brokenOffFrame (s : State) :
    exec (.brokenOffFrame) s = execBrokenOffFrame s := rfl
@[simp] theorem exec_bitErrorIsolation (s : State) :
    exec (.bitErrorIsolation) s = execBitErrorIsolation s := rfl
@[simp] theorem exec_noIdleIsolation (s : State) :
    exec (.noIdleIsolation) s = execNoIdleIsolation s := rfl
@[simp] theorem exec_blockBoundary (s : State) :
    exec (.blockBoundary) s = execBlockBoundary s := rfl
@[simp] theorem exec_joiningComplete (s : State) :
    exec (.joiningComplete) s = execJoiningComplete s := rfl
@[simp] theorem exec_presenceDue (s : State) :
    exec (.presenceDue) s = execPresenceDue s := rfl
@[simp] theorem exec_probeDue (s : State) :
    exec (.probeDue) s = execProbeDue s := rfl
@[simp] theorem exec_peerExpiry (station : StationNo) (s : State) :
    exec (.peerExpiry station) s = execPeerExpiry station s := rfl
@[simp] theorem exec_windowExpiry (s : State) :
    exec (.windowExpiry) s = execWindowExpiry s := rfl
@[simp] theorem exec_bidAgeOut (station : StationNo) (serial : Serial) (s : State) :
    exec (.bidAgeOut station serial) s = execBidAgeOut station serial s := rfl
@[simp] theorem exec_streamStarved (stream : StreamNo) (s : State) :
    exec (.streamStarved stream) s = execStreamStarved stream s := rfl
@[simp] theorem exec_callLossExpiry (station : StationNo) (serial : Serial) (uplink : StreamNo) (s : State) :
    exec (.callLossExpiry station serial uplink) s = execCallLossExpiry station serial uplink s := rfl
@[simp] theorem exec_slip (buffer : BufferNo) (s : State) :
    exec (.slip buffer) s = execSlip buffer s := rfl
@[simp] theorem exec_repeatFrame (buffer : BufferNo) (s : State) :
    exec (.repeatFrame buffer) s = execRepeatFrame buffer s := rfl
@[simp] theorem exec_releaseIntervalStep (output : OutputNo) (slot : SlotNo) (s : State) :
    exec (.releaseIntervalStep output slot) s = execReleaseIntervalStep output slot s := rfl
@[simp] theorem exec_crossfade (s : State) :
    exec (.crossfade) s = execCrossfade s := rfl
@[simp] theorem exec_diversitySwap (s : State) :
    exec (.diversitySwap) s = execDiversitySwap s := rfl
@[simp] theorem exec_probeSwap (s : State) :
    exec (.probeSwap) s = execProbeSwap s := rfl
@[simp] theorem exec_afTimerExpiry (s : State) :
    exec (.afTimerExpiry) s = execAfTimerExpiry s := rfl
@[simp] theorem exec_receptionHoldExpiry (s : State) :
    exec (.receptionHoldExpiry) s = execReceptionHoldExpiry s := rfl
@[simp] theorem exec_micSwitch (s : State) :
    exec (.micSwitch) s = execMicSwitch s := rfl
@[simp] theorem exec_hangTimerExpiry (activity : Activity) (s : State) :
    exec (.hangTimerExpiry activity) s = execHangTimerExpiry activity s := rfl
@[simp] theorem exec_thermalDerateStep (bridge : BridgeNo) (s : State) :
    exec (.thermalDerateStep bridge) s = execThermalDerateStep bridge s := rfl
@[simp] theorem exec_calmDerateStep (bridge : BridgeNo) (s : State) :
    exec (.calmDerateStep bridge) s = execCalmDerateStep bridge s := rfl
@[simp] theorem exec_dcAsserted (bridge : BridgeNo) (s : State) :
    exec (.dcAsserted bridge) s = execDcAsserted bridge s := rfl
@[simp] theorem exec_ocHistoryExpiry (bridge : BridgeNo) (s : State) :
    exec (.ocHistoryExpiry bridge) s = execOcHistoryExpiry bridge s := rfl
@[simp] theorem exec_faultSourceAsserted (source : FilteredSource) (s : State) :
    exec (.faultSourceAsserted source) s = execFaultSourceAsserted source s := rfl
@[simp] theorem exec_faultSourceDeasserted (source : FilteredSource) (s : State) :
    exec (.faultSourceDeasserted source) s = execFaultSourceDeasserted source s := rfl
@[simp] theorem exec_sampleInstant (inputs : SampleInputs) (s : State) :
    exec (.sampleInstant inputs) s = execSampleInstant inputs s := rfl
@[simp] theorem exec_bridgeReenable (bridge : BridgeNo) (s : State) :
    exec (.bridgeReenable bridge) s = execBridgeReenable bridge s := rfl
@[simp] theorem exec_frontEndReport (path : Path) (report : Report) (s : State) :
    exec (.frontEndReport path report) s = execFrontEndReport path report s := rfl
@[simp] theorem exec_scanPassEnd (s : State) :
    exec (.scanPassEnd) s = execScanPassEnd s := rfl
@[simp] theorem exec_pwmPeriod (inputs : PeriodInputs) (s : State) :
    exec (.pwmPeriod inputs) s = execPwmPeriod inputs s := rfl

end Sys2Proof.Machine
end

