-- ==== Sys2Proof/Laws/Attempts.lean ====
section
/-! SUPPORT. What a request of the Claim Engine and the end of an attempt can do to the transmit stores, in the words of
Safety: one lemma for each operation of the queue and the slots, and for the composition of presence. -/

namespace Sys2Proof.Machine

open Sys2Proof

/-- Where an entry passes, the first that does is taken out, and none before it passed. -/
theorem removeFirst_some {α : Type} (p : α → Bool) (l : List α) :
    (∃ g ∈ l, p g = true) → ∃ a h b, l = a ++ h :: b ∧ p h = true ∧ (∀ g ∈ a, p g = false) ∧
      removeFirst p l = some (a ++ b) := by
  induction l with
  | nil => rintro ⟨g, hg, _⟩; cases hg
  | cons x l ih =>
    rintro ⟨g, hg, hp⟩
    unfold removeFirst
    by_cases hx : p x = true
    · exact ⟨[], x, l, rfl, hx, by simp, by simp [hx]⟩
    · rcases List.mem_cons.mp hg with rfl | hg
      · exact absurd hp hx
      · obtain ⟨a, h, b, e, h1, h2, h3⟩ := ih ⟨g, hg, hp⟩
        refine ⟨x :: a, h, b, by rw [e]; rfl, h1, ?_, by simp [hx, h3]⟩
        intro k hk; rcases List.mem_cons.mp hk with rfl | hk
        · simpa using hx
        · exact h2 k hk

/-- Where no entry passes, nothing is taken out. -/
theorem removeFirst_none {α : Type} (p : α → Bool) (l : List α) (h : ∀ g ∈ l, p g = false) : removeFirst p l = none := by
  induction l with
  | nil => rfl
  | cons x l ih => unfold removeFirst; rw [h x (by simp), ih (fun g hg => h g (by simp [hg]))]; rfl

/-- What appending a claim frame can do to a queue in parts: the frame in flight, and the frames behind it (R13, R14). -/
theorem Lif.append_parts (l : Lif) (head q : List ClaimFrame) (hq : l.queue = head ++ q)
    (hr : ∀ k, l.removeOldest k = (removeFirst (isKind k) q).map (head ++ ·)) (f : ClaimFrame) :
    ∃ r b, Appended head q f r b ∧ l.append f false = { l with queue := r, besideBid := b.or l.besideBid } := by
  unfold Lif.append
  by_cases hlt : l.queue.length < Config.queueCapacity
  · rw [if_pos hlt]
    rw [hq] at hlt
    have : (head ++ q).length < 8 := hlt
    exact ⟨_, none, ⟨fun _ => ⟨by rw [hq], rfl⟩, fun h => by omega⟩, rfl⟩
  · rw [if_neg hlt]
    have hge : ¬ (head ++ q).length < 8 := by rw [← hq]; exact hlt
    rw [hr, hr]
    by_cases hh : ∃ g ∈ q, g.kind = .hold
    · have hp : ∃ g ∈ q, isKind .hold g = true := hh.imp (fun g h => ⟨h.1, by simp [isKind, h.2]⟩)
      obtain ⟨a, h, b, e, h1, h2, h3⟩ := removeFirst_some (isKind .hold) q hp
      rw [h3]
      have h2' : ∀ g ∈ a, g.kind ≠ .hold := fun g hg => by simpa [isKind] using h2 g hg
      refine ⟨head ++ (a ++ b) ++ [f], none, ⟨fun h => absurd h hge, fun _ =>
        ⟨fun _ => ⟨a, h, b, e, by simpa [isKind] using h1, h2', rfl, rfl⟩, fun hn => ?_⟩⟩, rfl⟩
      obtain ⟨g, hg, hk⟩ := hh; exact absurd hk (hn g hg)
    · have hn : ∀ g ∈ q, g.kind ≠ .hold := by intro g hg hk; exact hh ⟨g, hg, hk⟩
      rw [removeFirst_none _ _ (fun g hg => by have := hn g hg; simpa [isKind] using this)]
      dsimp only [Option.map_none]
      by_cases hb : f.kind = .bid
      · rw [if_neg (by decide), if_pos hb]
        by_cases hr2 : ∃ g ∈ q, g.kind = .release
        · have hp : ∃ g ∈ q, isKind .release g = true := hr2.imp (fun g h => ⟨h.1, by simp [isKind, h.2]⟩)
          obtain ⟨a, h, b, e, h1, h2, h3⟩ := removeFirst_some (isKind .release) q hp
          rw [h3]
          have h2' : ∀ g ∈ a, g.kind ≠ .release := fun g hg => by simpa [isKind] using h2 g hg
          refine ⟨head ++ (a ++ b) ++ [f], none, ⟨fun h => absurd h hge, fun _ => ⟨fun h => absurd h hh, fun _ =>
            ⟨fun _ _ => ⟨a, h, b, e, by simpa [isKind] using h1, h2', rfl, rfl⟩, fun _ hn2 => ?_, fun h => absurd hb h⟩⟩⟩, rfl⟩
          obtain ⟨g, hg, hk⟩ := hr2; exact absurd hk (hn2 g hg)
        · have hn2 : ∀ g ∈ q, g.kind ≠ .release := by intro g hg hk; exact hr2 ⟨g, hg, hk⟩
          rw [removeFirst_none _ _ (fun g hg => by have := hn2 g hg; simpa [isKind] using this)]
          exact ⟨l.queue, some f, ⟨fun h => absurd h hge, fun _ => ⟨fun h => absurd h hh, fun _ =>
            ⟨fun _ h => absurd h hr2, fun _ _ => ⟨hq, rfl⟩, fun h => absurd hb h⟩⟩⟩, rfl⟩
      · rw [if_neg (by decide), if_neg hb]
        exact ⟨l.queue, none, ⟨fun h => absurd h hge, fun _ => ⟨fun h => absurd h hh, fun _ =>
          ⟨fun h => absurd h hb, fun h => absurd h hb, fun _ => ⟨hq, rfl⟩⟩⟩⟩, rfl⟩

/-- What appending a claim frame can do (R13, R14). -/
theorem Lif.append_placed (l : Lif) (f : ClaimFrame) :
    ∃ r b, Appended (if l.queueFlying then l.queue.take 1 else []) (if l.queueFlying then l.queue.drop 1 else l.queue) f r b ∧
      l.append f false = { l with queue := r, besideBid := b.or l.besideBid } := by
  refine Lif.append_parts l _ _ ?_ ?_ f
  · split
    · simp only [List.take_append_drop]
    · rfl
  · intro k
    unfold Lif.removeOldest
    split
    · cases l.queue <;> rfl
    · cases removeFirst (isKind k) l.queue <;> rfl

/-- What appending a claim frame can do while none is in flight (R13, R14). -/
theorem Lif.append_holds (l : Lif) (hf : l.flight = none) (f : ClaimFrame) :
    ∃ q b, Appended [] l.queue f q b ∧ l.append f false = { l with queue := q, besideBid := b.or l.besideBid } := by
  have hq : l.queueFlying = false := by unfold Lif.queueFlying; rw [hf]
  have := Lif.append_placed l f
  rw [hq] at this
  exact this

/-- Adding a claim frame to the queue changes the claim frames alone. -/
theorem Lif.addClaim_frame (l : Lif) (f : ClaimFrame) (re : Bool) : l.addClaim f re = { l with
    queue := (l.addClaim f re).queue, besideClaim := (l.addClaim f re).besideClaim
    besideBid := (l.addClaim f re).besideBid } := by
  have ha : l.append f re = { l with
      queue := (l.append f re).queue, besideClaim := (l.append f re).besideClaim
      besideBid := (l.append f re).besideBid } := by unfold Lif.append; (repeat' split) <;> rfl
  unfold Lif.addClaim
  (repeat' split) <;> first | rfl | exact ha

/-- What adding a claim frame to the queue can do (R13 to R15). -/
theorem Lif.addClaim_placed (l : Lif) (f : ClaimFrame) (re : Bool) (hh : re = true → f.kind = .hold) :
    Placed l f re (l.addClaim f re) := by
  have hmap : replaceInQueue l.queue f re = l.queue.map (fun g =>
      if g.serial = f.serial ∧ g.kind ≠ .release ∧ f.kind ≠ .bid ∧ ¬ (re = true ∧ g.kind = .hold) then f else g) := by
    unfold replaceInQueue
    apply List.map_congr_left
    intro g _
    congr 1
    unfold takesPlace
    cases re with
    | false => cases g <;> cases f <;> simp [ClaimFrame.kind]
    | true => have := hh rfl; cases g <;> cases f <;> simp [ClaimFrame.kind] at this ⊢
  have hqueued : l.queue.any (fun q => q.serial == f.serial) = true ↔ ∃ g ∈ l.queue, g.serial = f.serial := by simp
  have hbehind : ((∃ g ∈ l.queue, g.serial = f.serial) → Placed l f re { l with queue := replaceInQueue l.queue f re }) →
      ((∀ g ∈ l.queue, ¬ g.serial = f.serial) → Placed l f re (l.append f re)) →
      Placed l f re (if l.queue.any (fun q => q.serial == f.serial) then { l with queue := replaceInQueue l.queue f re }
        else l.append f re) := by
    intro h1 h2
    split
    · rename_i h; exact h1 (hqueued.mp h)
    · rename_i h
      apply h2
      intro g hg he
      exact h (hqueued.mpr ⟨g, hg, he⟩)
  have happ : (∀ g ∈ l.queue, ¬ g.serial = f.serial) → Placed l f re (l.append f re) := by
    intro hn
    have hfl : (l.append f re).flight = l.flight := by unfold Lif.append; (repeat' split) <;> rfl
    have hbc : (l.append f re).besideClaim = l.besideClaim := by unfold Lif.append; (repeat' split) <;> rfl
    refine ⟨fun x hx => by rw [hfl]; exact hx, fun g hg he => ?_, fun _ => ⟨hbc, fun h => ?_, fun _ => ?_⟩⟩
    · exfalso
      split at hg
      · exact hn g (List.mem_of_mem_take hg) he
      · cases hg
    · obtain ⟨g, hg, he⟩ := h; exact absurd he (hn g hg)
    · by_cases hre : re = true ∧ 8 ≤ l.queue.length
      · refine ⟨none, ?_, fun h => ?_, fun _ _ => ⟨?_, rfl⟩⟩
        · unfold Lif.append; rw [if_neg (by have := hre.2; exact Nat.not_lt.mpr this), if_pos hre.1]; rfl
        · rcases h with h | h
          · rw [hre.1] at h; cases h
          · omega
        · unfold Lif.append; rw [if_neg (by have := hre.2; exact Nat.not_lt.mpr this), if_pos hre.1]
      · have he : l.append f re = l.append f false := by
          unfold Lif.append
          split
          · rfl
          · rename_i hlt
            have : re = false := by
              cases re with
              | false => rfl
              | true => exact absurd ⟨rfl, Nat.not_lt.mp hlt⟩ hre
            rw [this]
        obtain ⟨r, b, h1, h2⟩ := Lif.append_placed l f
        rw [he, h2]
        exact ⟨b, rfl, fun _ => h1, fun h1 h2 => absurd ⟨h1, h2⟩ hre⟩
  unfold Lif.addClaim
  cases hq : l.queueFlying with
  | false =>
    have : l.flyingClaim = none := by unfold Lif.flyingClaim; rw [hq]; rfl
    rw [this]
    refine hbehind (fun h => ⟨fun x hx => hx, fun g hg => ?_, fun _ => ⟨rfl, fun _ => ⟨rfl, hmap⟩, fun h2 => ?_⟩⟩) happ
    · rw [hq] at hg; cases hg
    · obtain ⟨g, hg, he⟩ := h; exact absurd he (h2 g hg)
  | true =>
    cases hl : l.queue with
    | nil =>
      have : l.flyingClaim = none := by unfold Lif.flyingClaim; rw [hq, hl]; rfl
      rw [this, ← hl]
      refine hbehind (fun h => ?_) happ
      obtain ⟨g, hg, he⟩ := h; rw [hl] at hg; cases hg
    | cons g rest =>
      have : l.flyingClaim = some g := by unfold Lif.flyingClaim; rw [hq, hl]; rfl
      rw [this, ← hl]
      dsimp only
      split
      · rename_i hs
        have hn : ∀ m : Lif, m.flight = l.flight → m.queue = l.queue → m.besideBid = l.besideBid →
            m.besideClaim = (if re = true ∧ g.kind = .hold then l.besideClaim else some f) → Placed l f re m := by
          intro m h1 h2 h3 h4
          refine ⟨fun x hx => by rw [h1]; exact hx, fun g' hg' _ => ⟨h2, h3, ?_⟩, fun h => absurd hs (h g ?_)⟩
          · rw [hq, hl] at hg'
            simp only [if_true, List.take_succ_cons, List.take_zero, List.mem_singleton] at hg'
            rw [hg']; exact h4
          · rw [hq, hl]; simp
        split
        · rename_i h; exact hn l rfl rfl rfl (by rw [if_pos h])
        · rename_i h; exact hn _ rfl rfl rfl (by rw [if_neg h])
      · rename_i hs
        refine hbehind (fun h => ⟨fun x hx => hx, fun g' hg' he => ?_, fun _ => ⟨rfl, fun _ => ⟨rfl, hmap⟩, fun h2 => ?_⟩⟩) happ
        · rw [hq, hl] at hg'
          simp only [if_true, List.take_succ_cons, List.take_zero, List.mem_singleton] at hg'
          rw [hg'] at he; exact absurd he hs
        · obtain ⟨g', hg', he⟩ := h; exact absurd he (h2 g' hg')

/-- What dropping the BID of a serial can do (R13, R15). -/
theorem Lif.dropBid_dropped (l : Lif) (n : Serial) : BidDropped l n (l.dropBid n) := by
  have hb : ∀ g, isBidOf n g = true ↔ g.kind = .bid ∧ g.serial = n := by intro g; simp [isBidOf]
  have hbf : ∀ g, (!isBidOf n g) = decide (¬ (g.kind = .bid ∧ g.serial = n)) := by
    intro g
    by_cases h : isBidOf n g = true
    · rw [h]; simp [(hb g).mp h]
    · rw [Bool.not_eq_true] at h
      rw [h]
      have : ¬ (g.kind = .bid ∧ g.serial = n) := fun k => by rw [(hb g).mpr k] at h; cases h
      simp only [this, not_false_eq_true, decide_true, Bool.not_false]
  have hany : l.flyingClaim.any (isBidOf n) = true ↔
      (l.queueFlying = true ∧ ∃ g, l.queue.head? = some g ∧ g.kind = .bid ∧ g.serial = n) := by
    unfold Lif.flyingClaim
    cases l.queueFlying <;> cases l.queue.head? <;> simp [isBidOf]
  unfold Lif.dropBid BidDropped
  by_cases h : l.flyingClaim.any (isBidOf n) = true
  · rw [if_pos h]
    refine ⟨rfl, fun _ => ⟨rfl, rfl, fun x hx => ?_⟩, fun k => absurd (hany.mp h) k⟩
    show l.flight.map _ = _
    rw [hx]; rfl
  · rw [if_neg h]
    refine ⟨rfl, fun k => absurd (hany.mpr k) h, fun _ => ⟨?_, ?_, fun x hx => hx⟩⟩
    · exact List.filter_congr (fun g _ => hbf g)
    · cases hx : l.besideBid with
      | none => rfl
      | some g =>
        simp only [Option.any_some, Option.filter_some]
        rw [← hbf g]
        by_cases h : isBidOf n g = true
        · simp [h]
        · simp [h]

/-- Dropping a BID changes the queue, what is held beside it and its flight alone. -/
theorem Lif.dropBid_frame (l : Lif) (n : Serial) : l.dropBid n = { l with
    queue := (l.dropBid n).queue, besideBid := (l.dropBid n).besideBid, flight := (l.dropBid n).flight } := by
  unfold Lif.dropBid; split <;> rfl

/-- What appending the BID held beside a full queue can do (R14): it changes that BID and the queue alone. -/
theorem Lif.appendBeside_holds (l : Lif) (hf : l.flight = none) : BesideAppended l.queue l.besideBid l.appendBeside ∧
    l.appendBeside = { l with queue := l.appendBeside.queue, besideBid := l.appendBeside.besideBid } := by
  unfold Lif.appendBeside BesideAppended
  cases h : l.besideBid with
  | none => exact ⟨⟨rfl, h⟩, rfl⟩
  | some g =>
    dsimp only
    obtain ⟨q, b, ha, he⟩ := Lif.append_holds { l with besideBid := none } hf g
    rw [he]
    have : b.or none = b := by cases b <;> rfl
    dsimp only
    rw [this]
    exact ⟨ha, rfl⟩

/-- What an attempt that failed leaves in the stores (R15). -/
theorem Lif.attemptFailed_holds (l : Lif) (lc) (f : Flight) (e : AttemptEnd) (he : e ≠ .completed)
    (ho : f.orphan = false) :
    QueueFailed l f (l.attemptEnded lc f e) ∧ (l.attemptEnded lc f e).flight = none ∧
    (l.attemptEnded lc f e).bitErrorRun = l.bitErrorRun ∧
    (f.store = .presence → (l.attemptEnded lc f e).presence =
      l.presence.ended (e == AttemptEnd.bitError && lc == Lifecycle.isolated)) ∧
    (∀ i, f.store = .sound i → (l.attemptEnded lc f e).sound.get i = (l.sound.get i).ended false) := by
  have hd : (e == AttemptEnd.completed) = false := by cases e <;> first | rfl | exact absurd rfl he
  unfold Lif.attemptEnded
  rw [ho, hd]
  dsimp only
  unfold QueueFailed
  cases hst : f.store with
  | queue =>
    dsimp only [Bool.false_eq_true, if_false]
    have hfl : (l.queueEnded f.dropBid false).flight = none := by
      unfold Lif.queueEnded; dsimp only; cases l.besideClaim <;> simp <;> split <;> rfl
    obtain ⟨h1, h2⟩ := Lif.appendBeside_holds (l.queueEnded f.dropBid false) hfl
    rw [h2]
    refine ⟨⟨fun _ => ⟨?_, ?_⟩, fun h => absurd rfl h⟩, hfl, ?_, nofun, nofun⟩
    · have e1 : (l.queueEnded f.dropBid false).besideBid = l.besideBid := by
        unfold Lif.queueEnded; dsimp only; cases l.besideClaim <;> simp <;> split <;> rfl
      have e2 : (l.queueEnded f.dropBid false).queue = (match l.besideClaim with
          | some h => h :: l.queue.tail
          | none => if f.dropBid then l.queue.tail else l.queue) := by
        unfold Lif.queueEnded; dsimp only; cases l.besideClaim <;> simp <;> split <;> rfl
      rw [e1, e2] at h1
      unfold BesideAppended at *
      exact h1
    · unfold Lif.queueEnded; dsimp only; cases l.besideClaim <;> simp <;> split <;> rfl
    · unfold Lif.queueEnded; dsimp only; cases l.besideClaim <;> simp <;> split <;> rfl
  | sound i =>
    dsimp only [Bool.false_eq_true, if_false]
    obtain ⟨h1, h2⟩ :=
      Lif.appendBeside_holds { l with flight := none, sound := l.sound.modify i (fun t => t.ended false) } rfl
    rw [h2]
    refine ⟨⟨nofun, fun _ => ⟨h1, rfl⟩⟩, rfl, rfl, nofun, ?_⟩
    intro j hj; cases hj
    simp
  | presence =>
    dsimp only [Bool.false_eq_true, if_false]
    obtain ⟨h1, h2⟩ := Lif.appendBeside_holds { l with
      flight := none
      presence := l.presence.ended (false || (e == AttemptEnd.bitError && lc == Lifecycle.isolated)) } rfl
    rw [h2]
    exact ⟨⟨nofun, fun _ => ⟨h1, rfl⟩⟩, rfl, rfl, fun _ => rfl, nofun⟩

/-- What a completed attempt leaves in the stores (R12, R14, R15). -/
theorem Lif.attemptCompleted_holds (l : Lif) (lc) (f : Flight) (ho : f.orphan = false) :
    let m := l.attemptEnded lc f .completed
    m.flight = none ∧ (f.store = .queue → QueueCompleted l m ∧ m.sound = l.sound ∧ m.presence = l.presence) ∧
    (f.store ≠ .queue → BesideAppended l.queue l.besideBid m) ∧
    (f.store = .presence → m.presence = l.presence.ended true) ∧
    (∀ i, f.store = .sound i → m.sound.get i = (l.sound.get i).ended true) := by
  intro m
  obtain ⟨m', hm⟩ : ∃ m', m' = m := ⟨_, rfl⟩
  rw [← hm]
  have hm2 : m' = l.attemptEnded lc f .completed := hm
  clear_value m; clear hm
  unfold Lif.attemptEnded at hm2
  rw [ho, show ((AttemptEnd.completed == AttemptEnd.completed) = true) from rfl] at hm2
  cases hst : f.store with
  | queue =>
    rw [hst] at hm2
    dsimp only [Bool.false_eq_true, if_false] at hm2
    obtain ⟨L, hL⟩ : ∃ L, L = l.queueEnded f.dropBid true := ⟨_, rfl⟩
    rw [← hL] at hm2
    simp only [Bool.false_eq_true, if_false] at hm2
    have key : L.flight = none ∧ L.sound = l.sound ∧ L.presence = l.presence ∧ L.besideClaim = none ∧
      (match l.besideClaim with
        | none => L.queue = l.queue.tail ∧ L.besideBid = l.besideBid
        | some h => ∃ b, Appended [] l.queue.tail h L.queue b ∧ L.besideBid = b.or l.besideBid) := by
      rw [hL]; unfold Lif.queueEnded
      dsimp only
      cases hb : l.besideClaim with
      | none => exact ⟨rfl, rfl, rfl, rfl, rfl, rfl⟩
      | some h =>
        dsimp only [if_true]
        obtain ⟨q, b, ha, he⟩ := Lif.append_holds { l with besideClaim := none, flight := none, queue := l.queue.tail } rfl h
        rw [if_pos rfl, he]
        exact ⟨rfl, rfl, rfl, rfl, b, ha, rfl⟩
    obtain ⟨k1, k2, k3, k4, k5⟩ := key
    obtain ⟨h1, h2⟩ := Lif.appendBeside_holds L k1
    rw [← hm2] at h1 h2
    refine ⟨by rw [h2]; exact k1, fun _ => ⟨⟨by rw [h2]; exact k4, ?_⟩, by rw [h2]; exact k2, by rw [h2]; exact k3⟩,
      fun h => absurd rfl h, nofun, nofun⟩
    cases hb : l.besideClaim with
    | none => rw [hb] at k5; rw [k5.1, k5.2] at h1; exact h1
    | some h => rw [hb] at k5; obtain ⟨b, ha, hbb⟩ := k5; rw [hbb] at h1; exact ⟨_, b, ha, h1⟩
  | sound i =>
    rw [hst] at hm2
    simp only [Bool.false_eq_true, if_false] at hm2
    obtain ⟨h1, h2⟩ :=
      Lif.appendBeside_holds { l with flight := none, sound := l.sound.modify i (fun t => t.ended true) } rfl
    rw [← hm2] at h1 h2
    refine ⟨by rw [h2], nofun, fun _ => h1, nofun, ?_⟩
    intro j hj; cases hj
    rw [h2]; simp
  | presence =>
    rw [hst] at hm2
    simp only [Bool.false_eq_true, if_false] at hm2
    obtain ⟨h1, h2⟩ := Lif.appendBeside_holds { l with
      flight := none
      presence := l.presence.ended
        (true || (AttemptEnd.completed == AttemptEnd.bitError && lc == Lifecycle.isolated)) } rfl
    rw [← hm2] at h1 h2
    exact ⟨by rw [h2], nofun, fun _ => h1, fun _ => by rw [h2]; rfl, nofun⟩

/-- A slot after a failed attempt, in the words of the statements. -/
theorem TxSlot.ended_false_eq_kept {α} (t : TxSlot α) : t.ended false = t.kept := by
  unfold TxSlot.ended TxSlot.kept; cases t with | mk f b => cases b <;> rfl

/-- A slot whose frame left, in the words of the statements. -/
theorem TxSlot.ended_true_eq_left {α} (t : TxSlot α) : t.ended true = t.left := by
  unfold TxSlot.ended TxSlot.left; cases t with | mk f b => cases b <;> rfl

/-- The rule of R14 reads the queue and the BID held beside it alone. -/
theorem BesideAppended.congr_lif {q b} {m n : Lif} (h : BesideAppended q b m) (h1 : n.queue = m.queue)
    (h2 : n.besideBid = m.besideBid) : BesideAppended q b n := by
  unfold BesideAppended at *; cases b <;> simpa [h1, h2] using h

/-- The rule of R14 and R15 reads the queue and what is held beside it alone. -/
theorem QueueFailed.congr_lif {l f} {m n : Lif} (h : QueueFailed l f m) (h1 : n.queue = m.queue)
    (h2 : n.besideBid = m.besideBid) (h3 : n.besideClaim = m.besideClaim) : QueueFailed l f n :=
  ⟨fun k => ⟨BesideAppended.congr_lif (h.1 k).1 h1 h2, by rw [h3]; exact (h.1 k).2⟩,
    fun k => ⟨BesideAppended.congr_lif (h.2 k).1 h1 h2, by rw [h3]; exact (h.2 k).2⟩⟩

/-- What a failed attempt in ISOLATED does to a claim that waits to bid (R53). -/
theorem Link.abandonAtIsolation_holds (s : State) (l : Lif) (f : Flight) (hl : l.flight = none)
    (hq : QueueFailed s.lif f l) :
    let t := s.setLink (({ s.link with lif := l } : Link).abandonAtIsolation s.env)
    FailedInIsolation s f t ∧
    t.lif.flight = none ∧ t.lif.bitErrorRun = l.bitErrorRun ∧ t.lif.sound = l.sound ∧ t.lif.presence = l.presence := by
  unfold FailedInIsolation WaitsToBid
  have hfl : l.bidFlying = fun _ => false := by
    funext n; unfold Lif.bidFlying Lif.flyingClaim Lif.queueFlying; rw [hl]; rfl
  intro t
  obtain ⟨K, hK⟩ : ∃ K, K = (({ s.link with lif := l } : Link).abandonAtIsolation s.env) := ⟨_, rfl⟩
  have ht : t = s.setLink K := by rw [hK]
  clear_value t; subst ht
  unfold Link.abandonAtIsolation at hK
  have henv : s.env.own = s.own := rfl
  dsimp only [State.link] at hK
  rw [henv] at hK
  cases hb : ownBidding s.own s.cle.claims with
  | none =>
    rw [hb] at hK
    subst hK
    exact ⟨⟨fun c h => (by have := h.1; cases this), fun _ => ⟨rfl, hq⟩⟩, hl, rfl, rfl, rfl⟩
  | some c =>
    rw [hb] at hK
    dsimp only at hK
    cases hc : c.state with
    | held =>
      rw [hc] at hK; subst hK
      exact ⟨⟨fun d h => (by obtain ⟨h1, k, h2⟩ := h; cases h1; rw [hc] at h2; cases h2),
          fun _ => ⟨rfl, hq⟩⟩, hl, rfl, rfl, rfl⟩
    | heard a =>
      rw [hc] at hK; subst hK
      exact ⟨⟨fun d h => (by obtain ⟨h1, k, h2⟩ := h; cases h1; rw [hc] at h2; cases h2),
          fun _ => ⟨rfl, hq⟩⟩, hl, rfl, rfl, rfl⟩
    | bidding k w =>
      cases w with
      | some w =>
        rw [hc] at hK; subst hK
        exact ⟨⟨fun d h => (by obtain ⟨h1, k, h2⟩ := h; cases h1; rw [hc] at h2; cases h2),
          fun _ => ⟨rfl, hq⟩⟩, hl, rfl, rfl, rfl⟩
      | none =>
        rw [hc] at hK
        dsimp only at hK
        rw [hfl] at hK; simp only [Bool.false_eq_true, if_false] at hK
        unfold Link.abandon Lif.dropBid at hK
        rw [hc] at hK
        dsimp only [Link.setClaims, Link.raise] at hK
        have hf2 : l.flyingClaim = none := by unfold Lif.flyingClaim Lif.queueFlying; rw [hl]; rfl
        rw [hf2] at hK
        simp only [Option.any_none, Bool.false_eq_true, if_false] at hK
        subst hK
        refine ⟨⟨fun d h => ?_, fun h => absurd ⟨rfl, k, hc⟩ (h c)⟩, hl, rfl, rfl, rfl⟩
        have := h.1; cases this
        refine ⟨rfl, rfl, ?_⟩
        intro g hg
        have := (List.mem_filter.mp hg).2
        simpa using this

/-- An attempt that begins changes the flight and the idle condition alone. -/
theorem Lif.arbitrate_frame (l : Lif) (lc : Lifecycle) : l.arbitrate lc = { l with
    flight := (l.arbitrate lc).flight, lineIdle := (l.arbitrate lc).lineIdle } := by
  unfold Lif.arbitrate; (repeat' split) <;> rfl

/-- A frame in flight stays in flight. -/
theorem Lif.arbitrate_flight (l : Lif) (lc : Lifecycle) (x : Flight) (h : l.flight = some x) :
    (l.arbitrate lc).flight = some x := by
  unfold Lif.arbitrate
  rw [if_neg (by rw [h]; simp)]; exact h

/-- What the rules of R13 to R15 say of the queue holds of every LIF with the same claim frames and the frame in flight. -/
theorem Placed.congr_lif {l : Lif} {f re} {m n : Lif} (h : Placed l f re m) (h1 : n.queue = m.queue)
    (h2 : n.besideClaim = m.besideClaim) (h3 : n.besideBid = m.besideBid)
    (h4 : ∀ x, m.flight = some x → n.flight = some x) : Placed l f re n := by
  unfold Placed at *
  rw [h1, h2, h3]
  exact ⟨fun x hx => h4 x (h.1 x hx), h.2⟩

/-- The same of a dropped BID. -/
theorem BidDropped.congr_lif {l : Lif} {k} {m n : Lif} (h : BidDropped l k m) (h1 : n.queue = m.queue)
    (h2 : n.besideClaim = m.besideClaim) (h3 : n.besideBid = m.besideBid)
    (h4 : ∀ x, m.flight = some x → n.flight = some x) : BidDropped l k n := by
  unfold BidDropped at *
  rw [h1, h2, h3]
  exact ⟨h.1, fun g => ⟨(h.2.1 g).1, (h.2.1 g).2.1, fun x hx => h4 _ ((h.2.1 g).2.2 x hx)⟩,
    fun g => ⟨(h.2.2 g).1, (h.2.2 g).2.1, fun x hx => h4 _ ((h.2.2 g).2.2 x hx)⟩⟩

/-- A composition changes the presence slot and the own peer entry alone. -/
theorem Link.recompose_frame (k : Link) (env : Env) : (k.recompose env).cpt = k.cpt ∧
    (k.recompose env).lif = { k.lif with presence := (k.recompose env).lif.presence } ∧
    (k.recompose env).cle = { k.cle with
      peers := k.cle.peers.set env.own ((k.recompose env).cle.peers.get env.own) } := by
  unfold Link.recompose
  split
  · exact ⟨rfl, rfl, by unfold Link.handPresence; simp⟩
  · exact ⟨rfl, rfl, by rw [Tbl.set_get]⟩

/-- What `Link.recompose` does in the words of R30. -/
theorem Link.recompose_recomposed (s t : State) (k : Link) (hp : k.lif.presence = s.lif.presence)
    (hf : k.lif.flight = s.lif.flight) (he : k.cle.peers.get s.own = s.cle.peers.get s.own)
    (hl : k.cle.lifecycle = s.cle.lifecycle) (h1 : t.lif.presence = (k.recompose s.env).lif.presence)
    (h2 : t.cle = (k.recompose s.env).cle) (h3 : t = { s with lif := t.lif, cle := t.cle, cpt := t.cpt })
    (h4 : t.cpt.store = s.cpt.store) : Recomposed s t := by
  have hst : t.cle.lifecycle = s.cle.lifecycle := by rw [h2, (Link.recompose_frame k s.env).2.2]; exact hl
  have hcl : t.cle.claims = k.cle.claims := by rw [h2, (Link.recompose_frame k s.env).2.2]
  have hown : t.own = s.own := by unfold State.own; rw [h4]
  have hpub : t.pub = s.pub := by rw [h3]
  have host : t.ost = s.ost := by rw [h3]
  have hnow : t.presenceNow (if s.cle.lifecycle = .isolated then .isolated else .active) = k.compose s.env := by
    unfold State.presenceNow Link.compose State.env State.impaired State.inConfig
    rw [hown, hcl, hpub, host, hst, h4, hl]
  have hw : ((k.cle.lifecycle = .active ∨ k.cle.lifecycle = .isolated) ∧ k.lif.presencePending = true) ↔
      ((s.cle.lifecycle = .active ∨ s.cle.lifecycle = .isolated) ∧
      (s.lif.presence.frame.isSome = true ∨ s.lif.presence.beside.isSome = true ∨
        ∃ x, s.lif.flight = some x ∧ x.store = .presence)) := by
    unfold Lif.presencePending
    rw [hl, hp, hf]
    cases s.lif.flight <;> simp [or_assoc]
  unfold Recomposed
  dsimp only
  rw [hnow, ← hw, h1, h2]
  unfold Link.recompose
  refine ⟨fun h => ?_, fun h => ?_⟩
  · rw [if_pos h]
    refine ⟨by unfold Link.handPresence; simp [State.env], ?_⟩
    unfold Link.handPresence Lif.handPresence TxSlot.hand
    have : k.lif.flying .presence = s.lif.flying .presence := by unfold Lif.flying; rw [hf]
    dsimp only
    rw [this, hp]
  · rw [if_neg h]
    exact ⟨he, hp⟩

end Sys2Proof.Machine
end

