-- ==== Sys2Proof/Laws/Dispatch.lean ====
section
/-! SUPPORT. The shape of every command's effect: an event keeps (`State.Keeps`), a request keeps and is answered, and the
few commands that do more are named. -/

namespace Sys2Proof.Machine

open Sys2Proof

/-- The commands whose effect is more than what `State.Keeps` says beside an answer: they write the store, the notice set
in another way than by raises, what SDO carried, the latch or the capture, or enter or leave CONFIG. -/
def special : Instr → Bool
  | .pinReset | .start | .restart | .setConfig .. | .scan .. | .announceEnable .. | .takeNotice | .readLineError
  | .readTransaction .. | .discardedTransaction .. | .frameReceived .. => true
  | _ => false

theorem State.answer_pair (s : State) (st : Status) (d : List Byte) :
    ∃ u x y, (Host.Outcome.next (s.answer st d) : Answer) = .next (State.answer u x y) ∧ s.Keeps u :=
  ⟨s, st, d, rfl, .refl s⟩

/-- A station that keeps, answered and then offered an attempt, is a station that keeps, answered. -/
theorem State.answer_arbitrate (s : State) (st : Status) (d : List Byte) :
    (s.answer st d).arbitrate = s.arbitrate.answer st d := rfl

/-- A request that is not special changes what an event may change, and is answered. -/
theorem exec_request (c : Instr) (s : State) (hr : isRequest c = true) (hs : special c = false) :
    ∃ u st d, exec c s = .next (State.answer u st d) ∧ s.Keeps u := by
  cases c <;> first
    | exact Bool.noConfusion (show false = true from hr)
    | exact Bool.noConfusion (show true = false from hs)
    | skip
  case readConfig =>
    simp only [exec_readConfig]
    unfold execReadConfig; split <;> exact s.answer_pair _ _
  case setLevel =>
    simp only [exec_setLevel]
    unfold execSetLevel; split
    · exact ⟨_, _, _, rfl, .of_eq rfl rfl rfl rfl⟩
    · exact s.answer_pair _ _
  case applyLevels =>
    simp only [exec_applyLevels]
    exact ⟨_, _, _, rfl, .of_eq rfl rfl rfl rfl⟩
  case setSource =>
    simp only [exec_setSource]
    unfold execSetSource; split
    · split
      · exact ⟨_, _, _, rfl, .of_eq rfl rfl rfl rfl⟩
      · exact s.answer_pair _ _
    · exact s.answer_pair _ _
  case publish =>
    simp only [exec_publish]
    unfold execPublish; split
    · split
      · exact ⟨_, _, _, rfl, .of_eq rfl rfl rfl rfl⟩
      · exact s.answer_pair _ _
    · exact s.answer_pair _ _
  case unpublish =>
    simp only [exec_unpublish]
    unfold execUnpublish; split
    · exact s.answer_pair _ _
    · split
      · split
        · exact s.answer_pair _ _
        · exact ⟨_, _, _, rfl, Lif.handSound_keeps _ _ _ _, .refl _, Iff.rfl, rfl⟩
      · exact s.answer_pair _ _
  case claim k u z r =>
    simp only [exec_claim]
    exact ⟨_, _, _, rfl, (State.setLink_keeps s (Link.claimRequest_keeps _ s.env k u z r)).trans (State.arbitrate_keeps _)⟩
  case release x =>
    simp only [exec_release]
    exact ⟨_, _, _, rfl, (State.setLink_keeps s (Link.releaseRequest_keeps _ s.env x)).trans (State.arbitrate_keeps _)⟩
  case tune =>
    simp only [exec_tune]
    unfold execTune; split
    · split
      · exact ⟨_, _, _, rfl, (State.setRdu_keeps s _).trans (State.arbitrate_keeps _)⟩
      · exact s.answer_pair _ _
    · exact s.answer_pair _ _
  case seek =>
    simp only [exec_seek]
    unfold execSeek; split
    · split
      · split
        · exact s.answer_pair _ _
        · exact ⟨_, _, _, rfl, (State.setRdu_keeps s _).trans (State.arbitrate_keeps _)⟩
      · exact s.answer_pair _ _
    · exact s.answer_pair _ _
  case faultAck =>
    simp only [exec_faultAck]
    unfold execFaultAck; split
    · exact s.answer_pair _ _
    · exact ⟨_, _, _, rfl, .of_eq rfl rfl rfl rfl⟩
  case readStatus =>
    simp only [exec_readStatus]
    unfold execReadStatus; split <;> exact s.answer_pair _ _
  case readView =>
    simp only [exec_readView]
    unfold execReadView; split <;> exact s.answer_pair _ _
  case readClaims =>
    simp only [exec_readClaims]
    exact s.answer_pair _ _
  case readStations =>
    simp only [exec_readStations]
    exact s.answer_pair _ _
  case malformedRequest =>
    simp only [exec_malformedRequest]
    exact s.answer_pair _ _

/-- An event that is not special keeps. -/
theorem exec_event (c : Instr) (s : State) (hr : isRequest c = false) (hs : special c = false) :
    ∃ t, exec c s = .next t ∧ s.Keeps t := by
  have same : ∃ t, (Host.Outcome.next s : Answer) = .next t ∧ s.Keeps t := ⟨s, rfl, .refl s⟩
  cases c <;> first
    | exact Bool.noConfusion (show true = false from hr)
    | exact Bool.noConfusion (show true = false from hs)
    | skip
  case levelsApplied =>
    simp only [exec_levelsApplied]
    exact ⟨_, rfl, s.boundaryLevels_keeps⟩
  case startOfFrame =>
    simp only [exec_startOfFrame]
    exact ⟨_, rfl, .of_eq rfl rfl rfl rfl, .refl _, Iff.rfl, rfl⟩
  case lineIdle =>
    simp only [exec_lineIdle]
    unfold execLineIdle; split
    · exact same
    · exact ⟨_, rfl, Lif.becomeIdle_keeps _ _, .refl _, Iff.rfl, rfl⟩
  case lostContention =>
    simp only [exec_lostContention]
    unfold execLostContention; split
    · exact ⟨_, rfl, State.setLink_keeps s (Link.attemptLost_keeps _ _ _)⟩
    · exact same
  case bitError =>
    simp only [exec_bitError]
    unfold execBitError; split
    · exact ⟨_, rfl, State.setLink_keeps s (Link.attemptBitError_keeps _ _ _)⟩
    · exact same
  case attemptCompletion =>
    simp only [exec_attemptCompletion]
    unfold execAttemptCompletion; split
    · exact ⟨_, rfl, State.setLink_keeps s (Link.attemptCompleted_keeps _ _ _)⟩
    · exact same
  case brokenOffFrame =>
    simp only [exec_brokenOffFrame]
    exact same
  case bitErrorIsolation =>
    simp only [exec_bitErrorIsolation]
    unfold execBitErrorIsolation; split
    · split
      · exact ⟨_, rfl, State.setLink_keeps s (Link.attemptBitError_keeps _ _ _)⟩
      · exact same
    · exact same
  case noIdleIsolation =>
    simp only [exec_noIdleIsolation]
    unfold execNoIdleIsolation; split
    · exact ⟨_, rfl, State.setLink_keeps s (Link.checkNoIdle_keeps _ _)⟩
    · exact same
  case blockBoundary =>
    simp only [exec_blockBoundary]
    unfold execBlockBoundary; split
    · exact ⟨_, rfl, s.boundaryConfig_keeps⟩
    · exact ⟨_, rfl, s.boundaryRun_keeps⟩
  case joiningComplete =>
    simp only [exec_joiningComplete]
    unfold execJoiningComplete; split
    · exact ⟨_, rfl, (State.setLink_keeps s (Link.tickCadence_keeps _ _)).trans (State.arbitrate_keeps _)⟩
    · exact same
  case presenceDue =>
    simp only [exec_presenceDue]
    unfold execPresenceDue; split
    · exact ⟨_, rfl, (State.setLink_keeps s (Link.tickCadence_keeps _ _)).trans (State.arbitrate_keeps _)⟩
    · exact same
  case probeDue =>
    simp only [exec_probeDue]
    unfold execProbeDue; split
    · exact ⟨_, rfl, (State.setLink_keeps s (Link.tickCadence_keeps _ _)).trans (State.arbitrate_keeps _)⟩
    · exact same
  case peerExpiry =>
    simp only [exec_peerExpiry]
    unfold execPeerExpiry; split
    · exact ⟨_, rfl, s.expirePeer_keeps _⟩
    · exact same
  case windowExpiry =>
    simp only [exec_windowExpiry]
    unfold execWindowExpiry; split
    · exact ⟨_, rfl, (State.setLink_keeps s (Link.tickWindow_keeps _ _)).trans (State.arbitrate_keeps _)⟩
    · exact same
  case bidAgeOut =>
    simp only [exec_bidAgeOut]
    unfold execBidAgeOut; split
    · exact ⟨_, rfl, .refl _, .refl _, Iff.rfl, rfl⟩
    · exact same
  case streamStarved =>
    simp only [exec_streamStarved]
    unfold execStreamStarved; split
    · exact ⟨_, rfl, .of_eq rfl rfl rfl rfl⟩
    · exact same
  case callLossExpiry =>
    simp only [exec_callLossExpiry]
    exact ⟨_, rfl, .of_eq rfl rfl rfl rfl⟩
  case slip =>
    simp only [exec_slip]
    unfold execSlip; dsimp only; split
    · exact ⟨_, rfl, .of_eq rfl rfl rfl rfl⟩
    · exact same
  case repeatFrame =>
    simp only [exec_repeatFrame]
    unfold execRepeatFrame; dsimp only; split
    · exact ⟨_, rfl, .of_eq rfl rfl rfl rfl⟩
    · exact same
  case releaseIntervalStep =>
    simp only [exec_releaseIntervalStep]
    unfold execReleaseIntervalStep; dsimp only; split
    · exact ⟨_, rfl, .of_eq rfl rfl rfl rfl⟩
    · exact same
  case crossfade =>
    simp only [exec_crossfade]
    unfold execCrossfade; split
    · exact ⟨_, rfl, .of_eq rfl rfl rfl rfl⟩
    · exact same
  case diversitySwap =>
    simp only [exec_diversitySwap]
    unfold execDiversitySwap; split
    · exact ⟨_, rfl, s.setRdu_keeps _⟩
    · exact same
  case probeSwap =>
    simp only [exec_probeSwap]
    unfold execProbeSwap; split
    · exact ⟨_, rfl, s.setRdu_keeps _⟩
    · exact same
  case afTimerExpiry =>
    simp only [exec_afTimerExpiry]
    unfold execAfTimerExpiry; split
    · exact ⟨_, rfl, .of_eq rfl rfl rfl rfl⟩
    · exact same
  case receptionHoldExpiry =>
    simp only [exec_receptionHoldExpiry]
    unfold execReceptionHoldExpiry; split
    · exact ⟨_, rfl, (s.setRdu_keeps _).trans (State.arbitrate_keeps _)⟩
    · exact same
  case micSwitch =>
    simp only [exec_micSwitch]
    unfold execMicSwitch; split
    · exact ⟨_, rfl, .of_eq rfl rfl rfl rfl⟩
    · exact same
  case hangTimerExpiry =>
    simp only [exec_hangTimerExpiry]
    unfold execHangTimerExpiry; split
    · exact ⟨_, rfl, .of_eq rfl rfl rfl rfl⟩
    · exact same
  case thermalDerateStep =>
    simp only [exec_thermalDerateStep]
    unfold execThermalDerateStep; dsimp only; split
    · exact ⟨_, rfl, .of_raised rfl rfl (.raiseAll _ _) rfl⟩
    · exact same
  case calmDerateStep =>
    simp only [exec_calmDerateStep]
    unfold execCalmDerateStep; dsimp only; split
    · exact ⟨_, rfl, .of_raised rfl rfl (.raiseAll _ _) rfl⟩
    · exact same
  case dcAsserted =>
    simp only [exec_dcAsserted]
    unfold execDcAsserted; dsimp only; split
    · exact ⟨_, rfl, .of_raised rfl rfl (.raiseAll _ _) rfl⟩
    · exact same
  case ocHistoryExpiry =>
    simp only [exec_ocHistoryExpiry]
    exact ⟨_, rfl, .of_eq rfl rfl rfl rfl⟩
  case faultSourceAsserted =>
    simp only [exec_faultSourceAsserted]
    exact ⟨_, rfl, .of_raised rfl rfl (.raiseAll _ _) rfl⟩
  case faultSourceDeasserted =>
    simp only [exec_faultSourceDeasserted]
    exact ⟨_, rfl, .of_eq rfl rfl rfl rfl⟩
  case sampleInstant =>
    simp only [exec_sampleInstant]
    exact ⟨_, rfl, s.reenableDue_keeps.trans (.of_eq rfl rfl rfl rfl)⟩
  case bridgeReenable =>
    simp only [exec_bridgeReenable]
    unfold execBridgeReenable; split
    · exact ⟨_, rfl, s.reenable_keeps _⟩
    · exact same
  case frontEndReport =>
    simp only [exec_frontEndReport]
    unfold execFrontEndReport; split
    · exact ⟨_, rfl, (s.setRdu_keeps _).trans (State.arbitrate_keeps _)⟩
    · exact same
  case scanPassEnd =>
    simp only [exec_scanPassEnd]
    unfold execScanPassEnd; split
    · exact ⟨_, rfl, s.setRdu_keeps _⟩
    · exact same
  case pwmPeriod =>
    simp only [exec_pwmPeriod]
    exact ⟨_, rfl, .of_raised rfl rfl (.raiseAll _ _) rfl⟩

/-! ### The special commands -/

/-- FRAME_RECEIVED: the latch or the capture changes first, and the rest keeps. -/
theorem execFrameReceived_shape (f : LineFrame) (s : State) :
    (acceptFrame s.lif.latch f = none ∧ ∃ t, exec (.frameReceived f) s = .next t ∧ t.cle = s.cle ∧
        s.cpt.RaisedFrom t.cpt ∧ t.lif = (s.lif.discard f).1 ∧ t.pending = s.pending) ∨
      (∃ b, acceptFrame s.lif.latch f = some b ∧ ∃ t, exec (.frameReceived f) s = .next t ∧
        State.Keeps { s with lif := s.lif.takeLatch f.sense } t) := by
  cases h : acceptFrame s.lif.latch f with
  | none =>
    refine Or.inl ⟨rfl, ?_⟩
    refine ⟨{ s with lif := (s.lif.discard f).1, cpt := s.cpt.raiseAll (s.lif.discard f).2 }, ?_, rfl, .raiseAll _ _, rfl, rfl⟩
    simp only [exec, execFrameReceived, h]
  | some b =>
    refine Or.inr ⟨b, rfl, ?_⟩
    refine ⟨({ s with lif := s.lif.takeLatch f.sense }.deliver (keyStation f.key) b).arbitrate, ?_,
      (State.deliver_keeps _ _ _).trans (State.arbitrate_keeps _)⟩
    simp only [exec, execFrameReceived, h]

/-- A property of every special command's next state holds when it holds for each of the eleven. -/
theorem exec_special {P : Instr → State → State → Prop} (s : State) (c : Instr) (hs : special c = true)
    (pinReset : P .pinReset s { State.reset with pending := s.pending })
    (start : ∀ t, exec .start s = .next t → P .start s t)
    (restart : ∀ t, exec .restart s = .next t → P .restart s t)
    (setConfig : ∀ i j v t, exec (.setConfig i j v) s = .next t → P (.setConfig i j v) s t)
    (scan : ∀ i t, exec (.scan i) s = .next t → P (.scan i) s t)
    (announceEnable : ∀ i t, exec (.announceEnable i) s = .next t → P (.announceEnable i) s t)
    (takeNotice : ∀ t, exec .takeNotice s = .next t → P .takeNotice s t)
    (readLineError : ∀ t, exec .readLineError s = .next t → P .readLineError s t)
    (discarded : ∀ b t, exec (.discardedTransaction b) s = .next t → P (.discardedTransaction b) s t)
    (readTransaction : ∀ n t, exec (.readTransaction n) s = .next t → P (.readTransaction n) s t)
    (frameReceived : ∀ f t, exec (.frameReceived f) s = .next t → P (.frameReceived f) s t) :
    ∀ t, exec c s = .next t → P c s t := by
  cases c <;> first
    | exact Bool.noConfusion (show false = true from hs)
    | skip
  · intro t ht; cases ht; exact pinReset
  · exact start
  · exact restart
  · exact setConfig _ _ _
  · exact scan _
  · exact announceEnable _
  · exact readLineError
  · exact takeNotice
  · exact discarded _
  · exact readTransaction _
  · exact frameReceived _

/-- What every command keeps, every step keeps. -/
theorem step_keeps {I : State → Prop} (hp : ∀ (s : State) (q : List Instr), I s → I { s with pending := q })
    (he : ∀ (c : Instr) (s t : State), I s → exec c s = .next t → I t) (s t : State) (hi : I s)
    (h : step s = .next t) : I t := by
  unfold step at h
  split at h
  · cases h; exact hi
  · exact he _ _ _ (hp _ _ hi) h

end Sys2Proof.Machine
end

