-- ==== Sys2Proof/Laws/OwnClaims.lean ====
section
/-! SUPPORT. The claim list stays good (`GoodList`) through every operation of the Claim Engine. -/

namespace Sys2Proof.Machine

open Sys2Proof

/-- A link whose claim list is good and whose queue is within its capacity. -/
structure GoodLink (own : StationNo) (k : Link) : Prop where
  list : GoodList own k.cle.claims
  queue : k.lif.queue.length ≤ Config.queueCapacity

namespace GoodLink

variable {own : StationNo} {k : Link}

/-- An operation that keeps the LIF and leaves a good list leaves a good link. -/
theorem moved {m : Link} (h : GoodLink own k) (hk : k.Keeps m) (hl : GoodList own m.cle.claims) : GoodLink own m :=
  ⟨hl, hk.lif.queue h.queue⟩

theorem same {m : Link} (h : GoodLink own k) (hk : k.Keeps m) (hl : m.cle.claims = k.cle.claims) : GoodLink own m :=
  h.moved hk (by rw [hl]; exact h.list)

theorem setClaims (h : GoodLink own k) {l : List Claim} (hl : GoodList own l) : GoodLink own (k.setClaims l) := ⟨hl, h.queue⟩

@[simp] theorem recompose_claims (k : Link) (env : Env) : (k.recompose env).cle.claims = k.cle.claims := by
  unfold Link.recompose
  split <;> rfl

theorem recompose (h : GoodLink own k) (env : Env) : GoodLink own (k.recompose env) :=
  h.same (Link.recompose_keeps _ _) (recompose_claims _ _)

theorem raise (h : GoodLink own k) (n : Notice) : GoodLink own (k.raise n) := h.same (Link.raise_keeps _ _) rfl

theorem enqueue (h : GoodLink own k) (f : ClaimFrame) (re : Bool) : GoodLink own (k.queue f re) :=
  h.same (Link.queue_keeps _ _ _) rfl

theorem enter (h : GoodLink own k) (f : ClaimFields) (st : ClaimState) (o : Origin)
    (hr : (claimsOf own k.cle.claims).length < Config.claimsPerStation)
    (hb : k.cle.claims.filter Claim.isBidding = [] ∨ (⟨⟨own, k.nextSerial own⟩, f, st, some o⟩ : Claim).isBidding = false) :
    GoodLink own ((k.setCounter (k.nextSerial own)).addOwn own (k.nextSerial own) f st o) := by
  refine h.moved ((Link.setCounter_keeps _ _).trans (Link.addOwn_keeps _ _ _ _ _ _)) ?_
  refine GoodList.insert h.list ?_ hr ?_
  · exact not_busy_claim (nextSerial_free h.queue hr.le)
  · intro e
    rcases hb with hb | hb
    · exact ⟨rfl, hb⟩
    · rw [hb] at e; cases e

theorem holdOverlay (env : Env) (h : GoodLink env.own k) (f : ClaimFields) (o : Origin)
    (hr : (claimsOf env.own k.cle.claims).length < Config.claimsPerStation) :
    GoodLink env.own (k.holdOverlay env f o) :=
  ((h.enter f .held o hr (Or.inr rfl)).enqueue _ _).recompose env

theorem abandon (h : GoodLink own k) (c : Claim) : GoodLink own (k.abandon c) := by
  refine h.moved (Link.abandon_keeps _ _) ?_
  unfold Link.abandon
  dsimp only
  split <;> exact h.list.erase _

@[simp] theorem abandon_claims (k : Link) (c : Claim) : (k.abandon c).cle.claims = eraseClaim c.name k.cle.claims := by
  unfold Link.abandon
  dsimp only
  split <;> rfl

theorem bidding_nil {l : List Claim} (h : GoodList own l) (hb : ownBidding own l = none) : l.filter Claim.isBidding = [] := by
  rw [List.filter_eq_nil_iff]
  intro c hc hbid
  have := List.find?_eq_none.mp hb c hc
  simp [h.bids c hc hbid, hbid] at this

theorem bidding_erased {l : List Claim} (h : GoodList own l) {c : Claim} (hb : ownBidding own l = some c) :
    (eraseClaim c.name l).filter Claim.isBidding = [] := by
  have hm := List.mem_of_find?_eq_some hb
  have hc : c.isBidding = true := by
    have := List.find?_some hb
    simp only [Bool.and_eq_true] at this
    exact this.2
  have hmem : c ∈ l.filter Claim.isBidding := by simp [hm, hc]
  have hone : l.filter Claim.isBidding = [c] := by
    have := h.one
    match hl : l.filter Claim.isBidding, hmem, this with
    | [a], hmem, _ => rw [List.mem_singleton] at hmem; rw [hmem]
    | a :: b :: t, _, this => simp at this
  rw [eraseClaim, List.filter_filter]
  have : l.filter (fun a => a.isBidding && (a.name != c.name)) = (l.filter Claim.isBidding).filter (fun a => a.name != c.name) := by
    rw [List.filter_filter]
    apply List.filter_congr
    intro a _
    rw [Bool.and_comm]
  rw [this, hone]
  simp

theorem startBid (env : Env) (h : GoodLink env.own k) (f : ClaimFields) (o : Origin)
    (hr : (claimsOf env.own k.cle.claims).length < Config.claimsPerStation) : GoodLink env.own (k.startBid env f o) := by
  unfold Link.startBid
  dsimp only
  split
  · rename_i c hc
    have h1 : GoodLink env.own ((k.abandon c).raise (.claimResult c.name.serial .replaced)) := (h.abandon c).raise _
    refine (h1.enter f _ o ?_ (Or.inl ?_)).enqueue _ _
    · refine lt_of_le_of_lt (List.Sublist.length_le ?_) hr
      show ((claimsOf env.own ((k.abandon c).cle.claims))).Sublist _
      rw [abandon_claims]
      exact List.Sublist.filter _ List.filter_sublist
    · show ((k.abandon c).cle.claims).filter Claim.isBidding = []
      rw [abandon_claims]
      exact bidding_erased h.list hc
  · rename_i hc
    exact (h.enter f _ o hr (Or.inl (bidding_nil h.list hc))).enqueue _ _

theorem releaseHeld (h : GoodLink own k) (env : Env) (c : Claim) : GoodLink own (k.releaseHeld env c) :=
  ((h.setClaims (h.list.erase c.name)).enqueue _ _).recompose env

theorem claimRequest (env : Env) (h : GoodLink env.own k) (a b c : Byte) (r : Option Byte) :
    GoodLink env.own (k.claimRequest env a b c r).2.2 := by
  unfold Link.claimRequest
  split
  · exact h
  · split
    · exact h
    · split
      · split
        · exact h
        · split
          · exact h
          · exact startBid env h _ _ (by omega)
      · split
        · exact h
        · exact holdOverlay env h _ _ (by omega)

theorem releaseRequest (h : GoodLink own k) (env : Env) (s : Serial) : GoodLink own (k.releaseRequest env s).2 := by
  unfold Link.releaseRequest
  split
  · exact h
  · split
    · exact h
    · split
      · exact h
      · split
        · exact h.abandon _
        · exact h.releaseHeld env _

theorem placeAnnounce (env : Env) (h : GoodLink env.own k) (z : ZoneSet) (r : Option StreamNo) :
    GoodLink env.own (k.placeAnnounce env z r).2 := by
  unfold Link.placeAnnounce
  split
  · rename_i hc; exact holdOverlay env h _ _ hc.2
  · exact h

theorem endAnnounce (h : GoodLink own k) (env : Env) (s : Serial) : GoodLink own (k.endAnnounce env s) := by
  unfold Link.endAnnounce
  split
  · exact h
  · exact h.releaseHeld env _

theorem clearLinks_good {l : List Claim} (h : GoodList own l) (o : StationNo) (p : Claim → Bool) :
    GoodList own (clearLinks o p l) := by
  refine h.map (fun c => ?_) (fun c => ?_)
  · split
    · split <;> exact ⟨rfl, rfl⟩
    · exact ⟨rfl, rfl⟩
  · split
    · rename_i hb
      intro _
      simp [Claim.isBidding, hb]
    · exact id

theorem foldl {α : Type} {f : Link → α → Link} (hf : ∀ (k : Link) (a : α), GoodLink own k → GoodLink own (f k a))
    (l : List α) (h : GoodLink own k) : GoodLink own (l.foldl f k) := by
  induction l generalizing k with
  | nil => exact h
  | cons a l ih => exact ih (hf k a h)

theorem meetBid (h : GoodLink own k) (env : Env) (b : Claim) : GoodLink own (k.meetBid env b) :=
  foldl (fun _ _ h => h.enqueue _ _) _ (h.setClaims (clearLinks_good h.list _ _))

theorem settleOne (h : GoodLink own k) (env : Env) (x c : Claim) : GoodLink own (Link.settleOne env x k c) := by
  unfold Link.settleOne
  split
  · exact (((h.setClaims (h.list.erase c.name)).enqueue _ _).raise _).recompose env
  · exact h.enqueue _ _

theorem meetHold (h : GoodLink own k) (env : Env) (x : Claim) : GoodLink own (k.meetHold env x) :=
  foldl (fun _ c h => h.settleOne env x c) _ (h.setClaims (clearLinks_good h.list _ _))

theorem appear (h : GoodLink own k) (p : StationNo) : GoodLink own (k.appear p) := by
  refine h.same (Link.appear_keeps _ _) ?_
  unfold Link.appear
  split <;> rfl

/-- What making room by eviction leaves: part of the list, and one entry fewer of that station. -/
theorem evictOldest_sublist {p : StationNo} {skip : Claim → Bool} {l m : List Claim} (h : evictOldest p skip l = some m) :
    m.Sublist l := by
  unfold evictOldest at h
  split at h
  · cases h
  · exact removeFirst_sublist h

theorem removeFirst_filter {p q : Claim → Bool} {l m : List Claim} (h : removeFirst p l = some m)
    (hpq : ∀ c, p c = true → q c = true) : (m.filter q).length + 1 = (l.filter q).length := by
  induction l generalizing m with
  | nil => simp [removeFirst] at h
  | cons a l ih =>
    rw [removeFirst] at h
    split at h
    · rename_i hp
      cases h
      simp [hpq a hp]
    · cases hr : removeFirst p l with
      | none => simp [hr] at h
      | some r =>
        simp only [hr, Option.map_some, Option.some.injEq] at h
        subst h
        have := ih hr
        simp only [List.filter_cons]
        split <;> simp_all

theorem evictOldest_length {p : StationNo} {skip : Claim → Bool} {l m : List Claim} (h : evictOldest p skip l = some m) :
    ((claimsOf p m).filter (fun c => !skip c)).length + 1 = ((claimsOf p l).filter (fun c => !skip c)).length := by
  unfold evictOldest at h
  split at h
  · cases h
  · simp only [claimsOf, List.filter_filter]
    refine removeFirst_filter h (fun c hc => ?_)
    simp only [Bool.and_eq_true] at hc ⊢
    exact ⟨hc.2, hc.1.1⟩

theorem evictOldest_room {p : StationNo} {l m : List Claim} (h : evictOldest p (fun _ => false) l = some m) :
    (claimsOf p m).length + 1 = (claimsOf p l).length := by
  have := evictOldest_length h
  simpa using this

theorem addHeard_good {l : List Claim} (h : GoodList own l) {c : Claim} (hn : c.name ∉ l.map Claim.name)
    (hb : c.isBidding = false) : GoodList own (addHeard c l) := by
  unfold addHeard
  split
  · rename_i hr
    exact h.insert hn hr (fun e => by rw [hb] at e; cases e)
  · split
    · rename_i m hm
      have hs := evictOldest_sublist hm
      refine (h.sublist hs).insert (fun x => hn ((hs.map _).subset x)) ?_ (fun e => by rw [hb] at e; cases e)
      have h1 := evictOldest_room hm
      have h2 := h.four c.name.station
      omega
    · exact h

theorem present {l : List Claim} {n : ClaimRef} {d : Claim} (h : findClaim n l = some d) : n ∈ l.map Claim.name :=
  List.mem_map.mpr ⟨d, (findClaim_some h).1, (findClaim_some h).2⟩

theorem bidHeard_good {l : List Claim} (h : GoodList own l) {c : Claim} (hb : c.isBidding = false) :
    GoodList own (bidHeard c l) := by
  unfold bidHeard
  split
  · rename_i hn; exact addHeard_good h (findClaim_none hn) hb
  · rename_i d hd
    split
    · exact h
    · exact h.update hb (fun hn => absurd (present hd) hn)

theorem holdHeard_good {l : List Claim} (h : GoodList own l) {c : Claim} (hb : c.isBidding = false) :
    GoodList own (holdHeard c l) := by
  unfold holdHeard
  split
  · rename_i hn; exact addHeard_good h (findClaim_none hn) hb
  · rename_i d hd
    exact h.update hb (fun hn => absurd (present hd) hn)

theorem hearBid (h : GoodLink own k) (env : Env) (p : StationNo) (s : Serial) (f : ClaimFields) :
    GoodLink own (k.hearBid env p s f) :=
  ((h.appear p).setClaims (bidHeard_good (h.appear p).list rfl)).meetBid env _

theorem hearHold (h : GoodLink own k) (env : Env) (p : StationNo) (s : Serial) (f : ClaimFields) :
    GoodLink own (k.hearHold env p s f) :=
  ((h.appear p).setClaims (holdHeard_good (h.appear p).list rfl)).meetHold env _

theorem hearRelease (h : GoodLink own k) (p : StationNo) (s : Serial) : GoodLink own (k.hearRelease p s) := by
  unfold Link.hearRelease
  split
  · exact h
  · exact h.setClaims (h.list.erase _)

theorem peerTaken (h : GoodLink own k) (p : StationNo) (f : PresenceFrame) : GoodLink own (k.peerTaken p f) := by
  refine h.same (Link.peerTaken_keeps _ _ _) ?_
  unfold Link.peerTaken
  dsimp only
  split
  · rfl
  · split <;> rfl

/-! ### Presence (R33) -/

/-- How many entries of a station a presence does not list. -/
def unlisted (p : StationNo) (listed : Claim → Bool) (l : List Claim) : Nat :=
  ((claimsOf p l).filter (fun c => !listed c)).length

theorem makeRoom_sublist (p : StationNo) (listed : Claim → Bool) (n fuel : Nat) (l : List Claim) :
    (makeRoom p listed n fuel l).Sublist l := by
  induction fuel generalizing l with
  | zero => exact .refl l
  | succ k ih =>
    rw [makeRoom]
    split
    · exact .refl l
    · split
      · rename_i m hm
        exact (ih m).trans (evictOldest_sublist hm)
      · exact .refl l

/-- Where every entry not listed is a heard bid, one of them can be evicted. -/
theorem evictOldest_some {p : StationNo} {listed : Claim → Bool} {l : List Claim}
    (hh : ∀ c ∈ claimsOf p l, listed c = false → c.heardAge.isSome = true) (hu : 0 < unlisted p listed l) :
    ∃ m, evictOldest p listed l = some m := by
  unfold evictOldest
  obtain ⟨c, hc⟩ := List.exists_mem_of_length_pos hu
  simp only [List.mem_filter, claimsOf, Bool.not_eq_true'] at hc
  have hage := hh c (by simp [claimsOf, hc.1]) hc.2
  obtain ⟨a, ha⟩ := Option.isSome_iff_exists.mp hage
  have hmem : a ∈ (claimsOf p (l.filter (fun c => !listed c))).filterMap Claim.heardAge := by
    rw [List.mem_filterMap]
    exact ⟨c, by simp [claimsOf, hc.1.1, hc.1.2, hc.2], ha⟩
  cases hm : greatestAge p (l.filter (fun c => !listed c)) with
  | none =>
    rw [greatestAge, List.max?_eq_none_iff] at hm
    rw [hm] at hmem
    cases hmem
  | some b =>
    have hb : b ∈ (claimsOf p (l.filter (fun c => !listed c))).filterMap Claim.heardAge := List.max?_mem hm
    obtain ⟨d, hd, hda⟩ := List.mem_filterMap.mp hb
    simp only [claimsOf, List.mem_filter, Bool.not_eq_true'] at hd
    have hst : d.state = .heard b := by
      unfold Claim.heardAge at hda
      split at hda
      · rename_i x hx
        cases hda
        exact hx
      · cases hda
    have key : ∀ (l : List Claim), d ∈ l → ∃ m, removeFirst (fun c => c.name.station == p && c.state == .heard b && !listed c) l = some m := by
      intro l
      induction l with
      | nil => intro h; cases h
      | cons e l ih =>
        intro h
        rw [removeFirst]
        split
        · exact ⟨l, rfl⟩
        · rename_i hne
          rcases List.mem_cons.mp h with rfl | h
          · simp [hst, hd.1.2, hd.2] at hne
          · obtain ⟨m, hm⟩ := ih h
            exact ⟨e :: m, by rw [hm]; rfl⟩
    exact key l hd.1.1

theorem makeRoom_room {p : StationNo} {listed : Claim → Bool} {n : Nat} (hn : n ≤ Config.claimsPerStation) (fuel : Nat)
    (l : List Claim) (hh : ∀ c ∈ claimsOf p l, listed c = false → c.heardAge.isSome = true)
    (hf : unlisted p listed l ≤ fuel) : n + unlisted p listed (makeRoom p listed n fuel l) ≤ Config.claimsPerStation := by
  induction fuel generalizing l with
  | zero => rw [makeRoom]; omega
  | succ k ih =>
    rw [makeRoom]
    split
    · assumption
    · rename_i hgt
      have hu : 0 < unlisted p listed l := by unfold unlisted; omega
      obtain ⟨m, hm⟩ := evictOldest_some hh hu
      simp only [hm]
      have hlen := evictOldest_length hm
      have hs := evictOldest_sublist hm
      refine ih m (fun c hc => hh c ((hs.filter _).subset hc)) ?_
      unfold unlisted at hf ⊢
      omega

theorem updateClaim_unlisted {p : StationNo} {listed : Claim → Bool} {c : Claim} (l : List Claim)
    (hl : ∀ d : Claim, d.name = c.name → listed d = true) :
    unlisted p listed (updateClaim c l) = unlisted p listed l := by
  have hc := hl c rfl
  have hins : ∀ m : List Claim, unlisted p listed (insertByKey c m) = unlisted p listed m := by
    intro m
    unfold unlisted claimsOf
    rw [List.filter_filter, ((insertByKey_perm c m).filter _).length_eq, List.filter_cons, List.filter_filter]
    simp [hc]
  have her : unlisted p listed (eraseClaim c.name l) = unlisted p listed l := by
    unfold unlisted claimsOf eraseClaim
    rw [List.filter_filter, List.filter_filter, List.filter_filter]
    congr 1
    apply List.filter_congr
    intro d _
    by_cases e : d.name = c.name
    · simp [hl d e]
    · simp [e]
  unfold updateClaim
  split
  · exact hins l
  · split
    · unfold unlisted claimsOf
      rw [List.filter_filter, List.filter_map, List.length_map, List.filter_filter]
      congr 1
      apply List.filter_congr
      intro d _
      simp only [Function.comp_apply]
      split
      · rename_i e
        simp [hl d e, hc]
      · rfl
    · rw [hins, her]

/-- The entries of a station are those listed and those not. -/
theorem claimsOf_split (p : StationNo) (listed : Claim → Bool) (l : List Claim) :
    (claimsOf p l).length = ((claimsOf p l).filter listed).length + unlisted p listed l := by
  unfold unlisted
  induction claimsOf p l with
  | nil => rfl
  | cons a l ih =>
    cases h : listed a <;> simp [h] <;> omega

/-- A listed serial that has no entry leaves room for one. -/
theorem listed_room {own : StationNo} {p : StationNo} {l : List Claim} {serials : List Serial} {s : Serial}
    (h : GoodList own l) (hs : s ∈ serials) (hn : (⟨p, s⟩ : ClaimRef) ∉ l.map Claim.name) :
    ((claimsOf p l).filter (fun c => serials.contains c.name.serial)).length < serials.length := by
  have hnd : (((claimsOf p l).filter (fun c => serials.contains c.name.serial)).map (fun c => c.name.serial)).Nodup := by
    have h1 : (((claimsOf p l).filter (fun c => serials.contains c.name.serial)).map Claim.name).Nodup :=
      h.names.sublist ((List.filter_sublist.trans List.filter_sublist).map _)
    rw [List.nodup_map_iff_inj_on (List.Nodup.of_map _ h1)]
    intro a ha b hb e
    have h2 := List.inj_on_of_nodup_map h1 ha hb
    apply h2
    simp only [claimsOf, List.mem_filter, beq_iff_eq] at ha hb
    have e1 : a.name.station = b.name.station := ha.1.2.trans hb.1.2.symm
    cases ha' : a.name; cases hb' : b.name
    rw [ha', hb'] at e1 e
    simp only at e1 e
    subst e1; subst e; rfl
  have hsub : (s :: ((claimsOf p l).filter (fun c => serials.contains c.name.serial)).map (fun c => c.name.serial)).Subperm serials := by
    refine List.Nodup.subperm (List.nodup_cons.mpr ⟨?_, hnd⟩) ?_
    · intro hm
      obtain ⟨c, hc, e⟩ := List.mem_map.mp hm
      simp only [claimsOf, List.mem_filter, beq_iff_eq] at hc
      apply hn
      refine List.mem_map.mpr ⟨c, hc.1.1, ?_⟩
      cases hc' : c.name
      rw [hc'] at e hc
      simp only at e hc
      rw [e, hc.1.2]
    · intro x hx
      rcases List.mem_cons.mp hx with rfl | hx
      · exact hs
      · obtain ⟨c, hc, rfl⟩ := List.mem_map.mp hx
        have := (List.mem_filter.mp hc).2
        simpa using this
  have := hsub.length_le
  simp only [List.length_cons, List.length_map] at this
  omega

theorem eraseDups_length (l : List Serial) : l.eraseDups.length ≤ l.length := by
  induction hn : l.length using Nat.strong_induction_on generalizing l with
  | _ n ih =>
    cases l with
    | nil => simp
    | cons a l =>
      rw [List.eraseDups_cons]
      have hf := List.length_filter_le (fun b => !b == a) l
      simp only [List.length_cons] at hn ⊢
      have := ih _ (by omega) (l.filter (fun b => !b == a)) rfl
      omega

theorem presenceFold {own p : StationNo} {serials : List Serial} (held : List HeldEntry)
    (hsub : ∀ e ∈ held, e.serial ∈ serials) (l : List Claim) (h : GoodList own l)
    (hr : serials.length + unlisted p (fun c => serials.contains c.name.serial) l ≤ Config.claimsPerStation) :
    GoodList own (held.foldl (fun acc e => updateClaim ⟨⟨p, e.serial⟩, e.fields, .held, none⟩ acc) l) := by
  induction held generalizing l with
  | nil => exact h
  | cons e held ih =>
    have hes := hsub e List.mem_cons_self
    refine ih (fun x hx => hsub x (List.mem_cons_of_mem _ hx)) _ (h.update rfl (fun hn => ?_)) ?_
    · have h1 := listed_room h hes hn
      have h2 := claimsOf_split p (fun c => serials.contains c.name.serial) l
      dsimp only at h2 ⊢
      omega
    · rw [updateClaim_unlisted]
      · exact hr
      · intro d hd
        rw [hd]
        simpa using hes

/-- Of a peer's entries that a presence leaves to the bound, those it does not list are heard bids. -/
theorem unlisted_heard {own p : StationNo} {l : List Claim} (h : ∀ c ∈ l, c.isBidding = true → c.name.station = own)
    (hp : p ≠ own) (listed : Claim → Bool)
    {c : Claim} (hc : c ∈ claimsOf p (l.filter (fun c => c.name.station != p || !c.isHeld || listed c)))
    (hli : listed c = false) : c.heardAge.isSome = true := by
  simp only [claimsOf, List.mem_filter, beq_iff_eq] at hc
  have hnb : c.isBidding = false := by
    by_contra hb
    exact hp (hc.2 ▸ h c hc.1.1 (by simpa using hb))
  have hnh : c.isHeld = false := by
    have := hc.1.2
    rw [hli] at this
    simpa [hc.2] using this
  cases hst : c.state with
  | held => simp [Claim.isHeld, hst] at hnh
  | heard a => simp [Claim.heardAge, hst]
  | bidding x y => simp [Claim.isBidding, hst] at hnb

/-- An update leaves an entry of another name in the list. -/
theorem mem_updateClaim {c x : Claim} {l : List Claim} (hx : x ∈ l) (hn : x.name ≠ c.name) : x ∈ updateClaim c l := by
  have hins : ∀ m : List Claim, x ∈ m → x ∈ insertByKey c m := fun m hm =>
    (insertByKey_perm c m).mem_iff.mpr (List.mem_cons_of_mem _ hm)
  unfold updateClaim
  split
  · exact hins l hx
  · split
    · exact List.mem_map.mpr ⟨x, hx, by simp [hn]⟩
    · exact hins _ (List.mem_filter.mpr ⟨hx, by simpa using hn⟩)

/-- A presence keeps the peer's unlisted heard bids where they fit beside what it lists (R33). -/
theorem presenceClaims_keeps {own p : StationNo} {held : List HeldEntry} {l : List Claim}
    (h : ∀ c ∈ l, c.isBidding = true → c.name.station = own) (hp : p ≠ own)
    (hroom : (held.map HeldEntry.serial).eraseDups.length + (l.filter (fun c =>
      c.name.station == p && c.heardAge.isSome && !held.any (fun e => e.serial == c.name.serial))).length ≤ 4)
    {x : Claim} (hx : x ∈ l) (ha : x.heardAge.isSome = true)
    (hu : ∀ e ∈ held, e.serial ≠ x.name.serial) : x ∈ presenceClaims p held l := by
  let listed : Claim → Bool := fun c => (held.map HeldEntry.serial).eraseDups.contains c.name.serial
  have hlisted : ∀ c : Claim, listed c = held.any (fun e => e.serial == c.name.serial) := by
    intro c
    rw [Bool.eq_iff_iff]
    simp [listed, List.mem_eraseDups]
  let kept := l.filter (fun c => c.name.station != p || !c.isHeld || listed c)
  have hsub : ((claimsOf p kept).filter (fun c => !listed c)).Sublist (l.filter (fun c =>
      c.name.station == p && c.heardAge.isSome && !held.any (fun e => e.serial == c.name.serial))) := by
    have hall : ∀ c ∈ (claimsOf p kept).filter (fun c => !listed c),
        (c.name.station == p && c.heardAge.isSome && !held.any (fun e => e.serial == c.name.serial)) = true := by
      intro c hc
      obtain ⟨hc, hl⟩ := List.mem_filter.mp hc
      rw [Bool.not_eq_true'] at hl
      rw [(List.mem_filter.mp hc).2, unlisted_heard h hp listed hc hl, ← hlisted c, hl]
      rfl
    rw [← List.filter_eq_self.mpr hall]
    exact (List.filter_sublist.trans (List.filter_sublist.trans List.filter_sublist)).filter _
  have hfit : (held.map HeldEntry.serial).eraseDups.length + unlisted p listed kept ≤ 4 :=
    le_trans (Nat.add_le_add_left hsub.length_le _) hroom
  have hfold : ∀ (es : List HeldEntry) (m : List Claim), (∀ e ∈ es, e.serial ≠ x.name.serial) → x ∈ m →
      x ∈ es.foldl (fun acc e => updateClaim ⟨⟨p, e.serial⟩, e.fields, .held, none⟩ acc) m := by
    intro es
    induction es with
    | nil => exact fun _ _ hm => hm
    | cons e es ih =>
      intro m hes hm
      refine ih _ (fun d hd => hes d (List.mem_cons_of_mem _ hd)) (mem_updateClaim hm ?_)
      exact fun he => hes e List.mem_cons_self (congrArg ClaimRef.serial he).symm
  have hxkept : x ∈ kept := by
    refine List.mem_filter.mpr ⟨hx, ?_⟩
    cases hst : x.state with
    | held => simp [Claim.heardAge, hst] at ha
    | heard a => simp [Claim.isHeld, hst]
    | bidding a b => simp [Claim.heardAge, hst] at ha
  refine hfold held _ hu ?_
  rw [show Config.claimsPerStation = 3 + 1 from rfl, makeRoom]
  split
  · exact hxkept
  · exact absurd hfit ‹_›

theorem presenceClaims_good {own p : StationNo} {held : List HeldEntry} {l : List Claim} (h : GoodList own l)
    (hp : p ≠ own) (hh : held.length ≤ 4) : GoodList own (presenceClaims p held l) := by
  unfold presenceClaims
  dsimp only
  set serials := (held.map HeldEntry.serial).eraseDups with hser
  have hlen : serials.length ≤ Config.claimsPerStation := by
    have : serials.length ≤ (held.map HeldEntry.serial).length := by rw [hser]; exact eraseDups_length _
    simp only [List.length_map] at this
    exact this.trans hh
  set listed : Claim → Bool := fun c => serials.contains c.name.serial with hlisted
  set l1 := l.filter (fun c => c.name.station != p || !c.isHeld || listed c) with hl1
  have g1 : GoodList own l1 := h.filter _
  have hheard : ∀ c ∈ claimsOf p l1, listed c = false → c.heardAge.isSome = true :=
    fun _ hc hli => unlisted_heard h.bids hp listed hc hli
  have hroom := makeRoom_room (p := p) (listed := listed) hlen Config.claimsPerStation l1 hheard
    ((List.length_filter_le _ _).trans (g1.four p))
  refine presenceFold held (fun e he => ?_) _ (g1.sublist (makeRoom_sublist _ _ _ _ _)) hroom
  rw [hser, List.mem_eraseDups]
  exact List.mem_map.mpr ⟨e, he, rfl⟩

theorem markAll_claims (c : Cle) (l : List PubEntry) : (c.markAll l).claims = c.claims := by
  unfold Cle.markAll
  induction l generalizing c with
  | nil => rfl
  | cons e l ih => rw [List.foldl_cons, ih]; rfl

theorem hearPresence (h : GoodLink own k) (env : Env) {p : StationNo} {f : PresenceFrame} (hp : p ≠ own)
    (hf : f.held.length ≤ 4) : GoodLink own (k.hearPresence env p f) := by
  refine foldl (fun _ _ h => h.meetHold env _) _ ?_
  exact ⟨presenceClaims_good (h.peerTaken p f).list hp hf, (h.peerTaken p f).queue⟩

/-! ### Completion, window, ageing, isolation -/

theorem setClaimState_good {l : List Claim} (h : GoodList own l) (n : ClaimRef) (st : ClaimState)
    (hb : ∀ c ∈ l, c.name = n → c.isBidding = true) : GoodList own (setClaimState n st l) := by
  let f : Claim → Claim := fun c => if c.name = n ∧ c.isBidding = true then { c with state := st } else c
  have hl : setClaimState n st l = l.map f := by
    unfold setClaimState
    apply List.map_congr_left
    intro c hc
    by_cases e : c.name = n
    · simp [f, e, hb c hc e]
    · simp [f, e]
  rw [hl]
  refine h.map (fun c => ?_) (fun c => ?_)
  · dsimp only [f]; split <;> exact ⟨rfl, rfl⟩
  · dsimp only [f]
    split
    · rename_i e; exact fun _ => e.2
    · exact id

/-- The entry of the own bid is the only one of its name. -/
theorem bid_only {l : List Claim} (h : GoodList own l) {o : StationNo} {c : Claim} (hb : ownBidding o l = some c) :
    ∀ d ∈ l, d.name = c.name → d.isBidding = true := by
  have hm := List.mem_of_find?_eq_some hb
  have hc : c.isBidding = true := by
    have := List.find?_some hb
    simp only [Bool.and_eq_true] at this
    exact this.2
  intro d hd e
  have := List.inj_on_of_nodup_map h.names hd hm e
  rw [this]; exact hc

theorem claimCompleted (h : GoodLink own k) (env : Env) (f : ClaimFrame) : GoodLink own (k.claimCompleted env f) := by
  unfold Link.claimCompleted
  split
  · split
    · rename_i c hc
      split
      · split
        · exact h.setClaims (setClaimState_good h.list _ _ (bid_only h.list hc))
        · exact h
      · exact h.enqueue _ _
    · exact h.enqueue _ _
  · exact h
  · exact h

theorem expireWindow (h : GoodLink own k) (env : Env) {c : Claim} (hc : ownBidding env.own k.cle.claims = some c)
    (b : Bool) : GoodLink own (k.expireWindow env c b) := by
  unfold Link.expireWindow
  split
  · exact (((h.setClaims (setClaimState_good h.list _ _ (bid_only h.list hc))).enqueue _ _).raise _).recompose env
  · exact (h.setClaims (h.list.erase _)).raise _

theorem tickWindow (h : GoodLink own k) (env : Env) : GoodLink own (k.tickWindow env) := by
  unfold Link.tickWindow
  split
  · exact h
  · rename_i c hc
    split
    · split
      · exact h.setClaims (setClaimState_good h.list _ _ (bid_only h.list hc))
      · exact h.expireWindow env hc _
    · exact h

theorem ageBids_good {l : List Claim} (h : GoodList own l) : GoodList own (ageBids l) := by
  let older : Claim → Claim := fun c =>
    match c.state with
    | .heard a => { c with state := .heard (a + 1) }
    | _ => c
  let young : Claim → Bool := fun c =>
    match c.state with
    | .heard a => decide (a + 1 < Config.bidAgeEnd)
    | _ => true
  have hl : ageBids l = (l.filter young).map older := by
    unfold ageBids
    induction l with
    | nil => rfl
    | cons c l ih =>
      have ih := ih (h.sublist (List.sublist_cons_self _ _))
      rw [List.filterMap_cons, List.filter_cons]
      cases hs : c.state with
      | held => simp [young, older, hs, ih]
      | bidding x y => simp [young, older, hs, ih]
      | heard a =>
        by_cases e : a + 1 < Config.bidAgeEnd
        · simp [young, older, hs, ih, e]
        · simp [young, hs, ih, e]
  rw [hl]
  refine (h.filter _).map (fun c => ?_) (fun c => ?_)
  · dsimp only [older]; split <;> exact ⟨rfl, rfl⟩
  · dsimp only [older]
    split
    · intro e; cases e
    · exact id

theorem expirePeer (h : GoodLink own k) (p : StationNo) : GoodLink own (k.expirePeer p) :=
  h.moved (Link.expirePeer_keeps _ _) (h.list.filter _)

theorem tickCadence (h : GoodLink own k) (env : Env) : GoodLink own (k.tickCadence env) := by
  refine h.same (Link.tickCadence_keeps _ _) ?_
  unfold Link.tickCadence
  split
  · rfl
  · dsimp only
    split <;> rfl
  all_goals
    dsimp only
    split <;> rfl

theorem abandonAtIsolation (h : GoodLink own k) (env : Env) : GoodLink own (k.abandonAtIsolation env) := by
  unfold Link.abandonAtIsolation
  split
  · exact h
  · split
    · split
      · exact h
      · exact (h.abandon _).raise _
    · exact h

theorem isolate (h : GoodLink own k) (env : Env) (c : IsolationCause) : GoodLink own (k.isolate env c) := by
  have h1 : GoodLink own { k with lif := k.lif.isolate, cle := { k.cle with lifecycle := .isolated, presenceCount := 0 } } :=
    ⟨h.list, h.queue⟩
  exact (h1.abandonAtIsolation env).raise _

theorem setLif (h : GoodLink own k) {l : Lif} (hl : k.lif.Keeps l) : GoodLink own { k with lif := l } :=
  ⟨h.list, hl.queue h.queue⟩

theorem attemptLost (h : GoodLink own k) (env : Env) (f : Flight) : GoodLink own (k.attemptLost env f) := by
  unfold Link.attemptLost
  dsimp only
  split
  · exact (h.setLif (Lif.attemptEnded_keeps _ _ _ _)).abandonAtIsolation env
  · exact h.setLif (Lif.attemptEnded_keeps _ _ _ _)

theorem attemptBitError (h : GoodLink own k) (env : Env) (f : Flight) : GoodLink own (k.attemptBitError env f) := by
  have h1 := h.setLif (Lif.setRun_keeps _ _ (bitErrorRunAfter k.cle.lifecycle k.lif.bitErrorRun .bitError)
    (Lif.attemptEnded_keeps k.lif k.cle.lifecycle f .bitError))
  unfold Link.attemptBitError
  dsimp only
  split
  · exact h1.abandonAtIsolation env
  · split
    · exact h1
    · exact h1.isolate env _
  · exact h1
  · exact h1

theorem attemptCompleted (h : GoodLink own k) (env : Env) (f : Flight) : GoodLink own (k.attemptCompleted env f) := by
  have h1 := h.setLif (Lif.setRun_keeps _ _ 0 (Lif.attemptEnded_keeps k.lif k.cle.lifecycle f .completed))
  unfold Link.attemptCompleted
  dsimp only
  split
  · exact h1
  · split
    · exact h1.claimCompleted env _
    · exact h1
    · split
      · exact ⟨h1.list, h1.queue⟩
      · exact h1

theorem checkNoIdle (h : GoodLink own k) (env : Env) : GoodLink own (k.checkNoIdle env) := by
  unfold Link.checkNoIdle
  split
  · dsimp only
    split
    · exact ⟨h.list, h.queue⟩
    · exact (h.setLif (l := { k.lif with noIdle := k.lif.noIdleAfter, idleSeen := false }) (.of_eq rfl rfl rfl rfl)).isolate env _
  · exact h

end GoodLink

end Sys2Proof.Machine
end

