-- ==== Sys2Proof/Laws/Published.lean ====
section
/-! SUPPORT. What the Publisher's work at a block boundary does, slot by slot, and that the work after it leaves the slots,
the sound slots, the private marks and the call-loss table as it left them. -/

namespace Sys2Proof.Machine

open Sys2Proof

/-! ### The Claim Engine's work leaves the sound slots and the private marks -/

/-- What work of the Claim Engine outside JOINING leaves of the Publisher's. -/
structure Link.KeepsPub (k m : Link) : Prop where
  sound : m.lif.sound = k.lif.sound
  marks : m.cle.marks = k.cle.marks
  life : k.cle.lifecycle ≠ .joining → m.cle.lifecycle = k.cle.lifecycle

theorem Link.KeepsPub.refl (k : Link) : k.KeepsPub k := ⟨rfl, rfl, fun _ => rfl⟩
theorem Link.KeepsPub.trans {k m n : Link} (h : k.KeepsPub m) (g : m.KeepsPub n) : k.KeepsPub n :=
  ⟨g.sound.trans h.sound, g.marks.trans h.marks, fun j => (g.life (by rw [h.life j]; exact j)).trans (h.life j)⟩

theorem Lif.append_sound (l : Lif) (f r) : (l.append f r).sound = l.sound := by
  unfold Lif.append; split; rfl; split; rfl; split; rfl; split; split <;> rfl; rfl
theorem Lif.addClaim_sound (l : Lif) (f r) : (l.addClaim f r).sound = l.sound := by
  unfold Lif.addClaim
  split
  · split
    · split <;> rfl
    · split; rfl; exact append_sound _ _ _
  · split; rfl; exact append_sound _ _ _

theorem Link.queue_keepsPub (k : Link) (f : ClaimFrame) (r : Bool) : k.KeepsPub (k.queue f r) := ⟨Lif.addClaim_sound _ _ _, rfl, fun _ => rfl⟩
theorem Link.recompose_keepsPub (k : Link) (e) : k.KeepsPub (k.recompose e) := by
  unfold Link.recompose; split; exact ⟨rfl, rfl, fun _ => rfl⟩; exact .refl _
theorem Link.holdOverlay_keepsPub (k : Link) (e f o) : k.KeepsPub (k.holdOverlay e f o) :=
  Link.KeepsPub.trans (m := ((k.setCounter (k.nextSerial e.own)).addOwn e.own (k.nextSerial e.own) f .held o)) ⟨rfl, rfl, fun _ => rfl⟩
   ((queue_keepsPub _ _ _).trans (recompose_keepsPub _ _))
theorem Link.releaseHeld_keepsPub (k : Link) (e c) : k.KeepsPub (k.releaseHeld e c) :=
  Link.KeepsPub.trans (m := k.setClaims (eraseClaim c.name k.cle.claims)) ⟨rfl, rfl, fun _ => rfl⟩ ((queue_keepsPub _ _ _).trans (recompose_keepsPub _ _))
theorem Link.endAnnounce_keepsPub (k : Link) (e s) : k.KeepsPub (k.endAnnounce e s) := by
  unfold Link.endAnnounce; split; exact .refl _; exact releaseHeld_keepsPub _ _ _
theorem Link.placeAnnounce_keepsPub (k : Link) (e z r) : k.KeepsPub (k.placeAnnounce e z r).2 := by
  unfold Link.placeAnnounce; split; exact holdOverlay_keepsPub _ _ _ _; exact .refl _
theorem Link.tickWindow_keepsPub (k : Link) (e) : k.KeepsPub (k.tickWindow e) := by
  unfold Link.tickWindow
  split
  · exact .refl _
  · split
    · split
      · exact ⟨rfl, rfl, fun _ => rfl⟩
      · unfold Link.expireWindow
        split
        · rename_i c _ _ _ _ _ _ _
          exact Link.KeepsPub.trans (m := k.setClaims (setClaimState c.name .held k.cle.claims)) ⟨rfl, rfl, fun _ => rfl⟩ ((queue_keepsPub _ (.hold c.name.serial c.fields) _).trans (Link.KeepsPub.trans (m := (Link.raise ((k.setClaims (setClaimState c.name ClaimState.held k.cle.claims)).queue (.hold c.name.serial c.fields)) (.claimResult c.name.serial .won))) ⟨rfl, rfl, fun _ => rfl⟩ (recompose_keepsPub _ _)))
        · exact ⟨rfl, rfl, fun _ => rfl⟩
    · exact .refl _
theorem Link.tickCadence_keepsPub (k : Link) (e) : k.KeepsPub (k.tickCadence e) := by
  unfold Link.tickCadence
  split
  · exact .refl _
  · rename_i h
    dsimp only
    split
    · exact ⟨rfl, rfl, fun j => absurd h j⟩
    · exact ⟨rfl, rfl, fun j => absurd h j⟩
  all_goals
    dsimp only
    split
    · exact ⟨rfl, rfl, fun j => rfl⟩
    · exact ⟨rfl, rfl, fun j => rfl⟩

/-- What the work of a boundary after the Publisher leaves of the Publisher's. -/
structure State.KeepsPub (s t : State) : Prop where
  slots : t.pub.slots = s.pub.slots
  loss : t.iku.callLoss = s.iku.callLoss
  link : s.link.KeepsPub t.link
theorem State.KeepsPub.refl (s : State) : s.KeepsPub s := ⟨rfl, rfl, .refl _⟩
theorem State.KeepsPub.trans {k m n : State} (h : k.KeepsPub m) (g : m.KeepsPub n) : k.KeepsPub n :=
  ⟨g.slots.trans h.slots, g.loss.trans h.loss, h.link.trans g.link⟩

theorem State.rduEffect_keepsPub (s : State) (e : RduEffect) : s.KeepsPub (s.rduEffect e) := by
  cases e with
  | notice n => exact ⟨rfl, rfl, ⟨rfl, rfl, fun _ => rfl⟩⟩
  | announceStart =>
    refine ⟨?_, ?_, ?_⟩
    · simp only [State.rduEffect, State.announceStart]; split <;> rfl
    · simp only [State.rduEffect]; rw [announceStart_iku]
    · simp only [State.rduEffect, State.announceStart]
      have h := Link.placeAnnounce_keepsPub ({ s with pub := s.pub.setRadioClass true } : State).link ({ s with pub := s.pub.setRadioClass true } : State).env s.cpt.store.announceZones ({ s with pub := s.pub.setRadioClass true } : State).announceRef
      split <;> exact ⟨h.sound, h.marks, h.life⟩
  | announceEnd c a =>
    refine ⟨?_, ?_, ?_⟩
    · simp only [State.rduEffect, State.announceEnd]; split <;> rfl
    · simp only [State.rduEffect]; rw [announceEnd_iku]
    · simp only [State.rduEffect, State.announceEnd]
      split
      · rename_i n; have h := Link.endAnnounce_keepsPub ({ s with pub := s.pub.setRadioClass false } : State).link ({ s with pub := s.pub.setRadioClass false } : State).env n
        exact ⟨h.sound, h.marks, h.life⟩
      · exact ⟨rfl, rfl, fun _ => rfl⟩
theorem State.foldl_keepsPub {α : Type} {f : State → α → State} (h : ∀ (s : State) (a : α), s.KeepsPub (f s a))
    (l : List α) (s : State) : s.KeepsPub (l.foldl f s) := by
  induction l generalizing s with
  | nil => exact .refl s
  | cons a l ih => exact (h s a).trans (ih (f s a))

theorem Iku.starve_callLoss (k : Iku) (n) : (k.starve n).callLoss = k.callLoss := by
  unfold Iku.starve; dsimp only; split <;> split <;> rfl

theorem State.boundaryRest_keepsPub (s : State) (c : Prop) [Decidable c] : s.KeepsPub
   ((if c then s.boundaryRadio.boundaryClaims.boundaryPeers.boundaryCadence else s.boundaryRadio.boundaryClaims.boundaryPeers)) := by
  have a : s.KeepsPub s.boundaryRadio := State.KeepsPub.trans (m := { s with rdu := (s.rdu.boundary s.cpt.store).1 }) ⟨rfl, rfl, ⟨rfl, rfl, fun _ => rfl⟩⟩ (foldl_keepsPub rduEffect_keepsPub _ { s with rdu := (s.rdu.boundary s.cpt.store).1 })
  have b : s.boundaryRadio.KeepsPub s.boundaryRadio.boundaryClaims := ⟨rfl, rfl, (Link.tickWindow_keepsPub s.boundaryRadio.link _).trans ⟨rfl, rfl, fun _ => rfl⟩⟩
  have d : ∀ x : State, x.KeepsPub x.boundaryPeers := by
    intro x
    refine State.KeepsPub.trans (m := { x with cle := { x.cle with peers := agePeers x.own x.cle.peers } }) ⟨rfl, rfl, ⟨rfl, rfl, fun _ => rfl⟩⟩ (foldl_keepsPub ?_ _ _)
    intro y p
    refine ⟨rfl, ?_, ⟨rfl, rfl, fun _ => rfl⟩⟩
    show ((y.iku.starve _).starve _).callLoss = _
    rw [Iku.starve_callLoss, Iku.starve_callLoss]
  have e : ∀ x : State, x.KeepsPub x.boundaryCadence := fun x => ⟨rfl, rfl, Link.tickCadence_keepsPub x.link _⟩
  have := (a.trans b).trans (d _)
  split
  · exact this.trans (e _)
  · exact this

theorem Lif.arbitrate_sound (l : Lif) (c) : (l.arbitrate c).sound = l.sound := by
  unfold Lif.arbitrate; split; split <;> rfl; rfl

theorem Link.isolate_sound (k : Link) (e c) : (k.isolate e c).lif.sound = Tbl.fill 2 TxSlot.empty := by
  have ab : ∀ m : Link, (m.abandonAtIsolation e).lif.sound = m.lif.sound := by
    intro m
    unfold Link.abandonAtIsolation
    split; rfl
    split
    · split; rfl
      simp only [Link.raise, Link.abandon]
      split
      · exact Lif.addClaim_sound _ _ _
      · simp only [Lif.dropBid]; split <;> rfl
    · rfl
  unfold Link.isolate
  simp only [Link.raise, ab]; rfl

theorem Link.isolate_cle (k : Link) (e c) : (k.isolate e c).cle.lifecycle = .isolated ∧ (k.isolate e c).cle.marks = k.cle.marks := by
  have ab : ∀ m : Link, (m.abandonAtIsolation e).cle.lifecycle = m.cle.lifecycle ∧ (m.abandonAtIsolation e).cle.marks = m.cle.marks := by
    intro m
    unfold Link.abandonAtIsolation
    split; exact ⟨rfl, rfl⟩
    split
    · split; exact ⟨rfl, rfl⟩
      simp only [Link.raise, Link.abandon]
      split
      · exact ⟨rfl, rfl⟩
      · exact ⟨rfl, rfl⟩
    · exact ⟨rfl, rfl⟩
  unfold Link.isolate
  simp only [Link.raise, ab]; exact ⟨trivial, trivial⟩

/-- The no-idle check leaves the marks, and either the sound slots with the lifecycle, or it isolates and empties them. -/
theorem Link.checkNoIdle_pub (k : Link) (e : Env) :
   (k.checkNoIdle e).cle.marks = k.cle.marks ∧
   ((k.checkNoIdle e).cle.lifecycle = k.cle.lifecycle ∧ (k.checkNoIdle e).lif.sound = k.lif.sound ∧ (k.checkNoIdle e).lif.flight = k.lif.flight ∨
    k.cle.lifecycle = .active ∧ (k.checkNoIdle e).cle.lifecycle = .isolated ∧ (k.checkNoIdle e).lif.sound = Tbl.fill 2 TxSlot.empty) := by
  unfold Link.checkNoIdle
  split
  · dsimp only
    split
    · exact ⟨rfl, Or.inl ⟨rfl, rfl, rfl⟩⟩
    · refine ⟨by rw [(isolate_cle _ _ _).2], Or.inr ⟨by assumption, (isolate_cle _ _ _).1, isolate_sound _ _ _⟩⟩
  · exact ⟨rfl, Or.inl ⟨rfl, rfl, rfl⟩⟩
/-! ### The pickup's call and the Publisher's slots -/

@[simp] theorem Pku.select_call (p : Pku) : p.select.call = p.call := by
  unfold Pku.select
  split
  · rfl
  · split; rfl; split; rfl; split <;> (dsimp only; split <;> rfl)

/-- Steps 3 to 7 of the Pickup Unit leave the call reference. -/
@[simp] theorem Pku.run_call (p : Pku) (c : Store) (e : List StereoSample) (sv : Bool) (m : Tbl 4 (List Sample)) : (p.run_ c e sv m).call = p.call := by
  unfold Pku.run_
  split
  · rfl
  · simp only [Pku.formUplink, Pku.split, Pku.hang, Pku.setSuppression, select_call, Pku.measure]

/-- A frame's call block enters the call-loss table (R70, R74). -/
theorem Iku.takeCall_mem (k : Iku) (f : SoundFrame) (c : CallBlock) (h : f.call = some c) : ⟨c.ref, f.stream, c.talkLoss, 0⟩ ∈ (k.takeCall f).callLoss := by
  unfold Iku.takeCall
  rw [h]
  show _ ∈ takeCallLoss _ _ _ _
  unfold takeCallLoss
  split
  · rename_i h
    rw [List.any_eq_true] at h
    obtain ⟨e, he, h⟩ := h
    rw [List.mem_map]
    refine ⟨e, he, ?_⟩
    rw [if_pos h]
    unfold CallLoss.isFor at h
    simp at h
    simp [← h.1, ← h.2]
  · split
    · simp
    · split <;> simp

/-- One publish slot's work: it touches its own sound slot and mark alone, and where it builds a frame these take it. -/
theorem State.publishSlot_acts (hand : Bool) (x : State) (i : PubSlotNo) (y : State) (hy : y = State.publishSlot hand x i) :
   y.pub = x.pub ∧ y.own = x.own ∧ y.rdu = x.rdu ∧ y.inputs = x.inputs ∧ y.pku = x.pku ∧ y.lif.flight = x.lif.flight ∧ y.cle.lifecycle = x.cle.lifecycle ∧
   (∀ j, j ≠ i → y.lif.sound.get j = x.lif.sound.get j) ∧ (∀ n, n ≠ streamOf x.own i → y.cle.marks.get n = x.cle.marks.get n) ∧
   (match x.pub.frame x.own i (x.sounds x.pku.uplink) x.pku.callBlock with
    | none => y = x
    | some f => y.cle.marks.get f.stream = f.priv ∧ y.iku = x.iku.takeCall f ∧
        y.lif.sound.get i = (if hand = true ∧ x.cle.lifecycle ≠ .isolated then (x.lif.sound.get i).hand (x.lif.flying (.sound i)) (some f) else x.lif.sound.get i)) := by
  unfold State.publishSlot at hy
  rcases hf : x.pub.frame x.own i (x.sounds x.pku.uplink) x.pku.callBlock with _ | f
  · rw [hf] at hy; dsimp only at hy; subst hy; simp
  · rw [hf] at hy; dsimp only at hy
    have hs : f.stream = streamOf x.own i := by
      unfold Pub.frame at hf; split at hf; cases hf; injection hf with hf; rw [← hf]
    subst hy
    refine ⟨rfl, rfl, rfl, rfl, rfl, ?_, rfl, ?_, ?_, ?_, rfl, ?_⟩
    · dsimp only; split; unfold Lif.handSound; split <;> rfl; rfl
    · intro j hj; dsimp only; split; unfold Lif.handSound; split; rfl; simp [Tbl.get_modify, Ne.symm hj]; rfl
    · intro n hn; simp [Cle.mark, Tbl.get_set, hs, Ne.symm hn]
    · simp [Cle.mark]
    · dsimp only; cases hand
      · simp
      · simp [Lif.handSound]; split <;> simp [Tbl.get_modify]

/-- The work after the Publisher leaves the blocks of the sound path. -/
theorem State.boundaryRest_keepsSound (s4 : State) (c : Prop) [Decidable c] : s4.KeepsSound (if c then s4.boundaryRadio.boundaryClaims.boundaryPeers.boundaryCadence else s4.boundaryRadio.boundaryClaims.boundaryPeers) := by
      have k5 : s4.KeepsSound s4.boundaryRadio.boundaryClaims.boundaryPeers := by
        have a : s4.KeepsSound s4.boundaryRadio := setRdu_keepsSound _ _
        have b : s4.boundaryRadio.KeepsSound s4.boundaryRadio.boundaryClaims := ⟨rfl, rfl, rfl, rfl⟩
        exact (a.trans b).trans (boundaryPeers_keepsSound _)
      split
      · exact k5.trans ⟨rfl, rfl, rfl, rfl⟩
      · exact k5

end Sys2Proof.Machine
end

