-- ==== Sys2Proof/Laws/Reports.lean ====
section
/-! SUPPORT. What kept reports do to the detectors, the path-B control and the station list. -/

namespace Sys2Proof.Machine

open Sys2Proof

/-- The record after a word, with what it passes on in other places than RECEPTION (R161, R162). -/
theorem Rdu.takeWord_eq (r : Rdu) (p : Path) (w : Option DataWord) :
    ∃ a d, (r.takeWord p w).1 = { r.setPath p { r.path p with data := d } with ann := a } ∧ DataAfter (r.path p).tuned (r.path p).data w d ∧
      ∀ e ∈ (r.takeWord p w).2, e.spares 8 := by
  have hend : ∀ (x : Rdu) c, (∃ a, (x.endAnnouncement c).1 = { x with ann := a }) ∧ ∀ e ∈ (x.endAnnouncement c).2, e.spares 8 := by
    intro x c; unfold Rdu.endAnnouncement; split
    · refine ⟨⟨_, rfl⟩, ?_⟩; intro e he; simp at he; subst he; simp [RduEffect.spares]
    · exact ⟨⟨x.ann, rfl⟩, by simp⟩
  unfold Rdu.takeWord
  cases w with
  | none => exact ⟨r.ann, (r.path p).data, by cases p <;> rfl, rfl, by simp⟩
  | some w =>
    have hd := ProgData.take_holds (r.path p).tuned (r.path p).data w
    dsimp only
    split
    · split
      · unfold Rdu.takeFlags
        dsimp only
        split
        · split
          · obtain ⟨⟨a, ha⟩, hb⟩ := hend { r.setPath p { r.path p with data := ((r.path p).data.take (r.path p).tuned (.flags _ _)).1 } with ann := (r.setPath p _).ann.count _ } .flags
            exact ⟨a, _, ha, hd, hb⟩
          · exact ⟨_, _, rfl, hd, by simp⟩
        · split
          · exact ⟨_, _, rfl, hd, by simp [RduEffect.spares]⟩
          · exact ⟨_, _, rfl, hd, by simp⟩
      · split
        · unfold Rdu.tagChanged
          obtain ⟨⟨a, ha⟩, hb⟩ := hend { r.setPath p { r.path p with data := ((r.path p).data.take (r.path p).tuned w).1 } with ann := (r.setPath p { r.path p with data := ((r.path p).data.take (r.path p).tuned w).1 }).ann.clearRuns } .programme
          exact ⟨a, _, ha, hd, hb⟩
        · exact ⟨(r.setPath p _).ann, _, rfl, hd, by simp⟩
    · exact ⟨(r.setPath p _).ann, _, rfl, hd, by simp⟩

/-- The three cases of a detector's comparison (R153). -/
theorem Detector.compare_holds (d : Detector) (th q : Nat) :
   (decide (th ≤ q) = d.above → (d.compare th q) = (⟨d.above, false⟩, false)) ∧
   (decide (th ≤ q) ≠ d.above → d.pending = false → (d.compare th q) = (⟨d.above, true⟩, false)) ∧
   (decide (th ≤ q) ≠ d.above → d.pending = true → (d.compare th q) = (⟨!d.above, false⟩, true)) := by
  unfold Detector.compare
  dsimp only
  refine ⟨fun h => by rw [if_pos h], fun h k => by rw [if_neg h, if_neg (by rw [k]; simp)], fun h k => by
    rw [if_neg h, if_pos k]
    have : decide (th ≤ q) = !d.above := by cases hd : d.above <;> simp_all
    rw [this]⟩

/-- The entry of a place after a crossing that an edge selection may report (R154). -/
def Reported (edge : Edge) (n m : Notice) (d e : Detector) (old : Option NoticeEntry) : Option NoticeEntry :=
          if d.above = false ∧ e.above = true ∧ (edge = .rise ∨ edge = .both) then some (raisedEntry old n)
          else if d.above = true ∧ e.above = false ∧ (edge = .fall ∨ edge = .both) then some (raisedEntry old m)
          else old

/-- Effects that are notices alone. -/
theorem State.foldl_notices (l : List RduEffect) (h : ∀ e ∈ l, ∃ n, e = .notice n) : ∀ s : State, (l.foldl State.rduEffect s).rdu = s.rdu ∧
    (l.foldl State.rduEffect s).cpt = s.cpt.raiseAll (l.filterMap (fun e => match e with | .notice n => some n | _ => none)) := by
  induction l with
  | nil => intro s; exact ⟨rfl, rfl⟩
  | cons e l ih =>
    intro s
    obtain ⟨n, rfl⟩ := h e (by simp)
    have := ih (fun e he => h e (by simp [he])) (s.rduEffect (.notice n))
    rw [List.foldl_cons]
    exact ⟨this.1, this.2⟩

/-- What the LOW detector does at a kept report (R153 to R155). -/
theorem Rdu.watchLow_holds (r : Rdu) (c : Store) (qs : Nat) :
    (r.watchLow c qs).1 = { r with
       low := (r.watchLow c qs).1.low
       afTimer := (r.watchLow c qs).1.afTimer
       probe := (r.watchLow c qs).1.probe } ∧
    (r.watchLow c qs).1.low = (r.low.compare c.lowThreshold qs).1 ∧
    (r.low.above = (r.watchLow c qs).1.low.above → (r.watchLow c qs).1.afTimer = r.afTimer ∧ (r.watchLow c qs).1.probe = r.probe) ∧
    (r.low.above = true → (r.watchLow c qs).1.low.above = false → (r.watchLow c qs).1.afTimer = some 200 ∧ (r.watchLow c qs).1.probe = r.probe) ∧
    (r.low.above = false → (r.watchLow c qs).1.low.above = true → (r.watchLow c qs).1.afTimer = none ∧ (r.watchLow c qs).1.probe = none) ∧
    ∀ s : State, (∀ e ∈ (r.watchLow c qs).2, ∃ n, e = .notice n) ∧ ((r.watchLow c qs).2.foldl State.rduEffect s).cpt.notices.get 8 =
      Reported c.lowEdge (.reception .regained r.active r.activeRec.tuned r.activeRec.qs) (.reception .low r.active r.activeRec.tuned r.activeRec.qs)
        r.low (r.watchLow c qs).1.low (s.cpt.notices.get 8) := by
  have hr8 : ∀ (c : Cpt) (n : Notice), n.place = 8 → (c.raise n).notices.get 8 = some (raisedEntry (c.notices.get 8) n) := by
    intro c n h; have := Cpt.raise_place c n; rw [h] at this; exact this
  obtain ⟨c1, c2, c3⟩ := Detector.compare_holds r.low c.lowThreshold qs
  unfold Rdu.watchLow
  dsimp only
  by_cases h1 : decide (c.lowThreshold ≤ qs) = r.low.above
  · rw [c1 h1]
    refine ⟨rfl, rfl, fun _ => ⟨rfl, rfl⟩, ?_, ?_, ?_⟩
    · intro a b; rw [show _ = r.low.above from rfl, a] at b; cases b
    · intro a b; rw [show _ = r.low.above from rfl, a] at b; cases b
    · intro s; refine ⟨by simp, ?_⟩
      unfold Reported; cases r.low.above <;> simp
  · by_cases h2 : r.low.pending = true
    · rw [c3 h1 h2]
      cases ha : r.low.above with
      | true =>
        refine ⟨rfl, rfl, ?_, ?_, ?_, ?_⟩
        · intro k; exact absurd k (by simp)
        · intro _ _; exact ⟨rfl, rfl⟩
        · intro k; exact absurd k (by simp)
        · intro s
          unfold Reported Edge.reports
          cases c.lowEdge <;> simp [ha, Rdu.reception, Rdu.activeRec]
          all_goals exact hr8 _ _ rfl
      | false =>
        refine ⟨rfl, rfl, ?_, ?_, ?_, ?_⟩
        · intro k; exact absurd k (by simp)
        · intro k; exact absurd k (by simp)
        · intro _ _; exact ⟨rfl, rfl⟩
        · intro s
          unfold Reported Edge.reports
          cases c.lowEdge <;> simp [ha, Rdu.reception, Rdu.activeRec]
          all_goals exact hr8 _ _ rfl
    · rw [c2 h1 (by simpa using h2)]
      refine ⟨rfl, rfl, fun _ => ⟨rfl, rfl⟩, ?_, ?_, ?_⟩
      · intro a b; rw [show _ = r.low.above from rfl, a] at b; cases b
      · intro a b; rw [show _ = r.low.above from rfl, a] at b; cases b
      · intro s; refine ⟨by simp, ?_⟩
        unfold Reported; cases r.low.above <;> simp

/-- What the GOOD detector does at a kept report (R153, R154). -/
theorem Rdu.watchGood_holds (r : Rdu) (c : Store) (qs : Nat) :
    (r.watchGood c qs).1 = { r with good := (r.good.compare c.goodThreshold qs).1 } ∧
    ∀ s : State, (∀ e ∈ (r.watchGood c qs).2, ∃ n, e = .notice n) ∧ ((r.watchGood c qs).2.foldl State.rduEffect s).cpt.notices.get 8 =
      Reported c.goodEdge (.reception .good r.active r.activeRec.tuned r.activeRec.qs) (.reception .notGood r.active r.activeRec.tuned r.activeRec.qs)
        r.good (r.good.compare c.goodThreshold qs).1 (s.cpt.notices.get 8) := by
  have hr8 : ∀ (c : Cpt) (n : Notice), n.place = 8 → (c.raise n).notices.get 8 = some (raisedEntry (c.notices.get 8) n) := by
    intro c n h; have := Cpt.raise_place c n; rw [h] at this; exact this
  obtain ⟨c1, c2, c3⟩ := Detector.compare_holds r.good c.goodThreshold qs
  unfold Rdu.watchGood
  dsimp only
  by_cases h1 : decide (c.goodThreshold ≤ qs) = r.good.above
  · rw [c1 h1]
    refine ⟨rfl, fun s => ⟨by simp, ?_⟩⟩
    unfold Reported; cases r.good.above <;> simp
  · by_cases h2 : r.good.pending = true
    · rw [c3 h1 h2]
      cases ha : r.good.above with
      | true =>
        refine ⟨?_, fun s => ?_⟩
        · split <;> rfl
        · unfold Reported Edge.reports
          cases c.goodEdge <;> simp [ha, Rdu.reception, Rdu.activeRec]
          all_goals exact hr8 _ _ rfl
      | false =>
        refine ⟨?_, fun s => ?_⟩
        · split <;> rfl
        · unfold Reported Edge.reports
          cases c.goodEdge <;> simp [ha, Rdu.reception, Rdu.activeRec]
          all_goals exact hr8 _ _ rfl
    · rw [c2 h1 (by simpa using h2)]
      refine ⟨rfl, fun s => ⟨by simp, ?_⟩⟩
      unfold Reported; cases r.good.above <;> simp

/-- What the path-B control does (R149). -/
theorem Rdu.control_holds (r : Rdu) (c : Store) (a : Bool) :
   (r.control c a).mode = r.chosenMode c ∧ (r.control c a).low = r.low ∧ (r.control c a).good = r.good ∧ (r.control c a).afTimer = r.afTimer ∧
   (r.control c a).active = r.active ∧ ((r.control c a).probe = none ↔ r.probe = none) ∧ (r.mode = .probe → a = false → (r.control c a).probe = r.probe) ∧
   (r.mode ≠ r.chosenMode c → r.crossfade = false →
      (r.chosenMode c = .scan → (r.control c a).spareRec.tuned = some r.scanPos ∧ (r.control c a).spareRec.settle = 2) ∧
      (r.chosenMode c = .diversity → r.seek = none → ∀ ch, r.activeRec.tuned = some ch → (r.control c a).spareRec.tuned = some ch ∧ (r.control c a).spareRec.settle = 2)) := by
  have hret : ∀ (y : Rdu) (ch : Channel), (y.retune y.spare ch).spareRec = (y.spareRec).retuned ch := by
    intro y ch
    have h1 : (y.retune y.spare ch).spare = y.spare := by unfold Rdu.spare; rw [Rdu.retune_active]
    have h2 : ∀ p, (y.retune p ch).path p = (y.path p).retuned ch := by intro p; cases p <;> rfl
    unfold Rdu.spareRec; rw [h1]; exact h2 _
  have hret2 : ∀ (y : Rdu) (p) (ch : Channel), (y.retune p ch).mode = y.mode ∧ (y.retune p ch).low = y.low ∧ (y.retune p ch).good = y.good ∧ (y.retune p ch).afTimer = y.afTimer ∧ (y.retune p ch).active = y.active ∧ (y.retune p ch).probe = y.probe := by
    intro y p ch; cases p <;> exact ⟨rfl, rfl, rfl, rfl, rfl, rfl⟩
  have hus : ∀ y : Rdu, y.useSpare.mode = y.mode ∧ y.useSpare.low = y.low ∧ y.useSpare.good = y.good ∧ y.useSpare.afTimer = y.afTimer ∧ y.useSpare.active = y.active ∧
     (y.useSpare.probe = none ↔ y.probe = none) ∧ (y.mode ≠ .probe → y.useSpare.probe = y.probe) := by
    intro y
    unfold Rdu.useSpare
    cases hm : y.mode <;> dsimp only
    · simp [hm]
    · split
      · obtain ⟨h1, h2, h3, h4, h5, h6⟩ := hret2 y y.spare ‹_›
        rw [h1, h2, h3, h4, h5, h6]; simp [hm]
      · simp [hm]
    · obtain ⟨h1, h2, h3, h4, h5, h6⟩ := hret2 y y.spare y.scanPos
      rw [h1, h2, h3, h4, h5, h6]; simp [hm]
    · split
      · simp_all
      · rename_i k hk
        split
        · simp_all
        · obtain ⟨h1, h2, h3, h4, h5, h6⟩ := hret2 y y.spare ‹_›
          rw [h1, h2, h3, h4, h5]; simp [hm, hk]
  have hsw : ∀ y : Rdu, y.useSpareOrWait.mode = y.mode ∧ y.useSpareOrWait.low = y.low ∧ y.useSpareOrWait.good = y.good ∧ y.useSpareOrWait.afTimer = y.afTimer ∧ y.useSpareOrWait.active = y.active ∧
     (y.useSpareOrWait.probe = none ↔ y.probe = none) ∧ (y.mode ≠ .probe → y.useSpareOrWait.probe = y.probe) := by
    intro y
    unfold Rdu.useSpareOrWait
    split
    · simp
    · exact hus y
  unfold Rdu.control
  dsimp only
  generalize hm : r.chosenMode c = m
  generalize hd : (if m = .diversity then r.divRun else 0) = dr
  by_cases hc : m ≠ r.mode ∨ a = true
  · rw [if_pos hc]
    obtain ⟨q1, q2, q3, q4, q5, q6, q7⟩ := hsw { r with mode := m, divRun := dr }
    refine ⟨q1, q2, q3, q4, q5, q6, ?_, ?_⟩
    · intro h1 h2
      apply q7
      rcases hc with hc | hc
      · rw [h1] at hc; exact hc
      · rw [h2] at hc; cases hc
    · intro _ hx
      unfold Rdu.useSpareOrWait
      rw [if_neg (by show ¬ r.crossfade = true; rw [hx]; simp)]
      unfold Rdu.useSpare
      refine ⟨?_, ?_⟩
      · intro h
        subst h
        dsimp only
        have := hret { r with mode := .scan, divRun := dr } r.scanPos
        have e : ∀ y : Rdu, ∀ d m n, ({ y with scanMeas := m, scanSum := n, deferred := d } : Rdu).spareRec = y.spareRec := by
          intro y d m n; unfold Rdu.spareRec Rdu.spare; cases y.active <;> rfl
        refine ⟨?_, ?_⟩
        · refine (congrArg PathRec.tuned (e _ false 0 0)).trans ?_; exact congrArg PathRec.tuned this
        · refine (congrArg PathRec.settle (e _ false 0 0)).trans ?_; exact congrArg PathRec.settle this
      · intro h hs ch hch
        subst h
        dsimp only
        have hch' : ({ r with mode := .diversity, divRun := dr } : Rdu).activeRec.tuned = some ch := by rw [← hch]; unfold Rdu.activeRec; cases r.active <;> rfl
        rw [hch', hs]
        dsimp only
        have := hret { r with mode := .diversity, divRun := dr } ch
        have e : ∀ y : Rdu, ∀ d, ({ y with deferred := d } : Rdu).spareRec = y.spareRec := by
          intro y d; unfold Rdu.spareRec Rdu.spare; cases y.active <;> rfl
        refine ⟨?_, ?_⟩
        · refine (congrArg PathRec.tuned (e _ false)).trans ?_; rw [hs] at this; exact congrArg PathRec.tuned this
        · refine (congrArg PathRec.settle (e _ false)).trans ?_; rw [hs] at this; exact congrArg PathRec.settle this
  · rw [if_neg hc]
    refine ⟨rfl, rfl, rfl, rfl, rfl, Iff.rfl, fun _ _ => rfl, ?_⟩
    intro h; exact absurd (Or.inl (Ne.symm h)) hc


/-- A new channel goes before the first higher one (R163, R165). -/
theorem insertStation_eq (e : StationEntry) (l : List StationEntry) (h : ∀ f ∈ l, f.channel ≠ e.channel) :
   insertStation e l = l.takeWhile (fun f => decide (f.channel < e.channel)) ++ e :: l.dropWhile (fun f => decide (f.channel < e.channel)) := by
  induction l with
  | nil => rfl
  | cons f l ih =>
    have hf := h f (by simp)
    unfold insertStation
    by_cases hlt : e.channel < f.channel
    · rw [if_pos hlt, List.takeWhile_cons, List.dropWhile_cons]
      have : ¬ f.channel < e.channel := not_lt_of_gt hlt
      simp [this]
    · rw [if_neg hlt, List.takeWhile_cons, List.dropWhile_cons]
      have : f.channel < e.channel := lt_of_le_of_ne (not_lt.mp hlt) hf
      simp [this, ih (fun g hg => h g (by simp [hg]))]

/-- The weakest entry, the lowest channel among several (R165). -/
theorem weakest_eq (l : List StationEntry) (hs : l.Pairwise (fun a b => a.channel < b.channel)) (w : StationEntry) (hw : w ∈ l)
    (h : ∀ e ∈ l, w.best < e.best ∨ (w.best = e.best ∧ w.channel ≤ e.channel)) : weakest l = some w := by
  induction l with
  | nil => cases hw
  | cons a l ih =>
    have hs' := List.pairwise_cons.mp hs
    unfold weakest
    rcases List.mem_cons.mp hw with rfl | hwl
    · cases hl : weakest l with
      | none => rfl
      | some f =>
        dsimp only
        have hmem : ∀ (l : List StationEntry) f, weakest l = some f → f ∈ l := by
          intro l
          induction l with
          | nil => intro f hf; cases hf
          | cons b l ih =>
            intro f hf
            unfold weakest at hf
            split at hf
            · injection hf with hf; simp [hf]
            · rename_i g hg
              split at hf
              · injection hf with hf; subst hf; simp [ih _ hg]
              · injection hf with hf; simp [hf]
        have := h f (by simp [hmem l f hl])
        rw [if_neg (by omega)]
    · rw [ih hs'.2 hwl (fun e he => h e (by simp [he]))]
      dsimp only
      have h1 := h a (by simp)
      have h2 := hs'.1 w hwl
      rw [if_pos]
      rcases h1 with h1 | h1
      · exact h1
      · exact absurd h1.2 (not_le_of_gt h2)

/-- What R165 says of a measured channel. -/
theorem enterStation_holds (ch : Channel) (mean : Nat) (d : ProgData) (l : List StationEntry) (hs : l.Pairwise (fun a b => a.channel < b.channel)) :
    let entered := fun (l : List StationEntry) (d : ProgData) =>
          l.takeWhile (fun e => decide (e.channel < ch)) ++ (⟨ch, mean, d.tag, d.name, d.traffic, 0, true⟩ : StationEntry) ::
            l.dropWhile (fun e => decide (e.channel < ch));
            (mean < 25 → enterStation ch mean d l = l) ∧
            (25 ≤ mean → (∃ e ∈ l, e.channel = ch) → enterStation ch mean d l = l.map (fun e => if e.channel = ch then ({ e with best := max e.best mean, tag := d.tag.or e.tag, name := d.name.or e.name, traffic := d.traffic.or e.traffic, unseen := 0, seen := true }) else e)) ∧
            (25 ≤ mean → (∀ e ∈ l, e.channel ≠ ch) → l.length < 32 → enterStation ch mean d l = entered l d) ∧
            (25 ≤ mean → (∀ e ∈ l, e.channel ≠ ch) → 32 ≤ l.length → ∀ w ∈ l,
              (∀ e ∈ l, w.best < e.best ∨ (w.best = e.best ∧ w.channel ≤ e.channel)) →
              (w.best < mean → enterStation ch mean d l = entered (l.filter (fun e => e.channel != w.channel)) d) ∧
              (mean ≤ w.best → enterStation ch mean d l = l)) := by
  intro entered
  unfold enterStation
  have hany : (∀ e ∈ l, e.channel ≠ ch) → ¬ l.any (fun e => e.channel == ch) = true := by
    intro h k; rw [List.any_eq_true] at k; obtain ⟨e, he, hk⟩ := k; exact h e he (by simpa using hk)
  refine ⟨fun h => if_pos h, ?_, ?_, ?_⟩
  · rintro h ⟨e, he, hc⟩
    rw [if_neg (show ¬ mean < Config.seenMean by show ¬ _ < 25; omega), if_pos (by rw [List.any_eq_true]; exact ⟨e, he, by simpa using hc⟩)]
    rfl
  · intro h h2 h3
    rw [if_neg (show ¬ mean < Config.seenMean by show ¬ _ < 25; omega), if_neg (hany h2), if_pos (show _ < Config.stationCapacity from h3)]
    exact insertStation_eq _ _ h2
  · intro h h2 h3 w hw hmin
    rw [if_neg (show ¬ mean < Config.seenMean by show ¬ _ < 25; omega), if_neg (hany h2), if_neg (show ¬ _ < Config.stationCapacity by show ¬ _ < 32; omega), weakest_eq l hs w hw hmin]
    dsimp only
    refine ⟨fun k => ?_, fun k => by rw [if_neg (by omega)]⟩
    rw [if_pos k]
    exact insertStation_eq _ _ (fun f hf => h2 f (List.mem_of_mem_filter hf))

end Sys2Proof.Machine
end

