-- ==== Sys2Proof/Laws/Ended.lean ====
section
/-! SUPPORT. What ages and ends at a block boundary: call-loss entries, streams, heard bids, the bid window, peer entries,
and the claims of peers and announcements that go. -/

namespace Sys2Proof.Machine

open Sys2Proof

/-! ### Calls and streams (R73 to R75, R88) -/

/-- A frame with a call block enters the call-loss table as R74 says. -/
theorem takeCallLoss_taken (l : List CallLoss) (r : ClaimRef) (n : StreamNo) (loss : Nat) :
    CallTaken ⟨r, n, loss, 0⟩ l (takeCallLoss l r n loss) := by
  have hs : ∀ e : CallLoss, e.isFor r n = true ↔ e.ref = r ∧ e.uplink = n := by
    intro e; simp [CallLoss.isFor]
  unfold takeCallLoss
  constructor
  · rintro ⟨e, he, h⟩
    rw [if_pos (List.any_eq_true.mpr ⟨e, he, (hs e).mpr h⟩)]
    apply List.map_congr_left
    intro d _
    by_cases k : d.isFor r n = true
    · obtain ⟨rfl, rfl⟩ := (hs d).mp k
      simp [k]
    · have k' : ¬ (d.ref = r ∧ d.uplink = n) := fun x => k ((hs d).mpr x)
      simp only [Bool.not_eq_true] at k
      simp [k, k']
  · intro h
    have hn : ¬ (l.any (fun e => e.isFor r n) = true) := by
      rw [List.any_eq_true]; rintro ⟨e, he, k⟩; exact h e he ((hs e).mp k)
    rw [if_neg hn]
    constructor
    · intro hl; rw [if_pos (show l.length < Config.callLossCapacity from hl)]
    · intro hl a d b e ha hb
      rw [if_neg (by simp only [Config.callLossCapacity]; omega)]
      have hm : (l.map CallLoss.age).max? = some d.age := by
        rw [List.max?_eq_some_iff]
        subst e
        refine ⟨by simp, ?_⟩
        intro x hx
        simp only [List.map_append, List.map_cons, List.mem_append, List.mem_map, List.mem_cons] at hx
        rcases hx with ⟨y, hy, rfl⟩ | rfl | ⟨y, hy, rfl⟩
        · exact Nat.le_of_lt (ha y hy)
        · exact Nat.le_refl _
        · exact hb y hy
      rw [hm]
      have hr : ∀ a : List CallLoss, (∀ e ∈ a, e.age < d.age) →
          removeFirst (fun e => e.age == d.age) (a ++ d :: b) = some (a ++ b) := by
        intro a
        induction a with
        | nil => intro _; simp [removeFirst]
        | cons x a ih =>
          intro hx
          have hne : (x.age == d.age) = false := beq_eq_false_iff_ne.mpr (Nat.ne_of_lt (hx x (by simp)))
          show removeFirst _ (x :: (a ++ d :: b)) = _
          unfold removeFirst
          rw [hne, ih (fun e he => hx e (by simp [he]))]
          rfl
      dsimp only
      rw [e, hr a ha]
      rfl

/-- The stream-heard table after a stream starved. -/
theorem Iku.starve_heard (k : Iku) (n m : StreamNo) : (k.starve n).heard.get m =
    if m = n ∧ (k.heard.get n).state = .live then { k.heard.get n with state := .starved, age := 8 } else k.heard.get m := by
  have h : (k.starve n).heard = if (k.heard.get n).state = .live then
      k.heard.set n { k.heard.get n with state := .starved, age := 8 } else k.heard := by
    unfold Iku.starve
    dsimp only
    split <;> split <;> rfl
  rw [h]
  by_cases l : (k.heard.get n).state = .live
  · rw [if_pos l, Tbl.get_set]
    by_cases e : n = m
    · rw [if_pos e, if_pos ⟨e.symm, l⟩]
    · rw [if_neg e, if_neg (fun x => e x.1.symm)]
  · rw [if_neg l, if_neg (fun x => l x.2)]

/-- The buffers after a stream starved. -/
theorem Iku.starve_buffers (k : Iku) (n : StreamNo) (i : BufferNo) : (k.starve n).buffers.get i =
    if k.bufferOf n = some i then (k.buffers.get i).starve else k.buffers.get i := by
  unfold Iku.starve
  dsimp only
  have hb : ∀ x : Tbl 16 HeardEntry, (if (k.heard.get n).state = .live then { k with heard := x } else k).buffers = k.buffers := by
    intro x; split <;> rfl
  cases h : k.bufferOf n with
  | none => simp only [hb, reduceCtorEq, if_false]
  | some j =>
    simp only [hb, Tbl.get_modify, Option.some.injEq]

/-- A buffer that starves from PRIMING or RUNNING is emptied and forces its readers (R88). -/
theorem Buffer.starve_emptied (b : Buffer) (h : b.state = .priming ∨ b.state = .running) :
    Emptied b b.starve ∧ b.starve.force = true ∧ b.starve.given = b.given ∧ b.starve.givenForce = b.givenForce := by
  unfold Buffer.starve
  rcases h with h | h <;> rw [h] <;> exact ⟨⟨rfl, rfl, rfl, rfl, rfl, rfl, rfl, rfl, rfl⟩, rfl, rfl, rfl⟩

/-- A STARVED buffer gives silence with its force, and stays as it is. -/
theorem Buffer.consume_starved (b : Buffer) (h : b.state = .starved) : b.consume.1 = { b with
    given := List.replicate 48 ⟨0, 0, false⟩, givenForce := b.force, force := false, givenReturn := false } := by
  unfold Buffer.consume
  rw [h]
  unfold Buffer.giveSilence Buffer.hand
  rw [h]
  cases hr : b.returning <;> rcases b with ⟨⟩ <;> simp_all [silentRing, Config.blockLen]

/-! ### Peers (R31, R35) -/

/-- The peers that expire at a boundary are those whose age it brings to 160. -/
theorem expiredPeers_agePeers (s : State) :
    expiredPeers s.own (agePeers s.own s.cle.peers) = (List.finRange 8).filter s.peerExpires := by
  unfold expiredPeers Tbl.indices
  apply List.filter_congr
  intro p _
  unfold State.peerExpires agePeers
  rw [Tbl.get_ofFn]
  by_cases h : p = s.own
  · simp [h]
  · cases s.cle.peers.get p with
    | none => simp
    | some e => simp [h, Config.peerAgeEnd]

/-- What expiring several peers, one after the other, leaves. -/
theorem State.expirePeers_holds (l : List StationNo) (s : State) :
    let t := l.foldl State.expirePeer s
    t.cle.claims = s.cle.claims.filter (fun c => !l.contains c.name.station) ∧
    (∀ p, t.cle.peers.get p = if p ∈ l then none else s.cle.peers.get p) ∧ t.iku = l.foldl Iku.expirePeer s.iku ∧
    t.cpt = s.cpt.raiseAll (l.map Notice.peerExpired) ∧ t.lif = s.lif ∧ t.cle.lifecycle = s.cle.lifecycle := by
  induction l generalizing s with
  | nil =>
    refine ⟨?_, ?_, rfl, rfl, rfl, rfl⟩
    · simp
    · simp
  | cons p l ih =>
    obtain ⟨a, b, c, d, e, f⟩ := ih (s.expirePeer p)
    refine ⟨?_, ?_, c, d, e, f⟩
    · rw [List.foldl_cons, a]
      show (s.cle.claims.filter (fun c => c.name.station != p)).filter _ = _
      rw [List.filter_filter]
      apply List.filter_congr
      intro x _
      by_cases h : x.name.station = p <;> simp [h]
    · intro q
      rw [List.foldl_cons, b q]
      show (if q ∈ l then none else (s.cle.peers.set p none).get q) = _
      rw [Tbl.get_set]
      by_cases h : p = q
      · simp [h]
      · simp [h, Ne.symm h]

/-- The peers' ages and expiries at a boundary, whole. -/
theorem State.boundaryPeers_holds (s : State) :
    let t := s.boundaryPeers
    let gone := (List.finRange 8).filter s.peerExpires
    t.cle.claims = s.cle.claims.filter (fun c => !s.peerExpires c.name.station) ∧
    (∀ p, s.peerExpires p = true → t.cle.peers.get p = none) ∧ t.iku = gone.foldl Iku.expirePeer s.iku ∧
    t.cpt = s.cpt.raiseAll (gone.map Notice.peerExpired) ∧ t.lif = s.lif ∧ t.cle.lifecycle = s.cle.lifecycle := by
  have h := State.expirePeers_holds ((List.finRange 8).filter s.peerExpires)
    { s with cle := { s.cle with peers := agePeers s.own s.cle.peers } }
  have e : s.boundaryPeers = ((List.finRange 8).filter s.peerExpires).foldl State.expirePeer
      { s with cle := { s.cle with peers := agePeers s.own s.cle.peers } } := by
    show (expiredPeers s.own (agePeers s.own s.cle.peers)).foldl _ _ = _
    rw [expiredPeers_agePeers]
  dsimp only at h ⊢
  rw [e]
  obtain ⟨a, b, c, d, f, g⟩ := h
  refine ⟨?_, ?_, c, d, f, g⟩
  · rw [a]
    apply List.filter_congr
    intro x _
    congr 1
    rw [List.contains_eq_mem]
    simp
  · intro p hp
    rw [b p, if_pos (by simp [hp])]

/-! ### The claim list (R52, R53, R57, R173) -/

/-- A claim list with at most one bid, an own one, and no name twice. -/
structure OneBidList (own : StationNo) (l : List Claim) : Prop where
  names : (l.map Claim.name).Nodup
  bids : ∀ c ∈ l, c.isBidding = true → c.name.station = own
  one : (l.filter Claim.isBidding).length ≤ 1

theorem OneBidList.filter {own : StationNo} {l : List Claim} (h : OneBidList own l) (p : Claim → Bool) :
    OneBidList own (l.filter p) where
  names := h.names.sublist (List.filter_sublist.map _)
  bids c hc := h.bids c (List.mem_of_mem_filter hc)
  one := ((List.filter_sublist (p := p)).filter _).length_le.trans h.one

/-- With no own bid there is none at all. -/
theorem OneBidList.none_bids {own : StationNo} {l : List Claim} (h : OneBidList own l) (hb : ownBidding own l = none) :
    ∀ c ∈ l, c.isBidding = false := by
  intro c hc
  have := List.find?_eq_none.mp hb c hc
  by_contra hn
  have hn : c.isBidding = true := by simpa using hn
  exact this (by simp [hn, h.bids c hc hn])

/-- The own bid is the one entry that bids, and the one entry of its name. -/
theorem OneBidList.the_bid {own : StationNo} {l : List Claim} (h : OneBidList own l) {c : Claim}
    (hb : ownBidding own l = some c) :
    c ∈ l ∧ c.isBidding = true ∧ c.name.station = own ∧ ∀ d ∈ l, (d.isBidding = true ∨ d.name = c.name) → d = c := by
  have hm := List.mem_of_find?_eq_some hb
  have hc := List.find?_some hb
  simp only [Bool.and_eq_true, beq_iff_eq] at hc
  refine ⟨hm, hc.2, hc.1, ?_⟩
  intro d hd e
  rcases e with e | e
  · have hl : ∀ x y : Claim, x ∈ l.filter Claim.isBidding → y ∈ l.filter Claim.isBidding → x = y := by
      intro x y hx hy
      have := h.one
      rcases hf : l.filter Claim.isBidding with _ | ⟨a, _ | ⟨b, m⟩⟩
      · rw [hf] at hx; cases hx
      · rw [hf] at hx hy; simp only [List.mem_singleton] at hx hy; rw [hx, hy]
      · rw [hf] at this; simp at this
    exact hl d c (List.mem_filter.mpr ⟨hd, e⟩) (List.mem_filter.mpr ⟨hm, hc.2⟩)
  · exact List.inj_on_of_nodup_map h.names hd hm e

/-- What a boundary makes of a claim by the bid window alone (R52). -/
def windowStep (c : Claim) : Option Claim :=
  match c.state with
  | .bidding link (some w) =>
    if w + 1 < 2 then some { c with state := .bidding link (some (w + 1)) }
    else if link then some { c with state := .held } else none
  | _ => some c

/-- A boundary's bid ages, claim by claim (R57). -/
def ageStep (c : Claim) : Option Claim :=
  match c.state with
  | .heard a => if a < 3 then some { c with state := .heard (a + 1) } else none
  | _ => some c

theorem ageBids_eq (l : List Claim) : ageBids l = l.filterMap ageStep := by
  unfold ageBids
  congr 1
  funext c
  unfold ageStep
  cases c.state <;> simp [Config.bidAgeEnd, Nat.succ_lt_succ_iff]

theorem filterMap_eq_self {α : Type} {f : α → Option α} {l : List α} (h : ∀ a ∈ l, f a = some a) : l.filterMap f = l := by
  induction l with
  | nil => rfl
  | cons a l ih => rw [List.filterMap_cons, h a (by simp)]; simp [ih (fun b hb => h b (by simp [hb]))]

theorem filterMap_eq_map_of {α : Type} {f : α → Option α} {g : α → α} {l : List α} (h : ∀ a ∈ l, f a = some (g a)) :
    l.filterMap f = l.map g := by
  induction l with
  | nil => rfl
  | cons a l ih => rw [List.filterMap_cons, h a (by simp)]; simp [ih (fun b hb => h b (by simp [hb]))]

theorem filterMap_eq_filter_of {α : Type} {f : α → Option α} {p : α → Bool} {l : List α}
    (h : ∀ a ∈ l, f a = if p a then some a else none) : l.filterMap f = l.filter p := by
  induction l with
  | nil => rfl
  | cons a l ih =>
    rw [List.filterMap_cons, h a (by simp), List.filter_cons]
    by_cases e : p a = true <;> simp [e, ih (fun b hb => h b (by simp [hb]))]

theorem windowStep_of_not_bidding {c : Claim} (h : c.isBidding = false) : windowStep c = some c := by
  unfold windowStep
  split
  · rename_i e; simp [Claim.isBidding, e] at h
  · rfl

/-- The bid window at a boundary, claim by claim. -/
theorem Link.tickWindow_claims (k : Link) (env : Env) (h : OneBidList env.own k.cle.claims) :
    (k.tickWindow env).cle.claims = k.cle.claims.filterMap windowStep := by
  unfold Link.tickWindow
  split
  · rename_i hb
    exact (filterMap_eq_self (fun c hc => windowStep_of_not_bidding (h.none_bids hb c hc))).symm
  · rename_i c hb
    obtain ⟨hm, hc, _, hu⟩ := h.the_bid hb
    have other : ∀ d ∈ k.cle.claims, d.name ≠ c.name → windowStep d = some d := by
      intro d hd hn
      apply windowStep_of_not_bidding
      by_contra x
      have x : d.isBidding = true := by simpa using x
      exact hn (by rw [hu d hd (Or.inl x)])
    split
    · rename_i link w hs
      have hw : windowStep c = if w + 1 < 2 then some { c with state := .bidding link (some (w + 1)) }
          else if link then some { c with state := .held } else none := by
        unfold windowStep; rw [hs]
      split
      · rename_i hlt
        show setClaimState c.name _ k.cle.claims = _
        refine (filterMap_eq_map_of (fun d hd => ?_)).symm
        by_cases e : d.name = c.name
        · rw [hu d hd (Or.inr e), hw, if_pos (show w + 1 < 2 from hlt)]; simp
        · rw [other d hd e]; simp [e]
      · rename_i hlt
        have hw : windowStep c = if link then some { c with state := .held } else none := by
          rw [hw, if_neg (show ¬ (w + 1 < 2) from hlt)]
        unfold Link.expireWindow
        split
        · rename_i hl
          rw [GoodLink.recompose_claims]
          show setClaimState c.name _ k.cle.claims = _
          refine (filterMap_eq_map_of (fun d hd => ?_)).symm
          by_cases e : d.name = c.name
          · rw [hu d hd (Or.inr e), hw, if_pos hl]; simp
          · rw [other d hd e]; simp [e]
        · rename_i hl
          show eraseClaim c.name k.cle.claims = _
          refine (filterMap_eq_filter_of (fun d hd => ?_)).symm
          by_cases e : d.name = c.name
          · rw [hu d hd (Or.inr e), hw, if_neg hl]; simp
          · rw [other d hd e]; simp [e]
    · rename_i hs
      refine (filterMap_eq_self (fun d hd => ?_)).symm
      by_cases e : d.name = c.name
      · rw [hu d hd (Or.inr e)]
        unfold windowStep
        split
        · rename_i x y e; exact absurd e (hs _ _)
        · rfl
      · exact other d hd e

/-- The claims that the no-idle check at a boundary leaves (R19, R53). -/
theorem Link.checkNoIdle_claims (s : State) (h : OneBidList s.own s.cle.claims) :
    (s.link.checkNoIdle s.env).cle.claims = s.cle.claims.filter (fun c =>
      match c.state with
      | .bidding _ none => !s.abandonsAtBoundary c
      | _ => true) := by
  have keep : (∀ c ∈ s.cle.claims, ∀ link, c.state = .bidding link none → s.abandonsAtBoundary c = false) →
      s.cle.claims = s.cle.claims.filter (fun c =>
        match c.state with
        | .bidding _ none => !s.abandonsAtBoundary c
        | _ => true) := by
    intro x
    refine (List.filter_eq_self.mpr (fun c hc => ?_)).symm
    split
    · rename_i link hs; rw [x c hc link hs]; rfl
    · rfl
  unfold Link.checkNoIdle
  have hno : s.isolatesAtBoundary = true ↔ s.cle.lifecycle = .active ∧ ¬ (s.lif.noIdleAfter < 2) := by
    unfold State.isolatesAtBoundary Lif.noIdleAfter
    cases s.lif.anyPending <;> cases s.lif.idleSeen <;> simp <;> omega
  by_cases hl : s.cle.lifecycle = .active
  · rw [if_pos (show s.link.cle.lifecycle = .active from hl)]
    dsimp only
    by_cases hn : s.lif.noIdleAfter < 2
    · rw [if_pos (show s.link.lif.noIdleAfter < Config.noIdleEnd from hn)]
      refine keep (fun c _ link _ => ?_)
      have : s.isolatesAtBoundary = false := by
        by_contra x
        exact (hno.mp (by simpa using x)).2 hn
      simp [State.abandonsAtBoundary, this]
    · rw [if_neg (show ¬ (s.link.lif.noIdleAfter < Config.noIdleEnd) from hn)]
      have hi : s.isolatesAtBoundary = true := hno.mpr ⟨hl, hn⟩
      unfold Link.isolate Link.abandonAtIsolation
      show (Link.cle (match ownBidding s.own s.cle.claims with | none => _ | some c => _)).claims = _
      split
      · rename_i hb
        refine keep (fun c hc link hs => ?_)
        have := h.none_bids hb c hc
        simp [Claim.isBidding, hs] at this
      · rename_i c hb
        obtain ⟨hm, hc, _, hu⟩ := h.the_bid hb
        have flies : ∀ n, Lif.bidFlying (Lif.isolate { s.lif with noIdle := s.lif.noIdleAfter, idleSeen := false }) n =
            s.lif.bidFlying n := by
          intro n
          unfold Lif.bidFlying Lif.flyingClaim Lif.queueFlying Lif.isolate
          cases s.lif.flight with
          | none => rfl
          | some f =>
            by_cases e : f.store = .queue
            · simp [e]
            · simp [e, Flight.cutOff]
        split
        · rename_i link hs
          split
          · rename_i hf
            refine keep (fun d hd l' hs' => ?_)
            have : d = c := hu d hd (Or.inl (by simp [Claim.isBidding, hs']))
            subst this
            have hf : s.lif.bidFlying d.name.serial = true := (flies _).symm.trans hf
            simp [State.abandonsAtBoundary, hf]
          · rename_i hf
            show (Link.abandon _ c).cle.claims = _
            rw [GoodLink.abandon_claims]
            show eraseClaim c.name s.cle.claims = _
            have hf : s.lif.bidFlying c.name.serial = false := by
              by_contra x
              exact hf ((flies _).trans (by simpa using x))
            refine List.filter_congr (fun d hd => ?_)
            by_cases e : d.name = c.name
            · rw [hu d hd (Or.inr e), hs]; simp [State.abandonsAtBoundary, hi, hf]
            · have : (match d.state with
                | .bidding _ none => !s.abandonsAtBoundary d
                | _ => true) = true := by
                split
                · rename_i l' hs'
                  exact absurd (by rw [hu d hd (Or.inl (by simp [Claim.isBidding, hs']))]) e
                · rfl
              rw [this]; simpa using e
        · rename_i hs
          refine keep (fun d hd l' hs' => ?_)
          have : d = c := hu d hd (Or.inl (by simp [Claim.isBidding, hs']))
          subst this
          exact absurd hs' (hs l')
  · rw [if_neg (show ¬ (s.link.cle.lifecycle = .active) from hl)]
    refine keep (fun c _ link _ => ?_)
    have : s.isolatesAtBoundary = false := by
      by_contra x
      exact hl (hno.mp (by simpa using x)).1
    simp [State.abandonsAtBoundary, this]

/-! ### The announcement at a boundary (R173) -/

/-- Work of the Radio Unit that leaves whether an announcement runs, its claim, its reception hold and the state of LOW. -/
structure Rdu.KeepsAnn (r q : Rdu) : Prop where
  running : q.ann.running = r.ann.running
  claim : q.ann.claim = r.ann.claim
  hold : q.ann.hold = r.ann.hold
  low : q.low.above = r.low.above

theorem Rdu.KeepsAnn.refl (r : Rdu) : r.KeepsAnn r := ⟨rfl, rfl, rfl, rfl⟩

theorem Rdu.KeepsAnn.trans {r q w : Rdu} (h : r.KeepsAnn q) (k : q.KeepsAnn w) : r.KeepsAnn w :=
  ⟨k.running.trans h.running, k.claim.trans h.claim, k.hold.trans h.hold, k.low.trans h.low⟩

theorem Rdu.setPath_keepsAnn (r : Rdu) (p : Path) (x : PathRec) : r.KeepsAnn (r.setPath p x) := by
  cases p <;> exact ⟨rfl, rfl, rfl, rfl⟩

theorem Rdu.retune_keepsAnn (r : Rdu) (p : Path) (c : Channel) : r.KeepsAnn (r.retune p c) := by
  unfold Rdu.retune
  cases p <;> (dsimp only [Rdu.setPath]; exact ⟨by split <;> rfl, by split <;> rfl, by split <;> rfl, rfl⟩)

theorem Rdu.useSpare_keepsAnn (r : Rdu) : r.KeepsAnn r.useSpare := by
  have again : ∀ (x : Rdu) (c : Channel) (q : Rdu), q.ann = (x.retune x.spare c).ann → q.low = x.low → x.KeepsAnn q := by
    intro x c q ha hl
    obtain ⟨a, b, d, _⟩ := x.retune_keepsAnn x.spare c
    exact ⟨by rw [ha, a], by rw [ha, b], by rw [ha, d], by rw [hl]⟩
  unfold Rdu.useSpare
  split
  · exact .refl _
  · split
    · exact retune_keepsAnn _ _ _
    · exact .refl _
  · exact again r r.scanPos _ rfl (by unfold Rdu.retune; cases r.spare <;> rfl)
  · split
    · exact .refl _
    · split
      · exact .refl _
      · rename_i c _ _
        exact again r c _ rfl (by unfold Rdu.retune; cases r.spare <;> rfl)

theorem Rdu.useSpareOrWait_keepsAnn (r : Rdu) : r.KeepsAnn r.useSpareOrWait := by
  unfold Rdu.useSpareOrWait
  split
  · exact ⟨rfl, rfl, rfl, rfl⟩
  · exact (useSpare_keepsAnn r).trans ⟨rfl, rfl, rfl, rfl⟩

theorem Rdu.control_keepsAnn (r : Rdu) (c : Store) (a : Bool) : r.KeepsAnn (r.control c a) := by
  unfold Rdu.control
  dsimp only
  split
  · exact Rdu.KeepsAnn.trans (q := { r with mode := r.chosenMode c, divRun := if r.chosenMode c = .diversity then r.divRun else 0 })
      ⟨rfl, rfl, rfl, rfl⟩ (useSpareOrWait_keepsAnn _)
  · exact ⟨rfl, rfl, rfl, rfl⟩

theorem Rdu.makeActive_keepsAnn (r : Rdu) (p : Path) : r.KeepsAnn (r.makeActive p) := by
  unfold Rdu.makeActive
  split <;> exact ⟨rfl, rfl, rfl, rfl⟩

theorem Rdu.swap_keepsAnn (r : Rdu) : r.KeepsAnn r.swap := by
  unfold Rdu.swap
  exact ((setPath_keepsAnn _ _ _).trans (makeActive_keepsAnn _ _)).trans ⟨rfl, rfl, rfl, rfl⟩

theorem Rdu.tickAf_keepsAnn (r : Rdu) (c : Store) : r.KeepsAnn (r.tickAf c) := by
  unfold Rdu.tickAf Rdu.afExpires
  split
  · exact .refl _
  · split
    · exact ⟨rfl, rfl, rfl, rfl⟩
    · split
      · exact Rdu.KeepsAnn.trans (q := { r with afTimer := none, probe := some ⟨r.candidates, 0, .settling, 0, 0, false⟩ })
          ⟨rfl, rfl, rfl, rfl⟩ (control_keepsAnn _ _ _)
      · exact ⟨rfl, rfl, rfl, rfl⟩

theorem Rdu.formRadio_keepsAnn (r : Rdu) (c : Store) : r.KeepsAnn (r.formRadio c) := by
  unfold Rdu.formRadio Rdu.formCrossfade
  split
  · exact ⟨rfl, rfl, rfl, rfl⟩
  · split
    · dsimp only
      split
      · refine Rdu.KeepsAnn.trans ?_ ((useSpare_keepsAnn _).trans ⟨rfl, rfl, rfl, rfl⟩)
        exact ⟨rfl, rfl, rfl, rfl⟩
      · exact ⟨rfl, rfl, rfl, rfl⟩
    · exact (setPath_keepsAnn r r.active r.activeRec.taken).trans ⟨rfl, rfl, rfl, rfl⟩

/-- The swaps and the AF timer at a boundary leave the announcement, and pass on notices alone. -/
theorem Rdu.swapOrTick_keepsAnn (r : Rdu) (c : Store) :
    r.KeepsAnn (r.swapOrTick c).1 ∧ ∀ e ∈ (r.swapOrTick c).2, ∃ n, e = .notice n := by
  unfold Rdu.swapOrTick
  split
  · refine ⟨?_, by simp [Rdu.probeSwap, Rdu.reception]⟩
    have h : r.swap.KeepsAnn (({ r.swap with probe := none } : Rdu).restartAf) := by
      unfold Rdu.restartAf; split <;> exact ⟨rfl, rfl, rfl, rfl⟩
    exact ((swap_keepsAnn r).trans h).trans (control_keepsAnn _ _ _)
  · unfold RduOut.andThen
    split
    · exact ⟨(swap_keepsAnn r).trans (tickAf_keepsAnn _ _), by simp [Rdu.diversitySwap, Rdu.reception]⟩
    · exact ⟨tickAf_keepsAnn _ _, by simp⟩

/-- An announcement's end takes its claim out of the list (R173, R49). -/
theorem State.announceEnd_claims (s : State) (claim : Option Serial) (cause : AnnounceCause) :
    (s.announceEnd claim cause).cle.claims =
      s.cle.claims.filter (fun c => !(c.name.station == s.own && claim == some c.name.serial)) := by
  unfold State.announceEnd
  cases claim with
  | none => simp
  | some n =>
    have h : ∀ (k : Link) (env : Env), env.own = s.own → k.cle.claims = s.cle.claims →
        (k.endAnnounce env n).cle.claims =
          s.cle.claims.filter (fun c => !(c.name.station == s.own && some n == some c.name.serial)) := by
      intro k env he hk
      have same : ∀ c : Claim, (c.name != (⟨s.own, n⟩ : ClaimRef)) = !(c.name.station == s.own && some n == some c.name.serial) := by
        intro c
        rcases c with ⟨⟨p, m⟩, f, st, o⟩
        rw [Bool.eq_iff_iff]
        simp only [bne_iff_ne, ne_eq, ClaimRef.mk.injEq, Bool.not_eq_true', Bool.and_eq_false_iff, beq_eq_false_iff_ne,
          Option.some.injEq]
        constructor
        · intro x
          by_cases y : p = s.own
          · exact Or.inr (fun z => x ⟨y, z.symm⟩)
          · exact Or.inl y
        · rintro (x | x) ⟨y, z⟩
          · exact x y
          · exact x z.symm
      unfold Link.endAnnounce
      split
      · rename_i hf
        rw [hk]
        refine (List.filter_eq_self.mpr (fun c hc => ?_)).symm
        rw [← same]
        rw [he, hk] at hf
        have := List.find?_eq_none.mp hf c hc
        simpa using this
      · rename_i c hf
        unfold Link.releaseHeld
        rw [GoodLink.recompose_claims]
        show eraseClaim c.name k.cle.claims = _
        have hc := List.find?_some hf
        simp only [beq_iff_eq] at hc
        rw [hc, hk, he]
        exact List.filter_congr (fun d _ => same d)
    exact h _ _ rfl rfl

/-- The claims that the Radio Unit's work at a boundary leaves: all but an announcement's that ends. -/
theorem State.boundaryRadio_claims (x s : State) (hr : s.rdu.KeepsAnn x.rdu) (hx : x.own = s.own) :
    x.boundaryRadio.cle.claims = x.cle.claims.filter (fun c => !s.announcementGoes c.name) := by
  obtain ⟨hk, hn⟩ := Rdu.swapOrTick_keepsAnn x.rdu.riseHoldOff x.cpt.store
  have hk : s.rdu.KeepsAnn (x.rdu.riseHoldOff.swapOrTick x.cpt.store).1 :=
    hr.trans (Rdu.KeepsAnn.trans (q := x.rdu.riseHoldOff) ⟨rfl, rfl, rfl, rfl⟩ hk)
  show ((x.rdu.boundary x.cpt.store).2.foldl State.rduEffect { x with rdu := (x.rdu.boundary x.cpt.store).1 }).cle.claims = _
  generalize hq : x.rdu.riseHoldOff.swapOrTick x.cpt.store = o at hk hn
  have hb : x.rdu.boundary x.cpt.store = (o.1.tickReception.1, o.2 ++ o.1.tickReception.2) := by
    unfold Rdu.boundary RduOut.andThen
    rw [hq]
  rw [hb, List.foldl_append]
  dsimp only
  have notices : ∀ (l : List RduEffect) (y : State), (∀ e ∈ l, ∃ n, e = .notice n) →
      (l.foldl State.rduEffect y).cle = y.cle ∧ (l.foldl State.rduEffect y).own = y.own := by
    intro l
    induction l with
    | nil => intro y _; exact ⟨rfl, rfl⟩
    | cons e l ih =>
      intro y h
      obtain ⟨n, rfl⟩ := h e (by simp)
      obtain ⟨a, b⟩ := ih (y.rduEffect (.notice n)) (fun e he => h e (by simp [he]))
      exact ⟨a, b.trans (by simp only [State.rduEffect, State.own, Cpt.raise])⟩
  obtain ⟨hc, ho⟩ := notices o.2 { x with rdu := o.1.tickReception.1 } hn
  generalize o.2.foldl State.rduEffect { x with rdu := o.1.tickReception.1 } = y at hc ho
  have stay : (∀ n, s.announcementGoes n = false) → x.cle.claims = x.cle.claims.filter (fun c => !s.announcementGoes c.name) :=
    fun h => (List.filter_eq_self.mpr (fun c _ => by rw [h]; rfl)).symm
  unfold Rdu.tickReception
  rw [hk.running, hk.low]
  by_cases a : s.rdu.ann.running = true
  · rw [if_pos a]
    by_cases b : s.rdu.low.above = true
    · rw [if_pos b]
      show y.cle.claims = _
      rw [hc]
      exact stay (fun n => by simp [State.announcementGoes, b])
    · rw [if_neg b]
      dsimp only
      rw [hk.hold]
      have b : s.rdu.low.above = false := by simpa using b
      by_cases d : s.rdu.ann.hold + 1 < Config.receptionEnd
      · rw [if_pos d]
        show y.cle.claims = _
        rw [hc]
        have : ¬ (99 ≤ s.rdu.ann.hold) := by unfold Config.receptionEnd at d; omega
        exact stay (fun n => by simp [State.announcementGoes, this])
      · rw [if_neg d]
        have : 99 ≤ s.rdu.ann.hold := by unfold Config.receptionEnd at d; omega
        unfold Rdu.endAnnouncement
        rw [if_pos (show ({ o.1 with ann := { o.1.ann with hold := s.rdu.ann.hold + 1 } } : Rdu).ann.running = true from hk.running.trans a)]
        show (y.announceEnd o.1.ann.claim .reception).cle.claims = _
        rw [State.announceEnd_claims, hc, ho, hk.claim]
        show x.cle.claims.filter _ = _
        refine List.filter_congr (fun c _ => ?_)
        have : State.own { x with rdu := o.1.tickReception.1 } = s.own := hx
        simp_all [State.announcementGoes]
  · rw [if_neg a]
    show y.cle.claims = _
    rw [hc]
    have a : s.rdu.ann.running = false := by simpa using a
    exact stay (fun n => by simp [State.announcementGoes, a])

/-! ### The whole boundary -/

/-- Work that leaves the peer entries of the other stations. -/
def SameOthers (own : StationNo) (c d : Cle) : Prop := ∀ p, p ≠ own → d.peers.get p = c.peers.get p

theorem SameOthers.trans {own : StationNo} {c d e : Cle} (h : SameOthers own c d) (k : SameOthers own d e) :
    SameOthers own c e := fun p hp => (k p hp).trans (h p hp)

theorem Link.recompose_others (k : Link) (env : Env) : SameOthers env.own k.cle (k.recompose env).cle := by
  intro p hp
  unfold Link.recompose
  split
  · show (k.cle.peers.set env.own _).get p = _
    rw [Tbl.get_set, if_neg (Ne.symm hp)]
  · rfl

theorem Link.releaseHeld_others (k : Link) (env : Env) (c : Claim) : SameOthers env.own k.cle (k.releaseHeld env c).cle := by
  unfold Link.releaseHeld
  exact SameOthers.trans (fun _ _ => rfl) (Link.recompose_others _ env)

theorem Link.abandon_others (own : StationNo) (k : Link) (c : Claim) : SameOthers own k.cle (k.abandon c).cle := by
  intro p _
  unfold Link.abandon
  dsimp only
  split <;> rfl

theorem Link.tickWindow_others (k : Link) (env : Env) : SameOthers env.own k.cle (k.tickWindow env).cle := by
  unfold Link.tickWindow
  split
  · exact fun _ _ => rfl
  · split
    · split
      · exact fun _ _ => rfl
      · unfold Link.expireWindow
        split
        · exact SameOthers.trans (fun _ _ => rfl) (Link.recompose_others _ env)
        · exact fun _ _ => rfl
    · exact fun _ _ => rfl

theorem Link.checkNoIdle_others (k : Link) (env : Env) : SameOthers env.own k.cle (k.checkNoIdle env).cle := by
  unfold Link.checkNoIdle
  split
  · dsimp only
    split
    · exact fun _ _ => rfl
    · unfold Link.isolate Link.abandonAtIsolation
      dsimp only
      split
      · exact fun _ _ => rfl
      · split
        · split
          · exact fun _ _ => rfl
          · exact SameOthers.trans (fun _ _ => rfl) (Link.abandon_others env.own _ _)
        · exact fun _ _ => rfl
  · exact fun _ _ => rfl

theorem State.announceEnd_others (s : State) (n : Option Serial) (a : AnnounceCause) :
    SameOthers s.own s.cle (s.announceEnd n a).cle := by
  unfold State.announceEnd
  cases n with
  | none => exact fun _ _ => rfl
  | some n =>
    show SameOthers s.own s.cle (Link.cle (Link.endAnnounce _ _ n))
    unfold Link.endAnnounce
    split
    · exact fun _ _ => rfl
    · exact Link.releaseHeld_others { s with pub := s.pub.setRadioClass false }.link { s with pub := s.pub.setRadioClass false }.env _

/-- The Radio Unit passes on no start of an announcement at a boundary. -/
theorem Rdu.boundary_starts (r : Rdu) (c : Store) : RduEffect.announceStart ∉ (r.boundary c).2 := by
  unfold Rdu.boundary RduOut.andThen
  obtain ⟨_, h⟩ := Rdu.swapOrTick_keepsAnn r.riseHoldOff c
  intro hm
  rcases List.mem_append.mp hm with hm | hm
  · obtain ⟨n, e⟩ := h _ hm
    cases e
  · revert hm
    unfold Rdu.tickReception Rdu.endAnnouncement
    dsimp only
    repeat' split
    all_goals simp

theorem State.boundaryRadio_others (s : State) : SameOthers s.own s.cle s.boundaryRadio.cle := by
  have all : ∀ (l : List RduEffect) (y : State), RduEffect.announceStart ∉ l →
      SameOthers y.own y.cle (l.foldl State.rduEffect y).cle ∧ (l.foldl State.rduEffect y).own = y.own := by
    intro l
    induction l with
    | nil => intro y _; exact ⟨fun _ _ => rfl, rfl⟩
    | cons e l ih =>
      intro y h
      obtain ⟨a, b⟩ := ih (y.rduEffect e) (fun x => h (List.mem_cons_of_mem _ x))
      have o : (y.rduEffect e).own = y.own := by
        have := (State.rduEffect_keeps y e).cpt.store
        unfold State.own
        rw [this]
      refine ⟨SameOthers.trans ?_ (o ▸ a), b.trans o⟩
      cases e with
      | notice n => exact fun _ _ => rfl
      | announceStart => exact absurd (List.mem_cons_self ..) h
      | announceEnd n c => exact State.announceEnd_others y n c
  exact (all _ { s with rdu := (s.rdu.boundary s.cpt.store).1 } (Rdu.boundary_starts _ _)).1

/-- The parts of a boundary before the Radio Unit's other work leave the claim list as the no-idle check left it. -/
theorem State.boundaryServed_cle (s : State) :
    let s1 := s.boundaryOutput.boundaryLevels.boundaryIdle.boundaryRadioBlock
    let sounds := s1.sounds s.pku.uplink
    let s2 := ((s1.boundaryDecide s.mixView).boundaryPickup s.mixView).boundaryIntake
    let s3 := (s2.boundaryMix s.mixView (s.mxe.activated s.mixView) sounds).boundaryUplink s.mixView sounds
    let s4 := s3.boundaryPublish (s.cle.lifecycle == .active)
    s4.cle.claims = s1.cle.claims ∧ s4.cle.peers = s1.cle.peers ∧ s4.own = s.own ∧ s4.rdu = s.rdu.formRadio s.cpt.store := by
  intro s1 sounds s2 s3 s4
  have pub : ∀ (l : List PubSlotNo) (x : State),
      (l.foldl (State.publishSlot (s.cle.lifecycle == .active)) x).cle.claims = x.cle.claims ∧
      (l.foldl (State.publishSlot (s.cle.lifecycle == .active)) x).cle.peers = x.cle.peers := by
    intro l
    induction l with
    | nil => intro x; exact ⟨rfl, rfl⟩
    | cons i l ih =>
      intro x
      obtain ⟨a, b⟩ := ih (State.publishSlot (s.cle.lifecycle == .active) x i)
      have : (State.publishSlot (s.cle.lifecycle == .active) x i).cle.claims = x.cle.claims ∧
          (State.publishSlot (s.cle.lifecycle == .active) x i).cle.peers = x.cle.peers := by
        unfold State.publishSlot
        split <;> exact ⟨rfl, rfl⟩
      exact ⟨a.trans this.1, b.trans this.2⟩
  have h2 : s2.cle = s1.cle := by
    show (State.pickupSlot _ _).cle = _
    unfold State.pickupSlot
    split <;> rfl
  obtain ⟨_, _, _, _, _, hr, hc, _⟩ := s.boundary_served
  obtain ⟨a, b⟩ := pub (Tbl.indices 2) s3
  refine ⟨a.trans (congrArg Cle.claims h2), b.trans (congrArg Cle.peers h2), ?_, ?_⟩
  · have : s4.cpt.store = s.cpt.store := ((State.boundaryPublish_keeps _ s3).cpt.store).trans hc
    unfold State.own
    rw [this]
  · exact (boundaryPublish_rdu _ s3).trans hr

/-- What the parts of a boundary make of one claim, in their order. -/
theorem State.claimSteps (s : State) (c : Claim) :
    ((((Option.guard (fun c => match c.state with
      | .bidding _ none => !s.abandonsAtBoundary c
      | _ => true) c).bind (Option.guard (fun c => !s.announcementGoes c.name))).bind windowStep).bind ageStep).bind
      (Option.guard (fun c => !s.peerExpires c.name.station)) = s.claimAtBoundary c := by
  rcases c with ⟨n, f, st, o⟩
  rcases st with _ | age | ⟨l, _ | _ | w⟩
  · rcases hp : s.peerExpires n.station <;> rcases ha : s.announcementGoes n <;>
      simp [State.claimAtBoundary, windowStep, ageStep, Option.guard, hp, ha]
  · rcases hp : s.peerExpires n.station <;> rcases ha : s.announcementGoes n <;> by_cases h : age < 3 <;>
      simp [State.claimAtBoundary, windowStep, ageStep, Option.guard, hp, ha, h]
  · rcases hp : s.peerExpires n.station <;> rcases ha : s.announcementGoes n <;>
      rcases h : s.abandonsAtBoundary ⟨n, f, .bidding l none, o⟩ <;>
      simp [State.claimAtBoundary, windowStep, ageStep, Option.guard, hp, ha, h]
  · rcases hp : s.peerExpires n.station <;> rcases ha : s.announcementGoes n <;>
      simp [State.claimAtBoundary, windowStep, ageStep, Option.guard, hp, ha]
  · rcases hp : s.peerExpires n.station <;> rcases ha : s.announcementGoes n <;> cases l <;>
      simp [State.claimAtBoundary, windowStep, ageStep, Option.guard, hp, ha]

/-- What a boundary outside CONFIG makes of the claim list (R35, R52, R53, R57, R173). -/
theorem State.boundaryRun_claims (s : State) (h : OneBidList s.own s.cle.claims) :
    s.boundaryRun.cle.claims = s.cle.claims.filterMap s.claimAtBoundary := by
  obtain ⟨c4, p4, o4, r4⟩ := s.boundaryServed_cle
  unfold State.boundaryRun
  dsimp only at c4 p4 o4 r4 ⊢
  generalize hs1 : s.boundaryOutput.boundaryLevels.boundaryIdle.boundaryRadioBlock = s1 at c4 p4 o4 r4 ⊢
  generalize State.boundaryPublish (s.cle.lifecycle == Lifecycle.active) _ = s4 at c4 p4 o4 r4 ⊢
  -- the no-idle check
  have o1 : s.boundaryOutput.boundaryLevels.own = s.own := by
    unfold State.own
    rw [((State.boundaryOutput_keeps s).trans (State.boundaryLevels_keeps _)).cpt.store]
  have c1 : s1.cle.claims = s.cle.claims.filter (fun c =>
      match c.state with
      | .bidding _ none => !s.abandonsAtBoundary c
      | _ => true) := by
    rw [← hs1]
    exact Link.checkNoIdle_claims s.boundaryOutput.boundaryLevels (o1 ▸ h)
  have p1 : SameOthers s.own s.cle s1.cle := by
    rw [← hs1, ← o1]
    exact Link.checkNoIdle_others s.boundaryOutput.boundaryLevels.link s.boundaryOutput.boundaryLevels.env
  -- the announcement
  have c5 := State.boundaryRadio_claims s4 s (r4 ▸ Rdu.formRadio_keepsAnn _ _) o4
  have p5 := State.boundaryRadio_others s4
  have o5 : s4.boundaryRadio.own = s.own := by
    unfold State.own at o4 ⊢
    rw [(State.boundaryRadio_keeps s4).cpt.store, o4]
  generalize s4.boundaryRadio = s5 at c5 p5 o5 ⊢
  have l5 : OneBidList s5.own s5.cle.claims := by
    rw [o5, c5, c4, c1]
    exact (h.filter _).filter _
  -- the bid window and the ages
  have c6 : s5.boundaryClaims.cle.claims = (s5.cle.claims.filterMap windowStep).filterMap ageStep := by
    rw [← ageBids_eq]
    exact congrArg ageBids (Link.tickWindow_claims s5.link s5.env l5)
  have p6 : SameOthers s.own s5.cle s5.boundaryClaims.cle := by
    rw [← o5]
    exact Link.tickWindow_others s5.link s5.env
  have o6 : s5.boundaryClaims.own = s.own := by
    unfold State.own at o5 ⊢
    rw [(State.boundaryClaims_keeps s5).cpt.store, o5]
  generalize s5.boundaryClaims = s6 at c6 p6 o6 ⊢
  -- the peers
  obtain ⟨c7, _, _, _, _, _⟩ := s6.boundaryPeers_holds
  have e7 : s6.peerExpires = s.peerExpires := by
    funext p
    unfold State.peerExpires
    rw [o6]
    by_cases hp : p = s.own
    · simp [hp]
    · rw [p6 p hp]
      have := p5 p (o4 ▸ hp)
      rw [this, p4, p1 p hp]
  rw [e7] at c7
  generalize s6.boundaryPeers = s7 at c7 ⊢
  have c8 : (if s7.cle.lifecycle = s.cle.lifecycle then s7.boundaryCadence else s7).cle.claims = s7.cle.claims := by
    split
    · show (Link.tickCadence _ _).cle.claims = _
      unfold Link.tickCadence
      split
      · rfl
      · dsimp only; split <;> rfl
      · dsimp only; split <;> rfl
      · dsimp only; split <;> rfl
    · rfl
  show (if s7.cle.lifecycle = s.cle.lifecycle then s7.boundaryCadence else s7).cle.claims = _
  rw [c8, c7, c6, c5, c4, c1]
  simp only [← List.filterMap_eq_filter, List.filterMap_filterMap]
  refine congrArg (fun f => List.filterMap f s.cle.claims) (funext fun c => ?_)
  exact s.claimSteps c

end Sys2Proof.Machine
end

