-- ==== Sys2Proof/Laws/Frames.lean ====
section
/-! SUPPORT. A payload built with its check passes the check (R8), so a frame as read is judged by its bytes alone;
and whole bytes come back from their bits on SDI (R208). -/

namespace Sys2Proof.Machine

open Sys2Proof

@[simp] theorem checkBytes_length (c : BitVec 32) : (checkBytes c).length = 4 := rfl

/-- The bytes of a payload come back from its check. -/
theorem checkedBytes_withCheck (bytes : List Byte) : checkedBytes (withCheck bytes) = some bytes := by
  have hl : (withCheck bytes).length = bytes.length + 4 := by simp [withCheck]
  unfold checkedBytes
  rw [if_pos (by omega), hl, Nat.add_sub_cancel]
  rw [show (withCheck bytes).take bytes.length = bytes by simp [withCheck],
    show (withCheck bytes).drop bytes.length = checkBytes (crc32 bytes) by simp [withCheck], if_pos rfl]

/-- The bytes of a payload that passes its check are what the payload was built from. -/
theorem withCheck_of_checkedBytes {payload bytes : List Byte} (h : checkedBytes payload = some bytes) :
    payload = withCheck bytes := by
  unfold checkedBytes at h
  split at h
  · split at h
    · rename_i hd
      cases h
      rw [withCheck, ← hd, List.take_append_drop]
    · cases h
  · cases h

/-- Acceptance of a frame as a station sends it rests on the reading of its bytes. -/
theorem acceptFrame_asRead (latch : Latch) (own : StationNo) (sense : WireSense) (b : FrameBody) :
    acceptFrame latch (b.asRead own sense) =
      if latchAgrees latch sense then parseBody (b.key own) (headerByte (b.key own) :: b.bytes) else none := by
  simp [acceptFrame, FrameBody.asRead, FrameBody.payload, checkedBytes_withCheck]

/-- A byte comes back from its bits, most significant first (R208). -/
theorem bytesOfBits_cons (b : Byte) (l : List Bool) : bytesOfBits (bitsOfByte b ++ l) = b :: bytesOfBits l := by
  have h : byteOfBits (bitsOfByte b) = b := by revert b; decide
  simp only [bitsOfByte, List.map, List.cons_append, List.nil_append, bytesOfBits] at *
  rw [h]

/-- Whole bytes come back from their bits, and a partial byte after them is dropped (R208). -/
theorem bytesOfBits_flatMap (bytes : List Byte) (extra : List Bool) (h : extra.length < 8) :
    bytesOfBits (bytes.flatMap bitsOfByte ++ extra) = bytes := by
  induction bytes with
  | nil =>
    match extra, h with
    | [], _ | [_], _ | [_, _], _ | [_, _, _], _ | [_, _, _, _], _ | [_, _, _, _, _], _ | [_, _, _, _, _, _], _
    | [_, _, _, _, _, _, _], _ => rfl
    | _ :: _ :: _ :: _ :: _ :: _ :: _ :: _ :: _, h => simp at h; omega
  | cons b l ih => rw [List.flatMap_cons, List.append_assoc, bytesOfBits_cons, ih]

end Sys2Proof.Machine
end

