-- ==== Sys2Proof/Laws/Mix.lean ====
section
/-! SUPPORT. What a feed resolves to, gives, aims at and plays, in the terms of Safety.lean: one law for each piece of
the Mix Engine's work at a block boundary. -/

namespace Sys2Proof.Machine

open Sys2Proof

/-- Where the function answers exactly on what a test accepts, the first answer is that of the first accepted entry. -/
theorem findSome?_eq_find?_bind {α β : Type} (l : List α) (p : α → Bool) (g : α → Option β)
    (h : ∀ a, p a = true → (g a).isSome) (q : α → Option β) (hq : ∀ a, q a = if p a then g a else none) : l.findSome? q = (l.find? p).bind g := by
  induction l with
  | nil => rfl
  | cons a l ih =>
    rw [List.findSome?_cons, List.find?_cons, hq a]
    by_cases e : p a = true
    · simp only [e, if_true]
      have := h a e
      cases ha : g a with
      | none => rw [ha] at this; cases this
      | some b => simp [ha]
    · simp only [e]; simpa using ih

/-- The first answer over the entries that one test accepts and another lets answer. -/
theorem findSome?_filter {α β : Type} (l : List α) (f p : α → Bool) (g : α → Option β) :
    (l.filter f).findSome? (fun a => if p a then g a else none) =
      l.findSome? (fun a => if f a && p a then g a else none) := by
  induction l with
  | nil => rfl
  | cons a l ih =>
    rw [List.filter_cons]
    by_cases e : f a = true
    · simp only [e, if_true, List.findSome?_cons, ih, Bool.true_and]
    · simp only [e, List.findSome?_cons]; simpa using ih

/-- A feed resolves as R92 and R93 say. -/
theorem resolveFeed_eq (s : State) (o : OutputNo) (sel : Selector) :
    resolveFeed s.mixView o sel = s.resolution o sel := by
  cases sel with
  | none => rfl
  | local_ _ => rfl
  | stream _ => rfl
  | follow k =>
    simp only [resolveFeed, resolveFollow, State.resolution, Cle.covering, State.mixView]
    have := findSome?_filter s.cle.claims (fun e => e.isHeld && zonesShare e.fields.zones (s.cpt.store.zonesOfOutput o))
      (fun c => decide (c.fields.kind = k)) (fun c => c.fields.ref.map (fun n => (n, c.name)))
    simp only [decide_eq_true_eq] at this
    rw [this]
    apply findSome?_eq_find?_bind
    · intro a h; simp at h; simp [h]
    · intro a
      cases a.fields.ref <;> simp [Bool.and_assoc, Bool.and_comm, Bool.and_left_comm, beq_iff_eq]
  | uplink =>
    simp only [resolveFeed, resolveUplink, State.resolution, ownHeld, State.mixView]
    have := findSome?_filter s.cle.claims (fun c => c.name.station == s.own && c.isHeld)
      (fun c => decide (c.fields.kind = .call)) (fun c => (uplinksOf s.iku.callLoss c.name).head?.map (fun n => (n, c.name)))
    simp only [decide_eq_true_eq] at this
    rw [this]
    have hu : ∀ r : ClaimRef, (uplinksOf s.iku.callLoss r).head? = (List.finRange 16).find? (fun n => s.iku.callLoss.any (fun e => e.ref == r && e.uplink == n)) := by
      intro r; unfold uplinksOf CallLoss.isFor; rw [List.head?_filter]
    have hs : ∀ r : ClaimRef, ((uplinksOf s.iku.callLoss r).head?).isSome = s.iku.callLoss.any (fun e => e.ref == r) := by
      intro r; rw [hu]
      rw [Bool.eq_iff_iff]
      simp
    simp only [← hu]
    apply findSome?_eq_find?_bind
    · intro a h; simp only [Bool.and_eq_true] at h; rw [Option.isSome_map, hs]; exact h.2
    · intro a
      have := hs a.name
      rcases h1 : (uplinksOf s.iku.callLoss a.name).head? with _ | n
      · rw [h1] at this; simp only [Option.isSome_none] at this; simp [← this]
      · rw [h1] at this; simp only [Option.isSome_some] at this; simp only [← this]; simp [Bool.and_comm]

/-- A place of lists summed place by place. -/
theorem foldl_zipWith_add (ps : List (List Int)) : ∀ (acc : List Int) (n : Nat), n < acc.length →
    (∀ p ∈ ps, n < p.length) →
    (ps.foldl (List.zipWith (· + ·)) acc)[n]? = some (acc.getD n 0 + (ps.map (fun p => p.getD n 0)).sum) := by
  induction ps with
  | nil => intro acc n h _; simp [h]
  | cons p ps ih =>
    intro acc n h hp
    rw [List.foldl_cons, ih _ n (by simp; exact ⟨h, hp p (by simp)⟩) (fun q hq => hp q (by simp [hq]))]
    have := hp p (by simp)
    simp [h, this, List.getD_eq_getElem?_getD, add_assoc]

/-- One instant of products summed and saturated (R113). -/
theorem mixDown_getElem? (ps : List (List Int)) (n : Nat) (h : n < 48) (hp : ∀ p ∈ ps, n < p.length) :
    (mixDown ps)[n]? = some (saturate (ps.map (fun p => p.getD n 0)).sum) := by
  unfold mixDown
  rw [List.getElem?_map, foldl_zipWith_add _ _ n (by simpa [Config.blockLen] using h) hp]
  have : (List.replicate Config.blockLen (0:Int)).getD n 0 = 0 := by
    simp [List.getD_eq_getElem?_getD, List.getElem?_replicate]; split <;> rfl
  rw [this]; simp

theorem Mxe.applyLevels_feeds (m : Mxe) : m.applyLevels.1.feeds = m.feeds := by unfold Mxe.applyLevels; split <;> rfl

/-- The feed whose ramp step an unforced feed takes: the feed as it was, or at 128 at the first sound after STARVED. -/
def Feed.rampsFrom (f : Feed) (target : Nat) (returns : Bool) : Feed :=
  { f with
    target := target
    current := if returns then 128 else f.current
    releaseCount := if returns then 0 else f.releaseCount }

/-- A ramp step changes the current attenuation and the release count alone. -/
theorem Feed.rampStep_frame (attack interval : Nat) (f : Feed) :
    f.rampStep attack interval = { f with
      current := (f.rampStep attack interval).current, releaseCount := (f.rampStep attack interval).releaseCount } := by
  unfold Feed.rampStep
  split
  · rfl
  · split
    · split <;> rfl
    · rfl

/-- A ramp step reads the target, the current attenuation and the release count alone. -/
theorem Feed.rampStep_congr (attack interval : Nat) {f g : Feed} (ht : f.target = g.target) (hc : f.current = g.current)
    (hr : f.releaseCount = g.releaseCount) :
    (f.rampStep attack interval).current = (g.rampStep attack interval).current ∧
      (f.rampStep attack interval).releaseCount = (g.rampStep attack interval).releaseCount := by
  unfold Feed.rampStep
  rw [ht, hc, hr]
  split
  · exact ⟨rfl, rfl⟩
  · split
    · split
      · exact ⟨rfl, rfl⟩
      · exact ⟨rfl, rfl⟩
    · exact ⟨rfl, rfl⟩

/-- What steps 6 and 7 of R114 leave in an active feed. -/
theorem Feed.move_holds (v : MixView) (l fb o cfg a sn) (f : Feed) :
    (f.move v l fb o cfg a sn).resolved = f.resolved ∧ (f.move v l fb o cfg a sn).claim = f.claim ∧
    (f.move v l fb o cfg a sn).active = f.active ∧ (f.move v l fb o cfg a sn).served = sn.served ∧
    (f.move v l fb o cfg a sn).cls = sn.cls ∧ (f.move v l fb o cfg a sn).priv = sn.priv ∧
    (f.move v l fb o cfg a sn).target = targetOf v l fb o cfg f sn.cls sn.stream ∧
    ((a = true ∨ sn.force = true) →
      (f.move v l fb o cfg a sn).current = 128 ∧ (f.move v l fb o cfg a sn).releaseCount = 0) ∧
    (¬ (a = true ∨ sn.force = true) →
      (f.move v l fb o cfg a sn).current = ((f.rampsFrom (targetOf v l fb o cfg f sn.cls sn.stream) sn.returns).rampStep
        v.store.attack v.store.releaseInterval).current ∧
      (f.move v l fb o cfg a sn).releaseCount =
        ((f.rampsFrom (targetOf v l fb o cfg f sn.cls sn.stream) sn.returns).rampStep
          v.store.attack v.store.releaseInterval).releaseCount) := by
  unfold Feed.move
  simp only [Bool.or_eq_true]
  by_cases h : a = true ∨ sn.force = true
  · simp [h, Feed.silence, Config.mute]
  · simp only [h, if_false]
    rw [Feed.rampStep_frame]
    let f1 : Feed := { f with served := sn.served, cls := sn.cls, priv := sn.priv
                              target := targetOf v l fb o cfg f sn.cls sn.stream }
    have k := Feed.rampStep_congr v.store.attack v.store.releaseInterval (f := if sn.returns = true then f1.silence else f1)
      (g := f.rampsFrom (targetOf v l fb o cfg f sn.cls sn.stream) sn.returns)
      (by split <;> rfl) (by by_cases r : sn.returns = true <;> simp [r, f1, Feed.rampsFrom, Feed.silence, Config.mute])
      (by by_cases r : sn.returns = true <;> simp [r, f1, Feed.rampsFrom, Feed.silence])
    refine ⟨?_, ?_, ?_, ?_, ?_, ?_, ?_, fun e => e.elim, fun _ => k⟩ <;> split <;> rfl

/-- A stream gives what R95 and R96 say. -/
theorem streamSound_holds (s t : State) (hg : s.servedIku.KeepsGiven t.iku)
    (hr : t.rdu.radio = (s.rdu.formRadio s.cpt.store).radio) (n : StreamNo) :
    StreamSound s t n (streamSound s.mixView s.servedIku s.boundarySounds n) := by
  have hsrc : ∀ src st, SourceSound s t src st (localSound s.mixView s.boundarySounds src st) := by
    intro src st
    unfold SourceSound localSound
    cases src <;> simp [State.boundarySounds, State.sounds, Sounds.of, sourceBlock, hr, State.mixView, Config.blockLen]
    unfold pickupBlock monoBlock silentBlock
    cases s.pku.uplink <;> rfl
  unfold StreamSound streamSound
  have e1 : s.mixView.own = s.own := rfl
  have e2 : s.mixView.pub = s.pub := rfl
  have e3 : s.mixView.heard = s.iku.heard := rfl
  rw [e1, e2, e3]
  split
  · cases h : s.pub.slots.get (slotOf n) with
    | idle => simp [PubSlot.source, silentBlock, Config.blockLen]
    | publishing src q => simp only [PubSlot.source]; exact hsrc _ _
  · dsimp only
    rw [← hg.given n, ← hg.bufferOf n]
    unfold Iku.given
    cases h : t.iku.bufferOf n with
    | none => simp [silentRing, Config.blockLen, StereoSample.zero]
    | some j => simp

/-- An active feed gives what R95 and R96 say. -/
theorem feedSound_holds (s t : State) (hg : s.servedIku.KeepsGiven t.iku)
    (hr : t.rdu.radio = (s.rdu.formRadio s.cpt.store).radio) (sel) (f : Feed) :
    SoundOf s t sel f.resolved (feedSound s.mixView s.servedIku s.boundarySounds sel f) := by
  have hsrc : ∀ src st, SourceSound s t src st (localSound s.mixView s.boundarySounds src st) := by
    intro src st
    unfold SourceSound localSound
    cases src <;> simp [State.boundarySounds, State.sounds, Sounds.of, sourceBlock, hr, State.mixView, Config.blockLen]
    unfold pickupBlock monoBlock silentBlock
    cases s.pku.uplink <;> rfl
  unfold SoundOf feedSound
  cases sel with
  | none => trivial
  | local_ src => exact hsrc _ _
  | stream n => exact streamSound_holds s t hg hr n
  | follow k => intro n hn; simp only [hn]; exact streamSound_holds s t hg hr n
  | uplink => intro n hn; simp only [hn]; exact streamSound_holds s t hg hr n

/-- A running maximum is an upper bound of its values and one of them. -/
theorem foldl_max_holds {α} (l : List α) (f : α → Nat) : ∀ a, (∀ x ∈ l, f x ≤ l.foldl (fun acc c => max acc (f c)) a) ∧
    a ≤ l.foldl (fun acc c => max acc (f c)) a ∧
    (l.foldl (fun acc c => max acc (f c)) a = a ∨ l.foldl (fun acc c => max acc (f c)) a ∈ l.map f) := by
  induction l with
  | nil => intro a; simp
  | cons x l ih =>
    intro a
    obtain ⟨h1, h2, h3⟩ := ih (max a (f x))
    rw [List.foldl_cons]
    refine ⟨?_, by omega, ?_⟩
    · intro y hy
      rcases List.mem_cons.mp hy with rfl | hy
      · omega
      · exact h1 y hy
    · rcases h3 with h3 | h3
      · rw [h3]
        by_cases h : a ≤ f x
        · right; simp [h]
        · left; omega
      · right; simp only [List.map_cons, List.mem_cons]; exact Or.inr h3

theorem greatestIn_foldl_max {α} (l : List α) (f : α → Nat) :
    GreatestIn (l.map f) (l.foldl (fun acc c => max acc (f c)) 0) := by
  obtain ⟨h1, h2, h3⟩ := foldl_max_holds l f 0
  refine ⟨?_, ?_⟩
  · intro x hx; obtain ⟨y, hy, rfl⟩ := List.mem_map.mp hx; exact h1 y hy
  · rcases h3 with h3 | h3
    · cases l with
      | nil => right; simp
      | cons a l =>
        left
        have := h1 a (by simp)
        rw [h3] at this ⊢
        simp only [List.map_cons, List.mem_cons]
        left; omega
    · exact Or.inl h3

theorem leastIn_min? (l : List Nat) : LeastIn l ((l.min?).getD 0) := by
  cases h : l.min? with
  | none => rw [List.min?_eq_none_iff] at h; subst h; exact ⟨by simp, Or.inr ⟨rfl, rfl⟩⟩
  | some a =>
    rw [List.min?_eq_some_iff] at h
    exact ⟨fun x hx => h.2 x hx, Or.inl h.1⟩

theorem zonesShare_bit (zs : ZoneSet) (z : Zone) : zonesShare zs z.bit = zoneIn zs z := by
  revert zs; cases z <;> decide

/-- The duck of a zone is what R97 and R100 say. -/
theorem duckOf_holds (s : State) (o : OutputNo) (sel : Selector) (f : Feed) (cls : SoundClass) (z : Zone) :
    DuckIs s o sel f.claim cls z (duckOf s.mixView o sel f cls z) := by
  unfold DuckIs duckOf
  dsimp only
  have e : (s.mixView.cle.covering z.bit).filter (fun c => !passedOver o sel f c) = (s.cle.claims.filter (fun c =>
      c.isHeld && zoneIn c.fields.zones z && f.claim != some c.name
      && !(c.fields.kind == .quiet && (o.val == 8 || o.val == 9) && sel == .follow .priv))) := by
    unfold Cle.covering passedOver
    rw [List.filter_filter]
    show List.filter _ s.cle.claims = _
    apply List.filter_congr
    intro c _
    rw [zonesShare_bit]
    simp only [Bool.not_or, bne]
    cases c.isHeld <;> cases zoneIn c.fields.zones z <;> simp [Bool.and_comm]
  have e2 : (fun c : Claim => (s.mixView.store.duck.get (duckKind s.mixView.cle c).idx).get cls.idx) = (fun c : Claim => (s.cpt.store.duck.get
      ((if c.fields.kind = .call ∧ (∃ n, c.fields.ref = some n ∧ s.cle.marks.get n = true) then ClaimKind.priv else c.fields.kind)).idx).get cls.idx) := by
    funext c
    congr 3
    unfold duckKind
    have : s.mixView.cle.privateCall c = true ↔ ∃ n, c.fields.ref = some n ∧ s.cle.marks.get n = true := by
      unfold Cle.privateCall
      cases c.fields.ref <;> simp [State.mixView]
    by_cases hk : c.fields.kind = .call
    · by_cases hp : s.mixView.cle.privateCall c = true
      · rw [if_pos ⟨hk, hp⟩, if_pos ⟨hk, this.mp hp⟩]
      · rw [if_neg (fun k => hp k.2), if_neg (fun k => hp (this.mpr k.2))]
    · rw [if_neg (fun k => hk k.1), if_neg (fun k => hk k.1)]
  rw [e, ← e2]
  exact greatestIn_foldl_max _ _

/-- The talk loss is what R102 says. -/
theorem talkLoss_holds (s : State) (cls) (st : Option StreamNo) : TalkLossIs s cls st (talkLoss s.mixView cls st) := by
  unfold TalkLossIs talkLoss
  cases st with
  | none => cases cls <;> simp
  | some n =>
    cases cls <;> simp only [reduceCtorEq, false_and, if_false, Option.isSome_some, true_and, if_true]
    show GreatestIn _ ((s.cle.claims.filter _).foldl _ 0)
    generalize s.cle.claims.filter _ = l
    have hb : ∀ c : Claim, (talkLossOf s.iku.callLoss c.name).getD 0 =
        (((s.iku.callLoss.filter (fun e => e.ref == c.name)).map CallLoss.talkLoss).max?).getD 0 := fun _ => rfl
    obtain ⟨h1, h2⟩ := greatestIn_foldl_max l (fun c => (talkLossOf s.iku.callLoss c.name).getD 0)
    refine ⟨?_, ?_⟩
    · intro x hx
      obtain ⟨c, hc, hx⟩ := List.mem_flatMap.mp hx
      refine le_trans ?_ (h1 _ (List.mem_map.mpr ⟨c, hc, rfl⟩))
      rw [hb]
      cases hm : ((s.iku.callLoss.filter (fun e => e.ref == c.name)).map CallLoss.talkLoss).max? with
      | none => rw [List.max?_eq_none_iff] at hm; rw [hm] at hx; cases hx
      | some a => rw [List.max?_eq_some_iff] at hm; exact hm.2 x hx
    · show (List.foldl (fun acc c => max acc ((talkLossOf s.iku.callLoss c.name).getD 0)) 0 l) ∈ _ ∨ _ ∧ (List.foldl (fun acc c => max acc ((talkLossOf s.iku.callLoss c.name).getD 0)) 0 l) = 0
      generalize (List.foldl (fun acc c => max acc ((talkLossOf s.iku.callLoss c.name).getD 0)) 0 l) = m at *
      by_cases hf : l.flatMap (fun c => (s.iku.callLoss.filter (fun e => e.ref == c.name)).map CallLoss.talkLoss) = []
      · right
        refine ⟨hf, ?_⟩
        rcases h2 with h2 | h2
        · obtain ⟨c, hc, hm⟩ := List.mem_map.mp h2
          rw [List.flatMap_eq_nil_iff] at hf
          rw [← hm, hb, hf c hc]; rfl
        · exact h2.2
      · left
        rcases h2 with h2 | h2
        · obtain ⟨c, hc, hm⟩ := List.mem_map.mp h2
          rw [hb] at hm
          cases hmx : ((s.iku.callLoss.filter (fun e => e.ref == c.name)).map CallLoss.talkLoss).max? with
          | some a =>
            rw [hmx] at hm; subst hm
            rw [List.max?_eq_some_iff] at hmx
            exact List.mem_flatMap.mpr ⟨c, hc, hmx.1⟩
          | none =>
            rw [hmx] at hm
            subst hm
            obtain ⟨y, hy⟩ := List.exists_mem_of_ne_nil _ hf
            obtain ⟨d, hd, hy'⟩ := List.mem_flatMap.mp hy
            have := h1 _ (List.mem_map.mpr ⟨d, hd, rfl⟩)
            rw [hb] at this
            cases hmd : ((s.iku.callLoss.filter (fun e => e.ref == d.name)).map CallLoss.talkLoss).max? with
            | none => rw [List.max?_eq_none_iff] at hmd; rw [hmd] at hy'; cases hy'
            | some a =>
              rw [hmd] at this
              have h0 : a = 0 := by simpa using this
              rw [List.max?_eq_some_iff] at hmd
              subst h0
              exact List.mem_flatMap.mpr ⟨d, hd, hmd.1⟩
        · simp only [List.map_eq_nil_iff] at h2
          rw [h2.1] at hf; simp at hf

/-- The target is what R100 to R104 say. -/
theorem targetOf_holds (s t : State) (o : OutputNo) (cfg : FeedConfig) (f : Feed) (x : FeedSound) :
    TargetIs s t o cfg f.claim x (targetOf s.mixView t.mxe.live t.mxe.fallback o cfg f x.cls x.stream) := by
  refine ⟨fun z => duckOf s.mixView o cfg.selector f x.cls z, outputTerm s.mixView t.mxe.live o cfg.selector f x.cls,
    talkLoss s.mixView x.cls x.stream, fun z => duckOf_holds .., leastIn_min? _, talkLoss_holds .., ?_⟩
  have hd : s.mixView.derateOf o = if h : o.val < 8 then (s.ost.bridges.get ⟨o.val, h⟩).derate else 0 := by
    unfold MixView.derateOf bridgeOf
    by_cases h : o.val < 8 <;> simp [h, State.mixView, Ost.derates]
  have hc : ceilingActs s.mixView t.mxe.fallback o x.cls = true ↔ (x.cls = .chime ∧ o.val < 8 ∧
      (zoneIn (s.cpt.store.zonesOfOutput o) .drv = true ∨
      (t.mxe.fallback = true ∧ zoneIn (s.cpt.store.zonesOfOutput o) s.cpt.store.fallbackZone = true))) := by
    unfold ceilingActs bridgeOf
    by_cases h : o.val < 8 <;> simp [h, State.mixView]
  intro derate sum ceiling
  unfold targetOf
  dsimp only
  rw [hd]
  constructor
  · intro h; rw [if_pos (hc.mpr h)]; rfl
  · intro h; rw [if_neg (fun k => h (hc.mp k))]; rfl

end Sys2Proof.Machine
end

