-- ==== Sys2Proof/Laws/Pickup.lean ====
section
/-! SUPPORT. What the Pickup Unit's work at a block boundary does: which call it follows, and what it raises. -/

namespace Sys2Proof.Machine

open Sys2Proof State

theorem zone_or (zs acc : ZoneSet) (z : Zone) : ((zs &&& (acc ||| z.bit)) != 0) = ((zs &&& acc) != 0 || zs.getLsbD z.code) := by
  revert zs acc; cases z <;> decide +kernel

theorem foldl_or_zones (l : List (Option Zone)) (acc : ZoneSet) (zs : ZoneSet) :
    zonesShare zs (l.foldl (fun acc z => acc ||| (z.map Zone.bit).getD 0) acc) = (zonesShare zs acc || l.any (fun z => z.any (zoneIn zs))) := by
  induction l generalizing acc with
  | nil => simp
  | cons z l ih =>
    rw [List.foldl_cons, ih, List.any_cons, ← Bool.or_assoc]
    congr 1
    cases z with
    | none => simp
    | some z =>
      simp only [Option.map_some, Option.getD_some, Option.any_some]
      unfold zonesShare zoneIn
      exact zone_or zs acc z

/-- A zone set meets the microphone zones where it covers a microphone (R176). -/
theorem zonesShare_micZones (c : Store) (zs : ZoneSet) :
    zonesShare zs c.micZones = (List.finRange 4).any (fun m => (c.micZone.get m).any (zoneIn zs)) := by
  unfold Store.micZones
  rw [foldl_or_zones]
  have : zonesShare zs 0 = false := by unfold zonesShare; simp
  rw [this, Bool.false_or, Bool.eq_iff_iff, Tbl.any_iff]
  simp

/-- The first qualifying claim is the first HELD CALL claim that covers a microphone's zone (R180). -/
theorem qualifying_eq (s : State) : qualifying s.cpt.store s.cle = s.cle.claims.find? (fun c => c.isHeld && c.fields.kind == .call &&
      (List.finRange 4).any (fun m => (s.cpt.store.micZone.get m).any (zoneIn c.fields.zones))) := by
  unfold qualifying Cle.bestOf
  congr 1; funext c; rw [zonesShare_micZones]
/-- The candidates are the microphones whose zone is in the set (R187). -/
theorem micIn_candidatesOf (c : Store) (zs : ZoneSet) (m : MicNo) : micIn (candidatesOf c zs) m = (c.micZone.get m).any (zoneIn zs) := by
  unfold micIn candidatesOf
  refine (BitVec.getLsbD_ofBoolListLE (bs := (Tbl.indices 4).map (fun m => (c.micZone.get m).any (zoneIn zs))) (i := m.val)).trans ?_
  fin_cases m <;> rfl
theorem Pku.select_echo (p : Pku) : p.select.echo = p.echo ∧ p.select.candidates = p.candidates := by
  unfold Pku.select
  split
  · exact ⟨rfl, rfl⟩
  · split; exact ⟨rfl, rfl⟩; split; exact ⟨rfl, rfl⟩; split <;> (dsimp only; split <;> exact ⟨rfl, rfl⟩)
theorem Pku.run_echo (p : Pku) (c : Store) (e : List StereoSample) (sv : Bool) (m : Tbl 4 (List Sample)) : (p.run_ c e sv m).echo = p.echo ∧ (p.run_ c e sv m).candidates = p.candidates := by
  unfold Pku.run_
  split
  · exact ⟨rfl, rfl⟩
  · simp only [Pku.formUplink, Pku.split, Pku.hang, Pku.setSuppression, select_echo, Pku.measure]; simp

/-- What step 1 of the Pickup Unit leaves in the call, the echo stream, the candidates and the notices (R180 to R184). -/
theorem State.decidedPku_holds (s : State) : let first := qualifying s.cpt.store s.cle
   s.decidedPku.call = first.map Claim.name ∧
   (∀ c, first = some c → s.decidedPku.echo = c.fields.ref ∧ s.decidedPku.candidates = candidatesOf s.cpt.store c.fields.zones) ∧
    (first = none → s.decidedPku = if s.pku.call = none then s.pku else Pku.inactive) ∧
   ∀ c : Cpt, (c.raiseAll (s.pku.decide_ s.cpt.store s.cle).2.2).notices.get 4 = (match s.pku.call, first with
      | none, none => c.notices.get 4
      | none, some k => some (raisedEntry (c.notices.get 4) (.pickupActive k.name s.decidedPku.candidates k.fields.ref))
      | some r, some k => if k.name = r then c.notices.get 4 else some (raisedEntry (c.notices.get 4) (.pickupSwitched r k.name k.fields.ref))
      | some r, none => some (raisedEntry (c.notices.get 4) (.pickupInactive r))) := by
  intro first
  have r4 : ∀ (c : Cpt) (n : Notice), n.place = 4 → (c.raiseAll [n]).notices.get 4 = some (raisedEntry (c.notices.get 4) n) := by
    intro c n h; have := Cpt.raise_place c n; rw [h] at this; exact this
  unfold State.decidedPku Pku.decide_
  rcases h : s.pku.call with _ | r <;> rcases hq : first with _ | k <;> (have hq' : qualifying s.cpt.store s.cle = _ := hq) <;> rw [hq'] <;> dsimp only
  · simp [h]
  · refine ⟨rfl, ?_, by simp, fun c => r4 _ _ rfl⟩
    intro c hc; cases hc; exact ⟨rfl, rfl⟩
  · refine ⟨rfl, by simp, by simp, fun c => r4 _ _ rfl⟩
  · by_cases hr : k.name = r
    · simp only [hr, if_true]
      refine ⟨?_, ?_, by simp, fun c => rfl⟩
      · unfold Pku.follow; dsimp only; split <;> simp [h, hr]
      · intro c hc; cases hc; unfold Pku.follow; dsimp only; split <;> exact ⟨rfl, rfl⟩
    · simp only [hr, if_false]
      refine ⟨rfl, ?_, by simp, fun c => r4 _ _ rfl⟩
      intro c hc; cases hc; exact ⟨rfl, rfl⟩

/-- The PICKUP place is touched by step 1 alone. -/
theorem State.boundaryRun_pickupNotice (s : State) : s.boundaryRun.cpt.notices.get 4 = ((s.boundaryOutput.boundaryLevels.boundaryIdle.boundaryRadioBlock.boundaryDecide s.mixView).boundaryPickup s.mixView).cpt.notices.get 4 := by
  unfold State.boundaryRun
  dsimp only
  generalize ((s.boundaryOutput.boundaryLevels.boundaryIdle.boundaryRadioBlock.boundaryDecide s.mixView).boundaryPickup s.mixView) = s2
  rw [← State.boundaryIntake_sameAt s2 (i := 4) (by decide)]
  generalize hs3 : (State.boundaryUplink _ _ (State.boundaryMix _ _ _ s2.boundaryIntake)) = s3
  have h3 : s3.cpt = s2.boundaryIntake.cpt := by rw [← hs3]; rfl
  rw [← h3, ← boundaryPublish_cpt (s.cle.lifecycle == Lifecycle.active) s3]
  generalize s3.boundaryPublish (s.cle.lifecycle == Lifecycle.active) = s4
  exact State.boundaryRest_sameAt s4 (by decide) (by decide) (by decide) (by decide) (s4.boundaryRadio.boundaryClaims.boundaryPeers.cle.lifecycle = s.cle.lifecycle)

/-! ### Levels, selection and the steps after -/

/-- The level is what R186 says, from the peak. -/
theorem level_holds (l : List Sample) (p : Nat) (h : GreatestIn (l.map (fun x => min 8388607 x.toInt.natAbs)) p) :
    (p = 0 → level l = 128) ∧
    ∀ k, 2 ^ k ≤ p → p < 2 ^ (k + 1) → level l = min 128 (8 * (22 - k) + (15 - 8 * p / 2 ^ k)) := by
  have hp : peak l = p := by
    have g : GreatestIn (l.map (fun x => min 8388607 x.toInt.natAbs)) (peak l) := greatestIn_foldl_max l magnitude
    obtain ⟨h1, h2⟩ := h
    obtain ⟨g1, g2⟩ := g
    rcases h2 with h2 | h2 <;> rcases g2 with g2 | g2
    · exact le_antisymm (h1 _ g2) (g1 _ h2)
    · rw [g2.1] at h2; cases h2
    · rw [h2.1] at g2; cases g2
    · rw [h2.2, g2.2]
  unfold level
  rw [hp]
  refine ⟨fun h => by rw [h]; rfl, fun k h1 h2 => ?_⟩
  have hne : p ≠ 0 := by have := Nat.two_pow_pos k; omega
  unfold levelOfPeak
  rw [if_neg hne]
  have hk : p.log2 = k := (Nat.log2_eq_iff hne).mpr ⟨h1, h2⟩
  dsimp only
  rw [hk]
  have : (if 3 ≤ k then p / 2 ^ (k - 3) else p * 2 ^ (3 - k)) = 8 * p / 2 ^ k := by
    split
    · rename_i h3
      have : 2 ^ k = 8 * 2 ^ (k - 3) := by rw [show (8:Nat) = 2^3 from rfl, ← pow_add]; congr 1; omega
      rw [this, Nat.mul_div_mul_left _ _ (by norm_num)]
    · have h3 : k = 0 ∨ k = 1 ∨ k = 2 := by omega
      rcases h3 with rfl | rfl | rfl <;> simp <;> omega
  rw [this]
  rfl

/-- The fold that looks for the loudest candidate. -/
theorem loudest_fold (cand : MicNo → Bool) (f : MicNo → Nat) (l : List MicNo) (hs : l.Pairwise (· < ·)) : ∀ acc : Option MicNo, (∀ b, acc = some b → cand b = true ∧ ∀ d ∈ l, b < d) →
   match l.foldl (fun acc m => if cand m then match acc with
      | none => some m
      | some b => if f m < f b then some m else some b
     else acc) acc with
   | none => acc = none ∧ ∀ d ∈ l, cand d = false
   | some m => cand m = true ∧ (m ∈ l ∨ acc = some m) ∧ (∀ d ∈ l, cand d = true → f m < f d ∨ f m = f d ∧ m ≤ d) ∧ (∀ b, acc = some b → f m < f b ∨ f m = f b ∧ m ≤ b) := by
  induction l with
  | nil =>
    intro acc h
    cases acc with
    | none => simp
    | some b => simp [(h b rfl).1]
  | cons a l ih =>
    intro acc h
    rw [List.foldl_cons]
    have hs' := (List.pairwise_cons.mp hs)
    by_cases hc : cand a = true
    · rw [if_pos hc]
      cases acc with
      | none =>
        dsimp only
        have := ih hs'.2 (some a) (by intro b hb; cases hb; exact ⟨hc, hs'.1⟩)
        split at this
        · simp at this
        · rename_i m hm
          obtain ⟨q1, q2, q3, q4⟩ := this
          have q5 := q4 a rfl
          refine ⟨q1, ?_, ?_, by simp⟩
          · rcases q2 with q2 | q2
            · simp [q2]
            · injection q2 with q2; simp [q2]
          · intro d hd
            rcases List.mem_cons.mp hd with rfl | hd
            · intro _; exact q5
            · exact q3 d hd
      | some b =>
        dsimp only
        have hb := (h b rfl).2 a (by simp)
        by_cases hlt : f a < f b
        · rw [if_pos hlt]
          have := ih hs'.2 (some a) (by intro b hb; cases hb; exact ⟨hc, hs'.1⟩)
          split at this
          · simp at this
          · rename_i m hm
            obtain ⟨q1, q2, q3, q4⟩ := this
            have q5 := q4 a rfl
            refine ⟨q1, ?_, ?_, ?_⟩
            · rcases q2 with q2 | q2
              · simp [q2]
              · injection q2 with q2; simp [q2]
            · intro d hd
              rcases List.mem_cons.mp hd with rfl | hd
              · intro _; exact q5
              · exact q3 d hd
            · intro b' hb'; cases hb'; omega
        · rw [if_neg hlt]
          have := ih hs'.2 (some b) (by intro b' hb'; cases hb'; exact ⟨(h b rfl).1, fun d hd => (h b rfl).2 d (by simp [hd])⟩)
          split at this
          · simp at this
          · rename_i m hm
            obtain ⟨q1, q2, q3, q4⟩ := this
            have q5 := q4 b rfl
            refine ⟨q1, ?_, ?_, ?_⟩
            · rcases q2 with q2 | q2
              · simp [q2]
              · right; exact q2
            · intro d hd
              rcases List.mem_cons.mp hd with rfl | hd
              · intro _; rcases q5 with q5 | ⟨q5, q6⟩
                · omega
                · have : m ≤ d := le_trans q6 (le_of_lt hb)
                  by_cases hd : f m < f d
                  · exact Or.inl hd
                  · exact Or.inr ⟨by omega, this⟩
              · exact q3 d hd
            · intro b' hb'; cases hb'; exact q5
    · rw [if_neg hc]
      have := ih hs'.2 acc (by intro b hb; exact ⟨(h b hb).1, fun d hd => (h b hb).2 d (by simp [hd])⟩)
      split at this
      · rename_i hm
        refine ⟨this.1, ?_⟩
        intro d hd
        rcases List.mem_cons.mp hd with rfl | hd
        · simpa using hc
        · exact this.2 d hd
      · rename_i m hm
        obtain ⟨q1, q2, q3, q4⟩ := this
        refine ⟨q1, ?_, ?_, q4⟩
        · rcases q2 with q2 | q2
          · simp [q2]
          · right; exact q2
        · intro d hd
          rcases List.mem_cons.mp hd with rfl | hd
          · intro h; exact absurd h hc
          · exact q3 d hd

/-- The loudest of the candidates that are not skipped, the lowest-numbered among several (R187). -/
def Pku.Best (p : Pku) (skip : MicNo → Bool) (m : MicNo) : Prop := (micIn p.candidates m && !skip m) = true ∧
   ∀ d, (micIn p.candidates d && !skip d) = true → p.lm.get m < p.lm.get d ∨ p.lm.get m = p.lm.get d ∧ m ≤ d

theorem Pku.loudest_iff (p : Pku) (skip : MicNo → Bool) (m : MicNo) : p.loudest skip = some m ↔ Pku.Best p skip m := by
  have h := loudest_fold (fun m => micIn p.candidates m && !skip m) (fun m => p.lm.get m) (Tbl.indices 4) (by decide) none (by simp)
  generalize hx : List.foldl _ none (Tbl.indices 4) = x at h
  have hl : p.loudest skip = x := hx
  rw [hl]
  cases x with
  | none =>
    dsimp only at h
    constructor
    · intro h; cases h
    · intro hb
      have := h.2 m (List.mem_finRange m)
      rw [hb.1] at this; cases this
  | some b =>
    dsimp only at h
    obtain ⟨q1, q2, q3, q4⟩ := h
    constructor
    · intro h; cases h; exact ⟨q1, fun d hd => q3 d (List.mem_finRange d) hd⟩
    · intro hb
      have e1 := q3 m (List.mem_finRange m) hb.1
      have e2 := hb.2 b q1
      congr 1
      apply Fin.ext
      have : ∀ a b : MicNo, a ≤ b ↔ a.val ≤ b.val := fun a b => Iff.rfl
      rw [this] at e1 e2
      omega

theorem Pku.loudest_none (p : Pku) (skip : MicNo → Bool) (h : p.loudest skip = none) (m : MicNo) : ¬ Pku.Best p skip m := by
  intro hb; rw [(Pku.loudest_iff p skip m).mpr hb] at h; cases h

/-- What step 4 leaves in the selection (R187). -/
theorem Pku.select_holds (p : Pku) :
   (p.selected = none → (∀ m, p.select.selected = some m ↔ Pku.Best p (fun _ => false) m) ∧ p.select.challenger = none ∧ p.select.run = 0) ∧
   ∀ m, p.selected = some m →
      ((∀ d, Pku.Best p (fun x => x == m) d → p.lm.get m < p.lm.get d + 6) → p.select.selected = some m ∧ p.select.challenger = none ∧ p.select.run = 0) ∧
      (∀ d, Pku.Best p (fun x => x == m) d → p.lm.get d + 6 ≤ p.lm.get m →
        let run := if p.challenger = some d then p.run + 1 else 1
        (run < 5 → p.select.selected = some m ∧ p.select.challenger = some d ∧ p.select.run = run) ∧
        (5 ≤ run → p.select.selected = some d ∧ p.select.challenger = none ∧ p.select.run = 0)) := by
  constructor
  · intro h
    unfold Pku.select
    simp only [h]
    exact ⟨fun m => Pku.loudest_iff p _ m, trivial, trivial⟩
  · intro m h
    rcases hl : p.loudest (fun x => x == m) with _ | c
    · have e : p.select = { p with challenger := none, run := 0 } := by unfold Pku.select; rw [h]; dsimp only; rw [hl]
      rw [e]
      refine ⟨fun _ => ⟨h, rfl, rfl⟩, fun d hd => absurd hd (Pku.loudest_none _ _ hl d)⟩
    · have hb := (Pku.loudest_iff p _ c).mp hl
      have hun : ∀ d, Pku.Best p (fun x => x == m) d → d = c := by
        intro d hd; rw [(Pku.loudest_iff p _ d).mpr hd] at hl; injection hl
      have e : p.select = if p.lm.get m < p.lm.get c + 6 then { p with challenger := none, run := 0 } else
         if (if p.challenger = some c then p.run + 1 else 1) < 5 then { p with challenger := some c, run := (if p.challenger = some c then p.run + 1 else 1) }
         else { p with selected := some c, challenger := none, run := 0 } := by unfold Pku.select; rw [h]; dsimp only; rw [hl]; rfl
      rw [e]
      constructor
      · intro hall
        rw [if_pos (hall c hb)]
        exact ⟨h, rfl, rfl⟩
      · intro d hd hle run
        have := hun d hd; subst this
        rw [if_neg (by omega)]
        constructor
        · intro hr
          rw [if_pos hr]
          exact ⟨h, rfl, rfl⟩
        · intro hr
          rw [if_neg (by omega)]
          exact ⟨rfl, rfl, rfl⟩

/-- Step 4 touches the selection alone. -/
theorem Pku.select_rest (p : Pku) : p.select = { p with selected := p.select.selected, challenger := p.select.challenger, run := p.select.run } := by
  unfold Pku.select
  split
  · rfl
  · split; simp_all; split; simp_all; split <;> (dsimp only; split <;> simp_all)

/-- What step 1 hands on while a call is followed (R181 to R183). -/
theorem State.decidedPku_rest (s : State) (r : ClaimRef) (h : s.decidedPku.call = some r) :
   let anew := s.pku.call ≠ some r
   s.decidedPku.selected = (if anew then none else s.pku.selected.filter (micIn s.decidedPku.candidates)) ∧
   (s.decidedPku.selected ≠ none → s.decidedPku.challenger = s.pku.challenger ∧ s.decidedPku.run = s.pku.run) ∧
   s.decidedPku.far = (if anew then 0 else s.pku.far) ∧ s.decidedPku.near = (if anew then 0 else s.pku.near) ∧
   s.decidedPku.su = (if anew then s.cpt.store.callLoss / 2 else s.pku.su) := by
  dsimp only
  unfold State.decidedPku Pku.decide_ at h ⊢
  rcases Option.eq_none_or_eq_some s.pku.call with hc | ⟨r0, hc⟩ <;> rcases Option.eq_none_or_eq_some (qualifying s.cpt.store s.cle) with hq | ⟨k, hq⟩ <;> rw [hc, hq] at h <;> rw [hc, hq] <;> dsimp only at h ⊢
  · rw [hc] at h; cases h
  · rw [if_pos (by simp), if_pos (by simp), if_pos (by simp), if_pos (by simp)]
    exact ⟨rfl, by simp [Pku.activate, Pku.startSplit, Pku.inactive], rfl, rfl, rfl⟩
  · cases h
  · by_cases hr : k.name = r0
    · simp only [hr, if_true] at h ⊢
      have hcall : (s.pku.follow s.cpt.store k).call = s.pku.call := by unfold Pku.follow; dsimp only; split <;> rfl
      rw [hcall, hc] at h
      rw [if_neg (by simp [h]), if_neg (by simp [h]), if_neg (by simp [h]), if_neg (by simp [h])]
      unfold Pku.follow
      dsimp only
      cases hs : s.pku.selected with
      | none => simp [hs]
      | some m =>
        simp only [Option.all_some, Option.filter_some]
        split
        · rename_i hm; simp [hs, hm]
        · rename_i hm; simp [hm]
    · simp only [hr, if_false] at h ⊢
      have e : (s.pku.switch s.cpt.store k).call = some k.name := rfl
      rw [e] at h
      injection h with h
      have ha : (some r0 : Option ClaimRef) ≠ some r := by rw [← h]; simp; exact fun e => hr e.symm
      rw [if_pos ha, if_pos ha, if_pos ha, if_pos ha]
      exact ⟨rfl, by simp [Pku.switch, Pku.startSplit], rfl, rfl, rfl⟩

/-- What steps 3 to 7 leave (R186 to R191). -/
theorem Pku.run_holds (p : Pku) (c : Store) (e : List StereoSample) (sv : Bool) (mics : Tbl 4 (List Sample)) (h : p.call ≠ none) :
   let p1 := { p with echoServed := sv }.measure c e mics
   let q := p.run_ c e sv mics
   q.lm = p1.lm ∧ q.ld = p1.ld ∧ q.echoServed = sv ∧ q.selected = p1.select.selected ∧ q.challenger = p1.select.challenger ∧ q.run = p1.select.run ∧
   q.far = hangAfter (q.farActive c) p.far ∧ q.near = hangAfter (q.nearActive c) p.near ∧ q.supp = suppressionOf q.far q.near ∧
   q.su = suAfter (suTarget c.callLoss q.supp) p.su ∧ q.sd = c.callLoss - q.su ∧
   q.uplink = some (match q.selected with
      | some m => ((mics.get m).map (attenuate (min Config.mute (q.su + c.micTrim.get m))))
      | none => (List.replicate Config.blockLen 0)) := by
  intro p1 q
  have hq : q = (((p1.select).hang c).split c).formUplink c mics := by
    show p.run_ c e sv mics = _
    unfold Pku.run_
    rw [if_neg (by simpa using h)]
  have hr := Pku.select_rest p1
  have g : ∀ x : Pku, x = { p1 with selected := x.selected, challenger := x.challenger, run := x.run } → q = (((x).hang c).split c).formUplink c mics →
     q.lm = p1.lm ∧ q.ld = p1.ld ∧ q.echoServed = sv ∧ q.selected = x.selected ∧ q.challenger = x.challenger ∧ q.run = x.run ∧
   q.far = hangAfter (q.farActive c) p.far ∧ q.near = hangAfter (q.nearActive c) p.near ∧ q.supp = suppressionOf q.far q.near ∧
   q.su = suAfter (suTarget c.callLoss q.supp) p.su ∧ q.sd = c.callLoss - q.su ∧
   q.uplink = some (match q.selected with
      | some m => ((mics.get m).map (attenuate (min Config.mute (q.su + c.micTrim.get m))))
      | none => (List.replicate Config.blockLen 0)) := by
    intro x hx hqx
    rw [hqx]
    refine ⟨?_, ?_, ?_, rfl, rfl, rfl, ?_, ?_, rfl, ?_, rfl, ?_⟩
    · show x.lm = _; rw [hx]
    · show x.ld = _; rw [hx]
    · show x.echoServed = _; rw [hx]; rfl
    · show hangAfter (x.farActive c) x.far = hangAfter (x.farActive c) p.far; rw [show x.far = p.far by rw [hx]; rfl]
    · show hangAfter (x.nearActive c) x.near = hangAfter (x.nearActive c) p.near; rw [show x.near = p.near by rw [hx]; rfl]
    · show suAfter _ x.su = suAfter _ p.su; rw [show x.su = p.su by rw [hx]; rfl]; rfl
    · unfold Pku.formUplink; dsimp only; cases ((x.hang c).split c).selected <;> rfl
  exact g p1.select hr hq

end Sys2Proof.Machine
end

