-- ==== Sys2Proof/Tests/Slice0.lean ====
section
/-! SUPPORT. Small tests of the model against worked values of the spec, the smoke test of well-formedness, and for every
statement with hypotheses a theorem that shows states and operands which meet them, clause by clause. -/

namespace Sys2Proof.Tests

set_option Elab.async false

open Sys2Proof Sys2Proof.Machine

/-! ### Helpers -/

/-- Bytes from numbers. -/
def bs (l : List Nat) : List Byte := l.map (BitVec.ofNat 8)

/-- The state after one command. -/
def go (c : Instr) (s : State) : State :=
  match exec c s with
  | .next t => t
  | _ => s

/-- A started station of number 1 in a lifecycle state. -/
def up (lc : Lifecycle) : State :=
  { State.reset with
    cle := { Cle.reset with lifecycle := lc }
    cpt := { Cpt.reset with store := { Store.reset with station := some 1 }, fixed := true } }

/-- An exclusive claim's fields: CALL, urgency 2, zone PAS, stream 6. -/
def callFields : ClaimFields := ⟨.call, 2, 2, some 6⟩

/-- An overlay claim's fields: QUIET on every zone. -/
def quietFields : ClaimFields := ⟨.quiet, 0, 31, none⟩

/-- An own claim of station 1. -/
def ownClaim (n : Serial) (f : ClaimFields) (st : ClaimState) (o : Origin) : Claim := ⟨⟨1, n⟩, f, st, some o⟩

/-- A claim of station 3. -/
def peerClaim (n : Serial) (f : ClaimFields) (st : ClaimState) : Claim := ⟨⟨3, n⟩, f, st, none⟩

/-- A station with a claim list. -/
def withClaims (lc : Lifecycle) (l : List Claim) : State := { up lc with cle := { (up lc).cle with claims := l } }

/-- A station whose LIF is changed. -/
def withLif (s : State) (l : Lif) : State := { s with lif := l }

/-- A station whose Radio Unit is changed. -/
def withRdu (s : State) (r : Rdu) : State := { s with rdu := r }

/-- A station with bridge 2 changed. -/
def withBridge (s : State) (b : Bridge) : State := { s with ost := s.ost.setBridge 2 b }

/-- A frame of station 3 as read. -/
def heard (b : FrameBody) : LineFrame := b.asRead 3 .normal

/-- A silent mono SOUND frame of stream 6. -/
def silentSound (seq : Serial) (call : Option CallBlock) : SoundFrame :=
  ⟨6, seq, .programme, true, false, call, List.replicate 48 ⟨0, 0⟩⟩

/-- A PRESENCE frame. -/
def somePresence : PresenceFrame := ⟨.active, 3, 0, [⟨6, .programme, false, true⟩], [⟨5, callFields⟩]⟩

/-- A frame in flight from a store. -/
def flightOf (st : TxStore) (b : FrameBody) : Flight := ⟨st, b, false, false, false⟩

/-! ### Well-formedness: an ill-formed term for each check -/

theorem test_wellFormed_refuses :
    (Instr.setConfig 0 0 (List.replicate 31 0)).wellFormed = false ∧
    (Instr.malformedRequest (bs [1, 0])).wellFormed = false ∧
    (Instr.malformedRequest (bs [0, 33])).wellFormed = false ∧
    (Instr.discardedTransaction (bs [1, 0])).wellFormed = false ∧
    (Instr.discardedTransaction (bs [0])).wellFormed = false ∧
    (Instr.readTransaction 0).wellFormed = false ∧
    (Instr.frontEndReport .a ⟨0, 0, 0, 0, [], List.replicate 48 0, none⟩).wellFormed = false ∧
    (Instr.frontEndReport .a ⟨0, 0, 0, 0, List.replicate 48 0, [0], none⟩).wellFormed = false := by decide

theorem test_wellFormed_takes :
    (Instr.setConfig 0 0 (List.replicate 30 0)).wellFormed = true ∧
    (Instr.malformedRequest (bs [1, 33])).wellFormed = true ∧
    (Instr.malformedRequest (bs [99, 0])).wellFormed = true ∧
    (Instr.malformedRequest (bs [5, 2, 1])).wellFormed = true ∧
    (Instr.malformedRequest (bs [5, 1, 1])).wellFormed = true ∧
    (Instr.discardedTransaction (bs [7])).wellFormed = true ∧
    (Instr.discardedTransaction []).wellFormed = true ∧
    (Instr.readTransaction 1).wellFormed = true ∧
    (Instr.frontEndReport .a ⟨0, 0, 0, 0, List.replicate 48 0, List.replicate 48 0, none⟩).wellFormed = true := by decide

/-! ### The bytes of transactions and the table word -/

theorem test_transactions_decode :
    decodeTransaction (bs [5, 2, 4, 200]) = .setLevel 4 200 ∧ decodeTransaction (bs [12, 2, 1, 154]) = .tune 410 ∧
    decodeTransaction (bs [10, 3, 4, 0, 31]) = .claim 4 0 31 none ∧
    decodeTransaction (bs [10, 4, 0, 2, 1, 6]) = .claim 0 2 1 (some 6) ∧
    decodeTransaction (bs [3, 3, 0, 0, 1]) = .setConfig 0 0 (bs [1]) ∧ decodeTransaction (bs [22, 0]) = .takeNotice ∧
    decodeTransaction (bs [0, 0, 0]) = .readTransaction 3 ∧ decodeTransaction (bs [7]) = .discardedTransaction (bs [7]) ∧
    decodeTransaction (bs [23, 0]) = .malformedRequest (bs [23, 0]) := by decide

theorem test_no_word_spells_a_command : decodeTableWord 8 5 = none ∧ State.reset.withFetchWord 8 5 = State.reset :=
  ⟨rfl, rfl⟩

/-! ### Worked values of the spec -/

theorem test_gain_table : [0, 1, 23, 24, 120, 121, 128].map gain = [32768, 30048, 4466, 4096, 1, 0, 0] := by decide

theorem test_products : product 1 16384 = 1 ∧ product (-1) 16384 = 0 ∧ product (-1) 32768 = -1 := by decide

theorem test_base_duty : baseDuty 8353656 = 248 ∧ baseDuty 8353655 = 247 ∧ baseDuty (BitVec.ofInt 24 (-8353656)) = 8 ∧
    baseDuty (BitVec.ofInt 24 (-8353655)) = 9 ∧ baseDuty 0 = 128 := by decide +kernel

theorem test_keys : contentionKey 0 1 0 = 2 ∧ contentionKey 1 0 1 = 17 ∧ contentionKey 2 3 0 = 38 := by decide

theorem test_contention : [2, 17, 38].map (fun k => contendKey (keyBits k) (pairKeyBits 6 [2, 17, 38])) =
    [.won, .lost, .lost] := by decide

theorem test_release_frame_read : acceptFrame .unlatched (heard (.claim (.release 9))) = some (.claim (.release 9)) := by
  decide +kernel

theorem test_presence_read :
    acceptFrame .normal (heard (.presence somePresence)) = some (.presence somePresence) := by decide +kernel

theorem test_crossed_frame_discarded : acceptFrame .normal ((FrameBody.claim (.release 9)).asRead 3 .crossed) = none := by
  decide +kernel

theorem test_sound_read :
    acceptFrame .normal (heard (.sound (silentSound 1 none))) = some (.sound (silentSound 1 none)) := by
  rw [heard, acceptFrame_asRead]; decide +kernel

theorem test_smoothing : smooth none 40 = 640 ∧ smooth (some 640) 27 = 588 ∧ smooth (some 483) 30 = 483 := by decide

theorem test_start_joins : (go .start { State.reset with cpt := { Cpt.reset with store := { Store.reset with
    station := some 1 } } }).cle.lifecycle = .joining := by decide +kernel

theorem test_start_without_number : (go .start State.reset).cpt.result = ⟨1, .configInvalid, true, [0]⟩ := by
  decide +kernel

theorem test_level_clamped : (go (.setLevel 1 200) State.reset).cpt.result = ⟨1, .accepted, true, [128]⟩ := by
  decide +kernel

theorem test_call_claim_bids : (go (claimCommand callFields) (up .active)).cle.claims =
    [ownClaim 0 callFields (.bidding true none) .port] := by decide +kernel

theorem test_crossfade_weights : [(0 : Nat), 24, 47].map (fun n => crossfadeSample n 1000 2000) = [1000, 1500, 1979] := by
  decide +kernel

/-! ### Witnesses: the machine and its invariants -/

/-- An ACTIVE station with claims, a queue, a buffer that runs, a notice, and a command that waits. -/
def busyStation : State :=
  { withClaims .active [peerClaim 5 callFields .held, ownClaim 0 quietFields .held .port] with
    lif := { Lif.reset with latch := .normal, queue := [.hold 0 quietFields] }
    iku := { Iku.reset with buffers := Iku.reset.buffers.set 0 { Buffer.free with
      state := .running, stream := some 6, ring := List.replicate 192 ⟨0, 0, false⟩ } }
    pending := [.startOfFrame] }

theorem witness_idle_queue : State.reset.pending = [] := rfl

theorem witness_attention : ∃ s t, AttentionAgrees s ∧ step s = .next t :=
  ⟨busyStation, _, by unfold AttentionAgrees; decide +kernel, rfl⟩

theorem witness_bridges : ∃ s t, BridgesSafe s ∧ step s = .next t :=
  ⟨busyStation, _, by unfold BridgesSafe; decide +kernel, rfl⟩

theorem witness_bounds : ∃ s t, step s = .next t ∧ FillsBounded s ∧ QueueBounded s ∧ FeedsBounded s ∧ LevelsBounded s ∧
    DeratesBounded s :=
  ⟨busyStation, _, rfl, by unfold FillsBounded; decide +kernel, by unfold QueueBounded; decide +kernel,
    by unfold FeedsBounded; decide +kernel, by unfold LevelsBounded; decide +kernel,
    by unfold DeratesBounded; decide +kernel⟩

theorem witness_duties : ∃ s t, DutiesBounded s ∧ step s = .next t :=
  ⟨{ withBridge (up .active) { Bridge.reset with state := .run, d0 := 248, duty := some 255 } with
      pending := [.startOfFrame] }, _, by unfold DutiesBounded; decide +kernel, rfl⟩

theorem witness_split : ∃ s t, SplitAgrees s ∧ step s = .next t ∧ s.pku.call ≠ none :=
  ⟨{ up .active with pku := Pku.activate Store.reset (peerClaim 5 callFields .held), pending := [.startOfFrame] }, _,
    by unfold SplitAgrees; decide +kernel, rfl, by decide⟩

theorem witness_config_quiet : ∃ s t, ConfigQuiet s ∧ s.inConfig = true ∧ step s = .next t :=
  ⟨{ State.reset with pending := [.startOfFrame] }, _, by unfold ConfigQuiet; decide +kernel, rfl, rfl⟩

theorem witness_claim_list : ∃ s t, QueueBounded s ∧ ClaimsBounded s ∧ ClaimsOrdered s ∧ OneBid s ∧ step s = .next t :=
  ⟨busyStation, _, by unfold QueueBounded; decide +kernel, by unfold ClaimsBounded; decide +kernel,
    by unfold ClaimsOrdered; decide +kernel, by unfold OneBid; decide +kernel, rfl⟩

theorem witness_only_pin_reset : ∃ (c : Instr) (s t : State), c ≠ .pinReset ∧ exec c s = .next t ∧ s.inConfig = false ∧
    s.lif.latch ≠ .unlatched :=
  ⟨.startOfFrame, busyStation, _, by decide, rfl, rfl, by decide⟩

/-! ### Witnesses: lifecycle -/

/-- The station in CONFIG with this configuration. -/
def configured (c : Store) : State := { State.reset with cpt := { Cpt.reset with store := c } }

/-- Seven STREAM selectors on LO and post 0, of seven streams; post 0 renders DRV. -/
def manyStreams : Store :=
  { Store.reset with
    station := some 1
    zones := Store.reset.zones.set 8 1
    feeds := Tbl.ofFn (fun o => Tbl.ofFn (fun sl =>
      if 8 ≤ o.val ∧ o.val ≠ 9 ∧ (o.val = 10 ∨ sl.val ≠ 0) then
        ⟨.stream ⟨(4 + 4 * (o.val - 8) / 2 + sl.val) % 16, by omega⟩, .stereo, 0, false⟩
      else FeedConfig.reset o)) }

theorem witness_start :
    (up .active).inConfig = false ∧ (State.reset.inConfig = true ∧ State.reset.cpt.store.station = none) ∧
    (let s := configured { Store.reset with
        station := some 1
        feeds := Store.reset.feeds.set 0 ((Store.reset.feeds.get 0).set 3 ⟨.follow .call, .mid, 0, false⟩) };
      s.inConfig = true ∧ s.cpt.store.station ≠ none ∧ s.cpt.store.used 0 = false ∧
        (s.cpt.store.feed 0 3).selector ≠ .none) ∧
    (let s := configured manyStreams;
      s.inConfig = true ∧ s.cpt.store.station ≠ none ∧
        (∀ (o : OutputNo) (sl : SlotNo), s.cpt.store.used o = false → (s.cpt.store.feed o sl).selector = .none) ∧
        6 < (staticStreams s.cpt.store s.own).length) ∧
    (let s := configured { Store.reset with station := some 1, zones := Store.reset.zones.set 0 31 };
      s.inConfig = true ∧ s.cpt.store.station ≠ none ∧
        (∀ (o : OutputNo) (sl : SlotNo), s.cpt.store.used o = false → (s.cpt.store.feed o sl).selector = .none) ∧
        (staticStreams s.cpt.store s.own).length ≤ 6 ∧ s.cpt.store.bridgeUsed 0 = true) := by decide +kernel

theorem witness_restart : State.reset.inConfig = true ∧ (up .isolated).inConfig = false := by decide

theorem witness_presence_due :
    (∃ s : State, s.cle.lifecycle = .joining ∧ s.cle.joining = 59) ∧
    (∃ s : State, s.cle.lifecycle = .active ∧ s.cle.presenceCount = 49) ∧
    (∃ s : State, s.cle.lifecycle = .isolated ∧ s.cle.presenceCount = 49) :=
  ⟨⟨{ State.reset with cle := { Cle.reset with lifecycle := .joining, joining := 59 } }, rfl, rfl⟩,
    ⟨{ State.reset with cle := { Cle.reset with lifecycle := .active, presenceCount := 49 } }, rfl, rfl⟩,
    ⟨{ State.reset with cle := { Cle.reset with lifecycle := .isolated, presenceCount := 49 } }, rfl, rfl⟩⟩

theorem witness_isolation :
    (∃ s : State, s.cle.lifecycle = .active ∧ (∃ f, s.lif.flight = some f) ∧ s.lif.bitErrorRun = 15) ∧
    (∃ s : State, s.cle.lifecycle = .active ∧ s.lif.anyPending = true ∧ s.lif.idleSeen = false ∧ s.lif.noIdle = 1) :=
  ⟨⟨withLif (up .active) { Lif.reset with
      queue := [.release 3], flight := some (flightOf .queue (.claim (.release 3))), bitErrorRun := 15 }, rfl, ⟨_, rfl⟩, rfl⟩,
    ⟨withLif (up .active) { Lif.reset with queue := [.release 3], noIdle := 1 }, rfl, rfl, rfl, rfl⟩⟩

theorem witness_peer_expiry : ∃ (s : State) (p : StationNo) (e : PeerEntry), s.inConfig = false ∧ p ≠ s.own ∧
    s.cle.peers.get p = some e ∧ e.age = 159 :=
  ⟨{ up .active with cle := { (up .active).cle with peers := Cle.reset.peers.set 3 (some ⟨.active, 0, 0, [], 159⟩) } }, 3,
    ⟨.active, 0, 0, [], 159⟩, rfl, by decide, rfl, rfl⟩

/-! ### Witnesses: the Control Port -/

theorem witness_answered :
    (∃ (c : Instr) (s t : State), exec c s = .next t ∧ isRequest c = true) ∧
    (∃ (c : Instr) (s t : State), exec c s = .next t ∧ isRequest c = false ∧ c ≠ .pinReset) :=
  ⟨⟨.applyLevels, State.reset, _, rfl, rfl⟩, ⟨.readTransaction 3, State.reset, _, rfl, rfl, by decide⟩⟩

theorem witness_transactions : ∃ (i : Instr) (bytes : List Byte), i.wellFormed = true ∧ encodeTransaction i = some bytes :=
  ⟨.setConfig 0 0 (List.replicate 30 0), _, by decide, rfl⟩

theorem witness_setConfig : State.reset.inConfig = true ∧ (up .joining).inConfig = false ∧
    (∃ b : Byte, 7 < b.toNat) ∧ (∃ b : Byte, 1 < (zonesOf (b.setWidth 5)).length) ∧ (∃ b : Byte, 15 < b.toNat) ∧
    ∃ b : Byte, 26 < b.toNat := ⟨rfl, rfl, ⟨8, by decide⟩, ⟨3, by decide⟩, ⟨16, by decide⟩, ⟨27, by decide⟩⟩

theorem witness_config_write : (∃ d, Store.reset.write 14 0 (bs [200]) = some d) ∧
    (∃ d, Store.reset.write 0 0 (bs [7]) = some d) := ⟨⟨_, rfl⟩, ⟨_, rfl⟩⟩

theorem witness_reads : (6#8).toNat ≤ 6 ∧ 6 < (7#8).toNat ∧ (∃ p : StationNo, (7#8).toNat = p.val) ∧ 7 < (8#8).toNat :=
  ⟨by decide, by decide, ⟨7, rfl⟩, by decide⟩

theorem witness_notices :
    (∃ (s : State) (i : Fin 14) (e : NoticeEntry), s.cpt.notices.get i = some e ∧ ∀ j < i, s.cpt.notices.get j = none) ∧
    (∀ i, State.reset.cpt.notices.get i = none) ∧ Cpt.reset.notices.get (Notice.place .seekFailed) = none ∧
    ((Cpt.reset.raise .seekFailed).notices.get (Notice.place .seekFailed)).isSome = true :=
  ⟨⟨{ State.reset with cpt := Cpt.reset.raise (.scan 0 0) }, 10, ⟨1, .scan 0 0⟩, by decide +kernel, by decide +kernel⟩,
    by decide, by decide, by decide⟩

/-! ### Witnesses: Publisher and levels -/

theorem witness_setSource : 3 ≤ (3#8).toNat := by decide

theorem witness_publish : (up .joining).cle.lifecycle ≠ .active ∧ (up .active).cle.lifecycle = .active ∧
    (0#8).toNat = (up .active).cpt.store.openSlot.val ∧ (1#8).toNat ≠ (up .active).cpt.store.openSlot.val ∧
    2 < (3#8).toNat ∧ (2#8).toNat = Source.aux1.code ∧ Source.aux1 ≠ .pickup ∧
    (up .active).pub.slots.get 0 = .idle ∧
    (go (.publish 0 1) (up .active)).pub.slots.get 0 = .publishing .aux0 0 := by decide +kernel

theorem witness_unpublish : State.reset.inConfig = true ∧ (up .isolated).inConfig = false ∧
    (1#8).toNat ≠ (up .isolated).cpt.store.openSlot.val ∧ (0#8).toNat = (up .isolated).cpt.store.openSlot.val ∧
    (∃ s : State, s.cle.lifecycle = .active ∧ s.pub.slots.get 0 ≠ .idle ∧ s.lif.flying (.sound 0) = false) ∧
    (∃ s : State, s.cle.lifecycle = .active ∧ s.pub.slots.get 0 ≠ .idle ∧ s.lif.flying (.sound 0) = true) ∧
    (∃ s : State, s.cle.lifecycle = .isolated ∧ s.pub.slots.get 0 ≠ .idle) := by
  let s : Lifecycle → State := fun lc => { up lc with
    pub := { Pub.reset with slots := Pub.reset.slots.set 0 (.publishing .radio 9) } }
  exact ⟨rfl, rfl, by decide, by decide, ⟨s .active, by decide +kernel⟩,
    ⟨withLif (s .active) { Lif.reset with flight := some (flightOf (.sound 0) (.sound (silentSound 8 none))) },
      by decide +kernel⟩, ⟨s .isolated, by decide +kernel⟩⟩

theorem witness_levels : (4#8).toNat = Zone.trw.code ∧ 4 < (5#8).toNat ∧ (∃ t, exec .restart (up .active) = .next t) ∧
    LevelsBounded State.reset ∧ State.reset.mxe.apply = false ∧ (go .applyLevels State.reset).mxe.apply = true :=
  ⟨by decide, by decide, ⟨_, rfl⟩, by unfold LevelsBounded; decide, rfl, rfl⟩

theorem witness_ramp :
    (∃ f : Feed, f.current < f.target) ∧ (∃ f : Feed, f.target < f.current ∧ f.releaseCount + 1 < 2) ∧
    (∃ f : Feed, f.target < f.current ∧ 2 ≤ f.releaseCount + 1) ∧ (∃ f : Feed, f.target = f.current) ∧
    ∃ (s : State) (f : Feed), (s.mxe.feeds.get 10).get 3 = f ∧ f.active = true ∧ f.target < f.current ∧
      f.releaseCount + 1 = s.cpt.store.releaseInterval := by
  let f : Feed := { Feed.inactive with active := true, target := 127, releaseCount := 1 }
  exact ⟨⟨{ Feed.inactive with current := 127 }, by decide⟩, ⟨{ Feed.inactive with target := 127 }, by decide⟩,
    ⟨f, by decide⟩, ⟨Feed.inactive, rfl⟩,
    ⟨{ State.reset with mxe := { Mxe.reset with feeds := Mxe.reset.feeds.set 10 ((Mxe.reset.feeds.get 10).set 3 f) } }, f,
      by decide +kernel⟩⟩

theorem witness_gain_and_product : 128 ≤ 128 ∧ (121 ≤ 121 ∧ 121 ≤ 128) := by decide

theorem witness_private : ∃ x : FeedConfig × Feed × FeedSound, x.2.2.secret = true ∧ x.2.2.block.length = 48 ∧
    ∃ p, p ∈ bridgeProducts .mid 0 x.2.2 :=
  ⟨⟨⟨.stream 6, .mid, 0, false⟩, Feed.inactive, ⟨silentBlock, .call, true, true, some 6, false, false, true⟩⟩, rfl, rfl, 0,
    by decide⟩

/-! ### Witnesses: claims -/

theorem witness_keys_compare : ∃ a b c : Claim, b.fields.urgency < a.fields.urgency ∧
    (b.fields.urgency = c.fields.urgency ∧ b.name.station < c.name.station ∧ b.name.station ≠ c.name.station) :=
  ⟨peerClaim 0 callFields .held, ownClaim 0 quietFields .held .port, peerClaim 1 quietFields .held, by decide⟩

theorem witness_serial : ∃ s : State, QueueBounded s ∧ ClaimsBounded s :=
  ⟨busyStation, by unfold QueueBounded; decide +kernel, by unfold ClaimsBounded; decide +kernel⟩

/-- Four own claims that do not conflict with a peer's. -/
def fourOwn : List Claim := [0, 1, 2, 3].map (fun n => ownClaim n quietFields .held .port)

theorem witness_claim_refusals : (up .isolated).cle.lifecycle ≠ .active ∧ (up .active).cle.lifecycle = .active ∧
    4 < (5#8).toNat ∧ 3 < (4#8).toNat ∧ 31 < (32#8).toNat ∧ (1#8).toNat ≤ 1 ∧ 15 < (16#8).toNat ∧ callFields.wf = true ∧
    (∃ c ∈ (withClaims .active [peerClaim 5 callFields .held]).cle.claims,
      c.isHeld = true ∧ conflicts c (ownClaim 0 callFields .held .port) = true) ∧
    ((∀ c ∈ fourOwn, c.isHeld = true → conflicts c (ownClaim 0 callFields .held .port) = false) ∧
      4 ≤ (claimsOf 1 fourOwn).length) := by decide +kernel

theorem witness_overlay : ∃ (s : State) (f : ClaimFields), s.cle.lifecycle = .active ∧ f.wf = true ∧
    f.kind.exclusive = false ∧ (claimsOf s.own s.cle.claims).length < 4 ∧ QueueBounded s ∧ ClaimsBounded s ∧
    s.lif.queue.length < 8 :=
  ⟨busyStation, quietFields, rfl, by decide, rfl, by decide +kernel, by unfold QueueBounded; decide +kernel,
    by unfold ClaimsBounded; decide +kernel, by decide⟩

theorem witness_exclusive :
    (∃ (s : State) (f : ClaimFields), s.cle.lifecycle = .active ∧ f.wf = true ∧ f.kind.exclusive = true ∧
      (claimsOf s.own s.cle.claims).length < 4 ∧ QueueBounded s ∧ ClaimsBounded s ∧ OneBid s ∧
      (∀ c ∈ s.cle.claims, c.isHeld = true → conflicts c ⟨⟨s.own, 0⟩, f, .held, none⟩ = false) ∧
      ownBidding s.own s.cle.claims = none) ∧
    (∃ (s : State) (f : ClaimFields) (c : Claim), s.cle.lifecycle = .active ∧ f.wf = true ∧ f.kind.exclusive = true ∧
      (claimsOf s.own s.cle.claims).length < 4 ∧ QueueBounded s ∧ ClaimsBounded s ∧ OneBid s ∧
      (∀ d ∈ s.cle.claims, d.isHeld = true → conflicts d ⟨⟨s.own, 0⟩, f, .held, none⟩ = false) ∧
      ownBidding s.own s.cle.claims = some c) := by
  let c := ownClaim 4 callFields (.bidding true none) .port
  refine ⟨⟨up .active, callFields, rfl, by decide, rfl, by decide +kernel, ?_, ?_, ?_, by decide +kernel, rfl⟩,
    ⟨withClaims .active [c], callFields, c, rfl, by decide, rfl, by decide +kernel, ?_, ?_, ?_, by decide +kernel,
      by decide +kernel⟩⟩ <;> first
    | (unfold QueueBounded; decide +kernel)
    | (unfold ClaimsBounded; decide +kernel)
    | (unfold OneBid; decide +kernel)

theorem witness_release :
    ((up .joining).cle.lifecycle = .config ∨ (up .joining).cle.lifecycle = .joining) ∧
    findClaim ⟨(up .active).own, 7⟩ (up .active).cle.claims = none ∧
    (∃ (s : State) (c : Claim), s.cle.lifecycle = .active ∧ findClaim ⟨s.own, 7⟩ s.cle.claims = some c ∧
      c.origin = some .radio) ∧
    (∃ (s : State) (c : Claim), s.cle.lifecycle = .active ∧ findClaim ⟨s.own, 7⟩ s.cle.claims = some c ∧
      c.origin = some .port ∧ c.isHeld = true ∧ s.lif.busySerial 7 = false ∧ s.lif.queue.length < 8) ∧
    (∃ (s : State) (c : Claim) (link : Bool), s.cle.lifecycle = .isolated ∧ findClaim ⟨s.own, 7⟩ s.cle.claims = some c ∧
      c.origin = some .port ∧ c.isBidding = true ∧ c.state = .bidding link none ∧ s.lif.flight = none) := by
  let r := ownClaim 7 quietFields .held .radio
  let p := ownClaim 7 quietFields .held .port
  let b := ownClaim 7 callFields (.bidding false none) .port
  exact ⟨.inr rfl, rfl, ⟨withClaims .active [r], r, by decide +kernel⟩, ⟨withClaims .active [p], p, by decide +kernel⟩,
    ⟨withClaims .isolated [b], b, false, by decide +kernel⟩⟩

theorem witness_bids_end : ∀ link : Bool,
    (∃ (s : State) (c : Claim), ownBidding s.own s.cle.claims = some c ∧ c.state = .bidding link (some 1) ∧
      s.lif.busySerial c.name.serial = false ∧ s.lif.queue.length < 8) ∧
    ∃ (s : State) (c : Claim), findClaim ⟨3, 9⟩ s.cle.claims = some c ∧ c.state = .heard 3 := by
  intro link
  let c := ownClaim 7 callFields (.bidding link (some 1)) .port
  refine ⟨⟨withClaims .active [c], c, ?_⟩, ⟨withClaims .active [peerClaim 9 callFields (.heard 3)], peerClaim 9 callFields (.heard 3), ?_⟩⟩
  · cases link <;> decide +kernel
  · decide +kernel

/-! ### Witnesses: the line -/

theorem witness_line_idle : (up .active).lif.lineIdle = false ∧ (up .active).lif.flight = none ∧
    ((up .joining).cle.lifecycle = .config ∨ (up .joining).cle.lifecycle = .joining) ∧
    (up .isolated).cle.lifecycle = .isolated ∧ (up .active).cle.lifecycle = .active := by decide +kernel

/-- An ACTIVE station with an own bid and its BID in flight. -/
def bidInFlight : State :=
  withLif (withClaims .active [ownClaim 7 callFields (.bidding true none) .port])
    { Lif.reset with queue := [.bid 7 callFields], flight := some (flightOf .queue (.claim (.bid 7 callFields))) }

/-- A station in a lifecycle state with its presence in flight. -/
def presenceInFlight (lc : Lifecycle) : State :=
  withLif (up lc) { Lif.reset with
    presence := ⟨some somePresence, none⟩, flight := some (flightOf .presence (.presence somePresence)) }

/-- A station with a sound frame in flight, an empty frame held beside it, and a bit-error run. -/
def soundInFlight (lc : Lifecycle) : State :=
  withLif (up lc) { Lif.reset with
    sound := Lif.reset.sound.set 1 ⟨some (silentSound 1 none), some none⟩
    flight := some (flightOf (.sound 1) (.sound (silentSound 1 none)))
    bitErrorRun := 14 }

theorem witness_attempts :
    (∀ s ∈ [bidInFlight, presenceInFlight .active, presenceInFlight .isolated, soundInFlight .active],
      s.lif.flight.any (fun f => !f.orphan) = true) ∧
    (presenceInFlight .isolated).cle.lifecycle = .isolated ∧
    (soundInFlight .active).cle.lifecycle = .active ∧ (soundInFlight .active).lif.bitErrorRun < 15 ∧
    bidInFlight.lif.queue = [.bid 7 callFields] ∧ bidInFlight.lif.besideClaim = none ∧
    bidInFlight.lif.besideBid = none ∧
    ownBidding bidInFlight.own bidInFlight.cle.claims = some (ownClaim 7 callFields (.bidding true none) .port) ∧
    ownBidding (up .active).own (up .active).cle.claims = none := by decide +kernel

theorem test_attempts :
    (go .attemptCompletion bidInFlight).cle.claims = [ownClaim 7 callFields (.bidding true (some 0)) .port] ∧
    (go .attemptCompletion (presenceInFlight .isolated)).cle.lifecycle = .active ∧
    (go .bitError (soundInFlight .active)).lif.bitErrorRun = 15 ∧
    ((go .bitError (soundInFlight .active)).lif.sound.get 1).frame = none ∧
    (go .lostContention (presenceInFlight .active)).lif.presence = ⟨some somePresence, none⟩ := by decide +kernel

/-- A SOUND frame with a call block. -/
def callSound : SoundFrame := silentSound 255 (some ⟨⟨1, 9⟩, 48⟩)

theorem witness_received :
    acceptFrame (up .active).lif.latch ⟨.normal, 48, []⟩ = none ∧
    acceptFrame (up .active).lif.latch (heard (.claim (.release 9))) = some (.claim (.release 9)) ∧
    State.reset.inConfig = true ∧ (up .active).inConfig = false ∧
    keyStation ((FrameBody.claim (.release 9)).asRead 1 .normal).key = (up .active).own ∧
    keyStation (heard (.sound callSound)).key ≠ (up .active).own ∧
    acceptFrame (up .active).lif.latch (heard (.sound callSound)) = some (.sound callSound) := by
  refine ⟨by decide +kernel, by decide +kernel, by decide +kernel, by decide +kernel, by decide +kernel,
    by decide +kernel, ?_⟩
  rw [heard, acceptFrame_asRead]; decide +kernel

theorem witness_received_sound :
    (∀ e ∈ (up .active).iku.callLoss, e.ref = ⟨1, 9⟩ → e.uplink ≠ 6) ∧ (up .active).iku.callLoss.length < 4 ∧
    (let k : Iku := { Iku.reset with buffers := Iku.reset.buffers.set 0 { Buffer.free with
        state := .running, stream := some 6, expected := some 255, ring := List.replicate 144 ⟨0, 0, false⟩ } };
      k.bufferOf 6 = some 0 ∧ (k.buffers.get 0).state = .running ∧ (k.buffers.get 0).expected = some callSound.seq ∧
        (k.buffers.get 0).ring.length + 48 ≤ 192 ∧ (k.buffers.get 1).stream ≠ some 6) := by decide +kernel

theorem witness_peer_frames :
    acceptFrame .unlatched (heard (.claim (.hold 5 callFields))) = some (.claim (.hold 5 callFields)) ∧
    acceptFrame .unlatched (heard (.claim (.bid 5 callFields))) = some (.claim (.bid 5 callFields)) ∧
    acceptFrame .unlatched (heard (.presence somePresence)) = some (.presence somePresence) ∧
    findClaim ⟨3, 5⟩ fourOwn = none ∧ (claimsOf 3 fourOwn).length < 4 ∧
    (∀ c ∈ fourOwn, c.name.station = 1 → conflicts (peerClaim 5 callFields .held) c = false ∧
      conflicts (peerClaim 5 callFields (.heard 0)) c = false) ∧
    (fourOwn.map Claim.name).Nodup ∧
    (let mine := ownClaim 0 callFields .held .port;
      mine.isHeld = true ∧ conflicts (peerClaim 5 callFields .held) mine = true ∧
        keyBetter (peerClaim 5 callFields .held) mine = false) := by decide +kernel

theorem witness_contention_keys : (1 : StationNo) ≠ 3 ∧ keyRank 48#6 = 3 ∧ (2#6) ∈ [2#6, 17#6, 38#6] ∧
    (FrameBody.presence somePresence).wf 3 := by
  refine ⟨by decide, by decide, by decide, ?_⟩
  show PresenceFrame.wf 3 somePresence
  unfold PresenceFrame.wf
  decide

/-! ### Witnesses: the Intake -/

/-- A station with buffer 5 changed. -/
def withBuffer (b : Buffer) : State := { up .active with iku := { Iku.reset with buffers := Iku.reset.buffers.set 5 b } }

theorem witness_stream_starves : ∃ s : State, (s.iku.heard.get 6).state = .live ∧ (s.iku.heard.get 6).age = 7 ∧
    s.iku.bufferOf 6 = some 5 ∧ s.iku.bufferOf 6 ≠ some 0 ∧ (s.iku.buffers.get 5).state = .running :=
  ⟨{ up .active with iku := { Iku.reset with
      heard := Iku.reset.heard.set 6 ⟨.live, some 1, .programme, false, true, 7⟩
      buffers := Iku.reset.buffers.set 5 { Buffer.free with state := .running, stream := some 6 } } }, by decide +kernel⟩

theorem witness_slip_and_repeat :
    (∃ s : State, (s.iku.buffers.get 5).state = .running ∧ (s.iku.buffers.get 5).highRun = 7 ∧
      144 < (s.iku.buffers.get 5).ring.length) ∧
    (∃ s : State, (s.iku.buffers.get 5).state = .running ∧
      ((s.iku.buffers.get 5).lowRun = 7 ∨ (s.iku.buffers.get 5).lowRun = 8) ∧
      48 ≤ (s.iku.buffers.get 5).ring.length ∧ (s.iku.buffers.get 5).ring.length < 96) :=
  ⟨⟨withBuffer { Buffer.free with state := .running, highRun := 7, ring := List.replicate 145 ⟨0, 0, false⟩ },
      by decide +kernel⟩,
    ⟨withBuffer { Buffer.free with state := .running, lowRun := 8, ring := List.replicate 48 ⟨0, 0, false⟩ },
      by decide +kernel⟩⟩

theorem test_slip_leaves_out_the_quietest : slipBlock (List.replicate 20 ⟨9, 9, false⟩ ++ [⟨1, 1, false⟩] ++
    List.replicate 30 ⟨9, 9, false⟩) = List.replicate 48 ⟨9, 9, false⟩ := by decide +kernel

/-! ### Witnesses: the Radio Unit -/

theorem witness_radio_requests :
    State.reset.inConfig = true ∧ (up .active).inConfig = false ∧ (up .active).cpt.store.frontEnds = .ab ∧
    410 < (411#16).toNat ∧ (410#16).toNat ≤ 410 ∧ 1 < (2#8).toNat ∧ (1#8).toNat ≤ 1 ∧ (up .active).rdu.seek = none ∧
    (go (.seek 0) (up .active)).rdu.seek ≠ none ∧ (up .active).rdu.probe = none ∧
    (up .active).cpt.store.diversity = true ∧ (up .active).rdu.ann.running = false ∧
    (∃ s : State, s.inConfig = false ∧ s.rdu.ann.running = true ∧ s.rdu.ann.claim = some 9) ∧
    (∃ s : State, s.inConfig = false ∧ s.cpt.store.frontEnds = .none) :=
  ⟨by decide, by decide, by decide, by decide, by decide, by decide, by decide, by decide, by decide +kernel, by decide,
    by decide, by decide, ⟨withRdu (up .active) { Rdu.reset with ann := ⟨true, some 9, 0, 0, 0⟩ }, by decide +kernel⟩,
    ⟨{ up .active with cpt := { Cpt.reset with store := { Store.reset with frontEnds := .none } } }, by decide +kernel⟩⟩

theorem test_seek_wraps : (go (.seek 1) (up .active)).rdu.pathA.tuned = some 410 := by decide +kernel

/-- A report of channel 410 without a word. -/
def plainReport : Report := ⟨410, 120, 0, 0, List.replicate 48 0, List.replicate 48 0, none⟩

/-- A station whose path A is settled on channel 410. -/
def tunedStation (r : Rdu) : State := withRdu (up .active) { r with pathA := { PathRec.reset with tuned := some 410 } }

theorem witness_reports :
    pathPresent (up .active).cpt.store.frontEnds .a = true ∧ pathPresent .none .a = false ∧
    (up .active).rdu.pathA.tuned.map Fin.val ≠ some plainReport.channel ∧
    (tunedStation Rdu.reset).rdu.pathA.tuned.map Fin.val = some plainReport.channel ∧
    (∃ s : State, s.rdu.pathA.tuned.map Fin.val = some plainReport.channel ∧ 0 < s.rdu.pathA.settle) ∧
    (tunedStation Rdu.reset).rdu.pathA.settle = 0 ∧ plainReport.word = none ∧
    (tunedStation Rdu.reset).rdu.active = .a ∧ (tunedStation Rdu.reset).rdu.seek = none ∧
    (Path.b ≠ (up .active).rdu.active ∧ (up .active).rdu.mode = .idle) ∧
    (∃ s : State, ∃ k, s.rdu.seek = some k ∧ k.measured = 2 ∧ 105 ≤ k.sum + reportQuality plainReport) ∧
    (∃ s : State, ∃ k, s.rdu.seek = some k ∧ k.measured = 2 ∧ k.sum + reportQuality ⟨410, 0, 0, 0, [], [], none⟩ < 105 ∧
      k.steps + 1 < 410) :=
  ⟨by decide, by decide, by decide, by decide, ⟨withRdu (up .active) (Rdu.reset.retune .a 410), by decide +kernel⟩,
    by decide, by decide, by decide, by decide, by decide,
    ⟨tunedStation { Rdu.reset with seek := some ⟨.up, 0, 0, 2, 5⟩ }, ⟨.up, 0, 0, 2, 5⟩, by decide +kernel⟩,
    ⟨tunedStation { Rdu.reset with seek := some ⟨.up, 0, 408, 2, 104⟩ }, ⟨.up, 0, 408, 2, 104⟩, by decide +kernel⟩⟩

theorem witness_smoothing : 1600 ≤ 1600 ∧ 100 ≤ 100 := by decide

/-- A probe of one candidate. -/
def oneProbe (ph : ProbePhase) : Probe := ⟨[7], 0, ph, 0, 0, false⟩

theorem witness_radio_boundary :
    (∃ s : State, s.rdu.crossfade = true ∧ s.rdu.deferred = true ∧ s.rdu.mode = .diversity ∧ s.rdu.seek = none ∧
      s.rdu.activeRec.tuned ≠ none ∧ (s.rdu.spareRec.preparedOrSilence[47]?).isSome = true ∧
      (s.rdu.activeRec.preparedOrSilence[47]?).isSome = true) ∧
    (∃ s : State, s.rdu.mode = .diversity ∧ s.rdu.divRun = 3 ∧ (s.rdu.holdOff = 19 ∨ s.rdu.holdOff = 20)) ∧
    (∃ s : State, ∃ p, s.rdu.probe = some p ∧ p.phase = .swapWanted ∧ (s.rdu.holdOff = 19 ∨ s.rdu.holdOff = 20)) ∧
    (∃ s : State, s.rdu.afTimer = some 1 ∧
      s.rdu.activeRec.data.alt.filter (fun c => decide (s.rdu.activeRec.tuned ≠ some c)) = []) ∧
    (∃ s : State, s.rdu.afTimer = some 1 ∧ s.cpt.store.frontEnds = .ab ∧ s.rdu.mode ≠ .probe ∧ s.rdu.crossfade = false ∧
      s.rdu.activeRec.data.alt.filter (fun c => decide (s.rdu.activeRec.tuned ≠ some c)) = [7]) ∧
    (∃ s : State, s.rdu.mode = .scan ∧ s.rdu.scanPos = 410 ∧ ∃ e ∈ s.rdu.stations, ∃ d ∈ s.rdu.stations, e.seen = true ∧
      d.seen = false ∧ d.unseen + 1 < 4) ∧
    (∃ s : State, s.rdu.ann.running = true ∧ s.rdu.low.above = false ∧ s.rdu.ann.hold = 99 ∧ s.rdu.ann.claim = some 9) := by
  refine ⟨⟨tunedStation { Rdu.reset with crossfade := true, deferred := true, mode := .diversity }, by decide +kernel⟩,
    ⟨tunedStation { Rdu.reset with mode := .diversity, divRun := 3, holdOff := 19 }, by decide +kernel⟩,
    ⟨tunedStation { Rdu.reset with mode := .probe, probe := some (oneProbe .swapWanted) }, oneProbe .swapWanted,
      by decide +kernel⟩,
    ⟨tunedStation { Rdu.reset with afTimer := some 1 }, by decide +kernel⟩,
    ⟨withRdu (up .active) { Rdu.reset with
      afTimer := some 1, pathA := { PathRec.reset with tuned := some 410, data := { ProgData.cleared with alt := [410, 7] } } },
      by decide +kernel⟩,
    ⟨tunedStation { Rdu.reset with mode := .scan, scanPos := 410, stations :=
      [⟨3, 30, none, none, none, 0, true⟩, ⟨9, 30, none, none, none, 2, false⟩] }, by decide +kernel⟩,
    ⟨tunedStation { Rdu.reset with low := ⟨false, false⟩, ann := ⟨true, some 9, 0, 0, 99⟩ }, by decide +kernel⟩⟩

/-! ### Witnesses: the Pickup Unit and the Output Stage -/

/-- An active pickup on M0 that M1 has beaten four times. -/
def contestedPickup : Pku :=
  { Pku.activate Store.reset (peerClaim 5 callFields .held) with
    candidates := 3, selected := some 0, challenger := some 1, run := 4, lm := (Tbl.fill 4 50).set 1 44, far := 1, near := 1 }

theorem witness_pickup :
    contestedPickup.call.isSome = true ∧ contestedPickup.selected = some 0 ∧ contestedPickup.run = 4 ∧
    contestedPickup.challenger = some 1 ∧ (1 : MicNo) ≠ 0 ∧ micIn contestedPickup.candidates 1 = true ∧
    contestedPickup.lm.get 1 + 6 ≤ contestedPickup.lm.get 0 ∧
    (∀ d, d ≠ (0 : MicNo) → micIn contestedPickup.candidates d = true → contestedPickup.lm.get 1 < contestedPickup.lm.get d ∨
      (contestedPickup.lm.get 1 = contestedPickup.lm.get d ∧ 1 ≤ d)) ∧
    contestedPickup.far = 1 ∧ contestedPickup.near = 1 ∧
    (go .micSwitch { up .active with pku := contestedPickup }).pku.selected = some 1 := by decide +kernel

theorem witness_split_moves : ∃ p q r : Pku, p.su < Store.reset.callLoss ∧ p.supp = .receive ∧ 0 < q.su ∧ q.supp = .send ∧
    r.su = Store.reset.callLoss / 2 ∧ r.supp = .idle :=
  ⟨{ contestedPickup with supp := .receive }, { contestedPickup with supp := .send }, contestedPickup, by decide⟩

theorem witness_fault_sources :
    7 < (8#8).toNat ∧
    (∃ s : State, (s.ost.bridges.get 2).state = .halted ∧ (s.ost.bridges.get 2).hold = 0 ∧
      ((s.mxe.feeds.get 2).get 3).active = true) ∧
    (∃ s : State, ∃ k, holds (s.ost.bridges.get 2).hold k = true ∧
      holds (latchedSet s.cpt.store (s.ost.bridges.get 2)) k = true ∧ holds (s.ost.assertedSet 2) k = true) ∧
    (∃ s : State, ∀ k ∈ [FaultKind.ts, .uv, .flt0, .flt1, .dc, .oc, .tw], holds (s.ost.bridges.get 2).hold k = true →
      holds (latchedSet s.cpt.store (s.ost.bridges.get 2)) k = true → holds (s.ost.assertedSet 2) k = false) ∧
    ((up .active).ost.filter .ts).asserted = false ∧ sourceSet (up .active).cpt.store .ts 2 ≠ 0 ∧
    sourceSet (up .active).cpt.store (.oc 3) 2 = 0 ∧
    ((go (.faultSourceAsserted .ts) (up .active)).ost.filter .ts).asserted = true := by
  refine ⟨by decide, ⟨{ withBridge (up .active) { Bridge.reset with state := .halted } with
      mxe := { Mxe.reset with feeds := Tbl.fill 11 (Tbl.fill 4 { Feed.inactive with active := true }) } }, by decide +kernel⟩,
    ⟨withBridge (up .active) { Bridge.reset with state := .locked, hold := FaultKind.dc.bit, dcOn := true }, .dc,
      by decide +kernel⟩,
    ⟨withBridge (up .active) { Bridge.reset with state := .locked, hold := FaultKind.dc.bit }, by decide +kernel⟩,
    by decide, by decide, by decide, by decide +kernel⟩

theorem witness_derate :
    (∃ s : State, s.ost.fTw.asserted = true ∧ (s.ost.bridges.get 2).thermal = 7 ∧ (s.ost.bridges.get 2).derate ≤ 24) ∧
    (∃ s : State, s.ost.fTw.asserted = false ∧ (s.ost.bridges.get 2).clip < 4 ∧ (s.ost.bridges.get 2).calm = 63 ∧
      (s.ost.bridges.get 2).derate ≤ 24) ∧
    (∃ s : State, (s.ost.bridges.get 2).instants = 48 ∧ (s.ost.bridges.get 2).dcOn = false ∧
      (s.ost.bridges.get 2).dcCount = 49 ∧ 176 < (s.ost.bridges.get 2).averageDuty ∧ (s.ost.bridges.get 2).state = .run) := by
  refine ⟨⟨(go (.faultSourceAsserted .tw) (withBridge (up .active) { Bridge.reset with thermal := 7, derate := 23 })),
      by decide +kernel⟩,
    ⟨withBridge (up .active) { Bridge.reset with clip := 3, calm := 63, derate := 24 }, by decide +kernel⟩,
    ⟨withBridge (up .active) { Bridge.reset with state := .run, instants := 48, dutySum := 48 * 177, dcCount := 49 },
      by decide +kernel⟩⟩

theorem witness_clocks :
    (∃ s : State, (s.mxe.post0.head?).isSome = true ∧ (s.mxe.post1.head?).isSome = true ∧
      (s.mxe.lineOut.head?).isSome = true) ∧
    (∃ s : State, (s.ost.bridges.get 2).reenableDue = true) ∧
    (∃ s : State, (s.ost.bridges.get 2).reenableDue = false ∧ ((s.ost.bridges.get 2).block.head?).isSome = true ∧
      (s.ost.bridges.get 2).state = .run ∧ (s.ost.bridges.get 2).hold = 0) :=
  ⟨⟨{ up .active with mxe := { Mxe.reset with post0 := silentBlock, post1 := silentBlock, lineOut := silentBlock } },
      by decide +kernel⟩,
    ⟨withBridge (up .active) { Bridge.reset with state := .locked }, by decide +kernel⟩,
    ⟨withBridge (up .active) { Bridge.reset with state := .run, block := [1] }, by decide +kernel⟩⟩

theorem test_pwm_duty :
    let s := withBridge (up .active) { Bridge.reset with state := .run, d0 := 248, sense := .into };
    ((go (.pwmPeriod ⟨Tbl.fill 8 false, false, false, false, false, false, Tbl.fill 8 false, Tbl.fill 8 false⟩) s).ost.bridges.get
      2).duty = some 248 := by decide +kernel

/-! ### Witnesses: the block boundary -/

theorem witness_boundary :
    State.reset.inConfig = true ∧ (up .joining).cle.joining < 59 ∧
    (∃ s : State, s.cle.lifecycle = .joining ∧ s.cle.joining = 59) ∧
    ((up .isolated).cle.lifecycle = .isolated ∧ (up .isolated).cle.presenceCount < 49) ∧
    ((up .active).cle.lifecycle = .active ∧ (up .active).lif.anyPending = false) ∧
    (∃ s : State, s.cle.lifecycle = .active ∧ s.lif.idleSeen = true ∧ s.cle.presenceCount = 49) ∧
    (∃ s : State, s.cle.lifecycle = .active ∧ s.lif.anyPending = true ∧ s.lif.idleSeen = false ∧ s.lif.noIdle = 0) ∧
    (∃ s : State, s.cle.lifecycle = .active ∧ s.lif.anyPending = true ∧ s.lif.idleSeen = false ∧ s.lif.noIdle = 1) ∧
    (∃ s : State, s.inConfig = false ∧ (3 : StationNo) ≠ s.own ∧
      s.cle.peers.get 3 = some ⟨.active, 0, 0, [], 159⟩) := by
  refine ⟨by decide, by decide,
    ⟨{ up .joining with cle := { (up .joining).cle with joining := 59 } }, by decide +kernel⟩, by decide, by decide,
    ⟨{ up .active with lif := { Lif.reset with idleSeen := true }, cle := { (up .active).cle with presenceCount := 49 } },
      by decide +kernel⟩,
    ⟨withLif (up .active) { Lif.reset with queue := [.release 1] }, by decide +kernel⟩,
    ⟨withLif (up .active) { Lif.reset with queue := [.release 1], noIdle := 1 }, by decide +kernel⟩,
    ⟨{ up .active with cle := { (up .active).cle with peers := Cle.reset.peers.set 3 (some ⟨.active, 0, 0, [], 159⟩) } },
      by decide +kernel⟩⟩

theorem test_boundary_joins :
    (go .blockBoundary { up .joining with cle := { (up .joining).cle with joining := 59 } }).cle.lifecycle = .active := by
  decide +kernel

/-! ### Witnesses: the block boundary's reading, the Intake and the Pickup Unit -/

/-- The store of a station whose bridge 0 renders PAS and follows the CALL and plays RADIO, with microphone 0 in PAS. -/
def callStore : Store :=
  { Store.reset with
    station := some 1
    zones := Store.reset.zones.set 0 2
    feeds := Store.reset.feeds.set 0 (((Store.reset.feeds.get 0).set 0 ⟨.follow .call, .mid, 0, false⟩).set 1
      ⟨.local_ .radio, .mid, 0, false⟩)
    micZone := Store.reset.micZone.set 0 (some .pas) }

/-- An ACTIVE station with that store, a LIVE stream 6 with a private flag, private RADIO published, and this buffer 5. -/
def callStation (b : Buffer) : State :=
  { up .active with
    cpt := { (up .active).cpt with store := callStore }
    pub := { Pub.reset with radioPriv := true, slots := Pub.reset.slots.set 0 (.publishing .radio 255) }
    iku := { Iku.reset with
      heard := Iku.reset.heard.set 6 ⟨.live, some 1, .programme, true, true, 0⟩, buffers := Iku.reset.buffers.set 5 b } }

/-- A static buffer of stream 6 with silence for its fill. -/
def fillOf (st : BufferState) (n : Nat) : Buffer :=
  { Buffer.free with state := st, stream := some 6, static := true, ring := List.replicate n ⟨0, 0, false⟩ }

/-- The same station while a CALL of station 3 is HELD. -/
def inCall (s : State) : State := { s with cle := { s.cle with claims := [peerClaim 5 callFields .held] } }

/-- The station one boundary into the CALL. -/
def called : State := go .blockBoundary (inCall (callStation Buffer.free))

theorem witness_publisher_builds :
    called.inConfig = false ∧ called.pub.slots.get 0 = .publishing .radio 0 ∧
    called.pub.slots.get 1 = .publishing .pickup 1 ∧ called.pku.call = some ⟨3, 5⟩ ∧ called.pku.sd ≤ 48 ∧
    (inCall (callStation Buffer.free)).pub.slots.get 1 = .idle ∧
    (inCall (callStation Buffer.free)).lif.flying (.sound 0) = false ∧ called.cle.lifecycle = .active ∧
    (go .blockBoundary (withLif (callStation Buffer.free) { Lif.reset with
      queue := [.release 1], noIdle := 1 })).cle.lifecycle = .isolated ∧
    (withLif (callStation Buffer.free) { Lif.reset with
      flight := some (flightOf (.sound 0) (.sound (silentSound 8 none))) }).lif.flying (.sound 0) = true := by
  decide +kernel

theorem test_publisher_hands_its_frame :
    ((called.lif.sound.get 0).frame.map (fun f => (f.stream, f.seq, f.priv, f.stereo, f.samples.length))) =
      some (2, 255, true, true, 48) ∧
    ((called.lif.sound.get 1).frame.map (fun f => (f.stream, f.call.map CallBlock.ref))) = some (3, some ⟨3, 5⟩) ∧
    called.cle.marks.get 2 = true := by decide +kernel

theorem witness_arrivals :
    acceptFrame .unlatched (heard (.sound (silentSound 9 none))) = some (.sound (silentSound 9 none)) ∧
    (callStation (fillOf .starved 0)).iku.bufferOf 6 = some 5 ∧ (callStation (fillOf .priming 192)).inConfig = false ∧
    FillsBounded (callStation (fillOf .running 192)) ∧
    ((9 : Serial) - 6).toNat < 4 ∧ 4 ≤ ((9 : Serial) - 5).toNat ∧ 4 ≤ ((9 : Serial) - 10).toNat ∧
    0 < ((192 + 48 * (0 + 1) - 192 + 47) / 48 : Nat) := by
  refine ⟨?_, by decide +kernel, by decide +kernel, by unfold FillsBounded; decide +kernel, by decide, by decide, by decide,
    by decide⟩
  rw [heard, acceptFrame_asRead]; decide +kernel

theorem witness_intake :
    (∀ b ∈ [Buffer.free, fillOf .running 48, { fillOf .starved 0 with static := false, stream := some 9 }],
      BuffersAssigned (callStation b)) ∧
    (let t := called;
      ((t.mxe.feeds.get 0).get 0).active = true ∧ ((t.mxe.feeds.get 0).get 0).resolved = some 6 ∧
        (t.iku.heard.get 6).state = .live ∧ (t.iku.buffers.get 0).stream = some 6 ∧
        (t.iku.buffers.get 0).state = .priming ∧ (t.iku.buffers.get 1).state = .free) ∧
    ((callStation Buffer.free).iku.heard.get 9).state ≠ .live ∧
    ((callStation (fillOf .running 48)).iku.buffers.get 5).state = .running ∧
    (fillOf .running 48).ring.length = 48 := by
  refine ⟨by unfold BuffersAssigned; decide +kernel, by decide +kernel, by decide +kernel, by decide +kernel,
    by decide +kernel⟩

/-- The fills at which a buffer takes each of its ways at a boundary, with its runs before. -/
theorem witness_buffers_give :
    ∀ b ∈ [fillOf .priming 95, fillOf .priming 96, { fillOf .running 145 with highRun := 7 },
        { fillOf .running 48 with lowRun := 7 }, fillOf .running 144, fillOf .running 47],
      BuffersAssigned (callStation b) ∧ (callStation b).inConfig = false ∧
        (let t := go .blockBoundary (callStation b);
          (t.iku.buffers.get 5).stream = some 6 ∧ (t.iku.heard.get 6).state = .live) := by
  have h : ∀ b ∈ [fillOf .priming 95, fillOf .priming 96, { fillOf .running 145 with highRun := 7 },
      { fillOf .running 48 with lowRun := 7 }, fillOf .running 144, fillOf .running 47],
      BuffersAssigned (callStation b) := by unfold BuffersAssigned; decide +kernel
  exact fun b hb => ⟨h b hb, by
    revert b hb
    decide +kernel⟩

theorem test_buffers_give :
    [fillOf .priming 95, fillOf .priming 96, { fillOf .running 145 with highRun := 7 },
        { fillOf .running 48 with lowRun := 7 }, fillOf .running 144, fillOf .running 47].map (fun b =>
      ((go .blockBoundary (callStation b)).iku.buffers.get 5).ring.length) = [95, 48, 96, 1, 96, 0] := by decide +kernel

theorem witness_boundary_feeds :
    (let g := (called.mxe.feeds.get 0).get 0;
      g.active = true ∧ ((inCall (callStation Buffer.free)).mxe.feeds.get 0).get 0 = Feed.inactive) ∧
    ((called.mxe.feeds.get 0).get 2).active = false ∧
    (let t := go .blockBoundary called;
      ((called.mxe.feeds.get 0).get 1).active = true ∧ ((t.mxe.feeds.get 0).get 1).active = true ∧
        ((called.mxe.feeds.get 0).get 1).resolved = ((t.mxe.feeds.get 0).get 1).resolved ∧
        ((called.mxe.feeds.get 0).get 1).releaseCount = 0 ∧ ((t.mxe.feeds.get 0).get 1).releaseCount = 1) := by
  decide +kernel

theorem witness_boundary_private :
    ∃ s : State, s.inConfig = false ∧ (let t := go .blockBoundary s;
      (∃ sl, ((t.mxe.feeds.get 0).get sl).active = true) ∧
      ∀ sl, let g := (t.mxe.feeds.get 0).get sl
        g.active = true → ∀ x, SoundOf s t (s.cpt.store.feed 0 sl).selector g.resolved x → x.secret = true) := by
  let s : State := { callStation Buffer.free with cpt := { (up .active).cpt with store := { callStore with
    feeds := Store.reset.feeds.set 0 ((Store.reset.feeds.get 0).set 1 ⟨.local_ .radio, .mid, 0, false⟩) } } }
  have h : ∀ sl, sl ≠ 1 → (((go .blockBoundary s).mxe.feeds.get 0).get sl).active = false := by decide +kernel
  refine ⟨s, by decide +kernel, ⟨1, by decide +kernel⟩, ?_⟩
  intro sl g hg x hx
  by_cases e : sl = 1
  · subst e
    exact hx ▸ rfl
  · exact absurd hg (by rw [show g.active = false from h sl e]; decide)

theorem witness_pickup_follows :
    (inCall (callStation Buffer.free)).pku.call = none ∧ called.pku.call ≠ none ∧ called.inConfig = false ∧
    (let t := go .blockBoundary (callStation Buffer.free);
      t.pku = Pku.inactive) ∧
    (let s : State := { called with cle := { called.cle with claims := [] } };
      s.pku.call ≠ none ∧ (go .blockBoundary s).pub.slots.get 1 = .idle ∧ (go .blockBoundary s).cle.lifecycle = .active) ∧
    (let s : State := { called with cle := { called.cle with claims := [peerClaim 6 callFields .held] } };
      s.pku.call = some ⟨3, 5⟩ ∧ (go .blockBoundary s).pku.call = some ⟨3, 6⟩) ∧
    (go .attemptCompletion (go .lineIdle called)).lif.flying (.sound 1) = false ∧
    (go .lineIdle (go .attemptCompletion (go .lineIdle called))).lif.flying (.sound 1) = true := by decide +kernel

/-- A pickup whose selected microphone another is about to replace. -/
def contested : State :=
  { called with
    pku := { contestedPickup with call := some ⟨3, 5⟩, echo := some 6 }
    cpt := { called.cpt with store := { callStore with micZone := callStore.micZone.set 1 (some .pas) } }
    inputs := { Inputs.none with mics := Inputs.none.mics.set 1 (List.replicate 48 4000000) } }

theorem witness_pickup_selects :
    called.pku.call = some ⟨3, 5⟩ ∧ called.pku.echo = some 6 ∧ called.pku.selected = some 0 ∧
    (let t := go .blockBoundary contested;
      t.pku.candidates = 3 ∧ t.pku.lm.get 1 + 6 ≤ t.pku.lm.get 0 ∧ t.pku.selected = some 1) := by decide +kernel

theorem witness_level : GreatestIn ((List.replicate 48 (5 : Sample)).map (fun x => min 8388607 x.toInt.natAbs)) 5 ∧
    2 ^ 2 ≤ 5 ∧ 5 < 2 ^ (2 + 1) ∧ level (List.replicate 48 (5 : Sample)) = 128 := by
  unfold GreatestIn; decide +kernel

/-! ### Witnesses: the port's bits, restart and the items -/

theorem test_sdi_bits :
    decodeSdi ((bs [5, 2, 4, 200]).flatMap bitsOfByte) = .setLevel 4 200 ∧
    decodeSdi ([false, false, false, true, false, true, true, false] ++ List.replicate 8 false ++ [true, true]) =
      .takeNotice ∧ decodeSdi [true] = .discardedTransaction [] := by decide +kernel

theorem test_request_lowers_sdo :
    (go (.readTransaction 7) (go (.setLevel 1 200) State.reset)).cpt.sdo = bs [0, 1, 0, 1, 0, 1, 128] ∧
    (go .applyLevels (go (.readTransaction 7) (go (.setLevel 1 200) State.reset))).cpt.sdo = [] := by decide +kernel

theorem witness_assignment : BuffersAssigned busyStation ∧ StationsOrdered busyStation ∧
    StationsOrdered (withRdu (up .active) { Rdu.reset with
      stations := [⟨3, 30, none, none, none, 0, true⟩, ⟨9, 30, none, none, none, 2, false⟩] }) := by
  refine ⟨by unfold BuffersAssigned; decide +kernel, by unfold StationsOrdered; decide +kernel,
    by unfold StationsOrdered; decide +kernel⟩

/-- A station whose path A is tuned and whose spare path sits on a channel, with these front ends. -/
def twoPaths (fe : FrontEnds) (dv : Bool) : State :=
  { withRdu (up .active) { Rdu.reset with
      pathA := { PathRec.reset with tuned := some 410 }, pathB := { PathRec.reset with tuned := some 7 } } with
    cpt := { (up .active).cpt with store := { Store.reset with station := some 1, frontEnds := fe, diversity := dv } } }

theorem witness_restart_paths :
    (go .restart (twoPaths .ab true)).rdu.mode = .diversity ∧ (go .restart (twoPaths .ab true)).rdu.pathA.tuned ≠ none ∧
    (go .restart (twoPaths .ab false)).rdu.mode = .idle ∧ (go .restart (twoPaths .ab false)).rdu.pathB.tuned = some 7 := by
  decide +kernel

theorem witness_items :
    itemTakes 0 0 (bs [7]) ∧ ¬ itemTakes 0 0 (bs [8]) ∧ ¬ itemTakes 0 1 (bs [7]) ∧ ¬ itemTakes 27 0 (bs [0]) ∧
    ¬ itemTakes 14 0 [] ∧ itemTakes 3 19 (bs [200]) ∧ ¬ itemTakes 10 1 (bs [0]) ∧ ¬ itemTakes 11 3 (bs [3]) ∧
    itemTakes 2 43 (bs [3, 3, 3, 200, 1]) := by
  unfold itemTakes bs
  refine ⟨⟨rfl, _, rfl, by decide⟩, ?_, ?_, id, ?_, ⟨by decide, _, rfl, trivial⟩, ?_, ?_, by decide, _, _, _, _, _, rfl, ?_⟩
  · rintro ⟨-, b, h, hb⟩; cases h; exact absurd hb (by decide)
  · rintro ⟨h, -⟩; exact absurd h (by decide)
  · rintro ⟨-, b, h, -⟩; cases h
  · rintro ⟨h, -⟩; exact absurd h (by decide)
  · rintro ⟨-, b, h, hb⟩; cases h; exact absurd hb (by decide)
  · decide

theorem witness_stored :
    (7#8).toNat = (7 : StationNo).val ∧ ((3#8).toNat < 32 ∧ ((0 : Fin 10).val < 8)) ∧
    ((zonesOf ((2#8).setWidth 5)).length ≤ 1) ∧
    (Selector.follow .call ≠ .follow .quiet ∧ ((7 : OutputNo).val < 8 ↔ Pick.mid ≠ .stereo) ∧
      ((10 : OutputNo).val < 8 ↔ Pick.stereo ≠ .stereo)) ∧
    (Zone.trw ≠ .drv ∧ (4#8).toNat = Zone.trw.code) ∧ ((1#8).toNat = true.toNat ∧ (0#8).toNat = false.toNat) ∧
    ((0#8).toNat = 0 ∧ (16#8).toNat = 2 ^ Zone.trw.code) ∧ (1#8).toNat = (1 : PubSlotNo).val ∧
    (1#8).toNat = FrontEnds.a.code ∧ (0 < (31#8).toNat ∧ (31#8).toNat < 32) ∧ (3#8).toNat = Edge.off.code := by decide

theorem test_config_clamps : (Store.reset.write 14 0 (bs [200])).bind (fun d => d.read 14 0) = some (bs [48]) ∧
    storedValue 14 (bs [200]) = bs [48] ∧ storedValue 2 (bs [3, 3, 3, 200, 1]) = bs [3, 3, 3, 32, 1] := by decide +kernel

/-! ### Witnesses: the transmit stores and a peer's claims -/

/-- A full queue whose head is in flight, with a BID held beside it and a RELEASE held beside its head. -/
def fullQueue : Lif :=
  { Lif.reset with
    queue := (List.range 8).map (fun n => .release (BitVec.ofNat 8 n))
    besideClaim := some (.release 0)
    besideBid := some (.bid 99 callFields)
    flight := some (flightOf .queue (.claim (.release 0))) }

theorem witness_attempt_stores :
    (∃ f, fullQueue.flight = some f ∧ f.orphan = false ∧ f.store = .queue) ∧ fullQueue.besideClaim.isSome = true ∧
    fullQueue.besideBid.isSome = true ∧ (∃ g ∈ fullQueue.queue.tail, g.kind = .release) ∧
    (∃ l : Lif, l.besideClaim = none ∧ ∃ f, l.flight = some f ∧ f.dropBid = true) ∧
    (∃ s : State, s.cle.lifecycle ≠ .isolated ∧ ∃ f, s.lif.flight = some f ∧ f.orphan = true) ∧
    (∃ (s : State) (c : Claim), s.cle.lifecycle = .isolated ∧ (∃ f, s.lif.flight = some f ∧ f.orphan = false) ∧
      WaitsToBid s c) ∧
    (∃ (s : State) (f : Flight) (c : ClaimFrame), s.lif.flight = some f ∧ f.body = .claim c ∧ c.kind = .bid ∧
      ∀ own, ownBidding s.own s.cle.claims = some own → own.name.serial ≠ c.serial) ∧
    ∃ g : ClaimFrame, g.kind = .bid ∧ ∀ h ∈ [ClaimFrame.bid 1 callFields], h.kind ≠ .hold ∧ h.kind ≠ .release := by
  let o : Flight := { flightOf (.sound 0) (.sound (silentSound 1 none)) with orphan := true }
  let d : Flight := { flightOf .queue (.claim (.bid 7 callFields)) with dropBid := true }
  let c := ownClaim 7 callFields (.bidding true none) .port
  refine ⟨⟨_, rfl, rfl, rfl⟩, rfl, rfl, ⟨.release 1, by decide, rfl⟩, ⟨{ Lif.reset with flight := some d }, rfl, d, rfl, rfl⟩,
    ⟨withLif (up .active) { Lif.reset with flight := some o }, by decide, o, rfl, rfl⟩,
    ⟨{ withClaims .isolated [c] with lif := bidInFlight.lif }, c, rfl, ⟨_, rfl, rfl⟩, ?_, true, rfl⟩,
    ⟨withLif (up .active) bidInFlight.lif, flightOf .queue (.claim (.bid 7 callFields)), .bid 7 callFields, rfl, rfl, rfl,
      nofun⟩, ⟨.bid 9 callFields, rfl, by decide⟩⟩
  decide +kernel

theorem test_beside_frames_follow :
    (go .attemptCompletion (withLif (up .active) fullQueue)).lif.queue =
      [2, 3, 4, 5, 6, 7, 0].map ClaimFrame.release ++ [.bid 99 callFields] ∧
    (go .attemptCompletion (withLif (up .active) bidInFlight.lif)).lif.queue = [.release 7] := by decide +kernel

theorem witness_hold_settles :
    let weak := ownClaim 0 { callFields with urgency := 1 } .held .port
    let strong := ownClaim 0 { callFields with urgency := 3 } .held .port
    let hold := peerClaim 5 callFields .held
    (∀ l ∈ [[weak], [strong]], l.filter (fun e => decide (e.name.station = 1 ∧ e.isHeld = true) && conflicts hold e) = l) ∧
    keyBetter hold weak = true ∧ keyBetter hold strong = false ∧ Lif.reset.busySerial 0 = false ∧
    findClaim hold.name [hold] = some hold ∧ (peerClaim 5 callFields (.heard 0)).isHeld = false ∧
    (go (.frameReceived (heard (.claim (.hold 5 callFields)))) (withClaims .active [weak])).lif.flight.isSome = false ∧
    (go (.frameReceived (heard (.claim (.hold 5 callFields)))) (withClaims .active [weak])).lif.queue = [.release 0] ∧
    (go (.frameReceived (heard (.claim (.hold 5 callFields)))) (withClaims .active [strong])).lif.queue =
      [.hold 0 { callFields with urgency := 3 }] := by decide +kernel

theorem witness_presence_lists :
    let s : State := { withClaims .active [peerClaim 4 quietFields .held, peerClaim 9 callFields (.heard 1)] with
      cle := { (withClaims .active [peerClaim 4 quietFields .held, peerClaim 9 callFields (.heard 1)]).cle with
        peers := Cle.reset.peers.set 3 (some ⟨.isolated, 0, 0, [], 9⟩) } };
    somePresence.held = [] ++ ⟨5, callFields⟩ :: [] ∧ (s.cle.peers.get 3).isSome = true ∧
    (go (.frameReceived (heard (.presence somePresence))) s).cle.claims =
      [peerClaim 9 callFields (.heard 1), peerClaim 5 callFields .held] ∧
    (go (.frameReceived (heard (.presence somePresence))) s).cle.marks.get 6 = somePresence.publish.all PubEntry.priv := by
  decide +kernel

theorem witness_presence_keeps_bids :
    let bids := [7, 8, 9].map (fun n => peerClaim n callFields (.heard 1))
    let s := withClaims .active bids
    let waiting := s.cle.claims.filter (fun c =>
      c.name.station == 3 && c.heardAge.isSome && !somePresence.held.any (fun e => e.serial == c.name.serial));
    ClaimsBounded s ∧ (somePresence.held.map HeldEntry.serial).eraseDups.length + waiting.length = 4 ∧
      (go (.frameReceived (heard (.presence somePresence))) s).cle.claims = bids ++ [peerClaim 5 callFields .held] := by
  dsimp only
  unfold ClaimsBounded
  decide +kernel

/-! ### Witnesses: words, detectors and measurement -/

/-- The station of a report on channel 410 of its active path A, with this record of the Radio Unit. -/
def reported (x : Report) (r : Rdu) : State := go (.frontEndReport .a x) (tunedStation r)

/-- A report with a programme-data word. -/
def wordReport (w : DataWord) : Report := { plainReport with word := some w }

theorem witness_words :
    (tunedStation Rdu.reset).inConfig = false ∧ (reported (wordReport (.tagId 5)) Rdu.reset).rdu.pathA.settle = 0 ∧
    (reported { plainReport with fs := 0 } { Rdu.reset with seek := some ⟨.up, 0, 0, 2, 5⟩ }).rdu.pathA.settle = 2 ∧
    Path.b ≠ (tunedStation Rdu.reset).rdu.active ∧
    (reported (wordReport (.flags true true)) { Rdu.reset with ann := ⟨false, none, 1, 0, 7⟩ }).rdu.ann =
      ⟨true, some 0, 2, 0, 0⟩ ∧
    (go (.frontEndReport .a (wordReport (.flags true true))) { tunedStation { Rdu.reset with ann := ⟨false, none, 1, 0, 7⟩ } with
      cle := { (up .joining).cle with claims := [] } }).rdu.ann = ⟨true, none, 2, 0, 0⟩ ∧
    (reported (wordReport (.flags true false)) { Rdu.reset with ann := ⟨true, none, 2, 1, 7⟩ }).rdu.ann =
      ⟨false, none, 0, 2, 7⟩ ∧
    (∀ run : Bool, (go (.frontEndReport .a (wordReport (.tagId 5))) (withRdu (up .active) { Rdu.reset with
      pathA := { PathRec.reset with tuned := some 410, data := { ProgData.cleared with tag := some 4, lastTag := some 5 } }
      ann := ⟨run, none, 1, 1, 0⟩ })).rdu.ann = ⟨false, none, 0, 0, 0⟩) ∧
    ProgData.cleared.parts.get 3 = none ∧
    ({ ProgData.cleared with parts := Tbl.fill 4 (some (65, 66)) }).name = some (bs [65, 66, 65, 66, 65, 66, 65, 66]) := by
  decide +kernel

/-- A station whose spare path B is settled on channel 7 while A is tuned, in a mode. -/
def spareStation (r : Rdu) : State :=
  withRdu (up .active) { r with
    pathA := { PathRec.reset with tuned := some 410, qs16 := some 160 }, pathB := { PathRec.reset with tuned := some 7 } }

/-- A report of channel 7 without a word. -/
def spareReport : Report := { plainReport with channel := 7 }

theorem witness_watch :
    (∀ s ∈ [tunedStation { Rdu.reset with low := ⟨true, true⟩ }, tunedStation { Rdu.reset with low := ⟨false, true⟩ },
      spareStation { Rdu.reset with mode := .diversity }], StationsOrdered s) ∧
    (let t := reported { plainReport with fs := 0 } { Rdu.reset with low := ⟨true, true⟩, good := ⟨true, true⟩ };
      t.rdu.low = ⟨false, false⟩ ∧ t.rdu.good = ⟨false, false⟩ ∧ t.rdu.afTimer = some 200) ∧
    (reported plainReport { Rdu.reset with low := ⟨false, true⟩, afTimer := some 7 }).rdu.low.above = true ∧
    (reported plainReport Rdu.reset).rdu.low = ⟨true, false⟩ ∧ (reported plainReport Rdu.reset).rdu.good = ⟨false, true⟩ ∧
    (reported plainReport { Rdu.reset with good := ⟨false, true⟩, scanEnable := true }).rdu.mode = .scan ∧
    (reported plainReport Rdu.reset).rdu.mode = .diversity := by
  refine ⟨by unfold StationsOrdered; decide +kernel, by decide +kernel, by decide +kernel, by decide +kernel,
    by decide +kernel, by decide +kernel, by decide +kernel⟩

theorem witness_spare_measures :
    (∃ k : Probe, k = ⟨[7, 9], 0, .measuring, 4, 90, true⟩ ∧ k.phase ≠ .swapWanted ∧ 5 ≤ k.measured + 1 ∧
      (spareStation Rdu.reset).rdu.activeRec.qs = some 10 ∧ 10 + 10 ≤ (k.sum + reportQuality spareReport) / 5) ∧
    (∃ k : Probe, k = ⟨[7, 9], 0, .measuring, 4, 90, false⟩ ∧ k.candidates[k.index + 1]? = some 9) ∧
    (∃ k : Probe, k = ⟨[7, 9], 1, .measuring, 4, 90, false⟩ ∧ k.candidates.length ≤ k.index + 1) ∧
    (∃ k : Probe, k = oneProbe .settling ∧ k.measured + 1 < 5) ∧
    (∀ l ∈ [[], [⟨7, 30, none, none, none, 0, true⟩],
        (List.finRange 32).map (fun i => (⟨⟨i.val + 8, by omega⟩, 30, none, none, none, 0, true⟩ : StationEntry))],
      StationsOrdered (spareStation { Rdu.reset with mode := .scan, scanPos := 7, scanMeas := 2, stations := l })) ∧
    (let w : StationEntry := ⟨39, 30, none, none, none, 0, true⟩;
      ∀ e ∈ (List.finRange 32).map (fun i => (⟨⟨i.val + 8, by omega⟩, 30, none, none, none, 0, true⟩ : StationEntry)),
        w.best < e.best ∨ (w.best = e.best ∧ w.channel ≤ e.channel) ∨ e.channel < w.channel) := by
  refine ⟨⟨_, rfl, by decide +kernel⟩, ⟨_, rfl, by decide +kernel⟩, ⟨_, rfl, by decide +kernel⟩, ⟨_, rfl, by decide +kernel⟩,
    by unfold StationsOrdered; decide +kernel, by decide +kernel⟩

theorem witness_seek_ends :
    (tunedStation { Rdu.reset with seek := some ⟨.up, 0, 409, 2, 5⟩ }).rdu.seek = some ⟨.up, 0, 409, 2, 5⟩ ∧
    (reported { plainReport with fs := 0 } { Rdu.reset with seek := some ⟨.up, 0, 409, 2, 5⟩ }).rdu.seek = none ∧
    (reported plainReport { Rdu.reset with seek := some ⟨.up, 0, 0, 0, 0⟩ }).rdu.seek = some ⟨.up, 0, 0, 1, 100⟩ ∧
    plainReport.mid[47]?.isSome = true ∧ plainReport.side[47]?.isSome = true := by decide +kernel

/-! ### Witnesses: sources that join -/

theorem witness_sources_join :
    let b : Bridge := { Bridge.reset with state := .run, ocHistory := [900, 9, 0] };
    Adds (up .active).cpt.store 2 (.oc 2) .oc ∧ Adds (up .active).cpt.store 2 .ts .ts ∧ ¬ Adds (up .active).cpt.store 2 .tw .oc ∧
    LatchedFor (up .active).cpt.store b .dc ∧ ¬ LatchedFor (up .active).cpt.store b .uv ∧
    (let u := (go (.faultSourceAsserted (.oc 2)) (withBridge (up .active) b)).ost.bridges.get 2;
      u.state = .locked ∧ u.ocLock = true ∧ u.ocHistory = []) ∧
    (let u := (go (.faultSourceAsserted (.oc 2)) (withBridge (up .active) { b with ocHistory := [9, 0] })).ost.bridges.get 2;
      u.state = .halted ∧ u.ocLock = false ∧ u.ocHistory = [9, 0, 0]) ∧
    (let s := { withBridge (up .active) b with ost := { (withBridge (up .active) b).ost with fTs := ⟨false, some true⟩ } };
      let t := go (.pwmPeriod ⟨Tbl.fill 8 false, true, false, false, false, false, Tbl.fill 8 false, Tbl.fill 8 false⟩) s;
      t.ost.fTs.asserted = true ∧ (t.ost.bridges.get 2).state = .locked ∧ (t.ost.bridges.get 2).duty = none) := by
  refine ⟨⟨rfl, rfl⟩, ⟨rfl, by decide⟩, id, trivial, id, by decide +kernel, by decide +kernel, by decide +kernel⟩

/-! ### Witnesses: the queue's places, presence composed again, and what a boundary does by itself -/

/-- A full queue, its third frame a HOLD, with the head in flight or not. -/
def crowded (flying : Bool) : Lif :=
  { Lif.reset with
    queue := [.release 80, .release 81, .hold 82 quietFields] ++ [83, 84, 85, 86, 87].map ClaimFrame.release
    flight := if flying then some (flightOf .queue (.claim (.release 80))) else none }

/-- The claim frames of a LIF. -/
def frames (l : Lif) : List ClaimFrame × Option ClaimFrame × Option ClaimFrame := (l.queue, l.besideClaim, l.besideBid)

theorem witness_placed_frames :
    let rest := [83, 84, 85, 86, 87].map ClaimFrame.release
    let held := ownClaim 7 quietFields .held .port
    let s : Lif → State := withLif (withClaims .active [held]);
    (∀ b, frames (go (claimCommand quietFields) (withLif (up .active) (crowded b))).lif =
      ([.release 80, .release 81] ++ rest ++ [.hold 0 quietFields], none, none)) ∧
    frames (go (.release 7) (s { Lif.reset with queue := [.hold 7 quietFields, .release 8] })).lif =
      ([.release 7, .release 8], none, none) ∧
    frames (go (.release 7) (s { Lif.reset with
      queue := [.hold 7 quietFields], flight := some (flightOf .queue (.claim (.hold 7 quietFields))) })).lif =
      ([.hold 7 quietFields], some (.release 7), none) ∧
    frames (go (claimCommand callFields) (withLif (up .active) fullQueue)).lif =
      ([0, 2, 3, 4, 5, 6, 7].map ClaimFrame.release ++ [.bid 8 callFields], some (.release 0), some (.bid 99 callFields)) := by
  decide +kernel

theorem witness_bids_given_up :
    let waits := ownClaim 7 callFields (.bidding true none) .port
    let sent := ownClaim 7 callFields (.bidding true (some 0)) .port
    let bid : Lif := { Lif.reset with queue := [.bid 7 callFields] };
    (∀ c ∈ [Instr.release 7, claimCommand callFields],
      (go c bidInFlight).lif.flight = some { flightOf .queue (.claim (.bid 7 callFields)) with dropBid := true }) ∧
    (go (.release 7) (withLif (withClaims .active [waits]) bid)).lif.queue = [] ∧
    (go (.release 7) (withClaims .active [sent])).lif.queue = [.release 7] ∧
    (go (claimCommand callFields) (withLif (withClaims .active [waits]) bid)).lif.queue = [.bid 0 callFields] ∧
    (go (claimCommand callFields) (withClaims .active [sent])).lif.queue = [.release 7, .bid 0 callFields] := by
  decide +kernel

theorem witness_presence_composed_again :
    let held := ownClaim 7 quietFields .held .port
    let p : Lif := { Lif.reset with presence := ⟨some somePresence, none⟩ }
    let t := go (.release 7) (withLif (withClaims .isolated [held]) p)
    let u := go (.release 7) (withLif (withClaims .active [held]) (presenceInFlight .active).lif);
    t.lif.presence = ⟨some (t.presenceNow .isolated), none⟩ ∧ u.lif.presence.beside = some (some (u.presenceNow .active)) ∧
    (go (.release 7) (withClaims .active [held])).lif.presence = ⟨none, none⟩ := by decide +kernel

theorem witness_heard_room :
    let l := [0, 1, 2, 3].map (fun n => peerClaim n callFields (.heard (if n = 1 ∨ n = 2 then 3 else 1)))
    let own := ownClaim 7 { callFields with urgency := 1 } (.bidding true (some 0)) .port
    let heldList := l.map (fun c => { c with state := .held });
    (go (.frameReceived (heard (.claim (.hold 5 callFields)))) (withClaims .active l)).cle.claims =
      (l.eraseIdx 1) ++ [peerClaim 5 callFields .held] ∧
    (go (.frameReceived (heard (.claim (.bid 5 callFields)))) (withClaims .active heldList)).cle.claims = heldList ∧
    (∀ k ∈ [FrameKind.bid, .hold], (go (.frameReceived (heard (.claim (if k = .bid then .bid 5 callFields else .hold 5 callFields))))
      (withClaims .active [own])).cle.claims.getLast? = some { own with state := .bidding false (some 0) }) := by decide +kernel

theorem witness_sound_returns :
    let b := (fillOf .running 20).starve
    let f := silentSound 3 none
    let again := ((b.take f).1.take { f with seq := 4 }).1;
    let c := { again with force := false }.consume.1;
    b.returning = true ∧ again.state = .priming ∧ again.ring.length = 96 ∧ c.givenReturn = true ∧ c.givenForce = false ∧
    c.returning = false ∧ (fillOf .priming 96).consume.1.givenReturn = false := by
  decide +kernel

theorem witness_feed_ramps_back :
    ∀ b : Bool,
      let x : FeedSound := ⟨silentBlock, .programme, false, false, none, false, b, true⟩
      let g := Feed.move (up .active).mixView Mxe.reset.live false 8 ⟨.local_ .aux0, .stereo, 0, false⟩ false x
        { Feed.inactive with active := true, target := 48, current := 48 };
      g.current = (if b then 128 else 48) ∧ g.releaseCount = 1 := by decide +kernel

/-- A station whose bridges 2 and 3 are both at the edge of a derate and of DC, at a boundary. -/
def edgeBridges (lc : Lifecycle) : State :=
  let b : Bridge := { Bridge.reset with
    state := .run, instants := 48, dutySum := 48 * 177, dcCount := 49, calm := 63, derate := 24, ocHistory := [999, 5] }
  { up lc with
    ost := { (up lc).ost with
      bridges := ((up lc).ost.bridges.set 2 b).set 3 { b with clip := 4, dutySum := 48 * 128, derate := 23 } }
    mxe := { Mxe.reset with apply := true } }

theorem witness_boundary_derates :
    ∀ lc ∈ [Lifecycle.config, .active], let t := go .blockBoundary (edgeBridges lc);
      (t.ost.bridges.get 2).derate = 23 ∧ (t.ost.bridges.get 2).state = .locked ∧ (t.ost.bridges.get 2).ocHistory = [6] ∧
      (t.ost.bridges.get 3).derate = 24 ∧ (t.ost.bridges.get 3).state = .run ∧ (t.ost.bridges.get 3).calm = 0 ∧
      t.cpt.notices.get 1 = some ⟨1, .bridgeFault 2 false FaultKind.dc.bit .locked⟩ ∧
      t.cpt.notices.get 11 = (if lc = .config then some ⟨2, .derate 3 true 24⟩ else none) ∧
      t.cpt.notices.get 12 = some ⟨1, .levels (Tbl.fill 5 48)⟩ := by decide +kernel

theorem witness_boundary_radio :
    let s := fun (r : Rdu) => withRdu (up .active) { r with
      holdOff := 19, mode := .diversity, divRun := 3, pathA := { PathRec.reset with tuned := some 410, qs16 := some 640 }
      pathB := { PathRec.reset with tuned := some 7, data := { ProgData.cleared with alt := [7] } } }
    let after := fun (r : Rdu) => (go .blockBoundary (s r)).rdu
    let probe := { Rdu.reset with probe := some (oneProbe .swapWanted), afTimer := some 1, low := ⟨false, false⟩ }
    let timer := { Rdu.reset with active := .b, afTimer := some 1 }
    let fading := { Rdu.reset with crossfade := true, ann := ⟨true, some 9, 0, 0, 99⟩, low := ⟨false, false⟩ };
    ((after Rdu.reset).active = .b ∧ (after Rdu.reset).crossfade = true) ∧
    ((after probe).active = .b ∧ (after probe).probe = none ∧ (after probe).afTimer = some 200) ∧
    ((after timer).active = .a ∧ (after timer).probe = some (oneProbe .settling)) ∧ (after fading).ann.running = false ∧
    (∀ n ∈ [1, 2], (after { Rdu.reset with afTimer := some n }).afTimer = some (if n = 1 then 200 else 1)) := by
  decide +kernel

/-! ### Witnesses: what a boundary does to claims, streams, peers and presence -/

theorem witness_boundary_claims :
    let own := fun (w : Option Nat) (link : Bool) => ownClaim 7 callFields (.bidding link w) .port
    let at_ := fun (l : List Claim) => go .blockBoundary (withClaims .active l)
    let late := peerClaim 4 quietFields (.heard 3)
    let young := peerClaim 5 quietFields (.heard 2);
    (at_ [own (some 0) true, late, young]).cle.claims =
      [own (some 1) true, peerClaim 5 quietFields (.heard 3)] ∧
    (let t := at_ [own (some 1) true];
      t.cle.claims = [{ own none true with state := .held }] ∧ t.lif.queue = [.hold 7 callFields] ∧
      t.cpt.notices.get 3 = some ⟨1, .claimResult 7 .won⟩) ∧
    (let t := at_ [own (some 1) false];
      t.cle.claims = [] ∧ t.lif.queue = [] ∧ t.cpt.notices.get 3 = some ⟨1, .claimResult 7 .failedOutbid⟩) ∧
    (at_ [own none true]).cle.claims = [own none true] := by decide +kernel

/-- A station about to be isolated for want of idle, its own claim 7 in this state, the BID of 7 in its queue. -/
def unheard (w : Option Nat) : State :=
  withLif (withClaims .active [ownClaim 7 callFields (.bidding true w) .port]) { Lif.reset with
    queue := [.release 3, .bid 7 callFields], noIdle := 1 }

theorem witness_isolation_bids :
    (unheard none).isolatesAtBoundary = true ∧
    (∀ c ∈ [Instr.blockBoundary, .noIdleIsolation], let t := go c (unheard none);
      t.cle.claims = [] ∧ t.lif.queue = [.release 3] ∧ t.cpt.notices.get 3 = some ⟨1, .claimResult 7 .failedIsolated⟩) ∧
    (let t := go .noIdleIsolation (unheard (some 0));
      t.cle.claims = (unheard (some 0)).cle.claims ∧ t.lif.queue = (unheard (some 0)).lif.queue) ∧
    (let t := go .noIdleIsolation (withLif (unheard none) { bidInFlight.lif with noIdle := 1 });
      t.cle.claims = (unheard none).cle.claims ∧ t.lif.queue = bidInFlight.lif.queue) ∧
    (let t := go .bitErrorIsolation (withLif (unheard none) { bidInFlight.lif with bitErrorRun := 15 });
      t.cle.claims = [] ∧ t.lif.queue = []) := by decide +kernel

theorem witness_orphans_fail :
    let f : Flight := { flightOf (.sound 0) (.sound (silentSound 8 none)) with orphan := true }
    let s := fun (lc : Lifecycle) (l : List Claim) => withLif (withClaims lc l) { Lif.reset with flight := some f, bitErrorRun := 3 }
    let waits := [ownClaim 7 callFields (.bidding true none) .port];
    (∀ lc ∈ [Lifecycle.active, .joining], (go .bitError (s lc [])).lif.bitErrorRun = 4) ∧
    ∀ c ∈ [Instr.bitError, .lostContention], (go c (s .isolated [])).lif.bitErrorRun = 3 ∧
      (go c (s .isolated waits)).cle.claims = [] ∧ (go c (s .isolated waits)).lif.flight = none := by decide +kernel

/-- A station that hears stream 6 for this many boundaries no more, with this call-loss table. -/
def quietStream (age : Nat) (l : List CallLoss) : State :=
  let s := callStation (fillOf .running 96)
  { s with iku := { s.iku with
      heard := s.iku.heard.set 6 ⟨.live, some 1, .programme, true, true, age⟩, callLoss := l } }

theorem witness_boundary_streams :
    let t := go .blockBoundary (quietStream 7 [⟨⟨3, 1⟩, 6, 9, 7⟩, ⟨⟨3, 2⟩, 6, 9, 6⟩]);
    (t.iku.heard.get 6).state = .starved ∧ (t.iku.buffers.get 5).state = .starved ∧ (t.iku.buffers.get 5).ring = [] ∧
    (t.iku.buffers.get 5).givenForce = true ∧ t.iku.callLoss = [⟨⟨3, 2⟩, 6, 9, 7⟩] ∧
    ((go .blockBoundary (quietStream 3 [])).iku.heard.get 6).age = 4 ∧
    BuffersAssigned (quietStream 7 []) := by
  refine ⟨?_, ?_, ?_, ?_, ?_, ?_, ?_⟩
  all_goals first | decide +kernel | exact ⟨by decide +kernel, by decide +kernel⟩

theorem witness_boundary_peers :
    let old : Option PeerEntry := some ⟨.active, 0, 0, [], 159⟩
    let s : State := { quietStream 3 [] with cle := { (up .active).cle with
      claims := [peerClaim 4 quietFields .held, ownClaim 7 quietFields .held .port]
      peers := (Cle.reset.peers.set 3 old).set 5 old } }
    let t := go .blockBoundary s;
    s.peerExpires 3 = true ∧ t.cle.claims = [ownClaim 7 quietFields .held .port] ∧ t.cle.peers.get 3 = none ∧
    (t.iku.heard.get 6).state = .starved ∧ (t.iku.buffers.get 5).state = .starved ∧ (t.iku.buffers.get 5).force = true ∧
    t.cpt.notices.get 5 = some ⟨2, .peerExpired 5⟩ := by decide +kernel

theorem witness_boundary_presence :
    let due := fun (s : State) => { s with cle := { s.cle with joining := 59, presenceCount := 49 } };
    (∀ lc ∈ [Lifecycle.joining, .active, .isolated], let t := go .blockBoundary (due (up lc));
      let f := t.presenceNow (if lc = .isolated then .isolated else .active);
      t.lif.presence = ⟨some f, none⟩ ∧ t.cle.peers.get 1 = some (PeerEntry.ofPresence f)) ∧
    (let t := go .blockBoundary (due (presenceInFlight .active));
      t.lif.presence.beside = some (some (t.presenceNow .active))) := by decide +kernel

theorem witness_impaired_zone :
    let s := callStation Buffer.free;
    zoneIn s.impaired .pas = true ∧ zoneIn s.impaired .drv = false ∧
    zoneIn { s with ost := s.ost.setBridge 0 { Bridge.reset with state := .run } }.impaired .pas = false := by decide +kernel

theorem witness_call_loss_taken :
    let e : Serial → Nat → CallLoss := fun n a => ⟨⟨3, n⟩, 6, 9, a⟩
    let l := [e 0 1, e 1 5, e 2 5, e 3 0];
    takeCallLoss l ⟨3, 2⟩ 6 30 = [e 0 1, e 1 5, ⟨⟨3, 2⟩, 6, 30, 0⟩, e 3 0] ∧
    takeCallLoss l ⟨3, 9⟩ 6 30 = [e 0 1, e 2 5, e 3 0, ⟨⟨3, 9⟩, 6, 30, 0⟩] := by decide +kernel

theorem witness_tune_ends_all :
    let r : Rdu := { Rdu.reset with
      active := .b, mode := .diversity, seek := some ⟨.up, 0, 0, 0, 0⟩, ann := ⟨true, some 7, 2, 0, 5⟩ }
    let s := fun (r : Rdu) => { withClaims .active [ownClaim 7 quietFields .held .radio] with
      rdu := r, pub := { Pub.reset with radioClass := .announce } };
    (let t := go (.tune 410) (s r);
      t.rdu.seek = none ∧ t.rdu.pathB.tuned = some 410 ∧ t.rdu.mode = .diversity ∧ t.pub.radioClass = .programme ∧
      t.cle.claims = [] ∧ t.lif.queue = [.release 7] ∧ t.cpt.notices.get 7 = some ⟨1, .announceEnded .tune⟩ ∧
      t.cpt.notices.get 9 = some ⟨1, .seekCancelled⟩) ∧
    (let t := go (.seek 0) (s { r with seek := none });
      t.rdu.pathB.tuned = none ∧ t.cpt.notices.get 7 = some ⟨1, .announceEnded .seek⟩ ∧ t.cpt.notices.get 9 = none) ∧
    (let t := go (.scan 1) (spareStation { Rdu.reset with mode := .diversity, good := ⟨true, false⟩, scanPos := 9 });
      t.rdu.mode = .scan ∧ t.rdu.pathB.tuned = some 9) := by decide +kernel

/-! ### Witnesses: START block by block, frames cut off, presence that settles claims, re-enables and a pass that ends -/

theorem witness_start_blocks :
    let uses : OutputNo → FeedConfig → Store := fun o f =>
      { Store.reset with
        station := some 1, zones := Store.reset.zones.set 0 1 |>.set 1 1 |>.set 3 1
        feeds := Store.reset.feeds.set o ((Store.reset.feeds.get o).set 1 f |>.set 3 f) }
    let held : HoldSet → Bridge := fun h => { Bridge.reset with hold := h }
    let s : State := { configured (uses 10 ⟨.stream 6, .stereo, 0, false⟩) with
      ost := { Ost.reset with bridges := Ost.reset.bridges.set 0 (held FaultKind.dc.bit) |>.set 1 (held FaultKind.uv.bit) |>.set 2 (held FaultKind.dc.bit) } }
    let t := go .start s;
    t.cpt.result.status = .accepted ∧ (t.ost.bridges.get 0).state = .locked ∧ (t.ost.bridges.get 1).state = .halted ∧
    (t.ost.bridges.get 2).state = .off ∧ (t.ost.bridges.get 3).state = .run ∧ (t.iku.buffers.get 0).stream = some 6 ∧
    (t.iku.buffers.get 0).state = .starved ∧ (t.iku.buffers.get 1).state = .free ∧ t.rdu.mode = .diversity ∧
    t.cpt.notices.get 1 = some ⟨2, .bridgeFault 1 false FaultKind.uv.bit .halted⟩ ∧
    (go .start (configured (uses 4 ⟨.follow .call, .mid, 0, false⟩))).cpt.result.data = bs [1, 4, 1] := by decide +kernel

theorem witness_cut_off :
    let waits := withLif (up .active) { (soundInFlight .active).lif with noIdle := 1 }
    let claims := withLif (up .active) { bidInFlight.lif with noIdle := 1 };
    waits.isolatesAtBoundary = true ∧ claims.isolatesAtBoundary = true ∧
    (∀ c ∈ [Instr.restart, .noIdleIsolation, .blockBoundary], (go c waits).lif.flight.map Flight.orphan = some true) ∧
    (go .restart claims).lif.flight.map Flight.orphan = some true ∧
    ∀ c ∈ [Instr.noIdleIsolation, .blockBoundary], (go c claims).lif.flight = bidInFlight.lif.flight := by decide +kernel

theorem witness_presence_settles :
    let own := fun (u : Fin 4) (n : Serial) => ownClaim n { callFields with urgency := u } .held .port
    let hears := fun (l : List Claim) => go (.frameReceived (heard (.presence somePresence))) (withClaims .active l)
    let apart := { own 0 4 with fields := { callFields with zones := 1 } };
    conflicts (peerClaim 5 callFields .held) (own 1 0) = true ∧ conflicts (peerClaim 5 callFields .held) apart = false ∧
    (let t := hears [own 1 0, apart];
      t.cle.claims = [peerClaim 5 callFields .held, apart] ∧ t.lif.queue = [.release 0] ∧
      t.cpt.notices.get 2 = some ⟨1, .claimLost 0 .call ⟨3, 5⟩⟩) ∧
    (let t := hears [own 3 0];
      t.cle.claims = [own 3 0, peerClaim 5 callFields .held] ∧ t.lif.queue = [.hold 0 (own 3 0).fields] ∧
      t.cpt.notices.get 2 = none) ∧
    (hears [apart]).lif.queue = [] := by decide +kernel

theorem witness_starved_gives_silence :
    let s := fun (force : Bool) => callStation { fillOf .starved 0 with force := force, returning := true };
    (∀ force : Bool, (go .blockBoundary (s force)).iku.buffers.get 5 =
      { (s force).iku.buffers.get 5 with
        given := List.replicate 48 ⟨0, 0, false⟩, givenForce := force, force := false, givenReturn := false }) ∧
    BuffersAssigned (s true) := by
  refine ⟨by decide +kernel, by decide +kernel, by decide +kernel⟩

theorem witness_reenable :
    let feed : Feed := { Feed.inactive with active := true, current := 7, releaseCount := 1 }
    let b : Bridge := { Bridge.reset with state := .halted, block := [8388607, 5, 6] }
    let s : State := { withBridge (up .active) b with
      mxe := { Mxe.reset with feeds := Tbl.fill 11 ((Mxe.reset.feeds.get 2).set 1 feed) } }
    let t := go (.sampleInstant ⟨⟨1, 2⟩, ⟨3, 4⟩, Tbl.fill 4 5⟩) s;
    b.reenableDue = true ∧ (t.ost.bridges.get 2).state = .run ∧ (t.ost.bridges.get 2).block = [0, 0] ∧
    ((t.mxe.feeds.get 2).get 1) = { feed with current := 128, releaseCount := 0 } ∧ (t.mxe.feeds.get 3).get 1 = feed ∧
    t.cpt.notices.get 1 = some ⟨1, .bridgeFault 2 true 0 .run⟩ ∧
    (let u := (go (.sampleInstant ⟨⟨1, 2⟩, ⟨3, 4⟩, Tbl.fill 4 5⟩) (withBridge (up .active)
      { b with hold := FaultKind.dc.bit ||| FaultKind.uv.bit })).ost.bridges.get 2;
      u.hold = FaultKind.dc.bit ∧ u.state = .locked ∧ u.block = [5, 6]) := by decide +kernel

theorem witness_pass_ends :
    let e := fun (c : Channel) (n : Nat) (seen : Bool) => (⟨c, 30, none, none, none, n, seen⟩ : StationEntry)
    let s := spareStation { Rdu.reset with
      mode := .scan, scanPos := 410, scanMeas := 2, scanSum := 0, stations := [e 4 3 false, e 5 2 false, e 6 1 true] }
    let t := go (.frontEndReport .b spareReport) s;
    t.rdu.scanPos = 0 ∧ t.rdu.pathB.tuned = some 0 ∧
    t.rdu.stations = [e 5 3 false, e 6 1 false, { e 410 0 false with best := 33 }] ∧
    t.cpt.notices.get 10 = some ⟨1, .scan 3 1⟩ ∧ StationsOrdered s := by
  refine ⟨by decide +kernel, by decide +kernel, by decide +kernel, by decide +kernel, by unfold StationsOrdered; decide +kernel⟩

end Sys2Proof.Tests
end

section
/-! PROOF. The state after pin reset (R21, R22 and the reset table of every chapter). -/

namespace Sys2Proof.Machine

open Sys2Proof

/-- Every filter is DEASSERTED with no sample taken (R125). -/
theorem Ost.reset_filter (src : FilteredSource) : Ost.reset.filter src = ⟨false, none⟩ := by
  cases src
  case oc b => exact Tbl.get_fill _ b
  all_goals rfl

/-- No zone is impaired after pin reset (R138). -/
theorem State.reset_impaired : State.reset.impaired = 0 := by decide

/-- Both path records are untuned and empty (R174). -/
theorem Rdu.reset_path (p : Path) : Rdu.reset.path p = PathRec.reset := by cases p <;> rfl

/-- A feed slot's configured fields, with the pick of its output (R91). -/
theorem Store.reset_feed (o : OutputNo) (sl : SlotNo) : Store.reset.feed o sl = FeedConfig.reset o := by
  simp [Store.feed, Store.reset]

/-- Settles O3: each chapter's reset record has the values of that chapter's table. -/
theorem pinResetGivesTheStatedValues : Obligations.PinResetGivesTheStatedValues := by
  unfold Obligations.PinResetGivesTheStatedValues
  refine ⟨fun _ => rfl, ?claimEngine, ?lineInterface, ?publisher, ?intake, ?mixEngine, ?outputStage, ?radioUnit,
    ?pickupUnit, ?controlPort, ?store⟩
  case claimEngine => simp [State.reset, Cle.reset]
  case lineInterface => simp [State.reset, Lif.reset, TxSlot.empty]
  case publisher => simp [State.reset, Pub.reset]
  case intake => simp [State.reset, Iku.reset, HeardEntry.never, Buffer.free]
  case mixEngine => simp [State.reset, Mxe.reset, Feed.inactive]
  case outputStage => exact ⟨by simp [State.reset, Ost.reset, Bridge.reset], Ost.reset_filter, State.reset_impaired⟩
  case radioUnit => exact ⟨rfl, Rdu.reset_path, by simp [State.reset, Rdu.reset, Announcement.rest]⟩
  case pickupUnit => simp [State.reset, Pku.inactive]
  case controlPort => simp [State.reset, Cpt.reset]
  case store =>
    refine ⟨rfl, Tbl.get_fill _, Store.reset_feed, rfl, ?_⟩
    simp [State.reset, Cpt.reset, Store.reset]

end Sys2Proof.Machine
end

section
/-! PROOF. What only pin reset undoes: the fixed configuration, a latched polarity, and leaving CONFIG (R3, R37, R212). -/

namespace Sys2Proof.Machine

open Sys2Proof

/-- From s to t no fixed configuration has changed, CONFIG is not entered, and a latched polarity has stayed. -/
structure State.KeepsFixed (s t : State) : Prop where
  fixed : s.inConfig = false → t.cpt.store = s.cpt.store ∧ t.cpt.fixed = s.cpt.fixed ∧ t.inConfig = false
  latch : s.lif.latch ≠ .unlatched → t.lif.latch = s.lif.latch

/-- An internal event keeps both. -/
theorem State.Keeps.keepsFixed {s t : State} (h : s.Keeps t) : s.KeepsFixed t :=
  ⟨fun hc => ⟨h.cpt.store, h.cpt.fixed, h.inConfig.trans hc⟩, fun _ => h.lif.latch⟩

/-- An answer changes the result holder and SDO alone. -/
theorem State.KeepsFixed.answer {s t : State} (h : s.KeepsFixed t) (st : Status) (d : List Byte) :
    s.KeepsFixed (t.answer st d) := ⟨h.fixed, h.latch⟩

/-- A refused request keeps both. -/
theorem State.answer_keepsFixed (s : State) (st : Status) (d : List Byte) : s.KeepsFixed (s.answer st d) :=
  (State.Keeps.refl s).keepsFixed.answer st d

/-- Work that is done in CONFIG alone and leaves the LIF keeps both. -/
theorem State.KeepsFixed.of_inConfig {s t : State} (hc : s.inConfig = true) (hl : t.lif = s.lif) : s.KeepsFixed t :=
  ⟨fun h => absurd (hc.symm.trans h) (by decide), fun _ => by rw [hl]⟩

/-! ### The commands that are more than an event and an answer -/

theorem exec_start_keepsFixed {s t : State} (h : exec .start s = .next t) : s.KeepsFixed t := by
  simp only [exec_start, execStart] at h
  split at h
  · rename_i hc
    split at h <;> cases h
    · exact s.answer_keepsFixed _ _
    · exact .of_inConfig hc rfl
  · cases h; exact s.answer_keepsFixed _ _

theorem exec_restart_keepsFixed {s t : State} (h : exec .restart s = .next t) : s.KeepsFixed t := by
  simp only [exec_restart, execRestart] at h
  split at h <;> cases h
  · exact s.answer_keepsFixed _ _
  · exact ⟨fun _ => ⟨rfl, rfl, rfl⟩, fun _ => rfl⟩

theorem exec_setConfig_keepsFixed {s t : State} {i j : Byte} {v : List Byte}
    (h : exec (.setConfig i j v) s = .next t) : s.KeepsFixed t := by
  simp only [exec_setConfig, execSetConfig] at h
  split at h
  · rename_i hc
    split at h <;> cases h
    · exact .of_inConfig hc rfl
    · exact s.answer_keepsFixed _ _
  · cases h; exact s.answer_keepsFixed _ _

theorem exec_scan_keepsFixed {s t : State} {on : Byte} (h : exec (.scan on) s = .next t) : s.KeepsFixed t := by
  simp only [exec_scan, execScan] at h
  split at h
  · cases h; exact s.answer_keepsFixed _ _
  · split at h <;> cases h
    · rename_i hc
      exact .of_inConfig hc rfl
    · exact ⟨fun hc => ⟨rfl, rfl, hc⟩, fun _ => rfl⟩

theorem exec_announceEnable_keepsFixed {s t : State} {on : Byte} (h : exec (.announceEnable on) s = .next t) :
    s.KeepsFixed t := by
  simp only [exec_announceEnable, execAnnounceEnable] at h
  split at h
  · cases h; exact s.answer_keepsFixed _ _
  · split at h <;> cases h
    · rename_i hc
      exact .of_inConfig hc rfl
    · exact ((s.setRdu_keeps _).trans (State.arbitrate_keeps _)).keepsFixed.answer _ _

theorem exec_takeNotice_keepsFixed {s t : State} (h : exec .takeNotice s = .next t) : s.KeepsFixed t := by
  simp only [exec_takeNotice, execTakeNotice] at h
  split at h
  · cases h; exact s.answer_keepsFixed _ _
  · split at h <;> cases h
    · exact s.answer_keepsFixed _ _
    · exact ⟨fun hc => ⟨rfl, rfl, hc⟩, fun _ => rfl⟩

/-- A frame latches the polarity only where none is latched (R3). -/
theorem exec_frameReceived_keepsFixed {s t : State} {f : LineFrame} (h : exec (.frameReceived f) s = .next t) :
    s.KeepsFixed t := by
  rcases execFrameReceived_shape f s with ⟨_, u, hu, hcle, hcpt, hlif, _⟩ | ⟨b, _, u, hu, hk⟩
  all_goals
    rw [hu] at h
    cases h
  · exact ⟨fun hc => ⟨hcpt.store, hcpt.fixed, by rw [State.inConfig, hcle]; exact hc⟩, fun _ => by rw [hlif]; simp⟩
  · refine ⟨hk.keepsFixed.fixed, fun hl => ?_⟩
    rw [hk.lif.latch, Lif.takeLatch_of_latched _ _ hl]

/-- Every special command but PIN_RESET keeps both. -/
theorem exec_special_keepsFixed {c : Instr} {s t : State} (hs : special c = true) (hp : c ≠ .pinReset)
    (h : exec c s = .next t) : s.KeepsFixed t := by
  have unchanged {u : State} (hl : u.lif.latch = s.lif.latch) (hc : u.cle = s.cle) (hst : u.cpt.store = s.cpt.store)
      (hf : u.cpt.fixed = s.cpt.fixed) : s.KeepsFixed u :=
    ⟨fun h => ⟨hst, hf, by rw [State.inConfig, hc]; exact h⟩, fun _ => hl⟩
  refine exec_special (P := fun c s t => c ≠ .pinReset → s.KeepsFixed t) s c hs ?pinReset ?start ?restart ?setConfig
    ?scan ?announceEnable ?takeNotice ?readLineError ?discarded ?readTransaction ?frameReceived t h hp
  case pinReset => exact fun h => absurd rfl h
  case start => exact fun _ h _ => exec_start_keepsFixed h
  case restart => exact fun _ h _ => exec_restart_keepsFixed h
  case setConfig => exact fun _ _ _ _ h _ => exec_setConfig_keepsFixed h
  case scan => exact fun _ _ h _ => exec_scan_keepsFixed h
  case announceEnable => exact fun _ _ h _ => exec_announceEnable_keepsFixed h
  case takeNotice => exact fun _ h _ => exec_takeNotice_keepsFixed h
  case readLineError => intro t h _; cases h; exact unchanged rfl rfl rfl rfl
  case discarded => intro _ t h _; cases h; exact unchanged rfl rfl rfl rfl
  case readTransaction => intro _ t h _; cases h; exact unchanged rfl rfl rfl rfl
  case frameReceived => exact fun _ _ h _ => exec_frameReceived_keepsFixed h

/-- Settles O10: an event and a plain request keep the fixed values by `State.Keeps`, the special commands one by one. -/
theorem onlyPinResetUndoes : Obligations.OnlyPinResetUndoes := by
  unfold Obligations.OnlyPinResetUndoes
  intro c s t hp h
  suffices k : s.KeepsFixed t from ⟨k.fixed, k.latch⟩
  cases hs : special c with
  | true => exact exec_special_keepsFixed hs hp h
  | false =>
    cases hr : isRequest c with
    | true =>
      obtain ⟨u, st, d, hu, hk⟩ := exec_request c s hr hs
      rw [hu] at h
      cases h
      exact hk.keepsFixed.answer st d
    | false =>
      obtain ⟨u, hu, hk⟩ := exec_event c s hr hs
      rw [hu] at h
      cases h
      exact hk.keepsFixed

end Sys2Proof.Machine
end

section
/-! PROOF. Contention keys (R5) and the contention of their bits (R6). -/

namespace Sys2Proof.Machine

open Sys2Proof

/-! ### The key and its parts (R5) -/

/-- A key of a kind rank and a slot that R5 knows is their sum, with nothing cut off. -/
theorem contentionKey_toNat {rank slot : Nat} (hr : rank < 4) (hs : slot < 2) (st : StationNo) :
    (contentionKey rank st slot).toNat = 16 * rank + 2 * st.val + slot := by
  rw [contentionKey, BitVec.toNat_ofNat, Nat.mod_eq_of_lt (by omega)]

/-- The parts of a key come back from it. -/
theorem contentionKey_parts {rank slot : Nat} (hr : rank < 4) (hs : slot < 2) (st : StationNo) :
    (keyRank (contentionKey rank st slot)).val = rank ∧ keyStation (contentionKey rank st slot) = st ∧
      (keySlot (contentionKey rank st slot)).val = slot := by
  have h := contentionKey_toNat hr hs st
  refine ⟨?_, Fin.ext ?_, ?_⟩
  · show (contentionKey rank st slot).toNat / 16 = rank
    omega
  · show (contentionKey rank st slot).toNat / 2 % 8 = st.val
    omega
  · show (contentionKey rank st slot).toNat % 2 = slot
    omega

/-- A key is that of its own parts. -/
theorem contentionKey_of_parts (key : BitVec 6) :
    contentionKey (keyRank key).val (keyStation key) (keySlot key).val = key := by
  apply BitVec.eq_of_toNat_eq
  rw [contentionKey_toNat (keyRank key).isLt (keySlot key).isLt]
  show 16 * (key.toNat / 16) + 2 * (key.toNat / 2 % 8) + key.toNat % 2 = key.toNat
  omega

/-- The kind rank of a frame's contents (R5). -/
def FrameBody.rank : FrameBody → Nat
  | .claim _ => 0
  | .sound _ => 1
  | .presence _ => 2

/-- The slot bit of a frame's contents (R5): 0 but for a SOUND frame. -/
def FrameBody.slotBit : FrameBody → Nat
  | .claim _ | .presence _ => 0
  | .sound f => f.stream.val % 2

theorem FrameBody.rank_lt (b : FrameBody) : b.rank < 3 := by cases b <;> simp [FrameBody.rank]

theorem FrameBody.slotBit_lt (b : FrameBody) : b.slotBit < 2 := by
  cases b
  case sound f => exact Nat.mod_lt _ (by decide)
  all_goals exact Nat.zero_lt_two

/-- The key of a frame is that of its rank, its sender and its slot bit. -/
theorem FrameBody.key_eq (own : StationNo) (b : FrameBody) : b.key own = contentionKey b.rank own b.slotBit := by
  cases b <;> rfl

/-- The parts of a frame's key. -/
theorem FrameBody.key_parts (own : StationNo) (b : FrameBody) :
    (keyRank (b.key own)).val = b.rank ∧ keyStation (b.key own) = own ∧ (keySlot (b.key own)).val = b.slotBit := by
  rw [b.key_eq]
  exact contentionKey_parts (by have := b.rank_lt; omega) b.slotBit_lt own

/-- A frame heard with kind rank 3 is discarded, whatever it carries (R5, R9). -/
theorem acceptFrame_rank_three (latch : Latch) (x : LineFrame) (h : keyRank x.key = 3) : acceptFrame latch x = none := by
  have hp : ∀ bytes, parseBody x.key bytes = none := by
    intro bytes
    unfold parseBody
    rw [h]
    cases bytes with
    | nil => rfl
    | cons a rest =>
      dsimp only
      split <;> rfl
  unfold acceptFrame
  split
  · cases checkedBytes x.payload with
    | none => rfl
    | some bytes => exact hp bytes
  · rfl

/-- Settles O43: a key tells its station, so two stations' keys differ. -/
theorem contentionKeysAreDistinct : Obligations.ContentionKeysAreDistinct := by
  unfold Obligations.ContentionKeysAreDistinct
  refine ⟨fun own b _ => ?value, by decide, by decide, by decide, fun p q a b hpq hk => ?distinct,
    fun own b => ⟨fun h => ?rank, (b.key_parts own).2.1⟩, acceptFrame_rank_three⟩
  case value =>
    have h := contentionKey_toNat (rank := b.rank) (by have := b.rank_lt; omega) b.slotBit_lt own
    rw [b.key_eq, h]
    cases b <;> simp only [FrameBody.rank, FrameBody.slotBit] <;> omega
  case distinct =>
    obtain ⟨_, ha, _⟩ := a.key_parts p
    obtain ⟨_, hb, _⟩ := b.key_parts q
    exact hpq (by rw [← ha, hk, hb])
  case rank =>
    have hr := (b.key_parts own).1
    rw [h] at hr
    exact absurd b.rank_lt (by rw [← hr]; decide)

/-! ### Contention bit by bit (R6) -/

/-- The lowest `n` key bits on the pair, most significant first. -/
def lowKeyBits : Nat → BitVec 6 → List PairBit
  | 0, _ => []
  | n + 1, k => keyBit (k.getLsbD n) :: lowKeyBits n k

theorem keyBits_eq_lowKeyBits (k : BitVec 6) : keyBits k = lowKeyBits 6 k := rfl

/-- The lowest `n + 1` bits of a key are its bit `n` and the lowest `n`. -/
theorem toNat_mod_two_pow_succ (k : BitVec 6) (n : Nat) :
    k.toNat % 2 ^ (n + 1) = k.toNat % 2 ^ n + 2 ^ n * (k.getLsbD n).toNat := by
  rw [Nat.mod_pow_succ, BitVec.getLsbD, Nat.toNat_testBit]

/-- The pair reads dominant exactly where a station drives, so where a sent key has a 0. -/
theorem pairRead_dominant_iff (keys : List (BitVec 6)) (n : Nat) :
    pairRead (keys.map (fun k => keyBit (k.getLsbD n))) = .dominant ↔ ∃ q ∈ keys, q.getLsbD n = false := by
  have drives (q : BitVec 6) : (keyBit (q.getLsbD n) == .dominant) = true ↔ q.getLsbD n = false := by
    cases q.getLsbD n <;> decide
  unfold pairRead
  by_cases h : ∃ q ∈ keys, q.getLsbD n = false
  · rw [if_pos (by simpa [drives] using h)]
    exact ⟨fun _ => h, fun _ => rfl⟩
  · rw [if_neg (by simpa [drives] using h)]
    exact ⟨nofun, fun x => absurd x h⟩

/-- Over the lowest `n` bits a station wins exactly where no sent key is lower there, and else it loses (R6): a station
with a 1 loses to one with a 0, and where all the bits are alike the bits below decide. -/
theorem contendKey_lowKeyBits (n : Nat) (keys : List (BitVec 6)) (k : BitVec 6) (hk : k ∈ keys) :
    contendKey (lowKeyBits n k) (pairKeyBits n keys) =
      if ∀ q ∈ keys, k.toNat % 2 ^ n ≤ q.toNat % 2 ^ n then .won else .lost := by
  induction n generalizing keys with
  | zero =>
    rw [if_pos (fun q _ => by omega)]
    rfl
  | succ n ih =>
    have hlow (q : BitVec 6) : q.toNat % 2 ^ n < 2 ^ n := Nat.mod_lt _ (Nat.two_pow_pos n)
    simp only [toNat_mod_two_pow_succ]
    unfold lowKeyBits pairKeyBits
    cases hread : pairRead (keys.map (fun q => keyBit (q.getLsbD n))) with
    | dominant =>
      obtain ⟨q, hq, hq0⟩ := (pairRead_dominant_iff keys n).mp hread
      cases hb : k.getLsbD n with
      | true =>
        rw [if_neg]
        · rfl
        · intro h
          have := h q hq
          simp only [hq0, Bool.toNat_true, Bool.toNat_false] at this
          have := hlow q
          omega
      | false =>
        show contendKey (lowKeyBits n k) (pairKeyBits n _) = _
        rw [ih _ (List.mem_filter.mpr ⟨hk, by rw [hb]; rfl⟩)]
        refine if_congr ⟨fun h p hp => ?_, fun h p hp => ?_⟩ rfl rfl
        · cases hp0 : p.getLsbD n with
          | false => simpa using h p (List.mem_filter.mpr ⟨hp, by rw [hp0]; rfl⟩)
          | true =>
            have := hlow k
            simp only [Bool.toNat_true, Bool.toNat_false]
            omega
        · obtain ⟨hp, hp0⟩ := List.mem_filter.mp hp
          have := h p hp
          cases hpb : p.getLsbD n with
          | false => simpa [hpb] using this
          | true => rw [hpb] at hp0; exact absurd hp0 (by decide)
    | recessive =>
      have ones : ∀ q ∈ keys, q.getLsbD n = true := by
        intro q hq
        by_contra h
        have := (pairRead_dominant_iff keys n).mpr ⟨q, hq, by simpa using h⟩
        rw [hread] at this
        cases this
      have all : keys.filter (fun q => keyBit (q.getLsbD n) == .recessive) = keys :=
        List.filter_eq_self.mpr (fun q hq => by rw [ones q hq]; rfl)
      dsimp only
      rw [ones k hk, all]
      show contendKey (lowKeyBits n k) (pairKeyBits n keys) = _
      rw [ih keys hk]
      refine if_congr (forall₂_congr fun q hq => ?_) rfl rfl
      rw [ones q hq]
      simp

/-- Settles O44: the six bits of a key, over which contention runs, are the whole key. -/
theorem theLowestKeyWins : Obligations.TheLowestKeyWins := by
  unfold Obligations.TheLowestKeyWins
  intro keys k hk
  rw [keyBits_eq_lowKeyBits, contendKey_lowKeyBits 6 keys k hk]
  refine if_congr (forall₂_congr fun q _ => ?_) rfl rfl
  rw [Nat.mod_eq_of_lt k.isLt, Nat.mod_eq_of_lt q.isLt, BitVec.le_def]

end Sys2Proof.Machine
end

section
/-! PROOF. The line becomes idle (R2) and the best frame for the lifecycle state begins its attempt (R4, R12). -/

namespace Sys2Proof.Machine

open Sys2Proof

/-! ### What is on offer (R12) -/

/-- In CONFIG and JOINING no frame is on offer. -/
theorem Lif.offer_quiet (l : Lif) {lc : Lifecycle} (h : lc = .config ∨ lc = .joining) : l.offer lc = none := by
  rcases h with rfl | rfl <;> rfl

/-- In ISOLATED the presence slot alone is on offer. -/
theorem Lif.offer_isolated (l : Lif) :
    l.offer .isolated = l.presence.frame.map (fun f => (.presence, .presence f)) := rfl

/-! ### The attempt that LINE_IDLE begins (R2, R4) -/

/-- Where no frame is on offer no attempt begins. -/
theorem Lif.arbitrate_of_offer_none {l : Lif} {lc : Lifecycle} (ho : l.offer lc = none) : l.arbitrate lc = l := by
  unfold Lif.arbitrate
  rw [ho]
  split <;> rfl

/-- On an idle line with nothing in flight the frame on offer begins its attempt, in the sense of the latch (R3, R4). -/
theorem Lif.arbitrate_begins {l : Lif} {lc : Lifecycle} {st : TxStore} {b : FrameBody} (hi : l.lineIdle = true)
    (hf : l.flight = none) (ho : l.offer lc = some (st, b)) : l.arbitrate lc =
      { l with flight := some ⟨st, b, decide (l.latch = .crossed), false, false⟩, lineIdle := false } := by
  unfold Lif.arbitrate
  rw [ho, if_pos ⟨hi, hf⟩]
  rfl

/-- A line that was busy, with nothing in flight, becomes idle. -/
theorem exec_lineIdle_of_busy {s : State} (hi : s.lif.lineIdle = false) (hf : s.lif.flight = none) :
    exec .lineIdle s = .next { s with lif := s.lif.becomeIdle s.cle.lifecycle } :=
  if_neg (by simp [hi, hf])

/-- Where no frame is on offer the line stays idle. -/
theorem exec_lineIdle_waits {s : State} (hi : s.lif.lineIdle = false) (hf : s.lif.flight = none)
    (ho : s.lif.offer s.cle.lifecycle = none) :
    exec .lineIdle s = .next { s with lif := { s.lif with lineIdle := true, idleSeen := true } } := by
  have hb : s.lif.becomeIdle s.cle.lifecycle = { s.lif with lineIdle := true, idleSeen := true } :=
    Lif.arbitrate_of_offer_none (l := { s.lif with lineIdle := true, idleSeen := true }) ho
  rw [exec_lineIdle_of_busy hi hf, hb]

/-- The frame on offer begins its attempt, which ends the idle. -/
theorem exec_lineIdle_begins {s : State} {st : TxStore} {b : FrameBody} (hi : s.lif.lineIdle = false)
    (hf : s.lif.flight = none) (ho : s.lif.offer s.cle.lifecycle = some (st, b)) :
    exec .lineIdle s = .next { s with lif := { s.lif with
      idleSeen := true, flight := some ⟨st, b, decide (s.lif.latch = .crossed), false, false⟩ } } := by
  have hb : s.lif.becomeIdle s.cle.lifecycle = { s.lif with
      idleSeen := true, flight := some ⟨st, b, decide (s.lif.latch = .crossed), false, false⟩, lineIdle := false } :=
    Lif.arbitrate_begins (l := { s.lif with lineIdle := true, idleSeen := true }) rfl hf ho
  rw [exec_lineIdle_of_busy hi hf, hb]
  simp [hi]

/-- Settles O39: LINE_IDLE follows what `Lif.offer` gives in each lifecycle state. -/
theorem lineIdleOffersTheBestFrame : Obligations.LineIdleOffersTheBestFrame := by
  unfold Obligations.LineIdleOffersTheBestFrame
  intro s
  refine ⟨rfl, rfl, fun hi hf => ⟨fun hq => exec_lineIdle_waits hi hf (Lif.offer_quiet _ hq), fun hl => ?isolated,
    fun hl => ?active⟩⟩
  case isolated =>
    have ho := s.lif.offer_isolated
    rw [← hl] at ho
    cases hp : s.lif.presence.frame with
    | none => exact exec_lineIdle_waits hi hf (by rw [ho, hp]; rfl)
    | some f => exact exec_lineIdle_begins hi hf (by rw [ho, hp]; rfl)
  case active =>
    have begins {st b} := exec_lineIdle_begins (st := st) (b := b) hi hf
    rw [hl] at begins
    cases hq : s.lif.queue with
    | cons f q => exact begins (by simp [Lif.offer, hq])
    | nil =>
      cases h0 : (s.lif.sound.get 0).frame with
      | some f => exact begins (by simp [Lif.offer, hq, h0])
      | none =>
        cases h1 : (s.lif.sound.get 1).frame with
        | some f => exact begins (by simp [Lif.offer, hq, h0, h1])
        | none =>
          cases hp : s.lif.presence.frame with
          | some f => exact begins (by simp [Lif.offer, hq, h0, h1, hp])
          | none => exact exec_lineIdle_waits hi hf (by simp [hl, Lif.offer, hq, h0, h1, hp])

end Sys2Proof.Machine
end

section
/-! PROOF. How an attempt ends, for each outcome and each store (R6, R7, R12 to R15, R18, R20, R28, R51, R53). -/

namespace Sys2Proof.Machine

open Sys2Proof

/-! ### The three events, with a frame in flight -/

theorem exec_lostContention_of_flight {s : State} {f : Flight} (h : s.lif.flight = some f) :
    exec .lostContention s = .next (s.setLink (s.link.attemptLost s.env f)) := by
  simp [execLostContention, h]

theorem exec_bitError_of_flight {s : State} {f : Flight} (h : s.lif.flight = some f) :
    exec .bitError s = .next (s.setLink (s.link.attemptBitError s.env f)) := by
  simp [execBitError, h]

theorem exec_attemptCompletion_of_flight {s : State} {f : Flight} (h : s.lif.flight = some f) :
    exec .attemptCompletion s = .next (s.setLink (s.link.attemptCompleted s.env f)) := by
  simp [execAttemptCompletion, h]

/-! ### What each outcome does to the blocks of the Claim Engine -/

/-- Outside ISOLATED lost contention changes the stores alone. -/
theorem Link.attemptLost_of_not_isolated (k : Link) (env : Env) (f : Flight) (h : k.cle.lifecycle ≠ .isolated) :
    k.attemptLost env f = { k with lif := k.lif.attemptEnded k.cle.lifecycle f .lost } := if_neg h

/-- In ISOLATED it then abandons a claim that waits to bid (R53). -/
theorem Link.attemptLost_of_isolated (k : Link) (env : Env) (f : Flight) (h : k.cle.lifecycle = .isolated) :
    k.attemptLost env f =
      ({ k with lif := k.lif.attemptEnded k.cle.lifecycle f .lost } : Link).abandonAtIsolation env := if_pos h

/-- The LIF after a bit error, before what the lifecycle state adds: the stores, and the run (R18). -/
def Link.bitErrorLif (k : Link) (f : Flight) : Lif :=
  { k.lif.attemptEnded k.cle.lifecycle f .bitError with
    bitErrorRun := bitErrorRunAfter k.cle.lifecycle k.lif.bitErrorRun .bitError }

/-- In ISOLATED a bit error then abandons a claim that waits to bid (R53). -/
theorem Link.attemptBitError_of_isolated (k : Link) (env : Env) (f : Flight) (h : k.cle.lifecycle = .isolated) :
    k.attemptBitError env f = ({ k with lif := k.bitErrorLif f } : Link).abandonAtIsolation env := by
  unfold Link.attemptBitError Link.bitErrorLif
  rw [h]

/-- Outside ISOLATED a bit error that is not the sixteenth in a row in ACTIVE changes the LIF alone. -/
theorem Link.attemptBitError_of_not_isolated (k : Link) (env : Env) (f : Flight) (h : k.cle.lifecycle ≠ .isolated)
    (hr : k.cle.lifecycle = .active → k.lif.bitErrorRun < 15) :
    k.attemptBitError env f = { k with lif := k.bitErrorLif f } := by
  unfold Link.attemptBitError Link.bitErrorLif
  cases hl : k.cle.lifecycle with
  | isolated => exact absurd hl h
  | config => rfl
  | joining => rfl
  | active =>
    have := hr hl
    refine if_pos ?_
    simp only [bitErrorRunAfter, Config.bitErrorEnd]
    rw [if_neg (by decide)]
    omega

/-- The LIF after a completion, before what the frame's kind adds: the stores, and the run at 0 (R18). -/
def Link.completedLif (k : Link) (f : Flight) : Lif :=
  { k.lif.attemptEnded k.cle.lifecycle f .completed with bitErrorRun := 0 }

/-- What a completion leaves, by the frame's kind. -/
theorem Link.attemptCompleted_eq (k : Link) (env : Env) (f : Flight) :
    k.attemptCompleted env f =
      if f.orphan then { k with lif := k.completedLif f }
      else
        match f.body with
        | .claim c => ({ k with lif := k.completedLif f } : Link).claimCompleted env c
        | .sound _ => { k with lif := k.completedLif f }
        | .presence _ =>
          if k.cle.lifecycle = .isolated then ({ k with lif := k.completedLif f } : Link).rejoin env
          else { k with lif := k.completedLif f } := rfl

/-! ### A claim that waits to bid at isolation (R53) -/

/-- An own claim that waits to bid, its BID not in flight, is abandoned: its entry and its BID go. -/
theorem Link.abandonAtIsolation_of_waits (k : Link) (env : Env) {c : Claim} {link : Bool}
    (hb : ownBidding env.own k.cle.claims = some c) (hs : c.state = .bidding link none)
    (hf : k.lif.bidFlying c.name.serial = false) :
    k.abandonAtIsolation env =
      { lif := { k.lif with
          queue := k.lif.queue.filter (fun g => !isBidOf c.name.serial g)
          besideBid := k.lif.besideBid.filter (fun g => !isBidOf c.name.serial g) }
        cle := { k.cle with claims := eraseClaim c.name k.cle.claims }
        cpt := k.cpt.raise (.claimResult c.name.serial .failedIsolated) } := by
  have hd : k.lif.dropBid c.name.serial = { k.lif with
      queue := k.lif.queue.filter (fun g => !isBidOf c.name.serial g)
      besideBid := k.lif.besideBid.filter (fun g => !isBidOf c.name.serial g) } := by
    unfold Lif.bidFlying at hf
    unfold Lif.dropBid
    rw [if_neg (by rw [hf]; decide)]
    cases k.lif.besideBid with
    | none => rfl
    | some g => cases hg : isBidOf c.name.serial g <;> simp [Option.filter, hg]
  unfold Link.abandonAtIsolation
  rw [hb]
  dsimp only
  rw [hs]
  dsimp only
  rw [if_neg (by rw [hf]; decide)]
  unfold Link.abandon
  rw [hs]
  simp only [Link.raise, Link.setClaims, hd]

/-- Where no own claim waits to bid, but for one whose BID is in flight, nothing is abandoned. -/
theorem Link.abandonAtIsolation_of_not_waits (k : Link) (env : Env)
    (h : ∀ c link, ownBidding env.own k.cle.claims = some c → c.state = .bidding link none →
      k.lif.bidFlying c.name.serial = true) : k.abandonAtIsolation env = k := by
  unfold Link.abandonAtIsolation
  cases hb : ownBidding env.own k.cle.claims with
  | none => rfl
  | some c =>
    dsimp only
    split
    · rename_i link hs
      rw [if_pos (h c link hb hs)]
    · rfl

/-- With nothing in flight no BID is. -/
theorem Lif.bidFlying_of_flight_none {l : Lif} (h : l.flight = none) (n : Serial) : l.bidFlying n = false := by
  simp [Lif.bidFlying, Lif.flyingClaim, Lif.queueFlying, h]

/-! ### A frame that still belongs to its store -/

/-- The slots keep their frames after lost contention, or after a bit error outside ISOLATED (R12, R15). -/
theorem Lif.attemptFailed_keeps_slots (l : Lif) (lc : Lifecycle) (f : Flight) (e : AttemptEnd) (he : e ≠ .completed)
    (ho : f.orphan = false) (hp : (e == .bitError && lc == .isolated) = false) :
    (f.store = .presence → (l.attemptEnded lc f e).presence = l.presence.kept) ∧
      ∀ i, f.store = .sound i → (l.attemptEnded lc f e).sound.get i = (l.sound.get i).kept := by
  obtain ⟨_, _, _, hpres, hsnd⟩ := l.attemptFailed_holds lc f e he ho
  refine ⟨fun h => ?_, fun i h => ?_⟩
  · rw [hpres h, hp, TxSlot.ended_false_eq_kept]
  · rw [hsnd i h, TxSlot.ended_false_eq_kept]

/-- Lost contention leaves the frame pending, or what was held beside it (R6, R12, R15). -/
theorem lostContention_holds {s : State} {f : Flight} (hf : s.lif.flight = some f) (ho : f.orphan = false) :
    ∃ t, exec .lostContention s = .next t ∧ t.lif.flight = none ∧ t.lif.bitErrorRun = s.lif.bitErrorRun ∧
      ((f.store = .presence → t.lif.presence = s.lif.presence.kept) ∧
        ∀ i, f.store = .sound i → t.lif.sound.get i = (s.lif.sound.get i).kept) ∧
      (s.cle.lifecycle ≠ .isolated → t = { s with lif := t.lif } ∧ QueueFailed s.lif f t.lif) ∧
      (s.cle.lifecycle = .isolated → FailedInIsolation s f t) := by
  obtain ⟨hq, hfl, hrun, _, _⟩ := s.lif.attemptFailed_holds s.cle.lifecycle f .lost nofun ho
  have hslots := s.lif.attemptFailed_keeps_slots s.cle.lifecycle f .lost nofun ho rfl
  refine ⟨_, exec_lostContention_of_flight hf, ?_⟩
  by_cases hl : s.cle.lifecycle = .isolated
  · rw [Link.attemptLost_of_isolated _ _ _ hl]
    obtain ⟨hfail, h1, h2, h3, h4⟩ :=
      Link.abandonAtIsolation_holds s (s.lif.attemptEnded s.cle.lifecycle f .lost) f hfl hq
    exact ⟨h1, h2.trans hrun, ⟨fun h => h4.trans (hslots.1 h), fun i h => (congrArg (Tbl.get · i) h3).trans (hslots.2 i h)⟩,
      fun h => absurd hl h, fun _ => hfail⟩
  · rw [Link.attemptLost_of_not_isolated _ _ _ hl]
    exact ⟨hfl, hrun, hslots, fun _ => ⟨rfl, hq⟩, fun h => absurd h hl⟩

/-- A bit error that does not isolate leaves the frame pending, but takes the probe in ISOLATED (R7, R18, R20). -/
theorem bitError_holds {s : State} {f : Flight} (hf : s.lif.flight = some f) (ho : f.orphan = false)
    (hr : s.cle.lifecycle = .active → s.lif.bitErrorRun < 15) :
    ∃ t, exec .bitError s = .next t ∧ t.lif.flight = none ∧
      (s.cle.lifecycle = .isolated → t.lif.bitErrorRun = s.lif.bitErrorRun ∧
        (f.store = .presence → t.lif.presence = s.lif.presence.left) ∧ FailedInIsolation s f t) ∧
      (s.cle.lifecycle = .active → t = { s with lif := t.lif } ∧ t.lif.bitErrorRun = s.lif.bitErrorRun + 1 ∧
        ((f.store = .presence → t.lif.presence = s.lif.presence.kept) ∧
          ∀ i, f.store = .sound i → t.lif.sound.get i = (s.lif.sound.get i).kept) ∧ QueueFailed s.lif f t.lif) := by
  obtain ⟨hq, hfl, _, hpres, _⟩ := s.lif.attemptFailed_holds s.cle.lifecycle f .bitError nofun ho
  have hq' : QueueFailed s.lif f (s.link.bitErrorLif f) := hq.congr_lif rfl rfl rfl
  refine ⟨_, exec_bitError_of_flight hf, ?_⟩
  by_cases hl : s.cle.lifecycle = .isolated
  · rw [Link.attemptBitError_of_isolated _ _ _ hl]
    obtain ⟨hfail, h1, h2, _, h4⟩ := Link.abandonAtIsolation_holds s (s.link.bitErrorLif f) f hfl hq'
    refine ⟨h1, fun _ => ⟨h2.trans ?_, fun h => (h4.trans (hpres h)).trans ?_, hfail⟩,
      fun h => absurd (hl.symm.trans h) (by decide)⟩
    · exact if_pos hl
    · rw [hl]
      exact TxSlot.ended_true_eq_left _
  · rw [Link.attemptBitError_of_not_isolated _ _ _ hl hr]
    refine ⟨hfl, fun h => absurd h hl, fun ha => ⟨rfl, ?_, ?_, hq'⟩⟩
    · have := hr ha
      show (if s.cle.lifecycle = .isolated then _ else min 16 (s.lif.bitErrorRun + 1)) = _
      rw [if_neg hl]
      omega
    · exact s.lif.attemptFailed_keeps_slots s.cle.lifecycle f .bitError nofun ho (by rw [ha]; rfl)

/-! ### Completion of a frame that still belongs to its store -/

/-- Adding a claim frame leaves the frame in flight and the run. -/
theorem Lif.addClaim_flight (l : Lif) (f : ClaimFrame) (re : Bool) :
    (l.addClaim f re).flight = l.flight ∧ (l.addClaim f re).bitErrorRun = l.bitErrorRun := by
  rw [Lif.addClaim_frame]
  exact ⟨rfl, rfl⟩

/-- The report of a completed claim frame leaves the frame in flight and the run (R51). -/
theorem Link.claimCompleted_flight (k : Link) (env : Env) (c : ClaimFrame) :
    (k.claimCompleted env c).lif.flight = k.lif.flight ∧
      (k.claimCompleted env c).lif.bitErrorRun = k.lif.bitErrorRun := by
  cases c with
  | bid n x =>
    unfold Link.claimCompleted
    dsimp only
    split
    · split
      · split <;> exact ⟨rfl, rfl⟩
      · exact Lif.addClaim_flight _ _ _
    · exact Lif.addClaim_flight _ _ _
  | hold n x => exact ⟨rfl, rfl⟩
  | release n => exact ⟨rfl, rfl⟩

/-- Nothing is in flight after a completion, and the run is 0 (R4, R18). -/
theorem Link.attemptCompleted_flight (k : Link) (env : Env) (f : Flight) (ho : f.orphan = false) :
    (k.attemptCompleted env f).lif.flight = none ∧ (k.attemptCompleted env f).lif.bitErrorRun = 0 := by
  obtain ⟨hfl, _⟩ := k.lif.attemptCompleted_holds k.cle.lifecycle f ho
  rw [Link.attemptCompleted_eq, ho, if_neg (by decide)]
  cases f.body with
  | claim c =>
    obtain ⟨h1, h2⟩ := Link.claimCompleted_flight { k with lif := k.completedLif f } env c
    exact ⟨h1.trans hfl, h2⟩
  | sound x => exact ⟨hfl, rfl⟩
  | presence x =>
    dsimp only
    split <;> exact ⟨hfl, rfl⟩

/-- A completed SOUND frame leaves its slot, and nothing else changes but a BID that was held beside (R12, R14). -/
theorem completed_sound (s : State) (f : Flight) (ho : f.orphan = false) {i : PubSlotNo} {x : SoundFrame}
    (hst : f.store = .sound i) (hb : f.body = .sound x) :
    let t := s.setLink (s.link.attemptCompleted s.env f)
    t.lif.sound.get i = (s.lif.sound.get i).left ∧ t = { s with lif := t.lif } ∧
      BesideAppended s.lif.queue s.lif.besideBid t.lif := by
  obtain ⟨_, _, hq, _, hs⟩ := s.lif.attemptCompleted_holds s.cle.lifecycle f ho
  rw [Link.attemptCompleted_eq, ho, hb]
  exact ⟨(hs i hst).trans (TxSlot.ended_true_eq_left _), rfl, (hq (by rw [hst]; nofun)).congr_lif rfl rfl⟩

/-- A completed presence leaves its slot; a completed probe makes the station ACTIVE, with a presence composed (R28). -/
theorem completed_presence (s : State) (f : Flight) (ho : f.orphan = false) {x : PresenceFrame}
    (hst : f.store = .presence) (hb : f.body = .presence x) :
    let t := s.setLink (s.link.attemptCompleted s.env f)
    BesideAppended s.lif.queue s.lif.besideBid t.lif ∧
      (s.cle.lifecycle ≠ .isolated → t.lif.presence = s.lif.presence.left ∧ t = { s with lif := t.lif }) ∧
      (s.cle.lifecycle = .isolated → t.lif.presence = ⟨some (s.presenceNow .active), none⟩ ∧
        t = { s with
          lif := t.lif
          cle := s.withOwnEntry { s.cle with lifecycle := .active, presenceCount := 0 } (s.presenceNow .active)
          cpt := s.cpt.raise .rejoined }) := by
  obtain ⟨hfl, _, hq, hp, _⟩ := s.lif.attemptCompleted_holds s.cle.lifecycle f ho
  have hbeside := hq (by rw [hst]; nofun)
  rw [Link.attemptCompleted_eq, ho, hb, if_neg (by decide)]
  dsimp only
  by_cases hl : s.cle.lifecycle = .isolated
  · rw [if_pos (show s.link.cle.lifecycle = .isolated from hl)]
    refine ⟨hbeside.congr_lif rfl rfl, fun h => absurd hl h, fun _ => ⟨?_, rfl⟩⟩
    have hn : (s.link.completedLif f).flying .presence = false := by
      have hfl' : (s.link.completedLif f).flight = none := hfl
      simp [Lif.flying, hfl']
    show (s.link.completedLif f).presence.hand ((s.link.completedLif f).flying .presence) _ = _
    rw [hn]
    rfl
  · rw [if_neg (show s.link.cle.lifecycle ≠ .isolated from hl)]
    exact ⟨hbeside.congr_lif rfl rfl, fun _ => ⟨(hp hst).trans (TxSlot.ended_true_eq_left _), rfl⟩, fun h => absurd h hl⟩

/-- A completed BID whose claim is gone queues a RELEASE (R51). -/
theorem Link.claimCompleted_of_gone (k : Link) (env : Env) {n : Serial} {x : ClaimFields}
    (h : ∀ own, ownBidding env.own k.cle.claims = some own → own.name.serial ≠ n) :
    k.claimCompleted env (.bid n x) = k.queue (.release n) := by
  unfold Link.claimCompleted
  dsimp only
  split
  · rename_i own hown
    exact if_neg (h own hown)
  · rfl

/-- A completed claim frame leaves the queue; a completed own BID opens its window, and one whose claim is gone queues a
RELEASE (R12 to R15, R51). -/
theorem completed_claim (s : State) (f : Flight) (ho : f.orphan = false) {c : ClaimFrame}
    (hst : f.store = .queue) (hb : f.body = .claim c) :
    let t := s.setLink (s.link.attemptCompleted s.env f)
    (c.kind ≠ .bid → QueueCompleted s.lif t.lif ∧ t = { s with lif := t.lif }) ∧
      (c.kind = .bid → ∀ own, ownBidding s.own s.cle.claims = some own → own.name.serial = c.serial →
        QueueCompleted s.lif t.lif ∧ ∀ link, own.state = .bidding link none → t = { s with
          lif := t.lif, cle := { s.cle with claims := setClaimState own.name (.bidding link (some 0)) s.cle.claims } }) ∧
      (c.kind = .bid → (∀ own, ownBidding s.own s.cle.claims = some own → own.name.serial ≠ c.serial) →
        t = { s with lif := t.lif } ∧
          ∃ m : Lif, QueueCompleted s.lif m ∧ t.lif = m.addClaim (.release c.serial)) := by
  obtain ⟨_, hq, _⟩ := s.lif.attemptCompleted_holds s.cle.lifecycle f ho
  have hdone : QueueCompleted s.lif (s.link.completedLif f) := (hq hst).1
  rw [Link.attemptCompleted_eq, ho, hb, if_neg (by decide)]
  dsimp only
  cases c with
  | hold n x => exact ⟨fun _ => ⟨hdone, rfl⟩, nofun, nofun⟩
  | release n => exact ⟨fun _ => ⟨hdone, rfl⟩, nofun, nofun⟩
  | bid n x =>
    refine ⟨fun h => absurd rfl h, fun _ own hown hn => ?_, fun _ hgone => ?_⟩
    · have hown' : ownBidding s.env.own s.link.cle.claims = some own := hown
      have hn' : own.name.serial = n := hn
      unfold Link.claimCompleted
      dsimp only
      rw [hown']
      dsimp only
      rw [if_pos hn']
      refine ⟨?_, fun link hs => ?_⟩
      · split <;> exact hdone
      · rw [hs]
        rfl
    · rw [Link.claimCompleted_of_gone (n := n) (x := x) { s.link with lif := s.link.completedLif f } s.env hgone]
      exact ⟨rfl, _, hdone, rfl⟩

/-! ### A frame cut off from its store (log 7) -/

/-- The attempt of a frame cut off from its store ends with the stores as they were, but for a BID held beside. -/
theorem Lif.attemptEnded_of_orphan (l : Lif) (lc : Lifecycle) (f : Flight) (e : AttemptEnd) (ho : f.orphan = true) :
    let m := l.attemptEnded lc f e
    BesideAppended l.queue l.besideBid m ∧
      m = { l with flight := none, queue := m.queue, besideBid := m.besideBid } := by
  have hm : l.attemptEnded lc f e = ({ l with flight := none } : Lif).appendBeside := if_pos ho
  rw [hm]
  exact Lif.appendBeside_holds { l with flight := none } rfl

/-- What the end of a cut-off frame's attempt leaves where no claim is abandoned: the LIF alone changes, and of it the
frame in flight, the run and a BID held beside. -/
def NoMore (s t : State) (run : Nat) : Prop :=
  t = { s with lif := t.lif } ∧ t.lif.flight = none ∧ t.lif.bitErrorRun = run ∧ t.lif.sound = s.lif.sound ∧
    t.lif.presence = s.lif.presence ∧ BesideAppended s.lif.queue s.lif.besideBid t.lif

/-- The stores after a cut-off frame's attempt, with any run set, are what `NoMore` says. -/
theorem noMore_of_orphan (s : State) (f : Flight) (e : AttemptEnd) (ho : f.orphan = true) (run : Nat) :
    NoMore s (s.setLink
      { s.link with lif := { s.lif.attemptEnded s.cle.lifecycle f e with bitErrorRun := run } }) run := by
  obtain ⟨hq, hm⟩ := s.lif.attemptEnded_of_orphan s.cle.lifecycle f e ho
  have hsame : (s.lif.attemptEnded s.cle.lifecycle f e).flight = none ∧
      (s.lif.attemptEnded s.cle.lifecycle f e).sound = s.lif.sound ∧
      (s.lif.attemptEnded s.cle.lifecycle f e).presence = s.lif.presence := by
    rw [hm]
    exact ⟨rfl, rfl, rfl⟩
  obtain ⟨hfl, hs, hp⟩ := hsame
  exact ⟨rfl, hfl, rfl, hs, hp, hq.congr_lif rfl rfl⟩

/-- Lost contention of a cut-off frame leaves the run. -/
theorem Lif.attemptEnded_orphan_run (l : Lif) (lc : Lifecycle) (f : Flight) (e : AttemptEnd) (ho : f.orphan = true) :
    (l.attemptEnded lc f e).bitErrorRun = l.bitErrorRun := by
  rw [(l.attemptEnded_of_orphan lc f e ho).2]

/-- What the failure of a cut-off frame's attempt leaves in ISOLATED: a claim that waits to bid is abandoned (R53). -/
def Abandons (s t : State) : Prop :=
  ((∀ c, ¬ WaitsToBid s c) → NoMore s t s.lif.bitErrorRun) ∧
    ∀ c, WaitsToBid s c → t.cle = { s.cle with claims := eraseClaim c.name s.cle.claims } ∧
      t.cpt = s.cpt.raise (.claimResult c.name.serial .failedIsolated) ∧ t.lif.flight = none ∧
      t.lif.bitErrorRun = s.lif.bitErrorRun ∧ t.lif.sound = s.lif.sound ∧ t.lif.presence = s.lif.presence ∧
      t = { s with lif := t.lif, cle := t.cle, cpt := t.cpt } ∧ ∀ g ∈ t.lif.queue, isBidOf c.name.serial g = false

/-- Where the LIF alone changed and left what `NoMore` says, R53 makes of it what `Abandons` says. -/
theorem abandons_of_noMore (s : State) (l : Lif)
    (h : NoMore s (s.setLink { s.link with lif := l }) s.lif.bitErrorRun) :
    Abandons s (s.setLink (({ s.link with lif := l } : Link).abandonAtIsolation s.env)) := by
  have ⟨_, hfl, hrun, hs, hp, _⟩ := h
  refine ⟨fun hw => ?_, fun c hw => ?_⟩
  · rw [Link.abandonAtIsolation_of_not_waits]
    · exact h
    · exact fun c link hb hst => absurd ⟨hb, link, hst⟩ (hw c)
  · obtain ⟨hb, link, hst⟩ := hw
    rw [Link.abandonAtIsolation_of_waits { s.link with lif := l } s.env hb hst (Lif.bidFlying_of_flight_none hfl _)]
    exact ⟨rfl, rfl, hfl, hrun, hs, hp, rfl, fun g hg => by simpa using (List.mem_filter.mp hg).2⟩

/-- How the attempt of a cut-off frame ends, by outcome and lifecycle state. -/
theorem orphan_ends {s : State} {f : Flight} (hf : s.lif.flight = some f) (ho : f.orphan = true) :
    (∃ t, exec .attemptCompletion s = .next t ∧ NoMore s t 0) ∧
      (s.cle.lifecycle ≠ .isolated → (∃ t, exec .lostContention s = .next t ∧ NoMore s t s.lif.bitErrorRun) ∧
        ((s.cle.lifecycle = .active → s.lif.bitErrorRun < 15) →
          ∃ t, exec .bitError s = .next t ∧ NoMore s t (min 16 (s.lif.bitErrorRun + 1)))) ∧
      (s.cle.lifecycle = .isolated → (∃ t, exec .lostContention s = .next t ∧ Abandons s t) ∧
        ∃ t, exec .bitError s = .next t ∧ Abandons s t) := by
  have hlost : NoMore s (s.setLink { s.link with lif := s.lif.attemptEnded s.cle.lifecycle f .lost })
      s.lif.bitErrorRun := by
    have h := noMore_of_orphan s f .lost ho s.lif.bitErrorRun
    rw [← s.lif.attemptEnded_orphan_run s.cle.lifecycle f .lost ho] at h ⊢
    exact h
  refine ⟨⟨_, exec_attemptCompletion_of_flight hf, ?_⟩, fun hl => ⟨⟨_, exec_lostContention_of_flight hf, ?_⟩,
    fun hr => ⟨_, exec_bitError_of_flight hf, ?_⟩⟩, fun hl => ⟨⟨_, exec_lostContention_of_flight hf, ?_⟩,
    _, exec_bitError_of_flight hf, ?_⟩⟩
  · rw [Link.attemptCompleted_eq, if_pos ho]
    exact noMore_of_orphan s f .completed ho 0
  · rw [Link.attemptLost_of_not_isolated _ _ _ hl]
    exact hlost
  · rw [Link.attemptBitError_of_not_isolated _ _ _ hl hr]
    have hrun : bitErrorRunAfter s.cle.lifecycle s.lif.bitErrorRun .bitError = min 16 (s.lif.bitErrorRun + 1) := if_neg hl
    rw [← hrun]
    exact noMore_of_orphan s f .bitError ho _
  · rw [Link.attemptLost_of_isolated _ _ _ hl]
    exact abandons_of_noMore s _ hlost
  · rw [Link.attemptBitError_of_isolated _ _ _ hl]
    have hrun : bitErrorRunAfter s.cle.lifecycle s.lif.bitErrorRun .bitError = s.lif.bitErrorRun := if_pos hl
    refine abandons_of_noMore s _ ?_
    rw [← hrun]
    exact noMore_of_orphan s f .bitError ho _

/-- Settles O40: the three outcomes of a frame that belongs to its store, then those of a cut-off frame. -/
theorem attemptsEndByTheirOutcome : Obligations.AttemptsEndByTheirOutcome := by
  unfold Obligations.AttemptsEndByTheirOutcome
  refine ⟨fun s f hf ho => ⟨lostContention_holds hf ho, bitError_holds hf ho, ?_⟩, fun s f hf ho => orphan_ends hf ho⟩
  obtain ⟨hfl, hrun⟩ := s.link.attemptCompleted_flight s.env f ho
  exact ⟨_, exec_attemptCompletion_of_flight hf, hfl, hrun, fun _ _ => completed_sound s f ho,
    fun _ => completed_presence s f ho, fun _ => completed_claim s f ho⟩

end Sys2Proof.Machine
end

section
/-! PROOF. What a received frame does: it is discarded and captured, or latched and delivered (R3, R9, R10, R36, R72 to
R74, R81, R82). -/

namespace Sys2Proof.Machine

open Sys2Proof

/-! ### A discarded frame (R10) -/

/-- The count of a discarded frame, and the record and its notice where the record was absent. -/
theorem exec_frameReceived_discarded {s : State} {x : LineFrame} (h : acceptFrame s.lif.latch x = none) :
    exec (.frameReceived x) s = .next { s with
      lif := { s.lif with
        errorCount := min 65535 (s.lif.errorCount + 1)
        errorRecord := some (s.lif.errorRecord.getD (failureRecord s.lif.latch x)) }
      cpt := match s.lif.errorRecord with
        | some _ => s.cpt
        | none => s.cpt.raise (.lineError (failureRecord s.lif.latch x)) } := by
  simp only [exec_frameReceived, execFrameReceived, h, Lif.discard]
  cases hr : s.lif.errorRecord with
  | none => rfl
  | some r => simp [Config.errorCountTop]

/-! ### An accepted frame (R3, R9, R36) -/

/-- The LIF once a frame was accepted: an unlatched polarity takes its sense (R3). -/
theorem Lif.takeLatch_eq (l : Lif) (sense : WireSense) :
    l.takeLatch sense = { l with latch := if l.latch = .unlatched then Latch.ofSense sense else l.latch } := by
  unfold Lif.takeLatch
  split <;> rfl

/-- An accepted frame latches the polarity, is delivered, and may let an attempt begin. -/
theorem exec_frameReceived_accepted {s : State} {x : LineFrame} {b : FrameBody}
    (h : acceptFrame s.lif.latch x = some b) :
    exec (.frameReceived x) s =
      .next (({ s with lif := s.lif.takeLatch x.sense } : State).deliver (keyStation x.key) b).arbitrate := by
  simp only [exec_frameReceived, execFrameReceived, h]

/-- In CONFIG a frame is not delivered. -/
theorem State.deliver_inConfig {s : State} (h : s.inConfig = true) (p : StationNo) (b : FrameBody) :
    s.deliver p b = s := if_pos h

/-- In CONFIG no attempt begins. -/
theorem State.arbitrate_inConfig {s : State} (h : s.inConfig = true) : s.arbitrate = s := by
  have hl : s.cle.lifecycle = .config := by simpa [State.inConfig] using h
  unfold State.arbitrate
  rw [Lif.arbitrate_of_offer_none (Lif.offer_quiet _ (.inl hl))]

/-- A frame under this station's own number raises DUPLICATE_NUMBER (R36). -/
theorem State.deliver_own {s : State} {p : StationNo} (h : s.inConfig = false) (hp : p = s.own) (b : FrameBody) :
    s.deliver p b = { s with cpt := s.cpt.raise (.duplicateNumber b.kind) } := by
  unfold State.deliver
  rw [if_neg (by rw [h]; decide), if_pos hp]

/-- A SOUND frame of a peer is delivered to the Intake. -/
theorem State.deliver_sound {s : State} {p : StationNo} (h : s.inConfig = false) (hp : p ≠ s.own) (f : SoundFrame) :
    s.deliver p (.sound f) = s.hearSound f := by
  unfold State.deliver
  rw [if_neg (by rw [h]; decide), if_neg hp]

/-! ### A SOUND frame in the Intake (R72, R74, R81, R82) -/

@[simp] theorem Iku.takeCall_heard (k : Iku) (f : SoundFrame) : (k.takeCall f).heard = k.heard := by
  unfold Iku.takeCall; split <;> rfl
@[simp] theorem Iku.takeCall_buffers (k : Iku) (f : SoundFrame) : (k.takeCall f).buffers = k.buffers := by
  unfold Iku.takeCall; split <;> rfl

/-- What a SOUND frame leaves in the Intake: its heard entry, its call block, and the buffer of its stream. -/
theorem Iku.hearSound_eq (k : Iku) (f : SoundFrame) :
    (k.hearSound f).1.heard = k.heard.set f.stream (HeardEntry.ofFrame f) ∧
      (k.hearSound f).1.callLoss = (k.takeCall f).callLoss ∧
      (k.hearSound f).1.buffers = match k.bufferOf f.stream with
        | none => k.buffers
        | some i => k.buffers.set i ((k.buffers.get i).take f).1 := by
  have hcall : (({ k with heard := k.heard.set f.stream (HeardEntry.ofFrame f) } : Iku).takeCall f).callLoss =
      (k.takeCall f).callLoss := by
    unfold Iku.takeCall; split <;> rfl
  have hof : (({ k with heard := k.heard.set f.stream (HeardEntry.ofFrame f) } : Iku).takeCall f).bufferOf f.stream =
      k.bufferOf f.stream := by
    simp only [Iku.bufferOf, Iku.takeCall_buffers]
  unfold Iku.hearSound
  dsimp only
  rw [hof]
  cases k.bufferOf f.stream with
  | none => simp [hcall]
  | some i => simp [hcall]

/-- The buffer of a stream is assigned to it. -/
theorem Iku.bufferOf_stream {k : Iku} {n : StreamNo} {i : BufferNo} (h : k.bufferOf n = some i) :
    (k.buffers.get i).stream = some n := by
  simpa using List.find?_some h

/-- A buffer of another stream stays as it is. -/
theorem Iku.hearSound_other {k : Iku} {f : SoundFrame} {i : BufferNo} (h : (k.buffers.get i).stream ≠ some f.stream) :
    (k.hearSound f).1.buffers.get i = k.buffers.get i := by
  rw [(k.hearSound_eq f).2.2]
  cases hb : k.bufferOf f.stream with
  | none => rfl
  | some j => exact Tbl.get_set_of_ne _ _ (fun e => h (e ▸ Iku.bufferOf_stream hb))

/-- A RUNNING buffer with room takes a frame of the expected sequence at its end (R81, R82). -/
theorem Buffer.take_expected {b : Buffer} {f : SoundFrame} (hs : b.state = .running) (he : b.expected = some f.seq)
    (hr : b.ring.length + 48 ≤ 192) :
    (b.take f).1 = { b with ring := b.ring ++ ringFrames f.priv f.samples, expected := some (f.seq + 1) } := by
  have hd : seqDistance f.seq f.seq = 0 := by simp [seqDistance]
  have hfit : ¬ Config.ringLen < b.ring.length + Config.blockLen := by
    simp only [Config.ringLen, Config.blockLen]
    omega
  unfold Buffer.take
  rw [hs]
  dsimp only
  unfold Buffer.takeSequenced
  rw [he]
  dsimp only
  rw [hd]
  simp [Buffer.append, appendBlocks, appendBlock, hfit, hs]

/-- The buffer of the frame's stream takes it. -/
theorem Iku.hearSound_buffer {k : Iku} {f : SoundFrame} {i : BufferNo} (h : k.bufferOf f.stream = some i) :
    (k.hearSound f).1.buffers.get i = ((k.buffers.get i).take f).1 := by
  rw [(k.hearSound_eq f).2.2, h]
  exact Tbl.get_set_self _ _ _

/-- Settles O41: the capture of a discarded frame, and the delivery of an accepted one by lifecycle state and sender. -/
theorem receivedFramesAreDeliveredOrDiscarded : Obligations.ReceivedFramesAreDeliveredOrDiscarded := by
  unfold Obligations.ReceivedFramesAreDeliveredOrDiscarded
  intro s x
  refine ⟨exec_frameReceived_discarded, fun b hb => ?_⟩
  intro latched
  have hexec : exec (.frameReceived x) s =
      .next (State.deliver { s with lif := latched } (keyStation x.key) b).arbitrate := by
    rw [exec_frameReceived_accepted hb, Lif.takeLatch_eq]
  refine ⟨fun hc => ?config, fun hc hown => ?own, fun hc hpeer f hf => ?sound⟩
  case config =>
    have hc' : ({ s with lif := latched } : State).inConfig = true := hc
    rw [hexec, State.deliver_inConfig hc', State.arbitrate_inConfig hc']
  case own => rw [hexec, State.deliver_own (s := { s with lif := latched }) hc hown]
  case sound =>
    subst hf
    rw [State.deliver_sound (s := { s with lif := latched }) hc hpeer] at hexec
    obtain ⟨hheard, hcall, _⟩ := s.iku.hearSound_eq f
    refine ⟨_, hexec, rfl, rfl, hheard, fun hn => ?_, fun c hsome => ?_, fun i => Iku.hearSound_other,
      fun i hi hs he hr => ?_⟩
    · refine hcall.trans ?_
      unfold Iku.takeCall
      rw [hn]
    · have : (s.iku.takeCall f).callLoss = takeCallLoss s.iku.callLoss c.ref f.stream c.talkLoss := by
        unfold Iku.takeCall
        rw [hsome]
      show CallTaken _ _ (s.iku.hearSound f).1.callLoss
      rw [hcall, this]
      exact takeCallLoss_taken _ _ _ _
    · exact (Iku.hearSound_buffer hi).trans (Buffer.take_expected hs he hr)

end Sys2Proof.Machine
end

section
/-! PROOF. Isolation (R18, R19, R26, R53): by the sixteenth bit error, by no idle, and at a block boundary. -/

namespace Sys2Proof.Machine

open Sys2Proof

/-! ### What isolation leaves -/

/-- A frame in flight once its station is isolated: a claim frame goes on, any other is cut off from its store (R26). -/
def Flight.atIsolation (f : Flight) : Flight := if f.store = .queue then f else { f with orphan := true }

/-- What isolation makes of own claims (R53), with `m` the claim frames as they stood and `sent` the claims whose BID has
been sent: one that waits to bid is abandoned and its BID dropped, any other stays. -/
def BidsAtIsolation (s t : State) (m : Lif) (sent : Claim → Prop) : Prop :=
  let old := s.cpt.notices.get 3
  (∀ c, WaitsToBid s c → ¬ sent c → t.cle.claims = eraseClaim c.name s.cle.claims ∧
    t.cpt.notices.get 3 = some (raisedEntry old (.claimResult c.name.serial .failedIsolated)) ∧
    t.lif.queue = m.queue.filter (fun g => !isBidOf c.name.serial g) ∧ t.lif.besideClaim = m.besideClaim ∧
    t.lif.besideBid = m.besideBid.filter (fun g => !isBidOf c.name.serial g)) ∧
  ((∀ c, WaitsToBid s c → sent c) → t.cle.claims = s.cle.claims ∧ t.cpt.notices.get 3 = old ∧
    t.lif.queue = m.queue ∧ t.lif.besideClaim = m.besideClaim ∧ t.lif.besideBid = m.besideBid)

/-- Isolation leaves which BID is in flight, because a claim frame goes on with its attempt. -/
theorem Lif.isolate_bidFlying (l : Lif) (n : Serial) : l.isolate.bidFlying n = l.bidFlying n := by
  have hq : l.isolate.queueFlying = l.queueFlying := by
    simp only [Lif.queueFlying, Lif.isolate]
    cases l.flight with
    | none => rfl
    | some f =>
      by_cases h : f.store = .queue
      · simp [h]
      · simp [h, Flight.cutOff]
  simp only [Lif.bidFlying, Lif.flyingClaim, hq]
  rfl

/-- The own bid is an entry of the claim list that bids. -/
theorem ownBidding_mem {own : StationNo} {l : List Claim} {c : Claim} (h : ownBidding own l = some c) :
    c ∈ l ∧ c.isBidding = true := by
  have hp := List.find?_some h
  simp only [Bool.and_eq_true] at hp
  exact ⟨List.mem_of_find?_eq_some h, hp.2⟩

/-- An entry whose name is that of no bid stays when an own bid goes. -/
theorem mem_eraseClaim_of_not_bid {own : StationNo} {l : List Claim} {b c : Claim} (hb : ownBidding own l = some b)
    (hc : c ∈ l) (h : ∀ d ∈ l, d.isBidding = true → d.name ≠ c.name) : c ∈ eraseClaim b.name l := by
  obtain ⟨hm, hbid⟩ := ownBidding_mem hb
  exact List.mem_filter.mpr ⟨hc, by simpa using (h b hm hbid).symm⟩

/-- What entry to ISOLATED does, from the claim frames and the flight `m` (R26, R53). -/
theorem isolate_holds (s : State) (m : Lif) (cause : IsolationCause) :
    let t := s.setLink (({ s.link with lif := m } : Link).isolate s.env cause)
    t.lif.flight = m.flight.map Flight.atIsolation ∧
      t.cpt.notices.get 0 = some (raisedEntry (s.cpt.notices.get 0) (.isolated cause)) ∧ Isolated s t ∧
      BidsAtIsolation s t m (fun c => m.bidFlying c.name.serial = true) := by
  let k : Link := ⟨m.isolate, { s.cle with lifecycle := .isolated, presenceCount := 0 }, s.cpt⟩
  intro t
  have ht : t = s.setLink ((k.abandonAtIsolation s.env).raise (.isolated cause)) := rfl
  clear_value t
  subst ht
  have hslots : ∀ i, (k.lif.sound.get i).frame = none ∧ (k.lif.sound.get i).beside = none := by
    intro i
    show ((Tbl.fill 2 TxSlot.empty).get i).frame = none ∧ ((Tbl.fill 2 TxSlot.empty).get i).beside = none
    rw [Tbl.get_fill]
    exact ⟨rfl, rfl⟩
  have hflight : k.lif.flight = m.flight.map Flight.atIsolation := rfl
  have hplace0 (c : Cpt) : (c.raise (.isolated cause)).notices.get 0 =
      some (raisedEntry (c.notices.get 0) (.isolated cause)) := c.raise_place (.isolated cause)
  have hplace3 (c : Cpt) : (c.raise (.isolated cause)).notices.get 3 = c.notices.get 3 :=
    c.raise_other (.isolated cause) (by simp [Notice.place])
  by_cases hw : ∃ c, WaitsToBid s c ∧ m.bidFlying c.name.serial = false
  · obtain ⟨c, ⟨hb, link, hs⟩, hf⟩ := hw
    have hresult0 : (s.cpt.raise (.claimResult c.name.serial .failedIsolated)).notices.get 0 = s.cpt.notices.get 0 :=
      s.cpt.raise_other _ (by simp [Notice.place])
    have hresult3 := s.cpt.raise_place (.claimResult c.name.serial .failedIsolated)
    rw [Link.abandonAtIsolation_of_waits k s.env hb hs ((m.isolate_bidFlying _).trans hf)]
    refine ⟨hflight, ?_, ⟨rfl, rfl, rfl, fun d hd h => mem_eraseClaim_of_not_bid hb hd h, hslots, rfl, rfl, rfl, rfl, rfl,
      rfl, rfl⟩, fun d hd _ => ?_, fun h => ?_⟩
    · rw [← hresult0]
      exact hplace0 _
    · have : d = c := Option.some.inj (hd.1.symm.trans hb)
      subst this
      exact ⟨rfl, (hplace3 _).trans hresult3, rfl, rfl, rfl⟩
    · exact absurd (hf.symm.trans (h c ⟨hb, link, hs⟩)) (by decide)
  · have hsent : ∀ c, WaitsToBid s c → m.bidFlying c.name.serial = true := by
      intro c hc
      by_contra h
      exact hw ⟨c, hc, by simpa using h⟩
    rw [Link.abandonAtIsolation_of_not_waits k s.env
      (fun c link hb hs => (m.isolate_bidFlying _).trans (hsent c ⟨hb, link, hs⟩))]
    exact ⟨hflight, hplace0 _, ⟨rfl, rfl, rfl, fun d hd _ => hd, hslots, rfl, rfl, rfl, rfl, rfl, rfl, rfl⟩,
      fun c hc h => absurd (hsent c hc) h, fun _ => ⟨rfl, hplace3 _, rfl, rfl, rfl⟩⟩

/-! ### The two causes -/

/-- The sixteenth bit error in a row in ACTIVE isolates (R18). -/
theorem Link.attemptBitError_isolates (k : Link) (env : Env) (f : Flight) (h : k.cle.lifecycle = .active)
    (hr : k.lif.bitErrorRun = 15) :
    k.attemptBitError env f = ({ k with lif := k.bitErrorLif f } : Link).isolate env .bitErrors := by
  unfold Link.attemptBitError Link.bitErrorLif
  rw [h, hr]
  rfl

/-- The second boundary in a row without idle in ACTIVE isolates (R19). -/
theorem Link.checkNoIdle_isolates (k : Link) (env : Env) (h : k.cle.lifecycle = .active) (hp : k.lif.anyPending = true)
    (hi : k.lif.idleSeen = false) (hn : 1 ≤ k.lif.noIdle) :
    k.checkNoIdle env =
      ({ k with lif := { k.lif with noIdle := k.lif.noIdle + 1, idleSeen := false } } : Link).isolate env .noIdle := by
  have hafter : k.lif.noIdleAfter = k.lif.noIdle + 1 := if_pos ⟨hp, hi⟩
  unfold Link.checkNoIdle
  rw [if_pos h, hafter]
  exact if_neg (by simp only [Config.noIdleEnd]; omega)

/-- BIT_ERROR_ISOLATION (R18, R26, R53). -/
theorem bitErrorIsolation_holds {s : State} {f : Flight} (ha : s.cle.lifecycle = .active)
    (hf : s.lif.flight = some f) (hr : s.lif.bitErrorRun = 15) :
    exec .bitErrorIsolation s = exec .bitError s ∧ ∃ (t : State) (m : Lif), exec .bitErrorIsolation s = .next t ∧
      t.lif.flight = none ∧ t.cpt.notices.get 0 = some (raisedEntry (s.cpt.notices.get 0) (.isolated .bitErrors)) ∧
      Isolated s t ∧ BidsAtIsolation s t m (fun _ => False) ∧ (f.orphan = false → QueueFailed s.lif f m) ∧
      (f.orphan = true → BesideAppended s.lif.queue s.lif.besideBid m ∧ m.besideClaim = s.lif.besideClaim) := by
  have hsame : exec .bitErrorIsolation s = exec .bitError s := by
    rw [exec_bitError_of_flight hf, exec_bitErrorIsolation, execBitErrorIsolation, hf]
    exact if_pos ⟨ha, by rw [hr]; rfl⟩
  have hnone : (s.link.bitErrorLif f).flight = none := by
    cases ho : f.orphan with
    | false => exact (s.lif.attemptFailed_holds s.cle.lifecycle f .bitError nofun ho).2.1
    | true =>
      show (s.lif.attemptEnded s.cle.lifecycle f .bitError).flight = none
      rw [(s.lif.attemptEnded_of_orphan s.cle.lifecycle f .bitError ho).2]
  have hunsent : (fun c : Claim => (s.link.bitErrorLif f).bidFlying c.name.serial = true) = fun _ => False := by
    funext c
    rw [Lif.bidFlying_of_flight_none hnone]
    simp
  obtain ⟨hfl, hnotice, hiso, hbids⟩ := isolate_holds s (s.link.bitErrorLif f) .bitErrors
  rw [hunsent] at hbids
  rw [hnone] at hfl
  refine ⟨hsame, _, s.link.bitErrorLif f, hsame.trans (exec_bitError_of_flight hf), ?_⟩
  rw [Link.attemptBitError_isolates _ _ _ ha hr]
  refine ⟨hfl, hnotice, hiso, hbids, fun ho => ?_, fun ho => ?_⟩
  · exact (s.lif.attemptFailed_holds s.cle.lifecycle f .bitError nofun ho).1.congr_lif rfl rfl rfl
  · obtain ⟨hq, hm⟩ := s.lif.attemptEnded_of_orphan s.cle.lifecycle f .bitError ho
    refine ⟨hq.congr_lif rfl rfl, ?_⟩
    show (s.lif.attemptEnded s.cle.lifecycle f .bitError).besideClaim = _
    rw [hm]

/-- NO_IDLE_ISOLATION (R19, R26, R53). -/
theorem noIdleIsolation_holds {s : State} (ha : s.cle.lifecycle = .active) (hp : s.lif.anyPending = true)
    (hi : s.lif.idleSeen = false) (hn : s.lif.noIdle = 1) :
    ∃ t, exec .noIdleIsolation s = .next t ∧ t.lif.flight = s.lif.flight.map Flight.atIsolation ∧
      t.cpt.notices.get 0 = some (raisedEntry (s.cpt.notices.get 0) (.isolated .noIdle)) ∧ Isolated s t ∧
      BidsAtIsolation s t s.lif (fun c => s.lif.bidFlying c.name.serial = true) := by
  have hafter : s.lif.noIdleAfter = 2 := (if_pos ⟨hp, hi⟩).trans (by rw [hn])
  have hexec : exec .noIdleIsolation s = .next (s.setLink (s.link.checkNoIdle s.env)) := if_pos ⟨ha, hafter⟩
  refine ⟨_, hexec, ?_⟩
  rw [Link.checkNoIdle_isolates s.link s.env ha hp hi (Nat.le_of_eq hn.symm)]
  exact isolate_holds s { s.lif with noIdle := s.lif.noIdle + 1, idleSeen := false } .noIdle

/-! ### At a block boundary: the work after the isolation leaves the frame in flight -/

/-- Work that leaves the frame in flight, the lifecycle state, and a presence slot with nothing pending. -/
structure Link.KeepsFlight (k m : Link) : Prop where
  flight : m.lif.flight = k.lif.flight
  life : m.cle.lifecycle = k.cle.lifecycle
  presence : k.lif.presencePending = false → m.lif.presence = k.lif.presence

namespace Link.KeepsFlight

theorem refl (k : Link) : k.KeepsFlight k := ⟨rfl, rfl, fun _ => rfl⟩

/-- Work on neither the LIF nor the lifecycle state. -/
theorem of_eq {k m : Link} (hl : m.lif = k.lif) (hc : m.cle.lifecycle = k.cle.lifecycle) : k.KeepsFlight m :=
  ⟨congrArg Lif.flight hl, hc, fun _ => congrArg Lif.presence hl⟩

theorem trans {k m n : Link} (h : k.KeepsFlight m) (j : m.KeepsFlight n) : k.KeepsFlight n where
  flight := j.flight.trans h.flight
  life := j.life.trans h.life
  presence hp := by
    have hm : m.lif.presencePending = false := by
      unfold Lif.presencePending at hp ⊢
      rw [h.presence hp, h.flight]
      exact hp
    exact (j.presence hm).trans (h.presence hp)

end Link.KeepsFlight

theorem Link.queue_keepsFlight (k : Link) (f : ClaimFrame) (re : Bool) : k.KeepsFlight (k.queue f re) where
  flight := (Lif.addClaim_flight _ _ _).1
  life := rfl
  presence _ := by
    show (k.lif.addClaim f re).presence = _
    rw [Lif.addClaim_frame]

/-- A presence is composed again only where one is pending. -/
theorem Link.recompose_keepsFlight (k : Link) (env : Env) : k.KeepsFlight (k.recompose env) := by
  unfold Link.recompose
  split
  · rename_i h
    exact ⟨rfl, rfl, fun hp => absurd (h.2.symm.trans hp) (by decide)⟩
  · exact .refl k

theorem Link.setClaims_keepsFlight (k : Link) (l : List Claim) : k.KeepsFlight (k.setClaims l) := .of_eq rfl rfl
theorem Link.raise_keepsFlight (k : Link) (n : Notice) : k.KeepsFlight (k.raise n) := .of_eq rfl rfl

theorem Link.placeAnnounce_keepsFlight (k : Link) (env : Env) (z : ZoneSet) (r : Option StreamNo) :
    k.KeepsFlight (k.placeAnnounce env z r).2 := by
  unfold Link.placeAnnounce
  split
  · have hcounter : k.KeepsFlight (k.setCounter (k.nextSerial env.own)) := .of_eq rfl rfl
    exact hcounter.trans ((setClaims_keepsFlight _ _).trans ((queue_keepsFlight _ _ _).trans (recompose_keepsFlight _ _)))
  · exact .refl k

theorem Link.endAnnounce_keepsFlight (k : Link) (env : Env) (n : Serial) : k.KeepsFlight (k.endAnnounce env n) := by
  unfold Link.endAnnounce
  split
  · exact .refl k
  · exact (setClaims_keepsFlight _ _).trans ((queue_keepsFlight _ _ _).trans (recompose_keepsFlight _ _))

theorem Link.tickWindow_keepsFlight (k : Link) (env : Env) : k.KeepsFlight (k.tickWindow env) := by
  unfold Link.tickWindow
  split
  · exact .refl k
  · split
    · split
      · exact setClaims_keepsFlight _ _
      · unfold Link.expireWindow
        split
        · exact (setClaims_keepsFlight _ _).trans
            ((queue_keepsFlight _ _ _).trans ((raise_keepsFlight _ _).trans (recompose_keepsFlight _ _)))
        · exact (setClaims_keepsFlight _ _).trans (raise_keepsFlight _ _)
    · exact .refl k

/-- The same of the whole station. -/
abbrev State.KeepsFlight (s t : State) : Prop := s.link.KeepsFlight t.link

theorem State.foldl_keepsFlight {α : Type} {f : State → α → State} (h : ∀ (s : State) (a : α), s.KeepsFlight (f s a))
    (l : List α) (s : State) : s.KeepsFlight (l.foldl f s) := by
  induction l generalizing s with
  | nil => exact .refl _
  | cons a l ih => exact (h s a).trans (ih (f s a))

/-- Handing a sound slot a frame leaves the frame in flight and the presence slot. -/
theorem Lif.handSound_flight (l : Lif) (lc : Lifecycle) (i : PubSlotNo) (f : Option SoundFrame) :
    (l.handSound lc i f).flight = l.flight ∧ (l.handSound lc i f).presence = l.presence := by
  unfold Lif.handSound
  split <;> exact ⟨rfl, rfl⟩

theorem State.boundaryPickup_keepsFlight (v : MixView) (s : State) : s.KeepsFlight (s.boundaryPickup v) := by
  unfold State.boundaryPickup State.pickupSlot
  dsimp only
  split
  · exact .of_eq rfl rfl
  · exact .of_eq rfl rfl
  · exact ⟨(Lif.handSound_flight _ _ _ _).1, rfl, fun _ => (Lif.handSound_flight _ _ _ _).2⟩

theorem State.publishSlot_keepsFlight (hand : Bool) (s : State) (i : PubSlotNo) :
    s.KeepsFlight (State.publishSlot hand s i) := by
  unfold State.publishSlot
  split
  · exact .refl _
  · cases hand
    · exact ⟨rfl, rfl, fun _ => rfl⟩
    · exact ⟨(Lif.handSound_flight _ _ _ _).1, rfl, fun _ => (Lif.handSound_flight _ _ _ _).2⟩

theorem State.boundaryPublish_keepsFlight (hand : Bool) (s : State) : s.KeepsFlight (s.boundaryPublish hand) :=
  (foldl_keepsFlight (publishSlot_keepsFlight hand) _ s).trans (.of_eq rfl rfl)

theorem State.rduEffect_keepsFlight (s : State) (e : RduEffect) : s.KeepsFlight (s.rduEffect e) := by
  cases e with
  | notice n => exact .of_eq rfl rfl
  | announceStart =>
    simp only [State.rduEffect, State.announceStart]
    have h (env : Env) (z : ZoneSet) (r : Option StreamNo) := s.link.placeAnnounce_keepsFlight env z r
    split <;> exact ⟨(h _ _ _).flight, (h _ _ _).life, (h _ _ _).presence⟩
  | announceEnd c a =>
    simp only [State.rduEffect, State.announceEnd]
    have h (env : Env) (n : Serial) := s.link.endAnnounce_keepsFlight env n
    split
    · exact ⟨(h _ _).flight, (h _ _).life, (h _ _).presence⟩
    · exact .of_eq rfl rfl

theorem State.boundaryRadio_keepsFlight (s : State) : s.KeepsFlight s.boundaryRadio :=
  Link.KeepsFlight.trans (m := State.link { s with rdu := (s.rdu.boundary s.cpt.store).1 }) (.of_eq rfl rfl)
    (foldl_keepsFlight rduEffect_keepsFlight _ _)

theorem State.boundaryClaims_keepsFlight (s : State) : s.KeepsFlight s.boundaryClaims :=
  (s.link.tickWindow_keepsFlight s.env).trans ⟨rfl, rfl, fun _ => rfl⟩

theorem State.boundaryPeers_keepsFlight (s : State) : s.KeepsFlight s.boundaryPeers := by
  obtain ⟨_, _, _, _, hl, hlife⟩ := s.boundaryPeers_holds
  exact ⟨congrArg Lif.flight hl, hlife, fun _ => congrArg Lif.presence hl⟩

/-- The work of a boundary after the no-idle check, but for the presence counter. -/
theorem State.boundaryRest_keepsFlight (v : MixView) (a : FeedTbl Bool) (x : Sounds) (hand : Bool) (s : State) :
    s.KeepsFlight (((((((s.boundaryRadioBlock.boundaryDecide v).boundaryPickup v).boundaryIntake.boundaryMix v a
      x).boundaryUplink v x).boundaryPublish hand).boundaryRadio.boundaryClaims.boundaryPeers)) :=
  Link.KeepsFlight.trans (m := (s.boundaryRadioBlock.boundaryDecide v).link) (.of_eq rfl rfl) <|
    (boundaryPickup_keepsFlight v _).trans <|
    Link.KeepsFlight.trans (m := State.link (State.boundaryUplink v x (State.boundaryMix v a x (State.boundaryIntake _))))
      (.of_eq rfl rfl) <|
    (boundaryPublish_keepsFlight hand _).trans <| (boundaryRadio_keepsFlight _).trans <|
    (boundaryClaims_keepsFlight _).trans (boundaryPeers_keepsFlight _)

/-- In ISOLATED with an empty presence slot, or with a frame in flight, no attempt begins. -/
theorem Lif.arbitrate_isolated (l : Lif) (h : l.flight = none → l.presence.frame = none) :
    (l.arbitrate .isolated).flight = l.flight := by
  cases hf : l.flight with
  | none => rw [Lif.arbitrate_of_offer_none (by rw [l.offer_isolated, h hf]; rfl), hf]
  | some x => exact l.arbitrate_flight _ x hf

/-- A boundary that isolates the station cuts off a sound or presence frame in flight, and begins no attempt. -/
theorem blockBoundary_isolates {s : State} (h : s.isolatesAtBoundary = true) :
    ∃ t, exec .blockBoundary s = .next t ∧ t.lif.flight = s.lif.flight.map Flight.atIsolation := by
  simp only [State.isolatesAtBoundary, Bool.and_eq_true, Bool.not_eq_true', decide_eq_true_eq, beq_iff_eq] at h
  obtain ⟨⟨⟨ha, hp⟩, hi⟩, hn⟩ := h
  have hc : s.inConfig = false := by rw [State.inConfig, ha]; rfl
  refine ⟨s.boundaryRun, by simp [execBlockBoundary, hc], ?_⟩
  let s0 := s.boundaryOutput.boundaryLevels
  have hidle : s0.boundaryIdle = s0.setLink (({ s0.link with
      lif := { s0.lif with noIdle := s0.lif.noIdle + 1, idleSeen := false } } : Link).isolate s0.env .noIdle) :=
    congrArg s0.setLink (Link.checkNoIdle_isolates s0.link s0.env ha hp hi hn)
  obtain ⟨hflight, _, ⟨hlife, _, _, _, _, hframe, hbeside, _⟩, _⟩ :=
    isolate_holds s0 { s0.lif with noIdle := s0.lif.noIdle + 1, idleSeen := false } .noIdle
  rw [← hidle] at hflight hlife hframe hbeside
  have hrest := s0.boundaryIdle.boundaryRest_keepsFlight s.mixView (s.mxe.activated s.mixView)
    (s0.boundaryIdle.boundaryRadioBlock.sounds s.pku.uplink) (s.cle.lifecycle == .active)
  unfold State.boundaryRun
  dsimp only
  generalize State.boundaryPeers _ = u at hrest ⊢
  have hulife : u.cle.lifecycle = .isolated := hrest.life.trans hlife
  have huflight : u.lif.flight = s.lif.flight.map Flight.atIsolation := hrest.flight.trans hflight
  rw [if_neg (by rw [hulife, ha]; decide)]
  show (u.lif.arbitrate u.cle.lifecycle).flight = _
  rw [hulife, Lif.arbitrate_isolated, huflight]
  intro hnone
  have hpend : s0.boundaryIdle.lif.presencePending = false := by
    have hf : s0.boundaryIdle.lif.flight = none := hrest.flight.symm.trans hnone
    unfold Lif.presencePending
    rw [hframe, hbeside, hf]
    rfl
  exact (congrArg TxSlot.frame (hrest.presence hpend)).trans hframe

/-- Settles O14: the two isolations that are commands, and the one that a boundary makes. -/
theorem isolationDiscardsSlotsAndKeepsClaims : Obligations.IsolationDiscardsSlotsAndKeepsClaims := by
  unfold Obligations.IsolationDiscardsSlotsAndKeepsClaims
  exact fun s ha => ⟨fun f hf hr => bitErrorIsolation_holds ha hf hr,
    fun hp hi hn => noIdleIsolation_holds ha hp hi hn, blockBoundary_isolates⟩

end Sys2Proof.Machine
end

section
/-! PROOF. Each reading of R9 inverts the writing of R11: a reader gives a value exactly from the bytes that write it, and
gives only values that pass the format tests. -/

namespace Sys2Proof.Machine

open Sys2Proof

/-! ### Single bytes -/

/-- A byte that reads as a number is that number's byte. -/
theorem finOfByte_eq_some {n : Nat} (hn : n ≤ 256) {b : Byte} {i : Fin n} :
    finOfByte n b = some i ↔ b = BitVec.ofNat 8 i.val := by
  have hi : i.val % 256 = i.val := Nat.mod_eq_of_lt (by omega)
  constructor
  · intro h
    unfold finOfByte at h
    split at h
    · cases h
      simp
    · cases h
  · rintro rfl
    simp [finOfByte, hi]

/-- A byte that reads as a zone set is that set's byte. -/
theorem zonesOfByte_eq_some {b : Byte} {z : ZoneSet} : zonesOfByte b = some z ↔ b = z.setWidth 8 := by
  have hz : (z.setWidth 8).toNat = z.toNat := by
    have := z.isLt
    simp only [BitVec.toNat_setWidth]
    omega
  constructor
  · intro h
    unfold zonesOfByte at h
    split at h
    · cases h
      apply BitVec.eq_of_toNat_eq
      simp
      omega
    · cases h
  · rintro rfl
    unfold zonesOfByte
    rw [if_pos (by rw [hz]; exact z.isLt)]
    congr 1
    apply BitVec.eq_of_toNat_eq
    simp

/-- A code below 256 is read from a byte exactly where the byte is its byte. -/
theorem toNat_eq_iff_eq_ofNat {b : Byte} {n : Nat} (hn : n < 256) : b.toNat = n ↔ b = BitVec.ofNat 8 n := by
  constructor
  · rintro rfl
    simp
  · rintro rfl
    simp
    omega

theorem ClaimKind.ofCode_eq_some {n : Nat} {k : ClaimKind} : ClaimKind.ofCode n = some k ↔ n = k.code := by
  constructor
  · intro h
    unfold ClaimKind.ofCode at h
    split at h <;> cases h <;> rfl
  · rintro rfl
    cases k <;> rfl

theorem PeerState.ofCode_eq_some {n : Nat} {st : PeerState} : PeerState.ofCode n = some st ↔ n = st.code := by
  constructor
  · intro h
    unfold PeerState.ofCode at h
    split at h <;> cases h <;> rfl
  · rintro rfl
    cases st <;> rfl

/-- A byte that reads as a claim kind is that kind's byte. -/
theorem ClaimKind.ofByte_eq_some {b : Byte} {k : ClaimKind} :
    ClaimKind.ofCode b.toNat = some k ↔ b = BitVec.ofNat 8 k.code := by
  rw [ClaimKind.ofCode_eq_some, toNat_eq_iff_eq_ofNat (by cases k <;> decide)]

/-- A byte that reads as a presence state is that state's byte. -/
theorem PeerState.ofByte_eq_some {b : Byte} {st : PeerState} :
    PeerState.ofCode b.toNat = some st ↔ b = BitVec.ofNat 8 st.code := by
  rw [PeerState.ofCode_eq_some, toNat_eq_iff_eq_ofNat (by cases st <;> decide)]

/-- A byte with no bit in the zero field of the urgency and flag byte is made of its flag and its urgency. -/
theorem urgencyByte_inverts (uf : Byte) (h : uf &&& 0x7C#8 = 0) :
    uf = BitVec.ofNat 8 (128 * uf.msb.toNat + uf.toNat % 4) := by
  revert uf
  decide

/-- The parts of an urgency and flag byte. -/
theorem urgencyByte_parts (f : ClaimFields) : urgencyByte f &&& 0x7C#8 = 0 ∧ (urgencyByte f).msb = f.ref.isSome ∧
    (urgencyByte f).toNat % 4 = f.urgency.val := by
  have h : ∀ (flag : Bool) (u : Fin 4), let b := BitVec.ofNat 8 (128 * flag.toNat + u.val)
      b &&& 0x7C#8 = 0 ∧ b.msb = flag ∧ b.toNat % 4 = u.val := by decide
  exact h f.ref.isSome f.urgency

/-- A byte with no bit in the zero field of the descriptor is made of its parts. -/
theorem descriptorByte_inverts (d : Byte) (h : d &&& 0x07#8 = 0) :
    d = descriptorByte (parseDescriptor d).1 (parseDescriptor d).2.1 (parseDescriptor d).2.2 (d.getLsbD 3) := by
  revert d
  decide

/-- The parts of a descriptor byte. -/
theorem descriptorByte_parts (cls : SoundClass) (priv stereo call : Bool) :
    let d := descriptorByte cls priv stereo call
    d &&& 0x07#8 = 0 ∧ parseDescriptor d = (cls, priv, stereo) ∧ d.getLsbD 3 = call ∧ d.getLsbD 4 = stereo := by
  revert priv stereo call
  cases cls <;> decide

/-- A byte of two counts, each of four bits. -/
theorem countsByte_inverts (b : Byte) : b = BitVec.ofNat 8 (16 * (b.toNat / 16) + b.toNat % 16) := by
  rw [Nat.div_add_mod]
  simp

/-- A sample of three bytes is their number, most significant byte first. -/
theorem sampleOf_toNat (a b c : Byte) : (sampleOf a b c).toNat = a.toNat * 65536 + b.toNat * 256 + c.toNat := by
  show (a ++ b ++ c).toNat = _
  rw [BitVec.toNat_append, BitVec.toNat_append, ← Nat.shiftLeft_add_eq_or_of_lt b.isLt,
    ← Nat.shiftLeft_add_eq_or_of_lt c.isLt]
  simp only [Nat.shiftLeft_eq]
  omega

/-- A byte of a sample is a digit of its number. -/
theorem extractByte_toNat (x : Sample) (n : Nat) : (x.extractLsb' n 8).toNat = x.toNat / 2 ^ n % 256 := by
  rw [BitVec.extractLsb'_toNat, Nat.shiftRight_eq_div_pow]

/-- Three bytes are the bytes of the sample they make. -/
theorem sampleBytes_sampleOf (a b c : Byte) : sampleBytes (sampleOf a b c) = [a, b, c] := by
  have ha := a.isLt
  have hb := b.isLt
  have hc := c.isLt
  have hs := sampleOf_toNat a b c
  have digit (n : Nat) (y : Byte) (h : (sampleOf a b c).toNat / 2 ^ n % 256 = y.toNat) :
      (sampleOf a b c).extractLsb' n 8 = y := BitVec.eq_of_toNat_eq (by rw [extractByte_toNat, h])
  unfold sampleBytes
  rw [digit 16 a (by omega), digit 8 b (by omega), digit 0 c (by omega)]

/-- A sample comes back from its bytes. -/
theorem sampleOf_extract (x : Sample) :
    sampleOf (x.extractLsb' 16 8) (x.extractLsb' 8 8) (x.extractLsb' 0 8) = x := by
  apply BitVec.eq_of_toNat_eq
  have := x.isLt
  simp only [sampleOf_toNat, extractByte_toNat]
  omega

/-! ### Claim frames -/

/-- The stream reference byte of a held-claim entry: 0 when absent. -/
def refByte : Option StreamNo → Byte
  | none => 0
  | some n => BitVec.ofNat 8 n.val

/-- Claim fields are read exactly from the four bytes that write them, and pass the field tests of R9. -/
theorem parseFields_eq_some {k uf z r : Byte} {f : ClaimFields} :
    parseFields k uf z r = some f ↔
      k = BitVec.ofNat 8 f.kind.code ∧ uf = urgencyByte f ∧ z = f.zones.setWidth 8 ∧ r = refByte f.ref ∧ f.wf = true := by
  constructor
  · intro h
    simp only [parseFields, Option.bind_eq_bind, Option.bind_eq_some_iff, ClaimKind.ofByte_eq_some,
      zonesOfByte_eq_some] at h
    obtain ⟨kind, hk, zones, hz, h⟩ := h
    split at h
    · cases h
    rename_i hgood
    obtain ⟨hzero, hzones⟩ := not_or.mp hgood
    have huf := urgencyByte_inverts uf (not_not.mp hzero)
    split at h
    · rename_i hflag
      simp only [Option.bind_eq_some_iff, finOfByte_eq_some (show 16 ≤ 256 by decide)] at h
      obtain ⟨n, hr, h⟩ := h
      split at h <;> cases h
      rename_i hfits
      rw [hflag] at huf
      exact ⟨hk, huf, hz, hr, by simpa [ClaimFields.wf, hfits] using hzones⟩
    · rename_i hflag
      split at h <;> cases h
      rename_i hfits
      rw [Bool.not_eq_true] at hflag
      rw [hflag] at huf
      exact ⟨hk, huf, hz, hfits.1, by simpa [ClaimFields.wf, hfits.2] using hzones⟩
  · rintro ⟨rfl, rfl, rfl, rfl, hwf⟩
    obtain ⟨hzero, hflag, hurgency⟩ := urgencyByte_parts f
    simp only [ClaimFields.wf, Bool.and_eq_true, bne_iff_ne] at hwf
    simp only [parseFields, ClaimKind.ofByte_eq_some.mpr rfl, zonesOfByte_eq_some.mpr rfl, Option.bind_eq_bind,
      Option.bind_some]
    rw [if_neg (not_or.mpr ⟨not_not.mpr hzero, hwf.1⟩)]
    obtain ⟨kind, urgency, zones, ref⟩ := f
    cases ref with
    | none =>
      rw [if_neg (by rw [hflag]; simp), if_pos ⟨rfl, hwf.2⟩]
      simp [hurgency]
    | some n =>
      rw [if_pos (by rw [hflag]; rfl)]
      simp [refByte, (finOfByte_eq_some (show 16 ≤ 256 by decide)).mpr rfl, hwf.2, hurgency]

/-- The bytes of a BID or HOLD after its serial are read exactly from the fields that write them. -/
theorem parseClaimBytes_eq_some {bytes : List Byte} {f : ClaimFields} :
    parseClaimBytes bytes = some f ↔
      bytes = num1 f.kind.code ++ [urgencyByte f] ++ zones1 f.zones ++ refBytes f.ref ∧ f.wf = true := by
  obtain ⟨_, hflag, _⟩ := urgencyByte_parts f
  constructor
  · intro h
    unfold parseClaimBytes at h
    split at h
    · rename_i k uf z
      split at h
      · cases h
      rename_i hmsb
      obtain ⟨rfl, rfl, rfl, _, hwf⟩ := parseFields_eq_some.mp h
      have hnone : f.ref = none := by simpa [hflag] using hmsb
      exact ⟨by simp [hnone, num1, zones1, refBytes], hwf⟩
    · rename_i k uf z r
      split at h
      · rename_i hmsb
        obtain ⟨rfl, rfl, rfl, rfl, hwf⟩ := parseFields_eq_some.mp h
        obtain ⟨n, hn⟩ := Option.isSome_iff_exists.mp (hflag.symm.trans hmsb)
        exact ⟨by simp [hn, num1, zones1, refBytes, refByte], hwf⟩
      · cases h
    · cases h
  · rintro ⟨rfl, hwf⟩
    cases hr : f.ref with
    | none =>
      show (if (urgencyByte f).msb then none else _) = _
      rw [hflag, hr, if_neg (by decide)]
      exact parseFields_eq_some.mpr ⟨rfl, rfl, rfl, by rw [hr]; rfl, hwf⟩
    | some n =>
      show (if (urgencyByte f).msb then _ else none) = _
      rw [hflag, hr, if_pos (show (some n).isSome = true from rfl)]
      exact parseFields_eq_some.mpr ⟨rfl, rfl, rfl, by rw [hr]; rfl, hwf⟩

/-- A claim frame is read exactly from the bytes that write it. -/
theorem parseClaimFrame_eq_some {bytes : List Byte} {f : ClaimFrame} :
    parseClaimFrame bytes = some f ↔ bytes = (FrameBody.claim f).bytes ∧ f.wf = true := by
  constructor
  · intro h
    unfold parseClaimFrame at h
    split at h
    · rename_i sub serial rest
      have hsub {n : Nat} (hn : n < 256) (e : sub.toNat = n) : sub = BitVec.ofNat 8 n := (toNat_eq_iff_eq_ofNat hn).mp e
      split at h
      · rename_i e
        obtain ⟨fields, hf, rfl⟩ := Option.map_eq_some_iff.mp h
        obtain ⟨rfl, hwf⟩ := parseClaimBytes_eq_some.mp hf
        rw [hsub (by decide) e]
        exact ⟨rfl, hwf⟩
      · rename_i e
        obtain ⟨fields, hf, rfl⟩ := Option.map_eq_some_iff.mp h
        obtain ⟨rfl, hwf⟩ := parseClaimBytes_eq_some.mp hf
        rw [hsub (by decide) e]
        exact ⟨rfl, hwf⟩
      · rename_i e
        split at h <;> cases h
        rename_i hrest
        rw [hsub (by decide) e, hrest]
        exact ⟨rfl, rfl⟩
      · cases h
    · cases h
  · rintro ⟨rfl, hwf⟩
    cases f with
    | bid n fields => exact congrArg (Option.map (ClaimFrame.bid n)) (parseClaimBytes_eq_some.mpr ⟨rfl, hwf⟩)
    | hold n fields => exact congrArg (Option.map (ClaimFrame.hold n)) (parseClaimBytes_eq_some.mpr ⟨rfl, hwf⟩)
    | release n => rfl

/-! ### SOUND frames -/

/-- Mono samples are read exactly from the bytes that write them, both channels equal. -/
theorem parseMono_eq_some {bytes : List Byte} {l : List StereoSample} :
    parseMono bytes = some l ↔ bytes = framesBytes false l ∧ ∀ x ∈ l, x.l = x.r := by
  constructor
  · intro h
    induction bytes using parseMono.induct generalizing l with
    | case1 => cases h; exact ⟨rfl, by simp⟩
    | case2 a b c rest ih =>
      obtain ⟨tail, htail, rfl⟩ := Option.map_eq_some_iff.mp h
      obtain ⟨hbytes, heq⟩ := ih htail
      refine ⟨?_, List.forall_mem_cons.mpr ⟨rfl, heq⟩⟩
      show _ = sampleBytes (sampleOf a b c) ++ framesBytes false tail
      rw [sampleBytes_sampleOf, ← hbytes]
      rfl
    | case3 bytes h1 h2 => simp [parseMono] at h
  · rintro ⟨rfl, heq⟩
    induction l with
    | nil => rfl
    | cons x l ih =>
      obtain ⟨hx, hl⟩ := List.forall_mem_cons.mp heq
      show (parseMono (framesBytes false l)).map _ = _
      rw [ih hl, sampleOf_extract]
      obtain ⟨left, right⟩ := x
      cases hx
      rfl

/-- Stereo samples are read exactly from the bytes that write them. -/
theorem parseStereo_eq_some {bytes : List Byte} {l : List StereoSample} :
    parseStereo bytes = some l ↔ bytes = framesBytes true l := by
  constructor
  · intro h
    induction bytes using parseStereo.induct generalizing l with
    | case1 => cases h; rfl
    | case2 a b c d e f rest ih =>
      obtain ⟨tail, htail, rfl⟩ := Option.map_eq_some_iff.mp h
      show _ = (sampleBytes (sampleOf a b c) ++ sampleBytes (sampleOf d e f)) ++ framesBytes true tail
      rw [sampleBytes_sampleOf, sampleBytes_sampleOf, ← ih htail]
      rfl
    | case3 bytes h1 h2 => simp [parseStereo] at h
  · rintro rfl
    induction l with
    | nil => rfl
    | cons x l ih =>
      show (parseStereo (framesBytes true l)).map _ = _
      rw [ih, sampleOf_extract, sampleOf_extract]
      rfl

/-- The 48 sample frames of a SOUND frame are read exactly from the bytes that write them. -/
theorem parseSamples_eq_some {stereo : Bool} {bytes : List Byte} {l : List StereoSample} :
    parseSamples stereo bytes = some l ↔
      bytes = framesBytes stereo l ∧ l.length = Config.blockLen ∧ (stereo = false → ∀ x ∈ l, x.l = x.r) := by
  have hlen (r : Option (List StereoSample)) :
      (match r with
        | none => none
        | some l => if l.length = Config.blockLen then some l else none) = some l ↔
        r = some l ∧ l.length = Config.blockLen := by
    cases r with
    | none => simp
    | some m =>
      constructor
      · intro h
        dsimp only at h
        split at h <;> cases h
        exact ⟨rfl, by assumption⟩
      · rintro ⟨h, hl⟩
        cases h
        exact if_pos hl
  refine (hlen _).trans ?_
  cases stereo with
  | false =>
    rw [if_neg (by decide), parseMono_eq_some]
    exact ⟨fun ⟨⟨h1, h2⟩, h3⟩ => ⟨h1, h3, fun _ => h2⟩, fun ⟨h1, h2, h3⟩ => ⟨⟨h1, h3 rfl⟩, h2⟩⟩
  | true =>
    rw [if_pos rfl, parseStereo_eq_some]
    exact ⟨fun ⟨h1, h2⟩ => ⟨h1, h2, nofun⟩, fun ⟨h1, h2, _⟩ => ⟨h1, h2⟩⟩

/-- The call block is read exactly from the bytes that write it, with what follows it left over. -/
theorem parseCall_eq_some {present : Bool} {bytes tail : List Byte} {call : Option CallBlock} :
    parseCall present bytes = some (call, tail) ↔
      call.isSome = present ∧ bytes = callBytes call ++ tail ∧ ∀ c, call = some c → c.talkLoss ≤ 48 := by
  have hfin := fun {b : Byte} {i : Fin 8} => finOfByte_eq_some (n := 8) (by decide) (b := b) (i := i)
  constructor
  · intro h
    unfold parseCall at h
    split at h
    · rename_i hpresent
      split at h
      · rename_i st serial loss z rest
        simp only [Option.bind_eq_bind, Option.bind_eq_some_iff, hfin] at h
        obtain ⟨station, rfl, h⟩ := h
        split at h <;> cases h
        rename_i hgood
        refine ⟨by rw [hpresent]; rfl, ?_, fun c hc => ?_⟩
        · simp [callBytes, num1, hgood.2]
        · cases hc
          exact hgood.1
      · cases h
    · rename_i hpresent
      cases h
      exact ⟨by simpa using hpresent, rfl, nofun⟩
  · rintro ⟨rfl, rfl, hloss⟩
    cases call with
    | none => rfl
    | some c =>
      have hl := hloss c rfl
      have hbyte : (BitVec.ofNat 8 c.talkLoss).toNat = c.talkLoss := by
        rw [BitVec.toNat_ofNat]
        omega
      simp [parseCall, callBytes, num1, hfin.mpr rfl, hbyte, hl]

/-- A SOUND frame is read exactly from the bytes that write it, for the stream of its key. -/
theorem parseSound_eq_some {n : StreamNo} {bytes : List Byte} {f : SoundFrame} :
    parseSound n bytes = some f ↔
      f.stream = n ∧ bytes = (FrameBody.sound f).bytes ∧ f.samples.length = Config.blockLen ∧
        (f.stereo = false → ∀ x ∈ f.samples, x.l = x.r) ∧ ∀ c, f.call = some c → c.talkLoss ≤ 48 := by
  constructor
  · intro h
    unfold parseSound at h
    split at h
    · rename_i sn seq d rest
      split at h
      · rename_i hgood
        simp only [Option.bind_eq_bind, Option.bind_eq_some_iff, Prod.exists] at h
        obtain ⟨call, tail, hcall, samples, hsamples, h⟩ := h
        cases h
        obtain ⟨hpresent, rfl, hloss⟩ := parseCall_eq_some.mp hcall
        obtain ⟨rfl, hlen, hmono⟩ := parseSamples_eq_some.mp hsamples
        have hd := descriptorByte_inverts d hgood.2
        have hsn := (toNat_eq_iff_eq_ofNat (by omega)).mp hgood.1
        refine ⟨rfl, ?_, hlen, hmono, hloss⟩
        simp only [FrameBody.bytes, num1, hpresent, ← hd, ← hsn]
        simp
        rfl
      · cases h
    · cases h
  · rintro ⟨rfl, rfl, hlen, hmono, hloss⟩
    obtain ⟨hzero, hparts, hbit3, hbit4⟩ := descriptorByte_parts f.cls f.priv f.stereo f.call.isSome
    have hsn : (BitVec.ofNat 8 f.stream.val).toNat = f.stream.val := by
      rw [BitVec.toNat_ofNat]
      omega
    have hcall : parseCall f.call.isSome (callBytes f.call ++ framesBytes f.stereo f.samples) =
        some (f.call, framesBytes f.stereo f.samples) := parseCall_eq_some.mpr ⟨rfl, rfl, hloss⟩
    have hsamples : parseSamples f.stereo (framesBytes f.stereo f.samples) = some f.samples :=
      parseSamples_eq_some.mpr ⟨rfl, hlen, hmono⟩
    simp [FrameBody.bytes, num1, parseSound, hsn, hzero, hparts, hbit3, hbit4, hcall, hsamples,
      -BitVec.getLsbD_eq_getElem]

/-! ### PRESENCE frames -/

/-- The zero field of a publish entry's descriptor holds the call reference bit too. -/
theorem pubDescriptor_zero_iff (d : Byte) : d &&& 0x0F#8 = 0 ↔ d &&& 0x07#8 = 0 ∧ d.getLsbD 3 = false := by
  revert d
  decide

/-- A publish list of this many entries is read exactly from the bytes that write it. -/
theorem parsePub_eq_some {sender : StationNo} {n : Nat} {bytes tail : List Byte} {l : List PubEntry} :
    parsePub sender n bytes = some (l, tail) ↔
      l.length = n ∧ bytes = l.flatMap pubEntryBytes ++ tail ∧ ∀ e ∈ l, producerOf e.stream = sender := by
  have hfin := fun {b : Byte} {i : Fin 16} => finOfByte_eq_some (n := 16) (by decide) (b := b) (i := i)
  constructor
  · intro h
    induction n, bytes using parsePub.induct generalizing l with
    | case1 bytes =>
      cases h
      exact ⟨rfl, rfl, by simp⟩
    | case2 n sn d rest ih =>
      simp only [parsePub, Option.bind_eq_bind, Option.bind_eq_some_iff, hfin] at h
      obtain ⟨stream, rfl, h⟩ := h
      split at h
      · rename_i hgood
        simp only [Option.bind_eq_some_iff, Prod.exists] at h
        obtain ⟨l', tail', hl, h⟩ := h
        cases h
        obtain ⟨hlen, rfl, hown⟩ := ih hl
        obtain ⟨hzero, hcall⟩ := (pubDescriptor_zero_iff d).mp hgood.2
        have hd := descriptorByte_inverts d hzero
        rw [hcall] at hd
        refine ⟨congrArg (· + 1) hlen, ?_, List.forall_mem_cons.mpr ⟨hgood.1, hown⟩⟩
        simp [pubEntryBytes, num1, ← hd]
      · cases h
    | case3 n bytes hshape => simp [parsePub] at h
  · rintro ⟨rfl, rfl, hown⟩
    induction l with
    | nil => rfl
    | cons e l ih =>
      obtain ⟨he, hl⟩ := List.forall_mem_cons.mp hown
      obtain ⟨hzero, hparts, hbit3, _⟩ := descriptorByte_parts e.cls e.priv e.stereo false
      have hfield := (pubDescriptor_zero_iff _).mpr ⟨hzero, hbit3⟩
      simp [pubEntryBytes, num1, parsePub, hfin.mpr rfl, he, hfield, ih hl, hparts]

/-- A held-claim entry has five bytes. -/
theorem heldEntryBytes_eq (e : HeldEntry) : heldEntryBytes e =
    [e.serial, BitVec.ofNat 8 e.fields.kind.code, urgencyByte e.fields, e.fields.zones.setWidth 8, refByte e.fields.ref] := by
  obtain ⟨serial, kind, urgency, zones, ref⟩ := e
  cases ref <;> rfl

/-- A held-claim list of this many entries is read exactly from the bytes that write it. -/
theorem parseHeld_eq_some {n : Nat} {bytes : List Byte} {l : List HeldEntry} :
    parseHeld n bytes = some l ↔
      l.length = n ∧ bytes = l.flatMap heldEntryBytes ∧ ∀ e ∈ l, e.fields.wf = true := by
  constructor
  · intro h
    induction n, bytes using parseHeld.induct generalizing l with
    | case1 =>
      cases h
      exact ⟨rfl, rfl, by simp⟩
    | case2 bytes hbytes => simp [parseHeld, hbytes] at h
    | case3 n serial k uf z r rest ih =>
      simp only [parseHeld, Option.bind_eq_bind, Option.bind_eq_some_iff] at h
      obtain ⟨f, hf, l', hl, h⟩ := h
      cases h
      obtain ⟨hlen, rfl, hwf⟩ := ih hl
      obtain ⟨rfl, rfl, rfl, rfl, hfwf⟩ := parseFields_eq_some.mp hf
      refine ⟨congrArg (· + 1) hlen, ?_, List.forall_mem_cons.mpr ⟨hfwf, hwf⟩⟩
      rw [List.flatMap_cons, heldEntryBytes_eq]
      rfl
    | case4 n bytes hshape => simp [parseHeld] at h
  · rintro ⟨rfl, rfl, hwf⟩
    induction l with
    | nil => rfl
    | cons e l ih =>
      obtain ⟨he, hl⟩ := List.forall_mem_cons.mp hwf
      have hf := parseFields_eq_some.mpr ⟨rfl, rfl, rfl, rfl, he⟩
      simp [heldEntryBytes_eq, parseHeld, hf, ih hl]

/-- A PRESENCE frame is read exactly from the bytes that write it. -/
theorem parsePresence_eq_some {sender : StationNo} {bytes : List Byte} {f : PresenceFrame} :
    parsePresence sender bytes = some f ↔ bytes = (FrameBody.presence f).bytes ∧ f.wf sender := by
  constructor
  · intro h
    unfold parsePresence at h
    split at h
    · rename_i st rz iz counts rest
      split at h
      · rename_i hcounts
        simp only [Option.bind_eq_bind, Option.bind_eq_some_iff, Prod.exists, PeerState.ofByte_eq_some,
          zonesOfByte_eq_some, parsePub_eq_some, parseHeld_eq_some] at h
        obtain ⟨state, rfl, rendered, rfl, impaired, rfl, pubs, tail, ⟨hpubs, rfl, hown⟩, held, ⟨hheld, rfl, hwf⟩, h⟩ := h
        split at h <;> cases h
        rename_i hnodup
        have hbyte := countsByte_inverts counts
        rw [← hpubs, ← hheld] at hbyte
        refine ⟨?_, by dsimp only; omega, hown, hnodup, by dsimp only; omega, hwf⟩
        simp [FrameBody.bytes, num1, zones1, ← hbyte]
      · cases h
    · cases h
  · rintro ⟨rfl, hpubs, hown, hnodup, hheld, hwf⟩
    have hcounts : (BitVec.ofNat 8 (16 * f.publish.length + f.held.length)).toNat =
        16 * f.publish.length + f.held.length := by
      rw [BitVec.toNat_ofNat]
      omega
    have hhigh : (16 * f.publish.length + f.held.length) / 16 = f.publish.length := by omega
    have hlow : (16 * f.publish.length + f.held.length) % 16 = f.held.length := by omega
    have hpub : parsePub sender f.publish.length (f.publish.flatMap pubEntryBytes ++ f.held.flatMap heldEntryBytes) =
        some (f.publish, f.held.flatMap heldEntryBytes) := parsePub_eq_some.mpr ⟨rfl, rfl, hown⟩
    have hread : parseHeld f.held.length (f.held.flatMap heldEntryBytes) = some f.held :=
      parseHeld_eq_some.mpr ⟨rfl, rfl, hwf⟩
    simp [FrameBody.bytes, num1, zones1, parsePresence, hcounts, hhigh, hlow, hpubs, hheld,
      PeerState.ofByte_eq_some.mpr rfl, zonesOfByte_eq_some.mpr rfl, hpub, hread, hnodup,
      -BitVec.toNat_ofNat]

/-! ### Whole frames -/

/-- The stream of a station's slot is the one that this station produces with this slot bit. -/
theorem eq_streamOf_iff {n : StreamNo} {st : StationNo} {slot : PubSlotNo} :
    n = streamOf st slot ↔ producerOf n = st ∧ n.val % 2 = slot.val := by
  simp only [streamOf, producerOf, Fin.ext_iff]
  omega

/-- A SOUND frame is read exactly where its stream is that of the station and slot, from the bytes that write it. -/
theorem parseSound_streamOf_eq_some {st : StationNo} {slot : PubSlotNo} {bytes : List Byte} {f : SoundFrame} :
    parseSound (streamOf st slot) bytes = some f ↔
      f.stream.val % 2 = slot.val ∧ bytes = (FrameBody.sound f).bytes ∧ f.wf st := by
  rw [parseSound_eq_some, eq_streamOf_iff, SoundFrame.wf]
  constructor
  · rintro ⟨⟨hst, hslot⟩, hbytes, hrest⟩
    exact ⟨hslot, hbytes, hst, hrest⟩
  · rintro ⟨hslot, hbytes, hst, hrest⟩
    exact ⟨⟨hst, hslot⟩, hbytes, hrest⟩

/-- Contents after a header byte are read exactly where their rank and slot bit are the key's, from the bytes that write
them, and where the station of the key can send them. -/
theorem parseBody_header_eq_some {key : BitVec 6} {rest : List Byte} {b : FrameBody} :
    parseBody key (headerByte key :: rest) = some b ↔
      (keyRank key).val = b.rank ∧ (keySlot key).val = b.slotBit ∧ rest = b.bytes ∧ b.wf (keyStation key) := by
  have hslot : keySlot key = 0 ↔ (keySlot key).val = 0 := Fin.ext_iff
  constructor
  · intro h
    simp only [parseBody, if_true] at h
    split at h
    case h_1 hrank =>
      simp only [Option.ite_none_right_eq_some, Option.map_eq_some_iff, parseClaimFrame_eq_some] at h
      obtain ⟨hs, f, ⟨hbytes, hwf⟩, rfl⟩ := h
      exact ⟨hrank, hslot.mp hs, hbytes, hwf⟩
    case h_2 hrank =>
      simp only [Option.map_eq_some_iff, parseSound_streamOf_eq_some] at h
      obtain ⟨f, ⟨hs, hbytes, hwf⟩, rfl⟩ := h
      exact ⟨hrank, hs.symm, hbytes, hwf⟩
    case h_3 hrank =>
      simp only [Option.ite_none_right_eq_some, Option.map_eq_some_iff, parsePresence_eq_some] at h
      obtain ⟨hs, f, ⟨hbytes, hwf⟩, rfl⟩ := h
      exact ⟨hrank, hslot.mp hs, hbytes, hwf⟩
    case h_4 => cases h
  · rintro ⟨hrank, hs, hbytes, hwf⟩
    cases b with
    | claim f =>
      have hread := parseClaimFrame_eq_some.mpr ⟨hbytes, hwf⟩
      simp [parseBody, hrank, FrameBody.rank, hslot.mpr hs, hread]
    | sound f =>
      have hread := parseSound_streamOf_eq_some.mpr ⟨hs.symm, hbytes, hwf⟩
      simp [parseBody, hrank, FrameBody.rank, hread]
    | presence f =>
      have hread := parsePresence_eq_some.mpr ⟨hbytes, hwf⟩
      simp [parseBody, hrank, FrameBody.rank, hslot.mpr hs, hread]

/-- A key is the one that its station gives these contents exactly where its rank and slot bit are theirs. -/
theorem FrameBody.eq_key_iff {key : BitVec 6} {b : FrameBody} :
    key = b.key (keyStation key) ↔ (keyRank key).val = b.rank ∧ (keySlot key).val = b.slotBit := by
  constructor
  · intro h
    obtain ⟨hrank, _, hslot⟩ := b.key_parts (keyStation key)
    rw [← h] at hrank hslot
    exact ⟨hrank, hslot⟩
  · rintro ⟨hrank, hslot⟩
    rw [b.key_eq, ← hrank, ← hslot, contentionKey_of_parts]

/-- Contents are read exactly from the header byte and the bytes that the station of the key writes for them, and only
where that station can send them. -/
theorem parseBody_eq_some {key : BitVec 6} {bytes : List Byte} {b : FrameBody} :
    parseBody key bytes = some b ↔
      bytes = headerByte key :: b.bytes ∧ key = b.key (keyStation key) ∧ b.wf (keyStation key) := by
  rw [FrameBody.eq_key_iff]
  constructor
  · intro h
    have hheader : ∃ rest, bytes = headerByte key :: rest := by
      unfold parseBody at h
      split at h
      · cases h
      · split at h
        · rename_i rest hh
          exact ⟨rest, by rw [hh]⟩
        · cases h
    obtain ⟨rest, rfl⟩ := hheader
    obtain ⟨hrank, hslot, rfl, hwf⟩ := parseBody_header_eq_some.mp h
    exact ⟨rfl, ⟨hrank, hslot⟩, hwf⟩
  · rintro ⟨rfl, ⟨hrank, hslot⟩, hwf⟩
    exact parseBody_header_eq_some.mpr ⟨hrank, hslot, rfl, hwf⟩

/-- A frame is what a station sends for these contents exactly where its key is theirs and its payload is the header
byte and their bytes with the check. -/
theorem FrameBody.eq_asRead_iff {x : LineFrame} {b : FrameBody} :
    x = b.asRead (keyStation x.key) x.sense ↔
      x.key = b.key (keyStation x.key) ∧ x.payload = withCheck (headerByte x.key :: b.bytes) := by
  obtain ⟨sense, key, payload⟩ := x
  simp only [FrameBody.asRead, FrameBody.payload, LineFrame.mk.injEq, true_and]
  constructor
  · rintro ⟨hkey, hpayload⟩
    rw [← hkey] at hpayload
    exact ⟨hkey, hpayload⟩
  · rintro ⟨hkey, hpayload⟩
    rw [← hkey]
    exact ⟨rfl, hpayload⟩

/-- Settles O45: the check, the header and each field of R9 are inverted by the writing of R11. -/
theorem acceptedFramesAreTheSentOnes : Obligations.AcceptedFramesAreTheSentOnes := by
  unfold Obligations.AcceptedFramesAreTheSentOnes
  intro latch x b
  rw [FrameBody.eq_asRead_iff]
  constructor
  · intro h
    simp only [acceptFrame, Option.ite_none_right_eq_some, Option.bind_eq_some_iff] at h
    obtain ⟨hlatch, bytes, hcheck, hbody⟩ := h
    obtain ⟨rfl, hkey, hwf⟩ := parseBody_eq_some.mp hbody
    exact ⟨hlatch, hwf, hkey, withCheck_of_checkedBytes hcheck⟩
  · rintro ⟨hlatch, hwf, hkey, hpayload⟩
    have hbody := parseBody_eq_some.mpr ⟨rfl, hkey, hwf⟩
    simp [acceptFrame, hlatch, hpayload, checkedBytes_withCheck, hbody]

end Sys2Proof.Machine
end

section
/-! PROOF. The invariants hold after pin reset (R21, R22). -/

namespace Sys2Proof.Machine

open Sys2Proof

/-- Settles O9: every table of the reset state is filled with its reset value, and every list is empty. -/
theorem resetMeetsTheInvariants : Obligations.ResetMeetsTheInvariants := by
  unfold Obligations.ResetMeetsTheInvariants
  have hbridge (i : BridgeNo) : State.reset.ost.bridges.get i = Bridge.reset := Tbl.get_fill _ i
  have hbuffer (i : BufferNo) : State.reset.iku.buffers.get i = Buffer.free := Tbl.get_fill _ i
  have hfeed (o : OutputNo) (sl : SlotNo) : (State.reset.mxe.feeds.get o).get sl = Feed.inactive := by
    simp [State.reset, Mxe.reset]
  have hpeer (p : StationNo) : State.reset.cle.peers.get p = none := Tbl.get_fill _ p
  have hnopending : noticePending State.reset.cpt.notices = false := by decide
  refine ⟨hnopending.symm, fun i => ?bridges, fun i => ?fills, fun o sl => ?feeds, fun z => ?levels, ?split,
    Nat.zero_le _, fun _ => ⟨rfl, hpeer⟩, ?claims, List.Pairwise.nil, Nat.zero_le _, fun i => ?duties, fun i => ?derates,
    ?assigned, List.Pairwise.nil⟩
  case bridges => rw [hbridge]; exact ⟨nofun, fun h => absurd rfl h⟩
  case fills => rw [hbuffer]; exact Nat.zero_le _
  case feeds => rw [hfeed]; exact ⟨Nat.le_refl _, Nat.le_refl _⟩
  case levels => simp [State.reset, Mxe.reset, Config.mute]
  case split => exact ⟨fun h => absurd rfl h, fun _ => rfl⟩
  case claims => exact ⟨List.nodup_nil, fun _ => Nat.zero_le _, nofun, fun _ => rfl⟩
  case duties =>
    have hdead : State.reset.cpt.store.deadtime.get i = 0 := Tbl.get_fill _ i
    rw [hbridge, hdead]
    exact ⟨by decide, by decide, by decide, nofun⟩
  case derates => rw [hbridge]; exact Nat.zero_le _
  case assigned =>
    refine ⟨fun i _ => by rw [hbuffer]; rfl, fun i j n h => ?_⟩
    rw [hbuffer] at h
    cases h

end Sys2Proof.Machine
end

section
/-! PROOF. RESTART joins again, block by block (R21, R37, R71, R78, R89, R115, R117, R140, R149, R174, R192, R220). -/

namespace Sys2Proof.Machine

open Sys2Proof

/-! ### The Intake (R78, R89) -/

/-- A buffer that START or RESTART allocates: STARVED for its static stream, FREE where there is none (R78). -/
theorem allocateStatic_get (streams : List StreamNo) (i : BufferNo) :
    let b := (allocateStatic streams).get i
    b.ring = [] ∧ b.force = false ∧ b.returning = false ∧ b.stream = streams[i.val]? ∧
      b.state = if b.stream = none then .free else .starved := by
  simp only [allocateStatic, Tbl.get_ofFn]
  cases streams[i.val]? <;> exact ⟨rfl, rfl, rfl, rfl, rfl⟩

/-! ### The Radio Unit (R149, R174) -/

/-- The Radio Unit at RESTART before its control chooses a mode (R174). -/
def Rdu.beforeMode (r : Rdu) (c : Store) : Rdu :=
  let fresh := { Rdu.reset with
    pathB := r.pathB.restarted, scanEnable := c.scanDefault, announceEnable := c.announceDefault, holdOff := 0 }
  match r.activeRec.tuned with
  | some ch => fresh.retune .a ch
  | none => fresh

theorem Rdu.restart_eq_control (r : Rdu) (c : Store) : r.restart c = (r.beforeMode c).control c false := rfl

/-- The mode that RESTART chooses: DIVERSITY where two front ends take part in it, else IDLE (R149). -/
def Store.restartMode (c : Store) : PathBMode := if c.frontEnds = .ab ∧ c.diversity = true then .diversity else .idle

/-- With no probe and no good reception the control chooses between IDLE and DIVERSITY alone (R149). -/
theorem Rdu.beforeMode_chosenMode (r : Rdu) (c : Store) : (r.beforeMode c).chosenMode c = c.restartMode := by
  have hprobe : (r.beforeMode c).probe = none := by unfold Rdu.beforeMode; cases r.activeRec.tuned <;> rfl
  have hgood : (r.beforeMode c).good.above = false := by unfold Rdu.beforeMode; cases r.activeRec.tuned <;> rfl
  unfold Rdu.chosenMode Store.restartMode
  rw [hprobe, hgood]
  by_cases hf : c.frontEnds = .ab <;> simp [hf]

/-- What RESTART gives the Radio Unit (R149, R174). -/
structure Rdu.Restarted (r : Rdu) (c : Store) (t : Rdu) : Prop where
  mode : t.mode = c.restartMode
  tuned : t.pathA.tuned = r.activeRec.tuned
  retuned : t.pathA.tuned ≠ none → t.pathA.settle = 2 ∧ t.pathA.qs16 = none
  idle : t.mode = .idle → t.pathB.tuned = r.pathB.tuned
  diversity : t.mode = .diversity → t.pathA.tuned ≠ none → t.pathB.tuned = t.pathA.tuned ∧ t.pathB.settle = 2
  cleared : ∀ p, (t.path p).prepared = none ∧ (t.path p).data = ProgData.cleared
  rest : t = { Rdu.reset with
    pathA := t.pathA, pathB := t.pathB, mode := t.mode, holdOff := 0
    scanEnable := c.scanDefault, announceEnable := c.announceDefault }

/-- RESTART keeps the active path's channel, on A, and moves B to it in DIVERSITY alone. -/
theorem Rdu.restart_restarted (r : Rdu) (c : Store) : r.Restarted c (r.restart c) := by
  have hmode : c.restartMode = .idle ∨ c.restartMode = .diversity := by unfold Store.restartMode; split <;> simp
  rw [Rdu.restart_eq_control, Rdu.control, Rdu.beforeMode_chosenMode, Rdu.beforeMode]
  cases htuned : r.activeRec.tuned with
  | none =>
    rcases hmode with hc | hc <;> rw [hc]
    · exact ⟨hc.symm, htuned.symm, fun h => absurd rfl h, fun _ => rfl, nofun, fun p => by cases p <;> exact ⟨rfl, rfl⟩, rfl⟩
    · exact ⟨hc.symm, htuned.symm, fun h => absurd rfl h, nofun, fun _ h => absurd rfl h,
        fun p => by cases p <;> exact ⟨rfl, rfl⟩, rfl⟩
  | some ch =>
    rcases hmode with hc | hc <;> rw [hc]
    · exact ⟨hc.symm, htuned.symm, fun _ => ⟨rfl, rfl⟩, fun _ => rfl, nofun, fun p => by cases p <;> exact ⟨rfl, rfl⟩, rfl⟩
    · exact ⟨hc.symm, htuned.symm, fun _ => ⟨rfl, rfl⟩, nofun, fun _ _ => ⟨rfl, rfl⟩,
        fun p => by cases p <;> exact ⟨rfl, rfl⟩, rfl⟩

/-! ### The whole station (R21, R37, R220) -/

/-- RESTART outside CONFIG. -/
theorem exec_restart_of_not_inConfig {s : State} (h : s.inConfig = false) :
    exec .restart s = .next (s.restarted.answer .accepted []) := by
  simp [execRestart, h]

/-- Settles O12: what RESTART leaves in each block, the Intake's buffers by `allocateStatic_get` and the Radio Unit by
`Rdu.restart_restarted`. -/
theorem restartJoinsAgain : Obligations.RestartJoinsAgain := by
  unfold Obligations.RestartJoinsAgain
  refine fun s => ⟨fun h => by simp [execRestart, h], fun h => ⟨_, exec_restart_of_not_inConfig h, ?_⟩⟩
  obtain ⟨hmode, htuned, hretuned, hidle, hdiversity, hcleared, hrest⟩ := s.rdu.restart_restarted s.cpt.store
  have hrdu : (s.restarted.answer .accepted []).rdu = s.rdu.restart s.cpt.store := rfl
  generalize s.rdu.restart s.cpt.store = r at *
  have hsound (i : PubSlotNo) : (s.restarted.answer .accepted []).lif.sound.get i = TxSlot.empty := Tbl.get_fill _ i
  have hfeed (o : OutputNo) (sl : SlotNo) :
      ((s.restarted.answer .accepted []).mxe.feeds.get o).get sl = Feed.inactive := by
    simp [State.restarted, Mxe.restart, Mxe.started]
  have hheard (n : StreamNo) : (s.restarted.answer .accepted []).iku.heard.get n = HeardEntry.never := Tbl.get_fill _ n
  rw [hrdu]
  -- the Claim Engine and the Line Interface
  refine ⟨rfl, rfl, rfl, Tbl.get_fill _, rfl, rfl, rfl, rfl, fun i => by rw [hsound]; exact ⟨rfl, rfl⟩, rfl, rfl, rfl, rfl,
    rfl, rfl, rfl, rfl, rfl, rfl, hmode, ?_⟩
  -- the Publisher, the marks and the Intake
  refine ⟨Tbl.get_fill _, rfl, rfl, rfl, rfl, fun n => ⟨Tbl.get_fill _ n, by rw [hheard]; rfl⟩, rfl, rfl,
    allocateStatic_get _, ?_⟩
  -- the Mix Engine and the Output Stage
  refine ⟨rfl, rfl, rfl, rfl, fun o sl => by rw [hfeed]; exact ⟨rfl, rfl⟩, Tbl.get_map _ _, rfl, ?_⟩
  -- the Pickup Unit, the Radio Unit and the Control Port
  refine ⟨rfl, by rw [hrest]; rfl, htuned, hretuned, hidle, hdiversity, hcleared, ?_⟩
  rw [hrest]
  exact ⟨rfl, rfl, rfl, rfl, rfl, rfl, rfl, rfl, rfl, rfl, rfl, rfl, rfl, rfl, Tbl.get_fill _, rfl, rfl⟩

end Sys2Proof.Machine
end

section
/-! SUPPORT. A block boundary outside CONFIG in its parts: what the station is once the Publisher has built its frames, what
it is before the joining or presence counter steps, and what these parts keep. -/

namespace Sys2Proof.Machine

open Sys2Proof

/-- The station at a block boundary once the Intake has given its blocks and the Publisher has built its frames. -/
def State.boundaryBuilt (s : State) : State :=
  let s1 := s.boundaryOutput.boundaryLevels.boundaryIdle.boundaryRadioBlock
  let sounds := s1.sounds s.pku.uplink
  let s2 := ((s1.boundaryDecide s.mixView).boundaryPickup s.mixView).boundaryIntake
  ((s2.boundaryMix s.mixView (s.mxe.activated s.mixView) sounds).boundaryUplink s.mixView sounds).boundaryPublish
    (s.cle.lifecycle == .active)

/-- The station at a block boundary before the joining or presence counter steps. -/
def State.boundaryWorked (s : State) : State := s.boundaryBuilt.boundaryRadio.boundaryClaims.boundaryPeers

/-- A boundary outside CONFIG is its work, and then the counters where the lifecycle state is still the same (log 4). -/
theorem State.boundaryRun_eq (s : State) : s.boundaryRun =
    (if s.boundaryWorked.cle.lifecycle = s.cle.lifecycle then s.boundaryWorked.boundaryCadence
      else s.boundaryWorked).clearInputs.arbitrate := by
  unfold State.boundaryRun State.boundaryWorked State.boundaryBuilt
  dsimp only

theorem exec_blockBoundary_of_not_inConfig {s : State} (h : s.inConfig = false) :
    exec .blockBoundary s = .next s.boundaryRun := by
  simp [execBlockBoundary, h]

theorem State.boundaryBuilt_keeps (s : State) : s.Keeps s.boundaryBuilt :=
  (boundaryOutput_keeps s).trans <| (boundaryLevels_keeps _).trans <| (boundaryIdle_keeps _).trans <|
  (boundaryRadioBlock_keeps _).trans <| (boundaryDecide_keeps _ _).trans <| (boundaryPickup_keeps _ _).trans <|
  (boundaryIntake_keeps _).trans <| (boundaryMix_keeps _ _ _ _).trans <| (boundaryUplink_keeps _ _ _).trans
  (boundaryPublish_keeps _ _)

/-- The work after the Publisher and before the peers' ages. -/
theorem State.boundaryBuilt_keeps_claims (s : State) : s.Keeps s.boundaryBuilt.boundaryRadio.boundaryClaims :=
  s.boundaryBuilt_keeps.trans <| (boundaryRadio_keeps _).trans (boundaryClaims_keeps _)

theorem State.boundaryWorked_keeps (s : State) : s.Keeps s.boundaryWorked :=
  s.boundaryBuilt_keeps_claims.trans (boundaryPeers_keeps _)

/-- What keeps the configuration keeps the station number. -/
theorem State.Keeps.own {s t : State} (h : s.Keeps t) : t.own = s.own := by
  unfold State.own
  rw [h.cpt.store]

/-- Up to the Publisher's work a boundary leaves the claim list and the peer table as the no-idle check left them. -/
theorem State.boundaryBuilt_cle (s : State) :
    s.boundaryBuilt.cle.claims = s.boundaryOutput.boundaryLevels.boundaryIdle.cle.claims ∧
      s.boundaryBuilt.cle.peers = s.boundaryOutput.boundaryLevels.boundaryIdle.cle.peers := by
  obtain ⟨hclaims, hpeers, _⟩ := s.boundaryServed_cle
  exact ⟨hclaims, hpeers⟩

/-- The peers that a boundary expires are told by the state as it began: no earlier part touches another station's
entry. -/
theorem State.boundaryBuilt_peerExpires (s : State) :
    s.boundaryBuilt.boundaryRadio.boundaryClaims.peerExpires = s.peerExpires := by
  obtain ⟨_, hpeers⟩ := s.boundaryBuilt_cle
  have hown := s.boundaryBuilt_keeps.own
  have h1 := Link.checkNoIdle_others s.boundaryOutput.boundaryLevels.link s.boundaryOutput.boundaryLevels.env
  rw [← State.boundaryIdle_cle, show s.boundaryOutput.boundaryLevels.env.own = s.own from
    ((boundaryOutput_keeps s).trans (boundaryLevels_keeps _)).own] at h1
  generalize s.boundaryBuilt = x at hpeers hown ⊢
  have h2 := x.boundaryRadio_others
  have h3 := Link.tickWindow_others x.boundaryRadio.link x.boundaryRadio.env
  rw [show x.boundaryRadio.env.own = x.own from (boundaryRadio_keeps x).own] at h3
  have hlast : x.boundaryRadio.boundaryClaims.own = x.own := ((boundaryRadio_keeps x).trans (boundaryClaims_keeps _)).own
  funext p
  unfold State.peerExpires
  rw [hlast, hown]
  by_cases hp : p = s.own
  · simp [hp]
  · have hq : p ≠ x.own := hown ▸ hp
    have hsame : x.boundaryRadio.boundaryClaims.cle.peers.get p = s.cle.peers.get p :=
      (h3 p hq).trans ((h2 p hq).trans (hpeers ▸ h1 p hp))
    rw [hsame]

end Sys2Proof.Machine
end

section
/-! PROOF. The presence or probe that a counter makes due, alone and at a block boundary (R24, R27, R29, R30, R31), and the
zones that a presence carries as impaired (R138). -/

namespace Sys2Proof.Machine

open Sys2Proof

/-! ### The counters at their end -/

/-- The station once a presence in this state was composed and handed, with this Claim Engine (R29 to R31). -/
def State.withPresence (s : State) (c : Cle) (state : PeerState) : State :=
  { s with cle := s.withOwnEntry c (s.presenceNow state), lif := s.lif.handPresence (s.presenceNow state) }

/-- What a presence composed in this lifecycle state says of the station. -/
def Lifecycle.presenceState (lc : Lifecycle) : PeerState := if lc = .isolated then .isolated else .active

/-- Handing a presence, where the claim list and the peer table are the station's. -/
theorem State.setLink_handPresence (s : State) (c : Cle) (hc : c.claims = s.cle.claims) (hp : c.peers = s.cle.peers) :
    s.setLink (({ s.link with cle := c } : Link).handPresence s.env) = s.withPresence c c.lifecycle.presenceState := by
  have hcompose : ({ s.link with cle := c } : Link).compose s.env = s.presenceNow c.lifecycle.presenceState := by
    unfold Link.compose State.presenceNow
    rw [← hc]
    rfl
  unfold Link.handPresence
  rw [hcompose]
  unfold State.withPresence State.withOwnEntry
  rw [← hp]
  rfl

/-- JOINING ends at the count of 60 (R24). -/
theorem State.tickCadence_joining {s : State} (hl : s.cle.lifecycle = .joining) (hj : s.cle.joining = 59) :
    s.setLink (s.link.tickCadence s.env) =
      s.withPresence { s.cle with lifecycle := .active, joining := 60, presenceCount := 0 } .active := by
  have htick : s.link.tickCadence s.env = ({ s.link with
      cle := { s.cle with lifecycle := .active, joining := 60, presenceCount := 0 } } : Link).handPresence s.env := by
    unfold Link.tickCadence
    rw [show s.link.cle = s.cle from rfl, hl, hj]
    rfl
  rw [htick]
  exact s.setLink_handPresence _ rfl rfl

/-- A presence or a probe is due at the count of 50 (R27, R30). -/
theorem State.tickCadence_counting {s : State} (hl : s.cle.lifecycle = .active ∨ s.cle.lifecycle = .isolated)
    (hc : s.cle.presenceCount = 49) : s.setLink (s.link.tickCadence s.env) =
      s.withPresence { s.cle with presenceCount := 0 } s.cle.lifecycle.presenceState := by
  have htick : s.link.tickCadence s.env =
      ({ s.link with cle := { s.cle with presenceCount := 0 } } : Link).handPresence s.env := by
    unfold Link.tickCadence
    rw [show s.link.cle = s.cle from rfl, hc]
    rcases hl with hl | hl <;> rw [hl] <;> rfl
  rw [htick]
  exact s.setLink_handPresence _ rfl rfl

/-! ### At a block boundary: the work before leaves the counters -/

/-- Work that leaves the lifecycle state with its counters, the frame in flight, and a presence in flight in its slot. -/
structure Link.KeepsDue (k m : Link) : Prop where
  life : m.cle.lifecycle = k.cle.lifecycle
  joining : m.cle.joining = k.cle.joining
  count : m.cle.presenceCount = k.cle.presenceCount
  flight : m.lif.flight = k.lif.flight
  frame : k.lif.flying .presence = true → m.lif.presence.frame = k.lif.presence.frame

namespace Link.KeepsDue

theorem refl (k : Link) : k.KeepsDue k := ⟨rfl, rfl, rfl, rfl, fun _ => rfl⟩

theorem flying {k m : Link} (h : k.KeepsDue m) (st : TxStore) : m.lif.flying st = k.lif.flying st := by
  unfold Lif.flying
  rw [h.flight]

theorem trans {k m n : Link} (h : k.KeepsDue m) (j : m.KeepsDue n) : k.KeepsDue n where
  life := j.life.trans h.life
  joining := j.joining.trans h.joining
  count := j.count.trans h.count
  flight := j.flight.trans h.flight
  frame hf := (j.frame ((h.flying .presence).trans hf)).trans (h.frame hf)

/-- Work on the claims and the notices. -/
theorem setClaims (k : Link) (l : List Claim) : k.KeepsDue (k.setClaims l) := ⟨rfl, rfl, rfl, rfl, fun _ => rfl⟩
theorem raise (k : Link) (n : Notice) : k.KeepsDue (k.raise n) := ⟨rfl, rfl, rfl, rfl, fun _ => rfl⟩
theorem setCounter (k : Link) (n : Serial) : k.KeepsDue (k.setCounter n) := ⟨rfl, rfl, rfl, rfl, fun _ => rfl⟩

theorem queue (k : Link) (f : ClaimFrame) (re : Bool) : k.KeepsDue (k.queue f re) where
  life := rfl
  joining := rfl
  count := rfl
  flight := (Lif.addClaim_flight _ _ _).1
  frame _ := by
    show (k.lif.addClaim f re).presence.frame = _
    rw [Lif.addClaim_frame]

/-- A presence handed while one is in flight is held beside it (R15). -/
theorem recompose (k : Link) (env : Env) : k.KeepsDue (k.recompose env) := by
  unfold Link.recompose
  split
  · refine ⟨rfl, rfl, rfl, rfl, fun hf => ?_⟩
    show (k.lif.presence.hand (k.lif.flying .presence) _).frame = _
    rw [hf]
    rfl
  · exact refl k

theorem placeAnnounce (k : Link) (env : Env) (z : ZoneSet) (r : Option StreamNo) :
    k.KeepsDue (k.placeAnnounce env z r).2 := by
  unfold Link.placeAnnounce
  split
  · exact (setCounter _ _).trans ((setClaims _ _).trans ((queue _ _ _).trans (recompose _ _)))
  · exact refl k

theorem endAnnounce (k : Link) (env : Env) (n : Serial) : k.KeepsDue (k.endAnnounce env n) := by
  unfold Link.endAnnounce
  split
  · exact refl k
  · exact (setClaims _ _).trans ((queue _ _ _).trans (recompose _ _))

theorem tickWindow (k : Link) (env : Env) : k.KeepsDue (k.tickWindow env) := by
  unfold Link.tickWindow
  split
  · exact refl k
  · split
    · split
      · exact setClaims _ _
      · unfold Link.expireWindow
        split
        · exact (setClaims _ _).trans ((queue _ _ _).trans ((raise _ _).trans (recompose _ _)))
        · exact (setClaims _ _).trans (raise _ _)
    · exact refl k

end Link.KeepsDue

/-- The same of the whole station. -/
abbrev State.KeepsDue (s t : State) : Prop := s.link.KeepsDue t.link

namespace State.KeepsDue

theorem trans {s t u : State} (h : s.KeepsDue t) (k : t.KeepsDue u) : s.KeepsDue u := Link.KeepsDue.trans h k
theorem lifecycle {s t : State} (h : s.KeepsDue t) : t.cle.lifecycle = s.cle.lifecycle := h.life
theorem counts {s t : State} (h : s.KeepsDue t) :
    t.cle.joining = s.cle.joining ∧ t.cle.presenceCount = s.cle.presenceCount := ⟨h.joining, h.count⟩

/-- Work on neither the LIF nor the CLE. -/
theorem of_eq {s t : State} (hl : t.lif = s.lif) (hc : t.cle = s.cle) : s.KeepsDue t := by
  unfold State.KeepsDue State.link
  rw [hl, hc]
  exact ⟨rfl, rfl, rfl, rfl, fun _ => rfl⟩

theorem foldl {α : Type} {f : State → α → State} (h : ∀ (s : State) (a : α), s.KeepsDue (f s a))
    (l : List α) (s : State) : s.KeepsDue (l.foldl f s) := by
  induction l generalizing s with
  | nil => exact .refl _
  | cons a l ih => exact (h s a).trans (ih (f s a))

/-- A sound frame handed (R16). -/
theorem handSound {s t : State} (lc : Lifecycle) (i : PubSlotNo) (f : Option SoundFrame)
    (hl : t.lif = s.lif.handSound lc i f) (hlife : t.cle.lifecycle = s.cle.lifecycle)
    (hj : t.cle.joining = s.cle.joining) (hc : t.cle.presenceCount = s.cle.presenceCount) : s.KeepsDue t := by
  obtain ⟨hflight, hpresence⟩ := s.lif.handSound_flight lc i f
  exact ⟨hlife, hj, hc, (congrArg Lif.flight hl).trans hflight,
    fun _ => congrArg TxSlot.frame ((congrArg Lif.presence hl).trans hpresence)⟩

theorem boundaryPickup (v : MixView) (s : State) : s.KeepsDue (s.boundaryPickup v) := by
  unfold State.boundaryPickup State.pickupSlot
  dsimp only
  split
  · exact of_eq rfl rfl
  · exact of_eq rfl rfl
  · exact handSound _ _ _ rfl rfl rfl rfl

theorem publishSlot (hand : Bool) (s : State) (i : PubSlotNo) : s.KeepsDue (State.publishSlot hand s i) := by
  unfold State.publishSlot
  split
  · exact .refl _
  · cases hand
    · exact ⟨rfl, rfl, rfl, rfl, fun _ => rfl⟩
    · exact handSound _ _ _ rfl rfl rfl rfl

theorem boundaryPublish (hand : Bool) (s : State) : s.KeepsDue (s.boundaryPublish hand) :=
  (foldl (publishSlot hand) _ s).trans (of_eq rfl rfl)

theorem rduEffect (s : State) (e : RduEffect) : s.KeepsDue (s.rduEffect e) := by
  cases e with
  | notice n => exact of_eq rfl rfl
  | announceStart =>
    simp only [State.rduEffect, State.announceStart]
    have h (env : Env) (z : ZoneSet) (r : Option StreamNo) := Link.KeepsDue.placeAnnounce s.link env z r
    split <;> exact (h _ _ _).trans (.raise _ _)
  | announceEnd c a =>
    simp only [State.rduEffect, State.announceEnd]
    have h (env : Env) (n : Serial) := Link.KeepsDue.endAnnounce s.link env n
    split
    · exact (h _ _).trans (.raise _ _)
    · exact of_eq rfl rfl

theorem boundaryRadio (s : State) : s.KeepsDue s.boundaryRadio :=
  Link.KeepsDue.trans (m := State.link { s with rdu := (s.rdu.boundary s.cpt.store).1 }) (of_eq rfl rfl)
    (foldl rduEffect _ _)

theorem boundaryClaims (s : State) : s.KeepsDue s.boundaryClaims :=
  (Link.KeepsDue.tickWindow s.link s.env).trans (.setClaims _ _)

theorem expirePeer (s : State) (p : StationNo) : s.KeepsDue (s.expirePeer p) := ⟨rfl, rfl, rfl, rfl, fun _ => rfl⟩

theorem boundaryPeers (s : State) : s.KeepsDue s.boundaryPeers :=
  Link.KeepsDue.trans (m := State.link { s with cle := { s.cle with peers := agePeers s.own s.cle.peers } })
    ⟨rfl, rfl, rfl, rfl, fun _ => rfl⟩ (foldl expirePeer _ _)

/-- A no-idle check that does not isolate counts alone (R19). -/
theorem boundaryIdle {s : State} (h : s.isolatesAtBoundary = false) : s.KeepsDue s.boundaryIdle := by
  unfold State.boundaryIdle Link.checkNoIdle
  split
  · rename_i ha
    have ha : s.cle.lifecycle = .active := ha
    have hn : s.link.lif.noIdleAfter < Config.noIdleEnd := by
      show (if s.lif.anyPending = true ∧ s.lif.idleSeen = false then s.lif.noIdle + 1 else 0) < 2
      by_cases hp : s.lif.anyPending = true ∧ s.lif.idleSeen = false
      · have : s.lif.noIdle = 0 := by simpa [State.isolatesAtBoundary, ha, hp.1, hp.2] using h
        rw [if_pos hp]
        omega
      · rw [if_neg hp]
        decide
    rw [if_pos hn]
    exact ⟨rfl, rfl, rfl, rfl, fun _ => rfl⟩
  · exact .refl _

end State.KeepsDue

/-- A boundary that does not isolate leaves the counters to their own step. -/
theorem State.boundaryWorked_keepsDue {s : State} (h : s.isolatesAtBoundary = false) : s.KeepsDue s.boundaryWorked := by
  have hlevels : s.KeepsDue s.boundaryOutput.boundaryLevels := .of_eq rfl rfl
  have hidle : s.KeepsDue s.boundaryOutput.boundaryLevels.boundaryIdle := hlevels.trans (.boundaryIdle h)
  have hdecided (x : State) (v : MixView) : x.KeepsDue (x.boundaryRadioBlock.boundaryDecide v) := .of_eq rfl rfl
  have hmixed (x : State) (v : MixView) (a : FeedTbl Bool) (y : Sounds) :
      x.KeepsDue (((x.boundaryIntake).boundaryMix v a y).boundaryUplink v y) := .of_eq rfl rfl
  have hbuilt : s.KeepsDue s.boundaryBuilt := by
    unfold State.boundaryBuilt
    exact hidle.trans ((hdecided _ _).trans ((KeepsDue.boundaryPickup _ _).trans
      ((hmixed _ _ _ _).trans (KeepsDue.boundaryPublish _ _))))
  exact hbuilt.trans ((KeepsDue.boundaryRadio _).trans ((KeepsDue.boundaryClaims _).trans (KeepsDue.boundaryPeers _)))

/-- The presence composed at a boundary where a counter comes to its end: it is handed as the work before left the slot. -/
theorem State.boundaryRun_due {s x : State} {lc : Lifecycle} {c : Cle} (hx : s.boundaryWorked = x)
    (htick : x.setLink (x.link.tickCadence x.env) = x.withPresence c lc.presenceState)
    (hi : s.isolatesAtBoundary = false) (hc : s.inConfig = false) (hlife : c.lifecycle = lc) (hne : lc ≠ .config)
    (hcount : c.presenceCount = 0) (hclaims : c.claims = x.cle.claims) :
    let f := s.boundaryRun.presenceNow lc.presenceState
    s.boundaryRun.cle.lifecycle = lc ∧ s.boundaryRun.cle.presenceCount = 0 ∧
      s.boundaryRun.cle.peers.get s.own = some (PeerEntry.ofPresence f) ∧
      s.boundaryRun.lif.presence =
        if s.lif.flying .presence then { s.lif.presence with beside := some (some f) } else ⟨some f, none⟩ := by
  have hdue := State.boundaryWorked_keepsDue hi
  have hkeeps := s.boundaryWorked_keeps
  rw [hx] at hdue hkeeps
  have hrun : s.boundaryRun = (x.withPresence c lc.presenceState).clearInputs.arbitrate := by
    rw [State.boundaryRun_eq, hx, if_pos hdue.lifecycle, State.boundaryCadence, htick]
  rw [hrun]
  have hxc : x.inConfig = false := hkeeps.inConfig.trans hc
  have hnow : (x.withPresence c lc.presenceState).clearInputs.arbitrate.presenceNow lc.presenceState =
      x.presenceNow lc.presenceState := by
    have hyc : (x.withPresence c lc.presenceState).clearInputs.arbitrate.inConfig = x.inConfig := by
      rw [hxc]
      exact beq_eq_false_iff_ne.mpr (hlife ▸ hne)
    have himpaired : (x.withPresence c lc.presenceState).clearInputs.arbitrate.impaired = x.impaired := by
      rw [State.impaired, hyc]
      rfl
    have hheld : (x.withPresence c lc.presenceState).clearInputs.arbitrate.cle.claims = x.cle.claims := hclaims
    unfold State.presenceNow
    rw [himpaired, hheld]
    rfl
  rw [hnow]
  refine ⟨hlife, hcount, ?_, ?_⟩
  · rw [← hkeeps.own]
    exact Tbl.get_set_self _ _ _
  · show (Lif.arbitrate _ _).presence = _
    rw [Lif.arbitrate_frame]
    show x.lif.presence.hand (x.lif.flying .presence) _ = _
    have hflying : x.lif.flying .presence = s.lif.flying .presence := hdue.flying .presence
    rw [hflying]
    cases hf : s.lif.flying .presence with
    | false => rfl
    | true => exact congrArg (TxSlot.mk · (some (some _))) (hdue.frame hf)

/-! ### The impaired zones (R138) -/

theorem zoneIn_bit (w z : Zone) : zoneIn w.bit z = decide (w = z) := by
  cases w <;> cases z <;> rfl

/-- A fold that sets the bits of the zones that pass adds these zones to a set. -/
theorem zoneIn_foldl_bit (p : Zone → Bool) (l : List Zone) (zs : ZoneSet) (z : Zone) :
    zoneIn (l.foldl (fun acc w => if p w then acc ||| w.bit else acc) zs) z = (zoneIn zs z || (p z && l.contains z)) := by
  induction l generalizing zs with
  | nil => simp
  | cons w l ih =>
    have hor : zoneIn (zs ||| w.bit) z = (zoneIn zs z || decide (w = z)) := by
      rw [← zoneIn_bit]
      exact BitVec.getLsbD_or
    rw [List.foldl_cons, ih]
    by_cases hw : w = z
    · subst hw
      cases p w <;> simp [hor]
    · cases p w <;> simp [hor, hw, Ne.symm hw]

/-- A zone is impaired outside CONFIG where bridges serve it and none of them is in RUN (R138). -/
theorem State.zoneIn_impaired (s : State) (z : Zone) :
    zoneIn s.impaired z = true ↔ s.inConfig = false ∧ (∃ b, zoneIn (s.cpt.store.bridgeZones b) z = true) ∧
      ∀ b, zoneIn (s.cpt.store.bridgeZones b) z = true → (s.ost.bridges.get b).state ≠ .run := by
  have hall : allZones.contains z = true := by cases z <;> rfl
  have hzero : zoneIn 0 z = false := by cases z <;> rfl
  unfold State.impaired Ost.impaired
  cases hc : s.inConfig with
  | true => exact ⟨fun h => absurd (hzero.symm.trans h) (by decide), fun h => absurd h.1 (by decide)⟩
  | false =>
    rw [if_neg (by decide), zoneIn_foldl_bit, hall, hzero]
    simp [Ost.zoneImpaired, Bridge.enabled, List.filter_eq_nil_iff]

/-- Settles O13: the counters at their end by `State.tickCadence_joining` and `State.tickCadence_counting`, alone and
after the other work of a boundary. -/
theorem presenceIsComposedWhenDue : Obligations.PresenceIsComposedWhenDue := by
  unfold Obligations.PresenceIsComposedWhenDue
  refine ⟨fun s => ⟨fun hl hj => ?joined, fun hl hc => ?due, fun hl hc => ?probe⟩, fun s hdue => ?boundary,
    fun s z => s.zoneIn_impaired z⟩
  case joined =>
    have hrow : exec .joiningComplete s = .next (s.setLink (s.link.tickCadence s.env)).arbitrate :=
      if_pos ⟨hl, by rw [hj]; rfl⟩
    rw [hrow, State.tickCadence_joining hl hj]
    rfl
  case due =>
    have hrow : exec .presenceDue s = .next (s.setLink (s.link.tickCadence s.env)).arbitrate :=
      if_pos ⟨hl, by rw [hc]; rfl⟩
    rw [hrow, State.tickCadence_counting (.inl hl) hc, hl]
    rfl
  case probe =>
    have hrow : exec .probeDue s = .next (s.setLink (s.link.tickCadence s.env)).arbitrate :=
      if_pos ⟨hl, by rw [hc]; rfl⟩
    rw [hrow, State.tickCadence_counting (.inr hl) hc, hl]
    rfl
  case boundary =>
    have hi : s.isolatesAtBoundary = false := by
      rcases hdue with ⟨hl, _⟩ | ⟨_, _, hi⟩ | ⟨hl, _⟩
      · simp [State.isolatesAtBoundary, hl]
      · simpa using hi
      · simp [State.isolatesAtBoundary, hl]
    have hc : s.inConfig = false := by
      rcases hdue with ⟨hl, _⟩ | ⟨hl, _⟩ | ⟨hl, _⟩ <;> rw [State.inConfig, hl] <;> rfl
    refine ⟨_, exec_blockBoundary_of_not_inConfig hc, ?_⟩
    have hworked := State.boundaryWorked_keepsDue hi
    generalize hx : s.boundaryWorked = x at hworked
    have hlife := hworked.lifecycle
    obtain ⟨hjoining, hcount⟩ := hworked.counts
    rcases hdue with ⟨hl, hj⟩ | ⟨hl, hn, _⟩ | ⟨hl, hn⟩ <;> rw [hl] at hlife ⊢
    · exact State.boundaryRun_due (lc := .active) hx (State.tickCadence_joining hlife (hjoining.trans hj)) hi hc rfl
        nofun rfl rfl
    · have htick := State.tickCadence_counting (.inl hlife) (hcount.trans hn)
      rw [hlife] at htick
      exact State.boundaryRun_due (lc := .active) hx htick hi hc hlife nofun rfl rfl
    · have htick := State.tickCadence_counting (.inr hlife) (hcount.trans hn)
      rw [hlife] at htick
      exact State.boundaryRun_due (lc := .isolated) hx htick hi hc hlife nofun rfl rfl

end Sys2Proof.Machine
end

section
/-! SUPPORT. The Intake at a block boundary, stream by stream and buffer by buffer: streams that starve, buffers that stay
assigned, and the call-loss table (R73 to R77, R79, R80, R83, R88). -/

namespace Sys2Proof.Machine

open Sys2Proof

/-! ### Several streams that starve -/

theorem Iku.starve_bufferOf (k : Iku) (n m : StreamNo) : (k.starve n).bufferOf m = k.bufferOf m :=
  (k.starve_keepsGiven n).bufferOf m

theorem Buffer.starve_starve (b : Buffer) : b.starve.starve = b.starve := by
  unfold Buffer.starve
  cases hs : b.state <;> simp [hs]

/-- The stream-heard table after several streams starved: those that were LIVE. -/
theorem Iku.foldl_starve_heard (l : List StreamNo) (k : Iku) (n : StreamNo) :
    (l.foldl Iku.starve k).heard.get n =
      if n ∈ l ∧ (k.heard.get n).state = .live then { k.heard.get n with state := .starved, age := 8 }
      else k.heard.get n := by
  induction l generalizing k with
  | nil => simp
  | cons m l ih =>
    rw [List.foldl_cons, ih, Iku.starve_heard]
    by_cases hm : n = m
    · subst hm
      by_cases hs : (k.heard.get n).state = .live <;> simp [hs]
    · simp [hm]

/-- The buffers after several streams starved: those of these streams. -/
theorem Iku.foldl_starve_buffers (l : List StreamNo) (k : Iku) (i : BufferNo) :
    (l.foldl Iku.starve k).buffers.get i =
      if ∃ n ∈ l, k.bufferOf n = some i then (k.buffers.get i).starve else k.buffers.get i := by
  induction l generalizing k with
  | nil => simp
  | cons m l ih =>
    rw [List.foldl_cons, ih, Iku.starve_buffers]
    simp only [Iku.starve_bufferOf, List.mem_cons, exists_eq_or_imp]
    by_cases hm : k.bufferOf m = some i
    · by_cases hl : ∃ n ∈ l, k.bufferOf n = some i
      · rw [if_pos hl, if_pos hm, if_pos (.inl hm), Buffer.starve_starve]
      · rw [if_neg hl, if_pos hm, if_pos (.inl hm)]
    · simp only [hm, false_or, if_false]

/-- Where a buffer alone is assigned to a stream, it is the buffer of that stream. -/
theorem Iku.bufferOf_eq_some {k : Iku} {n : StreamNo} {i : BufferNo} (hi : (k.buffers.get i).stream = some n)
    (hone : ∀ j, (k.buffers.get j).stream = some n → j = i) : k.bufferOf n = some i := by
  cases hb : k.bufferOf n with
  | none =>
    have := List.find?_eq_none.mp hb i (List.mem_finRange i)
    simp [hi] at this
  | some j => rw [hone j (Iku.bufferOf_stream hb)]

/-- The buffer of a stream that has it alone starves where this stream is among those that do. -/
theorem Iku.foldl_starve_buffer {k : Iku} {n : StreamNo} {i : BufferNo} (hi : (k.buffers.get i).stream = some n)
    (hone : ∀ j, (k.buffers.get j).stream = some n → j = i) (l : List StreamNo) :
    (l.foldl Iku.starve k).buffers.get i = if n ∈ l then (k.buffers.get i).starve else k.buffers.get i := by
  have hiff : (∃ m ∈ l, k.bufferOf m = some i) ↔ n ∈ l := by
    constructor
    · rintro ⟨m, hm, hb⟩
      have : m = n := Option.some.inj ((Iku.bufferOf_stream hb).symm.trans hi)
      exact this ▸ hm
    · exact fun hn => ⟨n, hn, Iku.bufferOf_eq_some hi hone⟩
  rw [Iku.foldl_starve_buffers]
  simp only [hiff]

/-! ### Ages (R73, R75) -/

/-- The streams that a boundary brings to age 8. -/
def Iku.agedOut (k : Iku) : List StreamNo :=
  (Tbl.indices 16).filter (fun n => (k.heard.get n).state == .live && decide (7 ≤ (k.heard.get n).age))

theorem Iku.mem_agedOut (k : Iku) (n : StreamNo) :
    n ∈ k.agedOut ↔ (k.heard.get n).state = .live ∧ 7 ≤ (k.heard.get n).age := by
  simp [Iku.agedOut]

/-- Ageing makes every LIVE entry one older, and starves those at their end. -/
theorem Iku.age_eq (k : Iku) :
    k.age = { k.agedOut.foldl Iku.starve { k with heard := k.heard.map HeardEntry.older } with
      callLoss := ageCallLoss k.callLoss } := by
  have hlist : (Tbl.indices 16).filter (fun n => ((k.heard.map HeardEntry.older).get n).state == .live &&
      decide (Config.heardAgeEnd ≤ ((k.heard.map HeardEntry.older).get n).age)) = k.agedOut := by
    apply List.filter_congr
    intro n _
    rw [Tbl.get_map, HeardEntry.older]
    by_cases hs : (k.heard.get n).state = .live
    · simp [Config.heardAgeEnd, hs]
    · rw [if_neg hs, beq_false_of_ne hs, Bool.false_and, Bool.false_and]
  unfold Iku.age Iku.ageHeard
  dsimp only
  rw [hlist]

/-- A stream-heard entry at a boundary. -/
theorem Iku.age_heard (k : Iku) (n : StreamNo) : k.age.heard.get n =
    if (k.heard.get n).state = .live then
      if 7 ≤ (k.heard.get n).age then { k.heard.get n with state := .starved, age := 8 }
      else { k.heard.get n with age := (k.heard.get n).age + 1 }
    else k.heard.get n := by
  rw [Iku.age_eq]
  show (k.agedOut.foldl Iku.starve _).heard.get n = _
  rw [Iku.foldl_starve_heard]
  simp only [Iku.mem_agedOut, Tbl.get_map, HeardEntry.older]
  by_cases hs : (k.heard.get n).state = .live
  · by_cases ha : 7 ≤ (k.heard.get n).age <;> simp [hs, ha]
  · simp [hs]

/-- A buffer at a boundary once its stream's entry has aged. -/
theorem Iku.age_buffer {k : Iku} {n : StreamNo} {i : BufferNo} (hi : (k.buffers.get i).stream = some n)
    (hone : ∀ j, (k.buffers.get j).stream = some n → j = i) : k.age.buffers.get i =
      if (k.heard.get n).state = .live ∧ 7 ≤ (k.heard.get n).age then (k.buffers.get i).starve
      else k.buffers.get i := by
  rw [Iku.age_eq]
  simp only [← Iku.mem_agedOut]
  exact Iku.foldl_starve_buffer (k := { k with heard := k.heard.map HeardEntry.older }) hi hone _

/-- Ageing leaves which stream each buffer is assigned to. -/
theorem Iku.age_stream (k : Iku) (i : BufferNo) :
    (k.age.buffers.get i).stream = (k.buffers.get i).stream := by
  rw [Iku.age_eq]
  show ((k.agedOut.foldl Iku.starve _).buffers.get i).stream = _
  rw [Iku.foldl_starve_buffers]
  split
  · exact (Buffer.starve_given _).1
  · rfl

/-! ### Users (R79, R80) -/

theorem Iku.serveOne_heard (own : StationNo) (k : Iku) (u : User × StreamNo) :
    (Iku.serveOne own k u).heard = k.heard ∧ (Iku.serveOne own k u).callLoss = k.callLoss := by
  unfold Iku.serveOne
  (repeat' split) <;> exact ⟨rfl, rfl⟩

/-- Serving the users leaves the two tables. -/
theorem Iku.serve_tables (k : Iku) (own : StationNo) (users : List (User × StreamNo)) :
    (k.serve own users).1.heard = k.heard ∧ (k.serve own users).1.callLoss = k.callLoss := by
  have h (l : List (User × StreamNo)) (x : Iku) :
      (l.foldl (Iku.serveOne own) x).heard = x.heard ∧ (l.foldl (Iku.serveOne own) x).callLoss = x.callLoss := by
    induction l generalizing x with
    | nil => exact ⟨rfl, rfl⟩
    | cons u l ih =>
      obtain ⟨hheard, hloss⟩ := ih (Iku.serveOne own x u)
      obtain ⟨hheard1, hloss1⟩ := Iku.serveOne_heard own x u
      exact ⟨hheard.trans hheard1, hloss.trans hloss1⟩
  exact h users (k.freeUnused users)

/-- This buffer alone is assigned to the stream, and it is not FREE. -/
def Iku.Holds (k : Iku) (n : StreamNo) (i : BufferNo) (b : Buffer) : Prop :=
  k.buffers.get i = b ∧ b.state ≠ .free ∧ b.stream = some n ∧ ∀ j, (k.buffers.get j).stream = some n → j = i

/-- Serving a user leaves a buffer that is assigned, and gives its stream no other. -/
theorem Iku.Holds.serveOne {k : Iku} {n : StreamNo} {i : BufferNo} {b : Buffer} (h : k.Holds n i b) (own : StationNo)
    (u : User × StreamNo) : (Iku.serveOne own k u).Holds n i b := by
  obtain ⟨hi, hb, hn, hone⟩ := h
  unfold Iku.serveOne
  split
  · exact ⟨hi, hb, hn, hone⟩
  · rename_i hserves
    split
    · exact ⟨hi, hb, hn, hone⟩
    · rename_i j hj
      have hfree : (k.buffers.get j).state = .free := by simpa using List.find?_some hj
      have hji : j ≠ i := fun e => hb (by rw [← hi, ← e]; exact hfree)
      have hun : u.2 ≠ n := by
        intro e
        apply hserves
        rw [Iku.serves, e, Iku.bufferOf_eq_some (hi ▸ hn) hone]
        simp
      refine ⟨(Tbl.get_set_of_ne _ _ hji).trans hi, hb, hn, fun m hm => ?_⟩
      have hm : ((k.buffers.set j (Buffer.assigned u.2 (k.isStarved u.2))).get m).stream = some n := hm
      rw [Tbl.get_set] at hm
      split at hm
      · exact absurd (Option.some.inj hm) hun
      · exact hone m hm

/-- A stream that no buffer serves and no user names gets none. -/
theorem Iku.foldl_serveOne_unserved {n : StreamNo} (own : StationNo) (l : List (User × StreamNo)) (k : Iku)
    (hl : ∀ u ∈ l, u.2 ≠ n) (hk : ∀ j, (k.buffers.get j).stream ≠ some n) (j : BufferNo) :
    ((l.foldl (Iku.serveOne own) k).buffers.get j).stream ≠ some n := by
  induction l generalizing k with
  | nil => exact hk j
  | cons u l ih =>
    refine ih _ (fun v hv => hl v (List.mem_cons_of_mem _ hv)) (fun m => ?_)
    unfold Iku.serveOne
    split
    · exact hk m
    · split
      · exact hk m
      · show ((k.buffers.set _ (Buffer.assigned u.2 _)).get m).stream ≠ _
        rw [Tbl.get_set]
        split
        · exact fun e => hl u List.mem_cons_self (Option.some.inj e)
        · exact hk m

/-- A buffer that is still assigned to its stream after the users were served is as it was, and is the only one. -/
theorem Iku.serve_holds {k : Iku} {n : StreamNo} {i : BufferNo} (hfree : (k.buffers.get i).state ≠ .free)
    (hi : (k.buffers.get i).stream = some n) (hone : ∀ j, (k.buffers.get j).stream = some n → j = i)
    (own : StationNo) (users : List (User × StreamNo))
    (hafter : ((k.serve own users).1.buffers.get i).stream = some n) :
    (k.serve own users).1.Holds n i (k.buffers.get i) := by
  have hother (j : BufferNo) (hj : ((k.freeUnused users).buffers.get j).stream = some n) :
      j = i ∧ (k.freeUnused users).buffers.get j = k.buffers.get j := by
    simp only [Iku.freeUnused, Tbl.get_map] at hj ⊢
    split at hj
    · rename_i hs
      exact ⟨hone j hj, if_pos hs⟩
    · rename_i hs
      rw [if_neg hs]
      split at hj
      · rename_i hu
        exact ⟨hone j hj, if_pos hu⟩
      · cases hj
  by_cases hkept : ((k.freeUnused users).buffers.get i).stream = some n
  · have hholds : (k.freeUnused users).Holds n i (k.buffers.get i) :=
      ⟨(hother i hkept).2, hfree, hi, fun j hj => (hother j hj).1⟩
    have hfold (l : List (User × StreamNo)) (x : Iku) (hx : x.Holds n i (k.buffers.get i)) :
        (l.foldl (Iku.serveOne own) x).Holds n i (k.buffers.get i) := by
      induction l generalizing x with
      | nil => exact hx
      | cons u l ih => exact ih _ (hx.serveOne own u)
    exact hfold users _ hholds
  · exfalso
    refine Iku.foldl_serveOne_unserved own users (k.freeUnused users) (fun u hu e => hkept ?_)
      (fun j hj => hkept ((hother j hj).1 ▸ hj)) i hafter
    have huser : users.any (fun u => (k.buffers.get i).stream == some u.2) = true :=
      List.any_eq_true.mpr ⟨u, hu, by rw [hi, e]; simp⟩
    simp only [Iku.freeUnused, Tbl.get_map, huser, if_true]
    split <;> exact hi

end Sys2Proof.Machine
end

section
/-! SUPPORT. What a block boundary outside CONFIG leaves in the Intake and of the peers that expire at it (R35, R70, R73 to R75,
R83, R88). -/

namespace Sys2Proof.Machine

open Sys2Proof

/-! ### Buffers (R76, R83 to R88) -/

/-- The consumption of a RUNNING buffer leaves its state and its stream. -/
theorem Buffer.consumeCounted_keeps (b : Buffer) : b.countRuns.consumeCounted.1.state = b.state ∧
    b.countRuns.consumeCounted.1.stream = b.stream ∧ b.countRuns.consumeCounted.1.static = b.static := by
  unfold Buffer.consumeCounted
  dsimp only
  (repeat' split) <;> exact ⟨rfl, rfl, rfl⟩

/-- The state of a buffer once its block was given. -/
theorem Buffer.consume_state (b : Buffer) :
    b.consume.1.state = if b.state = .priming ∧ ¬ b.ring.length < Config.primedFill then .running else b.state := by
  unfold Buffer.consume
  cases hs : b.state with
  | free => exact hs
  | starved => exact hs
  | priming =>
    by_cases hr : b.ring.length < Config.primedFill
    · simp only [hr, not_true_eq_false, and_false, if_true, if_false]
      exact hs
    · simpa only [hr, not_false_eq_true, and_true, if_true, if_false] using
        (Buffer.consumeCounted_keeps { b with state := .running }).1
  | running => exact b.consumeCounted_keeps.1.trans hs

/-- A buffer that gives its block keeps its stream. -/
theorem Buffer.consume_stream (b : Buffer) : b.consume.1.stream = b.stream ∧ b.consume.1.static = b.static := by
  unfold Buffer.consume
  split
  · exact ⟨rfl, rfl⟩
  · exact ⟨rfl, rfl⟩
  · split
    · exact ⟨rfl, rfl⟩
    · exact (Buffer.consumeCounted_keeps { b with state := .running }).2
  · exact b.consumeCounted_keeps.2

/-- A PRIMING or RUNNING buffer that gives its block is still PRIMING or RUNNING. -/
theorem Buffer.consume_active {b : Buffer} (h : b.state = .priming ∨ b.state = .running) :
    b.consume.1.state = .priming ∨ b.consume.1.state = .running := by
  rw [Buffer.consume_state]
  split
  · exact .inr rfl
  · exact h

theorem Buffer.consume_ne_free {b : Buffer} (h : b.state ≠ .free) : b.consume.1.state ≠ .free := by
  rw [Buffer.consume_state]
  split
  · nofun
  · exact h

/-- An assigned buffer that starves is STARVED. -/
theorem Buffer.starve_state {b : Buffer} (h : b.state ≠ .free) : b.starve.state = .starved := by
  unfold Buffer.starve
  cases hs : b.state with
  | free => exact absurd hs h
  | starved => exact hs
  | priming => rfl
  | running => rfl

/-- A buffer that starves at a boundary before it gives its block gives silence, and its force with it. -/
theorem Buffer.starve_consume {b : Buffer} (h : b.state = .priming ∨ b.state = .running) :
    Emptied b b.starve.consume.1 ∧ b.starve.consume.1.force = false ∧
      b.starve.consume.1.given = List.replicate 48 ⟨0, 0, false⟩ ∧ b.starve.consume.1.givenForce = true := by
  obtain ⟨hempty, hforce, _, _⟩ := b.starve_emptied h
  rw [Buffer.consume_starved _ hempty.1]
  exact ⟨hempty, rfl, rfl, hforce⟩

/-- A buffer that starves at a boundary after it gave its block keeps its force for the next. -/
theorem Buffer.consume_starve {b : Buffer} (h : b.state = .priming ∨ b.state = .running) :
    Emptied b b.consume.1.starve ∧ b.consume.1.starve.force = true := by
  obtain ⟨⟨hstate, hstream, hstatic, hrest⟩, hforce, _, _⟩ := b.consume.1.starve_emptied (Buffer.consume_active h)
  obtain ⟨hs, ht⟩ := b.consume_stream
  exact ⟨⟨hstate, hstream.trans hs, hstatic.trans ht, hrest⟩, hforce⟩

/-- Starving twice at a boundary is starving before the block is given. -/
theorem Buffer.starve_consume_starve {b : Buffer} (h : b.state = .priming ∨ b.state = .running) :
    b.starve.consume.1.starve = b.starve.consume.1 := by
  obtain ⟨⟨hstate, _⟩, _⟩ := Buffer.starve_consume h
  generalize b.starve.consume.1 = u at hstate ⊢
  unfold Buffer.starve
  rw [hstate]

/-! ### The peers that expire -/

/-- The streams of several peers. -/
def streamsOf (l : List StationNo) : List StreamNo := l.flatMap (fun p => [streamOf p 0, streamOf p 1])

theorem mem_streamsOf {l : List StationNo} {n : StreamNo} : n ∈ streamsOf l ↔ producerOf n ∈ l := by
  have hstream : ∀ (n : StreamNo) (p : StationNo), (n = streamOf p 0 ∨ n = streamOf p 1) ↔ producerOf n = p := by decide
  simp only [streamsOf, List.mem_flatMap, List.mem_cons, List.not_mem_nil, or_false, hstream]
  constructor
  · rintro ⟨p, hp, rfl⟩
    exact hp
  · exact fun h => ⟨_, h, rfl⟩

/-- Peers that expire starve their streams, one after the other. -/
theorem Iku.foldl_expirePeer (l : List StationNo) (k : Iku) :
    l.foldl Iku.expirePeer k = (streamsOf l).foldl Iku.starve k := by
  rw [streamsOf, List.foldl_flatMap]
  rfl

theorem Iku.foldl_starve_callLoss (l : List StreamNo) (k : Iku) : (l.foldl Iku.starve k).callLoss = k.callLoss := by
  induction l generalizing k with
  | nil => rfl
  | cons n l ih => rw [List.foldl_cons, ih, Iku.starve_callLoss]

/-! ### The Publisher's frames -/

/-- A publish slot that publishes PICKUP. -/
def PubSlot.Calls (b : PubSlot) : Prop := ∃ n, b = .publishing .pickup n

/-- A slot publishes PICKUP after its frame was built exactly where it did before. -/
theorem PubSlot.built_calls (b : PubSlot) : b.built.Calls ↔ b.Calls := by
  cases b with
  | idle => exact Iff.rfl
  | publishing src n =>
    constructor
    · rintro ⟨m, h⟩
      simp only [PubSlot.built, PubSlot.publishing.injEq] at h
      exact ⟨n, by rw [h.1]⟩
    · rintro ⟨m, h⟩
      simp only [PubSlot.publishing.injEq] at h
      exact ⟨n + 1, by rw [h.1]; rfl⟩

/-- A publish slot's work leaves the two tables of the Intake that hold no calls. -/
theorem State.publishSlot_iku (hand : Bool) (x : State) (i : PubSlotNo) :
    (State.publishSlot hand x i).iku.heard = x.iku.heard ∧ (State.publishSlot hand x i).iku.buffers = x.iku.buffers := by
  unfold State.publishSlot
  split
  · exact ⟨rfl, rfl⟩
  · exact ⟨Iku.takeCall_heard _ _, Iku.takeCall_buffers _ _⟩

/-- A publish slot without a call leaves the call-loss table. -/
theorem State.publishSlot_silent (hand : Bool) {x : State} {i : PubSlotNo}
    (h : ¬ (x.pub.slots.get i).Calls ∨ x.pku.call = none) :
    (State.publishSlot hand x i).iku.callLoss = x.iku.callLoss := by
  unfold State.publishSlot
  split
  · rfl
  · rename_i f hf
    have hcall : f.call = none := by
      unfold Pub.frame at hf
      split at hf
      · cases hf
      · rename_i src n hslot
        obtain rfl := Option.some.inj hf
        show (if src = .pickup then x.pku.callBlock else none) = none
        split
        · rename_i hsrc
          rcases h with h | h
          · exact absurd ⟨n, by rw [hslot, hsrc]⟩ h
          · rw [Pku.callBlock, h]
            rfl
        · rfl
    show (x.iku.takeCall f).callLoss = _
    unfold Iku.takeCall
    rw [hcall]

/-- A publish slot with a call enters it in the call-loss table (R70). -/
theorem State.publishSlot_calls (hand : Bool) {x : State} {i : PubSlotNo} {c : ClaimRef}
    (h : (x.pub.slots.get i).Calls) (hc : x.pku.call = some c) :
    (State.publishSlot hand x i).iku.callLoss = takeCallLoss x.iku.callLoss c (streamOf x.own i) x.pku.sd := by
  obtain ⟨n, hn⟩ := h
  unfold State.publishSlot Pub.frame Pku.callBlock
  rw [hn, hc]
  rfl

theorem State.boundaryPublish_eq (hand : Bool) (x : State) : x.boundaryPublish hand =
    { State.publishSlot hand (State.publishSlot hand x 0) 1 with
      pub := (State.publishSlot hand (State.publishSlot hand x 0) 1).pub.built } := rfl

/-- The Publisher's work in the Intake: the call-loss table alone. -/
theorem State.boundaryPublish_iku (hand : Bool) (x : State) :
    (x.boundaryPublish hand).iku.heard = x.iku.heard ∧ (x.boundaryPublish hand).iku.buffers = x.iku.buffers := by
  obtain ⟨hh0, hb0⟩ := State.publishSlot_iku hand x 0
  obtain ⟨hh1, hb1⟩ := State.publishSlot_iku hand (State.publishSlot hand x 0) 1
  exact ⟨hh1.trans hh0, hb1.trans hb0⟩

/-- The slots after the Publisher's work, and the call that it published. -/
theorem State.boundaryPublish_calls (hand : Bool) (x : State) :
    (∀ i, ((x.boundaryPublish hand).pub.slots.get i).Calls ↔ (x.pub.slots.get i).Calls) ∧
      (x.boundaryPublish hand).pku = x.pku := by
  refine ⟨fun i => ?_, (State.boundaryPublish_keepsSound hand x).pku⟩
  obtain ⟨hpub0, _⟩ := State.publishSlot_acts hand x 0 _ rfl
  obtain ⟨hpub1, _⟩ := State.publishSlot_acts hand (State.publishSlot hand x 0) 1 _ rfl
  rw [State.boundaryPublish_eq]
  show (((State.publishSlot hand (State.publishSlot hand x 0) 1).pub.slots.map PubSlot.built).get i).Calls ↔ _
  rw [Tbl.get_map, PubSlot.built_calls, hpub1, hpub0]

/-- With no call, or no slot that publishes PICKUP, the Publisher leaves the call-loss table. -/
theorem State.boundaryPublish_silent (hand : Bool) {x : State}
    (h : (∀ i, ¬ (x.pub.slots.get i).Calls) ∨ x.pku.call = none) :
    (x.boundaryPublish hand).iku.callLoss = x.iku.callLoss := by
  obtain ⟨hpub, _, _, _, hpku, _⟩ := State.publishSlot_acts hand x 0 _ rfl
  calc (State.publishSlot hand (State.publishSlot hand x 0) 1).iku.callLoss
      = (State.publishSlot hand x 0).iku.callLoss :=
        State.publishSlot_silent hand (h.imp (fun h => hpub ▸ h 1) (fun h => hpku ▸ h))
    _ = x.iku.callLoss := State.publishSlot_silent hand (h.imp (fun h => h 0) id)

/-- Where one slot publishes PICKUP in a call, the Publisher enters it in the call-loss table (R70). -/
theorem State.boundaryPublish_taken (hand : Bool) {x : State} {i : PubSlotNo} {c : ClaimRef}
    (hi : (x.pub.slots.get i).Calls) (hone : ∀ j, j ≠ i → ¬ (x.pub.slots.get j).Calls) (hc : x.pku.call = some c) :
    (x.boundaryPublish hand).iku.callLoss = takeCallLoss x.iku.callLoss c (streamOf x.own i) x.pku.sd := by
  obtain ⟨hpub, hown, _, _, hpku, _⟩ := State.publishSlot_acts hand x 0 _ rfl
  show (State.publishSlot hand (State.publishSlot hand x 0) 1).iku.callLoss = _
  rcases (by decide : ∀ i : PubSlotNo, i = 0 ∨ i = 1) i with rfl | rfl
  · rw [State.publishSlot_silent hand (x := State.publishSlot hand x 0) (.inl (hpub ▸ hone 1 (by decide))),
      State.publishSlot_calls hand hi hc]
  · rw [State.publishSlot_calls hand (x := State.publishSlot hand x 0) (hpub ▸ hi) (hpku ▸ hc), hown, hpku,
      State.publishSlot_silent hand (.inl (hone 0 (by decide)))]

end Sys2Proof.Machine
end

section
/-! PROOF. Streams, calls and peers that age out (R35, R73 to R75, R88): alone and at a block boundary. -/

namespace Sys2Proof.Machine

open Sys2Proof

/-! ### The Intake after a boundary -/

/-- What the Publisher finds at a boundary: the Intake's blocks given. -/
theorem State.boundaryBuilt_published (s : State) : ∃ x : State,
    s.boundaryBuilt = x.boundaryPublish (s.cle.lifecycle == .active) ∧ x.iku = s.servedIku ∧ x.own = s.own := by
  obtain ⟨_, hiku, _, _, _, _, hstore, _⟩ := s.boundary_served
  unfold State.boundaryBuilt
  dsimp only at hiku hstore ⊢
  generalize (((s.boundaryOutput.boundaryLevels.boundaryIdle.boundaryRadioBlock).boundaryDecide
    s.mixView).boundaryPickup s.mixView).boundaryIntake = s2 at hiku hstore ⊢
  refine ⟨_, rfl, ?_, ?_⟩
  · simp only [boundaryUplink_iku, boundaryMix_iku, hiku]
  · unfold State.own
    simp only [boundaryUplink_cpt, boundaryMix_cpt, hstore]

/-- The peers that expire at a boundary. -/
def State.gonePeers (s : State) : List StationNo := (List.finRange 8).filter s.peerExpires

theorem State.mem_streamsOf_gonePeers (s : State) (n : StreamNo) :
    n ∈ streamsOf s.gonePeers ↔ s.peerExpires (producerOf n) = true := by
  simp [mem_streamsOf, State.gonePeers]

/-- After the Publisher a boundary starves the streams of the peers that expire, and does no more in the Intake. -/
theorem State.boundaryRun_iku (s : State) :
    s.boundaryRun.iku = (streamsOf s.gonePeers).foldl Iku.starve s.boundaryBuilt.iku := by
  have hworked : s.boundaryRun.iku = s.boundaryWorked.iku := by
    rw [State.boundaryRun_eq]
    generalize s.boundaryWorked = x
    split <;> rfl
  obtain ⟨_, _, hpeers, _⟩ := s.boundaryBuilt.boundaryRadio.boundaryClaims.boundaryPeers_holds
  rw [s.boundaryBuilt_peerExpires] at hpeers
  have hradio : s.boundaryBuilt.boundaryRadio.iku = s.boundaryBuilt.iku := State.setRdu_iku _ _
  rw [hworked, State.boundaryWorked, hpeers, boundaryClaims_iku, hradio, Iku.foldl_expirePeer, State.gonePeers]

/-- The stream-heard table and the buffers that the peers' ages find at a boundary. -/
theorem State.boundaryBuilt_iku (s : State) :
    s.boundaryBuilt.iku.heard = s.iku.age.heard ∧ s.boundaryBuilt.iku.buffers = s.servedIku.buffers := by
  obtain ⟨x, hx, hiku, _⟩ := s.boundaryBuilt_published
  obtain ⟨hheard, hbuffers⟩ := State.boundaryPublish_iku (s.cle.lifecycle == .active) x
  rw [hx]
  refine ⟨hheard.trans ?_, hbuffers.trans (congrArg Iku.buffers hiku)⟩
  rw [hiku]
  exact (Iku.serve_tables _ _ _).1

/-- A stream-heard entry after a boundary: aged, and starved where its producer expired. -/
theorem State.boundaryRun_heard (s : State) (n : StreamNo) : s.boundaryRun.iku.heard.get n =
    if s.peerExpires (producerOf n) = true ∧ (s.iku.age.heard.get n).state = .live then
      { s.iku.age.heard.get n with state := .starved, age := 8 }
    else s.iku.age.heard.get n := by
  rw [s.boundaryRun_iku, Iku.foldl_starve_heard, s.boundaryBuilt_iku.1]
  simp only [s.mem_streamsOf_gonePeers]

/-- The aged buffer of a stream is assigned to it alone, as before. -/
theorem Iku.age_assigned {s : State} (h : BuffersAssigned s) {n : StreamNo} {i : BufferNo}
    (hi : (s.iku.buffers.get i).stream = some n) :
    (s.iku.age.buffers.get i).state ≠ .free ∧ (s.iku.age.buffers.get i).stream = some n ∧
      ∀ j, (s.iku.age.buffers.get j).stream = some n → j = i := by
  obtain ⟨hfree, hone⟩ := h
  have hne : (s.iku.buffers.get i).state ≠ .free := fun e => by simp [hfree i e] at hi
  refine ⟨?_, (Iku.age_stream _ i).trans hi, fun j hj => hone j i n ((Iku.age_stream _ j) ▸ hj) hi⟩
  rw [Iku.age_buffer hi (fun j hj => hone j i n hj hi)]
  split
  · rw [Buffer.starve_state hne]
    nofun
  · exact hne

/-- A buffer that keeps its stream over a boundary: aged, its block given, and starved where the producer expired. -/
theorem State.boundaryRun_buffer {s : State} (h : BuffersAssigned s) {n : StreamNo} {i : BufferNo}
    (hi : (s.iku.buffers.get i).stream = some n) (hafter : (s.boundaryRun.iku.buffers.get i).stream = some n) :
    s.boundaryRun.iku.buffers.get i =
      if s.peerExpires (producerOf n) = true then (s.iku.age.buffers.get i).consume.1.starve
      else (s.iku.age.buffers.get i).consume.1 := by
  obtain ⟨hfree, hstream, hone⟩ := Iku.age_assigned h hi
  obtain ⟨_, _, _, hgiven, _⟩ := s.boundaryRun_holds
  have hserved : (s.servedIku.buffers.get i).stream = some n := (hgiven i).1 ▸ hafter
  have hmap (k : Iku) (j : BufferNo) : k.consume.1.buffers.get j = (k.buffers.get j).consume.1 := Tbl.get_map _ _ _
  rw [State.servedIku, hmap, (Buffer.consume_stream _).1] at hserved
  obtain ⟨hbuffer, _, _, halone⟩ := Iku.serve_holds hfree hstream hone _ _ hserved
  have hbuilt (j : BufferNo) : s.boundaryBuilt.iku.buffers.get j = ((s.iku.age.serve s.own
      (s.decidedMxe.users ++ s.decidedPku.user)).1.buffers.get j).consume.1 := by
    rw [s.boundaryBuilt_iku.2, State.servedIku, hmap]
  have hn : (s.boundaryBuilt.iku.buffers.get i).stream = some n := by
    rw [hbuilt, (Buffer.consume_stream _).1, hserved]
  rw [s.boundaryRun_iku, Iku.foldl_starve_buffer hn (fun j hj => halone j ?_), hbuilt, hbuffer]
  · simp only [s.mem_streamsOf_gonePeers]
  · rwa [hbuilt, (Buffer.consume_stream _).1] at hj

/-- The call-loss table after a boundary is as the Publisher left it. -/
theorem State.boundaryRun_callLoss (s : State) : s.boundaryRun.iku.callLoss = s.boundaryBuilt.iku.callLoss := by
  rw [s.boundaryRun_iku, Iku.foldl_starve_callLoss]

/-- The publish slots and the pickup record after a boundary are as the Publisher left them. -/
theorem State.boundaryRun_published (s : State) :
    s.boundaryRun.pub.slots = s.boundaryBuilt.pub.slots ∧ s.boundaryRun.pku = s.boundaryBuilt.pku := by
  rw [State.boundaryRun_eq, State.boundaryWorked]
  generalize s.boundaryBuilt = x
  have hpub := x.boundaryRest_keepsPub (x.boundaryRadio.boundaryClaims.boundaryPeers.cle.lifecycle = s.cle.lifecycle)
  have hsound := x.boundaryRest_keepsSound (x.boundaryRadio.boundaryClaims.boundaryPeers.cle.lifecycle = s.cle.lifecycle)
  generalize (if x.boundaryRadio.boundaryClaims.boundaryPeers.cle.lifecycle = s.cle.lifecycle then
    x.boundaryRadio.boundaryClaims.boundaryPeers.boundaryCadence
    else x.boundaryRadio.boundaryClaims.boundaryPeers) = y at hpub hsound ⊢
  exact ⟨hpub.slots, hsound.pku⟩

/-! ### The peers after a boundary -/

/-- The counters leave the claim list, the notices and the other stations' entries. -/
theorem Link.tickCadence_others (k : Link) (env : Env) :
    (k.tickCadence env).cle.claims = k.cle.claims ∧ SameOthers env.own k.cle (k.tickCadence env).cle := by
  unfold Link.tickCadence
  split
  · exact ⟨rfl, fun _ _ => rfl⟩
  · dsimp only
    split
    · exact ⟨rfl, fun _ _ => rfl⟩
    · exact ⟨rfl, fun p hp => Tbl.get_set_of_ne _ _ hp.symm⟩
  all_goals
    dsimp only
    split
    · exact ⟨rfl, fun _ _ => rfl⟩
    · exact ⟨rfl, fun p hp => Tbl.get_set_of_ne _ _ hp.symm⟩

/-- The peers that expire at a boundary are gone after it, with their claims. -/
theorem State.boundaryRun_gone (s : State) {p : StationNo} (hp : s.peerExpires p = true) :
    s.boundaryRun.cle.peers.get p = none ∧ ∀ c ∈ s.boundaryRun.cle.claims, c.name.station ≠ p := by
  obtain ⟨hclaims, hpeers, _⟩ := s.boundaryBuilt.boundaryRadio.boundaryClaims.boundaryPeers_holds
  have hown : p ≠ s.own := by
    rintro rfl
    simp [State.peerExpires] at hp
  have hkeeps := s.boundaryWorked_keeps.own
  rw [s.boundaryBuilt_peerExpires] at hclaims hpeers
  rw [State.boundaryRun_eq]
  unfold State.boundaryWorked at hkeeps ⊢
  generalize s.boundaryBuilt.boundaryRadio.boundaryClaims.boundaryPeers = x at hclaims hpeers hkeeps ⊢
  have hgone : ∀ c ∈ x.cle.claims, c.name.station ≠ p := by
    rw [hclaims]
    rintro c hc rfl
    simp [hp] at hc
  split
  · obtain ⟨hc, ho⟩ := Link.tickCadence_others x.link x.env
    refine ⟨(ho p ?_).trans (hpeers p hp), fun c hmem => hgone c (hc ▸ hmem)⟩
    exact fun e => hown (e.trans hkeeps)
  · exact ⟨hpeers p hp, hgone⟩

/-- Several raises in one place of the notice set. -/
theorem Cpt.raiseAll_notice {α : Type} {f : α → Notice} {place : Fin 14} (hf : ∀ a, (f a).place = place)
    (l : List α) (c : Cpt) : (c.raiseAll (l.map f)).notices.get place =
      l.foldl (fun e a => some (raisedEntry e (f a))) (c.notices.get place) := by
  induction l generalizing c with
  | nil => rfl
  | cons a l ih =>
    rw [List.map_cons, Cpt.raiseAll_cons, ih, List.foldl_cons]
    show l.foldl _ ((c.notices.modify (f a).place _).get place) = _
    rw [hf, Tbl.get_modify, if_pos rfl]

/-- The PEER place after a boundary: the peers that expired, in ascending station number (R35, R217). -/
theorem State.boundaryRun_peerNotice (s : State) : s.boundaryRun.cpt.notices.get 5 =
    s.gonePeers.foldl (fun e p => some (raisedEntry e (.peerExpired p))) (s.cpt.notices.get 5) := by
  obtain ⟨_, _, _, hcpt, _⟩ := s.boundaryBuilt.boundaryRadio.boundaryClaims.boundaryPeers_holds
  rw [s.boundaryBuilt_peerExpires] at hcpt
  have hbefore : s.cpt.SameAt 5 s.boundaryBuilt.cpt := by
    unfold State.boundaryBuilt
    dsimp only
    rw [boundaryPublish_cpt, boundaryUplink_cpt, boundaryMix_cpt]
    have hidle : s.cpt.SameAt 5 s.boundaryOutput.boundaryLevels.boundaryIdle.cpt :=
      ((s.boundaryOutput_sameAt (by decide) (by decide)).trans
        (s.boundaryOutput.boundaryLevels_sameAt (by decide))).trans
        (s.boundaryOutput.boundaryLevels.boundaryIdle_sameAt (by decide) (by decide))
    generalize s.boundaryOutput.boundaryLevels.boundaryIdle = x at hidle ⊢
    have hpickup := (x.boundaryRadioBlock.boundaryDecide s.mixView).boundaryPickup_sameAt (i := 5) s.mixView (by decide)
    generalize (x.boundaryRadioBlock.boundaryDecide s.mixView).boundaryPickup s.mixView = y at hpickup ⊢
    exact hidle.trans (hpickup.trans (y.boundaryIntake_sameAt (by decide)))
  have hclaims : s.cpt.SameAt 5 s.boundaryBuilt.boundaryRadio.boundaryClaims.cpt := by
    generalize s.boundaryBuilt = x at hbefore ⊢
    exact hbefore.trans <| (setRdu_sameAt x (Rdu.boundary_spares _ _ (by decide) (by decide))).trans
      (Link.tickWindow_sameAt x.boundaryRadio.link _ (by decide))
  have hrun : s.boundaryRun.cpt = s.boundaryWorked.cpt := by
    rw [State.boundaryRun_eq]
    generalize s.boundaryWorked = x
    split
    · exact Link.tickCadence_cpt x.link x.env
    · rfl
  rw [hrun, State.boundaryWorked, hcpt, Cpt.raiseAll_notice (f := Notice.peerExpired) (place := 5) (fun _ => rfl),
    hclaims, State.gonePeers]

/-- A stream whose producer expires at a boundary: not LIVE after it, and its buffer STARVED (R35, R88). -/
theorem State.boundaryRun_expired {s : State} (h : BuffersAssigned s) {n : StreamNo}
    (hp : s.peerExpires (producerOf n) = true) : (s.boundaryRun.iku.heard.get n).state ≠ .live ∧
      ∀ i : BufferNo, (s.iku.buffers.get i).stream = some n → (s.boundaryRun.iku.buffers.get i).stream = some n →
        (s.boundaryRun.iku.buffers.get i).state = .starved ∧
        (((s.iku.buffers.get i).state = .priming ∨ (s.iku.buffers.get i).state = .running) →
          Emptied (s.iku.buffers.get i) (s.boundaryRun.iku.buffers.get i)) := by
  constructor
  · rw [s.boundaryRun_heard n]
    split
    · nofun
    · rename_i hlive
      exact fun e => hlive ⟨hp, e⟩
  · intro i hi hafter
    rw [State.boundaryRun_buffer h hi hafter, if_pos hp]
    refine ⟨Buffer.starve_state (Buffer.consume_ne_free (Iku.age_assigned h hi).1), fun hs => ?_⟩
    rw [Iku.age_buffer hi (fun j hj => h.2 j i n hj hi)]
    split
    · rw [Buffer.starve_consume_starve hs]
      exact (Buffer.starve_consume hs).1
    · exact (Buffer.consume_starve hs).1

/-- Settles O15: the row by the definition of an expiry, the boundary by what it leaves of the peers that are due. -/
theorem peerExpiryRemovesThePeer : Obligations.PeerExpiryRemovesThePeer := by
  unfold Obligations.PeerExpiryRemovesThePeer
  refine ⟨fun s p e hc hp he hage => ?row, fun s hc hassigned => ?boundary⟩
  case row =>
    have hdue : s.inConfig = false ∧ p ≠ s.own ∧
        (s.cle.peers.get p).any (fun e => e.age + 1 == Config.peerAgeEnd) = true :=
      ⟨hc, hp, by simp [he, hage, Config.peerAgeEnd]⟩
    rw [exec_peerExpiry, execPeerExpiry, if_pos hdue]
    rfl
  case boundary =>
    refine ⟨_, exec_blockBoundary_of_not_inConfig hc, fun p hgone => ?_, s.boundaryRun_peerNotice⟩
    obtain ⟨hpeer, hclaims⟩ := s.boundaryRun_gone hgone
    exact ⟨hpeer, hclaims, fun n hn => State.boundaryRun_expired hassigned (hn.symm ▸ hgone)⟩

/-! ### Streams and calls -/

/-- A call-loss entry stays in the table but where a CALL_LOSS_EXPIRY names it at age 7. -/
theorem CallLoss.mem_filter_expired {e : CallLoss} {l : List CallLoss} {r : ClaimRef} {u : StreamNo} :
    e ∈ l.filter (fun e => !(e.isFor r u && e.age + 1 == Config.callLossAgeEnd)) ↔
      e ∈ l ∧ ¬ (e.ref = r ∧ e.uplink = u ∧ e.age = 7) := by
  rw [List.mem_filter, and_congr_right_iff]
  intro _
  simp only [CallLoss.isFor, Config.callLossAgeEnd, Bool.not_eq_true', Bool.and_eq_false_iff, beq_eq_false_iff_ne]
  by_cases hr : e.ref = r <;> by_cases hu : e.uplink = u <;> simp [hr, hu]

/-- The Intake after a stream starved: two of its tables changed. -/
theorem Iku.starve_eq (k : Iku) {n : StreamNo} (h : (k.heard.get n).state = .live) : k.starve n = { k with
    heard := k.heard.set n { k.heard.get n with state := .starved, age := 8 }, buffers := (k.starve n).buffers } := by
  unfold Iku.starve
  dsimp only
  rw [if_pos h]
  split <;> rfl

/-- The call-loss table that the Publisher finds at a boundary. -/
theorem ageCallLoss_eq (l : List CallLoss) :
    ageCallLoss l = l.filterMap (fun e => if e.age < 7 then some { e with age := e.age + 1 } else none) := by
  unfold ageCallLoss
  refine congrArg (fun f => List.filterMap f l) (funext fun e => ?_)
  simp only [Config.callLossAgeEnd, Nat.add_lt_iff_lt_sub_right, Nat.reduceSub]

/-- The call-loss table after a boundary (R70, R74, R75). -/
theorem State.boundaryRun_calls (s : State) :
    (((∀ i, ¬ (s.boundaryRun.pub.slots.get i).Calls) ∨ s.boundaryRun.pku.call = none) →
      s.boundaryRun.iku.callLoss = ageCallLoss s.iku.callLoss) ∧
    ∀ (i : PubSlotNo) (c : ClaimRef), (s.boundaryRun.pub.slots.get i).Calls →
      (∀ j, j ≠ i → ¬ (s.boundaryRun.pub.slots.get j).Calls) → s.boundaryRun.pku.call = some c →
      CallTaken ⟨c, streamOf s.own i, s.boundaryRun.pku.sd, 0⟩ (ageCallLoss s.iku.callLoss)
        s.boundaryRun.iku.callLoss := by
  obtain ⟨x, hx, hiku, hown⟩ := s.boundaryBuilt_published
  obtain ⟨hcalls, hpku⟩ := State.boundaryPublish_calls (s.cle.lifecycle == .active) x
  obtain ⟨hslots, hrunpku⟩ := s.boundaryRun_published
  have haged : x.iku.callLoss = ageCallLoss s.iku.callLoss := by
    rw [hiku]
    refine (Iku.serve_tables _ _ _).2.trans ?_
    rw [Iku.age_eq]
  rw [s.boundaryRun_callLoss, hslots, hrunpku, hx, hpku]
  simp only [hcalls]
  refine ⟨fun h => (State.boundaryPublish_silent _ h).trans haged, fun i c hi hone hc => ?_⟩
  rw [State.boundaryPublish_taken _ hi hone hc, haged, hown]
  exact takeCallLoss_taken _ _ _ _

/-- A stream-heard entry after a boundary, in the three cases of R73. -/
theorem State.boundaryRun_heard_cases (s : State) (n : StreamNo) :
    ((s.iku.heard.get n).state ≠ .live → s.boundaryRun.iku.heard.get n = s.iku.heard.get n) ∧
    ((s.iku.heard.get n).state = .live →
      (decide (7 ≤ (s.iku.heard.get n).age) || s.peerExpires (producerOf n)) = false →
      s.boundaryRun.iku.heard.get n = { s.iku.heard.get n with age := (s.iku.heard.get n).age + 1 }) ∧
    ((s.iku.heard.get n).state = .live →
      (decide (7 ≤ (s.iku.heard.get n).age) || s.peerExpires (producerOf n)) = true →
      s.boundaryRun.iku.heard.get n = { s.iku.heard.get n with state := .starved, age := 8 }) := by
  rw [s.boundaryRun_heard n, Iku.age_heard]
  by_cases hlive : (s.iku.heard.get n).state = .live
  · by_cases hage : 7 ≤ (s.iku.heard.get n).age
    · simp [hlive, hage]
    · cases hp : s.peerExpires (producerOf n) <;> simp [hlive, hage]
  · simp [hlive]

/-- A buffer that starves at a boundary: emptied; where its stream aged out it gave silence with force, where only its
producer expired it forces its readers at the next (R83, R88). -/
theorem State.boundaryRun_starved {s : State} (h : BuffersAssigned s) {n : StreamNo}
    (hlive : (s.iku.heard.get n).state = .live)
    (hout : (decide (7 ≤ (s.iku.heard.get n).age) || s.peerExpires (producerOf n)) = true) {i : BufferNo}
    (hi : (s.iku.buffers.get i).stream = some n) (hafter : (s.boundaryRun.iku.buffers.get i).stream = some n)
    (hs : (s.iku.buffers.get i).state = .priming ∨ (s.iku.buffers.get i).state = .running) :
    Emptied (s.iku.buffers.get i) (s.boundaryRun.iku.buffers.get i) ∧
      (s.boundaryRun.iku.buffers.get i).force = !decide (7 ≤ (s.iku.heard.get n).age) ∧
      (decide (7 ≤ (s.iku.heard.get n).age) = true →
        (s.boundaryRun.iku.buffers.get i).given = List.replicate 48 ⟨0, 0, false⟩ ∧
          (s.boundaryRun.iku.buffers.get i).givenForce = true) := by
  have haged := Iku.age_buffer hi (fun j hj => h.2 j i n hj hi)
  rw [State.boundaryRun_buffer h hi hafter]
  by_cases hage : 7 ≤ (s.iku.heard.get n).age
  · obtain ⟨hempty, hforce, hgiven⟩ := Buffer.starve_consume hs
    rw [haged, if_pos (⟨hlive, hage⟩ : _ ∧ _), Buffer.starve_consume_starve hs, ite_self]
    exact ⟨hempty, by simp [hforce, hage], fun _ => hgiven⟩
  · obtain ⟨hempty, hforce⟩ := Buffer.consume_starve hs
    have hgone : s.peerExpires (producerOf n) = true := by simpa [hage] using hout
    rw [if_neg (fun hold => hage hold.2)] at haged
    rw [haged, if_pos hgone]
    exact ⟨hempty, by simp [hforce, hage], fun hold => absurd (of_decide_eq_true hold) hage⟩

/-- Settles O46: the two rows by the tables after a starved stream and a filtered list, the boundary by what it leaves of
each entry, of each buffer and of the calls. -/
theorem streamsAndCallsAgeOut : Obligations.StreamsAndCallsAgeOut := by
  unfold Obligations.StreamsAndCallsAgeOut
  refine ⟨fun s n hlive hage => ?starved, fun s p n u => ?expiry, fun s hc hassigned => ?boundary⟩
  case starved =>
    have hdue : (s.iku.heard.get n).state = .live ∧ (s.iku.heard.get n).age + 1 = Config.heardAgeEnd :=
      ⟨hlive, by simp [hage, Config.heardAgeEnd]⟩
    refine ⟨{ s with iku := s.iku.starve n }, by rw [exec_streamStarved, execStreamStarved, if_pos hdue],
      congrArg (fun k => { s with iku := k }) (s.iku.starve_eq hlive), fun i => ⟨fun hne => ?_, fun hi hs => ?_⟩⟩
    · exact (s.iku.starve_buffers n i).trans (if_neg hne)
    · refine ((s.iku.starve_buffers n i).trans (if_pos hi)).trans ?_
      rcases hs with hs | hs <;> simp only [Buffer.starve, hs] <;> rfl
  case expiry =>
    rw [exec_callLossExpiry, execCallLossExpiry]
    exact ⟨_, rfl, rfl, fun e => CallLoss.mem_filter_expired⟩
  case boundary =>
    refine ⟨_, exec_blockBoundary_of_not_inConfig hc, fun n => ?_, ?_⟩
    · obtain ⟨hother, hyoung, hold⟩ := s.boundaryRun_heard_cases n
      exact ⟨hother, hyoung, fun hlive hout =>
        ⟨hold hlive hout, fun i hi hafter hs => State.boundaryRun_starved hassigned hlive hout hi hafter hs⟩⟩
    · rw [← ageCallLoss_eq]
      exact s.boundaryRun_calls

end Sys2Proof.Machine
end

section
/-! PROOF. What each command leaves of the claim list, the claim-frame queue and the peer table (R22, R38, R39, R42). -/

namespace Sys2Proof.Machine

open Sys2Proof

/-- From k to m a good claim list and a bounded queue stay so, and in CONFIG with no claim, no claim and no peer appears. -/
structure Link.KeepsList (own : StationNo) (k m : Link) : Prop where
  good : GoodLink own k → GoodLink own m
  config : k.cle.lifecycle = .config → k.cle.claims = [] →
    m.cle.lifecycle = .config ∧ m.cle.claims = [] ∧ ∀ p, k.cle.peers.get p = none → m.cle.peers.get p = none

namespace Link.KeepsList

variable {own : StationNo} {k m n : Link}

theorem refl (own : StationNo) (k : Link) : k.KeepsList own k := ⟨id, fun hl hc => ⟨hl, hc, fun _ => id⟩⟩

theorem trans (h : k.KeepsList own m) (j : m.KeepsList own n) : k.KeepsList own n where
  good g := j.good (h.good g)
  config hl hc := by
    obtain ⟨hl, hc, hp⟩ := h.config hl hc
    obtain ⟨hl, hc, hq⟩ := j.config hl hc
    exact ⟨hl, hc, fun p e => hq p (hp p e)⟩

/-- Work on the LIF alone, as far as the claims go. -/
theorem of_cle (hl : k.lif.queue.length ≤ Config.queueCapacity → m.lif.queue.length ≤ Config.queueCapacity)
    (hc : m.cle = k.cle) : k.KeepsList own m where
  good g := ⟨hc ▸ g.list, hl g.queue⟩
  config hlife hnil := by rw [hc]; exact ⟨hlife, hnil, fun _ => id⟩

/-- Work that leaves the Claim Engine alone where the station is in CONFIG with no claim. -/
theorem of_idle (hg : GoodLink own k → GoodLink own m)
    (hc : k.cle.lifecycle = .config → k.cle.claims = [] → m.cle = k.cle) : k.KeepsList own m where
  good := hg
  config hlife hnil := by rw [hc hlife hnil]; exact ⟨hlife, hnil, fun _ => id⟩

/-- Work that is done outside CONFIG alone. -/
theorem of_not_config (hg : GoodLink own k → GoodLink own m) (h : k.cle.lifecycle ≠ .config) : k.KeepsList own m :=
  of_idle hg (fun hlife => absurd hlife h)

variable (k : Link) (env : Env)

theorem claimRequest (a b c : Byte) (r : Option Byte) : k.KeepsList env.own (k.claimRequest env a b c r).2.2 := by
  refine of_idle (fun g => g.claimRequest env a b c r) (fun hl _ => ?_)
  unfold Link.claimRequest
  rw [hl]
  rfl

theorem releaseRequest (n : Serial) : k.KeepsList own (k.releaseRequest env n).2 := by
  refine of_idle (fun g => g.releaseRequest env n) (fun hl _ => ?_)
  unfold Link.releaseRequest
  rw [hl]
  rfl

theorem placeAnnounce (z : ZoneSet) (r : Option StreamNo) : k.KeepsList env.own (k.placeAnnounce env z r).2 := by
  refine of_idle (fun g => g.placeAnnounce env z r) (fun hl _ => ?_)
  unfold Link.placeAnnounce
  rw [if_neg (fun h => absurd (hl.symm.trans h.1) (by decide))]

theorem endAnnounce (n : Serial) : k.KeepsList own (k.endAnnounce env n) := by
  refine of_idle (fun g => g.endAnnounce env n) (fun _ hc => ?_)
  unfold Link.endAnnounce
  rw [hc]
  rfl

theorem attemptLost (f : Flight) : k.KeepsList own (k.attemptLost env f) := by
  refine of_idle (fun g => g.attemptLost env f) (fun hl _ => ?_)
  rw [Link.attemptLost_of_not_isolated _ _ _ (by rw [hl]; nofun)]

theorem attemptBitError (f : Flight) : k.KeepsList own (k.attemptBitError env f) := by
  refine of_idle (fun g => g.attemptBitError env f) (fun hl _ => ?_)
  rw [Link.attemptBitError_of_not_isolated _ _ _ (by rw [hl]; nofun) (by rw [hl]; nofun)]

/-- With no claim, the report of a completed claim frame changes the queue at most. -/
theorem claimCompleted_nil (f : ClaimFrame) (h : k.cle.claims = []) : (k.claimCompleted env f).cle = k.cle := by
  cases f with
  | bid n x => rw [Link.claimCompleted_of_gone _ _ (fun own hown => by rw [h] at hown; cases hown)]; rfl
  | hold n x => rfl
  | release n => rfl

theorem attemptCompleted (f : Flight) : k.KeepsList own (k.attemptCompleted env f) := by
  refine of_idle (fun g => g.attemptCompleted env f) (fun hl hc => ?_)
  rw [Link.attemptCompleted_eq]
  split
  · rfl
  · split
    · exact claimCompleted_nil _ _ _ hc
    · rfl
    · rw [if_neg (by rw [hl]; nofun)]

theorem checkNoIdle : k.KeepsList own (k.checkNoIdle env) := by
  refine of_idle (fun g => g.checkNoIdle env) (fun hl _ => ?_)
  unfold Link.checkNoIdle
  rw [if_neg (by rw [hl]; nofun)]

theorem tickWindow : k.KeepsList own (k.tickWindow env) := by
  refine of_idle (fun g => g.tickWindow env) (fun _ hc => ?_)
  unfold Link.tickWindow
  rw [hc]
  rfl

theorem ageBids : k.KeepsList own (k.setClaims (Machine.ageBids k.cle.claims)) := by
  refine ⟨fun g => g.setClaims (GoodLink.ageBids_good g.list), fun hl hc => ⟨hl, ?_, fun _ => id⟩⟩
  show Machine.ageBids k.cle.claims = []
  rw [hc]
  rfl

theorem tickCadence : k.KeepsList own (k.tickCadence env) := by
  refine of_idle (fun g => g.tickCadence env) (fun hl _ => ?_)
  unfold Link.tickCadence
  rw [hl]

theorem expirePeer (p : StationNo) : k.KeepsList own (k.expirePeer p) := by
  refine ⟨fun g => g.expirePeer p, fun hl hc => ⟨hl, ?_, fun q hq => ?_⟩⟩
  · show k.cle.claims.filter _ = []
    rw [hc]
    rfl
  · show (k.cle.peers.set p none).get q = none
    rw [Tbl.get_set, hq, ite_self]

end Link.KeepsList

/-! ### The same of the whole station -/

/-- The station's number stays, and the claims are kept. -/
structure State.KeepsList (s t : State) : Prop where
  own : t.own = s.own
  list : s.link.KeepsList s.own t.link

namespace State.KeepsList

variable {s t u : State}

theorem refl (s : State) : s.KeepsList s := ⟨rfl, .refl _ _⟩

theorem trans (h : s.KeepsList t) (k : t.KeepsList u) : s.KeepsList u :=
  ⟨k.own.trans h.own, h.list.trans (h.own ▸ k.list)⟩

/-- An event that leaves the Claim Engine alone. -/
theorem of_keeps (h : s.Keeps t) (hc : t.cle = s.cle) : s.KeepsList t := ⟨h.own, .of_cle h.lif.queue hc⟩

/-- A change beside the claim-frame queue and the CLE. -/
theorem of_eq (hl : t.lif.queue = s.lif.queue) (hc : t.cle = s.cle) (ho : t.own = s.own) : s.KeepsList t :=
  ⟨ho, .of_cle (fun h => (congrArg List.length hl).trans_le h) hc⟩

theorem answer (h : s.KeepsList t) (st : Status) (d : List Byte) : s.KeepsList (t.answer st d) :=
  h.trans (of_eq rfl rfl rfl)

theorem arbitrate (h : s.KeepsList t) : s.KeepsList t.arbitrate := h.trans (of_keeps t.arbitrate_keeps rfl)

theorem setLink {k : Link} (hk : s.link.Keeps k) (h : s.link.KeepsList s.own k) : s.KeepsList (s.setLink k) :=
  ⟨(s.setLink_keeps hk).own, h⟩

theorem foldl {α : Type} {f : State → α → State} (h : ∀ (s : State) (a : α), s.KeepsList (f s a)) (l : List α)
    (s : State) : s.KeepsList (l.foldl f s) := by
  induction l generalizing s with
  | nil => exact refl s
  | cons a l ih => exact (h s a).trans (ih (f s a))

/-- A notice raised, and the Radio Unit's record set, beside. -/
theorem noted (h : s.KeepsList t) (r : Rdu) (n : Notice) : s.KeepsList { t with rdu := r, cpt := t.cpt.raise n } :=
  h.trans (of_keeps (.of_raised rfl rfl (.raise _ _) rfl) rfl)

theorem rduEffect (s : State) (e : RduEffect) : s.KeepsList (s.rduEffect e) := by
  cases e with
  | notice n => exact of_eq rfl rfl rfl
  | announceStart =>
    let s1 : State := { s with pub := s.pub.setRadioClass true }
    have hclass : s.KeepsList s1 := of_eq rfl rfl rfl
    have hplaced : s.KeepsList (s1.setLink (s1.link.placeAnnounce s1.env s1.cpt.store.announceZones s1.announceRef).2) :=
      hclass.trans (setLink (Link.placeAnnounce_keeps _ _ _ _) (Link.KeepsList.placeAnnounce s1.link s1.env _ _))
    show s.KeepsList s.announceStart
    unfold State.announceStart
    dsimp only
    split
    · exact hplaced.noted _ _
    · exact hplaced.noted s.rdu _
  | announceEnd c a =>
    let s1 : State := { s with pub := s.pub.setRadioClass false }
    have hclass : s.KeepsList s1 := of_eq rfl rfl rfl
    show s.KeepsList (s.announceEnd c a)
    unfold State.announceEnd
    dsimp only
    split
    · rename_i n
      have hended : s.KeepsList (s1.setLink (s1.link.endAnnounce s1.env n)) :=
        hclass.trans (setLink (Link.endAnnounce_keeps _ _ _) (Link.KeepsList.endAnnounce _ _ _))
      exact hended.noted s.rdu _
    · exact hclass.noted s.rdu _

theorem setRdu (s : State) (o : RduOut) : s.KeepsList (s.setRdu o) :=
  trans (t := { s with rdu := o.1 }) (of_eq rfl rfl rfl) (foldl rduEffect _ _)

theorem expirePeer (s : State) (p : StationNo) : s.KeepsList (s.expirePeer p) :=
  ⟨(s.expirePeer_keeps p).own, .expirePeer _ p⟩

/-! ### The parts of a block boundary -/

theorem publishSlot (hand : Bool) (s : State) (i : PubSlotNo) : s.KeepsList (State.publishSlot hand s i) := by
  have hkeeps := State.publishSlot_keeps hand s i
  refine ⟨hkeeps.own, fun g => ⟨?_, hkeeps.lif.queue g.queue⟩, ?_⟩
  all_goals
    unfold State.publishSlot
    split
  · exact g.list
  · exact g.list
  · exact (Link.KeepsList.refl s.own s.link).config
  · exact (Link.KeepsList.refl s.own s.link).config

theorem boundaryBuilt (s : State) : s.KeepsList s.boundaryBuilt := by
  have hidle : s.KeepsList s.boundaryOutput.boundaryLevels.boundaryIdle :=
    (of_keeps ((boundaryOutput_keeps s).trans (boundaryLevels_keeps _)) rfl).trans
      (setLink (Link.checkNoIdle_keeps _ _) (.checkNoIdle _ _))
  have hpickup (x : State) (v : MixView) : x.KeepsList (x.boundaryPickup v) :=
    of_keeps (boundaryPickup_keeps v x) (boundaryPickup_cle x v)
  have hpublish (x : State) (hand : Bool) : x.KeepsList (x.boundaryPublish hand) :=
    (foldl (publishSlot hand) _ x).trans (of_eq rfl rfl rfl)
  have hdecide (x : State) (v : MixView) : x.KeepsList (x.boundaryRadioBlock.boundaryDecide v) := of_eq rfl rfl rfl
  have hmix (x : State) (v : MixView) (a : FeedTbl Bool) (y : Sounds) :
      x.KeepsList ((x.boundaryIntake.boundaryMix v a y).boundaryUplink v y) :=
    (of_keeps x.boundaryIntake_keeps rfl).trans (of_eq rfl rfl rfl)
  unfold State.boundaryBuilt
  exact hidle.trans ((hdecide _ _).trans ((hpickup _ _).trans ((hmix _ _ _ _).trans (hpublish _ _))))

theorem boundaryClaims (s : State) : s.KeepsList s.boundaryClaims :=
  ⟨s.boundaryClaims_keeps.own, (Link.KeepsList.tickWindow s.link s.env).trans (.ageBids _)⟩

/-- The peers' ages make no entry present. -/
theorem agePeers (s : State) : s.KeepsList { s with cle := { s.cle with peers := Machine.agePeers s.own s.cle.peers } } := by
  refine ⟨rfl, fun g => ⟨g.list, g.queue⟩, fun hl hc => ⟨hl, hc, fun p hp => ?_⟩⟩
  show (Machine.agePeers s.own s.cle.peers).get p = none
  have hp : s.cle.peers.get p = none := hp
  rw [Machine.agePeers, Tbl.get_ofFn, hp]
  rfl

theorem boundaryPeers (s : State) : s.KeepsList s.boundaryPeers := (agePeers s).trans (foldl expirePeer _ _)

theorem boundaryCadence (s : State) : s.KeepsList s.boundaryCadence :=
  setLink (Link.tickCadence_keeps _ _) (.tickCadence _ _)

theorem clearInputs (s : State) : s.KeepsList s.clearInputs := of_eq rfl rfl rfl

theorem boundaryRun (s : State) : s.KeepsList s.boundaryRun := by
  have hworked : s.KeepsList s.boundaryWorked :=
    (boundaryBuilt s).trans ((setRdu _ _).trans ((boundaryClaims _).trans (boundaryPeers _)))
  rw [State.boundaryRun_eq]
  refine arbitrate (trans ?_ (clearInputs _))
  split
  · exact hworked.trans (boundaryCadence _)
  · exact hworked

end State.KeepsList

/-! ### The commands -/

/-- The commands that have a part in the claims, the peers or the station's number, or that reset blocks. -/
def hasPartInClaims : Instr → Bool
  | .pinReset | .start | .restart | .setConfig .. | .claim .. | .release .. | .tune .. | .seek .. | .announceEnable ..
  | .lostContention | .bitError | .attemptCompletion | .frameReceived .. | .bitErrorIsolation | .noIdleIsolation
  | .blockBoundary | .joiningComplete | .presenceDue | .probeDue | .peerExpiry .. | .windowExpiry | .bidAgeOut ..
  | .diversitySwap | .probeSwap | .receptionHoldExpiry | .frontEndReport .. | .scanPassEnd => true
  | _ => false

theorem State.reenableDue_cle (s : State) : s.reenableDue.cle = s.cle := by
  have h : ∀ (l : List BridgeNo) (x : State), (l.foldl State.reenable x).cle = x.cle := by
    intro l
    induction l with
    | nil => exact fun _ => rfl
    | cons i l ih => exact fun x => ih (x.reenable i)
  exact h _ s

/-- A command with no part in the claims leaves the Claim Engine alone. -/
theorem exec_cle_of_no_part {c : Instr} {s t : State} (hc : hasPartInClaims c = false) (h : exec c s = .next t) :
    t.cle = s.cle := by
  cases c <;> first
    | exact Bool.noConfusion (show true = false from hc)
    | skip
  case sampleInstant => cases h; exact s.reenableDue_cle
  all_goals
    simp only [exec, execReadConfig, execSetLevel, execApplyLevels, execLevelsApplied, execSetSource, execPublish,
      execUnpublish, execScan, execFaultAck, execReadStatus, execReadView, execReadClaims, execReadStations,
      execReadLineError, execTakeNotice, execMalformedRequest, execDiscardedTransaction, execReadTransaction,
      execStartOfFrame, execLineIdle, execBrokenOffFrame, execStreamStarved, execCallLossExpiry, execSlip,
      execRepeatFrame, execReleaseIntervalStep, execCrossfade, execAfTimerExpiry, execMicSwitch, execHangTimerExpiry,
      execThermalDerateStep, execCalmDerateStep, execDcAsserted, execOcHistoryExpiry, execFaultSourceAsserted,
      execFaultSourceDeasserted, execBridgeReenable, execPwmPeriod] at h
    (repeat' split at h) <;> (cases h; rfl)

/-- A command with no part in the claims keeps the claim list. -/
theorem exec_keepsList_of_no_part {c : Instr} {s t : State} (hc : hasPartInClaims c = false) (h : exec c s = .next t) :
    s.KeepsList t := by
  have hcle := exec_cle_of_no_part hc h
  cases hs : special c with
  | true =>
    refine exec_special (P := fun c s t => hasPartInClaims c = false → t.cle = s.cle → s.KeepsList t) s c hs ?pinReset
      ?start ?restart ?setConfig ?scan ?announceEnable ?takeNotice ?readLineError ?discarded ?readTransaction
      ?frameReceived t h hc hcle
    case pinReset | start | restart | setConfig | announceEnable | frameReceived => intros; contradiction
    case scan =>
      intro on t h _ hcle
      simp only [exec_scan, execScan] at h
      (repeat' split at h) <;> cases h <;> exact .of_eq rfl hcle rfl
    case takeNotice =>
      intro t h _ hcle
      simp only [exec_takeNotice, execTakeNotice] at h
      (repeat' split at h) <;> cases h <;> exact .of_eq rfl hcle rfl
    case readLineError => intro t h _ hcle; cases h; exact .of_eq rfl hcle rfl
    case discarded => intro _ t h _ hcle; cases h; exact .of_eq rfl hcle rfl
    case readTransaction => intro _ t h _ hcle; cases h; exact .of_eq rfl hcle rfl
  | false =>
    cases hr : isRequest c with
    | true =>
      obtain ⟨u, st, d, hu, hk⟩ := exec_request c s hr hs
      rw [hu] at h
      cases h
      exact (State.KeepsList.of_keeps hk hcle).answer st d
    | false =>
      obtain ⟨u, hu, hk⟩ := exec_event c s hr hs
      rw [hu] at h
      cases h
      exact .of_keeps hk hcle

/-! ### A received frame (R9, R32, R33, R54 to R56) -/

/-- A frame that can be sent lists four claims at most. -/
theorem FrameBody.held_length_of_wf {p : StationNo} {f : PresenceFrame} (h : (FrameBody.presence f).wf p) :
    f.held.length ≤ 4 := by
  obtain ⟨_, _, _, hheld, _⟩ := h
  exact hheld

/-- A frame of a peer leaves a good claim list good. -/
theorem GoodLink.hearFrame {k : Link} {env : Env} {p : StationNo} {b : FrameBody} (g : GoodLink env.own k)
    (hp : p ≠ env.own) (hb : b.wf p) : GoodLink env.own (k.hearFrame env p b) := by
  cases b with
  | sound f => exact g
  | claim f =>
    cases f with
    | bid n x => exact g.hearBid env p n x
    | hold n x => exact g.hearHold env p n x
    | release n => exact g.hearRelease p n
  | presence f => exact g.hearPresence env hp (FrameBody.held_length_of_wf hb)

/-- A delivered frame keeps the claim list: in CONFIG nothing is delivered. -/
theorem State.KeepsList.deliver (s : State) (p : StationNo) {b : FrameBody} (hb : b.wf p) :
    s.KeepsList (s.deliver p b) := by
  cases hc : s.inConfig with
  | true => rw [State.deliver_inConfig hc]; exact refl s
  | false =>
    have hlife : s.cle.lifecycle ≠ .config := by simpa [State.inConfig] using hc
    by_cases hp : p = s.own
    · rw [State.deliver_own hc hp]
      exact of_keeps (.of_raised rfl rfl (.raise _ _) rfl) rfl
    · have hheard : s.KeepsList (s.setLink (s.link.hearFrame s.env p b)) :=
        setLink (Link.hearFrame_keeps _ _ _ _) (.of_not_config (fun g => GoodLink.hearFrame (env := s.env) g hp hb) hlife)
      unfold State.deliver
      rw [if_neg (by rw [hc]; decide), if_neg hp]
      cases b with
      | sound f =>
        have hkeeps : s.Keeps (s.hearSound f) := ⟨.refl _, .raiseAll _ _, Iff.rfl, rfl⟩
        exact ⟨hkeeps.own, .of_not_config (fun g => ⟨g.list, g.queue⟩) hlife⟩
      | claim f => exact hheard
      | presence f => exact hheard

theorem exec_frameReceived_keepsList {f : LineFrame} {s t : State} (h : exec (.frameReceived f) s = .next t) :
    s.KeepsList t := by
  cases ha : acceptFrame s.lif.latch f with
  | none =>
    rw [exec_frameReceived_discarded ha] at h
    cases h
    cases s.lif.errorRecord with
    | some r => exact .of_eq rfl rfl rfl
    | none =>
      exact .trans (t := { s with cpt := s.cpt.raise _ }) (.of_keeps (.of_raised rfl rfl (.raise _ _) rfl) rfl)
        (.of_eq rfl rfl rfl)
  | some b =>
    rw [exec_frameReceived_accepted ha] at h
    cases h
    have hwf : b.wf (keyStation f.key) := ((acceptedFramesAreTheSentOnes _ _ _).mp ha).2.1
    exact (State.KeepsList.trans (t := { s with lif := s.lif.takeLatch f.sense })
      (.of_eq (Lif.takeLatch_queue _ _) rfl rfl) (.deliver _ _ hwf)).arbitrate

/-! ### The other commands with a part in the claims -/

theorem exec_bidAgeOut_keepsList {p : StationNo} {n : Serial} {s t : State} (h : exec (.bidAgeOut p n) s = .next t) :
    s.KeepsList t := by
  simp only [exec_bidAgeOut, execBidAgeOut] at h
  split at h <;> cases h
  · refine ⟨rfl, fun g => g.setClaims (g.list.erase _), fun hl hc => ⟨hl, ?_, fun _ => id⟩⟩
    show eraseClaim _ s.link.cle.claims = []
    rw [hc]
    rfl
  · exact .refl s

/-- Every command but PIN_RESET, START, RESTART and SET_CONFIG keeps the claim list. -/
theorem exec_keepsList {c : Instr} {s t : State} (hc : c ≠ .pinReset ∧ c ≠ .start ∧ c ≠ .restart ∧
    ∀ i j v, c ≠ .setConfig i j v) (h : exec c s = .next t) : s.KeepsList t := by
  obtain ⟨hpin, hstart, hrestart, hset⟩ := hc
  cases hp : hasPartInClaims c with
  | false => exact exec_keepsList_of_no_part hp h
  | true =>
    cases c <;> first
      | exact Bool.noConfusion (show false = true from hp)
      | skip
    case pinReset => exact absurd rfl hpin
    case start => exact absurd rfl hstart
    case restart => exact absurd rfl hrestart
    case setConfig => exact absurd rfl (hset _ _ _)
    case claim =>
      cases h
      exact ((State.KeepsList.setLink (Link.claimRequest_keeps _ _ _ _ _ _) (.claimRequest _ s.env _ _ _ _)).answer
        _ _).arbitrate
    case release =>
      cases h
      exact ((State.KeepsList.setLink (Link.releaseRequest_keeps _ _ _) (.releaseRequest _ _ _)).answer _ _).arbitrate
    case frameReceived => exact exec_frameReceived_keepsList h
    case bidAgeOut => exact exec_bidAgeOut_keepsList h
    case blockBoundary =>
      simp only [exec_blockBoundary, execBlockBoundary] at h
      cases h
      split
      · exact .of_keeps s.boundaryConfig_keeps rfl
      · exact .boundaryRun s
    case peerExpiry =>
      simp only [exec_peerExpiry, execPeerExpiry] at h
      split at h <;> cases h
      · exact .expirePeer s _
      · exact .refl s
    case lostContention =>
      simp only [exec_lostContention, execLostContention] at h
      split at h <;> cases h
      · exact .setLink (Link.attemptLost_keeps _ _ _) (.attemptLost _ _ _)
      · exact .refl s
    case bitError =>
      simp only [exec_bitError, execBitError] at h
      split at h <;> cases h
      · exact .setLink (Link.attemptBitError_keeps _ _ _) (.attemptBitError _ _ _)
      · exact .refl s
    case attemptCompletion =>
      simp only [exec_attemptCompletion, execAttemptCompletion] at h
      split at h <;> cases h
      · exact .setLink (Link.attemptCompleted_keeps _ _ _) (.attemptCompleted _ _ _)
      · exact .refl s
    case bitErrorIsolation =>
      simp only [exec_bitErrorIsolation, execBitErrorIsolation] at h
      (repeat' split at h) <;> cases h
      · exact .setLink (Link.attemptBitError_keeps _ _ _) (.attemptBitError _ _ _)
      all_goals exact .refl s
    case noIdleIsolation =>
      simp only [exec_noIdleIsolation, execNoIdleIsolation] at h
      split at h <;> cases h
      · exact .setLink (Link.checkNoIdle_keeps _ _) (.checkNoIdle _ _)
      · exact .refl s
    case windowExpiry =>
      simp only [exec_windowExpiry, execWindowExpiry] at h
      split at h <;> cases h
      · exact (State.KeepsList.setLink (Link.tickWindow_keeps _ _) (.tickWindow _ _)).arbitrate
      · exact .refl s
    case joiningComplete | presenceDue | probeDue =>
      simp only [exec_joiningComplete, execJoiningComplete, exec_presenceDue, execPresenceDue, exec_probeDue,
        execProbeDue] at h
      split at h <;> cases h
      · exact (State.KeepsList.boundaryCadence s).arbitrate
      · exact .refl s
    case tune | seek | announceEnable =>
      simp only [exec_tune, execTune, exec_seek, execSeek, exec_announceEnable, execAnnounceEnable] at h
      (repeat' split at h) <;> cases h
      all_goals first
        | exact ((State.KeepsList.setRdu s _).answer _ _).arbitrate
        | exact .of_eq rfl rfl rfl
    case frontEndReport | receptionHoldExpiry =>
      simp only [exec_frontEndReport, execFrontEndReport, exec_receptionHoldExpiry, execReceptionHoldExpiry] at h
      split at h <;> cases h
      · exact (State.KeepsList.setRdu s _).arbitrate
      · exact .refl s
    case scanPassEnd | diversitySwap | probeSwap =>
      simp only [exec_scanPassEnd, execScanPassEnd, exec_diversitySwap, execDiversitySwap, exec_probeSwap,
        execProbeSwap] at h
      split at h <;> cases h
      · exact .setRdu s _
      · exact .refl s

/-! ### The invariant -/

/-- A good claim list beside a bounded queue, and no claim in CONFIG. -/
structure State.ListGood (s : State) : Prop where
  link : GoodLink s.own s.link
  config : s.inConfig = true → s.cle.claims = []

/-- The invariant is what the four properties of the obligation say together. -/
theorem State.listGood_iff {s : State} :
    s.ListGood ↔ QueueBounded s ∧ ClaimsBounded s ∧ ClaimsOrdered s ∧ OneBid s := by
  constructor
  · rintro ⟨⟨⟨hnames, hfour, hbids, hordered, hone⟩, hqueue⟩, hconfig⟩
    exact ⟨hqueue, ⟨hnames, hfour, hbids, hconfig⟩, hordered, hone⟩
  · rintro ⟨hqueue, ⟨hnames, hfour, hbids, hconfig⟩, hordered, hone⟩
    exact ⟨⟨⟨hnames, hfour, hbids, hordered, hone⟩, hqueue⟩, hconfig⟩

theorem State.lifecycle_of_inConfig {s : State} (h : s.inConfig = true) : s.link.cle.lifecycle = .config := by
  have h : (s.link.cle.lifecycle == .config) = true := h
  exact eq_of_beq h

/-- Whoever keeps the claim list keeps the invariant, where CONFIG is not entered. -/
theorem State.KeepsList.listGood {s t : State} (h : s.KeepsList t) (hcfg : t.inConfig = true → s.inConfig = true)
    (hs : s.ListGood) : t.ListGood := by
  refine ⟨h.own ▸ h.list.good hs.link, fun ht => ?_⟩
  have hs' := hcfg ht
  exact (h.list.config (State.lifecycle_of_inConfig hs') (hs.config hs')).2.1

/-- The same of the quiet of CONFIG. -/
theorem State.KeepsList.configQuiet {s t : State} (h : s.KeepsList t) (hcfg : t.inConfig = true → s.inConfig = true)
    (hs : ConfigQuiet s) : ConfigQuiet t := by
  intro ht
  have hs' := hcfg ht
  obtain ⟨hclaims, hpeers⟩ := hs hs'
  obtain ⟨_, hclaims', hpeers'⟩ := h.list.config (State.lifecycle_of_inConfig hs') hclaims
  exact ⟨hclaims', fun p => hpeers' p (hpeers p)⟩

/-- No command but PIN_RESET enters CONFIG. -/
theorem exec_inConfig {c : Instr} {s t : State} (hc : c ≠ .pinReset) (h : exec c s = .next t) (ht : t.inConfig = true) :
    s.inConfig = true := by
  by_contra hs
  have := ((onlyPinResetUndoes c s t hc h).1 (by simpa using hs)).2.2
  rw [ht] at this
  cases this

/-- A station without claims whose queue is bounded meets the invariant. -/
theorem State.ListGood.of_nil {s : State} (hc : s.cle.claims = []) (hq : s.lif.queue.length ≤ Config.queueCapacity) :
    s.ListGood := ⟨⟨by show GoodList s.own s.cle.claims; rw [hc]; exact .nil _, hq⟩, fun _ => hc⟩

/-- START, RESTART and SET_CONFIG change the Claim Engine at most by leaving CONFIG. -/
theorem exec_cle_of_lifecycle_request {c : Instr} {s t : State}
    (hc : c = .start ∨ c = .restart ∨ ∃ i j v, c = .setConfig i j v) (h : exec c s = .next t)
    (ht : t.inConfig = true) : t.cle = s.cle := by
  rcases hc with rfl | rfl | ⟨i, j, v, rfl⟩
  all_goals
    simp only [exec_start, execStart, exec_restart, execRestart, exec_setConfig, execSetConfig] at h
    (repeat' split at h) <;> cases h
    all_goals first
      | rfl
      | exact absurd ht Bool.false_ne_true

/-- START, RESTART and SET_CONFIG keep the invariant. -/
theorem exec_listGood_of_lifecycle_request {c : Instr} {s t : State}
    (hc : c = .start ∨ c = .restart ∨ ∃ i j v, c = .setConfig i j v) (hs : s.ListGood) (h : exec c s = .next t) :
    t.ListGood := by
  have hrefused (st : Status) (d : List Byte) : (s.answer st d).ListGood :=
    ⟨⟨hs.link.list, hs.link.queue⟩, hs.config⟩
  rcases hc with rfl | rfl | ⟨i, j, v, rfl⟩
  · simp only [exec_start, execStart] at h
    (repeat' split at h) <;> cases h
    · exact hrefused _ _
    · have hnil : s.cle.claims = [] := hs.config ‹_›
      exact .of_nil hnil hs.link.queue
    · exact hrefused _ _
  · simp only [exec_restart, execRestart] at h
    split at h <;> cases h
    · exact hrefused _ _
    · exact .of_nil rfl (Nat.zero_le _)
  · simp only [exec_setConfig, execSetConfig] at h
    (repeat' split at h) <;> cases h
    · exact .of_nil (hs.config ‹_›) hs.link.queue
    all_goals exact hrefused _ _

theorem exec_listGood {c : Instr} {s t : State} (hs : s.ListGood) (h : exec c s = .next t) : t.ListGood := by
  by_cases hpin : c = .pinReset
  · subst hpin; cases h; exact .of_nil rfl (Nat.zero_le _)
  by_cases hreq : c = .start ∨ c = .restart ∨ ∃ i j v, c = .setConfig i j v
  · exact exec_listGood_of_lifecycle_request hreq hs h
  · push Not at hreq
    exact (exec_keepsList ⟨hpin, hreq⟩ h).listGood (exec_inConfig hpin h) hs

theorem exec_configQuiet {c : Instr} {s t : State} (hs : ConfigQuiet s) (h : exec c s = .next t) : ConfigQuiet t := by
  by_cases hpin : c = .pinReset
  · subst hpin; cases h; exact fun _ => ⟨rfl, Tbl.get_fill _⟩
  by_cases hreq : c = .start ∨ c = .restart ∨ ∃ i j v, c = .setConfig i j v
  · intro ht
    rw [exec_cle_of_lifecycle_request hreq h ht]
    exact hs (exec_inConfig hpin h ht)
  · push Not at hreq
    exact (exec_keepsList ⟨hpin, hreq⟩ h).configQuiet (exec_inConfig hpin h) hs

/-- Settles O8: every command keeps a good claim list beside a bounded queue, and the quiet of CONFIG. -/
theorem claimListKept : Obligations.ClaimListKept := by
  unfold Obligations.ClaimListKept
  intro s t h
  refine ⟨fun hq hb ho h1 => ?_, fun hs => ?_⟩
  · have ht : t.ListGood := step_keeps (fun _ _ g => ⟨⟨g.link.list, g.link.queue⟩, g.config⟩)
      (fun _ _ _ => exec_listGood) s t (State.listGood_iff.mpr ⟨hq, hb, ho, h1⟩) h
    exact (State.listGood_iff.mp ht).2
  · exact step_keeps (fun _ _ g => g) (fun _ _ _ => exec_configQuiet) s t hs h

end Sys2Proof.Machine
end

section
/-! PROOF. Conflicts, keys and serials of claims (R39, R41, R43). -/

namespace Sys2Proof.Machine

open Sys2Proof

/-! ### Conflicts (R41) -/

/-- Two zone sets share a zone exactly where one zone is in both. -/
theorem zonesShare_iff (a b : ZoneSet) : zonesShare a b = true ↔ ∃ z : Zone, zoneIn a z = true ∧ zoneIn b z = true := by
  have hbit : zonesShare a b = true ↔ ∃ i, i < 5 ∧ (a &&& b).getLsbD i = true := by
    rw [zonesShare, bne_iff_ne]
    constructor
    · intro h
      by_contra hnone
      push Not at hnone
      refine h (BitVec.eq_of_getLsbD_eq fun i hi => ?_)
      simpa using hnone i hi
    · rintro ⟨i, _, hi⟩ h
      rw [h] at hi
      simp at hi
  rw [hbit]
  constructor
  · rintro ⟨i, hi, hset⟩
    obtain ⟨z, rfl⟩ : ∃ z : Zone, z.code = i := by
      interval_cases i
      exacts [⟨.drv, rfl⟩, ⟨.pas, rfl⟩, ⟨.rl, rfl⟩, ⟨.rr, rfl⟩, ⟨.trw, rfl⟩]
    exact ⟨z, by simpa [zoneIn] using hset⟩
  · rintro ⟨z, ha, hb⟩
    exact ⟨z.code, by cases z <;> decide, by simpa [zoneIn] using And.intro ha hb⟩

/-- Two kinds are exclusive and equal exactly where both are CALL or both PRIVATE. -/
theorem exclusive_and_eq_iff (k m : ClaimKind) :
    k.exclusive = true ∧ k = m ↔ k = .call ∧ m = .call ∨ k = .priv ∧ m = .priv := by
  constructor
  · rintro ⟨hk, rfl⟩
    cases k
    case call => exact .inl ⟨rfl, rfl⟩
    case priv => exact .inr ⟨rfl, rfl⟩
    all_goals cases hk
  · rintro (⟨rfl, rfl⟩ | ⟨rfl, rfl⟩) <;> exact ⟨rfl, rfl⟩

/-- Settles O32: a conflict is the conjunction of R41. -/
theorem conflictNeedsAllThree : Obligations.ConflictNeedsAllThree := by
  unfold Obligations.ConflictNeedsAllThree
  intro a b
  rw [← zonesShare_iff, ← exclusive_and_eq_iff]
  simp only [conflicts, Bool.and_eq_true, bne_iff_ne, beq_iff_eq, and_assoc]

/-! ### Keys and serials (R39, R43) -/

/-- No frame of the queue, nor beside it, carries a serial that is not busy. -/
theorem Lif.not_busySerial_iff {l : Lif} {n : Serial} : l.busySerial n = false ↔ (∀ f ∈ l.queue, f.serial ≠ n) ∧
    (∀ f, l.besideClaim = some f → f.serial ≠ n) ∧ ∀ f, l.besideBid = some f → f.serial ≠ n := by
  simp only [Lif.busySerial, Bool.or_eq_false_iff, List.any_eq_false, Option.any_eq_false, beq_iff_eq, and_assoc,
    beq_eq_false_iff_ne, ne_eq]

/-- Settles O33: keys are urgency, then station; and the serial that the search finds is not busy. -/
theorem claimKeysAndSerialsTellClaimsApart : Obligations.ClaimKeysAndSerialsTellClaimsApart := by
  unfold Obligations.ClaimKeysAndSerialsTellClaimsApart
  refine ⟨fun a b => ?keys, fun s hq hc => ?serials⟩
  case keys =>
    simp only [keyBetter_iff, keyBetter_false_iff, Fin.lt_def, Fin.ext_iff, ne_eq]
    refine ⟨?_, ?_, ?_, ?_⟩ <;> omega
  case serials =>
    obtain ⟨_, hfour, _, _⟩ := hc
    have hfree := nextSerial_free (k := s.link) (own := s.own) hq (hfour s.own)
    refine ⟨fun c hmem hname => not_busy_claim hfree (List.mem_map.mpr ⟨c, hmem, hname⟩), ?_⟩
    simp only [Link.busySerial, Bool.or_eq_false_iff] at hfree
    exact Lif.not_busySerial_iff.mp hfree.2

end Sys2Proof.Machine
end

section
/-! PROOF. The requests CLAIM and RELEASE (R44 to R48), with what they do to the claim-frame queue (R13 to R15) and to a
presence that waits (R30). -/

namespace Sys2Proof.Machine

open Sys2Proof

/-! ### A claim frame queued, and an attempt that may begin -/

/-- Two changes of the claim frames, the presence slot and an attempt that begins are one. -/
theorem LifFrame.trans {l m n : Lif} (h : LifFrame l m) (k : LifFrame m n) : LifFrame l n := by
  unfold LifFrame at *
  rw [k, h]

theorem LifFrame.addClaim (l : Lif) (f : ClaimFrame) (re : Bool) : LifFrame l (l.addClaim f re) := by
  unfold LifFrame
  rw [Lif.addClaim_frame]

theorem LifFrame.dropBid (l : Lif) (n : Serial) : LifFrame l (l.dropBid n) := by
  unfold LifFrame
  rw [Lif.dropBid_frame]

theorem LifFrame.arbitrate (l : Lif) (lc : Lifecycle) : LifFrame l (l.arbitrate lc) := by
  unfold LifFrame
  rw [Lif.arbitrate_frame]

theorem LifFrame.recompose (k : Link) (env : Env) : LifFrame k.lif (k.recompose env).lif := by
  obtain ⟨_, hlif, _⟩ := k.recompose_frame env
  unfold LifFrame
  rw [hlif]

@[simp] theorem Lif.addClaim_presence (l : Lif) (f : ClaimFrame) : (l.addClaim f).presence = l.presence := by
  rw [Lif.addClaim_frame]

@[simp] theorem Lif.dropBid_presence (l : Lif) (n : Serial) : (l.dropBid n).presence = l.presence := by
  rw [Lif.dropBid_frame]

/-- An attempt that begins leaves the presence slot. -/
theorem Lif.arbitrate_presence (l : Lif) (lc : Lifecycle) : (l.arbitrate lc).presence = l.presence := by
  rw [Lif.arbitrate_frame]

/-- An attempt that begins leaves the claim frames placed. -/
theorem Placed.arbitrate {l m : Lif} {f : ClaimFrame} {re : Bool} (h : Placed l f re m) (lc : Lifecycle) :
    Placed l f re (m.arbitrate lc) :=
  h.congr_lif (by rw [Lif.arbitrate_frame]) (by rw [Lif.arbitrate_frame]) (by rw [Lif.arbitrate_frame])
    (fun x hx => m.arbitrate_flight lc x hx)

/-- An attempt that begins leaves a BID dropped. -/
theorem BidDropped.arbitrate {l m : Lif} {n : Serial} (h : BidDropped l n m) (lc : Lifecycle) :
    BidDropped l n (m.arbitrate lc) :=
  h.congr_lif (by rw [Lif.arbitrate_frame]) (by rw [Lif.arbitrate_frame]) (by rw [Lif.arbitrate_frame])
    (fun x hx => m.arbitrate_flight lc x hx)

/-- A new claim frame is placed by R13 to R15. -/
theorem Placed.addClaim (l : Lif) (f : ClaimFrame) : Placed l f false (l.addClaim f) := l.addClaim_placed f false nofun

/-- A composition leaves the claim frames placed. -/
theorem Placed.recompose {l : Lif} {k : Link} {f : ClaimFrame} {re : Bool} (h : Placed l f re k.lif) (env : Env) :
    Placed l f re (k.recompose env).lif := by
  obtain ⟨_, hlif, _⟩ := k.recompose_frame env
  exact h.congr_lif (by rw [hlif]) (by rw [hlif]) (by rw [hlif]) (by rw [hlif]; exact fun _ hx => hx)

/-- The blocks `k` of a request, its claim frame queued and an attempt begun where one is due. -/
structure State.Queued (s : State) (k : Link) (f : ClaimFrame) (t : State) : Prop where
  placed : Placed k.lif f false t.lif
  frame : LifFrame k.lif t.lif
  presence : t.lif.presence = k.lif.presence
  rest : t = { s with lif := t.lif, cle := k.cle, cpt := k.cpt }

theorem State.setLink_queue_queued (s : State) (k : Link) (f : ClaimFrame) :
    s.Queued k f (s.setLink (k.queue f)).arbitrate where
  placed := (Placed.addClaim k.lif f).arbitrate _
  frame := (LifFrame.addClaim k.lif f false).trans (.arbitrate _ _)
  presence := (Lif.arbitrate_presence _ _).trans (k.lif.addClaim_presence f)
  rest := rfl

/-- The blocks `k` of a change of the own HELD claims, its claim frame queued, a presence that waits composed again and
an attempt begun where one is due. -/
structure State.Requeued (s : State) (k : Link) (f : ClaimFrame) (t : State) : Prop where
  placed : Placed s.lif f false t.lif
  frame : LifFrame s.lif t.lif
  recomposed : Recomposed s t
  rest : t = { s with
    lif := t.lif
    cle := { k.cle with peers := s.cle.peers.set s.own (t.cle.peers.get s.own) }
    cpt := k.cpt }

theorem State.Requeued.cpt_eq {s : State} {k : Link} {f : ClaimFrame} {t : State} (h : s.Requeued k f t) :
    t.cpt = k.cpt := by
  rw [h.rest]

theorem State.setLink_recompose_requeued {s : State} {k : Link} (f : ClaimFrame) (hlif : k.lif = s.lif)
    (hpeers : k.cle.peers = s.cle.peers) (hlife : k.cle.lifecycle = s.cle.lifecycle)
    (hstore : k.cpt.store = s.cpt.store) :
    s.Requeued k f (s.setLink ((k.queue f).recompose s.env)).arbitrate := by
  obtain ⟨hcpt, _, hcle⟩ := (k.queue f).recompose_frame s.env
  have hframe : LifFrame s.lif (k.queue f).lif := hlif ▸ .addClaim k.lif f false
  have hpresence : (k.queue f).lif.presence = s.lif.presence := hlif ▸ k.lif.addClaim_presence f
  have hflight : (k.queue f).lif.flight = s.lif.flight := hlif ▸ (k.lif.addClaim_flight f false).1
  refine ⟨?placed, (hframe.trans (.recompose _ _)).trans (.arbitrate _ _), ?recomposed, ?rest⟩
  case placed => exact ((hlif ▸ Placed.addClaim k.lif f : Placed s.lif f false (k.queue f).lif).recompose s.env).arbitrate _
  case recomposed =>
    refine Link.recompose_recomposed s _ (k.queue f) hpresence hflight (congrArg (fun p => p.get s.own) hpeers) hlife
      ?_ rfl rfl ?_
    · exact Lif.arbitrate_presence _ _
    · show ((k.queue f).recompose s.env).cpt.store = _
      rw [hcpt]
      exact hstore
  case rest =>
    have hcle : ((k.queue f).recompose s.env).cle = { k.cle with
        peers := s.cle.peers.set s.own (((k.queue f).recompose s.env).cle.peers.get s.own) } := by
      rw [← hpeers]
      exact hcle
    unfold State.arbitrate State.setLink
    dsimp only
    rw [← hcle, hcpt]
    rfl

/-! ### The arguments of a CLAIM (R44) -/

/-- The arguments are those of claim fields exactly where they are the bytes that ask for them (R210). -/
theorem claimArguments_eq_some {kind urgency zones : Byte} {ref : Option Byte} {f : ClaimFields} :
    claimArguments kind urgency zones ref = some f ↔
      kind = BitVec.ofNat 8 f.kind.code ∧ urgency = BitVec.ofNat 8 f.urgency.val ∧ zones = f.zones.setWidth 8 ∧
        ref = f.ref.map (fun n => BitVec.ofNat 8 n.val) ∧ f.wf = true := by
  have href (r : Option StreamNo) : ((match ref with
      | none => some none
      | some b => (finOfByte 16 b).map some) = some r) ↔ ref = r.map (fun n => BitVec.ofNat 8 n.val) := by
    cases ref with
    | none => cases r <;> simp
    | some b => cases r <;> simp [finOfByte_eq_some (show 16 ≤ 256 by decide)]
  simp only [claimArguments, Option.bind_eq_bind, Option.bind_eq_some_iff, ClaimKind.ofByte_eq_some,
    finOfByte_eq_some (show 4 ≤ 256 by decide), zonesOfByte_eq_some, ClaimFields.wf, Bool.and_eq_true, bne_iff_ne,
    Option.ite_none_right_eq_some, Option.some.injEq]
  constructor
  · rintro ⟨k, hk, u, hu, z, hz, r, hr, hgood, rfl⟩
    exact ⟨hk, hu, hz, (href r).mp hr, hgood⟩
  · rintro ⟨hk, hu, hz, hr, hgood⟩
    exact ⟨_, hk, _, hu, _, hz, _, (href _).mpr hr, hgood, rfl⟩

/-- Arguments out of their ranges ask for no claim. -/
theorem claimArguments_eq_none {kind urgency zones : Byte} {ref : Option Byte}
    (h : 4 < kind.toNat ∨ 3 < urgency.toNat ∨ zones = 0 ∨ 31 < zones.toNat ∨ (kind.toNat ≤ 1 ∧ ref = none) ∨
      (kind = 4 ∧ ref ≠ none) ∨ (∃ r, ref = some r ∧ 15 < r.toNat)) :
    claimArguments kind urgency zones ref = none := by
  rw [Option.eq_none_iff_forall_ne_some]
  intro f hf
  obtain ⟨rfl, rfl, rfl, rfl, hwf⟩ := claimArguments_eq_some.mp hf
  obtain ⟨k, u, z, r⟩ := f
  simp only [ClaimFields.wf, Bool.and_eq_true, bne_iff_ne] at hwf
  obtain ⟨hzones, hfits⟩ := hwf
  rcases h with h | h | h | h | h | h | h
  · cases k <;> simp [ClaimKind.code] at h
  · have := u.isLt
    simp only [BitVec.toNat_ofNat] at h
    omega
  · exact hzones (Option.some.inj ((zonesOfByte_eq_some.mpr h.symm).symm.trans rfl))
  · have := z.isLt
    simp only [BitVec.toNat_setWidth] at h
    omega
  · obtain ⟨hk, href⟩ := h
    rw [Option.map_eq_none_iff] at href
    subst href
    cases k
    case call | priv => cases hfits
    all_goals simp [ClaimKind.code] at hk
  · obtain ⟨hk, href⟩ := h
    rw [ne_eq, Option.map_eq_none_iff] at href
    cases k
    case quiet => exact href (Option.isNone_iff_eq_none.mp hfits)
    all_goals simp [ClaimKind.code] at hk
  · obtain ⟨b, hb, hlt⟩ := h
    obtain ⟨n, -, rfl⟩ := Option.map_eq_some_iff.mp hb
    have := n.isLt
    simp only [BitVec.toNat_ofNat] at hlt
    omega

/-! ### CLAIM refused (R44 to R46) -/

/-- The result of a request to the Claim Engine is answered, and an attempt begins where one is due. -/
theorem exec_claim_of_request {s : State} {kind urgency zones : Byte} {ref : Option Byte} {st : Status} {d : List Byte}
    {k : Link} (h : s.link.claimRequest s.env kind urgency zones ref = (st, d, k)) :
    exec (.claim kind urgency zones ref) s = .next ((s.setLink k).answer st d).arbitrate := by
  simp only [exec_claim, execClaim, h]

/-- A conflict of a CLAIM for these fields with a HELD claim. -/
def Link.MeetsConflict (k : Link) (own : StationNo) (f : ClaimFields) : Prop :=
  ∃ c ∈ k.cle.claims, c.isHeld = true ∧ conflicts c ⟨⟨own, 0⟩, f, .held, none⟩ = true

/-- What CLAIM asks of the Claim Engine for these fields. -/
def Link.claimFor (k : Link) (env : Env) (f : ClaimFields) : Status × List Byte × Link :=
  k.claimRequest env (BitVec.ofNat 8 f.kind.code) (BitVec.ofNat 8 f.urgency.val) (f.zones.setWidth 8)
    (f.ref.map (fun n => BitVec.ofNat 8 n.val))

theorem exec_claimCommand {s : State} {f : ClaimFields} {st : Status} {d : List Byte} {k : Link}
    (h : s.link.claimFor s.env f = (st, d, k)) :
    exec (claimCommand f) s = .next ((s.setLink k).answer st d).arbitrate := exec_claim_of_request h

section
variable {k : Link} {env : Env} {f : ClaimFields}

theorem Link.claimRequest_of_not_active {kind urgency zones : Byte} {ref : Option Byte}
    (hl : k.cle.lifecycle ≠ .active) : k.claimRequest env kind urgency zones ref = (.notReady, [], k) := by
  unfold Link.claimRequest
  rw [if_pos hl]

theorem Link.claimRequest_of_no_fields {kind urgency zones : Byte} {ref : Option Byte}
    (hl : k.cle.lifecycle = .active) (h : claimArguments kind urgency zones ref = none) :
    k.claimRequest env kind urgency zones ref = (.badArgument, [], k) := by
  unfold Link.claimRequest
  rw [if_neg (not_not.mpr hl), h]

/-- The fields of a CLAIM that are well formed are read, and only an exclusive kind is held to conflicts. -/
theorem Link.claimFor_eq (hl : k.cle.lifecycle = .active) (hf : f.wf = true) : k.claimFor env f =
    if f.kind.exclusive = true then
      if k.cle.claims.any (fun c => c.isHeld && conflicts c ⟨⟨env.own, 0⟩, f, .held, none⟩) then (.conflict, [], k)
      else if 4 ≤ (claimsOf env.own k.cle.claims).length then (.limit, [], k)
      else (.accepted, [(k.startBid env f .port).cle.serialCounter - 1], k.startBid env f .port)
    else if 4 ≤ (claimsOf env.own k.cle.claims).length then (.limit, [], k)
    else (.accepted, [(k.holdOverlay env f .port).cle.serialCounter - 1], k.holdOverlay env f .port) := by
  unfold Link.claimFor Link.claimRequest
  rw [if_neg (not_not.mpr hl), claimArguments_eq_some.mpr ⟨rfl, rfl, rfl, rfl, hf⟩]
  rfl

theorem Link.meetsConflict_iff : k.MeetsConflict env.own f ↔
    k.cle.claims.any (fun c => c.isHeld && conflicts c ⟨⟨env.own, 0⟩, f, .held, none⟩) = true := by
  simp only [List.any_eq_true, Bool.and_eq_true, Link.MeetsConflict]

theorem Link.claimFor_of_conflict (hl : k.cle.lifecycle = .active) (hf : f.wf = true)
    (he : f.kind.exclusive = true) (hc : k.MeetsConflict env.own f) : k.claimFor env f = (.conflict, [], k) := by
  rw [Link.claimFor_eq hl hf, if_pos he, if_pos (Link.meetsConflict_iff.mp hc)]

theorem Link.claimFor_of_full (hl : k.cle.lifecycle = .active) (hf : f.wf = true)
    (hc : ¬ k.MeetsConflict env.own f) (hr : 4 ≤ (claimsOf env.own k.cle.claims).length) :
    k.claimFor env f = (.limit, [], k) := by
  rw [Link.meetsConflict_iff] at hc
  rw [Link.claimFor_eq hl hf, if_neg hc, if_pos hr]
  split <;> rfl

theorem Link.claimFor_of_exclusive (hl : k.cle.lifecycle = .active) (hf : f.wf = true)
    (he : f.kind.exclusive = true) (hc : ¬ k.MeetsConflict env.own f)
    (hr : (claimsOf env.own k.cle.claims).length < 4) :
    k.claimFor env f = (.accepted, [(k.startBid env f .port).cle.serialCounter - 1], k.startBid env f .port) := by
  rw [Link.meetsConflict_iff] at hc
  rw [Link.claimFor_eq hl hf, if_pos he, if_neg hc, if_neg (not_le.mpr hr)]

theorem Link.claimFor_of_overlay (hl : k.cle.lifecycle = .active) (hf : f.wf = true)
    (he : f.kind.exclusive = false) (hr : (claimsOf env.own k.cle.claims).length < 4) :
    k.claimFor env f =
      (.accepted, [(k.holdOverlay env f .port).cle.serialCounter - 1], k.holdOverlay env f .port) := by
  rw [Link.claimFor_eq hl hf, if_neg (by rw [he]; decide), if_neg (not_le.mpr hr)]

end

/-- A claim that conflicts is of an exclusive kind. -/
theorem exclusive_of_conflicts {a b : Claim} (h : conflicts a b = true) : b.fields.kind.exclusive = true := by
  simp only [conflicts, Bool.and_eq_true, beq_iff_eq] at h
  obtain ⟨⟨⟨_, hexclusive⟩, hkind⟩, _⟩ := h
  rw [← hkind]
  exact hexclusive

/-- Settles O34: each refusal is its branch of R44 to R46. -/
theorem claimRefusals : Obligations.ClaimRefusals := by
  unfold Obligations.ClaimRefusals
  intro s kind urgency zones ref no mine
  refine ⟨fun hl => ?notReady, fun hl hbad => ?badArgument,
    fun hl f hf => ⟨fun ⟨c, hc, hheld, hconf⟩ => ?conflict, fun hnone hfull => ?limit⟩⟩
  case notReady => exact exec_claim_of_request (Link.claimRequest_of_not_active hl)
  case badArgument => exact exec_claim_of_request (Link.claimRequest_of_no_fields hl (claimArguments_eq_none hbad))
  case conflict =>
    exact exec_claimCommand (Link.claimFor_of_conflict hl hf (exclusive_of_conflicts hconf) ⟨c, hc, hheld, hconf⟩)
  case limit =>
    refine exec_claimCommand (Link.claimFor_of_full hl hf ?_ hfull)
    rintro ⟨c, hc, hheld, hconf⟩
    exact absurd (hconf.symm.trans (hnone c hc hheld)) (by decide)

/-! ### An overlay claim (R45) -/

/-- Settles O35: the entry is made and its HOLD queued before the composition. -/
theorem overlayClaimIsHeldAtOnce : Obligations.OverlayClaimIsHeldAtOnce := by
  unfold Obligations.OverlayClaimIsHeldAtOnce
  intro s f hl hf he hr _ _ n
  let k : Link := (s.link.setCounter n).addOwn s.own n f .held .port
  have hq : s.Requeued k (.hold n f) (s.setLink (s.link.holdOverlay s.env f .port)).arbitrate :=
    State.setLink_recompose_requeued (k := k) _ rfl rfl rfl rfl
  have hcounter : (s.link.holdOverlay s.env f .port).cle.serialCounter - 1 = n := by
    obtain ⟨_, _, hcle⟩ := (k.queue (.hold n f)).recompose_frame s.env
    show ((k.queue (.hold n f)).recompose s.env).cle.serialCounter - 1 = n
    rw [hcle]
    exact BitVec.add_sub_cancel n 1
  have hexec := exec_claimCommand (Link.claimFor_of_overlay (k := s.link) (env := s.env) hl hf he hr)
  rw [State.answer_arbitrate, hcounter] at hexec
  have hcpt : ((s.setLink (s.link.holdOverlay s.env f .port)).arbitrate.answer .accepted [n]).cpt =
      s.cpt.answer .accepted [n] := congrArg (Cpt.answer · .accepted [n]) hq.cpt_eq
  refine ⟨_, hexec, hcpt, hq.placed, hq.frame, hq.recomposed, ?_⟩
  rw [hcpt]
  exact congrArg (fun t : State => t.answer .accepted [n]) hq.rest

/-! ### An exclusive claim (R46, R47) -/

theorem Link.searchSerial_congr {k m : Link} (own : StationNo) (hl : k.lif = m.lif) (hc : k.cle.claims = m.cle.claims)
    (n : Nat) (x : Serial) : k.searchSerial own n x = m.searchSerial own n x := by
  have hbusy (y : Serial) : k.busySerial own y = m.busySerial own y := by
    rw [Link.busySerial, Link.busySerial, hl, hc]
  induction n generalizing x with
  | zero => rfl
  | succ n ih => rw [Link.searchSerial, Link.searchSerial, hbusy, ih]

/-- The serial of the next own claim depends on the claim frames, the claim list and the counter alone. -/
theorem Link.nextSerial_congr {k m : Link} (own : StationNo) (hl : k.lif = m.lif) (hc : k.cle.claims = m.cle.claims)
    (hn : k.cle.serialCounter = m.cle.serialCounter) : k.nextSerial own = m.nextSerial own := by
  rw [Link.nextSerial, Link.nextSerial, hn]
  exact Link.searchSerial_congr own hl hc _ _

/-- A TENTATIVE claim abandoned: its entry goes, and its BID is dropped or, where that was sent, a RELEASE queued. -/
structure Link.Abandoned (k : Link) (c : Claim) (window : Option Nat) (m : Link) : Prop where
  dropped : window = none → BidDropped k.lif c.name.serial m.lif
  released : window ≠ none → Placed k.lif (.release c.name.serial) false m.lif
  frame : LifFrame k.lif m.lif
  presence : m.lif.presence = k.lif.presence
  rest : m = { k with lif := m.lif, cle := { k.cle with claims := eraseClaim c.name k.cle.claims } }

theorem Link.abandon_abandoned (k : Link) {c : Claim} {link : Bool} {window : Option Nat}
    (h : c.state = .bidding link window) : k.Abandoned c window (k.abandon c) := by
  cases window with
  | none =>
    have hm : k.abandon c = { (k.setClaims (eraseClaim c.name k.cle.claims)) with
        lif := k.lif.dropBid c.name.serial } := by
      unfold Link.abandon
      rw [h]
      rfl
    rw [hm]
    exact ⟨fun _ => k.lif.dropBid_dropped _, fun hn => absurd rfl hn, .dropBid _ _,
      k.lif.dropBid_presence _, rfl⟩
  | some w =>
    have hm : k.abandon c = (k.setClaims (eraseClaim c.name k.cle.claims)).queue (.release c.name.serial) := by
      unfold Link.abandon
      rw [h]
    rw [hm]
    exact ⟨nofun, fun _ => .addClaim _ _, .addClaim _ _ _, k.lif.addClaim_presence _, rfl⟩

/-- An attempt that begins leaves the claim abandoned. -/
theorem Link.Abandoned.arbitrate {k m : Link} {c : Claim} {window : Option Nat} (h : k.Abandoned c window m)
    (lc : Lifecycle) : k.Abandoned c window { m with lif := m.lif.arbitrate lc } where
  dropped hw := (h.dropped hw).arbitrate lc
  released hw := (h.released hw).arbitrate lc
  frame := h.frame.trans (.arbitrate _ _)
  presence := (Lif.arbitrate_presence _ _).trans h.presence
  rest := congrArg (fun x : Link => { x with lif := m.lif.arbitrate lc }) h.rest

/-- The station's blocks with an own TENTATIVE claim entered under the next serial. -/
def Link.enterBid (k : Link) (own : StationNo) (f : ClaimFields) (o : Origin) : Link :=
  let n := k.nextSerial own
  let mine : Claim := ⟨⟨own, n⟩, f, .held, none⟩
  let outbid := k.cle.claims.any (fun c => c.heardAge.isSome && conflicts c mine && keyBetter c mine)
  (k.setCounter n).addOwn own n f (.bidding (!outbid) none) o

/-- A BID begun where no own bid is under way. -/
theorem Link.startBid_of_none {k : Link} {env : Env} (f : ClaimFields) (o : Origin)
    (h : ownBidding env.own k.cle.claims = none) :
    k.startBid env f o = (k.enterBid env.own f o).queue (.bid (k.nextSerial env.own) f) := by
  unfold Link.startBid
  rw [h]
  rfl

/-- A BID begun where an own bid is under way: that one is abandoned before. -/
theorem Link.startBid_of_some {k : Link} {env : Env} {c : Claim} (f : ClaimFields) (o : Origin)
    (h : ownBidding env.own k.cle.claims = some c) :
    let m := (k.abandon c).raise (.claimResult c.name.serial .replaced)
    k.startBid env f o = (m.enterBid env.own f o).queue (.bid (m.nextSerial env.own) f) := by
  unfold Link.startBid
  rw [h]
  rfl

/-- The answer to a CLAIM that bids carries the serial taken. -/
theorem Link.enterBid_answer (k : Link) (own : StationNo) (f : ClaimFields) (o : Origin) (g : ClaimFrame) :
    ((k.enterBid own f o).queue g).cle.serialCounter - 1 = k.nextSerial own := BitVec.add_sub_cancel _ 1

/-- Settles O36: the own bid under way is abandoned, then the new one entered and its BID queued. -/
theorem exclusiveClaimBids : Obligations.ExclusiveClaimBids := by
  unfold Obligations.ExclusiveClaimBids
  intro s f hl hf he hr _ _ _ hfree bids
  have hconf : ¬ s.link.MeetsConflict s.env.own f := by
    rintro ⟨c, hc, hheld, hconf⟩
    exact absurd (hconf.symm.trans (hfree c hc hheld)) (by decide)
  have hexec := exec_claimCommand (Link.claimFor_of_exclusive (k := s.link) (env := s.env) hl hf he hconf hr)
  rw [State.answer_arbitrate] at hexec
  refine ⟨fun hnone => ?fresh, fun c link window hsome hstate => ?replacing⟩
  case fresh =>
    rw [Link.startBid_of_none f .port hnone, Link.enterBid_answer] at hexec
    have hq := s.setLink_queue_queued (s.link.enterBid s.own f .port) (.bid (s.link.nextSerial s.own) f)
    exact ⟨_, _, hexec, rfl, hq.placed, hq.frame, hq.presence, congrArg (State.answer · _ _) hq.rest⟩
  case replacing =>
    have ha := s.link.abandon_abandoned hstate
    rw [Link.startBid_of_some f .port hsome, Link.enterBid_answer] at hexec
    obtain ⟨m, hm⟩ : ∃ m, m = (s.link.abandon c).raise (.claimResult c.name.serial .replaced) := ⟨_, rfl⟩
    rw [← hm] at hexec
    have hrest : m = ⟨(s.link.abandon c).lif, { s.cle with claims := eraseClaim c.name s.cle.claims },
        s.cpt.raise (.claimResult c.name.serial .replaced)⟩ := by
      rw [hm, ha.rest]
      rfl
    have hq := s.setLink_queue_queued (m.enterBid s.own f .port) (.bid (m.nextSerial s.own) f)
    refine ⟨_, m.nextSerial s.own, (s.link.abandon c).lif, hexec, ha.dropped, ha.released, ?_⟩
    subst hrest
    exact ⟨Link.nextSerial_congr _ rfl rfl rfl, hq.placed, ha.frame.trans hq.frame, hq.presence.trans ha.presence,
      congrArg (State.answer · _ _) hq.rest⟩

/-! ### RELEASE (R48) -/

theorem exec_release_of_request {s : State} {n : Serial} {st : Status} {k : Link}
    (h : s.link.releaseRequest s.env n = (st, k)) :
    exec (.release n) s = .next ((s.setLink k).arbitrate.answer st []) := by
  simp only [exec_release, execRelease, h]
  rfl

section
variable {k : Link} {env : Env} {n : Serial} {c : Claim}

theorem Link.releaseRequest_of_not_ready (hl : k.cle.lifecycle = .config ∨ k.cle.lifecycle = .joining) :
    k.releaseRequest env n = (.notReady, k) := by
  unfold Link.releaseRequest
  rw [if_pos hl]

theorem Link.releaseRequest_of_unknown (hl : ¬ (k.cle.lifecycle = .config ∨ k.cle.lifecycle = .joining))
    (hc : findClaim ⟨env.own, n⟩ k.cle.claims = none) : k.releaseRequest env n = (.badArgument, k) := by
  unfold Link.releaseRequest
  rw [if_neg hl, hc]

theorem Link.releaseRequest_of_radio (hl : ¬ (k.cle.lifecycle = .config ∨ k.cle.lifecycle = .joining))
    (hc : findClaim ⟨env.own, n⟩ k.cle.claims = some c) (ho : c.origin = some .radio) :
    k.releaseRequest env n = (.badArgument, k) := by
  unfold Link.releaseRequest
  rw [if_neg hl, hc]
  exact if_pos ho

theorem Link.releaseRequest_of_port (hl : ¬ (k.cle.lifecycle = .config ∨ k.cle.lifecycle = .joining))
    (hc : findClaim ⟨env.own, n⟩ k.cle.claims = some c) (ho : c.origin = some .port) :
    k.releaseRequest env n = (.accepted, if c.isBidding = true then k.abandon c else k.releaseHeld env c) := by
  unfold Link.releaseRequest
  rw [if_neg hl, hc]
  dsimp only
  rw [if_neg (by rw [ho]; nofun)]
  split <;> rfl

end

/-- An own HELD claim released: its entry goes, its RELEASE is queued, and a presence that waits composed again. -/
theorem State.releaseHeld_requeued (s : State) (c : Claim) :
    s.Requeued (s.link.setClaims (eraseClaim c.name s.cle.claims)) (.release c.name.serial)
      (s.setLink (s.link.releaseHeld s.env c)).arbitrate :=
  State.setLink_recompose_requeued (k := s.link.setClaims (eraseClaim c.name s.cle.claims)) _ rfl rfl rfl rfl

theorem Claim.state_of_isBidding {c : Claim} (h : c.isBidding = true) :
    ∃ link window, c.state = .bidding link window := by
  unfold Claim.isBidding at h
  split at h
  · exact ⟨_, _, ‹_›⟩
  · cases h

/-- Settles O37: each refusal is its branch of R48; a HELD claim is released, a TENTATIVE one abandoned. -/
theorem releaseEndsAnOwnClaim : Obligations.ReleaseEndsAnOwnClaim := by
  unfold Obligations.ReleaseEndsAnOwnClaim
  intro s n no
  refine ⟨fun hl => exec_release_of_request (Link.releaseRequest_of_not_ready hl), fun hl => ?_⟩
  have hready : ¬ (s.cle.lifecycle = .config ∨ s.cle.lifecycle = .joining) := by
    rcases hl with hl | hl <;> rw [hl] <;> decide
  refine ⟨fun hc => exec_release_of_request (Link.releaseRequest_of_unknown hready hc),
    fun c hc ho => exec_release_of_request (Link.releaseRequest_of_radio hready hc ho), fun c hc ho => ?_⟩
  have hname : c.name = ⟨s.own, n⟩ := (findClaim_some hc).2
  have hserial : c.name.serial = n := by rw [hname]
  have hexec := exec_release_of_request (Link.releaseRequest_of_port (k := s.link) (env := s.env) hready hc ho)
  refine ⟨_, hexec, ?_⟩
  clear hexec
  cases hb : c.isBidding with
  | true =>
    obtain ⟨link, window, hstate⟩ := Claim.state_of_isBidding hb
    rw [if_pos rfl]
    obtain ⟨hdropped, hreleased, hframe, hpresence, hlink⟩ :=
      (s.link.abandon_abandoned hstate).arbitrate (s.link.abandon c).cle.lifecycle
    have hrest : (s.setLink (s.link.abandon c)).arbitrate.answer .accepted [] = { s with
        lif := (s.setLink (s.link.abandon c)).arbitrate.lif
        cle := { s.cle with claims := eraseClaim c.name s.cle.claims }
        cpt := s.cpt.answer .accepted [] } :=
      congrArg (fun k : Link => (s.setLink k).answer .accepted []) hlink
    have hpeers : ((s.setLink (s.link.abandon c)).arbitrate.answer .accepted []).cle.peers = s.cle.peers := by
      rw [hrest]
    rw [hname] at hrest
    rw [hserial] at hdropped hreleased
    refine ⟨hframe, ?_, ?_, ?_⟩
    · rw [hpeers, Tbl.set_get]
      exact hrest
    · intro hheld
      simp [Claim.isHeld, hstate] at hheld
    · intro link' window' hstate'
      cases hstate.symm.trans hstate'
      exact ⟨hdropped, hreleased, hpresence, congrArg (Tbl.get · s.own) hpeers⟩
  | false =>
    rw [if_neg Bool.false_ne_true]
    have hq := s.releaseHeld_requeued c
    rw [hserial, hname] at hq
    refine ⟨hq.frame, congrArg (State.answer · .accepted []) hq.rest, fun _ => ⟨hq.placed, hq.recomposed⟩, ?_⟩
    intro link window hstate
    simp [Claim.isBidding, hstate] at hb

end Sys2Proof.Machine
end

section
/-! PROOF. TUNE, SEEK, SCAN and ANNOUNCE_ENABLE (R149, R167 to R169, R173). -/

namespace Sys2Proof.Machine

open Sys2Proof

/-! ### The Radio Unit after TUNE and at the start of a SEEK (R149, R168, R169) -/

/-- The Radio Unit as TUNE and SEEK leave it before the control chooses a mode. -/
def Rdu.begun (r : Rdu) (ch : Channel) (k : Option Seek) : Rdu :=
  { r with
    pathA := r.pathA.retuned ch, active := .a, holdOff := 0, divRun := 0, crossfade := false, deferred := false
    low := ⟨true, false⟩, good := ⟨false, false⟩, afTimer := none, probe := none, seek := k
    ann := { r.ann.clearRuns with running := false, claim := if r.ann.running = true then none else r.ann.claim } }

/-- What the Radio Unit passes on where an announcement ends (R173). -/
def Announcement.ended (a : Announcement) (cause : AnnounceCause) : List RduEffect :=
  if a.running = true then [.announceEnd a.claim cause] else []

theorem Rdu.endAnnouncement_eq (r : Rdu) (cause : AnnounceCause) : r.endAnnouncement cause =
    ({ r with ann := { r.ann with
      running := false, claim := if r.ann.running = true then none else r.ann.claim } }, r.ann.ended cause) := by
  obtain ⟨_, _, _, _, _, _, _, _, _, _, _, _, _, _, _, _, _, ⟨running, _, _, _, _⟩, _, _, _⟩ := r
  cases running <;> rfl

theorem Rdu.tune_eq (r : Rdu) (c : Store) (ch : Channel) : r.tune c ch =
    ((r.begun ch none).controlRetuning c r.spareAgain,
      (if r.seek.isSome then [.notice .seekCancelled] else []) ++ r.ann.ended .tune) := by
  obtain ⟨_, _, active, _, _, _, _, _, _, _, _, _, _, _, _, _, _, ⟨running, _, _, _, _⟩, _, _, _⟩ := r
  cases active <;> cases running <;> rfl

theorem Rdu.startSeek_eq (r : Rdu) (c : Store) (d : Direction) : r.startSeek c d =
    let start := r.activeRec.tuned.getD 0
    ((r.begun (nextChannel d start) (some ⟨d, start, 0, 0, 0⟩)).control c r.spareAgain, r.ann.ended .seek) := by
  obtain ⟨_, _, active, _, _, _, _, _, _, _, _, _, _, _, _, _, _, ⟨running, _, _, _, _⟩, _, _, _⟩ := r
  cases active <;> cases running <;> rfl

/-- With no probe and no good reception the control chooses between IDLE and DIVERSITY alone. -/
theorem Rdu.begun_chosenMode (r : Rdu) (c : Store) (ch : Channel) (k : Option Seek) :
    (r.begun ch k).chosenMode c = c.restartMode := by
  unfold Rdu.chosenMode Store.restartMode
  by_cases hf : c.frontEnds = .ab <;> simp [hf, Rdu.begun]

theorem Store.restartMode_cases (c : Store) : c.restartMode = .idle ∨ c.restartMode = .diversity := by
  unfold Store.restartMode
  split
  · exact .inr rfl
  · exact .inl rfl

/-- While a seek runs the control leaves path B where it is. -/
theorem Rdu.begun_control (r : Rdu) (c : Store) (ch : Channel) (k : Seek) (again : Bool) :
    (r.begun ch (some k)).control c again = { r.begun ch (some k) with mode := c.restartMode } := by
  unfold Rdu.control
  rw [Rdu.begun_chosenMode]
  rcases c.restartMode_cases with hm | hm <;> rw [hm] <;> dsimp only <;> split <;> rfl

/-- TUNE retunes path B in DIVERSITY. -/
theorem Rdu.begun_controlRetuning (r : Rdu) (c : Store) (ch : Channel) (again : Bool) :
    (r.begun ch none).controlRetuning c again = { r.begun ch none with
      mode := c.restartMode
      pathB := if c.restartMode = .diversity then r.pathB.retuned ch else r.pathB } := by
  unfold Rdu.controlRetuning Rdu.control
  rw [Rdu.begun_chosenMode]
  rcases c.restartMode_cases with hm | hm <;> rw [hm]
  · dsimp only
    split <;> rfl
  · rw [if_pos (.inr (by simp))]
    rfl

/-! ### SCAN (R149, R167) -/

/-- The control that chooses the mode it is in leaves both paths. -/
theorem Rdu.control_of_same {r : Rdu} {c : Store} (h : r.chosenMode c = r.mode) :
    r.control c false = { r with divRun := if r.mode = .diversity then r.divRun else 0 } := by
  unfold Rdu.control
  rw [h]
  exact if_neg (by simp)

/-- A new mode waits for a crossfade to act on the spare. -/
theorem Rdu.control_of_waiting {r : Rdu} {c : Store} (h : r.chosenMode c ≠ r.mode) (hx : r.crossfade = true) :
    r.control c false = { r with
      mode := r.chosenMode c, divRun := if r.chosenMode c = .diversity then r.divRun else 0, deferred := true } := by
  unfold Rdu.control Rdu.useSpareOrWait
  dsimp only
  rw [if_pos (.inl h), if_pos hx]

/-- A new mode acts on the spare at once where no crossfade is pending. -/
theorem Rdu.control_of_entering {r : Rdu} {c : Store} (h : r.chosenMode c ≠ r.mode) (hx : r.crossfade = false) :
    r.control c false = { ({ r with
      mode := r.chosenMode c
      divRun := if r.chosenMode c = .diversity then r.divRun else 0 } : Rdu).useSpare with deferred := false } := by
  unfold Rdu.control Rdu.useSpareOrWait
  dsimp only
  rw [if_pos (.inl h), if_neg (by rw [hx]; decide)]

/-- The work of the control leaves the active path. -/
theorem Rdu.control_activeRec (r : Rdu) (c : Store) (again : Bool) :
    (r.control c again).active = r.active ∧ (r.control c again).activeRec = r.activeRec := by
  have h := r.control_keepsWords c again
  refine ⟨h.active, ?_⟩
  unfold Rdu.activeRec
  rw [h.active, h.activePath]

/-- The spare after a retune of it. -/
theorem Rdu.retune_spareRec (r : Rdu) (ch : Channel) : (r.retune r.spare ch).spareRec = r.spareRec.retuned ch := by
  unfold Rdu.spareRec Rdu.spare
  rw [Rdu.retune_active]
  cases r.active <;> rfl

/-- Two records with the same paths and the same active one have the same spare. -/
theorem Rdu.spareRec_congr {r q : Rdu} (ha : q.active = r.active) (hA : q.pathA = r.pathA) (hB : q.pathB = r.pathB) :
    q.spareRec = r.spareRec := by
  unfold Rdu.spareRec Rdu.spare
  rw [ha]
  cases r.active
  · exact hB
  · exact hA

/-- What a mode entered does to the spare (R149). -/
theorem Rdu.useSpare_spareRec (r : Rdu) :
    (r.mode = .scan → r.useSpare.spareRec = r.spareRec.retuned r.scanPos) ∧
    (r.mode = .diversity → r.seek = none → ∀ ch, r.activeRec.tuned = some ch →
      r.useSpare.spareRec = r.spareRec.retuned ch) ∧
    ((r.mode = .idle ∨ r.mode = .diversity) → ¬ (r.mode = .diversity ∧ r.seek = none ∧ r.activeRec.tuned ≠ none) →
      r.useSpare.spareRec = r.spareRec) := by
  refine ⟨fun hm => ?scan, fun hm hs ch hch => ?follows, fun hm hno => ?stays⟩
  case scan =>
    rw [← Rdu.retune_spareRec]
    unfold Rdu.useSpare
    rw [hm]
    exact Rdu.spareRec_congr rfl rfl rfl
  case follows =>
    rw [← Rdu.retune_spareRec]
    unfold Rdu.useSpare
    rw [hm]
    dsimp only
    rw [hs, hch]
  case stays =>
    unfold Rdu.useSpare
    rcases hm with hm | hm <;> rw [hm]
    dsimp only
    split
    · rename_i hs hch
      exact absurd ⟨hm, hs, by rw [hch]; nofun⟩ hno
    · rfl

/-- The work of the control leaves the switch for scanning. -/
theorem Rdu.control_scanEnable (r : Rdu) (c : Store) (again : Bool) :
    (r.control c again).scanEnable = r.scanEnable := by
  have hretune (x : Rdu) (p : Path) (ch : Channel) : (x.retune p ch).scanEnable = x.scanEnable := by cases p <;> rfl
  have hspare (x : Rdu) : x.useSpare.scanEnable = x.scanEnable := by
    unfold Rdu.useSpare
    (repeat' split) <;> first | rfl | exact hretune _ _ _
  unfold Rdu.control Rdu.useSpareOrWait
  dsimp only
  split
  · split
    · rfl
    · exact hspare _
  · rfl

/-- What the control does to the two paths: nothing where it chooses the mode it is in, a wait where a crossfade is
pending, else what the mode entered does to the spare (R149, R152). -/
theorem Rdu.control_paths (r : Rdu) (c : Store) :
    let m := r.chosenMode c
    let u := r.control c false
    let follows := m = .diversity ∧ r.seek = none ∧ r.activeRec.tuned ≠ none
    ((m = r.mode ∨ r.crossfade = true) → u.spareRec = r.spareRec) ∧
    (m ≠ r.mode → r.crossfade = true → u.deferred = true) ∧
    (m ≠ r.mode → r.crossfade = false →
      (m = .scan → u.spareRec.tuned = some r.scanPos ∧ u.spareRec.settle = 2) ∧
      (follows → u.spareRec.tuned = r.activeRec.tuned ∧ u.spareRec.settle = 2) ∧
      ((m = .idle ∨ m = .diversity) → ¬ follows → u.spareRec = r.spareRec)) := by
  intro m u follows
  refine ⟨fun h => ?stays, fun hm hx => ?waits, fun hm hx => ?enters⟩
  case stays =>
    by_cases hm : m = r.mode
    · rw [show u = _ from Rdu.control_of_same hm]
      exact Rdu.spareRec_congr rfl rfl rfl
    · rw [show u = _ from Rdu.control_of_waiting hm (h.resolve_left hm)]
      exact Rdu.spareRec_congr rfl rfl rfl
  case waits => rw [show u = _ from Rdu.control_of_waiting hm hx]
  case enters =>
    let x : Rdu := { r with mode := m, divRun := if m = .diversity then r.divRun else 0 }
    obtain ⟨hscan, hfollows, hstays⟩ := x.useSpare_spareRec
    have hu : u.spareRec = x.useSpare.spareRec := by
      rw [show u = _ from Rdu.control_of_entering hm hx]
      exact Rdu.spareRec_congr rfl rfl rfl
    rw [hu]
    refine ⟨fun h => ?_, fun ⟨hd, hs, hch⟩ => ?_, hstays⟩
    · rw [hscan h]
      exact ⟨rfl, rfl⟩
    · obtain ⟨ch, hch⟩ := Option.ne_none_iff_exists'.mp hch
      rw [hfollows hd hs ch hch, hch]
      exact ⟨rfl, rfl⟩

/-- What R30 says of presence reads of the state before the LIF, the CLE and the station's number alone. -/
theorem Recomposed.congr {s x t : State} (h : Recomposed x t) (hl : x.lif = s.lif) (hc : x.cle = s.cle)
    (ho : x.own = s.own) : Recomposed s t := by
  unfold Recomposed at *
  rw [hl, hc, ho] at h
  exact h

/-! ### A request that ends an announcement (R173) -/

/-- The end of an announcement asked for by a request, with the request's answer and an attempt that may begin: what it
does where one runs, and that it does nothing where none runs. -/
structure State.EndsAnnouncement (x : State) (a : Announcement) (cause : AnnounceCause) (t : State) : Prop where
  rest : t = { x with lif := t.lif, cle := t.cle, pub := t.pub, cpt := t.cpt }
  result : t.cpt.result = ⟨x.cpt.result.number + 1, .accepted, true, []⟩
  others : ∀ i, i ≠ 7 → t.cpt.notices.get i = x.cpt.notices.get i
  quiet : a.running = false → t.pub = x.pub ∧ t.cle = x.cle ∧ t.cpt.notices.get 7 = x.cpt.notices.get 7
  ended : a.running = true → t.pub = { x.pub with radioClass := .programme } ∧
    t.cpt.notices.get 7 = some (raisedEntry (x.cpt.notices.get 7) (.announceEnded cause))
  gone : a.running = true → ∀ n, a.claim = some n → findClaim ⟨x.own, n⟩ t.cle.claims = none
  released : a.running = true → ∀ n, a.claim = some n → findClaim ⟨x.own, n⟩ x.cle.claims ≠ none →
    t.cle.claims = eraseClaim ⟨x.own, n⟩ x.cle.claims ∧ Placed x.lif (.release n) false t.lif ∧ Recomposed x t
  unclaimed : a.running = true → (∀ n, a.claim = some n → findClaim ⟨x.own, n⟩ x.cle.claims = none) → t.cle = x.cle

theorem Link.endAnnounce_of_some {k : Link} {env : Env} {n : Serial} {c : Claim}
    (h : findClaim ⟨env.own, n⟩ k.cle.claims = some c) : k.endAnnounce env n = k.releaseHeld env c := by
  unfold Link.endAnnounce
  rw [h]

theorem Link.endAnnounce_of_none {k : Link} {env : Env} {n : Serial}
    (h : findClaim ⟨env.own, n⟩ k.cle.claims = none) : k.endAnnounce env n = k := by
  unfold Link.endAnnounce
  rw [h]

/-- The class, the notice, and the claim that a running announcement's end releases where it stands. -/
theorem State.announceEnd_endsAnnouncement (x : State) {a : Announcement} (cause : AnnounceCause)
    (hrun : a.running = true) :
    x.EndsAnnouncement a cause ((x.announceEnd a.claim cause).answer .accepted []).arbitrate := by
  obtain ⟨_, hpub, hnotice, hgone, hnone⟩ := State.announceEnd_holds x x.rdu a.claim cause
  have hresult : (x.announceEnd a.claim cause).cpt.result = x.cpt.result := (x.announceEnd_keeps _ _).cpt.result
  refine ⟨?rest, ?result, ?others, fun h => absurd (h.symm.trans hrun) (by decide), fun _ => ⟨hpub, hnotice⟩,
    fun _ => hgone, fun _ n hclaim hpresent => ?released, fun _ habsent => ?unclaimed⟩
  case rest =>
    unfold State.announceEnd
    cases a.claim <;> rfl
  case result =>
    rw [← hresult]
    rfl
  case others =>
    intro i hi
    exact State.rduEffect_sameAt x (e := .announceEnd a.claim cause) hi
  case released =>
    obtain ⟨c, hc⟩ := Option.ne_none_iff_exists'.mp hpresent
    have hname : c.name = ⟨x.own, n⟩ := (findClaim_some hc).2
    let x1 : State := { x with pub := x.pub.setRadioClass false }
    have hq := x1.releaseHeld_requeued c
    have hend : x.announceEnd a.claim cause = { x1.setLink (x1.link.releaseHeld x1.env c) with
        cpt := (x1.setLink (x1.link.releaseHeld x1.env c)).cpt.raise (.announceEnded cause) } := by
      unfold State.announceEnd
      rw [hclaim]
      dsimp only
      rw [Link.endAnnounce_of_some hc]
    rw [hend]
    have hclaims := congrArg (fun t : State => t.cle.claims) hq.rest
    have hplaced := hq.placed
    rw [hname] at hclaims hplaced
    exact ⟨hclaims, hplaced, hq.recomposed⟩
  case unclaimed =>
    cases hclaim : a.claim with
    | none => exact (hclaim ▸ hnone) rfl
    | some n =>
      unfold State.announceEnd
      dsimp only
      rw [Link.endAnnounce_of_none (habsent n hclaim)]
      rfl

/-- The same where no announcement may run. -/
theorem State.endsAnnouncement (x : State) (a : Announcement) (cause : AnnounceCause) :
    x.EndsAnnouncement a cause (((a.ended cause).foldl State.rduEffect x).answer .accepted []).arbitrate := by
  unfold Announcement.ended
  cases hrun : a.running with
  | true => exact x.announceEnd_endsAnnouncement cause hrun
  | false =>
    have hno {p : Prop} (h : a.running = true) : p := absurd (hrun.symm.trans h) (by decide)
    exact ⟨rfl, rfl, fun _ _ => rfl, fun _ => ⟨rfl, rfl, rfl⟩, hno, hno, hno, hno⟩

/-! ### The requests -/

/-- The station once TUNE has retuned the Radio Unit and cancelled a seek, before an announcement ends (R168). -/
def State.tuned (s : State) (ch : Channel) : State :=
  { s with
    rdu := { s.rdu.begun ch none with
      mode := s.cpt.store.restartMode
      pathB := if s.cpt.store.restartMode = .diversity then s.rdu.pathB.retuned ch else s.rdu.pathB }
    cpt := if s.rdu.seek.isSome then s.cpt.raise .seekCancelled else s.cpt }

/-- The station once SEEK has begun its seek, before an announcement ends (R169). -/
def State.seeking (s : State) (d : Direction) : State :=
  let start := s.rdu.activeRec.tuned.getD 0
  { s with rdu := { s.rdu.begun (nextChannel d start) (some ⟨d, start, 0, 0, 0⟩) with
    mode := s.cpt.store.restartMode } }

/-- TUNE raises SEEK where it cancels one, and no other notice. -/
theorem State.tuned_cpt (s : State) (ch : Channel) :
    (s.tuned ch).cpt.store = s.cpt.store ∧ (s.tuned ch).cpt.result = s.cpt.result ∧
      (∀ i, i ≠ 9 → (s.tuned ch).cpt.notices.get i = s.cpt.notices.get i) ∧
      (s.tuned ch).cpt.notices.get 9 = if s.rdu.seek = none then s.cpt.notices.get 9
        else some (raisedEntry (s.cpt.notices.get 9) .seekCancelled) := by
  unfold State.tuned
  dsimp only
  cases s.rdu.seek with
  | none => exact ⟨rfl, rfl, fun _ _ => rfl, rfl⟩
  | some k => exact ⟨rfl, rfl, fun i hi => Cpt.raise_other _ _ hi.symm, Cpt.raise_place _ .seekCancelled⟩

theorem exec_tune_taken {s : State} {ch : BitVec 16} {c : Channel} (hr : s.radioReady = true)
    (hc : channelArgument ch = some c) :
    ∃ t, exec (.tune ch) s = .next t ∧ (s.tuned c).EndsAnnouncement s.rdu.ann .tune t := by
  have hset : s.setRdu (s.rdu.tune s.cpt.store c) = (s.rdu.ann.ended .tune).foldl State.rduEffect (s.tuned c) := by
    rw [Rdu.tune_eq, State.setRdu_append, Rdu.begun_controlRetuning, State.tuned]
    congr 1
    cases s.rdu.seek <;> rfl
  refine ⟨_, ?_, State.endsAnnouncement _ _ _⟩
  simp only [exec_tune, execTune, hr, if_pos, hc, hset]

theorem exec_seek_taken {s : State} {d : Byte} {dir : Direction} (hr : s.radioReady = true)
    (hd : directionArgument d = some dir) (hseek : s.rdu.seek = none) :
    ∃ t, exec (.seek d) s = .next t ∧ (s.seeking dir).EndsAnnouncement s.rdu.ann .seek t := by
  have hset : s.setRdu (s.rdu.startSeek s.cpt.store dir) =
      (s.rdu.ann.ended .seek).foldl State.rduEffect (s.seeking dir) := by
    rw [Rdu.startSeek_eq]
    dsimp only
    rw [Rdu.begun_control]
    rfl
  refine ⟨_, ?_, State.endsAnnouncement _ _ _⟩
  simp only [exec_seek, execSeek, hr, if_pos, hd, hseek, hset]
  rfl

theorem exec_seek_busy {s : State} {d : Byte} {dir : Direction} (hr : s.radioReady = true)
    (hd : directionArgument d = some dir) (hseek : s.rdu.seek ≠ none) :
    exec (.seek d) s = .next (s.answer .busy []) := by
  simp only [exec_seek, execSeek, hr, if_pos, hd, Option.isSome_iff_ne_none.mpr hseek]

theorem exec_radio_not_ready {s : State} (hr : s.radioReady = false) (ch : BitVec 16) (d : Byte) :
    exec (.tune ch) s = .next (s.answer .notReady []) ∧ exec (.seek d) s = .next (s.answer .notReady []) := by
  simp [execTune, execSeek, hr]

theorem exec_tune_badArgument {s : State} {ch : BitVec 16} (hr : s.radioReady = true) (h : 410 < ch.toNat) :
    exec (.tune ch) s = .next (s.answer .badArgument []) := by
  have hc : channelArgument ch = none := dif_neg (by omega)
  simp only [exec_tune, execTune, hr, if_pos, hc]

theorem directionArgument_of_lt {d : Byte} (h : 1 < d.toNat) : directionArgument d = none := by
  unfold directionArgument
  split
  · omega
  · omega
  · rfl

theorem directionArgument_of_le {d : Byte} (h : d.toNat ≤ 1) :
    directionArgument d = some (if d = 0 then .up else .down) := by
  obtain h0 | h1 : d.toNat = 0 ∨ d.toNat = 1 := by omega
  · rw [(toNat_eq_iff_eq_ofNat (by decide)).mp h0]
    rfl
  · rw [(toNat_eq_iff_eq_ofNat (by decide)).mp h1]
    rfl

theorem exec_seek_badArgument {s : State} {d : Byte} (hr : s.radioReady = true) (h : 1 < d.toNat) :
    exec (.seek d) s = .next (s.answer .badArgument []) := by
  simp only [exec_seek, execSeek, hr, if_pos, directionArgument_of_lt h]

/-- The channel that a seek starts at. -/
theorem nextChannel_val (up : Prop) [Decidable up] (start : Channel) :
    (nextChannel (if up then .up else .down) start).val = (start.val + if up then 1 else 410) % 411 := by
  have := start.isLt
  by_cases h : up
  · rw [if_pos h, if_pos h]
    unfold nextChannel
    dsimp only
    split
    · simp only
      omega
    · simp only [Fin.val_zero]
      omega
  · rw [if_neg h, if_neg h]
    unfold nextChannel
    dsimp only
    split
    · simp only
      omega
    · show 410 = _
      omega

theorem onOffOfCode_of_lt {n : Nat} (h : 1 < n) : onOffOfCode n = none := by
  unfold onOffOfCode
  split
  · omega
  · omega
  · rfl

/-- The byte of a switch (R210). -/
theorem onOffOfCode_byte (on : Bool) : onOffOfCode (if on then 1 else 0 : Byte).toNat = some on := by
  cases on <;> rfl

/-- A running announcement switched off (R167, R173). -/
theorem exec_announceEnable_off {s : State} (hc : s.inConfig = false) :
    ∃ t, exec (.announceEnable 0) s = .next t ∧ State.EndsAnnouncement { s with rdu := { s.rdu with
      announceEnable := false
      ann := { s.rdu.ann with running := false, claim := if s.rdu.ann.running = true then none else s.rdu.ann.claim } } }
      s.rdu.ann .disabled t := by
  refine ⟨_, ?_, State.endsAnnouncement _ _ _⟩
  have hset : s.rdu.setAnnounce false = _ := Rdu.endAnnouncement_eq { s.rdu with announceEnable := false } .disabled
  show execAnnounceEnable 0 s = _
  unfold execAnnounceEnable
  rw [show onOffOfCode (0 : Byte).toNat = some false from rfl]
  dsimp only
  rw [if_neg (by rw [hc]; decide), hset]
  rfl

/-- ANNOUNCE_ENABLE where no announcement ends (R167). -/
theorem exec_announceEnable_quiet {s : State} {b : Byte} {on : Bool} (hc : s.inConfig = false)
    (hb : onOffOfCode b.toNat = some on) (h : on = true ∨ s.rdu.ann.running = false) :
    exec (.announceEnable b) s = .next (State.arbitrate
      (State.answer { s with rdu := { s.rdu with announceEnable := on } } .accepted [])) := by
  have hset : s.rdu.setAnnounce on = ({ s.rdu with announceEnable := on }, []) := by
    unfold Rdu.setAnnounce
    cases on with
    | true => rfl
    | false =>
      have hrun : s.rdu.ann.running = false := h.resolve_left (by decide)
      show Rdu.endAnnouncement _ _ = _
      unfold Rdu.endAnnouncement
      dsimp only
      rw [if_neg (by rw [hrun]; decide)]
  simp only [exec_announceEnable, execAnnounceEnable, hb, hc, hset, Bool.false_eq_true, if_false]
  rfl

theorem exec_switch_badArgument (s : State) {b : Byte} (h : 1 < b.toNat) :
    exec (.scan b) s = .next (s.answer .badArgument []) ∧
      exec (.announceEnable b) s = .next (s.answer .badArgument []) := by
  simp [execScan, execAnnounceEnable, onOffOfCode_of_lt h]

/-- In CONFIG the switches write their defaults (R167, R213). -/
theorem exec_switch_inConfig {s : State} {b : Byte} {on : Bool} (hc : s.inConfig = true)
    (hb : onOffOfCode b.toNat = some on) :
    exec (.scan b) s = .next (State.answer { s with
      cpt := { s.cpt with store := { s.cpt.store with scanDefault := on } } } .accepted []) ∧
    exec (.announceEnable b) s = .next (State.answer { s with
      cpt := { s.cpt with store := { s.cpt.store with announceDefault := on } } } .accepted []) := by
  simp [execScan, execAnnounceEnable, hb, hc]

theorem exec_scan_outside {s : State} {b : Byte} {on : Bool} (hc : s.inConfig = false)
    (hb : onOffOfCode b.toNat = some on) :
    exec (.scan b) s = .next (State.answer { s with rdu := s.rdu.setScan s.cpt.store on } .accepted []) := by
  simp [execScan, hb, hc]

/-- Settles O50: TUNE and SEEK by the Radio Unit they begin and the announcement they end; SCAN by what the control does
to the paths; ANNOUNCE_ENABLE by the announcement it ends. -/
theorem radioRequestsAct : Obligations.RadioRequestsAct := by
  unfold Obligations.RadioRequestsAct
  intro s retuned a announced
  have hannounced {x t : State} {cause : AnnounceCause} (h : x.EndsAnnouncement a cause t) (hlif : x.lif = s.lif)
      (hcle : x.cle = s.cle) (hpub : x.pub = s.pub) (hown : x.own = s.own)
      (h7 : x.cpt.notices.get 7 = s.cpt.notices.get 7)
      (hclaim : x.rdu.ann.claim = if a.running = true then none else a.claim) : announced t cause := by
    have hrdu : t.rdu = x.rdu := by rw [h.rest]
    obtain ⟨_, _, _, hquiet, hended, _, hreleased, hunclaimed⟩ := h
    rw [hpub, hcle, h7] at hquiet
    rw [hpub, h7] at hended
    rw [hlif, hcle, hown] at hreleased
    rw [hcle, hown] at hunclaimed
    refine ⟨by rw [hrdu, hclaim], hquiet, fun hrun => ⟨(hended hrun).1, (hended hrun).2, fun n hn hp => ?_, fun hp =>
      hunclaimed hrun (fun n hn => not_not.mp (hp n hn))⟩⟩
    obtain ⟨hclaims, hplaced, hrec⟩ := hreleased hrun n hn hp
    exact ⟨hclaims, hplaced, hrec.congr hlif hcle hown⟩
  have hretuned {x t : State} {cause : AnnounceCause} {c : Channel} {k : Option Seek} {pathB : PathRec}
      (h : x.EndsAnnouncement a cause t) (hx : x = { s with rdu := x.rdu, cpt := x.cpt })
      (hresult : x.cpt.result = s.cpt.result)
      (hxr : x.rdu = { s.rdu.begun c k with mode := s.cpt.store.restartMode, pathB := pathB }) : retuned t c.val := by
    have hrdu : t.rdu = { s.rdu.begun c k with mode := s.cpt.store.restartMode, pathB := pathB } := by
      rw [h.rest]
      exact hxr
    have hrest : t = { s with lif := t.lif, cle := t.cle, pub := t.pub, rdu := t.rdu, cpt := t.cpt } := by
      conv_lhs => rw [h.rest, hx]
      rw [hrdu, ← hxr]
    have hres : t.cpt.result = ⟨s.cpt.result.number + 1, .accepted, true, []⟩ := by rw [h.result, hresult]
    show _ ∧ _
    rw [hres]
    refine ⟨?_, ?_, ?_, ?_, ?_, ?_, ?_, ?_, ?_, ?_, ?_, ?_, ?_, rfl, hrest, ?_⟩ <;> rw [hrdu] <;> rfl
  refine ⟨fun hno ch d => exec_radio_not_ready ?notReady ch d, fun hc hf ch d => ?taken,
    fun b hb => exec_switch_badArgument s hb, fun on => ?switches⟩
  case notReady =>
    rcases hno with h | h <;> simp [State.radioReady, h]
  case taken =>
    have hr : s.radioReady = true := by simp [State.radioReady, hc, hf]
    refine ⟨exec_tune_badArgument hr, fun hle => ?tune, exec_seek_badArgument hr,
      fun hle hs => exec_seek_busy hr (directionArgument_of_le hle) hs, fun hle hs => ?seek⟩
    case tune =>
      obtain ⟨t, ht, he⟩ := exec_tune_taken hr (c := ⟨ch.toNat, by omega⟩) (dif_pos (by omega))
      have hrdu : t.rdu = (s.tuned ⟨ch.toNat, by omega⟩).rdu := by rw [he.rest]
      obtain ⟨hstore, hresult, hothers, h9⟩ := s.tuned_cpt ⟨ch.toNat, by omega⟩
      have hown : (s.tuned ⟨ch.toNat, by omega⟩).own = s.own := by rw [State.own, hstore, State.own]
      refine ⟨t, ht, hretuned he rfl hresult rfl, by rw [hrdu]; rfl,
        hannounced he rfl rfl rfl hown (hothers 7 (by decide)) rfl, fun hm => ?idle, fun hm => ?diversity,
        (he.others 9 (by decide)).trans h9⟩
      all_goals
        rw [hrdu] at hm ⊢
        have hm : s.cpt.store.restartMode = _ := hm
        simp only [State.tuned, hm]
        rfl
    case seek =>
      obtain ⟨t, ht, he⟩ := exec_seek_taken hr (directionArgument_of_le hle) hs
      have hrdu : t.rdu = (s.seeking (if d = 0 then .up else .down)).rdu := by rw [he.rest]
      refine ⟨t, ht, ?_, hannounced he rfl rfl rfl rfl rfl rfl, by rw [hrdu]; rfl, he.others 9 (by decide),
        by rw [hrdu]; rfl⟩
      rw [← nextChannel_val]
      exact hretuned he rfl rfl rfl
  case switches =>
    have hb := onOffOfCode_byte on
    refine ⟨fun hc => exec_switch_inConfig hc hb, fun hc => ⟨⟨_, exec_scan_outside hc hb, ?scan⟩,
      exec_announceEnable_quiet hc hb, fun hoff hrun => ?off⟩⟩
    case scan =>
      let x : Rdu := { s.rdu with scanEnable := on }
      have hmode : (x.control s.cpt.store false).mode = x.chosenMode s.cpt.store := (x.control_holds _ _).1
      obtain ⟨hactive, hrec⟩ := x.control_activeRec s.cpt.store false
      have hpaths := x.control_paths s.cpt.store
      refine ⟨x.control_scanEnable _ _, rfl, rfl, ?_⟩
      intro r u chosen follows
      have hc : x.chosenMode s.cpt.store = chosen := by
        unfold Rdu.chosenMode
        simp only [Option.isSome_iff_ne_none]
        rfl
      rw [hc] at hmode hpaths
      exact ⟨hmode, hactive, hrec, hpaths⟩
    case off =>
      subst hoff
      obtain ⟨t, ht, he⟩ := exec_announceEnable_off hc
      obtain ⟨hpub, hnotice⟩ := he.ended hrun
      refine ⟨t, ht, ?_, by rw [hpub], hnotice, he.result, he.gone hrun⟩
      rw [he.rest]
      simp [hrun]

end Sys2Proof.Machine
end

section
/-! PROOF. The bounds that the operations of the Output Stage, the Mix Engine and the Intake keep (R76, R79, R98, R106,
R118, R121, R123). -/

namespace Sys2Proof.Machine

open Sys2Proof

/-! ### Bridges (R118, R121, R123) -/

/-- A bridge's base duty lies in 8..248 and its duty in 1..255 (R118, R121). -/
def Bridge.DutyBounded (b : Bridge) : Prop := 8 ≤ b.d0 ∧ b.d0 ≤ 248 ∧ ∀ d ∈ b.duty, 1 ≤ d ∧ d ≤ 255

/-- What keeps the bounds of a bridge. -/
structure Bridge.KeepsBounds (b u : Bridge) : Prop where
  derate : b.derate ≤ Config.derateCap → u.derate ≤ Config.derateCap
  duty : b.DutyBounded → u.DutyBounded

namespace Bridge.KeepsBounds

variable {b u w : Bridge}

theorem refl (b : Bridge) : b.KeepsBounds b := ⟨id, id⟩

theorem trans (h : b.KeepsBounds u) (k : u.KeepsBounds w) : b.KeepsBounds w :=
  ⟨k.derate ∘ h.derate, k.duty ∘ h.duty⟩

/-- A bridge whose duty stays or goes. -/
theorem of_duty (hd : u.derate = b.derate) (h0 : u.d0 = b.d0) (h : u.duty = b.duty ∨ u.duty = none) :
    b.KeepsBounds u where
  derate := by rw [hd]; exact id
  duty hb := by
    obtain ⟨hlo, hhi, hduty⟩ := hb
    refine ⟨h0 ▸ hlo, h0 ▸ hhi, ?_⟩
    rcases h with h | h
    · rw [h]; exact hduty
    · rw [h]; exact nofun

/-- A bridge whose derate alone is bounded anew. -/
theorem of_derate (h : b.derate ≤ Config.derateCap → u.derate ≤ Config.derateCap) (h0 : u.d0 = b.d0)
    (hd : u.duty = b.duty) : b.KeepsBounds u := ⟨h, by unfold DutyBounded; rw [h0, hd]; exact id⟩

/-- A bridge whose base duty is bounded anew. -/
theorem of_d0 (hlo : 8 ≤ u.d0) (hhi : u.d0 ≤ 248) (hr : u.derate = b.derate) (hd : u.duty = b.duty) :
    b.KeepsBounds u := by
  refine ⟨by rw [hr]; exact id, fun ⟨_, _, hduty⟩ => ⟨hlo, hhi, ?_⟩⟩
  rw [hd]
  exact hduty

theorem disable (c : Store) (b : Bridge) : b.KeepsBounds (b.disable c) := of_duty rfl rfl (.inr rfl)

theorem recompute (c : Store) (b : Bridge) : b.KeepsBounds (b.recompute c) := by
  unfold Bridge.recompute
  split
  · exact refl b
  · split
    · exact refl b
    · exact disable c b
    · exact of_duty rfl rfl (.inl rfl)
    · exact of_duty rfl rfl (.inl rfl)

theorem assertOc (b : Bridge) : b.KeepsBounds b.assertOc := by
  unfold Bridge.assertOc
  (repeat' split) <;> exact of_duty rfl rfl (.inl rfl)

theorem addSources (c : Store) (b : Bridge) (sources : HoldSet) : b.KeepsBounds (b.addSources c sources) := by
  have held (x : Bridge) : x.KeepsBounds { x with hold := x.hold ||| sources } := of_duty rfl rfl (.inl rfl)
  unfold Bridge.addSources
  split
  · exact ((assertOc b).trans (held _)).trans (recompute c _)
  · exact (held b).trans (recompute c _)

theorem watchDc (b : Bridge) : b.KeepsBounds b.watchDc := by
  unfold Bridge.watchDc
  split <;> exact of_duty rfl rfl (.inl rfl)

theorem addDc (c : Store) (before : Bool) (b : Bridge) : b.KeepsBounds (b.addDc c before) := by
  unfold Bridge.addDc
  split
  · exact addSources c b _
  · exact refl b

theorem ack (c : Store) (b : Bridge) (removed : HoldSet) : b.KeepsBounds (b.ack c removed) :=
  .trans (u := { b with hold := b.hold &&& ~~~ removed, ocLock := b.ocLock && !holds removed .oc })
    (of_duty rfl rfl (.inl rfl)) (recompute c _)

theorem removeAuto (o : Ost) (c : Store) (i : BridgeNo) (b : Bridge) : b.KeepsBounds (o.removeAuto c i b) :=
  .trans (u := { b with hold := b.hold &&& (latchedSet c b ||| o.assertedSet i) })
    (of_duty rfl rfl (.inl rfl)) (recompute c _)

theorem load (b : Bridge) (block : List Sample) : b.KeepsBounds (b.load block) := of_duty rfl rfl (.inl rfl)

theorem restart (b : Bridge) : b.KeepsBounds b.restart := of_duty rfl rfl (.inl rfl)

theorem reenable (b : Bridge) : b.KeepsBounds b.reenable := of_d0 (show 8 ≤ 128 by decide) (show 128 ≤ 248 by decide) rfl rfl

theorem started (c : Store) (i : BridgeNo) (b : Bridge) : b.KeepsBounds (b.started c i) := by
  unfold Bridge.started
  split
  · exact of_duty rfl rfl (.inl rfl)
  · exact refl b

/-- The cap bounds every derate (R123). -/
theorem derateStep (b : Bridge) (tw : Bool) : b.KeepsBounds (b.derateStep tw) := by
  have heat : (b.heat tw).d0 = b.d0 ∧ (b.heat tw).duty = b.duty := by
    unfold Bridge.heat
    dsimp only
    (repeat' split) <;> exact ⟨rfl, rfl⟩
  have calm (x : Bridge) : (x.calmDown tw).d0 = x.d0 ∧ (x.calmDown tw).duty = x.duty := by
    unfold Bridge.calmDown
    (repeat' split) <;> exact ⟨rfl, rfl⟩
  exact of_derate (fun _ => Nat.min_le_left _ _) ((calm _).1.trans heat.1) ((calm _).2.trans heat.2)

theorem boundary (c : Store) (tw : Bool) (b : Bridge) : b.KeepsBounds (b.boundary c tw) :=
  (((derateStep b tw).trans (watchDc _)).trans (addDc c b.dcOn _)).trans (of_duty rfl rfl (.inl rfl))

end Bridge.KeepsBounds

/-- The base duty of a sample lies in 8..248 (R118). -/
theorem baseDuty_bounds (x : Sample) : 8 ≤ baseDuty x ∧ baseDuty x ≤ 248 := by
  have hlo := BitVec.le_toInt x
  have hhi := BitVec.toInt_lt (x := x)
  norm_num at hlo hhi
  unfold baseDuty
  omega

theorem Bridge.KeepsBounds.takeSample (b : Bridge) : b.KeepsBounds b.takeSample :=
  of_d0 (baseDuty_bounds _).1 (baseDuty_bounds _).2 rfl rfl

@[simp] theorem Bridge.period_derate (b : Bridge) (dt : Nat) (atRise atFall : Bool) :
    (b.period dt atRise atFall).derate = b.derate := by
  unfold Bridge.period
  split <;> rfl

/-- A deadtime of at most 7 keeps the duty in 1..255 (R121). -/
theorem Bridge.KeepsBounds.period {dt : Nat} (hdt : dt ≤ 7) (b : Bridge) (atRise atFall : Bool) :
    b.KeepsBounds (b.period dt atRise atFall) := by
  unfold Bridge.period
  split
  · refine ⟨id, fun ⟨hlo, hhi, _⟩ => ⟨hlo, hhi, ?_⟩⟩
    rintro d ⟨⟩
    unfold dutyOf
    split <;> omega
  · exact of_duty rfl rfl (.inr rfl)

/-- Every bridge of an Output Stage keeps its bounds. -/
def Ost.KeepsBounds (o p : Ost) : Prop := ∀ i, (o.bridges.get i).KeepsBounds (p.bridges.get i)

namespace Ost.KeepsBounds

variable {o p q : Ost}

theorem refl (o : Ost) : o.KeepsBounds o := fun _ => .refl _

theorem of_eq (h : p.bridges = o.bridges) : o.KeepsBounds p := fun i => by rw [h]; exact .refl _

theorem trans (h : o.KeepsBounds p) (k : p.KeepsBounds q) : o.KeepsBounds q := fun i => (h i).trans (k i)

theorem of_ofFn {f : BridgeNo → Bridge} (hp : p.bridges = Tbl.ofFn f) (h : ∀ i, (o.bridges.get i).KeepsBounds (f i)) :
    o.KeepsBounds p := fun i => by
  rw [hp, Tbl.get_ofFn]
  exact h i

theorem of_map {f : Bridge → Bridge} (hp : p.bridges = o.bridges.map f) (h : ∀ b : Bridge, b.KeepsBounds (f b)) :
    o.KeepsBounds p := fun i => by
  rw [hp, Tbl.get_map]
  exact h _

theorem setBridge {i : BridgeNo} {b : Bridge} (h : (o.bridges.get i).KeepsBounds b) : o.KeepsBounds (o.setBridge i b) := by
  intro j
  show (o.bridges.get j).KeepsBounds ((o.bridges.set i b).get j)
  rw [Tbl.get_set]
  split
  · next he => exact he ▸ h
  · exact .refl _

theorem setFilter (o : Ost) (src : FilteredSource) (f : Filter) : o.KeepsBounds (o.setFilter src f) :=
  of_eq (by cases src <;> rfl)

theorem addSources (o : Ost) (c : Store) (sources : BridgeNo → HoldSet) : o.KeepsBounds (o.addSources c sources).1 :=
  of_ofFn rfl (fun i => by
    split
    · exact .refl _
    · exact .addSources c _ _)

theorem assertSource (o : Ost) (c : Store) (src : FilteredSource) : o.KeepsBounds (o.assertSource c src).1 := by
  unfold Ost.assertSource
  split
  · exact refl o
  · exact (setFilter o src _).trans (addSources _ c _)

theorem deassertSource (o : Ost) (src : FilteredSource) : o.KeepsBounds (o.deassertSource src) := by
  unfold Ost.deassertSource
  split
  · exact setFilter o src _
  · exact refl o

/-- A PWM period gives each bridge its duty after its sources joined (R121, R128). -/
theorem period (o : Ost) (c : Store) (x : PeriodInputs) (i : BridgeNo) : ∃ b : Bridge, (o.bridges.get i).KeepsBounds b ∧
    (o.period c x).1.bridges.get i = b.period (c.deadtime.get i) (x.atRise.get i) (x.atFall.get i) :=
  ⟨((o.sampleFilters x).addSources c (o.periodSources c x)).1.bridges.get i,
    (of_eq (p := o.sampleFilters x) rfl).trans (addSources _ c _) i, Tbl.get_ofFn _ i⟩

theorem instant (o : Ost) (c : Store) : o.KeepsBounds (o.instant c) :=
  of_ofFn rfl (fun i => (Bridge.KeepsBounds.takeSample _).trans (.removeAuto o c i _))

theorem boundary (o : Ost) (c : Store) (config : Bool) : o.KeepsBounds (o.boundary c config).1 :=
  of_map rfl (Bridge.KeepsBounds.boundary c _)

theorem load (o : Ost) (blocks : Tbl 8 (List Sample)) : o.KeepsBounds (o.load blocks) := of_ofFn rfl (fun _ => .load _ _)

theorem faultAck (o : Ost) (c : Store) (i : BridgeNo) : o.KeepsBounds (o.faultAck c i) := setBridge (.ack c _ _)

theorem started (o : Ost) (c : Store) : o.KeepsBounds (o.started c).1 := of_ofFn rfl (fun _ => .started c _ _)

theorem restart (o : Ost) : o.KeepsBounds o.restart := of_map rfl Bridge.KeepsBounds.restart

end Ost.KeepsBounds

/-! ### The Mix Engine (R98, R106) -/

/-- The target and the current attenuation of a feed lie in 0..128 (R106). -/
def Feed.Bounded (f : Feed) : Prop := f.target ≤ Config.mute ∧ f.current ≤ Config.mute

theorem Feed.inactive_bounded : Feed.inactive.Bounded := ⟨le_refl 128, le_refl 128⟩

theorem Feed.Bounded.silence {f : Feed} (h : f.Bounded) : f.silence.Bounded := ⟨h.1, le_refl _⟩

theorem Feed.Bounded.rampStep {f : Feed} (h : f.Bounded) (attack interval : Nat) : (f.rampStep attack interval).Bounded := by
  obtain ⟨ht, hc⟩ := h
  unfold Feed.rampStep
  (repeat' split) <;> refine ⟨ht, ?_⟩
  · exact (Nat.min_le_left _ _).trans ht
  · exact hc
  · exact (Nat.sub_le _ _).trans hc
  · exact hc

theorem targetOf_le (v : MixView) (live : Tbl 5 Nat) (fb : Bool) (o : OutputNo) (cfg : FeedConfig) (f : Feed)
    (cls : SoundClass) (stream : Option StreamNo) : targetOf v live fb o cfg f cls stream ≤ Config.mute := by
  unfold targetOf
  dsimp only
  split
  · exact (Nat.min_le_left _ _).trans (Nat.min_le_left _ _)
  · exact Nat.min_le_left _ _

theorem Feed.Bounded.move {f : Feed} (h : f.Bounded) (v : MixView) (live : Tbl 5 Nat) (fb : Bool) (o : OutputNo)
    (cfg : FeedConfig) (activated : Bool) (snd : FeedSound) : (f.move v live fb o cfg activated snd).Bounded := by
  have targeted : ({ f with
      served := snd.served, cls := snd.cls, priv := snd.priv
      target := targetOf v live fb o cfg f snd.cls snd.stream } : Feed).Bounded := ⟨targetOf_le _ _ _ _ _ _ _ _, h.2⟩
  unfold Feed.move
  dsimp only
  split
  · exact targeted.silence
  · split
    · exact targeted.silence.rampStep _ _
    · exact targeted.rampStep _ _

theorem Feed.Bounded.decide_ {f : Feed} (h : f.Bounded) (v : MixView) (fb : Bool) (o : OutputNo) (cfg : FeedConfig) :
    (decideFeed v fb o cfg f).Bounded := by
  unfold decideFeed
  dsimp only
  (repeat' split)
  · exact ⟨h.1, le_refl _⟩
  · exact h
  · exact Feed.inactive_bounded

/-- What keeps the bounds of the feeds and of the levels. -/
structure Mxe.KeepsBounds (m n : Mxe) : Prop where
  feeds : (∀ o sl, ((m.feeds.get o).get sl).Bounded) → ∀ o sl, ((n.feeds.get o).get sl).Bounded
  levels : (∀ z, m.live.get z ≤ Config.mute ∧ m.staged.get z ≤ Config.mute) →
    ∀ z, n.live.get z ≤ Config.mute ∧ n.staged.get z ≤ Config.mute

namespace Mxe.KeepsBounds

variable {m n k : Mxe}

theorem refl (m : Mxe) : m.KeepsBounds m := ⟨id, id⟩

theorem trans (h : m.KeepsBounds n) (j : n.KeepsBounds k) : m.KeepsBounds k := ⟨j.feeds ∘ h.feeds, j.levels ∘ h.levels⟩

theorem of_eq (hf : n.feeds = m.feeds) (hl : n.live = m.live) (hs : n.staged = m.staged) : m.KeepsBounds n :=
  ⟨by rw [hf]; exact id, by rw [hl, hs]; exact id⟩

/-- The feeds may change, each within its bounds; the levels stay. -/
theorem of_feeds (hl : n.live = m.live) (hs : n.staged = m.staged)
    (h : ∀ o sl, ((m.feeds.get o).get sl).Bounded → ((n.feeds.get o).get sl).Bounded) : m.KeepsBounds n :=
  ⟨fun hm o sl => h o sl (hm o sl), by rw [hl, hs]; exact id⟩

theorem applyLevels (m : Mxe) : m.KeepsBounds m.applyLevels.1 := by
  refine ⟨by rw [Mxe.applyLevels_feeds]; exact id, fun h z => ?_⟩
  unfold Mxe.applyLevels
  split
  · exact ⟨(h z).2, (h z).2⟩
  · exact h z

theorem stage (m : Mxe) (z : Zone) (level : Nat) : m.KeepsBounds (m.stage z level) := by
  refine ⟨id, fun h x => ⟨(h x).1, ?_⟩⟩
  show (m.staged.set z.idx _).get x ≤ _
  rw [Tbl.get_set]
  split
  · exact Nat.min_le_left _ _
  · exact (h x).2

theorem decide_ (m : Mxe) (v : MixView) : m.KeepsBounds (m.decide_ v) :=
  of_feeds rfl rfl (fun o sl h => by
    simp only [Mxe.decide_, feedTbl, Tbl.get_ofFn]
    exact h.decide_ _ _ _ _)

theorem mixed (m : Mxe) (v : MixView) (a : FeedTbl Bool) (k : Iku) (x : Sounds) : m.KeepsBounds (m.mixed v a k x).1 :=
  of_feeds rfl rfl (fun o sl h => by
    simp only [Mxe.mixed, Mxe.moveFeeds, feedTbl, Tbl.get_ofFn]
    split
    · exact h.move _ _ _ _ _ _ _
    · exact h)

theorem reenable (m : Mxe) (b : BridgeNo) : m.KeepsBounds (m.reenable b) :=
  of_feeds rfl rfl (fun o sl h => by
    simp only [Mxe.reenable, Tbl.get_modify]
    split
    · rw [Tbl.get_map]
      split
      · exact h.silence
      · exact h
    · exact h)

theorem started (m : Mxe) : m.KeepsBounds m.started :=
  of_feeds rfl rfl (fun o sl _ => by
    simp only [Mxe.started, Tbl.get_fill]
    exact Feed.inactive_bounded)

theorem restart (m : Mxe) : m.KeepsBounds m.restart := (started m).trans (of_eq rfl rfl rfl)

end Mxe.KeepsBounds

end Sys2Proof.Machine
end

section
/-! PROOF. The bounds that the operations of the Intake and of the Radio Unit keep (R76, R79, R82, R163). -/

namespace Sys2Proof.Machine

open Sys2Proof

/-! ### Appending to a ring (R82) -/

/-- The blocks that appending so many blocks to a ring of this fill pushes out (R82). -/
def blocksLost (fill blocks : Nat) : Nat := (fill + 48 * blocks - 192 + 47) / 48

/-- Appending blocks to a ring keeps the newest of all, and tells whether any block was pushed out (R82). -/
theorem appendBlocks_eq {ring : List RingFrame} (hr : ring.length ≤ 192) (blocks : List (List RingFrame))
    (hb : ∀ b ∈ blocks, b.length = 48) :
    appendBlocks ring blocks = ((ring ++ blocks.flatten).drop (48 * blocksLost ring.length blocks.length),
      decide (0 < blocksLost ring.length blocks.length)) := by
  have h : ∀ (blocks : List (List RingFrame)) (ring : List RingFrame) (lost : Bool), ring.length ≤ 192 →
      (∀ b ∈ blocks, b.length = 48) →
      blocks.foldl (fun acc b => ((appendBlock acc.1 b).1, acc.2 || (appendBlock acc.1 b).2)) (ring, lost) =
        ((ring ++ blocks.flatten).drop (48 * blocksLost ring.length blocks.length),
          lost || decide (0 < blocksLost ring.length blocks.length)) := by
    intro blocks
    induction blocks with
    | nil =>
      intro ring lost hr _
      have hnone : blocksLost ring.length 0 = 0 := by unfold blocksLost; omega
      simp [hnone]
    | cons b blocks ih =>
      intro ring lost hr hb
      have hlen : b.length = 48 := hb b List.mem_cons_self
      rw [List.foldl_cons]
      by_cases hfull : 192 < ring.length + 48
      · have happend : appendBlock ring b = (ring.drop 48 ++ b, true) := if_pos hfull
        have hcount : blocksLost ring.length (blocks.length + 1) =
            blocksLost (ring.drop 48 ++ b).length blocks.length + 1 := by
          simp only [blocksLost, List.length_append, List.length_drop, hlen]
          omega
        rw [happend, ih _ _ (by simp [hlen]; omega) (fun x hx => hb x (List.mem_cons_of_mem _ hx)), List.length_cons,
          hcount, List.flatten_cons, ← List.append_assoc,
          show ring.drop 48 ++ b = (ring ++ b).drop 48 from (List.drop_append_of_le_length (by omega)).symm,
          ← List.drop_append_of_le_length (l₁ := ring ++ b) (by simp; omega), List.drop_drop]
        simp [Nat.mul_add, Nat.add_comm]
      · have happend : appendBlock ring b = (ring ++ b, false) := if_neg hfull
        have hcount : blocksLost ring.length (blocks.length + 1) = blocksLost (ring ++ b).length blocks.length := by
          simp only [blocksLost, List.length_append, hlen]
          omega
        rw [happend, ih _ _ (by simp [hlen]; omega) (fun x hx => hb x (List.mem_cons_of_mem _ hx)), List.length_cons,
          hcount, List.flatten_cons, ← List.append_assoc]
        simp
  rw [appendBlocks, h blocks ring false hr hb, Bool.false_or]

/-- Blocks appended to a ring leave 192 sample frames at most (R76). -/
theorem appendBlocks_length_le {ring : List RingFrame} (hr : ring.length ≤ 192) (blocks : List (List RingFrame))
    (hb : ∀ b ∈ blocks, b.length = 48) : (appendBlocks ring blocks).1.length ≤ 192 := by
  have hflat : blocks.flatten.length = 48 * blocks.length := by
    rw [List.length_flatten, List.map_eq_replicate_iff.mpr hb, List.sum_replicate, smul_eq_mul, Nat.mul_comm]
  rw [appendBlocks_eq hr blocks hb, List.length_drop, List.length_append, hflat]
  unfold blocksLost
  omega

/-! ### Buffers (R76, R79) -/

/-- What stands in a list without its repetitions stands there once. -/
theorem nodup_eraseDups {α : Type} [BEq α] [LawfulBEq α] (l : List α) : l.eraseDups.Nodup := by
  induction h : l.length using Nat.strong_induction_on generalizing l with
  | _ n ih =>
    cases l with
    | nil => exact List.nodup_nil
    | cons a l =>
      have hlt : (l.filter (fun b => !b == a)).length < n := by
        have := List.length_filter_le (fun b => !b == a) l
        simp only [List.length_cons] at h
        omega
      rw [List.eraseDups_cons, List.nodup_cons]
      exact ⟨by simp [List.mem_eraseDups], ih _ hlt _ rfl⟩

/-- What keeps the bounds of one buffer: its stream stays, it is not freed, and its fill stays bounded. -/
structure Buffer.KeepsBounds (b u : Buffer) : Prop where
  stream : u.stream = b.stream
  free : u.state = .free → b.state = .free
  fill : b.ring.length ≤ Config.ringLen → u.ring.length ≤ Config.ringLen

namespace Buffer.KeepsBounds

theorem refl (b : Buffer) : b.KeepsBounds b := ⟨rfl, id, id⟩

theorem starve (b : Buffer) : b.KeepsBounds b.starve where
  stream := b.starve_given.1
  free h := by
    by_contra hb
    rw [Buffer.starve_state hb] at h
    cases h
  fill h := by
    unfold Buffer.starve
    split
    · exact Nat.zero_le _
    · exact Nat.zero_le _
    all_goals exact h

theorem consume (b : Buffer) : b.KeepsBounds b.consume.1 where
  stream := b.consume_stream.1
  free h := by
    by_contra hb
    exact Buffer.consume_ne_free hb h
  fill h := by
    have counted (x : Buffer) (hx : x.ring.length ≤ Config.ringLen) : x.consumeCounted.1.ring.length ≤ Config.ringLen := by
      unfold Buffer.consumeCounted
      dsimp only
      (repeat' split) <;> simp only [Buffer.hand, List.length_drop, List.length_nil] <;> omega
    unfold Buffer.consume
    (repeat' split)
    · exact h
    · exact h
    · exact h
    · exact counted _ h
    · exact counted _ h

/-- A SOUND frame of 48 sample frames keeps the bounds of the buffer that takes it (R81, R82). -/
theorem take (b : Buffer) {f : SoundFrame} (hf : f.samples.length = 48) : b.KeepsBounds (b.take f).1 := by
  have sequenced (x : Buffer) : (x.takeSequenced f).1.stream = x.stream ∧
      ((x.takeSequenced f).1.state = x.state ∨ (x.takeSequenced f).1.state = .priming) ∧
      (x.ring.length ≤ 192 → (x.takeSequenced f).1.ring.length ≤ 192) := by
    have hblock : (ringFrames f.priv f.samples).length = 48 := by simp [ringFrames, hf]
    unfold Buffer.takeSequenced
    dsimp only
    split
    · exact ⟨rfl, .inl rfl, fun h => appendBlocks_length_le h _ (by simpa using hblock)⟩
    · split
      · refine ⟨rfl, .inl rfl, fun h => appendBlocks_length_le h _ (fun y hy => ?_)⟩
        rcases List.mem_append.mp hy with hy | hy
        · rw [(List.mem_replicate.mp hy).2]
          exact List.length_replicate
        · rw [List.mem_singleton.mp hy, hblock]
      · exact ⟨rfl, .inr rfl, fun _ => appendBlocks_length_le (Nat.zero_le _) _ (by simpa using hblock)⟩
  have primes (x : Buffer) (hx : x.state = .priming ∨ x.state = .running) : x.KeepsBounds (x.takeSequenced f).1 := by
    obtain ⟨hstream, hstate, hfill⟩ := sequenced x
    refine ⟨hstream, fun h => ?_, hfill⟩
    rcases hstate with hstate | hstate
    · rw [← hstate, h]
    · rw [hstate] at h
      cases h
  unfold Buffer.take
  split
  · exact refl b
  · next hs =>
    obtain ⟨hstream, _, hfill⟩ := sequenced b.primed
    have hstate : (b.primed.takeSequenced f).1.state = .priming := by
      rcases (sequenced b.primed).2.1 with h | h <;> exact h
    exact ⟨hstream, fun h => (by rw [hstate] at h; cases h), fun _ => hfill (Nat.zero_le _)⟩
  · next hs => exact primes b (.inl hs)
  · next hs => exact primes b (.inr hs)

end Buffer.KeepsBounds

/-- A FREE buffer is assigned to no stream (R76), and no two to one (R79). -/
def Iku.Assigned (k : Iku) : Prop :=
  (∀ i : BufferNo, (k.buffers.get i).state = .free → (k.buffers.get i).stream = none) ∧
    ∀ (i j : BufferNo) (n : StreamNo), (k.buffers.get i).stream = some n → (k.buffers.get j).stream = some n → i = j

/-- What keeps the bounds of the intake buffers. -/
structure Iku.KeepsBounds (k l : Iku) : Prop where
  fills : (∀ i, (k.buffers.get i).ring.length ≤ Config.ringLen) → ∀ i, (l.buffers.get i).ring.length ≤ Config.ringLen
  assigned : k.Assigned → l.Assigned

namespace Iku.KeepsBounds

variable {k l m : Iku}

theorem refl (k : Iku) : k.KeepsBounds k := ⟨id, id⟩

theorem trans (h : k.KeepsBounds l) (j : l.KeepsBounds m) : k.KeepsBounds m := ⟨j.fills ∘ h.fills, j.assigned ∘ h.assigned⟩

theorem of_buffers (h : ∀ i, (k.buffers.get i).KeepsBounds (l.buffers.get i)) : k.KeepsBounds l where
  fills hk i := (h i).fill (hk i)
  assigned := fun ⟨hfree, hone⟩ => by
    refine ⟨fun i hi => ?_, fun i j n hi hj => ?_⟩
    · rw [(h i).stream]
      exact hfree i ((h i).free hi)
    · exact hone i j n ((h i).stream ▸ hi) ((h j).stream ▸ hj)

theorem of_eq (h : l.buffers = k.buffers) : k.KeepsBounds l := of_buffers (fun i => by rw [h]; exact .refl _)

theorem foldl {α : Type} {f : Iku → α → Iku} (h : ∀ (k : Iku) (a : α), k.KeepsBounds (f k a)) (l : List α) (k : Iku) :
    k.KeepsBounds (l.foldl f k) := by
  induction l generalizing k with
  | nil => exact refl k
  | cons a l ih => exact (h k a).trans (ih _)

theorem starve (k : Iku) (n : StreamNo) : k.KeepsBounds (k.starve n) := of_buffers (fun i => by
  rw [Iku.starve_buffers]
  split
  · exact .starve _
  · exact .refl _)

theorem expirePeer (k : Iku) (p : StationNo) : k.KeepsBounds (k.expirePeer p) := (starve k _).trans (starve _ _)

theorem consume (k : Iku) : k.KeepsBounds k.consume.1 := of_buffers (fun i => by
  simp only [Iku.consume, Tbl.get_map]
  exact .consume _)

theorem age (k : Iku) : k.KeepsBounds k.age := by
  rw [Iku.age_eq]
  have older : k.KeepsBounds { k with heard := k.heard.map HeardEntry.older } := of_eq rfl
  exact .trans (older.trans (foldl starve k.agedOut _)) (of_eq rfl)

theorem hearSound (k : Iku) {f : SoundFrame} (hf : f.samples.length = 48) : k.KeepsBounds (k.hearSound f).1 := by
  obtain ⟨_, _, hbuffers⟩ := k.hearSound_eq f
  refine of_buffers (fun i => ?_)
  rw [hbuffers]
  split
  · exact .refl _
  · next j hj =>
    rw [Tbl.get_set]
    split
    · next e => exact e ▸ .take _ hf
    · exact .refl _

theorem freeUnused (k : Iku) (users : List (User × StreamNo)) : k.KeepsBounds (k.freeUnused users) := by
  have cases (i : BufferNo) : (k.freeUnused users).buffers.get i = k.buffers.get i ∨
      (k.freeUnused users).buffers.get i = Buffer.free := by
    simp only [Iku.freeUnused, Tbl.get_map]
    (repeat' split) <;> simp
  have kept (i : BufferNo) {n : StreamNo} (h : ((k.freeUnused users).buffers.get i).stream = some n) :
      (k.buffers.get i).stream = some n := by
    rcases cases i with e | e
    · exact e ▸ h
    · rw [e] at h
      cases h
  refine ⟨fun h i => ?_, fun ⟨hfree, hone⟩ => ⟨fun i hi => ?_, fun i j n hi hj => hone i j n (kept i hi) (kept j hj)⟩⟩
  · rcases cases i with e | e
    · rw [e]
      exact h i
    · rw [e]
      exact Nat.zero_le _
  · rcases cases i with e | e
    · rw [e] at hi ⊢
      exact hfree i hi
    · rw [e]
      rfl

/-- A user is given a buffer only where no buffer serves its stream (R79). -/
theorem serveOne (own : StationNo) (k : Iku) (u : User × StreamNo) : k.KeepsBounds (Iku.serveOne own k u) := by
  unfold Iku.serveOne
  split
  · exact refl k
  · next hserves =>
    split
    · exact refl k
    · next j _ =>
      have hun (i : BufferNo) : (k.buffers.get i).stream ≠ some u.2 := fun hi => hserves (by
        have hsome : (k.bufferOf u.2).isSome = true :=
          List.find?_isSome.mpr ⟨i, List.mem_finRange i, by simp [hi]⟩
        simp [Iku.serves, hsome])
      have assigned (i : BufferNo) : (k.buffers.set j (Buffer.assigned u.2 (k.isStarved u.2))).get i =
          if j = i then Buffer.assigned u.2 (k.isStarved u.2) else k.buffers.get i := Tbl.get_set _ _ _ _
      refine ⟨fun h i => ?_, fun ⟨hfree, hone⟩ => ⟨fun i hi => ?_, fun i l n hi hl => ?_⟩⟩
      · show ((k.buffers.set j _).get i).ring.length ≤ _
        rw [assigned]
        split
        · exact Nat.zero_le _
        · exact h i
      · change ((k.buffers.set j _).get i).state = .free at hi
        show ((k.buffers.set j _).get i).stream = none
        rw [assigned] at hi ⊢
        split
        · next e =>
          rw [if_pos e] at hi
          unfold Buffer.assigned at hi
          dsimp only at hi
          split at hi <;> cases hi
        · next e =>
          rw [if_neg e] at hi
          exact hfree i hi
      · change ((k.buffers.set j _).get i).stream = _ at hi
        change ((k.buffers.set j _).get l).stream = _ at hl
        rw [assigned] at hi hl
        split at hi <;> split at hl
        · next hi' hl' => exact hi'.symm.trans hl'
        · cases hi
          exact absurd hl (hun l)
        · cases hl
          exact absurd hi (hun i)
        · exact hone i l n hi hl

theorem serve (k : Iku) (own : StationNo) (users : List (User × StreamNo)) : k.KeepsBounds (k.serve own users).1 :=
  ((freeUnused k users).trans (foldl (serveOne own) users _)).trans (of_eq rfl)

/-- The streams that START allocates are distinct (R78). -/
theorem started (k : Iku) (c : Store) (own : StationNo) : k.KeepsBounds (Iku.started c own) := by
  have hget (i : BufferNo) : let b := (Iku.started c own).buffers.get i
      b.ring = [] ∧ b.force = false ∧ b.returning = false ∧ b.stream = (staticStreams c own)[i.val]? ∧
        b.state = if b.stream = none then .free else .starved := allocateStatic_get _ i
  refine ⟨fun _ i => ?_, fun _ => ⟨fun i hi => ?_, fun i j n hi hj => ?_⟩⟩
  · obtain ⟨hring, _⟩ := hget i
    rw [hring]
    exact Nat.zero_le _
  · obtain ⟨_, _, _, _, hstate⟩ := hget i
    by_contra hs
    rw [if_neg hs, hi] at hstate
    cases hstate
  · obtain ⟨_, _, _, hsi, _⟩ := hget i
    obtain ⟨_, _, _, hsj, _⟩ := hget j
    rw [hi] at hsi
    rw [hj] at hsj
    obtain ⟨hlt, _⟩ := List.getElem?_eq_some_iff.mp hsi.symm
    exact Fin.ext ((List.getElem?_inj hlt (nodup_eraseDups _)).mp (hsi.symm.trans hsj))

end Iku.KeepsBounds

end Sys2Proof.Machine
end

section
/-! PROOF. The station list at every piece of the Radio Unit's work (R163 to R166). -/

namespace Sys2Proof.Machine

open Sys2Proof

/-! ### What leaves the station list alone -/

@[simp] theorem Rdu.setPath_stations (r : Rdu) (p : Path) (x : PathRec) : (r.setPath p x).stations = r.stations := by
  cases p <;> rfl

@[simp] theorem Rdu.retune_stations (r : Rdu) (p : Path) (ch : Channel) : (r.retune p ch).stations = r.stations :=
  r.setPath_stations _ _

@[simp] theorem Rdu.makeActive_stations (r : Rdu) (p : Path) : (r.makeActive p).stations = r.stations := by
  unfold Rdu.makeActive
  split <;> rfl

@[simp] theorem Rdu.useSpare_stations (r : Rdu) : r.useSpare.stations = r.stations := by
  unfold Rdu.useSpare
  (repeat' split) <;> simp

@[simp] theorem Rdu.control_stations (r : Rdu) (c : Store) (again : Bool) : (r.control c again).stations = r.stations := by
  unfold Rdu.control Rdu.useSpareOrWait
  dsimp only
  (repeat' split) <;> simp

@[simp] theorem Rdu.controlRetuning_stations (r : Rdu) (c : Store) (again : Bool) :
    (r.controlRetuning c again).stations = r.stations := r.control_stations _ _

@[simp] theorem Rdu.endAnnouncement_stations (r : Rdu) (cause : AnnounceCause) :
    (r.endAnnouncement cause).1.stations = r.stations := by
  unfold Rdu.endAnnouncement
  split <;> rfl

@[simp] theorem Rdu.takeWord_stations (r : Rdu) (p : Path) (w : Option DataWord) :
    (r.takeWord p w).1.stations = r.stations := by
  obtain ⟨a, d, h, _⟩ := r.takeWord_eq p w
  rw [h]
  exact r.setPath_stations _ _

@[simp] theorem Rdu.restartAf_stations (r : Rdu) : r.restartAf.stations = r.stations := by
  unfold Rdu.restartAf
  split <;> rfl

@[simp] theorem Rdu.watch_stations (r : Rdu) (c : Store) : (r.watch c).1.stations = r.stations := by
  have low (qs : Nat) : (r.watchLow c qs).1.stations = r.stations := by
    unfold Rdu.watchLow
    dsimp only
    (repeat' split) <;> rfl
  have good (x : Rdu) (qs : Nat) : (x.watchGood c qs).1.stations = x.stations := by
    unfold Rdu.watchGood
    dsimp only
    split <;> rfl
  unfold Rdu.watch
  split
  · rfl
  · exact ((control_stations _ c false).trans (good _ _)).trans (low _)

@[simp] theorem Rdu.compareSpare_stations (r : Rdu) : r.compareSpare.stations = r.stations := by
  unfold Rdu.compareSpare
  (repeat' split) <;> rfl

@[simp] theorem Rdu.measureProbe_stations (r : Rdu) (c : Store) (q : Nat) (w : Option DataWord) :
    (r.measureProbe c q w).1.stations = r.stations := by
  unfold Rdu.measureProbe Rdu.judge Rdu.probeFailed
  (repeat' (first | dsimp only | split)) <;> simp

@[simp] theorem Rdu.measureSeek_stations (r : Rdu) (c : Store) (k : Seek) (q : Nat) :
    (r.measureSeek c k q).1.stations = r.stations := by
  unfold Rdu.measureSeek
  dsimp only
  (repeat' split) <;> simp

@[simp] theorem Rdu.formCrossfade_stations (r : Rdu) : r.formCrossfade.stations = r.stations := by
  unfold Rdu.formCrossfade
  dsimp only
  split <;> simp

@[simp] theorem Rdu.formRadio_stations (r : Rdu) (c : Store) : (r.formRadio c).stations = r.stations := by
  unfold Rdu.formRadio
  (repeat' split) <;> simp

@[simp] theorem Rdu.swap_stations (r : Rdu) : r.swap.stations = r.stations :=
  (makeActive_stations _ _).trans (r.setPath_stations _ _)

@[simp] theorem Rdu.probeSwap_stations (r : Rdu) (c : Store) : (r.probeSwap c).1.stations = r.stations := by
  simp [Rdu.probeSwap]

@[simp] theorem Rdu.afExpires_stations (r : Rdu) (c : Store) : (r.afExpires c).stations = r.stations := by
  unfold Rdu.afExpires
  split <;> simp

@[simp] theorem Rdu.tickReception_stations (r : Rdu) : r.tickReception.1.stations = r.stations := by
  unfold Rdu.tickReception
  dsimp only
  (repeat' split) <;> simp

@[simp] theorem Rdu.boundary_stations (r : Rdu) (c : Store) : (r.boundary c).1.stations = r.stations := by
  have tick (x : Rdu) : (x.tickAf c).stations = x.stations := by
    unfold Rdu.tickAf
    (repeat' split) <;> simp
  have swapOrTick (x : Rdu) : (x.swapOrTick c).1.stations = x.stations := by
    unfold Rdu.swapOrTick
    dsimp only
    (repeat' split)
    · exact x.probeSwap_stations c
    · exact (tick _).trans x.swap_stations
    · exact tick x
  exact (Rdu.tickReception_stations _).trans (swapOrTick _)

@[simp] theorem Rdu.tune_stations (r : Rdu) (c : Store) (ch : Channel) : (r.tune c ch).1.stations = r.stations := by
  simp [Rdu.tune, Rdu.setDetectors, Rdu.dropWork]

@[simp] theorem Rdu.startSeek_stations (r : Rdu) (c : Store) (d : Direction) :
    (r.startSeek c d).1.stations = r.stations := by
  simp [Rdu.startSeek, Rdu.setDetectors, Rdu.dropWork]

@[simp] theorem Rdu.setScan_stations (r : Rdu) (c : Store) (on : Bool) : (r.setScan c on).stations = r.stations :=
  control_stations _ _ _

@[simp] theorem Rdu.setAnnounce_stations (r : Rdu) (on : Bool) : (r.setAnnounce on).1.stations = r.stations := by
  unfold Rdu.setAnnounce
  dsimp only
  split <;> simp

/-- START and RESTART leave an empty station list (R174). -/
theorem Rdu.started_stations (r : Rdu) (c : Store) : (r.started c).stations = [] := control_stations _ _ _

theorem Rdu.restart_stations (r : Rdu) (c : Store) : (r.restart c).stations = [] := by
  rw [(r.restart_restarted c).rest]
  rfl

/-! ### The order of the list (R163, R165, R166) -/

/-- The order of the station list: strictly rising channels (R163). -/
abbrev StationOrder (l : List StationEntry) : Prop := l.Pairwise (fun a b => a.channel < b.channel)

/-- An entry of a channel that the list does not have keeps the order. -/
theorem StationOrder.insertStation {e : StationEntry} {l : List StationEntry} (h : StationOrder l)
    (he : ∀ f ∈ l, f.channel ≠ e.channel) : StationOrder (insertStation e l) := by
  rw [insertStation_eq e l he]
  have hbefore : ∀ f ∈ l.takeWhile (fun f => decide (f.channel < e.channel)), f.channel < e.channel := fun f hf => by
    simpa using List.mem_takeWhile_imp hf
  have hafter : ∀ f ∈ l.dropWhile (fun f => decide (f.channel < e.channel)), e.channel < f.channel := by
    intro f hf
    cases hd : l.dropWhile (fun f => decide (f.channel < e.channel)) with
    | nil => rw [hd] at hf; cases hf
    | cons g m =>
      have hg : ¬ g.channel < e.channel := by
        have := List.head_dropWhile_not (fun f : StationEntry => decide (f.channel < e.channel)) (l := l) (by rw [hd]; simp)
        simpa [hd] using this
      have hsub : (g :: m).Sublist l := hd ▸ List.dropWhile_sublist _
      have hge : e.channel < g.channel :=
        lt_of_le_of_ne (not_lt.mp hg) (fun x => he g (hsub.subset List.mem_cons_self) x.symm)
      rw [hd] at hf
      rcases List.mem_cons.mp hf with rfl | hf
      · exact hge
      · exact hge.trans (List.rel_of_pairwise_cons (h.sublist hsub) hf)
  refine List.pairwise_append.mpr ⟨h.sublist (List.takeWhile_sublist _),
    List.pairwise_cons.mpr ⟨hafter, h.sublist (List.dropWhile_sublist _)⟩, fun f hf g hg => ?_⟩
  rcases List.mem_cons.mp hg with rfl | hg
  · exact hbefore f hf
  · exact (hbefore f hf).trans (hafter g hg)

theorem StationOrder.enterStation {l : List StationEntry} (h : StationOrder l) (ch : Channel) (mean : Nat)
    (d : ProgData) : StationOrder (enterStation ch mean d l) := by
  unfold Machine.enterStation
  split
  · exact h
  · split
    · refine List.pairwise_map.mpr (h.imp (fun {a b} hab => ?_))
      have same (e : StationEntry) : (if e.channel = ch then e.seenAgain mean d else e).channel = e.channel := by
        split <;> rfl
      rw [same, same]
      exact hab
    · next hnone =>
      have hnew : ∀ f ∈ l, f.channel ≠ (StationEntry.ofData ch mean d).channel := fun f hf e =>
        hnone (List.any_eq_true.mpr ⟨f, hf, beq_iff_eq.mpr e⟩)
      (repeat' split)
      · exact h.insertStation hnew
      · exact h
      · exact StationOrder.insertStation (h.sublist List.filter_sublist) (fun f hf => hnew f (List.mem_of_mem_filter hf))
      · exact h

theorem StationOrder.ageStations {l : List StationEntry} (h : StationOrder l) : StationOrder (ageStations l) := by
  have same {e f : StationEntry} (hf : (if e.seen then some { e with seen := false }
      else if e.unseen + 1 < Config.unseenEnd then some { e with unseen := e.unseen + 1 } else none) = some f) :
      f.channel = e.channel := by
    (repeat' split at hf) <;> cases hf <;> rfl
  refine List.pairwise_filterMap.mpr (h.imp (fun {a b} hab f hf g hg => ?_))
  rw [same hf, same hg]
  exact hab

theorem StationOrder.nextScan {r : Rdu} (h : StationOrder r.stations) : StationOrder r.nextScan.1.stations := by
  unfold Rdu.nextScan RduOut.andThen
  dsimp only
  rw [Rdu.retune_stations]
  split
  · exact h
  · exact h.ageStations

theorem StationOrder.measureScan {r : Rdu} (h : StationOrder r.stations) (q : Nat) :
    StationOrder (r.measureScan q).1.stations := by
  unfold Rdu.measureScan
  dsimp only
  split
  · exact h
  · exact StationOrder.nextScan (h.enterStation _ _ _)

/-- A front-end report keeps the order of the list (R144, R164). -/
theorem StationOrder.report {r : Rdu} (h : StationOrder r.stations) (c : Store) (p : Path) (x : Report) :
    StationOrder (r.report c p x).1.stations := by
  unfold Rdu.report
  dsimp only
  split
  · unfold Rdu.keep RduOut.andThen
    dsimp only
    split
    · unfold Rdu.useActive
      split <;> simpa using h
    · unfold Rdu.useSpareReport
      (repeat' split) <;> first
        | exact StationOrder.measureScan (by simpa using h) _
        | simpa using h
  · rw [Rdu.setPath_stations]
    exact h

end Sys2Proof.Machine
end

section
/-! PROOF. The bounds that every step keeps (R13, R76, R79, R98, R106, R118, R121, R123, R163). -/

namespace Sys2Proof.Machine

open Sys2Proof

/-- The bounds that an event keeps, each under its own premise. -/
structure State.KeepsBounds (s t : State) : Prop where
  queue : QueueBounded s → QueueBounded t
  fills : FillsBounded s → FillsBounded t
  assigned : BuffersAssigned s → BuffersAssigned t
  feeds : FeedsBounded s → FeedsBounded t
  levels : LevelsBounded s → LevelsBounded t
  derates : DeratesBounded s → DeratesBounded t
  duties : DutiesBounded s → DutiesBounded t
  stations : StationsOrdered s → StationsOrdered t

/-- What the Output Stage's bounds and the deadtimes make of the duties' bounds. -/
theorem dutiesBounded_iff {s : State} : DutiesBounded s ↔
    (∀ i, s.cpt.store.deadtime.get i ≤ 7) ∧ ∀ i, (s.ost.bridges.get i).DutyBounded where
  mp h := by
    refine ⟨fun i => ?_, fun i => ?_⟩
    · obtain ⟨_, _, hdeadtime, _⟩ := h i
      exact hdeadtime
    · obtain ⟨hlo, hhi, _, hduty⟩ := h i
      exact ⟨hlo, hhi, hduty⟩
  mpr := fun ⟨hdeadtime, hbounds⟩ i => by
    obtain ⟨hlo, hhi, hduty⟩ := hbounds i
    exact ⟨hlo, hhi, hdeadtime i, hduty⟩

namespace State.KeepsBounds

variable {s t u : State}

theorem refl (s : State) : s.KeepsBounds s := ⟨id, id, id, id, id, id, id, id⟩

theorem trans (h : s.KeepsBounds t) (k : t.KeepsBounds u) : s.KeepsBounds u where
  queue := k.queue ∘ h.queue
  fills := k.fills ∘ h.fills
  assigned := k.assigned ∘ h.assigned
  feeds := k.feeds ∘ h.feeds
  levels := k.levels ∘ h.levels
  derates := k.derates ∘ h.derates
  duties := k.duties ∘ h.duties
  stations := k.stations ∘ h.stations

/-- An event keeps the bounds where its blocks do, with the deadtimes as they were. -/
theorem of_blocks (hq : QueueBounded s → QueueBounded t) (hd : t.cpt.store.deadtime = s.cpt.store.deadtime)
    (hiku : s.iku.KeepsBounds t.iku) (hmxe : s.mxe.KeepsBounds t.mxe) (host : s.ost.KeepsBounds t.ost)
    (hrdu : StationOrder s.rdu.stations → StationOrder t.rdu.stations) : s.KeepsBounds t where
  queue := hq
  fills := hiku.fills
  assigned := hiku.assigned
  feeds := hmxe.feeds
  levels := hmxe.levels
  derates h i := (host i).derate (h i)
  duties h := by
    rw [dutiesBounded_iff] at h ⊢
    rw [hd]
    exact ⟨h.1, fun i => (host i).duty (h.2 i)⟩
  stations := hrdu

/-- An event that keeps the line's part, the store and the lifecycle keeps the bounds where its blocks do. -/
theorem of_keeps (h : s.Keeps t) (hiku : s.iku.KeepsBounds t.iku) (hmxe : s.mxe.KeepsBounds t.mxe)
    (host : s.ost.KeepsBounds t.ost) (hrdu : StationOrder s.rdu.stations → StationOrder t.rdu.stations) :
    s.KeepsBounds t := of_blocks h.lif.queue (by rw [h.cpt.store]) hiku hmxe host hrdu

/-- An event that leaves the blocks with bounds alone. -/
theorem of_same (h : s.Keeps t) (hiku : t.iku = s.iku) (hmxe : t.mxe = s.mxe) (host : t.ost = s.ost)
    (hrdu : t.rdu = s.rdu) : s.KeepsBounds t :=
  of_keeps h (.of_eq (by rw [hiku])) (.of_eq (by rw [hmxe]) (by rw [hmxe]) (by rw [hmxe])) (.of_eq (by rw [host]))
    (by rw [hrdu]; exact id)

theorem answer (h : s.KeepsBounds t) (st : Status) (d : List Byte) : s.KeepsBounds (t.answer st d) :=
  h.trans (of_blocks id rfl (.refl _) (.refl _) (.refl _) id)

theorem arbitrate (h : s.KeepsBounds t) : s.KeepsBounds t.arbitrate := h.trans (of_same t.arbitrate_keeps rfl rfl rfl rfl)

theorem setLink {k : Link} (hk : s.link.Keeps k) : s.KeepsBounds (s.setLink k) :=
  of_same (s.setLink_keeps hk) rfl rfl rfl rfl

theorem of_iku (hk : s.Keeps t) (h : s.iku.KeepsBounds t.iku) (hmxe : t.mxe = s.mxe) (host : t.ost = s.ost)
    (hrdu : t.rdu = s.rdu) : s.KeepsBounds t :=
  of_keeps hk h (.of_eq (by rw [hmxe]) (by rw [hmxe]) (by rw [hmxe])) (.of_eq (by rw [host])) (by rw [hrdu]; exact id)

theorem foldl {α : Type} {f : State → α → State} (h : ∀ (s : State) (a : α), s.KeepsBounds (f s a)) (l : List α)
    (s : State) : s.KeepsBounds (l.foldl f s) := by
  induction l generalizing s with
  | nil => exact refl s
  | cons a l ih => exact (h s a).trans (ih _)

/-! ### Parts of events -/

/-- What the Radio Unit passes on leaves the other blocks with bounds alone. -/
theorem setRdu (s : State) {o : RduOut} (h : StationOrder s.rdu.stations → StationOrder o.1.stations) :
    s.KeepsBounds (s.setRdu o) := by
  obtain ⟨hmxe, host, _, _⟩ := s.setRdu_keepsSound o
  obtain ⟨claim, hrdu⟩ := s.setRdu_rdu o
  refine of_keeps (s.setRdu_keeps o) (.of_eq (by rw [s.setRdu_iku])) (.of_eq (by rw [hmxe]) (by rw [hmxe]) (by rw [hmxe]))
    (.of_eq (by rw [host])) ?_
  rw [hrdu]
  exact h

theorem reenable (s : State) (i : BridgeNo) : s.KeepsBounds (s.reenable i) :=
  of_keeps (s.reenable_keeps i) (.refl _) (.reenable _ _) (.setBridge (.reenable _)) id

theorem expirePeer (s : State) (p : StationNo) : s.KeepsBounds (s.expirePeer p) :=
  of_iku (s.expirePeer_keeps p) (.expirePeer _ p) rfl rfl rfl

theorem derateBridge (s : State) (i : BridgeNo) {b : Bridge} (h : (s.ost.bridges.get i).KeepsBounds b) :
    s.KeepsBounds (s.derateBridge i b) :=
  of_keeps (.of_raised rfl rfl (.raiseAll _ _) rfl) (.refl _) (.refl _) (.setBridge h) id

theorem consumeBuffer (s : State) (i : BufferNo) : s.KeepsBounds (s.consumeBuffer i) := by
  refine of_iku (.of_eq rfl rfl rfl rfl) (.of_buffers (fun j => ?_)) rfl rfl rfl
  show (s.iku.buffers.get j).KeepsBounds ((s.iku.buffers.set i _).get j)
  rw [Tbl.get_set]
  split
  · next h => exact h ▸ .consume _
  · exact .refl _

theorem publishSlot (hand : Bool) (s : State) (i : PubSlotNo) : s.KeepsBounds (State.publishSlot hand s i) := by
  obtain ⟨hmxe, host, _, _⟩ := s.publishSlot_keepsSound hand i
  exact of_iku (s.publishSlot_keeps hand i) (.of_eq (s.publishSlot_iku hand i).2) hmxe host (s.publishSlot_rdu hand i)

/-! ### The block boundary -/

theorem boundaryOutput (s : State) : s.KeepsBounds s.boundaryOutput :=
  of_keeps s.boundaryOutput_keeps (.refl _) (.refl _) (.boundary _ _ s.inConfig) id

theorem boundaryLevels (s : State) : s.KeepsBounds s.boundaryLevels :=
  of_keeps s.boundaryLevels_keeps (.refl _) (.applyLevels _) (.refl _) id

theorem boundaryBuilt (s : State) : s.KeepsBounds s.boundaryBuilt := by
  have radio (x : State) : x.KeepsBounds x.boundaryRadioBlock :=
    of_keeps x.boundaryRadioBlock_keeps (.refl _) (.refl _) (.refl _) (by simp)
  have decided (v : MixView) (x : State) : x.KeepsBounds (x.boundaryDecide v) :=
    of_keeps (x.boundaryDecide_keeps v) (.refl _) (.decide_ _ v) (.refl _) id
  have pickup (v : MixView) (x : State) : x.KeepsBounds (x.boundaryPickup v) :=
    of_same (x.boundaryPickup_keeps v) (by simp) (by simp) (by simp) (by simp)
  have intake (x : State) : x.KeepsBounds x.boundaryIntake :=
    of_iku x.boundaryIntake_keeps (((Iku.KeepsBounds.age _).trans (.serve _ _ _)).trans (.consume _)) rfl rfl rfl
  have mixed (v : MixView) (a : FeedTbl Bool) (y : Sounds) (x : State) : x.KeepsBounds (x.boundaryMix v a y) :=
    of_keeps (x.boundaryMix_keeps v a y) (.refl _) (.mixed _ v a _ y) (.load _ _) id
  have uplink (v : MixView) (y : Sounds) (x : State) : x.KeepsBounds (x.boundaryUplink v y) :=
    of_same (x.boundaryUplink_keeps v y) rfl rfl rfl rfl
  have published (hand : Bool) (x : State) : x.KeepsBounds (x.boundaryPublish hand) :=
    (foldl (publishSlot hand) (Tbl.indices 2) x).trans (of_blocks id rfl (.refl _) (.refl _) (.refl _) id)
  exact boundaryOutput s |>.trans (boundaryLevels _) |>.trans (setLink (Link.checkNoIdle_keeps _ _))
    |>.trans (radio _) |>.trans (decided _ _) |>.trans (pickup _ _) |>.trans (intake _) |>.trans (mixed _ _ _ _)
    |>.trans (uplink _ _ _) |>.trans (published _ _)

theorem boundaryPeers (s : State) : s.KeepsBounds s.boundaryPeers :=
  .trans (t := { s with cle := { s.cle with peers := agePeers s.own s.cle.peers } })
    (of_blocks id rfl (.refl _) (.refl _) (.refl _) id) (foldl expirePeer _ _)

theorem boundaryRun (s : State) : s.KeepsBounds s.boundaryRun := by
  have worked : s.KeepsBounds s.boundaryWorked :=
    boundaryBuilt s |>.trans (setRdu _ (by simp)) |>.trans (of_same (State.boundaryClaims_keeps _) rfl rfl rfl rfl)
      |>.trans (boundaryPeers _)
  have cleared (x : State) : x.KeepsBounds x.clearInputs := of_same x.clearInputs_keeps rfl rfl rfl rfl
  rw [State.boundaryRun_eq]
  split
  · exact (worked.trans (setLink (Link.tickCadence_keeps _ _)) |>.trans (cleared _)).arbitrate
  · exact (worked.trans (cleared _)).arbitrate

theorem boundaryConfig (s : State) : s.KeepsBounds s.boundaryConfig :=
  (boundaryOutput s).trans (boundaryLevels _) |>.trans
    (of_blocks id rfl (.refl _) (.of_eq rfl rfl rfl) (.load _ _) id)

end State.KeepsBounds

/-! ### The commands -/

/-- The commands that act on a block with bounds. -/
def actsOnBounds : Instr → Bool
  | .pinReset | .start | .restart | .setConfig .. | .blockBoundary | .frameReceived .. | .peerExpiry .. | .streamStarved ..
  | .callLossExpiry .. | .slip .. | .repeatFrame .. | .setLevel .. | .applyLevels | .levelsApplied
  | .releaseIntervalStep .. | .faultAck .. | .thermalDerateStep .. | .calmDerateStep .. | .dcAsserted ..
  | .ocHistoryExpiry .. | .faultSourceAsserted .. | .faultSourceDeasserted .. | .pwmPeriod .. | .sampleInstant ..
  | .bridgeReenable .. | .tune .. | .seek .. | .scan .. | .announceEnable .. | .frontEndReport .. | .scanPassEnd
  | .crossfade | .diversitySwap | .probeSwap | .afTimerExpiry | .receptionHoldExpiry => true
  | _ => false

/-- An event that is not special keeps what every event keeps. -/
theorem exec_event_keeps {c : Instr} {s t : State} (hr : isRequest c = false) (hs : special c = false)
    (h : exec c s = .next t) : s.Keeps t := by
  obtain ⟨u, hu, hk⟩ := exec_event c s hr hs
  rw [hu] at h
  cases h
  exact hk

/-- A command that acts on no block with bounds leaves them alone. -/
theorem exec_same_of_no_action {c : Instr} {s t : State} (hc : actsOnBounds c = false) (h : exec c s = .next t) :
    t.iku = s.iku ∧ t.mxe = s.mxe ∧ t.ost = s.ost ∧ t.rdu = s.rdu := by
  cases c <;> first
    | exact Bool.noConfusion (show true = false from hc)
    | skip
  all_goals
    simp only [exec, execReadConfig, execSetSource, execPublish, execUnpublish, execClaim, execRelease, execReadStatus,
      execReadView, execReadClaims, execReadStations, execReadLineError, execTakeNotice, execMalformedRequest,
      execDiscardedTransaction, execReadTransaction, execStartOfFrame, execLineIdle, execLostContention, execBitError,
      execAttemptCompletion, execBrokenOffFrame, execBitErrorIsolation, execNoIdleIsolation, execJoiningComplete,
      execPresenceDue, execProbeDue, execWindowExpiry, execBidAgeOut, execMicSwitch, execHangTimerExpiry] at h
    (repeat' split at h) <;> (cases h; exact ⟨rfl, rfl, rfl, rfl⟩)

theorem exec_keepsBounds_of_no_action {c : Instr} {s t : State} (hc : actsOnBounds c = false)
    (h : exec c s = .next t) : s.KeepsBounds t := by
  obtain ⟨hiku, hmxe, host, hrdu⟩ := exec_same_of_no_action hc h
  have same (hq : t.lif.queue = s.lif.queue) (hd : t.cpt.store = s.cpt.store) : s.KeepsBounds t :=
    .of_blocks (by unfold QueueBounded; rw [hq]; exact id) (by rw [hd]) (.of_eq (by rw [hiku]))
      (.of_eq (by rw [hmxe]) (by rw [hmxe]) (by rw [hmxe])) (.of_eq (by rw [host])) (by rw [hrdu]; exact id)
  cases hs : special c with
  | true =>
    cases c <;> first
      | exact Bool.noConfusion (show true = false from hc)
      | exact Bool.noConfusion (show false = true from hs)
      | skip
    case takeNotice =>
      simp only [exec_takeNotice, execTakeNotice] at h
      (repeat' split at h) <;> cases h <;> exact same rfl rfl
    all_goals cases h; exact same rfl rfl
  | false =>
    cases hr : isRequest c with
    | true =>
      obtain ⟨u, st, d, hu, hk⟩ := exec_request c s hr hs
      rw [hu] at h
      cases h
      exact (State.KeepsBounds.of_same hk hiku hmxe host hrdu).answer st d
    | false => exact .of_same (exec_event_keeps hr hs h) hiku hmxe host hrdu

/-- The Intake's rows, and a frame received (R35, R73, R75, R81, R85). -/
theorem exec_intake_keepsBounds {c : Instr} {s t : State} (hc : (∃ x, c = .frameReceived x) ∨ (∃ p, c = .peerExpiry p) ∨
    (∃ n, c = .streamStarved n) ∨ (∃ p n u, c = .callLossExpiry p n u) ∨ ∃ i, c = .slip i ∨ c = .repeatFrame i)
    (h : exec c s = .next t) : s.KeepsBounds t := by
  rcases hc with ⟨x, rfl⟩ | ⟨p, rfl⟩ | ⟨n, rfl⟩ | ⟨p, n, u, rfl⟩ | ⟨i, rfl | rfl⟩
  · cases ha : acceptFrame s.lif.latch x with
    | none =>
      rw [exec_frameReceived_discarded ha] at h
      cases h
      refine .of_blocks id ?_ (.refl _) (.refl _) (.refl _) id
      dsimp only
      split <;> rfl
    | some b =>
      rw [exec_frameReceived_accepted ha] at h
      cases h
      have hwf : b.wf (keyStation x.key) := ((acceptedFramesAreTheSentOnes _ _ _).mp ha).2.1
      have latched : s.KeepsBounds { s with lif := s.lif.takeLatch x.sense } :=
        .of_blocks (by unfold QueueBounded; rw [Lif.takeLatch_queue]; exact id) rfl (.refl _) (.refl _) (.refl _) id
      refine (latched.trans ?_).arbitrate
      generalize { s with lif := s.lif.takeLatch x.sense } = y
      have hk := y.deliver_keeps (keyStation x.key) b
      unfold State.deliver at hk ⊢
      split
      · exact .refl y
      · split
        · exact .of_blocks id rfl (.refl _) (.refl _) (.refl _) id
        · cases b with
          | sound f => exact .of_iku (y.hearSound_keeps f) (.hearSound _ hwf.2.1) rfl rfl rfl
          | claim f => exact .setLink (Link.hearFrame_keeps _ _ _ _)
          | presence f => exact .setLink (Link.hearFrame_keeps _ _ _ _)
  · simp only [exec_peerExpiry, execPeerExpiry] at h
    split at h <;> cases h
    · exact .expirePeer s p
    · exact .refl s
  · simp only [exec_streamStarved, execStreamStarved] at h
    split at h <;> cases h
    · exact .of_iku (.of_eq rfl rfl rfl rfl) (.starve _ n) rfl rfl rfl
    · exact .refl s
  · cases h
    exact .of_iku (.of_eq rfl rfl rfl rfl) (.of_eq rfl) rfl rfl rfl
  all_goals
    simp only [exec_slip, execSlip, exec_repeatFrame, execRepeatFrame] at h
    split at h <;> cases h
    · exact .consumeBuffer s i
    · exact .refl s

/-- The Mix Engine's requests and rows (R98, R99, R106). -/
theorem exec_mix_keepsBounds {c : Instr} {s t : State} (hc : (∃ z l, c = .setLevel z l) ∨ c = .applyLevels ∨
    c = .levelsApplied ∨ ∃ o sl, c = .releaseIntervalStep o sl) (h : exec c s = .next t) : s.KeepsBounds t := by
  have mixed {u : State} {m : Mxe} (hu : u = { s with mxe := m }) (hm : s.mxe.KeepsBounds m) : s.KeepsBounds u := by
    subst hu
    exact .of_blocks id rfl (.refl _) hm (.refl _) id
  rcases hc with ⟨z, l, rfl⟩ | rfl | rfl | ⟨o, sl, rfl⟩
  · simp only [exec_setLevel, execSetLevel] at h
    split at h <;> cases h
    · exact (mixed rfl (.stage _ _ _)).answer _ _
    · exact (State.KeepsBounds.refl s).answer _ _
  · cases h
    exact State.KeepsBounds.answer (t := { s with mxe := { s.mxe with apply := true } })
      (mixed rfl (.of_eq rfl rfl rfl)) _ _
  · cases h
    exact .boundaryLevels s
  · simp only [exec_releaseIntervalStep, execReleaseIntervalStep] at h
    split at h <;> cases h
    · refine mixed rfl (.of_feeds rfl rfl (fun p k hf => ?_))
      simp only [Tbl.get_modify]
      split
      · next e =>
        subst e
        rw [Tbl.get_set]
        split
        · next e =>
          subst e
          exact ⟨hf.1, (Nat.sub_le _ _).trans hf.2⟩
        · exact hf
      · exact hf
    · exact .refl s

/-- The commands of the Output Stage that act on one bridge or filter (R123, R125, R126, R128, R131, R132, R135). -/
def actsOnBridge : Instr → Bool
  | .faultAck .. | .thermalDerateStep .. | .calmDerateStep .. | .dcAsserted .. | .ocHistoryExpiry ..
  | .faultSourceAsserted .. | .faultSourceDeasserted .. | .bridgeReenable .. => true
  | _ => false

theorem exec_bridge_keepsBounds {c : Instr} {s t : State} (hc : actsOnBridge c = true) (h : exec c s = .next t) :
    s.KeepsBounds t := by
  have output {u : State} (hk : u.cpt.store = s.cpt.store) (hu : u = { s with ost := u.ost, cpt := u.cpt })
      (ho : s.ost.KeepsBounds u.ost) : s.KeepsBounds u := by
    rw [hu]
    exact .of_blocks id (by rw [hk]) (.refl _) (.refl _) ho id
  cases c <;> first
    | exact Bool.noConfusion (show false = true from hc)
    | skip
  case faultAck =>
    simp only [exec_faultAck, execFaultAck] at h
    split at h <;> cases h
    · exact (State.KeepsBounds.refl s).answer _ _
    · exact State.KeepsBounds.answer (t := { s with ost := s.ost.faultAck s.cpt.store _ })
        (output rfl rfl (.faultAck _ _ _)) _ _
  case thermalDerateStep =>
    simp only [exec_thermalDerateStep, execThermalDerateStep] at h
    split at h <;> cases h
    · exact .derateBridge s _ (.of_derate (fun _ => Nat.min_le_left _ _) rfl rfl)
    · exact .refl s
  case calmDerateStep =>
    simp only [exec_calmDerateStep, execCalmDerateStep] at h
    split at h <;> cases h
    · exact .derateBridge s _ (.of_derate (fun hd => (Nat.sub_le _ _).trans hd) rfl rfl)
    · exact .refl s
  case dcAsserted =>
    simp only [exec_dcAsserted, execDcAsserted] at h
    split at h <;> cases h
    · exact output (by simp) rfl (.setBridge ((Bridge.KeepsBounds.watchDc _).trans (.addDc _ _ _)))
    · exact .refl s
  case ocHistoryExpiry =>
    cases h
    exact output rfl rfl (.setBridge (.of_duty rfl rfl (.inl rfl)))
  case faultSourceAsserted =>
    cases h
    exact output (by simp) rfl (.assertSource _ _ _)
  case faultSourceDeasserted =>
    cases h
    exact output rfl rfl (.deassertSource _ _)
  case bridgeReenable =>
    simp only [exec_bridgeReenable, execBridgeReenable] at h
    split at h <;> cases h
    · exact .reenable s _
    · exact .refl s

/-- The clocks (R114, R118 to R121, R129, R132). -/
theorem exec_clock_keepsBounds {c : Instr} {s t : State} (hc : (∃ x, c = .pwmPeriod x) ∨ (∃ x, c = .sampleInstant x) ∨
    c = .blockBoundary) (h : exec c s = .next t) : s.KeepsBounds t := by
  rcases hc with ⟨x, rfl⟩ | ⟨x, rfl⟩ | rfl
  · cases h
    have hstore : (s.cpt.raiseAll (s.ost.period s.cpt.store x).2).store = s.cpt.store := Cpt.raiseAll_store _ _
    refine ⟨id, id, id, id, id, fun hd i => ?_, fun hd => ?_, id⟩
    · obtain ⟨b, hb, hperiod⟩ := Ost.KeepsBounds.period s.ost s.cpt.store x i
      show ((s.ost.period s.cpt.store x).1.bridges.get i).derate ≤ _
      rw [hperiod, Bridge.period_derate]
      exact hb.derate (hd i)
    · rw [dutiesBounded_iff] at hd ⊢
      obtain ⟨hdt, hduty⟩ := hd
      refine ⟨by rw [hstore]; exact hdt, fun i => ?_⟩
      obtain ⟨b, hb, hperiod⟩ := Ost.KeepsBounds.period s.ost s.cpt.store x i
      show ((s.ost.period s.cpt.store x).1.bridges.get i).DutyBounded
      rw [hperiod]
      exact (Bridge.KeepsBounds.period (hdt i) b _ _).duty (hb.duty (hduty i))
  · cases h
    refine (State.KeepsBounds.foldl State.KeepsBounds.reenable s.ost.dueBridges s).trans ?_
    exact .of_blocks id rfl (.refl _) (.of_eq rfl rfl rfl) (.instant _ _) id
  · simp only [exec_blockBoundary, execBlockBoundary] at h
    cases h
    split
    · exact .boundaryConfig s
    · exact .boundaryRun s

/-- The requests and rows of the Radio Unit (R142, R151, R152, R156, R159, R164, R167 to R169, R173). -/
def actsOnRadio : Instr → Bool
  | .tune .. | .seek .. | .scan .. | .announceEnable .. | .frontEndReport .. | .scanPassEnd | .crossfade
  | .diversitySwap | .probeSwap | .afTimerExpiry | .receptionHoldExpiry => true
  | _ => false

theorem exec_radio_keepsBounds {c : Instr} {s t : State} (hc : actsOnRadio c = true) (h : exec c s = .next t) :
    s.KeepsBounds t := by
  have listed {r : Rdu} (hr : r.stations = s.rdu.stations) : s.KeepsBounds { s with rdu := r } :=
    .of_blocks id rfl (.refl _) (.refl _) (.refl _) (by dsimp only; rw [hr]; exact id)
  have worked {o : RduOut} (ho : o.1.stations = s.rdu.stations) : s.KeepsBounds (s.setRdu o) :=
    .setRdu s (by rw [ho]; exact id)
  have refused := State.KeepsBounds.refl s
  cases c <;> first
    | exact Bool.noConfusion (show false = true from hc)
    | skip
  case tune =>
    simp only [exec_tune, execTune] at h
    (repeat' split at h) <;> cases h
    · exact ((worked (Rdu.tune_stations _ _ _)).answer _ _).arbitrate
    all_goals exact refused.answer _ _
  case seek =>
    simp only [exec_seek, execSeek] at h
    (repeat' split at h) <;> cases h
    · exact refused.answer _ _
    · exact ((worked (Rdu.startSeek_stations _ _ _)).answer _ _).arbitrate
    all_goals exact refused.answer _ _
  case scan =>
    simp only [exec_scan, execScan] at h
    (repeat' split at h) <;> cases h
    · exact refused.answer _ _
    · exact .of_blocks id rfl (.refl _) (.refl _) (.refl _) id
    · exact (listed (Rdu.setScan_stations _ _ _)).answer _ _
  case announceEnable =>
    simp only [exec_announceEnable, execAnnounceEnable] at h
    (repeat' split at h) <;> cases h
    · exact refused.answer _ _
    · exact .of_blocks id rfl (.refl _) (.refl _) (.refl _) id
    · exact ((worked (Rdu.setAnnounce_stations _ _)).answer _ _).arbitrate
  case frontEndReport p x =>
    simp only [exec_frontEndReport, execFrontEndReport] at h
    split at h <;> cases h
    · exact (State.KeepsBounds.setRdu s (fun ho => ho.report _ _ _)).arbitrate
    · exact refused
  case scanPassEnd =>
    simp only [exec_scanPassEnd, execScanPassEnd] at h
    split at h <;> cases h
    · exact .setRdu s StationOrder.nextScan
    · exact refused
  case crossfade =>
    simp only [exec_crossfade, execCrossfade] at h
    split at h <;> cases h
    · exact listed (Rdu.formCrossfade_stations _)
    · exact refused
  case diversitySwap =>
    simp only [exec_diversitySwap, execDiversitySwap] at h
    split at h <;> cases h
    · exact worked (Rdu.swap_stations _)
    · exact refused
  case probeSwap =>
    simp only [exec_probeSwap, execProbeSwap] at h
    split at h <;> cases h
    · exact worked (Rdu.probeSwap_stations _ _)
    · exact refused
  case afTimerExpiry =>
    simp only [exec_afTimerExpiry, execAfTimerExpiry] at h
    split at h <;> cases h
    · exact listed (Rdu.afExpires_stations _ _)
    · exact refused
  case receptionHoldExpiry =>
    simp only [exec_receptionHoldExpiry, execReceptionHoldExpiry] at h
    split at h <;> cases h
    · exact (worked (Rdu.tickReception_stations _)).arbitrate
    · exact refused

/-- SET_CONFIG stores no deadtime above 7 (R212). -/
theorem Store.write_deadtime {c d : Store} {item index : Nat} {v : List Byte} (h : c.write item index v = some d)
    (hc : ∀ i, c.deadtime.get i ≤ 7) (i : BridgeNo) : d.deadtime.get i ≤ 7 := by
  by_cases hi : item = 8
  · subst hi
    obtain ⟨b, _, h⟩ := Option.bind_eq_some_iff.mp h
    obtain ⟨n, hn, h⟩ := Option.bind_eq_some_iff.mp h
    cases h
    obtain ⟨m, _, rfl⟩ := Option.map_eq_some_iff.mp hn
    rw [Tbl.get_set]
    split
    · unfold clampNat
      omega
    · exact hc i
  · suffices hd : d.deadtime = c.deadtime from hd ▸ hc i
    unfold Store.write at h
    split at h
    case h_9 => exact absurd rfl hi
    case h_11 =>
      obtain ⟨on, _, h⟩ := Option.bind_eq_some_iff.mp h
      unfold Store.setClearing at h
      split at h <;> cases h <;> rfl
    case h_12 =>
      obtain ⟨_, _, h⟩ := Option.bind_eq_some_iff.mp h
      obtain ⟨_, _, h⟩ := Option.bind_eq_some_iff.mp h
      obtain ⟨_, _, h⟩ := Option.bind_eq_some_iff.mp h
      cases h
      rfl
    case h_2 | h_3 | h_4 | h_10 | h_13 =>
      obtain ⟨_, _, h⟩ := Option.bind_eq_some_iff.mp h
      obtain ⟨_, _, h⟩ := Option.bind_eq_some_iff.mp h
      cases h
      rfl
    case h_28 => cases h
    all_goals
      obtain ⟨_, _, rfl⟩ := Option.map_eq_some_iff.mp h
      rfl

/-- PIN_RESET, START, RESTART and SET_CONFIG (R22, R37, R212, R214). -/
theorem exec_lifecycle_keepsBounds {c : Instr} {s t : State} (hc : c = .pinReset ∨ c = .start ∨ c = .restart ∨
    ∃ i j v, c = .setConfig i j v) (h : exec c s = .next t) : s.KeepsBounds t := by
  have refused := State.KeepsBounds.refl s
  rcases hc with rfl | rfl | rfl | ⟨i, j, v, rfl⟩
  · cases h
    obtain ⟨_, _, hfills, hfeeds, hlevels, _, hqueue, _, _, _, _, hduties, hderates, hassigned, hstations⟩ :=
      resetMeetsTheInvariants
    exact ⟨fun _ => hqueue, fun _ => hfills, fun _ => hassigned, fun _ => hfeeds, fun _ => hlevels, fun _ => hderates,
      fun _ => hduties, fun _ => hstations⟩
  · simp only [exec_start, execStart] at h
    (repeat' split at h) <;> cases h
    · exact refused.answer _ _
    · refine State.KeepsBounds.answer ?_ _ _
      refine .of_blocks id ?_ (.started _ _ _) (.started _) (.started _ _) (fun _ => ?_)
      · simp [State.started]
      · show StationOrder (s.rdu.started _).stations
        rw [Rdu.started_stations]
        exact .nil
    · exact refused.answer _ _
  · simp only [exec_restart, execRestart] at h
    split at h <;> cases h
    · exact refused.answer _ _
    · refine State.KeepsBounds.answer ?_ _ _
      refine .of_blocks (fun _ => Nat.zero_le _) rfl (.started _ _ _) (.restart _) (.restart _) (fun _ => ?_)
      show StationOrder (s.rdu.restart _).stations
      rw [Rdu.restart_stations]
      exact .nil
  · simp only [exec_setConfig, execSetConfig] at h
    (repeat' split at h) <;> cases h
    · next d hd =>
      refine ⟨id, id, id, id, id, id, fun hs => ?_, id⟩
      rw [dutiesBounded_iff] at hs ⊢
      exact ⟨Store.write_deadtime hd hs.1, hs.2⟩
    all_goals exact refused.answer _ _

/-- Every command keeps the bounds. -/
theorem exec_keepsBounds {c : Instr} {s t : State} (h : exec c s = .next t) : s.KeepsBounds t := by
  cases hp : actsOnBounds c with
  | false => exact exec_keepsBounds_of_no_action hp h
  | true =>
    cases c <;> first
      | exact Bool.noConfusion (show false = true from hp)
      | skip
    case pinReset | start | restart | setConfig => exact exec_lifecycle_keepsBounds (by simp) h
    case frameReceived | peerExpiry | streamStarved | callLossExpiry | slip | repeatFrame =>
      exact exec_intake_keepsBounds (by simp) h
    case setLevel | applyLevels | levelsApplied | releaseIntervalStep => exact exec_mix_keepsBounds (by simp) h
    case pwmPeriod | sampleInstant | blockBoundary => exact exec_clock_keepsBounds (by simp) h
    case faultAck | thermalDerateStep | calmDerateStep | dcAsserted | ocHistoryExpiry | faultSourceAsserted |
        faultSourceDeasserted | bridgeReenable =>
      exact exec_bridge_keepsBounds rfl h
    all_goals exact exec_radio_keepsBounds rfl h

/-- Settles O6: every command keeps each bound by the block it concerns, and idling changes nothing. -/
theorem boundsKept : Obligations.BoundsKept := by
  unfold Obligations.BoundsKept
  intro s t h
  have kept : s.KeepsBounds t := by
    unfold step at h
    split at h
    · cases h
      exact .refl s
    · next c rest _ =>
      have popped : s.KeepsBounds { s with pending := rest } := ⟨id, id, id, id, id, id, id, id⟩
      exact popped.trans (exec_keepsBounds h)
  exact ⟨kept.fills, kept.queue, kept.feeds, kept.levels, kept.derates, kept.duties, kept.assigned, kept.stations⟩

end Sys2Proof.Machine
end

section
/-! PROOF. SET_SOURCE, PUBLISH and UNPUBLISH (R64 to R67). -/

namespace Sys2Proof.Machine

open Sys2Proof

/-! ### Arguments (R66, R210) -/

theorem SoundClass.ofCode_byte (k : SoundClass) : SoundClass.ofCode (BitVec.ofNat 8 k.code).toNat = some k := by
  cases k <;> rfl

theorem Source.ofCode_code (src : Source) : Source.ofCode src.code = some src := by cases src <;> rfl

theorem Source.ofCode_of_lt {n : Nat} (h : 3 < n) : Source.ofCode n = none := by
  unfold Source.ofCode
  split
  case h_5 => rfl
  all_goals omega

/-- The class argument of SET_SOURCE where it names a class, or is left out (R65). -/
theorem classArgument_code (k : SoundClass) : classArgument (some (BitVec.ofNat 8 k.code)) = some (some k) := by
  show (SoundClass.ofCode _).map some = _
  rw [SoundClass.ofCode_byte]
  rfl

/-- A slot argument is taken exactly where it names the open slot (R66, R67). -/
theorem openSlotArgument_eq (c : Store) (slot : Byte) :
    openSlotArgument c slot = if slot.toNat = c.openSlot.val then some c.openSlot else none := by
  have hopen (i : PubSlotNo) : (i != c.pickupSlot) = true ↔ i = c.openSlot := by
    unfold Store.openSlot
    generalize c.pickupSlot = p
    revert i p
    decide
  unfold openSlotArgument
  split
  · next h =>
    have hbyte : finOfByte 2 slot = some c.openSlot := by
      unfold finOfByte
      rw [dif_pos (h ▸ c.openSlot.isLt)]
      exact congrArg some (Fin.ext h)
    rw [hbyte, Option.filter_some, if_pos ((hopen _).mpr rfl)]
  · next h =>
    cases hb : finOfByte 2 slot with
    | none => rfl
    | some i =>
      have hi : i ≠ c.openSlot := fun e => h (by
        unfold finOfByte at hb
        split at hb <;> cases hb
        exact congrArg Fin.val e)
      rw [Option.filter_some, if_neg (fun e => hi ((hopen i).mp e))]

/-- PUBLISH takes every source but PICKUP (R66). -/
theorem publishable_code {b : Byte} {src : Source} (h : src ≠ .pickup) (hb : b.toNat = src.code) :
    publishable b = some src := by
  unfold publishable
  rw [hb, Source.ofCode_code]
  cases src <;> first
    | rfl
    | exact absurd rfl h

theorem publishable_of_lt {b : Byte} (h : 2 < b.toNat) : publishable b = none := by
  unfold publishable
  by_cases h3 : b.toNat = 3
  · rw [h3]
    rfl
  · rw [Source.ofCode_of_lt (by omega)]

/-! ### SET_SOURCE (R65) -/

/-- SET_SOURCE that the records take. -/
theorem exec_setSource_taken {b : Byte} {src : Source} {cls : Option Byte} {k : Option SoundClass} {p : Pub} (s : State)
    (flag : Byte) (hb : Source.ofCode b.toNat = some src) (hk : classArgument cls = some k)
    (hp : s.pub.setSource src (flag != 0) k = some p) :
    exec (.setSource b flag cls) s = .next (State.answer { s with pub := p } .accepted []) := by
  have hp : s.pub.setSource src (flagOfByte flag) k = some p := hp
  simp only [exec_setSource, execSetSource, hb, hk, hp]

/-- SET_SOURCE on a source whose record takes no such class. -/
theorem exec_setSource_refused {b : Byte} {src : Source} {cls : Option Byte} (s : State) (flag : Byte)
    (hb : Source.ofCode b.toNat = some src)
    (hr : ∀ k, classArgument cls = some k → s.pub.setSource src (flag != 0) k = none) :
    exec (.setSource b flag cls) s = .next (s.answer .badArgument []) := by
  simp only [exec_setSource, execSetSource, hb]
  cases hk : classArgument cls with
  | none => rfl
  | some k =>
    have hr : s.pub.setSource src (flagOfByte flag) k = none := hr k hk
    simp only [hr]

theorem classArgument_some {c : Byte} {k : Option SoundClass} (h : classArgument (some c) = some k) : k ≠ none := by
  obtain ⟨x, _, rfl⟩ := Option.map_eq_some_iff.mp h
  exact nofun

/-- PICKUP and an unknown source are refused (R65). -/
theorem exec_setSource_pickup_or_unknown (s : State) (b flag : Byte) (c : Option Byte) (h : 3 ≤ b.toNat) :
    exec (.setSource b flag c) s = .next (s.answer .badArgument []) := by
  by_cases h3 : b.toNat = 3
  · exact exec_setSource_refused s flag (src := .pickup) (by rw [h3]; rfl) (fun k _ => rfl)
  · simp only [exec_setSource, execSetSource, Source.ofCode_of_lt (show 3 < b.toNat by omega)]

/-! ### PUBLISH (R66) -/

theorem exec_publish_of_not_active {s : State} (h : s.cle.lifecycle ≠ .active) (slot source : Byte) :
    exec (.publish slot source) s = .next (s.answer .notReady []) := by
  simp only [exec_publish, execPublish, if_neg h]

theorem exec_publish_refused {s : State} {slot source : Byte} (ha : s.cle.lifecycle = .active)
    (h : slot.toNat ≠ s.cpt.store.openSlot.val ∨ 2 < source.toNat) :
    exec (.publish slot source) s = .next (s.answer .badArgument []) := by
  simp only [exec_publish, execPublish, if_pos ha]
  rcases h with h | h
  · rw [openSlotArgument_eq, if_neg h]
  · rw [publishable_of_lt h]
    cases openSlotArgument s.cpt.store slot <;> rfl

theorem exec_publish_taken {s : State} {slot source : Byte} {src : Source} (ha : s.cle.lifecycle = .active)
    (hslot : slot.toNat = s.cpt.store.openSlot.val) (hp : src ≠ .pickup) (hsrc : source.toNat = src.code) :
    let i := s.cpt.store.openSlot
    exec (.publish slot source) s = .next (State.answer
      { s with pub := s.pub.setSlot i ((s.pub.slots.get i).publish src) } .accepted []) := by
  simp only [exec_publish, execPublish, if_pos ha, openSlotArgument_eq, if_pos hslot, publishable_code hp hsrc]

/-! ### UNPUBLISH (R67) -/

theorem exec_unpublish_refused {s : State} {slot : Byte} (hc : s.inConfig = false)
    (h : slot.toNat ≠ s.cpt.store.openSlot.val) : exec (.unpublish slot) s = .next (s.answer .badArgument []) := by
  simp [execUnpublish, hc, openSlotArgument_eq, h]

theorem exec_unpublish_idle {s : State} {slot : Byte} (hc : s.inConfig = false)
    (h : slot.toNat = s.cpt.store.openSlot.val) (hi : s.pub.slots.get s.cpt.store.openSlot = .idle) :
    exec (.unpublish slot) s = .next (s.answer .accepted []) := by
  simp [execUnpublish, hc, openSlotArgument_eq, h, hi]

theorem exec_unpublish_publishing {s : State} {slot : Byte} (hc : s.inConfig = false)
    (h : slot.toNat = s.cpt.store.openSlot.val) (hi : s.pub.slots.get s.cpt.store.openSlot ≠ .idle) :
    exec (.unpublish slot) s = .next (State.answer { s with
      pub := s.pub.setSlot s.cpt.store.openSlot .idle
      lif := s.lif.handSound s.cle.lifecycle s.cpt.store.openSlot none } .accepted []) := by
  simp [execUnpublish, hc, openSlotArgument_eq, h, hi]

/-- What handing a frame, or an empty frame, to a sound slot does by lifecycle state and flight (R15, R16). -/
theorem Lif.handSound_cases (l : Lif) (lc : Lifecycle) (i : PubSlotNo) (f : Option SoundFrame) :
    l.handSound lc i f = { l with sound := (l.handSound lc i f).sound } ∧
      (∀ j, j ≠ i → (l.handSound lc i f).sound.get j = l.sound.get j) ∧
      (lc = .isolated → l.handSound lc i f = l) ∧
      (lc ≠ .isolated → (l.handSound lc i f).sound.get i = (l.sound.get i).hand (l.flying (.sound i)) f) := by
  by_cases hl : lc = .isolated
  · have hsame : l.handSound lc i f = l := if_pos hl
    rw [hsame]
    exact ⟨rfl, fun _ _ => rfl, fun _ => rfl, fun h => absurd hl h⟩
  · have hhand : l.handSound lc i f =
        { l with sound := l.sound.modify i (fun t => t.hand (l.flying (.sound i)) f) } := if_neg hl
    rw [hhand]
    refine ⟨rfl, fun j hj => ?_, fun h => absurd h hl, fun _ => Tbl.get_modify_self _ _ _⟩
    simp only [Tbl.get_modify, if_neg (Ne.symm hj)]

/-- Settles O23: each request by the branch of R65, R66 or R67 that it takes. -/
theorem publisherRequestsAct : Obligations.PublisherRequestsAct := by
  unfold Obligations.PublisherRequestsAct
  refine ⟨fun s flag => ⟨fun k => ⟨?aux0, ?aux1⟩, ?aux0Flag, ?aux1Flag, ?radioFlag, fun c => ?radioClass,
    fun b c h => exec_setSource_pickup_or_unknown s b flag c h⟩, fun s slot source => ?publish,
    fun s slot => ⟨fun hc => ?config, exec_unpublish_refused, fun hc hslot => ⟨exec_unpublish_idle hc hslot,
      fun hi => ?stop⟩⟩⟩
  case aux0 => exact exec_setSource_taken s flag (src := .aux0) rfl (classArgument_code k) rfl
  case aux1 => exact exec_setSource_taken s flag (src := .aux1) rfl (classArgument_code k) rfl
  case aux0Flag => exact exec_setSource_taken s flag (src := .aux0) (k := none) rfl rfl rfl
  case aux1Flag => exact exec_setSource_taken s flag (src := .aux1) (k := none) rfl rfl rfl
  case radioFlag => exact exec_setSource_taken s flag (src := .radio) (k := none) rfl rfl rfl
  case radioClass =>
    refine exec_setSource_refused s flag (src := .radio) rfl (fun k hk => ?_)
    cases k with
    | none => exact absurd rfl (classArgument_some hk)
    | some x => rfl
  case publish =>
    refine ⟨fun hl => exec_publish_of_not_active hl slot source, exec_publish_refused,
      fun ha hslot src hp hsrc => ⟨fun hidle => ?_, fun old n hold => ?_⟩⟩
    · rw [exec_publish_taken ha hslot hp hsrc, hidle]
      rfl
    · rw [exec_publish_taken ha hslot hp hsrc, hold]
      rfl
  case config => simp only [exec_unpublish, execUnpublish, if_pos hc]
  case stop =>
    obtain ⟨hframe, hother, hisolated, hhand⟩ := s.lif.handSound_cases s.cle.lifecycle s.cpt.store.openSlot none
    have hne : 1 - s.cpt.store.openSlot ≠ s.cpt.store.openSlot := by
      generalize s.cpt.store.openSlot = i
      revert i
      decide
    refine ⟨_, exec_unpublish_publishing hc hslot hi, ?_, hother _ hne, hisolated, fun hl hf => ?_, fun hl hf => ?_⟩
    · dsimp only
      rw [← hframe]
      rfl
    · rw [hhand hl, hf]
      rfl
    · rw [hhand hl, hf]
      rfl

end Sys2Proof.Machine
end

section
/-! PROOF. The Publisher's frames at a block boundary (R68 to R70, R61). -/

namespace Sys2Proof.Machine

open Sys2Proof

/-! ### The Publisher's work slot by slot (R69, R70) -/

theorem streamOf_injective (own : StationNo) {i j : PubSlotNo} (h : streamOf own i = streamOf own j) : i = j := by
  have : 2 * own.val + i.val = 2 * own.val + j.val := congrArg Fin.val h
  exact Fin.ext (by omega)

theorem producerOf_streamOf (own : StationNo) (i : PubSlotNo) : producerOf (streamOf own i) = own := by
  refine Fin.ext ?_
  show (2 * own.val + i.val) / 2 = own.val
  omega

/-- The frame that a slot builds, by the slot and the record of its source (R69). -/
theorem Pub.frame_of_publishing {p : Pub} {i : PubSlotNo} {src : Source} {n : Serial}
    (h : p.slots.get i = .publishing src n) (own : StationNo) (sounds : Sounds) (call : Option CallBlock) :
    p.frame own i sounds call = some
      { stream := streamOf own i, seq := n, cls := (p.record src).cls, priv := (p.record src).priv
        stereo := sourceStereo src, call := if src = .pickup then call else none, samples := sounds.of src } := by
  unfold Pub.frame
  rw [h]

theorem Pub.frame_of_idle {p : Pub} {i : PubSlotNo} (h : p.slots.get i = .idle) (own : StationNo) (sounds : Sounds)
    (call : Option CallBlock) : p.frame own i sounds call = none := by
  unfold Pub.frame
  rw [h]

/-- The frame that a slot of this station builds now. -/
def State.soundFrame (x : State) (i : PubSlotNo) : Option SoundFrame :=
  x.pub.frame x.own i (x.sounds x.pku.uplink) x.pku.callBlock

/-- What a state has of the Publisher's work: nothing of the slot i is decided yet. -/
structure State.SamePublisher (i : PubSlotNo) (x y : State) : Prop where
  frame : y.soundFrame i = x.soundFrame i
  own : y.own = x.own
  sound : y.lif.sound.get i = x.lif.sound.get i
  flight : y.lif.flight = x.lif.flight
  life : y.cle.lifecycle = x.cle.lifecycle
  mark : y.cle.marks.get (streamOf x.own i) = x.cle.marks.get (streamOf x.own i)

/-- The work of one slot leaves the other slot's. -/
theorem State.publishSlot_other (hand : Bool) (x : State) {i j : PubSlotNo} (h : j ≠ i) :
    x.SamePublisher j (State.publishSlot hand x i) := by
  obtain ⟨hpub, hown, hrdu, hinputs, hpku, hflight, hlife, hsound, hmarks, _⟩ := State.publishSlot_acts hand x i _ rfl
  refine ⟨?_, hown, hsound j h, hflight, hlife, hmarks _ (fun e => h (streamOf_injective _ e))⟩
  unfold State.soundFrame State.sounds
  rw [hpub, hown, hrdu, hinputs, hpku]

/-- What one slot's work does to its own sound slot and mark (R61, R69). -/
theorem State.publishSlot_self (hand : Bool) (x : State) (i : PubSlotNo) :
    (x.soundFrame i = none → State.publishSlot hand x i = x) ∧
    ∀ f, x.soundFrame i = some f → let y := State.publishSlot hand x i
      y.cle.marks.get f.stream = f.priv ∧
        y.lif.sound.get i = if hand = true ∧ x.cle.lifecycle ≠ .isolated then
            (x.lif.sound.get i).hand (x.lif.flying (.sound i)) (some f)
          else x.lif.sound.get i := by
  obtain ⟨_, _, _, _, _, _, _, _, _, hacts⟩ := State.publishSlot_acts hand x i _ rfl
  unfold State.soundFrame
  refine ⟨fun hf => ?_, fun f hf => ?_⟩
  · rw [hf] at hacts
    exact hacts
  · rw [hf] at hacts
    obtain ⟨hmark, _, hsound⟩ := hacts
    exact ⟨hmark, hsound⟩

theorem State.soundFrame_stream {x : State} {i : PubSlotNo} {f : SoundFrame} (h : x.soundFrame i = some f) :
    f.stream = streamOf x.own i := by
  unfold State.soundFrame Pub.frame at h
  split at h <;> cases h
  rfl

theorem Lif.flying_congr {l m : Lif} (h : m.flight = l.flight) (st : TxStore) : m.flying st = l.flying st := by
  unfold Lif.flying
  rw [h]

/-- The Publisher's work at a boundary, as one slot sees it (R61, R69, R70). -/
theorem State.boundaryPublish_slot (hand : Bool) (x : State) (i : PubSlotNo) :
    (x.boundaryPublish hand).pub.slots.get i = (x.pub.slots.get i).built ∧
    (x.soundFrame i = none →
      (x.boundaryPublish hand).cle.marks.get (streamOf x.own i) = x.cle.marks.get (streamOf x.own i) ∧
      (x.boundaryPublish hand).lif.sound.get i = x.lif.sound.get i) ∧
    ∀ f, x.soundFrame i = some f →
      (x.boundaryPublish hand).cle.marks.get (streamOf x.own i) = f.priv ∧
      (x.boundaryPublish hand).lif.sound.get i = if hand = true ∧ x.cle.lifecycle ≠ .isolated then
          (x.lif.sound.get i).hand (x.lif.flying (.sound i)) (some f)
        else x.lif.sound.get i := by
  have slots (z : State) (j : PubSlotNo) : (State.publishSlot hand z j).pub.slots = z.pub.slots := by
    rw [(State.publishSlot_acts hand z j _ rfl).1]
  have built : (x.boundaryPublish hand).pub.slots.get i = (x.pub.slots.get i).built := by
    rw [State.boundaryPublish_eq]
    simp only [Pub.built, Tbl.get_map, slots]
  have other (j : PubSlotNo) (z : State) (hj : i ≠ j) := State.publishSlot_other hand z hj
  refine ⟨built, ?_⟩
  rw [State.boundaryPublish_eq]
  by_cases hi : i = 0
  · subst hi
    have after := State.publishSlot_other hand (State.publishSlot hand x 0) (i := 1) (j := 0) (by decide)
    have hown : (State.publishSlot hand x 0).own = x.own := (State.publishSlot_acts hand x 0 _ rfl).2.1
    obtain ⟨hnone, hsome⟩ := State.publishSlot_self hand x 0
    refine ⟨fun hf => ?_, fun f hf => ?_⟩
    · dsimp only
      rw [after.sound, ← hown, after.mark, hnone hf]
      exact ⟨rfl, rfl⟩
    · obtain ⟨hmark, hsound⟩ := hsome f hf
      dsimp only
      rw [after.sound, ← hown, after.mark, hown, ← State.soundFrame_stream hf]
      exact ⟨hmark, hsound⟩
  · have hone : i = 1 := by
      have hne : i.val ≠ 0 := fun e => hi (Fin.ext e)
      exact Fin.ext (show i.val = 1 by omega)
    subst hone
    have before := State.publishSlot_other hand x (i := 0) (j := 1) (by decide)
    obtain ⟨hnone, hsome⟩ := State.publishSlot_self hand (State.publishSlot hand x 0) 1
    rw [before.frame] at hnone hsome
    refine ⟨fun hf => ?_, fun f hf => ?_⟩
    · dsimp only
      rw [hnone hf]
      exact ⟨before.mark, before.sound⟩
    · obtain ⟨hmark, hsound⟩ := hsome f hf
      rw [before.sound, before.life, Lif.flying_congr before.flight] at hsound
      rw [State.soundFrame_stream hf] at hmark
      exact ⟨hmark, hsound⟩

/-- The Publisher writes the own streams' marks alone (R61). -/
theorem State.boundaryPublish_otherMarks (hand : Bool) (x : State) {n : StreamNo} (h : producerOf n ≠ x.own) :
    (x.boundaryPublish hand).cle.marks.get n = x.cle.marks.get n := by
  have one (z : State) (j : PubSlotNo) (hz : producerOf n ≠ z.own) :
      (State.publishSlot hand z j).cle.marks.get n = z.cle.marks.get n ∧ (State.publishSlot hand z j).own = z.own := by
    obtain ⟨_, hown, _, _, _, _, _, _, hmarks, _⟩ := State.publishSlot_acts hand z j _ rfl
    exact ⟨hmarks n (fun e => hz (by rw [e, producerOf_streamOf])), hown⟩
  obtain ⟨hfirst, hown⟩ := one x 0 h
  rw [State.boundaryPublish_eq]
  exact (one _ 1 (by rw [hown]; exact h)).1.trans hfirst

/-! ### What the Publisher finds at a boundary (R68) -/

/-- A station at a boundary after step 1 of the Pickup Unit. -/
def State.boundaryPicked (s : State) : State :=
  (s.boundaryOutput.boundaryLevels.boundaryIdle.boundaryRadioBlock.boundaryDecide s.mixView).boundaryPickup s.mixView

/-- The state that the Publisher finds at a boundary. -/
def State.boundaryBuilding (s : State) : State :=
  let sounds := s.boundaryOutput.boundaryLevels.boundaryIdle.boundaryRadioBlock.sounds s.pku.uplink
  (s.boundaryPicked.boundaryIntake.boundaryMix s.mixView (s.mxe.activated s.mixView) sounds).boundaryUplink s.mixView sounds

theorem State.boundaryBuilt_eq (s : State) :
    s.boundaryBuilt = s.boundaryBuilding.boundaryPublish (s.cle.lifecycle == .active) := rfl

/-- A publish slot as the Publisher finds it at a boundary: the pickup slot starts with the pickup and ends with it (R68). -/
def State.slotAtBoundary (s : State) (i : PubSlotNo) : PubSlot :=
  if i = s.cpt.store.pickupSlot then
    match (s.pku.decide_ s.cpt.store s.cle).2.1 with
    | .keep => s.pub.slots.get i
    | .start => (s.pub.slots.get i).publish .pickup
    | .stop => .idle
  else s.pub.slots.get i

/-- The pickup slot's change leaves the records and the other sound slot, and its own sound slot but where it stops (R68,
R181, R184). -/
theorem State.pickupSlot_slots (x : State) (p : PickupSlot) :
    (x.pickupSlot p).pub = { x.pub with slots := (x.pickupSlot p).pub.slots } ∧
    (x.pickupSlot p).lif.flight = x.lif.flight ∧
    (∀ i, i ≠ x.cpt.store.pickupSlot → (x.pickupSlot p).pub.slots.get i = x.pub.slots.get i ∧
      (x.pickupSlot p).lif.sound.get i = x.lif.sound.get i) ∧
    (x.pickupSlot p).pub.slots.get x.cpt.store.pickupSlot = (match p with
      | .keep => x.pub.slots.get x.cpt.store.pickupSlot
      | .start => (x.pub.slots.get x.cpt.store.pickupSlot).publish .pickup
      | .stop => .idle) ∧
    (p ≠ .stop → (x.pickupSlot p).lif = x.lif) ∧ (x.cle.lifecycle = .isolated → (x.pickupSlot p).lif = x.lif) := by
  have slot (q : PubSlot) (i : PubSlotNo) (hi : i ≠ x.cpt.store.pickupSlot) :
      (x.pub.setSlot x.cpt.store.pickupSlot q).slots.get i = x.pub.slots.get i := Tbl.get_set_of_ne _ _ hi.symm
  have self (q : PubSlot) : (x.pub.setSlot x.cpt.store.pickupSlot q).slots.get x.cpt.store.pickupSlot = q :=
    Tbl.get_set_self _ _ _
  cases p with
  | keep => exact ⟨rfl, rfl, fun _ _ => ⟨rfl, rfl⟩, rfl, fun _ => rfl, fun _ => rfl⟩
  | start => exact ⟨rfl, rfl, fun i hi => ⟨slot _ i hi, rfl⟩, self _, fun _ => rfl, fun _ => rfl⟩
  | stop =>
    refine ⟨rfl, (x.lif.handSound_flight _ _ _).1, fun i hi => ⟨slot _ i hi, ?_⟩, self _, fun h => absurd rfl h,
      fun hl => ?_⟩
    · show (x.lif.handSound _ _ _).sound.get i = _
      unfold Lif.handSound
      split
      · rfl
      · simp only [Tbl.get_modify, if_neg hi.symm]
    · show x.lif.handSound _ _ _ = _
      exact if_pos hl

/-- Step 1 of the Pickup Unit gives its pickup slot the change it decides. -/
theorem State.boundaryPickup_pickupSlot (v : MixView) (x : State) : ∃ z : State,
    x.boundaryPickup v = z.pickupSlot (x.pku.decide_ v.store v.cle).2.1 ∧ z.pub = x.pub ∧ z.lif = x.lif ∧
      z.cle = x.cle ∧ z.cpt.store = x.cpt.store :=
  ⟨_, rfl, rfl, rfl, rfl, Cpt.raiseAll_store _ _⟩

/-- The blocks of the state that the Publisher finds which steps 1 and 2 of the boundary leave, and what they give. -/
theorem State.boundaryBuilding_blocks (s : State) : s.boundaryBuilding.own = s.own ∧
    s.boundaryBuilding.inputs = s.inputs ∧ s.boundaryBuilding.rdu.radio = s.boundaryRun.rdu.radio ∧
    s.boundaryBuilding.pku = s.boundaryRun.pku ∧ s.boundaryBuilding.iku = s.servedIku := by
  obtain ⟨_, hiku, _, hinputs, _, hrdu, hstore, _⟩ := s.boundary_served
  obtain ⟨_, _, _, _, _, hradio, _, _⟩ := s.boundaryRun_holds
  have hpku : s.boundaryBuilding.pku = s.boundaryRun.pku := by
    rw [s.boundaryRun_published.2, s.boundaryBuilt_eq, (State.boundaryPublish_calls _ _).2]
  rw [hradio]
  refine ⟨?_, ?_, ?_, hpku, ?_⟩
  · unfold State.own
    simp only [State.boundaryBuilding, boundaryUplink_cpt, boundaryMix_cpt]
    exact congrArg Store.own hstore
  · simp only [State.boundaryBuilding, boundaryUplink_inputs, boundaryMix_inputs]
    exact hinputs
  · simp only [State.boundaryBuilding, boundaryUplink_rdu, boundaryMix_rdu]
    exact congrArg Rdu.radio hrdu
  · simp only [State.boundaryBuilding, boundaryUplink_iku, boundaryMix_iku]
    exact hiku

/-- The Publisher finds the slots, sound slots and marks as step 1 of the Pickup Unit left them. -/
theorem State.boundaryBuilding_picked (s : State) : s.boundaryBuilding.pub = s.boundaryPicked.pub ∧
    s.boundaryBuilding.lif = s.boundaryPicked.lif ∧ s.boundaryBuilding.cle = s.boundaryPicked.cle := by
  simp only [State.boundaryBuilding, boundaryUplink_pub, boundaryMix_pub, boundaryIntake_pub, boundaryUplink_lif,
    boundaryMix_lif, boundaryIntake_lif, boundaryUplink_cle, boundaryMix_cle, boundaryIntake_cle, and_self]

/-- A station at a boundary after the no-idle check. -/
def State.boundaryChecked (s : State) : State := s.boundaryOutput.boundaryLevels.boundaryIdle

/-- The state that the Publisher finds: its slots, sound slots and marks (R19, R61, R64, R68). -/
theorem State.boundaryBuilding_slots (s : State) : s.boundaryBuilding.cle = s.boundaryChecked.cle ∧
    s.boundaryBuilding.pub = { s.pub with slots := s.boundaryBuilding.pub.slots } ∧
    (∀ i, s.boundaryBuilding.pub.slots.get i = s.slotAtBoundary i) ∧
    s.boundaryBuilding.lif.flight = s.boundaryChecked.lif.flight ∧
    ∀ i, (s.slotAtBoundary i ≠ .idle ∨ s.boundaryBuilding.cle.lifecycle = .isolated) →
      s.boundaryBuilding.lif.sound.get i = s.boundaryChecked.lif.sound.get i := by
  have hstore : s.boundaryChecked.cpt.store = s.cpt.store :=
    (((boundaryOutput_keeps s).trans (boundaryLevels_keeps _)).trans (boundaryIdle_keeps _)).cpt.store
  have hpub : s.boundaryChecked.pub = s.pub := rfl
  have hpku : s.boundaryChecked.pku = s.pku := rfl
  obtain ⟨hxpub, hxlif, hxcle⟩ := s.boundaryBuilding_picked
  obtain ⟨z, hz, hzpub, hzlif, hzcle, hzstore⟩ :=
    State.boundaryPickup_pickupSlot s.mixView (s.boundaryChecked.boundaryRadioBlock.boundaryDecide s.mixView)
  change s.boundaryPicked = _ at hz
  rw [boundaryDecide_pku, boundaryRadioBlock_pku, hpku] at hz
  rw [boundaryDecide_pub, boundaryRadioBlock_pub, hpub] at hzpub
  rw [boundaryDecide_lif, boundaryRadioBlock_lif] at hzlif
  rw [boundaryDecide_cle, boundaryRadioBlock_cle] at hzcle
  rw [boundaryDecide_cpt, boundaryRadioBlock_cpt, hstore] at hzstore
  rw [hz] at hxpub hxlif hxcle
  rw [pickupSlot_cle, hzcle] at hxcle
  obtain ⟨hslots, hflight, hother, hself, hkeep, hiso⟩ := z.pickupSlot_slots
    (s.pku.decide_ s.mixView.store s.mixView.cle).2.1
  rw [hzstore] at hother hself
  rw [hzpub] at hslots hother hself
  rw [hzlif] at hflight hother hkeep hiso
  rw [hzcle] at hiso
  rw [hxcle, hxpub, hxlif]
  refine ⟨rfl, hslots, fun i => ?_, hflight, fun i hi => ?_⟩
  · unfold State.slotAtBoundary
    by_cases hp : i = s.cpt.store.pickupSlot
    · rw [if_pos hp, hp]
      exact hself
    · rw [if_neg hp]
      exact (hother i hp).1
  · by_cases hp : i = s.cpt.store.pickupSlot
    · rcases hi with hi | hi
      · rw [hkeep (fun hstop => hi ?_)]
        unfold State.slotAtBoundary
        rw [if_pos hp, show (s.pku.decide_ s.cpt.store s.cle).2.1 = .stop from hstop]
      · rw [hiso hi]
    · exact (hother i hp).2

theorem State.KeepsPub.sound {x y : State} (h : x.KeepsPub y) : y.lif.sound = x.lif.sound := h.link.sound

theorem State.KeepsPub.marks {x y : State} (h : x.KeepsPub y) : y.cle.marks = x.cle.marks := h.link.marks

theorem State.KeepsPub.life {x y : State} (h : x.KeepsPub y) (hj : x.cle.lifecycle ≠ .joining) :
    y.cle.lifecycle = x.cle.lifecycle := h.link.life hj

theorem State.clearArbitrate_keepsPub (x : State) : x.KeepsPub x.clearInputs.arbitrate :=
  ⟨rfl, rfl, Lif.arbitrate_sound _ _, rfl, fun _ => rfl⟩

/-- After the Publisher a boundary leaves its slots, sound slots, marks and calls; outside JOINING the lifecycle too. -/
theorem State.boundaryRun_keepsPub (s : State) : s.boundaryBuilt.KeepsPub s.boundaryRun := by
  rw [State.boundaryRun_eq, State.boundaryWorked]
  exact (s.boundaryBuilt.boundaryRest_keepsPub _).trans (State.clearArbitrate_keepsPub _)

end Sys2Proof.Machine
end

section
/-! PROOF. O24: the frames a boundary builds. -/

namespace Sys2Proof.Machine

open Sys2Proof

/-- What step 1 of the Pickup Unit does to the pickup slot, by the calls before and after it (R68, R181, R184). -/
theorem Pku.decide_slot (p : Pku) (store : Store) (cle : Cle) : let r := p.decide_ store cle
    r.2.1 = match p.call, r.1.call with
      | none, some _ => .start
      | some _, none => .stop
      | _, _ => .keep := by
  intro r
  unfold r Pku.decide_
  cases hp : p.call with
  | none => cases hq : qualifying store cle with
    | none => simp only [hp]
    | some c => rfl
  | some a => cases hq : qualifying store cle with
    | none => rfl
    | some c =>
      have hfollow : (p.follow store c).call = some a := by
        unfold Pku.follow
        dsimp only
        split <;> exact hp
      have hswitch : (p.switch store c).call = some c.name := rfl
      dsimp only
      split
      · rw [hfollow]
      · rw [hswitch]

/-- The slot that the Publisher finds, by the calls before and after the boundary (R68). -/
theorem State.slotAtBoundary_eq (s : State) (i : PubSlotNo) : s.slotAtBoundary i =
    if i = s.cpt.store.pickupSlot then
      match s.pku.call, s.boundaryRun.pku.call, s.pub.slots.get i with
      | none, some _, .idle => .publishing .pickup 0
      | none, some _, .publishing _ n => .publishing .pickup n
      | some _, none, _ => .idle
      | _, _, q => q
    else s.pub.slots.get i := by
  obtain ⟨_, _, hpku, _⟩ := s.boundaryRun_holds
  have hcall : s.boundaryRun.pku.call = (s.pku.decide_ s.cpt.store s.cle).1.call := by
    rw [hpku, Pku.run_call]
    rfl
  unfold State.slotAtBoundary
  rw [Pku.decide_slot, hcall]
  split
  · cases s.pku.call <;> cases (s.pku.decide_ s.cpt.store s.cle).1.call <;> cases s.pub.slots.get i <;> rfl
  · rfl

/-- The frame that a source at sequence n gives in the state that the Publisher finds (R64, R69). -/
theorem State.boundaryBuilding_frame (s t : State) (ht : s.boundaryRun = t) {i : PubSlotNo} {src : Source} {n : Serial} :
    s.slotAtBoundary i = .publishing src n → s.boundaryBuilding.soundFrame i = some
      { stream := streamOf s.own i, seq := n, cls := (s.pub.record src).cls, priv := (s.pub.record src).priv
        stereo := decide (src ≠ .pickup)
        call := if src = .pickup then t.pku.call.map (fun c => ⟨c, t.pku.sd⟩) else none
        samples := match src with
          | .radio => t.rdu.radio
          | .aux0 => padTo 48 StereoSample.zero s.inputs.aux0
          | .aux1 => padTo 48 StereoSample.zero s.inputs.aux1
          | .pickup => match t.pku.uplink with
            | some l => l.map (fun x => ⟨x, x⟩)
            | none => List.replicate 48 StereoSample.zero } := by
  intro h
  obtain ⟨hown, hinputs, hradio, hpku, _⟩ := s.boundaryBuilding_blocks
  obtain ⟨_, hpub, hslot, _⟩ := s.boundaryBuilding_slots
  have hrecord : s.boundaryBuilding.pub.record src = s.pub.record src := by
    rw [hpub]
    cases src <;> rfl
  unfold State.soundFrame State.sounds
  rw [Pub.frame_of_publishing ((hslot i).trans h), hrecord, hown, hpku, hinputs, hradio, ht]
  cases src with
  | pickup =>
    unfold pickupBlock
    cases hu : t.pku.uplink <;> rfl
  | radio | aux0 | aux1 => rfl

theorem State.boundaryBuilding_noFrame (s : State) {i : PubSlotNo} (h : s.slotAtBoundary i = .idle) :
    s.boundaryBuilding.soundFrame i = none := by
  obtain ⟨_, _, hslot, _⟩ := s.boundaryBuilding_slots
  exact Pub.frame_of_idle ((hslot i).trans h) _ _ _

/-- The no-idle check of a boundary, as the Publisher sees it (R19). -/
theorem State.boundaryChecked_pub (s : State) : s.boundaryChecked.cle.marks = s.cle.marks ∧
    (s.boundaryChecked.cle.lifecycle = s.cle.lifecycle ∧ s.boundaryChecked.lif.sound = s.lif.sound ∧
        s.boundaryChecked.lif.flight = s.lif.flight ∨
      s.cle.lifecycle = .active ∧ s.boundaryChecked.cle.lifecycle = .isolated ∧
        s.boundaryChecked.lif.sound = Tbl.fill 2 TxSlot.empty) :=
  Link.checkNoIdle_pub s.boundaryOutput.boundaryLevels.link _

theorem State.boundaryPublish_life (hand : Bool) (x : State) :
    (x.boundaryPublish hand).cle.lifecycle = x.cle.lifecycle := by
  have one (z : State) (j : PubSlotNo) : (State.publishSlot hand z j).cle.lifecycle = z.cle.lifecycle := by
    obtain ⟨_, _, _, _, _, _, hlife, _⟩ := State.publishSlot_acts hand z j _ rfl
    exact hlife
  rw [State.boundaryPublish_eq]
  exact (one _ 1).trans (one x 0)

/-- A boundary of an ACTIVE station leaves the lifecycle state that the no-idle check left. -/
theorem State.boundaryRun_life {s : State} (h : s.cle.lifecycle = .active) :
    s.boundaryRun.cle.lifecycle = s.boundaryBuilding.cle.lifecycle := by
  obtain ⟨hcle, _⟩ := s.boundaryBuilding_slots
  obtain ⟨_, hlife⟩ := s.boundaryChecked_pub
  have hbuilt : s.boundaryBuilt.cle.lifecycle = s.boundaryBuilding.cle.lifecycle := State.boundaryPublish_life _ _
  refine (s.boundaryRun_keepsPub.life ?_).trans hbuilt
  rw [hbuilt, hcle]
  rcases hlife with ⟨e, _⟩ | ⟨_, e, _⟩
  · rw [e, h]
    nofun
  · rw [e]
    nofun

/-- A boundary changes the own streams' marks alone (R61). -/
theorem State.boundaryRun_otherMarks (s : State) {n : StreamNo} (h : producerOf n ≠ s.own) :
    s.boundaryRun.cle.marks.get n = s.cle.marks.get n := by
  obtain ⟨hown, _⟩ := s.boundaryBuilding_blocks
  obtain ⟨hcle, _⟩ := s.boundaryBuilding_slots
  have hbuilt : s.boundaryRun.cle.marks = s.boundaryBuilt.cle.marks := s.boundaryRun_keepsPub.marks
  rw [hbuilt, s.boundaryBuilt_eq, State.boundaryPublish_otherMarks _ _ (by rwa [hown]), hcle, s.boundaryChecked_pub.1]

/-- An idle slot stays idle over a boundary, and its stream keeps its mark (R69). -/
theorem State.boundaryRun_idleSlot {s : State} {i : PubSlotNo} (h : s.slotAtBoundary i = .idle) :
    s.boundaryRun.pub.slots.get i = .idle ∧
      s.boundaryRun.cle.marks.get (streamOf s.own i) = s.cle.marks.get (streamOf s.own i) := by
  obtain ⟨hown, _⟩ := s.boundaryBuilding_blocks
  obtain ⟨hcle, _, hslot, _⟩ := s.boundaryBuilding_slots
  obtain ⟨hbuilt, hnone, _⟩ := State.boundaryPublish_slot (s.cle.lifecycle == .active) s.boundaryBuilding i
  obtain ⟨hmark, _⟩ := hnone (s.boundaryBuilding_noFrame h)
  have hmarks : s.boundaryRun.cle.marks = s.boundaryBuilt.cle.marks := s.boundaryRun_keepsPub.marks
  rw [hown, hcle, s.boundaryChecked_pub.1] at hmark
  rw [hslot i, h] at hbuilt
  rw [s.boundaryRun_published.1, hmarks, s.boundaryBuilt_eq]
  exact ⟨hbuilt, hmark⟩

/-- A publishing slot after a boundary, and its stream's mark (R61, R69). -/
theorem State.boundaryRun_publishingSlot {s : State} {i : PubSlotNo} {src : Source} {n : Serial} {f : SoundFrame}
    (h : s.slotAtBoundary i = .publishing src n) (hf : s.boundaryBuilding.soundFrame i = some f) :
    s.boundaryRun.pub.slots.get i = .publishing src (n + 1) ∧
      s.boundaryRun.cle.marks.get (streamOf s.own i) = f.priv := by
  obtain ⟨hown, _⟩ := s.boundaryBuilding_blocks
  obtain ⟨_, _, hslot, _⟩ := s.boundaryBuilding_slots
  obtain ⟨hbuilt, _, hsome⟩ := State.boundaryPublish_slot (s.cle.lifecycle == .active) s.boundaryBuilding i
  obtain ⟨hmark, _⟩ := hsome f hf
  have hmarks : s.boundaryRun.cle.marks = s.boundaryBuilt.cle.marks := s.boundaryRun_keepsPub.marks
  rw [hown] at hmark
  rw [hslot i, h] at hbuilt
  rw [s.boundaryRun_published.1, hmarks, s.boundaryBuilt_eq]
  exact ⟨hbuilt, hmark⟩

/-- The sound slot of a slot that builds a frame: handed it in ACTIVE alone, and cleared where the no-idle check
isolates the station (R16, R19, R69). -/
theorem State.boundaryRun_sound {s : State} {i : PubSlotNo} {f : SoundFrame} (h : s.slotAtBoundary i ≠ .idle)
    (hf : s.boundaryBuilding.soundFrame i = some f) : let t := s.boundaryRun
    (s.cle.lifecycle = .active → t.cle.lifecycle = .active →
      t.lif.sound.get i = (s.lif.sound.get i).hand (s.lif.flying (.sound i)) (some f)) ∧
    (s.cle.lifecycle = .active → t.cle.lifecycle = .isolated → t.lif.sound.get i = TxSlot.empty) ∧
    (s.cle.lifecycle ≠ .active → t.lif.sound.get i = s.lif.sound.get i) := by
  intro t
  obtain ⟨hcle, _, _, hflight, hfound⟩ := s.boundaryBuilding_slots
  have hsounds : t.lif.sound = s.boundaryBuilt.lif.sound := s.boundaryRun_keepsPub.sound
  obtain ⟨_, hidle⟩ := s.boundaryChecked_pub
  obtain ⟨_, _, hsome⟩ := State.boundaryPublish_slot (s.cle.lifecycle == .active) s.boundaryBuilding i
  obtain ⟨_, hsound⟩ := hsome f hf
  rw [← s.boundaryBuilt_eq, ← hsounds, hfound i (.inl h), hcle] at hsound
  simp only [beq_iff_eq] at hsound
  have hlife (ha : s.cle.lifecycle = .active) :
      t.cle.lifecycle = s.boundaryChecked.cle.lifecycle := by
    rw [← hcle]
    exact State.boundaryRun_life ha
  refine ⟨fun ha hta => ?_, fun ha hti => ?_, fun ha => ?_⟩
  · rw [hlife ha] at hta
    rcases hidle with ⟨_, hs, hfl⟩ | ⟨_, hi, _⟩
    · rw [hsound, if_pos ⟨ha, by rw [hta]; nofun⟩, hs, Lif.flying_congr (hflight.trans hfl)]
    · rw [hi] at hta
      cases hta
  · rw [hlife ha] at hti
    rcases hidle with ⟨hl, _⟩ | ⟨_, _, hs⟩
    · rw [hl, ha] at hti
      cases hti
    · rw [hsound, if_neg (fun hn => hn.2 hti), hs, Tbl.get_fill]
  · rcases hidle with ⟨_, hs, _⟩ | ⟨e, _⟩
    · rw [hsound, if_neg (fun hn => ha hn.1), hs]
    · exact absurd e ha

theorem Iku.mem_takeCallLoss (k : Iku) (c : ClaimRef) (n : StreamNo) (loss : Nat) :
    ⟨c, n, loss, 0⟩ ∈ takeCallLoss k.callLoss c n loss :=
  k.takeCall_mem { stream := n, seq := 0, cls := .call, priv := true, stereo := false, call := some ⟨c, loss⟩, samples := [] }
    ⟨c, loss⟩ rfl

/-- The one slot that publishes PICKUP leaves its call block's entry in the call-loss table (R70). -/
theorem State.boundaryRun_ownCall {s : State} {i : PubSlotNo} {c : ClaimRef} (hi : (s.boundaryRun.pub.slots.get i).Calls)
    (hone : ∀ j, j ≠ i → ¬ (s.boundaryRun.pub.slots.get j).Calls) (hc : s.boundaryRun.pku.call = some c) :
    ⟨c, streamOf s.own i, s.boundaryRun.pku.sd, 0⟩ ∈ s.boundaryRun.iku.callLoss := by
  obtain ⟨hown, _, _, hpku, _⟩ := s.boundaryBuilding_blocks
  have hcalls (j : PubSlotNo) :
      (s.boundaryRun.pub.slots.get j).Calls ↔ (s.boundaryBuilding.pub.slots.get j).Calls := by
    rw [s.boundaryRun_published.1, s.boundaryBuilt_eq]
    exact (State.boundaryPublish_calls _ _).1 j
  rw [hcalls] at hi
  have halone (j : PubSlotNo) (hj : j ≠ i) : ¬ (s.boundaryBuilding.pub.slots.get j).Calls := by
    rw [← hcalls]
    exact hone j hj
  rw [← hpku] at hc
  rw [s.boundaryRun_callLoss, s.boundaryBuilt_eq, State.boundaryPublish_taken _ hi halone hc, hown, hpku]
  exact Iku.mem_takeCallLoss _ _ _ _

/-- Settles O24: the Publisher's slots, marks and sound slots after a boundary, slot by slot. -/
theorem publisherBuildsItsFrames : Obligations.PublisherBuildsItsFrames := by
  unfold Obligations.PublisherBuildsItsFrames
  intro s hc
  refine ⟨_, exec_blockBoundary_of_not_inConfig hc, fun n hn => s.boundaryRun_otherMarks hn, fun i => ?_⟩
  have hslot := s.slotAtBoundary_eq i
  have hframe := fun src n => s.boundaryBuilding_frame _ rfl (i := i) (src := src) (n := n)
  have hidle := State.boundaryRun_idleSlot (s := s) (i := i)
  have hpublishing := fun src n f => State.boundaryRun_publishingSlot (s := s) (i := i) (src := src) (n := n) (f := f)
  have hsound := fun f => State.boundaryRun_sound (s := s) (i := i) (f := f)
  have hcall := fun c => State.boundaryRun_ownCall (s := s) (i := i) (c := c)
  generalize s.boundaryRun = t at *
  intro stream slot
  change s.slotAtBoundary i = slot at hslot
  refine ⟨fun h => hidle (hslot.trans h), fun src n h => ?publishing⟩
  intro r f
  have hf : s.boundaryBuilding.soundFrame i = some f := by
    rw [hframe src n (hslot.trans h)]
    cases src <;> rfl
  obtain ⟨hnext, hmark⟩ := hpublishing src n f (hslot.trans h) hf
  obtain ⟨hactive, hisolated, hother⟩ := hsound f (by rw [hslot, h]; nofun) hf
  refine ⟨hnext, hmark, fun ha ht => ⟨fun hfly => ?free, fun hfly => ?flying⟩, hisolated, hother, fun c hfc halone => ?call⟩
  case free =>
    rw [hactive ha ht, hfly]
    rfl
  case flying =>
    rw [hactive ha ht, hfly]
    rfl
  case call =>
    change (if src = .pickup then _ else none) = some c at hfc
    split at hfc
    case isTrue hsrc =>
      subst hsrc
      obtain ⟨ref, href, rfl⟩ := Option.map_eq_some_iff.mp hfc
      exact hcall ref ⟨_, hnext⟩ (fun j hj ⟨m, hm⟩ => halone j m hj hm) href
    case isFalse => cases hfc

end Sys2Proof.Machine
end

section
/-! PROOF. O47: a SOUND frame at the buffer of its stream (R81, R82). -/

namespace Sys2Proof.Machine

open Sys2Proof

/-- The frames missing before one of this sequence, 0 where none is expected (R81). -/
def Buffer.missing (b : Buffer) (n : Serial) : Nat :=
  match b.expected with
  | none => 0
  | some e => (n - e).toNat

theorem ringFrames_length (priv : Bool) (l : List StereoSample) : (ringFrames priv l).length = l.length :=
  List.length_map _

/-- Up to three missing frames: silence for them and the gap mark, the oldest blocks pushed out (R81, R82). -/
theorem Buffer.takeSequenced_near {b : Buffer} {f : SoundFrame} (hring : b.ring.length ≤ 192)
    (hf : f.samples.length = 48) (hd : b.missing f.seq < 4) :
    b.takeSequenced f = ({ b with
      ring := (b.ring ++ List.replicate (48 * b.missing f.seq) (⟨0, 0, false⟩ : RingFrame) ++
        ringFrames f.priv f.samples).drop (48 * blocksLost b.ring.length (b.missing f.seq + 1))
      expected := some (f.seq + 1), gap := b.gap || decide (0 < b.missing f.seq) },
      decide (0 < blocksLost b.ring.length (b.missing f.seq + 1))) := by
  have hblocks (d : Nat) : ∀ x ∈ List.replicate d (silentRing 48) ++ [ringFrames f.priv f.samples], x.length = 48 := by
    intro x hx
    rcases List.mem_append.mp hx with h | h
    · rw [List.eq_of_mem_replicate h]
      exact List.length_replicate
    · rw [List.mem_singleton.mp h, ringFrames_length, hf]
  have happend (d : Nat) := appendBlocks_eq hring _ (hblocks d)
  have hflat (d : Nat) : (List.replicate d (silentRing 48) ++ [ringFrames f.priv f.samples]).flatten =
      List.replicate (48 * d) (⟨0, 0, false⟩ : RingFrame) ++ ringFrames f.priv f.samples := by
    rw [List.flatten_append, List.flatten_singleton, silentRing, List.flatten_replicate_replicate, Nat.mul_comm]
  have hcount (d : Nat) : (List.replicate d (silentRing 48) ++ [ringFrames f.priv f.samples]).length = d + 1 := by simp
  simp only [hflat, hcount, ← List.append_assoc] at happend
  unfold Buffer.missing at hd ⊢
  unfold Buffer.takeSequenced
  cases he : b.expected with
  | none =>
    have h0 := happend 0
    simp only [List.replicate_zero, List.nil_append] at h0
    dsimp only
    unfold Buffer.append
    rw [h0]
    simp
  | some e =>
    rw [he] at hd
    dsimp only at hd ⊢
    rw [if_pos (show seqDistance f.seq e < 4 from hd)]
    unfold Buffer.append
    dsimp only
    rw [show Config.blockLen = 48 from rfl, happend]
    rfl

theorem Buffer.append_of_empty {b : Buffer} (h : b.ring = []) (block : List RingFrame) :
    b.append [block] = ({ b with ring := block }, false) := by
  unfold Buffer.append
  rw [h]
  rfl

/-- A greater jump, or a frame out of order: the buffer primes anew, with force (R81). -/
theorem Buffer.takeSequenced_far {b : Buffer} {f : SoundFrame} (hd : 4 ≤ b.missing f.seq) :
    b.takeSequenced f = ({ b with
      state := .priming, ring := ringFrames f.priv f.samples, expected := some (f.seq + 1), highRun := 0, lowRun := 0
      gap := false, force := true }, false) := by
  unfold Buffer.missing at hd
  cases he : b.expected with
  | none =>
    rw [he] at hd
    exact absurd (show 4 ≤ 0 from hd) (by decide)
  | some e =>
    rw [he] at hd
    unfold Buffer.takeSequenced
    dsimp only
    rw [he]
    dsimp only
    rw [if_neg (show ¬ seqDistance f.seq e < 4 from Nat.not_lt.mpr hd)]
    rw [Buffer.append_of_empty rfl]
    rfl

/-- A STARVED buffer primes with the frame (R81). -/
theorem Buffer.take_of_starved {b : Buffer} {f : SoundFrame} (hs : b.state = .starved) :
    b.take f = ({ b with
      state := .priming, ring := ringFrames f.priv f.samples, expected := some (f.seq + 1), highRun := 0, lowRun := 0
      gap := false }, false) := by
  unfold Buffer.take
  rw [hs]
  dsimp only
  unfold Buffer.takeSequenced
  rw [show b.primed.expected = none from rfl]
  dsimp only
  rw [Buffer.append_of_empty rfl]
  rfl

theorem Buffer.take_of_sounding {b : Buffer} {f : SoundFrame} (hs : b.state = .priming ∨ b.state = .running) :
    b.take f = b.takeSequenced f := by
  unfold Buffer.take
  rcases hs with hs | hs <;> rw [hs]

/-- The notice of a SOUND frame: whether its buffer pushed blocks out (R82). -/
theorem Iku.hearSound_notices {k : Iku} {f : SoundFrame} {i : BufferNo} (h : k.bufferOf f.stream = some i) :
    (k.hearSound f).2 = if ((k.buffers.get i).take f).2 then [.overrun f.stream] else [] := by
  have hbuffers : ({ k with heard := k.heard.set f.stream (HeardEntry.ofFrame f) }.takeCall f).buffers = k.buffers :=
    Iku.takeCall_buffers _ _
  have hof : ({ k with heard := k.heard.set f.stream (HeardEntry.ofFrame f) }.takeCall f).bufferOf f.stream = some i := by
    unfold Iku.bufferOf
    rw [hbuffers]
    exact h
  unfold Iku.hearSound
  dsimp only
  rw [hof]
  dsimp only
  rw [hbuffers]

/-- An accepted SOUND frame of a peer, at the buffer of its stream and in the notices. -/
theorem State.exec_frameReceived_buffer {s : State} {x : LineFrame} {f : SoundFrame} {i : BufferNo}
    (ha : acceptFrame s.lif.latch x = some (.sound f)) (hc : s.inConfig = false) (hpeer : keyStation x.key ≠ s.own)
    (hi : s.iku.bufferOf f.stream = some i) : ∃ t, exec (.frameReceived x) s = .next t ∧
      t.iku.buffers.get i = ((s.iku.buffers.get i).take f).1 ∧
      t.cpt = if ((s.iku.buffers.get i).take f).2 then s.cpt.raise (.overrun f.stream) else s.cpt := by
  refine ⟨_, exec_frameReceived_accepted ha, ?_, ?_⟩
  all_goals rw [State.deliver_sound (s := { s with lif := s.lif.takeLatch x.sense }) hc hpeer]
  · exact Iku.hearSound_buffer hi
  · show s.cpt.raiseAll (s.iku.hearSound f).2 = _
    rw [Iku.hearSound_notices hi]
    split <;> rfl

/-- Settles O47: the buffer of an accepted SOUND frame, by its state and the frames missing before the frame. -/
theorem arrivalsFillTheBuffer : Obligations.ArrivalsFillTheBuffer := by
  unfold Obligations.ArrivalsFillTheBuffer
  intro s x f i ha hc hpeer hi hfills
  have hwf : (FrameBody.sound f).wf (keyStation x.key) := ((acceptedFramesAreTheSentOnes _ _ _).mp ha).2.1
  obtain ⟨_, hlen, _⟩ : SoundFrame.wf (keyStation x.key) f := hwf
  obtain ⟨t, hexec, hbuffer, hcpt⟩ := State.exec_frameReceived_buffer ha hc hpeer hi
  refine ⟨t, hexec, ?_⟩
  intro b block again d lost
  refine ⟨fun hs => ?starved, fun hs => ⟨fun hnear => ?near, fun hfar => ?far⟩⟩
  case starved =>
    rw [Buffer.take_of_starved hs] at hbuffer hcpt
    exact ⟨hbuffer, hcpt⟩
  case near =>
    rw [Buffer.take_of_sounding hs, Buffer.takeSequenced_near (hfills i) hlen hnear] at hbuffer hcpt
    refine ⟨hbuffer, hcpt.trans ?_⟩
    simp only [decide_eq_true_eq]
    rfl
  case far =>
    rw [Buffer.take_of_sounding hs, Buffer.takeSequenced_far hfar] at hbuffer hcpt
    exact ⟨hbuffer, hcpt⟩

end Sys2Proof.Machine
end

section
/-! PROOF. What a block boundary outside CONFIG leaves of the Intake's users, buffers and notices (R77, R79, R80, R86). -/

namespace Sys2Proof.Machine

open Sys2Proof

/-! ### The users of a boundary -/

/-- The Intake and the EXHAUSTED notices when the users of a boundary were served. -/
def State.intakeServed (s : State) : Iku × List Notice :=
  s.iku.age.serve s.own (s.decidedMxe.users ++ s.decidedPku.user)

theorem State.servedIku_eq (s : State) : s.servedIku = s.intakeServed.1.consume.1 := rfl

/-- The ramps and the mix leave which feed uses which stream. -/
theorem Mxe.mixed_users (m : Mxe) (v : MixView) (activated : FeedTbl Bool) (k : Iku) (sounds : Sounds) :
    (m.mixed v activated k sounds).1.users = m.users := by
  have hfeed (o : OutputNo) (sl : SlotNo) :
      (((m.mixed v activated k sounds).1.feeds.get o).get sl).active = ((m.feeds.get o).get sl).active ∧
      (((m.mixed v activated k sounds).1.feeds.get o).get sl).resolved = ((m.feeds.get o).get sl).resolved := by
    show (((m.moveFeeds v activated _).get o).get sl).active = _ ∧ (((m.moveFeeds v activated _).get o).get sl).resolved = _
    unfold Mxe.moveFeeds feedTbl
    simp only [Tbl.get_ofFn]
    split
    · obtain ⟨hresolved, _, hactive, _⟩ := Feed.move_holds v m.live m.fallback o (v.store.feed o sl)
        ((activated.get o).get sl) (((m.sounds v k sounds).get o).get sl) ((m.feeds.get o).get sl)
      exact ⟨hactive, hresolved⟩
    · exact ⟨rfl, rfl⟩
  unfold Mxe.users
  simp only [hfeed]

theorem Pku.run_user (p : Pku) (c : Store) (echo : List StereoSample) (served : Bool) (mics : Tbl 4 (List Sample)) :
    (p.run_ c echo served mics).user = p.user := by
  unfold Pku.user
  rw [Pku.run_call, (Pku.run_echo p c echo served mics).1]

/-- The users that a boundary served are those that its end shows. -/
theorem State.boundaryRun_users (s : State) :
    s.boundaryRun.mxe.users ++ s.boundaryRun.pku.user = s.decidedMxe.users ++ s.decidedPku.user := by
  obtain ⟨hmxe, _, hpku, _⟩ := s.boundaryRun_holds
  rw [hmxe, hpku, Pku.run_user]
  exact congrArg (· ++ _) (Mxe.mixed_users _ _ _ _ _)

/-! ### The waiting marks (R79) -/

theorem Iku.starve_waiting (k : Iku) (n : StreamNo) : (k.starve n).waiting = k.waiting := by
  unfold Iku.starve
  dsimp only
  split <;> split <;> rfl

theorem Iku.foldl_starve_waiting (l : List StreamNo) (k : Iku) : (l.foldl Iku.starve k).waiting = k.waiting := by
  induction l generalizing k with
  | nil => rfl
  | cons n l ih => rw [List.foldl_cons, ih, Iku.starve_waiting]

theorem Iku.takeCall_waiting (k : Iku) (f : SoundFrame) : (k.takeCall f).waiting = k.waiting := by
  unfold Iku.takeCall
  split <;> rfl

theorem State.boundaryPublish_waiting (hand : Bool) (x : State) : (x.boundaryPublish hand).iku.waiting = x.iku.waiting := by
  have one (z : State) (i : PubSlotNo) : (State.publishSlot hand z i).iku.waiting = z.iku.waiting := by
    unfold State.publishSlot
    split
    · rfl
    · exact Iku.takeCall_waiting _ _
  exact (one (State.publishSlot hand x 0) 1).trans (one x 0)

/-- The waiting marks after a boundary are those of the service of the users. -/
theorem State.boundaryRun_waiting (s : State) : s.boundaryRun.iku.waiting = s.intakeServed.1.waiting := by
  obtain ⟨x, hx, hiku, _⟩ := s.boundaryBuilt_published
  rw [s.boundaryRun_iku, Iku.foldl_starve_waiting, hx, State.boundaryPublish_waiting, hiku]
  rfl

/-! ### The Intake's notices (R79, R86) -/

/-- Several notices raised in their one place of the notice set. -/
theorem Cpt.raiseAll_place {place : Fin 14} (l : List Notice) (hl : ∀ n ∈ l, n.place = place) (c : Cpt) :
    (c.raiseAll l).notices.get place = l.foldl (fun e n => some (raisedEntry e n)) (c.notices.get place) := by
  induction l generalizing c with
  | nil => rfl
  | cons n l ih =>
    have hn : (c.raise n).notices.get place = some (raisedEntry (c.notices.get place) n) := by
      have := Cpt.raise_place c n
      rwa [hl n List.mem_cons_self] at this
    rw [Cpt.raiseAll_cons, ih (fun m hm => hl m (List.mem_cons_of_mem _ hm)), hn, List.foldl_cons]

theorem Iku.mem_underruns {k : Iku} {x : Notice} (h : x ∈ k.underruns) : ∃ n, x = .underrun n := by
  obtain ⟨n, _, hx⟩ := List.mem_flatMap.mp h
  split at hx
  · unfold underrunNotice at hx
    split at hx
    · obtain ⟨m, _, rfl⟩ := Option.map_eq_some_iff.mp (Option.mem_toList.mp hx)
      exact ⟨m, rfl⟩
    · cases hx
  · cases hx

/-- The users that wait after a boundary and did not before. -/
def State.newlyWaiting (s : State) : List (User × StreamNo) :=
  s.boundaryRun.iku.waiting.filter (fun u => !s.iku.waiting.contains u)

theorem Iku.age_waiting (k : Iku) : k.age.waiting = k.waiting := by
  rw [Iku.age_eq]
  exact Iku.foldl_starve_waiting _ _

theorem State.intakeServed_notices (s : State) :
    s.intakeServed.2 = s.newlyWaiting.map (fun u => Notice.exhausted u.2 u.1) := by
  unfold State.newlyWaiting
  rw [s.boundaryRun_waiting, ← Iku.age_waiting s.iku]
  rfl

/-- The step of a boundary that serves the users raises the Intake's notices. -/
theorem State.boundaryIntake_notice {x : State} {k : Iku} {own : StationNo} {users : List (User × StreamNo)}
    (hk : x.iku = k) (hown : x.own = own) (husers : x.mxe.users ++ x.pku.user = users) {r : Iku × List Notice} (hr : k.age.serve own users = r) :
    x.boundaryIntake.cpt = x.cpt.raiseAll (r.2 ++ r.1.underruns) := by
  subst hk hown husers hr
  rfl

theorem State.clearArbitrate_cpt (x : State) : x.clearInputs.arbitrate.cpt = x.cpt := rfl

/-- The state in which a boundary serves its users has their Intake and names, and the Intake's notices as before. -/
theorem State.boundaryPicked_intake (s : State) : s.boundaryPicked.iku = s.iku ∧ s.boundaryPicked.own = s.own ∧
    s.boundaryPicked.mxe.users ++ s.boundaryPicked.pku.user = s.decidedMxe.users ++ s.decidedPku.user ∧
    s.boundaryPicked.cpt.notices.get 6 = s.cpt.notices.get 6 := by
  have hkeeps : s.Keeps s.boundaryChecked.boundaryRadioBlock :=
    ((boundaryOutput_keeps s).trans (boundaryLevels_keeps _)).trans
      ((boundaryIdle_keeps _).trans (boundaryRadioBlock_keeps _))
  have hstore : s.boundaryPicked.cpt.store = s.cpt.store :=
    ((boundaryDecide_keeps _ _).trans (boundaryPickup_keeps _ _)).cpt.store.trans hkeeps.cpt.store
  have hchecked : s.cpt.SameAt 6 s.boundaryChecked.cpt :=
    ((s.boundaryOutput_sameAt (by decide) (by decide)).trans
      (s.boundaryOutput.boundaryLevels_sameAt (by decide))).trans
      (s.boundaryOutput.boundaryLevels.boundaryIdle_sameAt (by decide) (by decide))
  have hiku : s.boundaryChecked.iku = s.iku := rfl
  have hmxe : s.boundaryChecked.mxe = s.mxe.applyLevels.1 := rfl
  have hpku : s.boundaryChecked.pku = s.pku := rfl
  unfold State.own
  rw [hstore]
  unfold State.boundaryPicked State.decidedMxe State.decidedPku
  change (State.boundaryPickup s.mixView (s.boundaryChecked.boundaryRadioBlock.boundaryDecide s.mixView)).iku = _ ∧ _ ∧
    (State.boundaryPickup s.mixView (s.boundaryChecked.boundaryRadioBlock.boundaryDecide s.mixView)).mxe.users ++
      (State.boundaryPickup s.mixView (s.boundaryChecked.boundaryRadioBlock.boundaryDecide s.mixView)).pku.user = _ ∧
    (State.boundaryPickup s.mixView (s.boundaryChecked.boundaryRadioBlock.boundaryDecide s.mixView)).cpt.notices.get 6 = _
  generalize s.boundaryChecked = y at hchecked hiku hmxe hpku ⊢
  refine ⟨?_, rfl, ?_, ?_⟩
  · rw [boundaryPickup_iku, ← hiku]
    rfl
  · rw [boundaryPickup_mxe, boundaryPickup_pku, ← hmxe, ← hpku]
    rfl
  · exact hchecked.trans (boundaryPickup_sameAt s.mixView _ (by decide))

/-- The place of the Intake's notices after a boundary: EXHAUSTED, then UNDERRUN (R79, R86, R217). -/
theorem State.boundaryRun_intakeNotice (s : State) : s.boundaryRun.cpt.notices.get 6 =
    s.intakeServed.1.underruns.foldl (fun e n => some (raisedEntry e n))
      (s.newlyWaiting.foldl (fun e u => some (raisedEntry e (.exhausted u.2 u.1))) (s.cpt.notices.get 6)) := by
  have hplaces : ∀ n ∈ s.intakeServed.2 ++ s.intakeServed.1.underruns, n.place = 6 := by
    intro n hn
    rcases List.mem_append.mp hn with h | h
    · rw [s.intakeServed_notices] at h
      obtain ⟨u, _, rfl⟩ := List.mem_map.mp h
      rfl
    · obtain ⟨m, rfl⟩ := Iku.mem_underruns h
      rfl
  have hraised : s.boundaryRun.cpt.notices.get 6 =
      (s.cpt.raiseAll (s.intakeServed.2 ++ s.intakeServed.1.underruns)).notices.get 6 := by
    obtain ⟨hiku, hown, husers, hplace⟩ := s.boundaryPicked_intake
    have hbuilt : s.boundaryBuilt.cpt = s.boundaryPicked.boundaryIntake.cpt := by
      rw [s.boundaryBuilt_eq, boundaryPublish_cpt, State.boundaryBuilding, boundaryUplink_cpt, boundaryMix_cpt]
    have hrest : s.boundaryRun.cpt.notices.get 6 = s.boundaryBuilt.cpt.notices.get 6 := by
      rw [State.boundaryRun_eq, State.boundaryWorked]
      generalize s.boundaryBuilt = x
      rw [State.clearArbitrate_cpt]
      exact x.boundaryRest_sameAt (by decide) (by decide) (by decide) (by decide) _
    rw [hrest, hbuilt, State.boundaryIntake_notice hiku hown husers (r := s.intakeServed) rfl, Cpt.raiseAll_place _ hplaces, hplace,
      Cpt.raiseAll_place _ hplaces]
  rw [hraised, Cpt.raiseAll_place _ hplaces, List.foldl_append, s.intakeServed_notices, List.foldl_map]

/-- No buffer runs short, no UNDERRUN notice. -/
theorem Iku.underruns_of_full {k : Iku} (h : ∀ i, (k.buffers.get i).consume.2 = false) : k.underruns = [] := by
  refine List.flatMap_eq_nil_iff.mpr (fun n _ => ?_)
  split
  · unfold underrunNotice
    rw [h]
    rfl
  · rfl

/-- Where one stream's buffer runs short, its notice alone. -/
theorem Iku.underruns_of_short {k : Iku} {n : StreamNo} {i : BufferNo} (hi : k.bufferOf n = some i)
    (hshort : (k.buffers.get i).consume.2 = true) (h : ∀ j, j ≠ i → (k.buffers.get j).consume.2 = false) :
    k.underruns = [.underrun n] := by
  have hstream := Iku.bufferOf_stream hi
  have hone (m : StreamNo) : (match k.bufferOf m with
      | some j => underrunNotice (k.buffers.get j)
      | none => []) = if m = n then [.underrun n] else [] := by
    by_cases hm : m = n
    · subst hm
      rw [hi, if_pos rfl]
      dsimp only
      unfold underrunNotice
      rw [if_pos hshort, hstream]
      rfl
    · rw [if_neg hm]
      cases hb : k.bufferOf m with
      | none => rfl
      | some j =>
        have hj : j ≠ i := by
          rintro rfl
          exact hm (Option.some.inj ((Iku.bufferOf_stream hb).symm.trans hstream))
        dsimp only
        unfold underrunNotice
        rw [h j hj]
        rfl
  unfold Iku.underruns
  refine (congrArg (List.flatMap · (Tbl.indices 16)) (funext hone)).trans ?_
  have hall : ∀ n : StreamNo, (Tbl.indices 16).flatMap (fun m => if m = n then [Notice.underrun n] else []) =
      [.underrun n] := by decide
  exact hall n

end Sys2Proof.Machine
end

section
/-! PROOF. O49: what a buffer gives (R83 to R87). -/

namespace Sys2Proof.Machine

open Sys2Proof

/-! ### The quietest sample frame (R85) -/

/-- The place of the quietest sample frame, the earliest among several. -/
def IsQuietest (l : List RingFrame) (k : Nat) : Prop :=
  k < l.length ∧
  (∀ (j : Nat) (x y : RingFrame), l[j]? = some x → l[k]? = some y → (frameMid y).natAbs ≤ (frameMid x).natAbs) ∧
  ∀ (j : Nat) (x y : RingFrame), j < k → l[j]? = some x → l[k]? = some y → (frameMid y).natAbs < (frameMid x).natAbs

theorem IsQuietest.lt {l : List RingFrame} {k : Nat} (h : IsQuietest l k) : k < l.length := h.1

/-- The first of a list is the quietest where the quietest of the rest is not quieter. -/
theorem IsQuietest.cons_zero {x z : RingFrame} {l : List RingFrame} {j : Nat} (h : IsQuietest l j) (hz : l[j]? = some z)
    (hx : (frameMid x).natAbs ≤ (frameMid z).natAbs) : IsQuietest (x :: l) 0 := by
  obtain ⟨_, hleast, _⟩ := h
  refine ⟨Nat.succ_pos _, fun i u v hu hv => ?_, fun i _ _ hi => absurd hi (Nat.not_lt_zero i)⟩
  obtain rfl : x = v := Option.some.inj hv
  cases i with
  | zero => exact le_of_eq (congrArg _ (congrArg _ (Option.some.inj hu)))
  | succ i => exact hx.trans (hleast i u z hu hz)

/-- The quietest of the rest is the quietest of the list where it is quieter than the first. -/
theorem IsQuietest.cons_succ {x z : RingFrame} {l : List RingFrame} {j : Nat} (h : IsQuietest l j) (hz : l[j]? = some z)
    (hx : (frameMid z).natAbs < (frameMid x).natAbs) : IsQuietest (x :: l) (j + 1) := by
  obtain ⟨hlt, hleast, hfirst⟩ := h
  refine ⟨Nat.succ_lt_succ hlt, fun i u v hu hv => ?_, fun i u v hi hu hv => ?_⟩
  · obtain rfl : z = v := Option.some.inj (hz.symm.trans hv)
    cases i with
    | zero =>
      obtain rfl : x = u := Option.some.inj hu
      exact hx.le
    | succ i => exact hleast i u z hu hz
  · obtain rfl : z = v := Option.some.inj (hz.symm.trans hv)
    cases i with
    | zero =>
      obtain rfl : x = u := Option.some.inj hu
      exact hx
    | succ i => exact hfirst i u z (Nat.lt_of_succ_lt_succ hi) hu hz

theorem quietest_isQuietest {l : List RingFrame} (h : l ≠ []) : IsQuietest l (quietest l) := by
  induction l with
  | nil => exact absurd rfl h
  | cons x l ih =>
    cases l with
    | nil =>
      refine ⟨Nat.one_pos, fun j u v hu hv => ?_, fun j _ _ hj => absurd hj (Nat.not_lt_zero j)⟩
      cases j with
      | zero => exact le_of_eq (congrArg _ (congrArg _ (Option.some.inj (hv.symm.trans hu))))
      | succ j => cases hu
    | cons y l =>
      have hrest := ih (List.cons_ne_nil y l)
      have hz := List.getElem?_eq_getElem hrest.lt
      unfold quietest
      dsimp only
      rw [List.getD_eq_getElem?_getD, hz, Option.getD_some]
      split
      case isTrue hx => exact hrest.cons_succ hz hx
      case isFalse hx => exact hrest.cons_zero hz (Nat.le_of_not_lt hx)

/-- A slip gives the 49 oldest sample frames without the quietest: a block of 48. -/
theorem slipBlock_holds {ring : List RingFrame} (h : 49 ≤ ring.length) : ∃ k, IsQuietest (ring.take 49) k ∧
    slipBlock ring = (ring.take 49).eraseIdx k ∧ (slipBlock ring).length = 48 := by
  have hlen : (ring.take 49).length = 49 := List.length_take_of_le h
  have hk := quietest_isQuietest (l := ring.take 49) (List.ne_nil_of_length_pos (by omega))
  refine ⟨_, hk, rfl, ?_⟩
  show ((ring.take 49).eraseIdx (quietest (ring.take 49))).length = 48
  rw [List.length_eraseIdx_of_lt hk.lt, hlen]

/-- A repeat gives the 47 oldest sample frames, the quietest twice: a block of 48. -/
theorem repeatBlock_holds {ring : List RingFrame} (h : 47 ≤ ring.length) : ∃ k, IsQuietest (ring.take 47) k ∧
    repeatBlock ring = (ring.take 47).take (k + 1) ++ (ring.take 47).drop k ∧ (repeatBlock ring).length = 48 := by
  have hlen : (ring.take 47).length = 47 := List.length_take_of_le h
  have hk := quietest_isQuietest (l := ring.take 47) (List.ne_nil_of_length_pos (by omega))
  have hlt := hk.lt
  refine ⟨_, hk, rfl, ?_⟩
  show ((ring.take 47).take (quietest (ring.take 47) + 1) ++ (ring.take 47).drop (quietest (ring.take 47))).length = 48
  rw [List.length_append, List.length_take, List.length_drop, hlen]
  omega

/-! ### The block of a sounding buffer (R83 to R87) -/

/-- The high-run of a buffer with the fill before consumption (R85). -/
def Buffer.nextHigh (b : Buffer) : Nat := if 144 < b.ring.length then b.highRun + 1 else 0

/-- The low-run of a buffer with the fill before consumption (R85). -/
def Buffer.nextLow (b : Buffer) : Nat := if b.ring.length < 96 then min 8 (b.lowRun + 1) else 0

/-- A buffer that takes its oldest frames and gives a block with sound (R85 to R87). -/
def Buffer.gives (b : Buffer) (taken high low : Nat) (block : List RingFrame) (force : Bool) : Buffer :=
  { b with
    state := .running, ring := b.ring.drop taken, highRun := high, lowRun := low, gap := false, force := false
    given := block, returning := false, givenReturn := b.returning, givenForce := force || b.force || b.gap }

/-- Whether a buffer gives a block with sound at its next boundary (R83, R84). -/
def Buffer.Sounding (b : Buffer) : Prop := b.state = .running ∨ b.state = .priming ∧ 96 ≤ b.ring.length

theorem Buffer.gives_of_running {b : Buffer} (h : b.state = .running) (taken high low : Nat) (block : List RingFrame) :
    b.gives taken high low block false = { b with
      ring := b.ring.drop taken, highRun := high, lowRun := low, gap := false, force := false, given := block
      givenForce := b.force || b.gap, returning := false, givenReturn := b.returning } := by
  unfold Buffer.gives
  rw [← h, Bool.false_or]

theorem Buffer.fill_of_nextHigh {b : Buffer} (h : b.nextHigh = 8) : 144 < b.ring.length := by
  unfold Buffer.nextHigh at h
  split at h
  · assumption
  · cases h

/-- A sounding buffer consumes by its runs and its fill (R84 to R86). -/
theorem Buffer.consume_sounding {b : Buffer} (h : b.Sounding) : b.consume =
    if b.nextHigh = 8 then (b.gives 49 0 b.nextLow (slipBlock b.ring) false, false)
    else if 48 ≤ b.ring.length ∧ b.nextLow = 8 then (b.gives 47 b.nextHigh 0 (repeatBlock b.ring) false, false)
    else if 48 ≤ b.ring.length then (b.gives 48 b.nextHigh b.nextLow (b.ring.take 48) false, false)
    else (b.gives b.ring.length b.nextHigh b.nextLow (b.ring ++ silentRing (48 - b.ring.length)) true, true) := by
  have hcounted : b.consume = ({ b with state := .running } : Buffer).countRuns.consumeCounted := by
    unfold Buffer.consume
    rcases h with h | ⟨h, hfill⟩
    · rw [h]
      dsimp only
      rw [← h]
    · rw [h]
      dsimp only
      exact if_neg (Nat.not_lt.mpr hfill)
  rw [hcounted]
  unfold Buffer.consumeCounted
  dsimp only
  change (if b.nextHigh = 8 then _ else if 48 ≤ b.ring.length ∧ b.nextLow = 8 then _
    else if 48 ≤ b.ring.length then _ else _) = _
  have hgives (taken high low : Nat) (block : List RingFrame) (force : Bool) :
      ({ b with
          state := .running, ring := b.ring.drop taken, highRun := high, lowRun := low, gap := false
          force := force || b.force || b.gap } : Buffer).hand block = b.gives taken high low block force := by
    simp [Buffer.hand, Buffer.gives]
  split
  · exact congrArg (·, false) (hgives 49 0 b.nextLow _ false)
  · split
    · exact congrArg (·, false) (hgives 47 b.nextHigh 0 _ false)
    · split
      · exact congrArg (·, false) (hgives 48 b.nextHigh b.nextLow _ false)
      · have hall := hgives b.ring.length b.nextHigh b.nextLow (b.ring ++ silentRing (48 - b.ring.length)) true
        rw [List.drop_length] at hall
        exact congrArg (·, true) hall

/-- A buffer that primes gives silence (R83). -/
theorem Buffer.consume_priming {b : Buffer} (hs : b.state = .priming) (hfill : b.ring.length < 96) : b.consume =
    ({ b with given := List.replicate 48 ⟨0, 0, false⟩, givenForce := b.force, force := false, givenReturn := false },
      false) := by
  unfold Buffer.consume
  rw [hs]
  refine (if_pos hfill).trans ?_
  simp [Buffer.giveSilence, Buffer.hand, hs, silentRing, Config.blockLen]

/-- A buffer runs short only from RUNNING with less than a block (R86). -/
theorem Buffer.consume_full {b : Buffer} (h : b.state = .running → 48 ≤ b.ring.length) : b.consume.2 = false := by
  cases hs : b.state with
  | free =>
    unfold Buffer.consume
    rw [hs]
  | starved =>
    unfold Buffer.consume
    rw [hs]
  | priming =>
    by_cases hfill : b.ring.length < 96
    · rw [Buffer.consume_priming hs hfill]
    · have hlen : 48 ≤ b.ring.length := by omega
      rw [Buffer.consume_sounding (.inr ⟨hs, Nat.le_of_not_lt hfill⟩), if_pos hlen]
      split_ifs <;> rfl
  | running =>
    rw [Buffer.consume_sounding (.inl hs), if_pos (h hs)]
    split_ifs <;> rfl

/-! ### The rows SLIP and REPEAT (R85) -/

theorem Buffer.countRuns_runs (b : Buffer) : b.countRuns.highRun = b.nextHigh ∧ b.countRuns.lowRun = b.nextLow := ⟨rfl, rfl⟩

/-- SLIP at the eighth high boundary of a RUNNING buffer. -/
theorem exec_slip_of_high {s : State} {i : BufferNo} (hs : (s.iku.buffers.get i).state = .running)
    (hrun : (s.iku.buffers.get i).highRun = 7) (hfill : 144 < (s.iku.buffers.get i).ring.length) :
    exec (.slip i) s = .next { s with iku := { s.iku with
      buffers := s.iku.buffers.set i
        ((s.iku.buffers.get i).gives 49 0 0 (slipBlock (s.iku.buffers.get i).ring) false) } } := by
  have hhigh : (s.iku.buffers.get i).nextHigh = 8 := by
    unfold Buffer.nextHigh
    rw [if_pos hfill, hrun]
  have hlow : (s.iku.buffers.get i).nextLow = 0 := if_neg (by omega)
  have hrow : exec (.slip i) s = .next (s.consumeBuffer i) := if_pos ⟨hs, hhigh⟩
  rw [hrow, State.consumeBuffer, Buffer.consume_sounding (.inl hs), if_pos hhigh, hlow]

/-- REPEAT at the eighth low boundary of a RUNNING buffer that holds a block. -/
theorem exec_repeatFrame_of_low {s : State} {i : BufferNo} (hs : (s.iku.buffers.get i).state = .running)
    (hrun : (s.iku.buffers.get i).lowRun = 7 ∨ (s.iku.buffers.get i).lowRun = 8)
    (hblock : 48 ≤ (s.iku.buffers.get i).ring.length) (hfill : (s.iku.buffers.get i).ring.length < 96) :
    exec (.repeatFrame i) s = .next { s with iku := { s.iku with
      buffers := s.iku.buffers.set i
        ((s.iku.buffers.get i).gives 47 0 0 (repeatBlock (s.iku.buffers.get i).ring) false) } } := by
  have hhigh : (s.iku.buffers.get i).nextHigh = 0 := if_neg (by omega)
  have hlow : (s.iku.buffers.get i).nextLow = 8 := by
    unfold Buffer.nextLow
    rw [if_pos hfill]
    omega
  have hrow : exec (.repeatFrame i) s = .next (s.consumeBuffer i) := if_pos ⟨hs, hblock, hlow⟩
  rw [hrow, State.consumeBuffer, Buffer.consume_sounding (.inl hs), if_neg (by rw [hhigh]; decide),
    if_pos ⟨hblock, hlow⟩, hhigh]

/-! ### The buffers that a boundary serves -/

/-- Of the buffers that run after a piece of the Intake's work, none is new. -/
def Iku.RunsFrom (k m : Iku) : Prop :=
  ∀ j, (m.buffers.get j).state = .running → m.buffers.get j = k.buffers.get j

theorem Iku.RunsFrom.trans {k l m : Iku} (h : k.RunsFrom l) (g : l.RunsFrom m) : k.RunsFrom m := fun j hj =>
  (g j hj).trans (h j (g j hj ▸ hj))

theorem Iku.age_runsFrom (k : Iku) : k.RunsFrom k.age := by
  intro j hj
  rw [Iku.age_eq] at hj ⊢
  change ((k.agedOut.foldl Iku.starve _).buffers.get j).state = _ at hj
  show (k.agedOut.foldl Iku.starve _).buffers.get j = _
  rw [Iku.foldl_starve_buffers] at hj ⊢
  split_ifs at hj ⊢
  · unfold Buffer.starve at hj
    split at hj <;> simp_all
  · rfl

theorem Iku.freeUnused_runsFrom (k : Iku) (users : List (User × StreamNo)) : k.RunsFrom (k.freeUnused users) := by
  intro j hj
  simp only [Iku.freeUnused, Tbl.get_map] at hj ⊢
  split_ifs at hj ⊢
  · rfl
  · rfl
  · cases hj

theorem Iku.serveOne_runsFrom (own : StationNo) (k : Iku) (u : User × StreamNo) : k.RunsFrom (Iku.serveOne own k u) := by
  intro j hj
  unfold Iku.serveOne at hj ⊢
  split_ifs at hj ⊢
  · rfl
  · split at hj
    · rfl
    · rename_i i _
      simp only [Tbl.get_set] at hj ⊢
      split_ifs at hj ⊢
      · unfold Buffer.assigned at hj
        dsimp only at hj
        split_ifs at hj
      · rfl

theorem State.intakeServed_runsFrom (s : State) : s.iku.RunsFrom s.intakeServed.1 := by
  have hfold (own : StationNo) (l : List (User × StreamNo)) (k : Iku) : k.RunsFrom (l.foldl (Iku.serveOne own) k) := by
    induction l generalizing k with
    | nil => exact fun _ _ => rfl
    | cons u l ih => exact (Iku.serveOne_runsFrom own k u).trans (ih _)
  exact (Iku.age_runsFrom _).trans ((Iku.freeUnused_runsFrom _ _).trans (hfold _ _ _))

/-- A served buffer runs short only where it did so from RUNNING before the boundary. -/
theorem State.intakeServed_full {s : State} {j : BufferNo}
    (h : (s.iku.buffers.get j).state = .running → 48 ≤ (s.iku.buffers.get j).ring.length) :
    (s.intakeServed.1.buffers.get j).consume.2 = false := by
  refine Buffer.consume_full (fun hj => ?_)
  have hsame := s.intakeServed_runsFrom j hj
  rw [hsame] at hj ⊢
  exact h hj

/-- A buffer that keeps its stream over a boundary is served with that stream, alone, as the ages left it. -/
theorem State.intakeServed_holds {s : State} (h : BuffersAssigned s) {n : StreamNo} {i : BufferNo}
    (hi : (s.iku.buffers.get i).stream = some n) (hafter : (s.boundaryRun.iku.buffers.get i).stream = some n) :
    s.intakeServed.1.Holds n i (s.iku.age.buffers.get i) := by
  obtain ⟨hfree, hstream, hone⟩ := Iku.age_assigned h hi
  obtain ⟨_, _, _, hgiven, _⟩ := s.boundaryRun_holds
  have hserved : (s.servedIku.buffers.get i).stream = some n := (hgiven i).1 ▸ hafter
  have hconsumed : s.servedIku.buffers.get i = (s.intakeServed.1.buffers.get i).consume.1 := Tbl.get_map _ _ _
  rw [hconsumed, (Buffer.consume_stream _).1] at hserved
  exact Iku.serve_holds hfree hstream hone _ _ hserved

/-- A stream that is LIVE after a boundary was not starved at it: no peer expiry, and not aged out. -/
theorem State.boundaryRun_live {s : State} {n : StreamNo} (h : (s.boundaryRun.iku.heard.get n).state = .live) :
    s.peerExpires (producerOf n) = false ∧ (s.iku.age.heard.get n).state = .live ∧
      ¬ ((s.iku.heard.get n).state = .live ∧ 7 ≤ (s.iku.heard.get n).age) := by
  rw [s.boundaryRun_heard] at h
  split at h
  case isTrue => cases h
  case isFalse hexpires =>
    refine ⟨eq_false_of_ne_true (fun he => hexpires ⟨he, h⟩), h, fun ⟨hlive, hage⟩ => ?_⟩
    rw [Iku.age_heard, if_pos hlive, if_pos hage] at h
    cases h

/-- The buffer of a LIVE stream that stays assigned over a boundary gives its block as it is (R83 to R87). -/
theorem State.boundaryRun_givingBuffer {s : State} (h : BuffersAssigned s) {n : StreamNo} {i : BufferNo}
    (hi : (s.iku.buffers.get i).stream = some n) (hafter : (s.boundaryRun.iku.buffers.get i).stream = some n)
    (hlive : (s.boundaryRun.iku.heard.get n).state = .live) :
    s.boundaryRun.iku.buffers.get i = (s.iku.buffers.get i).consume.1 ∧
      s.intakeServed.1.Holds n i (s.iku.buffers.get i) := by
  obtain ⟨hexpires, _, haged⟩ := State.boundaryRun_live hlive
  have hage : s.iku.age.buffers.get i = s.iku.buffers.get i := by
    rw [Iku.age_buffer hi (fun j hj => h.2 j i n hj hi), if_neg haged]
  have hholds := State.intakeServed_holds h hi hafter
  rw [hage] at hholds
  refine ⟨?_, hholds⟩
  rw [State.boundaryRun_buffer h hi hafter, hage, hexpires]
  exact if_neg nofun

/-- A buffer that stays STARVED over a boundary hands its force with silence (R83, R87). -/
theorem State.boundaryRun_starvedBuffer {s : State} (h : BuffersAssigned s) {n : StreamNo} {i : BufferNo}
    (hi : (s.iku.buffers.get i).stream = some n) (hafter : (s.boundaryRun.iku.buffers.get i).stream = some n)
    (hs : (s.iku.buffers.get i).state = .starved) : s.boundaryRun.iku.buffers.get i = { s.iku.buffers.get i with
      given := List.replicate 48 ⟨0, 0, false⟩, givenForce := (s.iku.buffers.get i).force, force := false
      givenReturn := false } := by
  have hstarve (b : Buffer) (hb : b.state = .starved) : b.starve = b := by
    unfold Buffer.starve
    rw [hb]
  have hage : s.iku.age.buffers.get i = s.iku.buffers.get i := by
    rw [Iku.age_buffer hi (fun j hj => h.2 j i n hj hi), hstarve _ hs]
    exact ite_self _
  have hgiven := Buffer.consume_starved _ hs
  have hsilent := hstarve (s.iku.buffers.get i).consume.1 (by rw [hgiven]; exact hs)
  rw [State.boundaryRun_buffer h hi hafter, hage, hsilent, ite_self, hgiven]

/-- The UNDERRUN notice of the one buffer that runs short at a boundary, after the EXHAUSTED notices (R86). -/
theorem State.boundaryRun_underrun {s : State} {n : StreamNo} {i : BufferNo} {b : Buffer}
    (hholds : s.intakeServed.1.Holds n i b) (hshort : b.consume.2 = true)
    (hothers : ∀ j, j ≠ i → (s.iku.buffers.get j).state = .running → 48 ≤ (s.iku.buffers.get j).ring.length) :
    s.boundaryRun.cpt.notices.get 6 = some (raisedEntry
      (s.newlyWaiting.foldl (fun e u => some (raisedEntry e (.exhausted u.2 u.1))) (s.cpt.notices.get 6))
      (.underrun n)) := by
  obtain ⟨hb, _, hstream, hone⟩ := hholds
  subst hb
  rw [s.boundaryRun_intakeNotice, Iku.underruns_of_short (Iku.bufferOf_eq_some hstream hone) hshort
    (fun j hj => State.intakeServed_full (hothers j hj))]
  rfl

/-- Settles O49: the two rows and the boundary from the block of a sounding buffer. -/
theorem buffersGiveTheirBlocks : Obligations.BuffersGiveTheirBlocks := by
  unfold Obligations.BuffersGiveTheirBlocks
  refine ⟨fun s i hs => ?rows, fun s hc hassigned =>
    ⟨_, exec_blockBoundary_of_not_inConfig hc, fun i n hi hafter hstarved =>
      State.boundaryRun_starvedBuffer hassigned hi hafter hstarved, fun i n hi hafter hlive => ?boundary⟩⟩
  case rows =>
    refine ⟨fun hrun hfill => ?slip, fun hrun hblock hfill => ?repeats⟩
    case slip =>
      obtain ⟨k, hk, hgiven, hlen⟩ := slipBlock_holds (show 49 ≤ (s.iku.buffers.get i).ring.length by omega)
      refine ⟨k, _, hk, hgiven, hlen, ?_⟩
      rw [exec_slip_of_high hs hrun hfill, Buffer.gives_of_running hs]
    case repeats =>
      obtain ⟨k, hk, hgiven, hlen⟩ := repeatBlock_holds (show 47 ≤ (s.iku.buffers.get i).ring.length by omega)
      refine ⟨k, _, hk, hgiven, hlen, ?_⟩
      rw [exec_repeatFrame_of_low hs hrun hblock hfill, Buffer.gives_of_running hs]
  case boundary =>
    obtain ⟨hgives, hholds⟩ := State.boundaryRun_givingBuffer hassigned hi hafter hlive
    have hunderrun := State.boundaryRun_underrun hholds
    unfold State.newlyWaiting at hunderrun
    generalize s.boundaryRun = t at hgives hunderrun ⊢
    intro b r len high low gives quiet
    have hhigh : b.nextHigh = high := rfl
    have hlow : b.nextLow = low := rfl
    change r = b.consume.1 at hgives
    refine ⟨fun hs hfill => ?priming, fun hs => ?sounding⟩
    case priming => rw [hgives, Buffer.consume_priming hs hfill]
    case sounding =>
      have hconsume := Buffer.consume_sounding (b := b) hs
      rw [hhigh, hlow] at hconsume
      refine ⟨fun h8 => ?slip, fun h8 hl hblock => ?repeats, fun h8 hl hblock => ?whole, fun h8 hblock => ?short⟩
      case slip =>
        have hfill : 49 ≤ b.ring.length := by
          have hfill := Buffer.fill_of_nextHigh (hhigh.trans h8)
          omega
        obtain ⟨k, hk, hgiven, _⟩ := slipBlock_holds hfill
        refine ⟨k, hk, ?_⟩
        rw [if_pos h8, hgiven] at hconsume
        exact hgives.trans (congrArg Prod.fst hconsume)
      case repeats =>
        obtain ⟨k, hk, hgiven, _⟩ := repeatBlock_holds (show 47 ≤ b.ring.length by omega)
        refine ⟨k, hk, ?_⟩
        rw [if_neg h8, if_pos ⟨hblock, hl⟩, hgiven] at hconsume
        exact hgives.trans (congrArg Prod.fst hconsume)
      case whole =>
        rw [if_neg h8, if_neg (fun hb => hl ⟨hb.2, hb.1⟩), if_pos hblock] at hconsume
        exact hgives.trans (congrArg Prod.fst hconsume)
      case short =>
        rw [if_neg h8, if_neg (fun hb => absurd hb.1 (Nat.not_le_of_lt hblock)), if_neg (Nat.not_le_of_lt hblock)]
          at hconsume
        exact ⟨hgives.trans (congrArg Prod.fst hconsume), hunderrun (congrArg Prod.snd hconsume)⟩

end Sys2Proof.Machine
end

section
/-! PROOF. O48: the users of the Intake (R79, R80). -/

namespace Sys2Proof.Machine

open Sys2Proof

/-! ### The free buffers and the wanted streams (R79) -/

/-- The FREE buffers, lowest first. -/
def Iku.freeList (k : Iku) : List BufferNo := (List.finRange 6).filter (fun i => (k.buffers.get i).state == .free)

/-- The unserved streams of the users, in their order, each once. -/
def Iku.wanted (k : Iku) (own : StationNo) (users : List (User × StreamNo)) : List StreamNo :=
  ((users.filter (fun u => !k.serves own u.2)).map Prod.snd).eraseDups

theorem Iku.mem_freeList {k : Iku} {i : BufferNo} : i ∈ k.freeList ↔ (k.buffers.get i).state = .free := by
  simp [Iku.freeList]

theorem Iku.nodup_freeList (k : Iku) : k.freeList.Nodup := (List.nodup_finRange 6).filter _

theorem Iku.firstFree_eq (k : Iku) : k.firstFree = k.freeList.head? := List.head?_filter.symm

theorem Iku.serves_iff (k : Iku) (own : StationNo) (n : StreamNo) :
    k.serves own n = true ↔ producerOf n = own ∨ ∃ j, (k.buffers.get j).stream = some n := by
  simp [Iku.serves, Iku.bufferOf, List.find?_isSome]

/-- A user's stream assigned to the lowest free buffer. -/
def Iku.assign (k : Iku) (n : StreamNo) (i : BufferNo) : Iku :=
  { k with buffers := k.buffers.set i (Buffer.assigned n (k.isStarved n)) }

theorem Iku.serveOne_eq (own : StationNo) (k : Iku) (u : User × StreamNo) : Iku.serveOne own k u =
    if k.serves own u.2 = true then k else k.freeList.head?.elim k (k.assign u.2) := by
  unfold Iku.serveOne
  rw [k.firstFree_eq]
  cases k.freeList.head? <;> rfl

theorem Iku.assign_same (k : Iku) (n : StreamNo) (i : BufferNo) :
    (k.assign n i).buffers.get i = Buffer.assigned n (k.isStarved n) := Tbl.get_set_self _ _ _

theorem Iku.assign_other (k : Iku) (n : StreamNo) {i j : BufferNo} (h : i ≠ j) :
    (k.assign n i).buffers.get j = k.buffers.get j := Tbl.get_set_of_ne _ _ h

theorem Buffer.assigned_ne_free (n : StreamNo) (starved : Bool) : (Buffer.assigned n starved).state ≠ .free := by
  cases starved <;> nofun

/-- The lowest free buffer assigned, the others stay free. -/
theorem Iku.assign_freeList {k : Iku} {i : BufferNo} {rest : List BufferNo} (h : k.freeList = i :: rest) (n : StreamNo) :
    (k.assign n i).freeList = rest := by
  have hnodup := k.nodup_freeList
  rw [h] at hnodup
  have hstate (j : BufferNo) : (((k.assign n i).buffers.get j).state == .free) =
      ((k.buffers.get j).state == .free && j != i) := by
    by_cases hj : j = i
    · subst hj
      rw [k.assign_same, bne_self_eq_false, Bool.and_false]
      exact beq_false_of_ne (Buffer.assigned_ne_free _ _)
    · rw [k.assign_other n (Ne.symm hj), bne_iff_ne.mpr hj, Bool.and_true]
  have hfilter : (k.assign n i).freeList = k.freeList.filter (fun j => j != i) := by
    unfold Iku.freeList
    simp only [hstate, List.filter_filter, Bool.and_comm]
  rw [hfilter, h, List.filter_cons_of_neg (by simp)]
  refine List.filter_eq_self.mpr (fun j hj => bne_iff_ne.mpr ?_)
  rintro rfl
  exact (List.nodup_cons.mp hnodup).1 hj

theorem Iku.assign_serves {k : Iku} {i : BufferNo} (hi : (k.buffers.get i).stream = none) (own : StationNo) (n m : StreamNo) :
    (k.assign n i).serves own m = (k.serves own m || m == n) := by
  rw [Bool.eq_iff_iff, Bool.or_eq_true, beq_iff_eq, Iku.serves_iff, Iku.serves_iff, or_assoc]
  refine or_congr_right ⟨fun ⟨j, hj⟩ => ?_, fun h => ?_⟩
  · by_cases hji : i = j
    · subst hji
      rw [k.assign_same] at hj
      exact .inr (Option.some.inj hj).symm
    · rw [k.assign_other n hji] at hj
      exact .inl ⟨j, hj⟩
  · rcases h with ⟨j, hj⟩ | rfl
    · refine ⟨j, ?_⟩
      rw [k.assign_other n (by rintro rfl; rw [hi] at hj; cases hj)]
      exact hj
    · exact ⟨i, by rw [k.assign_same]; rfl⟩

theorem Iku.wanted_cons_served {k : Iku} {own : StationNo} {u : User × StreamNo} (h : k.serves own u.2 = true)
    (users : List (User × StreamNo)) : k.wanted own (u :: users) = k.wanted own users := by
  unfold Iku.wanted
  rw [List.filter_cons_of_neg (by simp [h])]

/-- The first unserved user's stream is wanted first; the rest are those still unserved with a buffer for it. -/
theorem Iku.wanted_cons_assign {k : Iku} {own : StationNo} {u : User × StreamNo} (h : ¬ k.serves own u.2 = true)
    {i : BufferNo} (hi : (k.buffers.get i).stream = none) (users : List (User × StreamNo)) :
    k.wanted own (u :: users) = u.2 :: (k.assign u.2 i).wanted own users := by
  unfold Iku.wanted
  rw [List.filter_cons_of_pos (by simpa using h), List.map_cons, List.eraseDups_cons, List.filter_map, List.filter_filter]
  simp only [Iku.assign_serves hi, Bool.not_or, Function.comp_apply, Bool.and_comm]

/-! ### The service of the users (R79) -/

/-- Serving the users in order leaves every buffer that is not FREE, and gives the k-th FREE one the k-th wanted stream. -/
theorem Iku.foldl_serveOne_holds (own : StationNo) (users : List (User × StreamNo)) (k : Iku)
    (hfree : ∀ i, (k.buffers.get i).state = .free → (k.buffers.get i).stream = none) :
    (∀ i, (k.buffers.get i).state ≠ .free →
      (users.foldl (Iku.serveOne own) k).buffers.get i = k.buffers.get i) ∧
    ∀ (j : Nat) (i : BufferNo), k.freeList[j]? = some i → (users.foldl (Iku.serveOne own) k).buffers.get i =
      (k.wanted own users)[j]?.elim (k.buffers.get i) (fun n => Buffer.assigned n (k.isStarved n)) := by
  induction users generalizing k with
  | nil => exact ⟨fun _ _ => rfl, fun _ _ _ => rfl⟩
  | cons u users ih =>
    rw [List.foldl_cons, Iku.serveOne_eq]
    by_cases hserved : k.serves own u.2 = true
    · rw [if_pos hserved, Iku.wanted_cons_served hserved]
      exact ih k hfree
    · rw [if_neg hserved]
      cases hlist : k.freeList with
      | nil =>
        refine ⟨(ih k hfree).1, fun j i hj => ?_⟩
        cases hj
      | cons i rest =>
        have hi : (k.buffers.get i).state = .free := Iku.mem_freeList.mp (hlist ▸ List.mem_cons_self)
        have hrest : ∀ j ∈ rest, i ≠ j := by
          have hnodup := k.nodup_freeList
          rw [hlist] at hnodup
          rintro j hj rfl
          exact (List.nodup_cons.mp hnodup).1 hj
        obtain ⟨hkept, hgiven⟩ := ih (k.assign u.2 i) (fun j hj => by
          by_cases hij : i = j
          · subst hij
            rw [k.assign_same] at hj
            exact absurd hj (Buffer.assigned_ne_free _ _)
          · rw [k.assign_other u.2 hij] at hj ⊢
            exact hfree j hj)
        rw [Iku.assign_freeList hlist] at hgiven
        rw [Iku.wanted_cons_assign hserved (hfree i hi)]
        refine ⟨fun j hj => ?_, fun j m hm => ?_⟩
        · have hij : i ≠ j := by
            rintro rfl
            exact hj hi
          have := hkept j (by rwa [k.assign_other u.2 hij])
          rwa [k.assign_other u.2 hij] at this
        · cases j with
          | zero =>
            obtain rfl : i = m := Option.some.inj hm
            have := hkept i (by rw [k.assign_same]; exact Buffer.assigned_ne_free _ _)
            rwa [k.assign_same] at this
          | succ j =>
            have := hgiven j m hm
            rwa [k.assign_other u.2 (hrest m (List.mem_of_getElem? hm))] at this

end Sys2Proof.Machine
end

section
/-! PROOF. O48: the Intake's service of its users at a block boundary (R77, R79, R80). -/

namespace Sys2Proof.Machine

open Sys2Proof

/-! ### The buffers before the users are served (R73, R80) -/

/-- Ageing starves a buffer or leaves it. -/
theorem Iku.age_get (k : Iku) (i : BufferNo) :
    k.age.buffers.get i = k.buffers.get i ∨ k.age.buffers.get i = (k.buffers.get i).starve := by
  rw [Iku.age_eq]
  show (k.agedOut.foldl Iku.starve _).buffers.get i = _ ∨ (k.agedOut.foldl Iku.starve _).buffers.get i = _
  rw [Iku.foldl_starve_buffers]
  split
  · exact .inr rfl
  · exact .inl rfl

theorem Buffer.starve_static (b : Buffer) : b.starve.static = b.static := by
  unfold Buffer.starve
  split <;> rfl

theorem Buffer.starve_free_iff (b : Buffer) : b.starve.state = .free ↔ b.state = .free := by
  unfold Buffer.starve
  cases hs : b.state with
  | free => simp only [hs]
  | starved => simp only [hs]
  | priming => simp
  | running => simp

/-- Ageing leaves a buffer's static flag and whether it is FREE. -/
theorem Iku.age_keeps (k : Iku) (i : BufferNo) : (k.age.buffers.get i).static = (k.buffers.get i).static ∧
    ((k.age.buffers.get i).state = .free ↔ (k.buffers.get i).state = .free) := by
  rcases k.age_get i with h | h
  · rw [h]
    exact ⟨rfl, Iff.rfl⟩
  · rw [h]
    exact ⟨Buffer.starve_static _, Buffer.starve_free_iff _⟩

/-- A buffer that no user of these names and that is not static (R80). -/
def Buffer.Unused (b : Buffer) (users : List (User × StreamNo)) : Prop :=
  b.static = false ∧ ∀ u ∈ users, b.stream ≠ some u.2

theorem Iku.freeUnused_unused {k : Iku} {users : List (User × StreamNo)} {i : BufferNo}
    (h : (k.buffers.get i).Unused users) : (k.freeUnused users).buffers.get i = Buffer.free := by
  obtain ⟨hstatic, hnamed⟩ := h
  have hany : users.any (fun u => (k.buffers.get i).stream == some u.2) = false :=
    List.any_eq_false.mpr (fun u hu => by simpa using hnamed u hu)
  simp [Iku.freeUnused, hstatic, hany]

theorem Iku.freeUnused_used {k : Iku} {users : List (User × StreamNo)} {i : BufferNo}
    (h : ¬ (k.buffers.get i).Unused users) : (k.freeUnused users).buffers.get i = k.buffers.get i := by
  simp only [Iku.freeUnused, Tbl.get_map]
  split_ifs with hstatic hany
  · rfl
  · rfl
  · refine absurd ⟨eq_false_of_ne_true hstatic, fun u hu e => hany ?_⟩ h
    exact List.any_eq_true.mpr ⟨u, hu, by simp [e]⟩

/-- The users that a boundary serves, feeds first. -/
def State.boundaryUsers (s : State) : List (User × StreamNo) := s.decidedMxe.users ++ s.decidedPku.user

/-- The Intake of a boundary when the buffers of no use were freed. -/
def State.freedIku (s : State) : Iku := s.iku.age.freeUnused s.boundaryUsers

theorem State.intakeServed_buffers (s : State) :
    s.intakeServed.1.buffers = (s.boundaryUsers.foldl (Iku.serveOne s.own) s.freedIku).buffers := rfl

theorem State.age_unused_iff (s : State) (i : BufferNo) : (s.iku.age.buffers.get i).Unused s.boundaryUsers ↔
    (s.iku.buffers.get i).Unused s.boundaryUsers := by
  unfold Buffer.Unused
  rw [(s.iku.age_keeps i).1, s.iku.age_stream i]

/-- A buffer in use when the others were freed. -/
theorem State.freedIku_used {s : State} {i : BufferNo} (h : ¬ (s.iku.buffers.get i).Unused s.boundaryUsers) :
    s.freedIku.buffers.get i = s.iku.age.buffers.get i :=
  Iku.freeUnused_used (fun hu => h ((s.age_unused_iff i).mp hu))

theorem State.freedIku_unused {s : State} {i : BufferNo} (h : (s.iku.buffers.get i).Unused s.boundaryUsers) :
    s.freedIku.buffers.get i = Buffer.free :=
  Iku.freeUnused_unused ((s.age_unused_iff i).mpr h)

theorem State.freedIku_free_iff (s : State) (i : BufferNo) : (s.freedIku.buffers.get i).state = .free ↔
    (s.iku.buffers.get i).state = .free ∨ (s.iku.buffers.get i).Unused s.boundaryUsers := by
  by_cases h : (s.iku.buffers.get i).Unused s.boundaryUsers
  · rw [State.freedIku_unused h]
    exact ⟨fun _ => .inr h, fun _ => rfl⟩
  · rw [State.freedIku_used h, (s.iku.age_keeps i).2]
    exact ⟨.inl, fun hor => hor.resolve_right h⟩

theorem State.freedIku_stream_of_free {s : State} (ha : BuffersAssigned s) {i : BufferNo}
    (h : (s.freedIku.buffers.get i).state = .free) : (s.freedIku.buffers.get i).stream = none := by
  by_cases hu : (s.iku.buffers.get i).Unused s.boundaryUsers
  · rw [State.freedIku_unused hu]
    rfl
  · obtain ⟨hfree, _⟩ := ha
    rw [State.freedIku_used hu, s.iku.age_stream i]
    exact hfree i (((s.freedIku_free_iff i).mp h).resolve_right hu)

/-- Freeing the buffers of no use serves the users as before (R80). -/
theorem State.freedIku_serves {s : State} {u : User × StreamNo} (hu : u ∈ s.boundaryUsers) :
    s.freedIku.serves s.own u.2 = true ↔ producerOf u.2 = s.own ∨ ∃ j, (s.iku.buffers.get j).stream = some u.2 := by
  rw [Iku.serves_iff]
  refine or_congr_right (exists_congr fun j => ?_)
  by_cases h : (s.iku.buffers.get j).Unused s.boundaryUsers
  · rw [State.freedIku_unused h]
    obtain ⟨_, hnamed⟩ := h
    exact ⟨nofun, fun e => absurd e (hnamed u hu)⟩
  · rw [State.freedIku_used h, s.iku.age_stream j]

/-! ### The buffers after the boundary -/

/-- A buffer newly assigned, once it gave silence (R79, R83). -/
theorem Buffer.assigned_consume (n : StreamNo) (starved : Bool) : (Buffer.assigned n starved).consume.1 =
    ⟨if starved then .starved else .priming, some n, false, [], none, 0, 0, false, false, false,
      List.replicate 48 ⟨0, 0, false⟩, false, false⟩ := by
  cases starved with
  | true => exact Buffer.consume_starved _ rfl
  | false => rw [Buffer.consume_priming (b := Buffer.assigned n false) rfl (Nat.zero_lt_succ 95)]; rfl

/-- A served buffer after the boundary: its block given, and starved where the producer of its stream expired. -/
theorem State.boundaryRun_served (s : State) (i : BufferNo) :
    s.boundaryRun.iku.buffers.get i = (s.intakeServed.1.buffers.get i).consume.1 ∨
    s.boundaryRun.iku.buffers.get i = (s.intakeServed.1.buffers.get i).consume.1.starve ∧
      ∃ n, s.peerExpires (producerOf n) = true ∧ (s.intakeServed.1.buffers.get i).stream = some n := by
  have hbuilt : s.boundaryBuilt.iku.buffers.get i = (s.intakeServed.1.buffers.get i).consume.1 := by
    rw [s.boundaryBuilt_iku.2, s.servedIku_eq]
    exact Tbl.get_map _ _ _
  rw [s.boundaryRun_iku, Iku.foldl_starve_buffers, hbuilt]
  split
  case isTrue h =>
    obtain ⟨n, hn, hi⟩ := h
    refine .inr ⟨rfl, n, (s.mem_streamsOf_gonePeers n).mp hn, ?_⟩
    rw [← (Buffer.consume_stream _).1, ← hbuilt]
    exact Iku.bufferOf_stream hi
  case isFalse => exact .inl rfl

/-- What a boundary after the service of the users leaves of a buffer. -/
theorem State.boundaryRun_served_keeps (s : State) (i : BufferNo) :
    (s.boundaryRun.iku.buffers.get i).stream = (s.intakeServed.1.buffers.get i).stream ∧
    (s.boundaryRun.iku.buffers.get i).static = (s.intakeServed.1.buffers.get i).static ∧
    ((s.boundaryRun.iku.buffers.get i).state = .free ↔ (s.intakeServed.1.buffers.get i).state = .free) := by
  have hconsume (b : Buffer) : b.consume.1.state = .free ↔ b.state = .free := by
    rw [Buffer.consume_state]
    split
    case isTrue h =>
      rw [h.1]
      exact ⟨nofun, nofun⟩
    case isFalse => rfl
  obtain ⟨hstream, hstatic⟩ := (s.intakeServed.1.buffers.get i).consume_stream
  rcases s.boundaryRun_served i with h | ⟨h, _⟩
  · rw [h]
    exact ⟨hstream, hstatic, hconsume _⟩
  · rw [h]
    exact ⟨(Buffer.starve_given _).1.trans hstream, (Buffer.starve_static _).trans hstatic,
      (Buffer.starve_free_iff _).trans (hconsume _)⟩

/-- A buffer assigned at a boundary, after it: emptied, PRIMING for a live stream, else STARVED (R79, logs 28 and 38). -/
theorem State.boundaryRun_assigned {s : State} {i : BufferNo} {n : StreamNo} {b : Buffer}
    (hb : s.boundaryRun.iku.buffers.get i = b)
    (h : s.intakeServed.1.buffers.get i = Buffer.assigned n (s.iku.age.isStarved n)) :
    b = ⟨b.state, some n, false, [], none, 0, 0, false, b.force, b.returning, List.replicate 48 ⟨0, 0, false⟩, false,
      false⟩ ∧ (b.state = .priming ∨ b.state = .starved) ∧
    ((s.boundaryRun.iku.heard.get n).state = .live → b.state = .priming ∧ b.force = false ∧ b.returning = false) ∧
    (((s.iku.heard.get n).state ≠ .live ∨ 7 ≤ (s.iku.heard.get n).age) → b.state = .starved) := by
  have hafter := s.boundaryRun_served i
  rw [hb, h, Buffer.assigned_consume] at hafter
  have hlive (hl : (s.boundaryRun.iku.heard.get n).state = .live) :
      s.peerExpires (producerOf n) = false ∧ s.iku.age.isStarved n = false := by
    obtain ⟨hexpires, haged, _⟩ := State.boundaryRun_live hl
    exact ⟨hexpires, by simp [Iku.isStarved, haged]⟩
  have hstarved (hs : (s.iku.heard.get n).state ≠ .live ∨ 7 ≤ (s.iku.heard.get n).age) :
      s.iku.age.isStarved n = true := by
    unfold Iku.isStarved
    rw [Iku.age_heard]
    split_ifs with h1 h2
    · rfl
    · exact absurd hs (by simp [h1, h2])
    · exact bne_iff_ne.mpr h1
  rcases hafter with rfl | ⟨rfl, m, hexpires, hm⟩
  · refine ⟨rfl, ?_, fun hl => ?_, fun hs => ?_⟩
    · cases s.iku.age.isStarved n
      · exact .inl rfl
      · exact .inr rfl
    · rw [(hlive hl).2]
      exact ⟨rfl, rfl, rfl⟩
    · rw [hstarved hs]
      rfl
  · obtain rfl : n = m := Option.some.inj hm
    have hgone : (s.boundaryRun.iku.heard.get n).state ≠ .live := fun hl => by
      rw [(hlive hl).1] at hexpires
      cases hexpires
    cases s.iku.age.isStarved n with
    | false => exact ⟨rfl, .inr rfl, fun hl => absurd hl hgone, fun _ => rfl⟩
    | true => exact ⟨rfl, .inr rfl, fun hl => absurd hl hgone, fun _ => rfl⟩

/-- A boundary's service of the users: what is not FREE stays, and the k-th FREE buffer takes the k-th wanted stream. -/
theorem State.intakeServed_assigns {s : State} (ha : BuffersAssigned s) :
    (∀ i, (s.freedIku.buffers.get i).state ≠ .free →
      s.intakeServed.1.buffers.get i = s.freedIku.buffers.get i) ∧
    ∀ (j : Nat) (i : BufferNo), s.freedIku.freeList[j]? = some i → s.intakeServed.1.buffers.get i =
      (s.freedIku.wanted s.own s.boundaryUsers)[j]?.elim (s.freedIku.buffers.get i)
        (fun n => Buffer.assigned n (s.iku.age.isStarved n)) := by
  rw [s.intakeServed_buffers]
  exact Iku.foldl_serveOne_holds s.own s.boundaryUsers s.freedIku (fun _ => State.freedIku_stream_of_free ha)

/-- The users that wait after a boundary are those whose stream no buffer has then (R79). -/
theorem State.boundaryRun_waiting_eq (s : State) : s.boundaryRun.iku.waiting =
    s.boundaryUsers.filter (fun u => !s.boundaryRun.iku.serves s.own u.2) := by
  have hserves (n : StreamNo) : s.boundaryRun.iku.serves s.own n = s.intakeServed.1.serves s.own n := by
    rw [Bool.eq_iff_iff, Iku.serves_iff, Iku.serves_iff]
    simp only [(s.boundaryRun_served_keeps _).1]
  simp only [hserves, s.boundaryRun_waiting]
  rfl

/-- Settles O48: the buffers after a boundary by the service of the users, and the notices of those that wait. -/
theorem intakeServesItsUsers : Obligations.IntakeServesItsUsers := by
  unfold Obligations.IntakeServesItsUsers
  intro s hc ha
  refine ⟨_, exec_blockBoundary_of_not_inConfig hc, ?_⟩
  have hshown := s.boundaryRun_users
  have hafter := s.boundaryRun_served_keeps
  have hnew := fun i n => State.boundaryRun_assigned (s := s) (i := i) (n := n) rfl
  have hwaiting := s.boundaryRun_waiting_eq
  have hnotice := s.boundaryRun_intakeNotice
  unfold State.newlyWaiting at hnotice
  generalize s.boundaryRun = t at hshown hafter hnew hwaiting hnotice ⊢
  obtain ⟨hkept, hgiven⟩ := State.intakeServed_assigns ha
  intro users unservedBy free wanted
  have husers : users = s.boundaryUsers := hshown
  have hunserved (x : State) (u : User × StreamNo) : unservedBy x u = !(x.iku.serves s.own u.2) := by
    rw [Iku.serves, Bool.not_or, Iku.bufferOf, List.isSome_find?]
    rfl
  have hfree : free = s.freedIku.freeList := by
    refine List.filter_congr (fun i _ => ?_)
    rw [Bool.eq_iff_iff, beq_iff_eq, State.freedIku_free_iff, husers]
    simp [Buffer.Unused]
  have hwanted : wanted = s.freedIku.wanted s.own s.boundaryUsers := by
    refine congrArg (fun l : List (User × StreamNo) => (l.map Prod.snd).eraseDups) ?_
    rw [husers]
    refine List.filter_congr (fun u hu => ?_)
    rw [hunserved, Bool.not_inj_iff, Bool.eq_iff_iff, State.freedIku_serves hu, Iku.serves_iff]
  refine ⟨fun i hi => ?kept, fun k i hk => ?served, ?waiting, fun hfull => ?notices⟩
  case kept =>
    rw [hfree, Iku.mem_freeList] at hi
    have hused : ¬ (s.iku.buffers.get i).Unused s.boundaryUsers :=
      fun h => hi ((s.freedIku_free_iff i).mpr (.inr h))
    have hserved := hkept i hi
    rw [State.freedIku_used hused] at hserved hi
    obtain ⟨hstream, hstatic, hstate⟩ := hafter i
    rw [hserved] at hstream hstatic hstate
    exact ⟨hstream.trans (s.iku.age_stream i), hstatic.trans (s.iku.age_keeps i).1, fun h => hi (hstate.mp h)⟩
  case served =>
    rw [hfree] at hk
    have hserved := hgiven k i hk
    rw [← hwanted] at hserved
    refine ⟨fun n hn => ?assigned, fun hlen => ?free⟩
    case assigned =>
      rw [hn] at hserved
      exact hnew i n hserved
    case free =>
      rw [List.getElem?_eq_none hlen] at hserved
      have hi : (s.freedIku.buffers.get i).state = .free := Iku.mem_freeList.mp (List.mem_of_getElem? hk)
      obtain ⟨hstream, _, hstate⟩ := hafter i
      rw [show s.intakeServed.1.buffers.get i = s.freedIku.buffers.get i from hserved] at hstream hstate
      exact ⟨hstate.mpr hi, hstream.trans (State.freedIku_stream_of_free ha hi)⟩
  case waiting =>
    rw [hwaiting, husers]
    exact List.filter_congr (fun u _ => (hunserved _ u).symm)
  case notices =>
    rw [hnotice, Iku.underruns_of_full (fun j => State.intakeServed_full (hfull j))]
    rfl

end Sys2Proof.Machine
end

section
/-! PROOF. The ramp step (R106), the gain law (R110) and the product of a feed (R111). -/

namespace Sys2Proof.Machine

open Sys2Proof

/-! ### The ramp step (R106) -/

/-- Below its target a feed rises by the attack step, not above the target. -/
theorem Feed.rampStep_of_lt {f : Feed} (h : f.current < f.target) (attack interval : Nat) :
    f.rampStep attack interval = { f with current := min f.target (f.current + attack), releaseCount := 0 } :=
  if_pos h

/-- Above its target a feed counts the boundaries of its release interval. -/
theorem Feed.rampStep_counts {f : Feed} {interval : Nat} (h : f.target < f.current)
    (hc : f.releaseCount + 1 < interval) (attack : Nat) :
    f.rampStep attack interval = { f with releaseCount := f.releaseCount + 1 } := by
  unfold Feed.rampStep
  rw [if_neg (Nat.lt_asymm h), if_pos h, if_pos hc]

/-- At the end of the release interval it falls by one. -/
theorem Feed.rampStep_falls {f : Feed} {interval : Nat} (h : f.target < f.current)
    (hc : interval ≤ f.releaseCount + 1) (attack : Nat) :
    f.rampStep attack interval = { f with current := f.current - 1, releaseCount := 0 } := by
  unfold Feed.rampStep
  rw [if_neg (Nat.lt_asymm h), if_pos h, if_neg (Nat.not_lt.mpr hc)]

/-- At its target a feed stays. -/
theorem Feed.rampStep_of_eq {f : Feed} (h : f.target = f.current) (attack interval : Nat) :
    f.rampStep attack interval = { f with releaseCount := 0 } := by
  unfold Feed.rampStep
  rw [if_neg (Nat.not_lt.mpr h.le), if_neg (Nat.not_lt.mpr h.ge)]

/-- The row of the release step, for an active feed whose count reaches the interval. -/
theorem exec_releaseIntervalStep_due {s : State} {o : OutputNo} {sl : SlotNo}
    (ha : ((s.mxe.feeds.get o).get sl).active = true)
    (ht : ((s.mxe.feeds.get o).get sl).target < ((s.mxe.feeds.get o).get sl).current)
    (hc : s.cpt.store.releaseInterval ≤ ((s.mxe.feeds.get o).get sl).releaseCount + 1) :
    exec (.releaseIntervalStep o sl) s = .next { s with mxe := { s.mxe with
      feeds := s.mxe.feeds.set o ((s.mxe.feeds.get o).set sl { (s.mxe.feeds.get o).get sl with
        current := ((s.mxe.feeds.get o).get sl).current - 1, releaseCount := 0 }) } } :=
  if_pos ⟨ha, ht, hc⟩

/-! ### The linear gain (R110) -/

theorem mantissa_eq_getD {r : Nat} (h : r < 8) :
    mantissa r = [32768, 30048, 27554, 25268, 23170, 21247, 19484, 17867].getD r 0 := by
  interval_cases r <;> rfl

theorem mantissa_le (r : Nat) : mantissa r ≤ 32768 := by
  unfold mantissa
  split <;> decide

theorem gain_le (a : Nat) : gain a ≤ 32768 := (Nat.div_le_self _ _).trans (mantissa_le _)

/-- Eight steps halve the gain. -/
theorem gain_add_eight (a : Nat) : gain (a + 8) = gain a / 2 := by
  unfold gain
  rw [Nat.add_mod_right, Nat.add_div_right a (by decide), Nat.pow_succ, Nat.div_div_eq_div_mul]

/-- From 121 on nothing is left of the gain. -/
theorem gain_eq_zero {a : Nat} (h : 121 ≤ a) (hle : a ≤ 128) : gain a = 0 := by
  interval_cases a <;> rfl

/-- Settles O27: the ramp by its three cases and the release row, the gain by its mantissa table. -/
theorem rampsAndGainsFollowTheirTables : Obligations.RampsAndGainsFollowTheirTables := by
  unfold Obligations.RampsAndGainsFollowTheirTables
  refine ⟨⟨fun attack interval f => ⟨fun h => Feed.rampStep_of_lt h attack interval,
    fun h hc => Feed.rampStep_counts h hc attack, fun h hc => Feed.rampStep_falls h hc attack,
    fun h => Feed.rampStep_of_eq h attack interval⟩, ?row⟩, ?table, by decide, fun a => gain_eq_zero⟩
  case row =>
    rintro s o sl _ rfl ha ht hc
    exact exec_releaseIntervalStep_due ha ht hc.ge
  case table =>
    intro a _
    refine ⟨?_, gain_le a, gain_add_eight a⟩
    rw [← mantissa_eq_getD (Nat.mod_lt a (by decide))]
    rfl

/-! ### The product (R111) -/

/-- The product is the quotient that rounding to the nearest gives. -/
theorem product_bounds (x : Int) (g : Nat) :
    product x g * 32768 ≤ x * g + 16384 ∧ x * g + 16384 < (product x g + 1) * 32768 := by
  unfold product
  omega

theorem product_unity (x : Int) : product x 32768 = x := by
  unfold product
  omega

theorem Sample.toInt_bounds (x : Sample) : sampleMin ≤ x.toInt ∧ x.toInt ≤ sampleMax := by
  unfold sampleMin sampleMax
  have := x.le_toInt
  have := x.toInt_lt
  omega

/-- Scaled by a gain of at most 1 a sample stays within 2^23 times that gain's unit. -/
theorem scaled_bounds (x : Sample) {g : Nat} (h : g ≤ 32768) :
    sampleMin * 32768 ≤ x.toInt * g ∧ x.toInt * g ≤ sampleMax * 32768 := by
  obtain ⟨hlo, hhi⟩ := Sample.toInt_bounds x
  unfold sampleMin sampleMax at *
  constructor <;> nlinarith

/-- The product of a sample and a gain stays in the sample range. -/
theorem product_in_range (x : Sample) {g : Nat} (h : g ≤ 32768) :
    sampleMin ≤ product x.toInt g ∧ product x.toInt g ≤ sampleMax := by
  obtain ⟨hlo, hhi⟩ := scaled_bounds x h
  unfold product
  unfold sampleMin at hlo ⊢
  unfold sampleMax at hhi ⊢
  omega

/-- Settles O28: the rounding by `product_bounds`, the range by the bounds of a sample and of the gain. -/
theorem productRoundsToTheNearest : Obligations.ProductRoundsToTheNearest := by
  unfold Obligations.ProductRoundsToTheNearest
  refine ⟨fun x a _ => ?_, by decide, by decide, by decide, fun a snd => ⟨rfl, rfl⟩⟩
  obtain ⟨hlo, hhi⟩ := product_bounds x.toInt (gain a)
  obtain ⟨hmin, hmax⟩ := product_in_range x (gain_le a)
  have habs : (x.toInt * gain a).natAbs ≤ 2 ^ 38 := by
    obtain ⟨h1, h2⟩ := scaled_bounds x (gain_le a)
    unfold sampleMin at h1
    unfold sampleMax at h2
    omega
  exact ⟨hlo, hhi, habs, hmin, hmax, product_unity _⟩

end Sys2Proof.Machine
end

section
/-! PROOF. SET_LEVEL, APPLY_LEVELS and the boundary that makes the staged levels live (R98, R99, R115). -/

namespace Sys2Proof.Machine

open Sys2Proof

/-! ### Staging (R98) -/

theorem Zone.ofCode_code (z : Zone) : Zone.ofCode z.code = some z := by cases z <;> rfl

theorem Zone.ofCode_of_lt {n : Nat} (h : 4 < n) : Zone.ofCode n = none := by
  unfold Zone.ofCode
  split
  case h_6 => rfl
  all_goals omega

theorem exec_setLevel_zone (s : State) {zone : Byte} {z : Zone} (h : zone.toNat = z.code) (level : Byte) :
    exec (.setLevel zone level) s = .next (State.answer { s with mxe := s.mxe.stage z level.toNat } .accepted
      (num1 (min Config.mute level.toNat))) := by
  rw [exec_setLevel, execSetLevel, h, Zone.ofCode_code]

theorem exec_setLevel_unknown (s : State) {zone : Byte} (h : 4 < zone.toNat) (level : Byte) :
    exec (.setLevel zone level) s = .next (s.answer .badArgument []) := by
  rw [exec_setLevel, execSetLevel, Zone.ofCode_of_lt h]

/-- RESTART leaves the levels, live and staged. -/
theorem exec_restart_levels {s t : State} (h : exec .restart s = .next t) :
    t.mxe.live = s.mxe.live ∧ t.mxe.staged = s.mxe.staged := by
  rw [exec_restart, execRestart] at h
  split at h <;> cases h <;> exact ⟨rfl, rfl⟩

/-- Settles O25: the request by the zone it names, the range by what every command keeps of the levels. -/
theorem setLevelStagesTheLevel : Obligations.SetLevelStagesTheLevel := by
  unfold Obligations.SetLevelStagesTheLevel
  intro s zone level
  refine ⟨fun z hz => exec_setLevel_zone s hz level, fun hz => exec_setLevel_unknown s hz level,
    fun z => ⟨Tbl.get_fill _ _, Tbl.get_fill _ _⟩, fun t => exec_restart_levels, fun c t hs h => ?_⟩
  exact (exec_keepsBounds h).levels hs

/-! ### The boundary (R99) -/

/-- The levels after they were applied where the flag was set. -/
theorem Mxe.applyLevels_levels (m : Mxe) : m.applyLevels.1.apply = false ∧ m.applyLevels.1.staged = m.staged ∧
    m.applyLevels.1.live = if m.apply then m.staged else m.live := by
  unfold Mxe.applyLevels
  cases h : m.apply
  · exact ⟨h, rfl, rfl⟩
  · exact ⟨rfl, rfl, rfl⟩

theorem Mxe.applyLevels_of_set {m : Mxe} (h : m.apply = true) :
    m.applyLevels = ({ m with live := m.staged, apply := false }, [.levels m.staged]) := by
  unfold Mxe.applyLevels
  rw [if_pos h]

theorem Mxe.applyLevels_of_clear {m : Mxe} (h : m.apply = false) : m.applyLevels = (m, []) := by
  unfold Mxe.applyLevels
  rw [h]
  rfl

/-- The LEVELS place after the levels were applied. -/
theorem State.boundaryLevels_place (s : State) : s.boundaryLevels.cpt.notices.get 12 =
    if s.mxe.apply then some (raisedEntry (s.cpt.notices.get 12) (.levels s.mxe.staged)) else s.cpt.notices.get 12 := by
  rw [boundaryLevels_cpt]
  cases h : s.mxe.apply
  · rw [Mxe.applyLevels_of_clear h]
    rfl
  · rw [Mxe.applyLevels_of_set h]
    exact Cpt.raise_place s.cpt (.levels s.mxe.staged)

/-- Beside the levels themselves no part of a boundary outside CONFIG raises LEVELS. -/
theorem State.boundaryRun_levelsPlace (s : State) :
    s.boundaryRun.cpt.notices.get 12 = s.boundaryOutput.boundaryLevels.cpt.notices.get 12 := by
  have hrest : s.boundaryBuilt.cpt.SameAt 12 s.boundaryRun.cpt := by
    rw [State.boundaryRun_eq, State.boundaryWorked]
    generalize s.boundaryBuilt = x
    rw [State.clearArbitrate_cpt]
    exact x.boundaryRest_sameAt (by decide) (by decide) (by decide) (by decide) _
  have hchecked : s.boundaryOutput.boundaryLevels.cpt.SameAt 12 s.boundaryChecked.cpt :=
    s.boundaryOutput.boundaryLevels.boundaryIdle_sameAt (by decide) (by decide)
  have hpicked : s.boundaryChecked.cpt.SameAt 12 s.boundaryPicked.cpt :=
    (s.boundaryChecked.boundaryRadioBlock.boundaryDecide s.mixView).boundaryPickup_sameAt (i := 12) s.mixView
      (by decide)
  have hserved : s.boundaryPicked.cpt.SameAt 12 s.boundaryPicked.boundaryIntake.cpt :=
    s.boundaryPicked.boundaryIntake_sameAt (by decide)
  have hbuilt : s.boundaryBuilt.cpt = s.boundaryPicked.boundaryIntake.cpt := by
    rw [s.boundaryBuilt_eq, boundaryPublish_cpt, State.boundaryBuilding, boundaryUplink_cpt, boundaryMix_cpt]
  exact ((hchecked.trans hpicked).trans (hbuilt ▸ hserved)).trans hrest

theorem exec_blockBoundary_of_inConfig {s : State} (h : s.inConfig = true) :
    exec .blockBoundary s = .next s.boundaryConfig := by
  rw [exec_blockBoundary, execBlockBoundary, if_pos h]

/-- A boundary applies the levels and raises their notice, in CONFIG and outside it. -/
theorem exec_blockBoundary_levels (s : State) : ∃ t, exec .blockBoundary s = .next t ∧ t.mxe.apply = false ∧
    t.mxe.staged = s.mxe.staged ∧ t.mxe.live = (if s.mxe.apply then s.mxe.staged else s.mxe.live) ∧
    t.cpt.notices.get 12 = s.boundaryOutput.boundaryLevels.cpt.notices.get 12 := by
  obtain ⟨happly, hstaged, hlive⟩ := s.mxe.applyLevels_levels
  cases hc : s.inConfig
  · obtain ⟨hmxe, _⟩ := s.boundaryRun_holds
    refine ⟨_, exec_blockBoundary_of_not_inConfig hc, ?_, ?_, ?_, s.boundaryRun_levelsPlace⟩ <;> rw [hmxe]
    · exact happly
    · exact hstaged
    · exact hlive
  · exact ⟨_, exec_blockBoundary_of_inConfig hc, happly, hstaged, hlive, rfl⟩

/-- Settles O26: the request, the row, and the boundary by `exec_blockBoundary_levels`. -/
theorem applyMakesStagedLevelsLive : Obligations.ApplyMakesStagedLevelsLive := by
  unfold Obligations.ApplyMakesStagedLevelsLive
  intro s
  refine ⟨rfl, fun h => ?set, fun h => ?clear, ?boundary⟩
  case set =>
    rw [exec_levelsApplied, execLevelsApplied, State.boundaryLevels, Mxe.applyLevels_of_set h]
    rfl
  case clear =>
    rw [exec_levelsApplied, execLevelsApplied, State.boundaryLevels, Mxe.applyLevels_of_clear h]
    rfl
  case boundary =>
    obtain ⟨t, ht, happly, hstaged, hlive, hplace⟩ := exec_blockBoundary_levels s
    refine ⟨t, ht, happly, hstaged, hlive, ?_⟩
    have hbefore : s.boundaryOutput.cpt.notices.get 12 = s.cpt.notices.get 12 :=
      s.boundaryOutput_sameAt (by decide) (by decide)
    rw [hplace, State.boundaryLevels_place, hbefore]
    rfl

end Sys2Proof.Machine
end

section
/-! SUPPORT. The feeds at a block boundary outside CONFIG: which are active (R94, R105), what they give (R95, R96), and
what the boundary leaves of each feed and of each output's mix (R100 to R107, R111 to R114). -/

namespace Sys2Proof.Machine

open Sys2Proof

/-! ### Activity (R94, R105) -/

/-- Chime fallback is active where a bridge serves DRV and no such bridge runs (R105). -/
theorem fallbackOf_iff (s : State) : fallbackOf s.cpt.store s.ost.running = true ↔
    (∃ b, zoneIn (s.cpt.store.bridgeZones b) .drv = true) ∧
      ∀ b, zoneIn (s.cpt.store.bridgeZones b) .drv = true → (s.ost.bridges.get b).state ≠ .run := by
  simp [fallbackOf, Ost.running, Bridge.enabled, List.filter_eq_nil_iff]

/-- When a feed is active (R94). -/
theorem feedActive_iff (s : State) (fb : Bool) (o : OutputNo) (cfg : FeedConfig) :
    feedActive s.mixView fb o cfg = true ↔ s.cpt.store.used o = true ∧ cfg.selector ≠ .none ∧
      (cfg.fallbackOnly = true → fb = true) ∧
      (((∃ k, cfg.selector = .follow k) ∨ cfg.selector = .uplink) → s.resolution o cfg.selector ≠ none) := by
  have hdynamic : cfg.selector.dynamic = true ↔ (∃ k, cfg.selector = .follow k) ∨ cfg.selector = .uplink := by
    cases cfg.selector <;> simp [Selector.dynamic]
  have hfallback : (!cfg.fallbackOnly || fb) = true ↔ (cfg.fallbackOnly = true → fb = true) := by
    cases cfg.fallbackOnly <;> simp
  have hresolves : (!cfg.selector.dynamic || (s.resolution o cfg.selector).isSome) = true ↔
      (cfg.selector.dynamic = true → s.resolution o cfg.selector ≠ none) := by
    rw [← Option.isSome_iff_ne_none]
    cases cfg.selector.dynamic <;> simp
  unfold feedActive
  rw [resolveFeed_eq, Bool.and_eq_true, Bool.and_eq_true, Bool.and_eq_true, bne_iff_ne, hfallback, hresolves, hdynamic,
    and_assoc, and_assoc]
  rfl

section
variable (v : MixView) (fb : Bool) (o : OutputNo) (cfg : FeedConfig) (f : Feed)

/-- When an active feed is activated (R94). -/
theorem feedActivated_iff : feedActivated v fb o cfg f = true ↔ feedActive v fb o cfg = true ∧
    (f.active = false ∨ f.resolved ≠ (resolveFeed v o cfg.selector).map Prod.fst) := by
  simp [feedActivated]

theorem decideFeed_of_inactive (h : feedActive v fb o cfg = false) : decideFeed v fb o cfg f = Feed.inactive := by
  simp [decideFeed, feedActivated, h]

/-- An active feed as the boundary decides it: an old one keeps all but the claim. -/
theorem decideFeed_of_active (h : feedActive v fb o cfg = true) :
    (decideFeed v fb o cfg f).active = true ∧
    (decideFeed v fb o cfg f).resolved = (resolveFeed v o cfg.selector).map Prod.fst ∧
    (decideFeed v fb o cfg f).claim = (resolveFeed v o cfg.selector).map Prod.snd ∧
    (feedActivated v fb o cfg f = false → (decideFeed v fb o cfg f).current = f.current ∧
      (decideFeed v fb o cfg f).releaseCount = f.releaseCount) := by
  unfold decideFeed
  dsimp only
  cases ha : feedActivated v fb o cfg f with
  | true => exact ⟨rfl, rfl, rfl, nofun⟩
  | false =>
    have hold : ¬ (f.active = false ∨ f.resolved ≠ (resolveFeed v o cfg.selector).map Prod.fst) := fun e => by
      simpa [ha] using (feedActivated_iff v fb o cfg f).mpr ⟨h, e⟩
    rw [not_or, Bool.not_eq_false, not_not] at hold
    rw [if_neg nofun, if_pos h]
    exact ⟨hold.1, hold.2, rfl, fun _ => ⟨rfl, rfl⟩⟩

end

/-! ### One feed over a boundary -/

/-- Whether a feed is active from this boundary on. -/
def State.feedIsActive (s : State) (o : OutputNo) (sl : SlotNo) : Bool :=
  feedActive s.mixView s.decidedMxe.fallback o (s.cpt.store.feed o sl)

/-- Whether a feed is activated at this boundary. -/
def State.feedIsActivated (s : State) (o : OutputNo) (sl : SlotNo) : Bool :=
  feedActivated s.mixView s.decidedMxe.fallback o (s.cpt.store.feed o sl) ((s.mxe.feeds.get o).get sl)

/-- A feed after steps 3 and 4 of R114. -/
def State.decidedFeed (s : State) (o : OutputNo) (sl : SlotNo) : Feed :=
  decideFeed s.mixView s.decidedMxe.fallback o (s.cpt.store.feed o sl) ((s.mxe.feeds.get o).get sl)

/-- What a feed gives at this boundary. -/
def State.boundarySound (s : State) (o : OutputNo) (sl : SlotNo) : FeedSound :=
  feedSound s.mixView s.servedIku s.boundarySounds (s.cpt.store.feed o sl).selector (s.decidedFeed o sl)

theorem State.decidedMxe_feed (s : State) (o : OutputNo) (sl : SlotNo) :
    (s.decidedMxe.feeds.get o).get sl = s.decidedFeed o sl := by
  unfold State.decidedMxe State.decidedFeed
  simp only [Mxe.decide_, feedTbl, Tbl.get_ofFn, Mxe.applyLevels_feeds]
  rfl

theorem State.boundarySounds_get (s : State) (o : OutputNo) (sl : SlotNo) :
    ((s.decidedMxe.sounds s.mixView s.servedIku s.boundarySounds).get o).get sl = s.boundarySound o sl := by
  unfold Mxe.sounds feedTbl
  simp only [Tbl.get_ofFn, s.decidedMxe_feed]
  rfl

/-- The levels and the fallback that hold from the boundary on. -/
theorem State.boundaryRun_levels (s : State) :
    s.boundaryRun.mxe.live = s.decidedMxe.live ∧ s.boundaryRun.mxe.fallback = s.decidedMxe.fallback := by
  obtain ⟨hmxe, _⟩ := s.boundaryRun_holds
  rw [hmxe]
  exact ⟨rfl, rfl⟩

/-- A feed after a boundary outside CONFIG. -/
theorem State.boundaryRun_feed (s : State) (o : OutputNo) (sl : SlotNo) : (s.boundaryRun.mxe.feeds.get o).get sl =
    if (s.decidedFeed o sl).active then
      (s.decidedFeed o sl).move s.mixView s.decidedMxe.live s.decidedMxe.fallback o (s.cpt.store.feed o sl)
        (s.feedIsActivated o sl) (s.boundarySound o sl)
    else s.decidedFeed o sl := by
  have hactivated : ((s.mxe.activated s.mixView).get o).get sl = s.feedIsActivated o sl := by
    unfold Mxe.activated feedTbl
    rw [Tbl.get_ofFn, Tbl.get_ofFn]
    rfl
  obtain ⟨hmxe, _⟩ := s.boundaryRun_holds
  rw [hmxe]
  show ((s.decidedMxe.moveFeeds s.mixView (s.mxe.activated s.mixView)
    (s.decidedMxe.sounds s.mixView s.servedIku s.boundarySounds)).get o).get sl = _
  unfold Mxe.moveFeeds feedTbl
  simp only [Tbl.get_ofFn, s.decidedMxe_feed, s.boundarySounds_get, hactivated]
  rfl

theorem State.boundaryRun_feed_of_inactive {s : State} {o : OutputNo} {sl : SlotNo} (h : s.feedIsActive o sl = false) :
    (s.boundaryRun.mxe.feeds.get o).get sl = Feed.inactive := by
  have hdecided : s.decidedFeed o sl = Feed.inactive := decideFeed_of_inactive _ _ _ _ _ h
  rw [State.boundaryRun_feed, hdecided]
  rfl

theorem State.boundaryRun_feed_of_active {s : State} {o : OutputNo} {sl : SlotNo} (h : s.feedIsActive o sl = true) :
    (s.boundaryRun.mxe.feeds.get o).get sl =
      (s.decidedFeed o sl).move s.mixView s.decidedMxe.live s.decidedMxe.fallback o (s.cpt.store.feed o sl)
        (s.feedIsActivated o sl) (s.boundarySound o sl) := by
  obtain ⟨hactive, _⟩ := decideFeed_of_active s.mixView s.decidedMxe.fallback o (s.cpt.store.feed o sl)
    ((s.mxe.feeds.get o).get sl) h
  rw [State.boundaryRun_feed]
  exact if_pos hactive

/-- A feed's activity after a boundary. -/
theorem State.boundaryRun_feed_active (s : State) (o : OutputNo) (sl : SlotNo) :
    ((s.boundaryRun.mxe.feeds.get o).get sl).active = s.feedIsActive o sl := by
  cases h : s.feedIsActive o sl with
  | false => rw [State.boundaryRun_feed_of_inactive h]; rfl
  | true =>
    obtain ⟨_, _, hkept, _⟩ := Feed.move_holds s.mixView s.decidedMxe.live s.decidedMxe.fallback o
      (s.cpt.store.feed o sl) (s.feedIsActivated o sl) (s.boundarySound o sl) (s.decidedFeed o sl)
    obtain ⟨hactive, _⟩ := decideFeed_of_active s.mixView s.decidedMxe.fallback o (s.cpt.store.feed o sl)
      ((s.mxe.feeds.get o).get sl) h
    rw [State.boundaryRun_feed_of_active h]
    exact hkept.trans hactive

/-- The stream and the claim of an active feed after a boundary are its resolution (R92, R93). -/
theorem State.boundaryRun_feed_resolved {s : State} {o : OutputNo} {sl : SlotNo} (h : s.feedIsActive o sl = true) :
    ((s.boundaryRun.mxe.feeds.get o).get sl).resolved = (s.decidedFeed o sl).resolved ∧
    ((s.boundaryRun.mxe.feeds.get o).get sl).claim = (s.decidedFeed o sl).claim ∧
    (s.decidedFeed o sl).resolved = (s.resolution o (s.cpt.store.feed o sl).selector).map Prod.fst ∧
    (s.decidedFeed o sl).claim = (s.resolution o (s.cpt.store.feed o sl).selector).map Prod.snd := by
  obtain ⟨hresolved, hclaim, _⟩ := Feed.move_holds s.mixView s.decidedMxe.live s.decidedMxe.fallback o
    (s.cpt.store.feed o sl) (s.feedIsActivated o sl) (s.boundarySound o sl) (s.decidedFeed o sl)
  obtain ⟨_, hstream, hname, _⟩ := decideFeed_of_active s.mixView s.decidedMxe.fallback o (s.cpt.store.feed o sl)
    ((s.mxe.feeds.get o).get sl) h
  rw [resolveFeed_eq] at hstream hname
  rw [State.boundaryRun_feed_of_active h]
  exact ⟨hresolved, hclaim, hstream, hname⟩

/-- An active feed is activated where it was inactive or its stream changed (R94). -/
theorem State.feedIsActivated_iff {s : State} {o : OutputNo} {sl : SlotNo} (h : s.feedIsActive o sl = true) :
    s.feedIsActivated o sl = true ↔ ((s.mxe.feeds.get o).get sl).active = false ∨
      ((s.mxe.feeds.get o).get sl).resolved ≠ (s.resolution o (s.cpt.store.feed o sl).selector).map Prod.fst := by
  rw [← resolveFeed_eq]
  exact (feedActivated_iff _ _ _ _ _).trans (and_iff_right h)

/-- An activated or forced feed is at 128 (R94, R107). -/
theorem State.boundaryRun_feed_silent {s : State} {o : OutputNo} {sl : SlotNo} (h : s.feedIsActive o sl = true)
    (ha : s.feedIsActivated o sl = true ∨ (s.boundarySound o sl).force = true) :
    ((s.boundaryRun.mxe.feeds.get o).get sl).current = 128 ∧
      ((s.boundaryRun.mxe.feeds.get o).get sl).releaseCount = 0 := by
  obtain ⟨_, _, _, _, _, _, _, hsilent, _⟩ := Feed.move_holds s.mixView s.decidedMxe.live s.decidedMxe.fallback o
    (s.cpt.store.feed o sl) (s.feedIsActivated o sl) (s.boundarySound o sl) (s.decidedFeed o sl)
  rw [State.boundaryRun_feed_of_active h]
  exact hsilent ha

/-- The ramp step of a feed with the attenuation and count of another, from 128 where its sound returns. -/
theorem Feed.rampsFrom_rampStep {d f : Feed} (hcurrent : d.current = f.current)
    (hcount : d.releaseCount = f.releaseCount) (target : Nat) (returns : Bool) (attack interval : Nat) :
    let from_ : Feed := if returns then { f with current := 128, releaseCount := 0 } else f
    let step := ({ from_ with target := target } : Feed).rampStep attack interval
    ((d.rampsFrom target returns).rampStep attack interval).current = step.current ∧
      ((d.rampsFrom target returns).rampStep attack interval).releaseCount = step.releaseCount := by
  refine Feed.rampStep_congr attack interval rfl ?_ ?_ <;> cases returns
  · exact hcurrent
  · rfl
  · exact hcount
  · rfl

/-- An active feed that is neither activated nor forced takes its ramp step from the feed as the boundary began
(R106). -/
theorem State.boundaryRun_feed_ramps {s : State} {o : OutputNo} {sl : SlotNo} (h : s.feedIsActive o sl = true)
    (ha : ¬ (s.feedIsActivated o sl = true ∨ (s.boundarySound o sl).force = true)) :
    let f := (s.mxe.feeds.get o).get sl
    let g := (s.boundaryRun.mxe.feeds.get o).get sl
    let from_ : Feed := if (s.boundarySound o sl).returns then { f with current := 128, releaseCount := 0 } else f
    let step := ({ from_ with target := g.target } : Feed).rampStep s.cpt.store.attack s.cpt.store.releaseInterval
    g.current = step.current ∧ g.releaseCount = step.releaseCount := by
  obtain ⟨_, _, _, _, _, _, htarget, _, hramps⟩ := Feed.move_holds s.mixView s.decidedMxe.live s.decidedMxe.fallback o
    (s.cpt.store.feed o sl) (s.feedIsActivated o sl) (s.boundarySound o sl) (s.decidedFeed o sl)
  obtain ⟨_, _, _, hkept⟩ := decideFeed_of_active s.mixView s.decidedMxe.fallback o (s.cpt.store.feed o sl)
    ((s.mxe.feeds.get o).get sl) h
  obtain ⟨hcurrent, hcount⟩ := hkept (Bool.eq_false_iff.mpr fun e => ha (.inl e))
  obtain ⟨hc, hr⟩ := hramps ha
  dsimp only
  rw [State.boundaryRun_feed_of_active h, hc, hr, htarget]
  exact Feed.rampsFrom_rampStep hcurrent hcount _ _ _ _

/-- An active feed's sound, and the target that it aims at (R95, R96, R100 to R104). -/
theorem State.boundaryRun_feed_sound {s : State} {o : OutputNo} {sl : SlotNo} (h : s.feedIsActive o sl = true) :
    let g := (s.boundaryRun.mxe.feeds.get o).get sl
    let x := s.boundarySound o sl
    SoundOf s s.boundaryRun (s.cpt.store.feed o sl).selector g.resolved x ∧ g.served = x.served ∧ g.cls = x.cls ∧
      g.priv = x.priv ∧ TargetIs s s.boundaryRun o (s.cpt.store.feed o sl) g.claim x g.target := by
  intro g x
  obtain ⟨_, _, _, hgiven, _, hradio, _⟩ := s.boundaryRun_holds
  obtain ⟨hlive, hfallback⟩ := s.boundaryRun_levels
  obtain ⟨hresolved, hclaim, _⟩ := State.boundaryRun_feed_resolved h
  obtain ⟨_, _, _, hserved, hcls, hpriv, htarget, _⟩ := Feed.move_holds s.mixView s.decidedMxe.live
    s.decidedMxe.fallback o (s.cpt.store.feed o sl) (s.feedIsActivated o sl) (s.boundarySound o sl) (s.decidedFeed o sl)
  rw [← State.boundaryRun_feed_of_active h] at hserved hcls hpriv htarget
  refine ⟨?_, hserved, hcls, hpriv, ?_⟩
  · rw [hresolved]
    exact feedSound_holds s s.boundaryRun hgiven hradio _ _
  · rw [hclaim, htarget, ← hlive, ← hfallback]
    exact targetOf_holds s s.boundaryRun o _ _ x

/-! ### The mix of an output -/

/-- What an output mixes after a boundary: its active feeds with their configuration and what they give. -/
def State.mixRow (s : State) (o : OutputNo) : List (FeedConfig × Feed × FeedSound) :=
  (List.finRange 4).filterMap (fun sl =>
    let g := (s.boundaryRun.mxe.feeds.get o).get sl
    if g.active then some (s.cpt.store.feed o sl, g, s.boundarySound o sl) else none)

/-- Every output takes the mix of its active feeds (R113, R114). -/
theorem State.boundaryRun_mixes (s : State) :
    (∀ b : BridgeNo, (s.boundaryRun.ost.bridges.get b).block = mixBridge (s.mixRow ⟨b.val, by omega⟩)) ∧
    s.boundaryRun.mxe.post0 = mixStereo (s.mixRow 8) ∧ s.boundaryRun.mxe.post1 = mixStereo (s.mixRow 9) ∧
    s.boundaryRun.mxe.lineOut = mixStereo (s.mixRow 10) := by
  obtain ⟨hmxe, host, _⟩ := s.boundaryRun_holds
  have hrow (o : OutputNo) : activeFeeds s.cpt.store s.boundaryMixed.1.feeds
      (s.decidedMxe.sounds s.mixView s.servedIku s.boundarySounds) o = s.mixRow o := by
    unfold activeFeeds State.mixRow
    rw [hmxe]
    simp only [s.boundarySounds_get]
  refine ⟨fun b => ?_, ?_, ?_, ?_⟩
  · have hblock : ((s.ost.boundary s.cpt.store s.inConfig).1.load s.boundaryMixed.2).bridges.get b =
        ((s.ost.boundary s.cpt.store s.inConfig).1.bridges.get b).load (s.boundaryMixed.2.get b) := Tbl.get_ofFn _ _
    rw [host, hblock, ← hrow]
    exact Tbl.get_ofFn _ _
  · rw [hmxe, ← hrow]
    rfl
  · rw [hmxe, ← hrow]
    rfl
  · rw [hmxe, ← hrow]
    rfl

end Sys2Proof.Machine
end

section
/-! PROOF. What a boundary decides of the feeds (R91 to R94, R105), and their sounds, targets, ramps and mixes (R95 to
R104, R106, R107, R111, R113). -/

namespace Sys2Proof.Machine

open Sys2Proof

/-- Settles O30: fallback by `fallbackOf_iff`, activity by `feedActive_iff`, and the feed by its two cases. -/
theorem boundaryDecidesFeeds : Obligations.BoundaryDecidesFeeds := by
  unfold Obligations.BoundaryDecidesFeeds
  intro s hc
  refine ⟨_, exec_blockBoundary_of_not_inConfig hc, ?_⟩
  obtain ⟨_, hfallback⟩ := s.boundaryRun_levels
  rw [hfallback]
  refine ⟨fallbackOf_iff s, fun o sl => ?_⟩
  dsimp only
  rw [State.boundaryRun_feed_active]
  refine ⟨feedActive_iff s _ o _, fun h => ?active, fun h => ?inactive⟩
  case active =>
    obtain ⟨hresolved, hclaim, hstream, hname⟩ := State.boundaryRun_feed_resolved h
    exact ⟨hresolved.trans hstream, hclaim.trans hname,
      fun ha => State.boundaryRun_feed_silent h (.inl ((State.feedIsActivated_iff h).mpr ha))⟩
  case inactive =>
    rw [State.boundaryRun_feed_of_inactive h]
    exact ⟨rfl, rfl, rfl, rfl, rfl, rfl⟩

/-! ### The mix of one instant (R111 to R113) -/

/-- The sample that a bridge takes of a sample frame (R95). -/
def Pick.sampleOf (pick : Pick) (y : StereoSample) : Int :=
  match pick with
  | .left => y.l.toInt
  | .right => y.r.toInt
  | .mid | .stereo => (y.l.toInt + y.r.toInt) / 2

/-- One instant of a feed's products on a bridge. -/
theorem bridgeProducts_getD (pick : Pick) (a : Nat) (snd : FeedSound) {n : Nat} (h : n < snd.block.length) :
    (bridgeProducts pick a snd).getD n 0 =
      if snd.secret then 0 else product (pick.sampleOf (snd.block.getD n StereoSample.zero)) (gain a) := by
  simp only [bridgeProducts, List.getD_eq_getElem?_getD, List.getElem?_map, List.getElem?_eq_getElem h, Option.map_some,
    Option.getD_some]
  cases pick <;> rfl

theorem leftProducts_getD (a : Nat) (snd : FeedSound) {n : Nat} (h : n < snd.block.length) :
    (leftProducts a snd).getD n 0 = product (snd.block.getD n StereoSample.zero).l.toInt (gain a) := by
  simp [leftProducts, h]

theorem rightProducts_getD (a : Nat) (snd : FeedSound) {n : Nat} (h : n < snd.block.length) :
    (rightProducts a snd).getD n 0 = product (snd.block.getD n StereoSample.zero).r.toInt (gain a) := by
  simp [rightProducts, h]

/-- One instant of a mix, from one instant of each feed's products. -/
theorem mixDown_map_getElem? {α : Type} (l : List α) (products : α → List Int) (at_ : α → Int) {n : Nat} (hn : n < 48)
    (hlen : ∀ x ∈ l, n < (products x).length) (hat : ∀ x ∈ l, (products x).getD n 0 = at_ x) :
    (mixDown (l.map products))[n]? = some (saturate (l.map at_).sum) := by
  rw [mixDown_getElem? _ n hn (List.forall_mem_map.mpr hlen), List.map_map]
  exact congrArg (fun m => some (saturate (List.sum m))) (List.map_congr_left hat)

/-- Settles O31: sound, target and ramp of each active feed, the outputs' mixes, and the mix of one instant. -/
theorem boundarySetsTargetsAndMixes : Obligations.BoundarySetsTargetsAndMixes := by
  unfold Obligations.BoundarySetsTargetsAndMixes
  refine ⟨fun s hc => ?boundary, fun l n hn hlen => ?instant⟩
  case boundary =>
    refine ⟨_, s.boundarySound, exec_blockBoundary_of_not_inConfig hc, fun o sl => ?_, s.boundaryRun_mixes⟩
    dsimp only
    rw [State.boundaryRun_feed_active]
    intro h
    obtain ⟨hsound, hserved, hcls, hpriv, htarget⟩ := State.boundaryRun_feed_sound h
    obtain ⟨hresolved, _, hstream, _⟩ := State.boundaryRun_feed_resolved h
    have hsilent : (((s.mxe.feeds.get o).get sl).active = false ∨
        ((s.mxe.feeds.get o).get sl).resolved ≠ ((s.boundaryRun.mxe.feeds.get o).get sl).resolved ∨
        (s.boundarySound o sl).force = true) ↔
          (s.feedIsActivated o sl = true ∨ (s.boundarySound o sl).force = true) := by
      rw [State.feedIsActivated_iff h, hresolved.trans hstream, or_assoc]
    refine ⟨hsound, hserved, hcls, hpriv, htarget, ?_⟩
    rw [hsilent]
    exact ⟨State.boundaryRun_feed_silent h, State.boundaryRun_feed_ramps h⟩
  case instant =>
    refine ⟨?_, ?_⟩
    · exact mixDown_map_getElem? l _ _ hn (fun x hx => by simpa [bridgeProducts] using hlen x hx)
        (fun x hx => bridgeProducts_getD _ _ _ (hlen x hx))
    · have hleft := mixDown_map_getElem? l (fun x => leftProducts x.2.1.current x.2.2) _ hn
        (fun x hx => by simpa [leftProducts] using hlen x hx) (fun x hx => leftProducts_getD _ _ (hlen x hx))
      have hright := mixDown_map_getElem? l (fun x => rightProducts x.2.1.current x.2.2) _ hn
        (fun x hx => by simpa [rightProducts] using hlen x hx) (fun x hx => rightProducts_getD _ _ (hlen x hx))
      unfold mixStereo
      rw [List.getElem?_zipWith, hleft, hright]

end Sys2Proof.Machine
end

section
/-! PROOF. No secret sound reaches a bridge (R96, R112). -/

namespace Sys2Proof.Machine

open Sys2Proof

/-! ### Products and mixes of zeros (R111 to R113) -/

/-- Products that are all 0. -/
def Silent (l : List Int) : Prop := ∀ p ∈ l, p = 0

/-- A secret sound gives a bridge products that are 0 (R112). -/
theorem bridgeProducts_secret {snd : FeedSound} (h : snd.secret = true) (pick : Pick) (a : Nat) :
    Silent (bridgeProducts pick a snd) := by
  intro p hp
  obtain ⟨x, _, rfl⟩ := List.mem_map.mp hp
  exact if_pos h

/-- Adding zeros to a list that is no longer than they are leaves it. -/
theorem zipWith_add_silent {l z : List Int} (hz : Silent z) (h : l.length ≤ z.length) :
    List.zipWith (· + ·) l z = l := by
  refine List.ext_getElem (by simpa using h) (fun n h1 h2 => ?_)
  rw [List.getElem_zipWith, hz _ (List.getElem_mem _), add_zero]

/-- A sum of zeros is zeros. -/
theorem silent_zipWith_add {l m : List Int} (hl : Silent l) (hm : Silent m) : Silent (List.zipWith (· + ·) l m) := by
  intro p hp
  obtain ⟨n, hn, rfl⟩ := List.getElem_of_mem hp
  rw [List.getElem_zipWith, hl _ (List.getElem_mem _), hm _ (List.getElem_mem _), add_zero]

/-- Lists summed place by place are no longer than the first. -/
theorem foldl_zipWith_add_length (ps : List (List Int)) (acc : List Int) :
    (ps.foldl (List.zipWith (· + ·)) acc).length ≤ acc.length := by
  induction ps generalizing acc with
  | nil => exact le_refl _
  | cons p ps ih => exact (ih _).trans (by simp)

/-- Products that are all 0 over a whole block add nothing to a mix. -/
theorem mixDown_insert_silent (ps qs : List (List Int)) {z : List Int} (hz : Silent z) (h : z.length = 48) :
    mixDown (ps ++ z :: qs) = mixDown (ps ++ qs) := by
  have hlen := foldl_zipWith_add_length ps (List.replicate Config.blockLen 0)
  rw [List.length_replicate] at hlen
  unfold mixDown
  rw [List.foldl_append, List.foldl_cons, zipWith_add_silent hz (hlen.trans h.ge), ← List.foldl_append]

/-- A mix of products that are all 0 is silent. -/
theorem mixDown_silent {ps : List (List Int)} (h : ∀ p ∈ ps, Silent p) : ∀ y ∈ mixDown ps, y = 0 := by
  have hsum : ∀ (qs : List (List Int)) (acc : List Int), Silent acc → (∀ p ∈ qs, Silent p) →
      Silent (qs.foldl (List.zipWith (· + ·)) acc) := by
    intro qs
    induction qs with
    | nil => exact fun acc hacc _ => hacc
    | cons p qs ih =>
      exact fun acc hacc hq => ih _ (silent_zipWith_add hacc (hq p List.mem_cons_self))
        (fun q hm => hq q (List.mem_cons_of_mem _ hm))
  intro y hy
  obtain ⟨x, hx, rfl⟩ := List.mem_map.mp hy
  rw [hsum ps _ (fun p hp => List.eq_of_mem_replicate hp) h x hx]
  decide

/-! ### A bridge at a boundary -/

/-- A bridge all of whose active feeds give a secret sound is silent after a boundary. -/
theorem State.boundaryRun_secretBridge {s : State} {b : BridgeNo}
    (h : ∀ sl, s.feedIsActive ⟨b.val, by omega⟩ sl = true → (s.boundarySound ⟨b.val, by omega⟩ sl).secret = true) :
    ∀ y ∈ (s.boundaryRun.ost.bridges.get b).block, y = 0 := by
  obtain ⟨hblock, _⟩ := s.boundaryRun_mixes
  rw [hblock]
  refine mixDown_silent (fun p hp => ?_)
  obtain ⟨x, hx, rfl⟩ := List.mem_map.mp hp
  obtain ⟨sl, _, hsl⟩ := List.mem_filterMap.mp hx
  dsimp only at hsl
  rw [State.boundaryRun_feed_active] at hsl
  cases ha : s.feedIsActive ⟨b.val, by omega⟩ sl with
  | false => rw [ha] at hsl; cases hsl
  | true =>
    rw [ha] at hsl
    cases hsl
    exact bridgeProducts_secret (h sl ha) _ _

/-- Settles O29: the products by `bridgeProducts_secret`, the mix without them by `mixDown_insert_silent`, and a bridge
at a boundary by the sounds of its active feeds. -/
theorem privateSoundNeverReachesABridge : Obligations.PrivateSoundNeverReachesABridge := by
  unfold Obligations.PrivateSoundNeverReachesABridge
  refine ⟨⟨fun pick a snd h => bridgeProducts_secret h pick a, fun l m x hx hlen => ?mix,
    fun _ _ _ _ _ _ _ _ _ => rfl, fun _ _ _ => ⟨rfl, rfl⟩⟩, fun s hc => ?boundary⟩
  case mix =>
    unfold mixBridge
    rw [List.map_append, List.map_cons, List.map_append]
    exact mixDown_insert_silent _ _ (bridgeProducts_secret hx _ _) (by simpa [bridgeProducts] using hlen)
  case boundary =>
    refine ⟨_, exec_blockBoundary_of_not_inConfig hc, fun b h => State.boundaryRun_secretBridge (fun sl ha => ?_)⟩
    obtain ⟨hsound, _⟩ := State.boundaryRun_feed_sound ha
    exact h sl ((s.boundaryRun_feed_active _ sl).trans ha) _ hsound

end Sys2Proof.Machine
end

section
/-! SUPPORT. What the work of a block boundary after the no-idle check keeps: the no-idle counter (R19), the lifecycle
state with its counters (R24, R27, R30), and the peer entries but for their ages (R31, R35). -/

namespace Sys2Proof.Machine

open Sys2Proof

/-! ### The no-idle counter after its check (R19) -/

/-- The no-idle counter with the idle-seen flag. -/
def Lif.idleCount (l : Lif) : Nat × Bool := (l.noIdle, l.idleSeen)

theorem Lif.addClaim_idleCount (l : Lif) (f : ClaimFrame) (re : Bool) : (l.addClaim f re).idleCount = l.idleCount := by
  rw [Lif.addClaim_frame]
  rfl

theorem Lif.handSound_idleCount (l : Lif) (lc : Lifecycle) (i : PubSlotNo) (f : Option SoundFrame) :
    (l.handSound lc i f).idleCount = l.idleCount := by
  unfold Lif.handSound
  split <;> rfl

theorem Lif.arbitrate_idleCount (l : Lif) (lc : Lifecycle) : (l.arbitrate lc).idleCount = l.idleCount := by
  rw [Lif.arbitrate_frame]
  rfl

/-- Own HELD claims that change hand a claim frame and a presence alone. -/
theorem Link.recompose_idleCount (k : Link) (env : Env) : (k.recompose env).lif.idleCount = k.lif.idleCount := by
  unfold Link.recompose
  split <;> rfl

theorem Link.placeAnnounce_idleCount (k : Link) (env : Env) (z : ZoneSet) (r : Option StreamNo) :
    (k.placeAnnounce env z r).2.lif.idleCount = k.lif.idleCount := by
  unfold Link.placeAnnounce
  split
  · exact (Link.recompose_idleCount _ env).trans (Lif.addClaim_idleCount _ _ _)
  · rfl

theorem Link.endAnnounce_idleCount (k : Link) (env : Env) (n : Serial) :
    (k.endAnnounce env n).lif.idleCount = k.lif.idleCount := by
  unfold Link.endAnnounce
  split
  · rfl
  · exact (Link.recompose_idleCount _ env).trans (Lif.addClaim_idleCount _ _ _)

theorem Link.tickWindow_idleCount (k : Link) (env : Env) : (k.tickWindow env).lif.idleCount = k.lif.idleCount := by
  unfold Link.tickWindow
  split
  · rfl
  · split
    · split
      · rfl
      · unfold Link.expireWindow
        split
        · exact (Link.recompose_idleCount _ env).trans (Lif.addClaim_idleCount _ _ _)
        · rfl
    · rfl

theorem Link.tickCadence_idleCount (k : Link) (env : Env) : (k.tickCadence env).lif.idleCount = k.lif.idleCount := by
  unfold Link.tickCadence
  dsimp only
  (repeat' split) <;> rfl

theorem State.foldl_idleCount {α : Type} {f : State → α → State}
    (h : ∀ (s : State) (a : α), (f s a).lif.idleCount = s.lif.idleCount) (l : List α) (s : State) :
    (l.foldl f s).lif.idleCount = s.lif.idleCount := by
  induction l generalizing s with
  | nil => rfl
  | cons a l ih => exact (ih (f s a)).trans (h s a)

theorem State.boundaryPickup_idleCount (v : MixView) (s : State) :
    (s.boundaryPickup v).lif.idleCount = s.lif.idleCount := by
  unfold State.boundaryPickup State.pickupSlot
  dsimp only
  split
  · rfl
  · rfl
  · exact Lif.handSound_idleCount _ _ _ _

theorem State.publishSlot_idleCount (hand : Bool) (s : State) (i : PubSlotNo) :
    (State.publishSlot hand s i).lif.idleCount = s.lif.idleCount := by
  unfold State.publishSlot
  split
  · rfl
  · cases hand
    · rfl
    · exact Lif.handSound_idleCount _ _ _ _

theorem State.rduEffect_idleCount (s : State) (e : RduEffect) : (s.rduEffect e).lif.idleCount = s.lif.idleCount := by
  cases e with
  | notice n => rfl
  | announceStart =>
    simp only [State.rduEffect, State.announceStart]
    split <;> exact Link.placeAnnounce_idleCount _ _ _ _
  | announceEnd c a =>
    simp only [State.rduEffect, State.announceEnd]
    split
    · exact Link.endAnnounce_idleCount _ _ _
    · rfl

/-- The work after the no-idle check, part by part. -/
theorem State.boundaryParts_idleCount (x : State) :
    (∀ hand, (x.boundaryPublish hand).lif.idleCount = x.lif.idleCount) ∧
    x.boundaryRadio.lif.idleCount = x.lif.idleCount ∧ x.boundaryClaims.lif.idleCount = x.lif.idleCount ∧
    x.boundaryPeers.lif.idleCount = x.lif.idleCount ∧ x.boundaryCadence.lif.idleCount = x.lif.idleCount ∧
    x.clearInputs.arbitrate.lif.idleCount = x.lif.idleCount := by
  obtain ⟨_, _, _, _, hpeers, _⟩ := x.boundaryPeers_holds
  exact ⟨fun hand => State.foldl_idleCount (State.publishSlot_idleCount hand) _ _,
    State.foldl_idleCount State.rduEffect_idleCount _ _, Link.tickWindow_idleCount _ _, congrArg Lif.idleCount hpeers,
    Link.tickCadence_idleCount _ _, Lif.arbitrate_idleCount _ _⟩

/-- The Publisher finds the counter as the check left it. -/
theorem State.boundaryBuilding_idleCount (s : State) :
    s.boundaryBuilding.lif.idleCount = s.boundaryChecked.lif.idleCount := by
  obtain ⟨_, hpicked, _⟩ := s.boundaryBuilding_picked
  rw [hpicked]
  unfold State.boundaryPicked State.boundaryChecked
  rw [State.boundaryPickup_idleCount, boundaryDecide_lif, boundaryRadioBlock_lif]

/-- The counter after a boundary is as its check left it. -/
theorem State.boundaryRun_idleCount (s : State) : s.boundaryRun.lif.idleCount = s.boundaryChecked.lif.idleCount := by
  have hworked : s.boundaryWorked.lif.idleCount = s.boundaryChecked.lif.idleCount := by
    rw [← s.boundaryBuilding_idleCount, State.boundaryWorked, s.boundaryBuilt_eq]
    generalize s.boundaryBuilding = x
    obtain ⟨hpublish, _⟩ := x.boundaryParts_idleCount
    rw [← hpublish (s.cle.lifecycle == .active)]
    generalize x.boundaryPublish _ = y
    obtain ⟨_, hradio, _⟩ := y.boundaryParts_idleCount
    obtain ⟨_, _, hclaims, _⟩ := y.boundaryRadio.boundaryParts_idleCount
    obtain ⟨_, _, _, hpeers, _⟩ := y.boundaryRadio.boundaryClaims.boundaryParts_idleCount
    exact hpeers.trans (hclaims.trans hradio)
  rw [State.boundaryRun_eq, ← hworked]
  generalize s.boundaryWorked = x
  obtain ⟨_, _, _, _, hcadence, hquiet⟩ := x.boundaryParts_idleCount
  obtain ⟨_, _, _, _, _, hlast⟩ := x.boundaryCadence.boundaryParts_idleCount
  split
  · exact hlast.trans hcadence
  · exact hquiet

/-! ### The lifecycle state and its counters -/

/-- The work of a boundary after the no-idle check leaves the lifecycle state and its counters. -/
theorem State.boundaryChecked_keepsDue (s : State) : s.boundaryChecked.KeepsDue s.boundaryWorked := by
  have hpicked : s.boundaryChecked.KeepsDue s.boundaryPicked := by
    unfold State.boundaryPicked State.boundaryChecked
    generalize s.boundaryOutput.boundaryLevels.boundaryIdle = x
    have hdecided : x.KeepsDue (x.boundaryRadioBlock.boundaryDecide s.mixView) := .of_eq rfl rfl
    exact hdecided.trans (State.KeepsDue.boundaryPickup _ _)
  have hbuilding : s.boundaryPicked.KeepsDue s.boundaryBuilding := by
    obtain ⟨_, hlif, hcle⟩ := s.boundaryBuilding_picked
    exact .of_eq hlif hcle
  refine hpicked.trans (hbuilding.trans ?_)
  rw [State.boundaryWorked, s.boundaryBuilt_eq]
  generalize s.boundaryBuilding = x
  exact (State.KeepsDue.boundaryPublish _ x).trans ((State.KeepsDue.boundaryRadio _).trans
    ((State.KeepsDue.boundaryClaims _).trans (State.KeepsDue.boundaryPeers _)))

/-- The counter of JOINING below its end, and at it (R24). -/
theorem State.boundaryCadence_joins {x : State} (hl : x.cle.lifecycle = .joining) :
    (x.cle.joining < 59 → x.boundaryCadence.cle = { x.cle with joining := x.cle.joining + 1 }) ∧
    (x.cle.joining = 59 → x.boundaryCadence.cle.lifecycle = .active ∧ x.boundaryCadence.cle.joining = 60 ∧
      x.boundaryCadence.cle.presenceCount = 0) := by
  refine ⟨fun hj => ?_, fun hj => ?_⟩
  · rw [boundaryCadence_cle, Link.tickCadence, show x.link.cle = x.cle from rfl, hl]
    exact congrArg Link.cle (if_pos (Nat.succ_lt_succ hj))
  · rw [State.boundaryCadence, State.tickCadence_joining hl hj]
    exact ⟨rfl, rfl, rfl⟩

/-- The presence counter of ACTIVE and ISOLATED below its end, and at it (R27, R30). -/
theorem State.boundaryCadence_counts {x : State} (hl : x.cle.lifecycle = .active ∨ x.cle.lifecycle = .isolated) :
    x.boundaryCadence.cle.lifecycle = x.cle.lifecycle ∧
    (x.cle.presenceCount < 49 → x.boundaryCadence.cle.presenceCount = x.cle.presenceCount + 1) ∧
    (x.cle.presenceCount = 49 → x.boundaryCadence.cle.presenceCount = 0) := by
  refine ⟨(Link.tickCadence_keepsPub x.link x.env).life ?_, fun hn => ?_, fun hn => ?_⟩
  · rcases hl with hl | hl <;> exact fun h => nomatch hl.symm.trans h
  · rw [boundaryCadence_cle, Link.tickCadence, show x.link.cle = x.cle from rfl]
    rcases hl with hl | hl <;> rw [hl] <;>
      exact congrArg (fun k : Link => k.cle.presenceCount) (if_pos (Nat.succ_lt_succ hn))
  · rw [State.boundaryCadence, State.tickCadence_counting hl hn]
    rfl

/-- Where the lifecycle state is still the same after the other work, the counters take their step; else they do not. -/
theorem State.boundaryRun_cle (s : State) :
    (s.boundaryChecked.cle.lifecycle = s.cle.lifecycle → s.boundaryRun.cle = s.boundaryWorked.boundaryCadence.cle) ∧
    (s.boundaryChecked.cle.lifecycle ≠ s.cle.lifecycle → s.boundaryRun.cle = s.boundaryWorked.cle) := by
  have hlife := s.boundaryChecked_keepsDue.lifecycle
  rw [State.boundaryRun_eq, ← hlife]
  generalize s.boundaryWorked = x
  refine ⟨fun h => ?_, fun h => ?_⟩
  · rw [if_pos h, arbitrate_cle, clearInputs_cle]
  · rw [if_neg h, arbitrate_cle, clearInputs_cle]

/-- Outside ACTIVE the no-idle check does nothing (R19). -/
theorem State.boundaryChecked_of_not_active {s : State} (h : s.cle.lifecycle ≠ .active) :
    s.boundaryChecked.cle = s.cle :=
  congrArg Link.cle
    (if_neg h : s.boundaryOutput.boundaryLevels.link.checkNoIdle _ = s.boundaryOutput.boundaryLevels.link)

/-- In ACTIVE the check counts, below its end, and clears the idle-seen flag (R19). -/
theorem State.boundaryChecked_counts {s : State} (h : s.cle.lifecycle = .active) (hn : s.lif.noIdleAfter < 2) :
    s.boundaryChecked.cle = s.cle ∧ s.boundaryChecked.lif.idleCount = (s.lif.noIdleAfter, false) := by
  have hcheck : s.boundaryOutput.boundaryLevels.link.checkNoIdle s.boundaryOutput.boundaryLevels.env =
      { s.boundaryOutput.boundaryLevels.link with
        lif := { s.lif with noIdle := s.lif.noIdleAfter, idleSeen := false } } := by
    unfold Link.checkNoIdle
    rw [if_pos (show s.boundaryOutput.boundaryLevels.link.cle.lifecycle = .active from h)]
    exact if_pos hn
  exact ⟨congrArg Link.cle hcheck, congrArg (fun k : Link => k.lif.idleCount) hcheck⟩

/-- At its end the check isolates the station (R19, R26). -/
theorem State.boundaryChecked_isolates {s : State} (h : s.cle.lifecycle = .active) (hp : s.lif.anyPending = true)
    (hi : s.lif.idleSeen = false) (hn : 1 ≤ s.lif.noIdle) : s.boundaryChecked.cle.lifecycle = .isolated ∧
      s.boundaryChecked.cle.presenceCount = 0 ∧ s.boundaryChecked.lif.idleCount = (0, false) := by
  have hcheck := Link.checkNoIdle_isolates s.boundaryOutput.boundaryLevels.link s.boundaryOutput.boundaryLevels.env h hp
    hi hn
  obtain ⟨_, _, ⟨hlife, hcount, _, _, _, _, _, _, hnoIdle, hseen, _⟩, _⟩ := isolate_holds
    s.boundaryOutput.boundaryLevels { s.lif with noIdle := s.lif.noIdle + 1, idleSeen := false } .noIdle
  have hchecked : s.boundaryChecked = s.boundaryOutput.boundaryLevels.setLink _ :=
    congrArg s.boundaryOutput.boundaryLevels.setLink hcheck
  rw [hchecked]
  exact ⟨hlife, hcount, Prod.ext hnoIdle hseen⟩

/-! ### The peer entries (R31, R35) -/

/-- Up to the peers' ages a boundary leaves the other stations' entries. -/
theorem State.boundaryBuilt_otherPeers (s : State) {p : StationNo} (hp : p ≠ s.own) :
    s.boundaryBuilt.boundaryRadio.boundaryClaims.cle.peers.get p = s.cle.peers.get p := by
  have hlevels : s.boundaryOutput.boundaryLevels.own = s.own :=
    ((boundaryOutput_keeps s).trans (boundaryLevels_keeps _)).own
  have hchecked : s.boundaryOutput.boundaryLevels.boundaryIdle.cle.peers.get p = s.cle.peers.get p :=
    Link.checkNoIdle_others s.boundaryOutput.boundaryLevels.link s.boundaryOutput.boundaryLevels.env p
      (fun e => hp (e.trans hlevels))
  obtain ⟨_, hbuilt⟩ := s.boundaryBuilt_cle
  have hown := s.boundaryBuilt_keeps.own
  rw [← hchecked, ← hbuilt]
  generalize s.boundaryBuilt = x at hown ⊢
  rw [← x.boundaryRadio_others p (fun e => hp (e.trans hown))]
  have hradio := (boundaryRadio_keeps x).own.trans hown
  generalize x.boundaryRadio = y at hradio ⊢
  exact Link.tickWindow_others y.link y.env p (fun e => hp (e.trans hradio))

/-- A peer entry ages at a boundary, and goes at age 160 (R31, R35). -/
theorem State.boundaryPeers_peer {s : State} {p : StationNo} {e : PeerEntry} (hp : p ≠ s.own)
    (he : s.cle.peers.get p = some e) :
    s.boundaryPeers.cle.peers.get p = if e.age < 159 then some { e with age := e.age + 1 } else none := by
  obtain ⟨_, hpeers, _⟩ := State.expirePeers_holds (expiredPeers s.own (agePeers s.own s.cle.peers))
    { s with cle := { s.cle with peers := agePeers s.own s.cle.peers } }
  have haged : (agePeers s.own s.cle.peers).get p = some { e with age := e.age + 1 } := by
    unfold agePeers
    rw [Tbl.get_ofFn, he, Option.map_some, if_neg hp]
  have hgone : p ∈ expiredPeers s.own (agePeers s.own s.cle.peers) ↔ ¬ e.age < 159 := by
    rw [expiredPeers_agePeers]
    simp [State.peerExpires, hp, he]
  refine (hpeers p).trans ?_
  simp only [hgone, ite_not, haged]

/-- The counters' step leaves the other stations' entries as the peers' ages left them. -/
theorem State.boundaryRun_peer {s : State} {p : StationNo} {e : PeerEntry} (hp : p ≠ s.own)
    (he : s.cle.peers.get p = some e) :
    s.boundaryRun.cle.peers.get p = if e.age < 159 then some { e with age := e.age + 1 } else none := by
  have hworked : s.boundaryWorked.cle.peers.get p = if e.age < 159 then some { e with age := e.age + 1 } else none := by
    have hown := s.boundaryBuilt_keeps_claims.own
    have hentry := (s.boundaryBuilt_otherPeers hp).trans he
    unfold State.boundaryWorked
    generalize s.boundaryBuilt.boundaryRadio.boundaryClaims = x at hown hentry ⊢
    exact State.boundaryPeers_peer (fun h => hp (h.trans hown)) hentry
  have hown := s.boundaryWorked_keeps.own
  obtain ⟨hsame, hchanged⟩ := s.boundaryRun_cle
  rw [← hworked]
  generalize s.boundaryWorked = x at hsame hchanged hown ⊢
  by_cases h : s.boundaryChecked.cle.lifecycle = s.cle.lifecycle
  · rw [hsame h]
    obtain ⟨_, hothers⟩ := Link.tickCadence_others x.link x.env
    exact hothers p (fun e => hp (e.trans hown))
  · rw [hchanged h]

end Sys2Proof.Machine
end

section
/-! PROOF. A block boundary advances the station, by lifecycle state (R19, R24, R26, R30, R31, R35, R114, R115). -/

namespace Sys2Proof.Machine

open Sys2Proof

/-- In CONFIG every bridge gets silence. -/
theorem State.boundaryConfig_block (s : State) (i : BridgeNo) :
    (s.boundaryConfig.ost.bridges.get i).block = List.replicate 48 0 := by
  have hbridge : s.boundaryConfig.ost.bridges.get i = (s.boundaryOutput.ost.bridges.get i).load
      ((Tbl.fill 8 (List.replicate Config.blockLen 0)).get i) := Tbl.get_ofFn _ _
  rw [hbridge, Tbl.get_fill]
  rfl

/-- A boundary in JOINING (R24). -/
theorem State.boundaryRun_joins {s : State} (h : s.cle.lifecycle = .joining) :
    (s.cle.joining < 59 → s.boundaryRun.cle.lifecycle = .joining ∧ s.boundaryRun.cle.joining = s.cle.joining + 1) ∧
    (s.cle.joining = 59 → s.boundaryRun.cle.lifecycle = .active ∧ s.boundaryRun.cle.joining = 60 ∧
      s.boundaryRun.cle.presenceCount = 0) := by
  have hchecked : s.boundaryChecked.cle = s.cle := State.boundaryChecked_of_not_active (by rw [h]; nofun)
  obtain ⟨hjoining, _⟩ := s.boundaryChecked_keepsDue.counts
  have hlife := s.boundaryChecked_keepsDue.lifecycle
  obtain ⟨hsame, _⟩ := s.boundaryRun_cle
  rw [hsame (congrArg Cle.lifecycle hchecked)]
  rw [hchecked] at hjoining hlife
  generalize s.boundaryWorked = x at hjoining hlife ⊢
  obtain ⟨hcounts, hends⟩ := State.boundaryCadence_joins (hlife.trans h)
  refine ⟨fun hj => ?_, fun hj => hends (hjoining.trans hj)⟩
  rw [hcounts (hjoining.trans_lt hj)]
  exact ⟨hlife.trans h, congrArg (· + 1) hjoining⟩

/-- A boundary in ISOLATED, or in ACTIVE where its check does not isolate: the presence counter takes its step (R27,
R30). -/
theorem State.boundaryRun_counts {s : State} (h : s.cle.lifecycle = .active ∨ s.cle.lifecycle = .isolated)
    (hchecked : s.boundaryChecked.cle = s.cle) : s.boundaryRun.cle.lifecycle = s.cle.lifecycle ∧
      (s.cle.presenceCount < 49 → s.boundaryRun.cle.presenceCount = s.cle.presenceCount + 1) ∧
      (s.cle.presenceCount = 49 → s.boundaryRun.cle.presenceCount = 0) := by
  obtain ⟨_, hcount⟩ := s.boundaryChecked_keepsDue.counts
  have hlife := s.boundaryChecked_keepsDue.lifecycle
  obtain ⟨hsame, _⟩ := s.boundaryRun_cle
  rw [hsame (congrArg Cle.lifecycle hchecked)]
  rw [hchecked] at hcount hlife
  generalize s.boundaryWorked = x at hcount hlife ⊢
  rw [← hlife] at h
  obtain ⟨hkept, hcounts⟩ := State.boundaryCadence_counts h
  rw [hcount] at hcounts
  exact ⟨hkept.trans hlife, hcounts⟩

/-- A boundary in ACTIVE at which nothing waits, or idle was seen (R19). -/
theorem State.boundaryRun_idle {s : State} (h : s.cle.lifecycle = .active)
    (hidle : s.lif.anyPending = false ∨ s.lif.idleSeen = true) :
    s.boundaryRun.cle.lifecycle = .active ∧ s.boundaryRun.lif.noIdle = 0 ∧ s.boundaryRun.lif.idleSeen = false ∧
      (s.cle.presenceCount < 49 → s.boundaryRun.cle.presenceCount = s.cle.presenceCount + 1) ∧
      (s.cle.presenceCount = 49 → s.boundaryRun.cle.presenceCount = 0) := by
  have hafter : s.lif.noIdleAfter = 0 := if_neg (by rcases hidle with e | e <;> simp [e])
  obtain ⟨hcle, hcount⟩ := State.boundaryChecked_counts h (by omega)
  obtain ⟨hlife, hcounts⟩ := State.boundaryRun_counts (.inl h) hcle
  obtain ⟨hnoIdle, hseen⟩ := Prod.mk.inj (s.boundaryRun_idleCount.trans hcount)
  exact ⟨hlife.trans h, hnoIdle.trans hafter, hseen, hcounts⟩

/-- The first boundary in ACTIVE at which a frame waits and no idle was seen counts (R19). -/
theorem State.boundaryRun_firstNoIdle {s : State} (h : s.cle.lifecycle = .active) (hp : s.lif.anyPending = true)
    (hi : s.lif.idleSeen = false) (hn : s.lif.noIdle = 0) :
    s.boundaryRun.cle.lifecycle = .active ∧ s.boundaryRun.lif.noIdle = 1 ∧ s.boundaryRun.lif.idleSeen = false := by
  have hafter : s.lif.noIdleAfter = 1 := (if_pos ⟨hp, hi⟩).trans (congrArg (· + 1) hn)
  obtain ⟨hcle, hcount⟩ := State.boundaryChecked_counts h (by omega)
  obtain ⟨hlife, _⟩ := State.boundaryRun_counts (.inl h) hcle
  obtain ⟨hnoIdle, hseen⟩ := Prod.mk.inj (s.boundaryRun_idleCount.trans hcount)
  exact ⟨hlife.trans h, hnoIdle.trans hafter, hseen⟩

/-- The second isolates the station, and the counters begin again (R19, R26). -/
theorem State.boundaryRun_secondNoIdle {s : State} (h : s.cle.lifecycle = .active) (hp : s.lif.anyPending = true)
    (hi : s.lif.idleSeen = false) (hn : s.lif.noIdle = 1) :
    s.boundaryRun.cle.lifecycle = .isolated ∧ s.boundaryRun.cle.presenceCount = 0 ∧ s.boundaryRun.lif.noIdle = 0 := by
  obtain ⟨hlife, hcount, hidle⟩ := State.boundaryChecked_isolates h hp hi hn.ge
  obtain ⟨hnoIdle, _⟩ := Prod.mk.inj (s.boundaryRun_idleCount.trans hidle)
  obtain ⟨_, hpresence⟩ := s.boundaryChecked_keepsDue.counts
  obtain ⟨_, hchanged⟩ := s.boundaryRun_cle
  rw [hchanged (by rw [hlife, h]; nofun)]
  exact ⟨s.boundaryChecked_keepsDue.lifecycle.trans hlife, hpresence.trans hcount, hnoIdle⟩

/-- Settles O60: the boundary in CONFIG by its definition, outside CONFIG by the no-idle check and the counters'
step. -/
theorem boundaryAdvancesTheStation : Obligations.BoundaryAdvancesTheStation := by
  unfold Obligations.BoundaryAdvancesTheStation
  intro s
  cases hc : s.inConfig with
  | true =>
    have hkeeps := s.boundaryConfig_keeps
    have hlife : s.cle.lifecycle = .config := State.lifecycle_of_inConfig hc
    rw [hlife]
    exact ⟨_, exec_blockBoundary_of_inConfig hc, rfl, hkeeps.cpt.store, hkeeps.cpt.result, rfl,
      fun _ => ⟨rfl, rfl, rfl, rfl, rfl, rfl, rfl, rfl, s.boundaryConfig_block⟩, nofun, nofun, nofun, nofun⟩
  | false =>
    have hkeeps := s.boundaryRun_keeps
    refine ⟨_, exec_blockBoundary_of_not_inConfig hc, rfl, hkeeps.cpt.store, hkeeps.cpt.result, hkeeps.lif.latch, nofun,
      State.boundaryRun_joins, fun h hn => ?isolated, fun h => ⟨State.boundaryRun_idle h, fun hp hi =>
        ⟨State.boundaryRun_firstNoIdle h hp hi, State.boundaryRun_secondNoIdle h hp hi⟩⟩,
      fun _ p e => State.boundaryRun_peer⟩
    case isolated =>
      obtain ⟨hlife, hcounts, _⟩ := State.boundaryRun_counts (.inr h)
        (State.boundaryChecked_of_not_active (by rw [h]; nofun))
      exact ⟨hlife.trans h, hcounts hn⟩

end Sys2Proof.Machine
end

section
/-! SUPPORT. Hold sets source by source (R128, R211), the sources that are LATCHED or asserted for a bridge (R125, R130), and
the bridge states that R133 gives a hold set. -/

namespace Sys2Proof.Machine

open Sys2Proof

/-! ### Sources and hold sets -/

theorem FaultKind.code_lt (k : FaultKind) : k.code < 7 := by cases k <;> decide

theorem FaultKind.code_inj {j k : FaultKind} : j.code = k.code ↔ j = k := by
  cases j <;> cases k <;> decide

theorem FaultKind.exists_code {n : Nat} (h : n < 7) : ∃ k : FaultKind, k.code = n := by
  interval_cases n
  exacts [⟨.ts, rfl⟩, ⟨.uv, rfl⟩, ⟨.flt0, rfl⟩, ⟨.flt1, rfl⟩, ⟨.dc, rfl⟩, ⟨.oc, rfl⟩, ⟨.tw, rfl⟩]

@[simp] theorem holds_zero (k : FaultKind) : holds 0#7 k = false := BitVec.getLsbD_zero

@[simp] theorem holds_or (a b : HoldSet) (k : FaultKind) : holds (a ||| b) k = (holds a k || holds b k) :=
  BitVec.getLsbD_or

@[simp] theorem holds_and (a b : HoldSet) (k : FaultKind) : holds (a &&& b) k = (holds a k && holds b k) :=
  BitVec.getLsbD_and

@[simp] theorem holds_not (a : HoldSet) (k : FaultKind) : holds (~~~a) k = !holds a k := by
  unfold holds
  simp [k.code_lt]

@[simp] theorem holds_bit (j k : FaultKind) : holds j.bit k = decide (j = k) := by
  rw [holds, FaultKind.bit, BitVec.getLsbD_ofNat, Nat.testBit_two_pow]
  simp [k.code_lt, FaultKind.code_inj]

@[simp] theorem holds_bitIf (c : Bool) (j k : FaultKind) : holds (bitIf c j) k = (c && decide (j = k)) := by
  cases c
  · exact holds_zero k
  · exact holds_bit j k

@[simp] theorem holds_mapped (c : Store) (die : Fin 4) (j : FaultKind) (asserted : Bool) (i : BridgeNo) (k : FaultKind) :
    holds (mapped c die j asserted i) k = (asserted && (c.faultMap.get die).getLsbD i.val && decide (j = k)) :=
  holds_bitIf _ j k

/-- A hold set is the set of its sources. -/
theorem holds_ext {a b : HoldSet} (h : ∀ k, holds a k = holds b k) : a = b := by
  apply BitVec.eq_of_getLsbD_eq
  intro n hn
  obtain ⟨k, rfl⟩ := FaultKind.exists_code hn
  exact h k

theorem holdSet_eq_zero_iff {a : HoldSet} : a = 0 ↔ ∀ k, holds a k = false :=
  ⟨fun h k => h ▸ holds_zero k, fun h => holds_ext (fun k => (h k).trans (holds_zero k).symm)⟩

theorem holdSet_ne_zero_iff {a : HoldSet} : a ≠ 0 ↔ ∃ k, holds a k = true := by
  rw [Ne, holdSet_eq_zero_iff]
  simp

theorem FaultKind.bit_ne_zero (k : FaultKind) : k.bit ≠ 0 :=
  holdSet_ne_zero_iff.mpr ⟨k, by simp⟩

/-! ### LATCHED and asserted sources -/

/-- The sources LATCHED for a bridge (R130). -/
theorem holds_latchedSet (c : Store) (b : Bridge) (k : FaultKind) : holds (latchedSet c b) k = true ↔ LatchedFor c b k := by
  unfold latchedSet
  cases k <;> simp [LatchedFor]

/-- Of a bridge only its OC lock decides which sources are LATCHED (R130, R131). -/
theorem latchedFor_congr {c : Store} {b u : Bridge} (h : u.ocLock = b.ocLock) (k : FaultKind) :
    LatchedFor c u k ↔ LatchedFor c b k := by
  cases k <;> simp [LatchedFor, h]

/-- The sources asserted for a bridge, each by its own filter or by the DC count (R125, R126). -/
theorem holds_assertedSet (o : Ost) (i : BridgeNo) (k : FaultKind) : holds (o.assertedSet i) k =
    match k with
    | .ts => o.fTs.asserted
    | .uv => o.fUv.asserted
    | .flt0 => o.fFlt0.asserted
    | .flt1 => o.fFlt1.asserted
    | .dc => (o.bridges.get i).dcOn
    | .oc => (o.fOc.get i).asserted
    | .tw => o.fTw.asserted := by
  unfold Ost.assertedSet
  cases k <;> simp

/-! ### The state of a hold set (R133) -/

/-- R133 on a bridge: LOCKED with a LATCHED source in its hold set, HALTED with none. -/
def Bridge.HeldByItsSources (c : Store) (u : Bridge) : Prop :=
  ((∃ k, holds u.hold k = true ∧ LatchedFor c u k) → u.state = .locked) ∧
    ((∀ k, holds u.hold k = true → ¬ LatchedFor c u k) → u.state = .halted)

theorem heldState_of_latched {c : Store} {b : Bridge} (h : ∃ k, holds b.hold k = true ∧ LatchedFor c b k) :
    heldState c b = .locked := by
  obtain ⟨k, hk, hl⟩ := h
  refine if_neg (holdSet_ne_zero_iff.mpr ⟨k, ?_⟩)
  rw [holds_and, hk, (holds_latchedSet c b k).mpr hl]
  rfl

theorem heldState_of_not_latched {c : Store} {b : Bridge} (h : ∀ k, holds b.hold k = true → ¬ LatchedFor c b k) :
    heldState c b = .halted := by
  refine if_pos (holdSet_eq_zero_iff.mpr (fun k => Bool.eq_false_iff.mpr (fun hk => ?_)))
  rw [holds_and, Bool.and_eq_true, holds_latchedSet] at hk
  obtain ⟨hhold, hlatched⟩ := hk
  exact h k hhold hlatched

theorem heldState_ne_run (c : Store) (b : Bridge) : heldState c b ≠ .run := by
  unfold heldState
  split <;> nofun

/-- A bridge whose state is that of its hold set. -/
theorem Bridge.heldByItsSources_of_state {c : Store} {b u : Bridge} (hstate : u.state = heldState c b)
    (hhold : u.hold = b.hold) (hlock : u.ocLock = b.ocLock) : u.HeldByItsSources c := by
  unfold Bridge.HeldByItsSources
  simp only [hstate, hhold, latchedFor_congr hlock]
  exact ⟨heldState_of_latched, heldState_of_not_latched⟩

/-! ### The state recomputed (R128, R133) -/

theorem Bridge.recompute_of_empty {c : Store} {b : Bridge} (h : b.hold = 0) : b.recompute c = b := if_pos h

theorem Bridge.recompute_of_off {c : Store} {b : Bridge} (h : b.state = .off) : b.recompute c = b := by
  unfold Bridge.recompute
  rw [h]
  exact ite_self b

theorem Bridge.recompute_of_run {c : Store} {b : Bridge} (hhold : b.hold ≠ 0) (h : b.state = .run) :
    b.recompute c = b.disable c := by
  unfold Bridge.recompute
  rw [if_neg hhold, h]

theorem Bridge.recompute_of_held {c : Store} {b : Bridge} (hhold : b.hold ≠ 0)
    (h : b.state = .halted ∨ b.state = .locked) : b.recompute c = { b with state := heldState c b } := by
  unfold Bridge.recompute
  rw [if_neg hhold]
  rcases h with h | h <;> rw [h]

/-- What a recomputed state may change beside the state itself: sense reading and duty, where it disables. -/
theorem Bridge.recompute_frame (c : Store) (b : Bridge) : b.recompute c = { b with
    state := (b.recompute c).state, sense := (b.recompute c).sense, duty := (b.recompute c).duty } := by
  unfold Bridge.recompute
  split
  · rfl
  · split <;> rfl

@[simp] theorem Bridge.recompute_hold (c : Store) (b : Bridge) : (b.recompute c).hold = b.hold := by
  rw [Bridge.recompute_frame]

@[simp] theorem Bridge.recompute_ocLock (c : Store) (b : Bridge) : (b.recompute c).ocLock = b.ocLock := by
  rw [Bridge.recompute_frame]

@[simp] theorem Bridge.recompute_ocHistory (c : Store) (b : Bridge) : (b.recompute c).ocHistory = b.ocHistory := by
  rw [Bridge.recompute_frame]

/-- A bridge that is not OFF takes the state of its hold set. -/
theorem Bridge.recompute_state {c : Store} {b : Bridge} (hhold : b.hold ≠ 0) (h : b.state ≠ .off) :
    (b.recompute c).state = heldState c b := by
  cases hs : b.state with
  | off => exact absurd hs h
  | run => rw [Bridge.recompute_of_run hhold hs]; rfl
  | halted => rw [Bridge.recompute_of_held hhold (.inl hs)]
  | locked => rw [Bridge.recompute_of_held hhold (.inr hs)]

theorem Bridge.recompute_heldByItsSources {c : Store} {b : Bridge} (hhold : b.hold ≠ 0) (h : b.state ≠ .off) :
    (b.recompute c).HeldByItsSources c :=
  Bridge.heldByItsSources_of_state (Bridge.recompute_state hhold h) (b.recompute_hold c) (b.recompute_ocLock c)

/-- A bridge with a source in its hold set is not in RUN once its state is recomputed. -/
theorem Bridge.recompute_state_ne_run {c : Store} {b : Bridge} (hhold : b.hold ≠ 0) : (b.recompute c).state ≠ .run := by
  by_cases h : b.state = .off
  · rw [Bridge.recompute_of_off h, h]
    nofun
  · rw [Bridge.recompute_state hhold h]
    exact heldState_ne_run c b

/-- Only a bridge in RUN loses its sense reading and duty. -/
theorem Bridge.recompute_of_not_run {c : Store} {b : Bridge} (h : b.state ≠ .run) :
    (b.recompute c).sense = b.sense ∧ (b.recompute c).duty = b.duty := by
  by_cases hhold : b.hold = 0
  · rw [Bridge.recompute_of_empty hhold]
    exact ⟨rfl, rfl⟩
  · cases hs : b.state with
    | off => rw [Bridge.recompute_of_off hs]; exact ⟨rfl, rfl⟩
    | run => exact absurd hs h
    | halted => rw [Bridge.recompute_of_held hhold (.inl hs)]; exact ⟨rfl, rfl⟩
    | locked => rw [Bridge.recompute_of_held hhold (.inr hs)]; exact ⟨rfl, rfl⟩

end Sys2Proof.Machine
end

section
/-! SUPPORT. Sources that join the hold set of a bridge (R128, R131, R133), alone and for every bridge, and the notices of the
bridges that they disable (R137); what the other operations of the Output Stage leave of each bridge. -/

namespace Sys2Proof.Machine

open Sys2Proof

/-! ### The OC history (R131) -/

theorem Bridge.assertOc_of_locked {b : Bridge} (h : b.ocLock = true) : b.assertOc = b := if_pos h

theorem Bridge.assertOc_of_room {b : Bridge} (h : b.ocLock = false) (hlen : b.ocHistory.length < 3) :
    b.assertOc = { b with ocHistory := b.ocHistory ++ [0] } := by
  unfold Bridge.assertOc
  rw [h]
  exact if_pos hlen

theorem Bridge.assertOc_of_full {b : Bridge} (h : b.ocLock = false) (hlen : 3 ≤ b.ocHistory.length) :
    b.assertOc = { b with ocHistory := [], ocLock := true } := by
  unfold Bridge.assertOc
  rw [h]
  exact if_neg (Nat.not_lt.mpr hlen)

theorem Bridge.assertOc_frame (b : Bridge) :
    b.assertOc = { b with ocHistory := b.assertOc.ocHistory, ocLock := b.assertOc.ocLock } := by
  unfold Bridge.assertOc
  (repeat' split) <;> rfl

/-- A bridge that sources have joined, its state not yet recomputed: the assertion of OC, where it is among them, stands in
the OC history. -/
def Bridge.joined (b : Bridge) (sources : HoldSet) : Bridge :=
  { if holds sources .oc then b.assertOc else b with hold := b.hold ||| sources }

theorem Bridge.joined_frame (b : Bridge) (sources : HoldSet) : b.joined sources = { b with
    hold := b.hold ||| sources, ocHistory := (b.joined sources).ocHistory, ocLock := (b.joined sources).ocLock } := by
  unfold Bridge.joined
  split
  · rw [Bridge.assertOc_frame]
  · rfl

@[simp] theorem Bridge.joined_state (b : Bridge) (sources : HoldSet) : (b.joined sources).state = b.state := by
  rw [Bridge.joined_frame]

@[simp] theorem Bridge.joined_hold (b : Bridge) (sources : HoldSet) : (b.joined sources).hold = b.hold ||| sources := rfl

theorem Bridge.joined_of_oc {b : Bridge} {sources : HoldSet} (h : holds sources .oc = true) :
    b.joined sources = { b.assertOc with hold := b.hold ||| sources } := by
  unfold Bridge.joined
  rw [if_pos h]

theorem Bridge.joined_of_no_oc {b : Bridge} {sources : HoldSet} (h : holds sources .oc = false) :
    b.joined sources = { b with hold := b.hold ||| sources } := by
  unfold Bridge.joined
  rw [h]
  rfl

/-! ### Sources of one bridge (R128, R133) -/

theorem Bridge.addSources_eq (c : Store) (b : Bridge) (sources : HoldSet) :
    b.addSources c sources = (b.joined sources).recompute c := by
  unfold Bridge.addSources Bridge.joined
  split
  · rw [Bridge.assertOc_frame]
  · rfl

/-- What sources that join leave of a bridge. -/
theorem Bridge.addSources_frame (c : Store) (b : Bridge) (sources : HoldSet) : b.addSources c sources = { b with
    state := (b.addSources c sources).state, sense := (b.addSources c sources).sense
    hold := (b.addSources c sources).hold, ocHistory := (b.addSources c sources).ocHistory
    ocLock := (b.addSources c sources).ocLock, duty := (b.addSources c sources).duty } := by
  rw [Bridge.addSources_eq]
  generalize hj : b.joined sources = j
  have hframe := b.joined_frame sources
  rw [hj] at hframe
  rw [Bridge.recompute_hold, Bridge.recompute_ocHistory, Bridge.recompute_ocLock]
  conv_lhs => rw [Bridge.recompute_frame]
  generalize j.recompute c = r
  rw [hframe]

@[simp] theorem Bridge.addSources_hold (c : Store) (b : Bridge) (sources : HoldSet) :
    (b.addSources c sources).hold = b.hold ||| sources := by
  rw [Bridge.addSources_eq, Bridge.recompute_hold, Bridge.joined_hold]

theorem holdSet_or_ne_zero {a b : HoldSet} (h : b ≠ 0) : a ||| b ≠ 0 := by
  obtain ⟨k, hk⟩ := holdSet_ne_zero_iff.mp h
  exact holdSet_ne_zero_iff.mpr ⟨k, by rw [holds_or, hk, Bool.or_true]⟩

/-- A bridge that sources join is not in RUN (R128). -/
theorem Bridge.addSources_state_ne_run {c : Store} {b : Bridge} {sources : HoldSet} (h : sources ≠ 0) :
    (b.addSources c sources).state ≠ .run := by
  rw [Bridge.addSources_eq]
  exact Bridge.recompute_state_ne_run (holdSet_or_ne_zero h)

/-- Sources that join a hold set do what R128, R131 and R133 say. -/
theorem Bridge.addSources_joins {c : Store} {b : Bridge} {sources : HoldSet} (h : sources ≠ 0) :
    SourcesJoin c (fun k => holds sources k = true) b (b.addSources c sources) := by
  have hstate : (b.joined sources).state = b.state := b.joined_state sources
  have hhold : (b.joined sources).hold ≠ 0 := holdSet_or_ne_zero h
  rw [Bridge.addSources_eq]
  refine ⟨fun k => by simp, fun hnone => ?none, fun _ => ⟨fun hoff => ?off,
    fun hon => (Bridge.recompute_heldByItsSources hhold (hstate.trans_ne hon)).1,
    fun hon => (Bridge.recompute_heldByItsSources hhold (hstate.trans_ne hon)).2, fun hrun => ?run⟩,
    fun hoc hl => ?oc, fun hoc => ?kept⟩
  case none =>
    obtain ⟨k, hk⟩ := holdSet_ne_zero_iff.mp h
    exact absurd hk (hnone k)
  case off =>
    rw [Bridge.recompute_of_off (hstate.trans hoff)]
    exact hstate.trans hoff
  case run =>
    rw [Bridge.recompute_of_run hhold (hstate.trans hrun)]
    exact ⟨rfl, rfl⟩
  case oc =>
    rw [Bridge.recompute_ocHistory, Bridge.recompute_ocLock, Bridge.joined_of_oc hoc]
    refine ⟨fun hlen => ?_, fun hlen => ?_⟩
    · rw [Bridge.assertOc_of_room hl hlen]
      exact ⟨rfl, hl⟩
    · rw [Bridge.assertOc_of_full hl hlen]
      exact ⟨rfl, rfl⟩
  case kept =>
    rw [Bridge.recompute_ocHistory, Bridge.recompute_ocLock]
    cases ho : holds sources .oc with
    | false =>
      rw [Bridge.joined_of_no_oc ho]
      exact ⟨rfl, rfl⟩
    | true =>
      rw [Bridge.joined_of_oc ho, Bridge.assertOc_of_locked (hoc.resolve_left (absurd ho))]
      exact ⟨rfl, rfl⟩

/-! ### Uses of `SourcesJoin` -/

theorem SourcesJoin.refl {c : Store} {added : FaultKind → Prop} (h : ∀ k, ¬ added k) (b : Bridge) :
    SourcesJoin c added b b :=
  ⟨fun k => ⟨.inl, fun hk => hk.resolve_right (h k)⟩, fun _ => rfl, fun ⟨k, hk⟩ => absurd hk (h k),
    fun hoc => absurd hoc (h .oc), fun _ => ⟨rfl, rfl⟩⟩

theorem SourcesJoin.congr {c : Store} {added joined : FaultKind → Prop} {b u : Bridge} (h : SourcesJoin c added b u)
    (hk : ∀ k, added k ↔ joined k) : SourcesJoin c joined b u := by
  rwa [show joined = added from funext (fun k => propext (hk k).symm)]

/-- The same joining seen between bridges with the same protection state, OC history apart where OC does not join. -/
theorem SourcesJoin.of_same {c : Store} {added : FaultKind → Prop} {b u b' u' : Bridge} (h : SourcesJoin c added b u)
    (hb : b'.hold = b.hold ∧ b'.state = b.state ∧ b'.ocLock = b.ocLock)
    (hu : u'.hold = u.hold ∧ u'.state = u.state ∧ u'.ocLock = u.ocLock)
    (hhistory : b'.ocHistory = b.ocHistory ∧ u'.ocHistory = u.ocHistory ∨ ¬ added .oc ∧ u'.ocHistory = b'.ocHistory)
    (hdisabled : b.state = .run → (∃ k, added k) → u.sense = .split → u.duty = none → u'.sense = .split ∧ u'.duty = none) :
    SourcesJoin c added b' u' := by
  obtain ⟨hbhold, hbstate, hblock⟩ := hb
  obtain ⟨huhold, hustate, hulock⟩ := hu
  obtain ⟨hhold, hnone, hsome, hoc, hkept⟩ := h
  unfold SourcesJoin
  simp only [hbhold, hbstate, hblock, huhold, hustate, hulock, latchedFor_congr hulock]
  refine ⟨hhold, hnone, fun hk => ?_, ?_⟩
  · obtain ⟨hoff, hlatched, hunlatched, hrun⟩ := hsome hk
    exact ⟨hoff, hlatched, hunlatched, fun hr => hdisabled hr hk (hrun hr).1 (hrun hr).2⟩
  · rcases hhistory with ⟨hbefore, hafter⟩ | ⟨hno, hsame⟩
    · rw [hbefore, hafter]
      exact ⟨hoc, hkept⟩
    · obtain ⟨_, hlock⟩ := hkept (.inl hno)
      exact ⟨fun ho => absurd ho hno, fun _ => ⟨hsame, hlock⟩⟩

/-! ### Sources of every bridge (R128, R137) -/

/-- What an Output Stage gives each bridge the sources of an event for. -/
theorem Ost.addSources_bridge (o : Ost) (c : Store) (sources : BridgeNo → HoldSet) (i : BridgeNo) :
    (o.addSources c sources).1.bridges.get i =
      if sources i = 0 then o.bridges.get i else (o.bridges.get i).addSources c (sources i) := Tbl.get_ofFn _ i

theorem Ost.addSources_of_none {o : Ost} {c : Store} {sources : BridgeNo → HoldSet} {i : BridgeNo} (h : sources i = 0) :
    (o.addSources c sources).1.bridges.get i = o.bridges.get i := by
  rw [Ost.addSources_bridge, if_pos h]

theorem Ost.addSources_of_some {o : Ost} {c : Store} {sources : BridgeNo → HoldSet} {i : BridgeNo} (h : sources i ≠ 0) :
    (o.addSources c sources).1.bridges.get i = (o.bridges.get i).addSources c (sources i) := by
  rw [Ost.addSources_bridge, if_neg h]

theorem Ost.addSources_joins (o : Ost) (c : Store) (sources : BridgeNo → HoldSet) (i : BridgeNo) :
    SourcesJoin c (fun k => holds (sources i) k = true) (o.bridges.get i) ((o.addSources c sources).1.bridges.get i) := by
  by_cases h : sources i = 0
  · rw [Ost.addSources_of_none h, h]
    exact .refl (fun k => by simp) _
  · rw [Ost.addSources_of_some h]
    exact Bridge.addSources_joins h

/-! ### The bridges after each operation on all of them -/

theorem Ost.period_bridge (o : Ost) (c : Store) (x : PeriodInputs) (i : BridgeNo) : (o.period c x).1.bridges.get i =
    (((o.sampleFilters x).addSources c (o.periodSources c x)).1.bridges.get i).period (c.deadtime.get i)
      (x.atRise.get i) (x.atFall.get i) := Tbl.get_ofFn _ i

theorem Ost.instant_bridge (o : Ost) (c : Store) (i : BridgeNo) :
    (o.instant c).bridges.get i = o.removeAuto c i (o.bridges.get i).takeSample := Tbl.get_ofFn _ i

theorem Ost.boundary_bridge (o : Ost) (c : Store) (config : Bool) (i : BridgeNo) :
    (o.boundary c config).1.bridges.get i = (o.bridges.get i).boundary c o.fTw.asserted := Tbl.get_map _ _ i

theorem Ost.load_bridge (o : Ost) (blocks : Tbl 8 (List Sample)) (i : BridgeNo) :
    (o.load blocks).bridges.get i = (o.bridges.get i).load (blocks.get i) := Tbl.get_ofFn _ i

theorem Ost.started_bridge (o : Ost) (c : Store) (i : BridgeNo) :
    (o.started c).1.bridges.get i = (o.bridges.get i).started c i := Tbl.get_ofFn _ i

theorem Ost.restart_bridge (o : Ost) (i : BridgeNo) : o.restart.bridges.get i = (o.bridges.get i).restart :=
  Tbl.get_map _ _ i

/-! ### Bridges re-enabled (R132) -/

/-- What re-enabling bridges one after another leaves of a bridge: a bridge re-enabled again stays as it is. -/
theorem State.foldl_reenable_bridge (l : List BridgeNo) (s : State) (i : BridgeNo) :
    (l.foldl State.reenable s).ost.bridges.get i =
      if i ∈ l then (s.ost.bridges.get i).reenable else s.ost.bridges.get i := by
  induction l generalizing s with
  | nil => rfl
  | cons j l ih =>
    have hone : (s.reenable j).ost.bridges.get i =
        if j = i then (s.ost.bridges.get j).reenable else s.ost.bridges.get i := Tbl.get_set _ _ _ _
    have htwice (b : Bridge) : b.reenable.reenable = b.reenable := by
      simp [Bridge.reenable, Bridge.silenceBlock]
    rw [List.foldl_cons, ih, hone]
    by_cases hj : j = i
    · subst hj
      simp [htwice]
    · simp [hj, Ne.symm hj]

theorem Ost.mem_dueBridges {o : Ost} {i : BridgeNo} : i ∈ o.dueBridges ↔ (o.bridges.get i).reenableDue = true := by
  unfold Ost.dueBridges
  simp

/-- The bridges once the due ones are re-enabled. -/
theorem State.reenableDue_bridge (s : State) (i : BridgeNo) : s.reenableDue.ost.bridges.get i =
    if (s.ost.bridges.get i).reenableDue then (s.ost.bridges.get i).reenable else s.ost.bridges.get i := by
  unfold State.reenableDue
  rw [State.foldl_reenable_bridge]
  simp only [Ost.mem_dueBridges]

/-! ### What the boundary's rules leave of a bridge (R123, R126) -/

/-- The derate rule leaves all of a bridge but the derate and its counts (R123). -/
theorem Bridge.derateStep_frame (b : Bridge) (tw : Bool) : b.derateStep tw = { b with
    derate := (b.derateStep tw).derate, thermal := (b.derateStep tw).thermal, calm := (b.derateStep tw).calm } := by
  have heat : b.heat tw = { b with derate := (b.heat tw).derate, thermal := (b.heat tw).thermal } := by
    unfold Bridge.heat
    dsimp only
    (repeat' split) <;> rfl
  have calm (x : Bridge) : x.calmDown tw = { x with derate := (x.calmDown tw).derate, calm := (x.calmDown tw).calm } := by
    unfold Bridge.calmDown
    (repeat' split) <;> rfl
  unfold Bridge.derateStep Bridge.cap
  rw [calm, heat]

theorem Bridge.watchDc_frame (b : Bridge) : b.watchDc = { b with dcCount := b.watchDc.dcCount, dcOn := b.watchDc.dcOn } := by
  unfold Bridge.watchDc
  split <;> rfl

/-! ### The notices of disabled bridges (R137) -/

/-- The notices of one bridge after another, as what each of them gives where it gives one. -/
theorem flatMap_ite_singleton {α β : Type} (p : α → Prop) [DecidablePred p] (f : α → β) (l : List α) :
    l.flatMap (fun a => if p a then [f a] else []) = l.filterMap (fun a => if p a then some (f a) else none) := by
  induction l with
  | nil => rfl
  | cons a l ih =>
    rw [List.flatMap_cons, List.filterMap_cons, ih]
    split <;> rfl

theorem disableNotice_eq (i : BridgeNo) (b u : Bridge) : disableNotice i b u =
    if b.state = .run ∧ u.state ≠ .run then [.bridgeFault i false u.hold u.state] else [] := by
  unfold disableNotice Bridge.enabled faultNotice
  simp

theorem disableNotice_self (i : BridgeNo) (b : Bridge) : disableNotice i b b = [] := by
  rw [disableNotice_eq, if_neg (fun h => h.2 h.1)]

/-- The notices of an event that takes the bridges of one station to those of another. -/
theorem flatMap_disableNotice (s t : State) :
    (Tbl.indices 8).flatMap (fun i => disableNotice i (s.ost.bridges.get i) (t.ost.bridges.get i)) =
      disabledNotices s t := by
  simp only [disableNotice_eq]
  exact flatMap_ite_singleton _ _ _

theorem Ost.addSources_notices (o : Ost) (c : Store) (sources : BridgeNo → HoldSet) : (o.addSources c sources).2 =
    (Tbl.indices 8).flatMap (fun i => disableNotice i (o.bridges.get i) ((o.addSources c sources).1.bridges.get i)) := by
  refine List.flatMap_congr (fun i _ => ?_)
  by_cases h : sources i = 0
  · rw [Ost.addSources_of_none h, if_pos h, disableNotice_self]
  · rw [Ost.addSources_of_some h, if_neg h]

end Sys2Proof.Machine
end

section
/-! PROOF. A bridge is enabled only while its hold set is empty, and only an enabled bridge switches (R119, R121, R128, R132),
after every step. -/

namespace Sys2Proof.Machine

open Sys2Proof

/-! ### One bridge -/

/-- A bridge in RUN has an empty hold set, and a bridge that switches is in RUN (R121, R132). -/
def Bridge.Safe (b : Bridge) : Prop := (b.state = .run → b.hold = 0) ∧ (b.duty ≠ none → b.state = .run)

theorem bridgesSafe_iff {s : State} : BridgesSafe s ↔ ∀ i, (s.ost.bridges.get i).Safe := Iff.rfl

/-- A bridge with the same state, hold set and duty. -/
theorem Bridge.Safe.of_same {b u : Bridge} (h : b.Safe) (hstate : u.state = b.state) (hhold : u.hold = b.hold)
    (hduty : u.duty = b.duty) : u.Safe := by
  unfold Bridge.Safe
  rwa [hstate, hhold, hduty]

/-- A bridge that does not switch unless it is in RUN is safe once its state is recomputed: in RUN with a source in its hold
set it is disabled (R128). -/
theorem Bridge.recompute_safe {c : Store} {b : Bridge} (hduty : b.duty ≠ none → b.state = .run) :
    (b.recompute c).Safe := by
  by_cases hhold : b.hold = 0
  · rw [Bridge.recompute_of_empty hhold]
    exact ⟨fun _ => hhold, hduty⟩
  · refine ⟨fun hrun => absurd hrun (Bridge.recompute_state_ne_run hhold), fun hd => absurd ?_ hd⟩
    by_cases hrun : b.state = .run
    · rw [Bridge.recompute_of_run hhold hrun]
      rfl
    · rw [(Bridge.recompute_of_not_run hrun).2]
      exact not_not.mp (mt hduty hrun)

theorem Bridge.Safe.addSources {b : Bridge} (h : b.Safe) (c : Store) (sources : HoldSet) :
    (b.addSources c sources).Safe := by
  rw [Bridge.addSources_eq]
  refine Bridge.recompute_safe ?_
  rw [Bridge.joined_frame]
  exact h.2

theorem Bridge.Safe.ack {b : Bridge} (h : b.Safe) (c : Store) (removed : HoldSet) : (b.ack c removed).Safe :=
  Bridge.recompute_safe h.2

theorem Bridge.Safe.removeAuto {b : Bridge} (h : b.Safe) (o : Ost) (c : Store) (i : BridgeNo) :
    (o.removeAuto c i b).Safe := Bridge.recompute_safe h.2

/-- After a PWM period a bridge switches where it is in RUN, and not elsewhere (R121). -/
theorem Bridge.Safe.period {b : Bridge} (h : b.Safe) (dt : Nat) (atRise atFall : Bool) :
    (b.period dt atRise atFall).Safe := by
  unfold Bridge.period
  split
  · next hon => exact ⟨h.1, fun _ => beq_iff_eq.mp hon⟩
  · exact ⟨h.1, fun hd => absurd rfl hd⟩

/-- A re-enabled bridge had an empty hold set (R132). -/
theorem Bridge.reenable_safe {b : Bridge} (h : b.reenableDue = true) : b.reenable.Safe := by
  unfold Bridge.reenableDue at h
  rw [Bool.and_eq_true, beq_iff_eq (a := b.hold)] at h
  exact ⟨fun _ => h.2, fun _ => rfl⟩

/-- START puts a used bridge in RUN exactly where its hold set is empty (R134). -/
theorem Bridge.Safe.started {b : Bridge} (h : b.Safe) (c : Store) (i : BridgeNo) : (b.started c i).Safe := by
  unfold Bridge.started
  split
  · by_cases hhold : b.hold = 0
    · exact ⟨fun _ => hhold, fun _ => if_pos hhold⟩
    · refine ⟨fun hrun => absurd ((if_neg hhold).symm.trans hrun) (heldState_ne_run c b), fun hd => ?_⟩
      exact absurd (h.1 (h.2 hd)) hhold
  · exact h

theorem Bridge.Safe.derateStep {b : Bridge} (h : b.Safe) (tw : Bool) : (b.derateStep tw).Safe := by
  rw [Bridge.derateStep_frame]
  exact h.of_same rfl rfl rfl

theorem Bridge.Safe.watchDc {b : Bridge} (h : b.Safe) : b.watchDc.Safe := by
  rw [Bridge.watchDc_frame]
  exact h.of_same rfl rfl rfl

theorem Bridge.Safe.addDc {b : Bridge} (h : b.Safe) (c : Store) (before : Bool) : (b.addDc c before).Safe := by
  unfold Bridge.addDc
  split
  · exact h.addSources c _
  · exact h

theorem Bridge.Safe.boundary {b : Bridge} (h : b.Safe) (c : Store) (tw : Bool) : (b.boundary c tw).Safe :=
  (((h.derateStep tw).watchDc).addDc c b.dcOn).of_same rfl rfl rfl

/-! ### The Output Stage -/

/-- Every bridge of an Output Stage is safe. -/
def Ost.Safe (o : Ost) : Prop := ∀ i, (o.bridges.get i).Safe

theorem Ost.Safe.setBridge {o : Ost} (h : o.Safe) {i : BridgeNo} {b : Bridge} (hb : b.Safe) : (o.setBridge i b).Safe := by
  intro j
  show ((o.bridges.set i b).get j).Safe
  rw [Tbl.get_set]
  split
  · exact hb
  · exact h j

theorem Ost.Safe.of_bridges {o p : Ost} (h : o.Safe) (hp : p.bridges = o.bridges) : p.Safe := fun i => by
  rw [hp]
  exact h i

theorem Ost.setFilter_bridges (o : Ost) (src : FilteredSource) (f : Filter) :
    (o.setFilter src f).bridges = o.bridges := by
  cases src <;> rfl

theorem Ost.Safe.addSources {o : Ost} (h : o.Safe) (c : Store) (sources : BridgeNo → HoldSet) :
    (o.addSources c sources).1.Safe := by
  intro i
  rw [Ost.addSources_bridge]
  split
  · exact h i
  · exact (h i).addSources c _

theorem Ost.Safe.assertSource {o : Ost} (h : o.Safe) (c : Store) (src : FilteredSource) : (o.assertSource c src).1.Safe := by
  unfold Ost.assertSource
  split
  · exact h
  · exact (h.of_bridges (o.setFilter_bridges src _)).addSources c _

theorem Ost.Safe.deassertSource {o : Ost} (h : o.Safe) (src : FilteredSource) : (o.deassertSource src).Safe := by
  unfold Ost.deassertSource
  split
  · exact h.of_bridges (o.setFilter_bridges src _)
  · exact h

theorem Ost.Safe.period {o : Ost} (h : o.Safe) (c : Store) (x : PeriodInputs) : (o.period c x).1.Safe := by
  have hjoined : ((o.sampleFilters x).addSources c (o.periodSources c x)).1.Safe := Ost.Safe.addSources h c _
  intro i
  rw [Ost.period_bridge]
  exact (hjoined i).period _ _ _

theorem Ost.Safe.instant {o : Ost} (h : o.Safe) (c : Store) : (o.instant c).Safe := by
  intro i
  rw [Ost.instant_bridge]
  exact ((h i).of_same (u := (o.bridges.get i).takeSample) rfl rfl rfl).removeAuto o c i

theorem Ost.Safe.boundary {o : Ost} (h : o.Safe) (c : Store) (config : Bool) : (o.boundary c config).1.Safe := by
  intro i
  rw [Ost.boundary_bridge]
  exact (h i).boundary c _

theorem Ost.Safe.load {o : Ost} (h : o.Safe) (blocks : Tbl 8 (List Sample)) : (o.load blocks).Safe := by
  intro i
  rw [Ost.load_bridge]
  exact (h i).of_same rfl rfl rfl

theorem Ost.Safe.started {o : Ost} (h : o.Safe) (c : Store) : (o.started c).1.Safe := by
  intro i
  rw [Ost.started_bridge]
  exact (h i).started c i

theorem Ost.Safe.restart {o : Ost} (h : o.Safe) : o.restart.Safe := by
  intro i
  rw [Ost.restart_bridge]
  exact (h i).of_same rfl rfl rfl

/-! ### The commands -/

/-- The commands that act on the bridges. -/
def actsOnBridges : Instr → Bool
  | .pinReset | .start | .restart | .blockBoundary | .pwmPeriod .. | .sampleInstant .. => true
  | c => actsOnBridge c

theorem State.deliver_ost (s : State) (p : StationNo) (b : FrameBody) : (s.deliver p b).ost = s.ost := by
  unfold State.deliver
  (repeat' split) <;> rfl

/-- A command that does not act on the bridges leaves the Output Stage alone. -/
theorem exec_ost_of_no_action {c : Instr} {s t : State} (hc : actsOnBridges c = false) (h : exec c s = .next t) :
    t.ost = s.ost := by
  cases hb : actsOnBounds c with
  | false =>
    obtain ⟨_, _, host, _⟩ := exec_same_of_no_action hb h
    exact host
  | true =>
    cases c <;> first
      | exact Bool.noConfusion (show true = false from hc)
      | exact Bool.noConfusion (show false = true from hb)
      | skip
    case frameReceived x =>
      cases ha : acceptFrame s.lif.latch x with
      | none => rw [exec_frameReceived_discarded ha] at h; cases h; rfl
      | some b => rw [exec_frameReceived_accepted ha] at h; cases h; exact State.deliver_ost _ _ b
    case tune | seek | scan | announceEnable | frontEndReport | scanPassEnd | crossfade | diversitySwap | probeSwap |
        afTimerExpiry | receptionHoldExpiry =>
      have worked (o : RduOut) : (s.setRdu o).ost = s.ost := (s.setRdu_keepsSound o).ost
      simp only [exec, execTune, execSeek, execScan, execAnnounceEnable, execFrontEndReport, execScanPassEnd,
        execCrossfade, execDiversitySwap, execProbeSwap, execAfTimerExpiry, execReceptionHoldExpiry] at h
      (repeat' split at h) <;> cases h <;> simp [worked]
    all_goals
      simp only [exec, execSetConfig, execSetLevel, execApplyLevels, execLevelsApplied, execReleaseIntervalStep,
        execPeerExpiry, execStreamStarved, execCallLossExpiry, execSlip, execRepeatFrame] at h
      (repeat' split at h) <;> cases h <;> rfl

/-- The commands that act on one bridge or filter (R123, R125, R126, R128, R131, R132, R135). -/
theorem exec_bridge_safe {c : Instr} {s t : State} (hc : actsOnBridge c = true) (hs : s.ost.Safe)
    (h : exec c s = .next t) : t.ost.Safe := by
  cases c <;> first
    | exact Bool.noConfusion (show false = true from hc)
    | skip
  case faultAck =>
    rw [exec_faultAck, execFaultAck] at h
    split at h <;> cases h
    · exact hs
    · exact hs.setBridge ((hs _).ack _ _)
  case thermalDerateStep i =>
    simp only [exec_thermalDerateStep, execThermalDerateStep] at h
    split at h <;> cases h
    · exact hs.setBridge ((hs i).of_same rfl rfl rfl)
    · exact hs
  case calmDerateStep i =>
    simp only [exec_calmDerateStep, execCalmDerateStep] at h
    split at h <;> cases h
    · exact hs.setBridge ((hs i).of_same rfl rfl rfl)
    · exact hs
  case dcAsserted i =>
    simp only [exec_dcAsserted, execDcAsserted] at h
    split at h <;> cases h
    · exact hs.setBridge ((hs i).watchDc.addDc _ _)
    · exact hs
  case ocHistoryExpiry i =>
    cases h
    exact hs.setBridge ((hs i).of_same rfl rfl rfl)
  case faultSourceAsserted =>
    cases h
    exact hs.assertSource _ _
  case faultSourceDeasserted =>
    cases h
    exact hs.deassertSource _
  case bridgeReenable =>
    rw [exec_bridgeReenable, execBridgeReenable] at h
    split at h <;> cases h
    · next hdue => exact hs.setBridge (Bridge.reenable_safe hdue)
    · exact hs

/-- Due bridges re-enabled are safe, and the others stay as they are (R132). -/
theorem State.reenableDue_safe {s : State} (h : s.ost.Safe) : s.reenableDue.ost.Safe := by
  intro i
  rw [State.reenableDue_bridge]
  split
  · next hdue => exact Bridge.reenable_safe hdue
  · exact h i

/-- A block boundary, in CONFIG and outside it: derates, DC and OC history, and the mixed blocks. -/
theorem execBlockBoundary_safe {s t : State} (hs : s.ost.Safe) (h : exec .blockBoundary s = .next t) : t.ost.Safe := by
  cases hc : s.inConfig with
  | true =>
    rw [exec_blockBoundary_of_inConfig hc] at h
    rw [← Host.Outcome.next.inj h]
    exact (hs.boundary s.cpt.store s.inConfig).load _
  | false =>
    rw [exec_blockBoundary_of_not_inConfig hc] at h
    obtain ⟨_, host, _⟩ := s.boundaryRun_holds
    rw [← Host.Outcome.next.inj h, host]
    exact (hs.boundary s.cpt.store s.inConfig).load _

/-- Every command keeps the bridges safe. -/
theorem exec_bridgesSafe {c : Instr} {s t : State} (hs : BridgesSafe s) (h : exec c s = .next t) : BridgesSafe t := by
  cases hc : actsOnBridges c with
  | false =>
    rw [bridgesSafe_iff, exec_ost_of_no_action hc h]
    exact hs
  | true =>
    cases c <;> first
      | exact Bool.noConfusion (show false = true from hc)
      | exact exec_bridge_safe rfl hs h
      | skip
    case pinReset =>
      cases h
      obtain ⟨_, hreset, _⟩ := resetMeetsTheInvariants
      exact hreset
    case start =>
      rw [exec_start, execStart] at h
      (repeat' split at h) <;> cases h
      · exact hs
      · exact Ost.Safe.started hs _
      · exact hs
    case restart =>
      rw [exec_restart, execRestart] at h
      split at h <;> cases h
      · exact hs
      · exact Ost.Safe.restart hs
    case blockBoundary => exact execBlockBoundary_safe hs h
    case sampleInstant =>
      cases h
      exact (State.reenableDue_safe hs).instant _
    case pwmPeriod =>
      cases h
      exact Ost.Safe.period hs _ _

/-- Settles O5: every operation on a bridge keeps it safe, and every command is made of such operations. -/
theorem bridgesKeptSafe : Obligations.BridgesKeptSafe := by
  unfold Obligations.BridgesKeptSafe
  exact step_keeps (fun _ _ hs => hs) (fun _ _ _ hs h => exec_bridgesSafe hs h)

end Sys2Proof.Machine
end

section
/-! PROOF. FAULT_ACK, the fault sources that join and leave, and the re-enable of a bridge (R108, R125, R127, R128, R130 to
R133, R135, R137). -/

namespace Sys2Proof.Machine

open Sys2Proof

/-! ### FAULT_ACK (R135) -/

theorem holds_acked (o : Ost) (c : Store) (i : BridgeNo) (k : FaultKind) : holds (o.acked c i) k =
    (holds (o.bridges.get i).hold k && holds (latchedSet c (o.bridges.get i)) k && !holds (o.assertedSet i) k) := by
  unfold Ost.acked
  simp

/-- FAULT_ACK takes the LATCHED sources that are deasserted out of the hold set. -/
theorem Ost.holds_ack (o : Ost) (c : Store) (i : BridgeNo) (k : FaultKind) :
    holds ((o.bridges.get i).ack c (o.acked c i)).hold k = true ↔ holds (o.bridges.get i).hold k = true ∧
      ¬ (LatchedFor c (o.bridges.get i) k ∧ ¬ holds (o.assertedSet i) k = true) := by
  unfold Bridge.ack
  rw [Bridge.recompute_hold, holds_and, holds_not, holds_acked, ← holds_latchedSet]
  cases holds (o.bridges.get i).hold k <;> simp [imp_iff_not_or]

/-- FAULT_ACK clears the OC lock where it takes OC out of the hold set. -/
theorem Ost.ack_ocLock (o : Ost) (c : Store) (i : BridgeNo) :
    ((o.bridges.get i).ack c (o.acked c i)).ocLock = true ↔ (o.bridges.get i).ocLock = true ∧
      (holds (o.bridges.get i).hold .oc = true → holds (o.assertedSet i) .oc = true) := by
  have hlatched : holds (latchedSet c (o.bridges.get i)) .oc = (o.bridges.get i).ocLock :=
    Bool.eq_iff_iff.mpr (holds_latchedSet c _ .oc)
  unfold Bridge.ack
  rw [Bridge.recompute_ocLock, holds_acked, hlatched]
  cases (o.bridges.get i).ocLock <;> simp [imp_iff_not_or]

theorem Bridge.ack_ocHistory (c : Store) (b : Bridge) (removed : HoldSet) : (b.ack c removed).ocHistory = b.ocHistory :=
  Bridge.recompute_ocHistory c _

/-- A bridge whose hold set FAULT_ACK empties, and a bridge that is OFF, keeps its state. -/
theorem Bridge.ack_state {c : Store} {b : Bridge} {removed : HoldSet} (h : (b.ack c removed).hold = 0 ∨ b.state = .off) :
    (b.ack c removed).state = b.state := by
  unfold Bridge.ack at h ⊢
  rcases h with h | h
  · rw [Bridge.recompute_hold] at h
    rw [Bridge.recompute_of_empty h]
  · rw [Bridge.recompute_of_off]
    exact h

theorem Bridge.ack_heldByItsSources {c : Store} {b : Bridge} {removed : HoldSet} (hhold : (b.ack c removed).hold ≠ 0)
    (h : b.state = .halted ∨ b.state = .locked) : (b.ack c removed).HeldByItsSources c := by
  unfold Bridge.ack at hhold ⊢
  rw [Bridge.recompute_hold] at hhold
  exact Bridge.recompute_heldByItsSources hhold (by rcases h with h | h <;> rw [h] <;> nofun)

/-- A FAULT_ACK finds a LATCHED source that stays exactly where one is held and asserted. -/
theorem Ost.stillActive_iff (o : Ost) (c : Store) (i : BridgeNo) : o.stillActive c i = true ↔
    ∃ k, holds (o.bridges.get i).hold k = true ∧ LatchedFor c (o.bridges.get i) k ∧
      holds (o.assertedSet i) k = true := by
  unfold Ost.stillActive
  rw [bne_iff_ne, holdSet_ne_zero_iff]
  simp only [holds_and, Bool.and_eq_true, holds_latchedSet, and_assoc]

/-- The station after FAULT_ACK on a bridge, with the answer. -/
theorem exec_faultAck_bridge (s : State) (i : BridgeNo) : exec (.faultAck (BitVec.ofNat 8 i.val)) s =
    .next (State.answer { s with ost := s.ost.faultAck s.cpt.store i }
      (if s.ost.stillActive s.cpt.store i then .stillActive else .accepted)
      (hold1 ((s.ost.faultAck s.cpt.store i).bridges.get i).hold ++
        num1 ((s.ost.faultAck s.cpt.store i).bridges.get i).state.code)) := by
  rw [exec_faultAck, execFaultAck, (finOfByte_eq_some (by decide)).mpr rfl]

theorem Ost.faultAck_bridge (o : Ost) (c : Store) (i : BridgeNo) :
    (o.faultAck c i).bridges.get i = (o.bridges.get i).ack c (o.acked c i) := Tbl.get_set_self _ _ _

theorem Ost.faultAck_other (o : Ost) (c : Store) {i j : BridgeNo} (h : j ≠ i) :
    (o.faultAck c i).bridges.get j = o.bridges.get j := Tbl.get_set_of_ne _ _ h.symm

/-- No bridge has a number above 7 (R135). -/
theorem exec_faultAck_unknown (s : State) {b : Byte} (h : 7 < b.toNat) :
    exec (.faultAck b) s = .next (s.answer .badArgument []) := by
  rw [exec_faultAck, execFaultAck, finOfByte, dif_neg (by omega)]

/-! ### Assertion and deassertion of one filtered source (R125, R128) -/

/-- What a source adds to a hold set, by the fault maps (R127, R128). -/
theorem holds_sourceSet (c : Store) (src : FilteredSource) (i : BridgeNo) (k : FaultKind) :
    holds (sourceSet c src i) k = true ↔ Adds c i src k := by
  unfold sourceSet Adds
  cases src with
  | oc j => simp [@eq_comm _ FaultKind.oc]
  | ts => simp [and_comm, @eq_comm _ FaultKind.ts]
  | uv => simp [and_comm, @eq_comm _ FaultKind.uv]
  | flt0 => simp [and_comm, @eq_comm _ FaultKind.flt0]
  | flt1 => simp [and_comm, @eq_comm _ FaultKind.flt1]
  | tw => simp

theorem Ost.filter_setFilter (o : Ost) (src : FilteredSource) (f : Filter) : (o.setFilter src f).filter src = f := by
  cases src with
  | oc j => exact Tbl.get_set_self _ _ _
  | ts | uv | flt0 | flt1 | tw => rfl

theorem Ost.addSources_filter (o : Ost) (c : Store) (sources : BridgeNo → HoldSet) (src : FilteredSource) :
    (o.addSources c sources).1.filter src = o.filter src := by
  cases src <;> rfl

theorem Ost.assertSource_of_deasserted {o : Ost} {c : Store} {src : FilteredSource} (h : (o.filter src).asserted = false) :
    o.assertSource c src = (o.setFilter src (Filter.declare true)).addSources c (sourceSet c src) := by
  unfold Ost.assertSource
  rw [h]
  rfl

theorem Ost.setFilter_bridge (o : Ost) (src : FilteredSource) (f : Filter) (i : BridgeNo) :
    (o.setFilter src f).bridges.get i = o.bridges.get i := by
  rw [Ost.setFilter_bridges]

/-- A source declared asserted joins the hold sets of the bridges it adds to (R128). -/
theorem Ost.assertSource_joins {o : Ost} {c : Store} {src : FilteredSource} (h : (o.filter src).asserted = false)
    (i : BridgeNo) :
    SourcesJoin c (Adds c i src) (o.bridges.get i) ((o.assertSource c src).1.bridges.get i) := by
  rw [Ost.assertSource_of_deasserted h, ← o.setFilter_bridge src (Filter.declare true) i]
  exact (Ost.addSources_joins _ c _ i).congr (fun k => holds_sourceSet c src i k)

theorem Ost.assertSource_unmapped {o : Ost} {c : Store} {src : FilteredSource} (h : (o.filter src).asserted = false)
    {i : BridgeNo} (hi : ∀ k, ¬ Adds c i src k) : (o.assertSource c src).1.bridges.get i = o.bridges.get i := by
  have hnone : sourceSet c src i = 0 :=
    holdSet_eq_zero_iff.mpr (fun k => Bool.eq_false_iff.mpr (fun hk => hi k ((holds_sourceSet c src i k).mp hk)))
  rw [Ost.assertSource_of_deasserted h, Ost.addSources_of_none hnone, Ost.setFilter_bridge]

theorem Ost.assertSource_filter {o : Ost} {c : Store} {src : FilteredSource} (h : (o.filter src).asserted = false) :
    ((o.assertSource c src).1.filter src).asserted = true := by
  rw [Ost.assertSource_of_deasserted h, Ost.addSources_filter, Ost.filter_setFilter]
  rfl

/-- The notices of an assertion are those of the bridges it disables (R137). -/
theorem Ost.assertSource_notices {o : Ost} {c : Store} {src : FilteredSource} (h : (o.filter src).asserted = false) :
    (o.assertSource c src).2 = (Tbl.indices 8).flatMap (fun i =>
      disableNotice i (o.bridges.get i) ((o.assertSource c src).1.bridges.get i)) := by
  rw [Ost.assertSource_of_deasserted h, Ost.addSources_notices]
  simp only [Ost.setFilter_bridge]

theorem exec_faultSourceAsserted_cpt {s : State} {src : FilteredSource} (h : (s.ost.filter src).asserted = false) :
    s.cpt.raiseAll (s.ost.assertSource s.cpt.store src).2 =
      s.cpt.raiseAll (disabledNotices s { s with ost := (s.ost.assertSource s.cpt.store src).1 }) := by
  rw [Ost.assertSource_notices h, ← flatMap_disableNotice]

/-! ### Re-enable (R108, R132) -/

theorem Bridge.reenableDue_iff {b : Bridge} :
    b.reenableDue = true ↔ (b.state = .halted ∨ b.state = .locked) ∧ b.hold = 0 := by
  unfold Bridge.reenableDue
  simp

/-- A re-enable silences the active feeds of the bridge's output, and no other feed (R108). -/
theorem Mxe.reenable_feed (m : Mxe) (i : BridgeNo) (o : OutputNo) (sl : SlotNo) :
    ((m.reenable i).feeds.get o).get sl =
      if i.val = o.val ∧ ((m.feeds.get o).get sl).active = true then ((m.feeds.get o).get sl).silence
      else (m.feeds.get o).get sl := by
  unfold Mxe.reenable
  dsimp only
  rw [Tbl.get_modify]
  by_cases h : i.val = o.val
  · rw [if_pos (Fin.ext h), Tbl.get_map]
    simp only [h, true_and]
  · rw [if_neg (fun e => h (congrArg Fin.val e)), if_neg (fun e => h e.1)]

theorem Mxe.reenable_other (m : Mxe) {i : BridgeNo} {o : OutputNo} (h : o.val ≠ i.val) :
    (m.reenable i).feeds.get o = m.feeds.get o :=
  Tbl.ext_get (fun sl => by rw [Mxe.reenable_feed, if_neg (fun e => h e.1.symm)])

/-- A due bridge's notice is ENABLED with an empty hold set (R137). -/
theorem Bridge.reenable_notice {b : Bridge} (h : b.hold = 0) (i : BridgeNo) :
    faultNotice i true b.reenable = .bridgeFault i true 0 .run := congrArg (Notice.bridgeFault i true · .run) h

/-- OC history entries go at age 1000 (R131). -/
theorem exec_ocHistoryExpiry_bridge (s : State) (i : BridgeNo) : exec (.ocHistoryExpiry i) s =
    .next { s with ost := { s.ost with bridges := s.ost.bridges.set i { s.ost.bridges.get i with
      ocHistory := (s.ost.bridges.get i).ocHistory.filter (fun a => decide (a < 999)) } } } := by
  have hage : (fun a : Nat => decide (a + 1 < Config.ocAgeEnd)) = fun a => decide (a < 999) :=
    funext (fun a => decide_eq_decide.mpr Nat.succ_lt_succ_iff)
  rw [exec_ocHistoryExpiry, execOcHistoryExpiry, hage]
  rfl

/-- Settles O57: each row by the operation it makes, and the asserted set source by source. -/
theorem faultSourcesHoldBridges : Obligations.FaultSourcesHoldBridges := by
  unfold Obligations.FaultSourcesHoldBridges
  refine ⟨fun s b => exec_faultAck_unknown s, fun s i => ⟨?acked, fun hstate hhold => ?reenabled,
    exec_ocHistoryExpiry_bridge s i⟩, fun s src => ⟨fun h => ?asserted, fun h => ?deasserted⟩, fun s i =>
    ⟨holds_assertedSet _ i .ts, holds_assertedSet _ i .uv, holds_assertedSet _ i .flt0, holds_assertedSet _ i .flt1,
      holds_assertedSet _ i .dc, holds_assertedSet _ i .oc, holds_assertedSet _ i .tw⟩⟩
  case acked =>
    refine ⟨_, exec_faultAck_bridge s i, ?_⟩
    dsimp only [State.answer_ost, State.answer_cpt, Cpt.answer_result]
    rw [Ost.faultAck_bridge]
    refine ⟨rfl, fun j hj => Ost.faultAck_other _ _ hj, s.ost.holds_ack s.cpt.store i, rfl, fun hstays => ?_,
      fun hgone => ?_, Bridge.ack_ocHistory _ _ _, s.ost.ack_ocLock s.cpt.store i, Bridge.ack_state,
      fun hhold hstate => Bridge.ack_heldByItsSources hhold hstate⟩
    · exact if_pos ((s.ost.stillActive_iff s.cpt.store i).mpr hstays)
    · refine if_neg (fun hstays => ?_)
      obtain ⟨k, hk, hlatched, hasserted⟩ := (s.ost.stillActive_iff s.cpt.store i).mp hstays
      exact hgone k hk hlatched hasserted
  case reenabled =>
    refine ⟨s.reenable i, ?_, rfl, Tbl.get_set_self _ _ _, fun j hj => Tbl.get_set_of_ne _ _ hj.symm, fun sl hactive => ?_,
      fun o ho => Mxe.reenable_other s.mxe ho, ?_⟩
    · rw [exec_bridgeReenable, execBridgeReenable, if_pos (Bridge.reenableDue_iff.mpr ⟨hstate, hhold⟩)]
    · rw [State.reenable_mxe, Mxe.reenable_feed, if_pos ⟨rfl, hactive⟩]
      rfl
    · rw [State.reenable_cpt, Bridge.reenable_notice hhold]
  case asserted =>
    refine ⟨_, exec_faultSourceAsserted src s, rfl, Ost.assertSource_filter h,
      fun i => ⟨Ost.assertSource_joins h i, Ost.assertSource_unmapped h⟩, exec_faultSourceAsserted_cpt h⟩
  case deasserted =>
    rw [exec_faultSourceDeasserted, execFaultSourceDeasserted, Ost.deassertSource, if_pos h]
    rfl

end Sys2Proof.Machine
end

section
/-! PROOF. Derate, DC and OC history, alone and at a block boundary (R122 to R124, R126, R128, R131, R133, R134, R137). -/

namespace Sys2Proof.Machine

open Sys2Proof

/-! ### The derate and its counts (R122, R123) -/

/-- Whether the block that ends is a clip block, as R122 counts it. -/
theorem Bridge.clipBlock_eq (b : Bridge) : b.clipBlock = decide (4 ≤ b.clip) := rfl

/-- Steps 1 and 2 of R123: a clip block and the eighth warm boundary each raise the derate by 1. -/
theorem Bridge.heat_eq (b : Bridge) (tw : Bool) : b.heat tw = { b with
    derate := b.derate + b.clipBlock.toNat + (tw && decide (7 ≤ b.thermal)).toNat
    thermal := if tw && decide (b.thermal < 7) then b.thermal + 1 else 0 } := by
  have hend : (b.thermal + 1 < Config.thermalEnd) = (b.thermal < 7) := propext Nat.succ_lt_succ_iff
  unfold Bridge.heat
  cases b.clipBlock <;> cases tw <;> by_cases h : b.thermal < 7 <;> simp [hend, h, Nat.not_le.mpr, Nat.not_lt.mp]

/-- Step 3 of R123: the sixty-fourth calm boundary lowers the derate by 1. -/
theorem Bridge.calmDown_eq (b : Bridge) (tw : Bool) : b.calmDown tw = { b with
    derate := if b.clipBlock || tw then b.derate else if 63 ≤ b.calm then b.derate - 1 else b.derate
    calm := if !b.clipBlock && !tw && decide (b.calm < 63) then b.calm + 1 else 0 } := by
  have hend : (b.calm + 1 < Config.calmEnd) = (b.calm < 63) := propext Nat.succ_lt_succ_iff
  unfold Bridge.calmDown
  cases b.clipBlock <;> cases tw <;> by_cases h : b.calm < 63 <;> simp [hend, h, Nat.not_le.mpr, Nat.not_lt.mp]

/-- The derate and its counts after a boundary (R123). -/
theorem Bridge.derateStep_eq (b : Bridge) (tw : Bool) : b.derateStep tw = { b with
    derate := min 24 (if b.clipBlock || tw then
        b.derate + b.clipBlock.toNat + (tw && decide (7 ≤ b.thermal)).toNat
      else if 63 ≤ b.calm then b.derate - 1 else b.derate)
    thermal := if tw && decide (b.thermal < 7) then b.thermal + 1 else 0
    calm := if !b.clipBlock && !tw && decide (b.calm < 63) then b.calm + 1 else 0 } := by
  unfold Bridge.derateStep Bridge.cap
  rw [Bridge.calmDown_eq, Bridge.heat_eq]
  simp only [Bridge.clipBlock_eq]
  by_cases hclip : 4 ≤ b.clip <;> cases tw <;> simp [hclip, Config.derateCap]

theorem Bridge.capped_eq (b : Bridge) : b.capped = decide (b.derate = 24) :=
  beq_eq_decide b.derate 24

/-- The DERATE notice of a bridge, raised where it becomes capped or uncapped (R124, R134). -/
theorem derateNotice_eq (c : Store) (config : Bool) (i : BridgeNo) (b u : Bridge) : derateNotice c config i b u =
    if (b.derate = 24 ↔ u.derate = 24) ∨ (config = false ∧ c.bridgeUsed i = false) then []
    else [.derate i (decide (u.derate = 24)) u.derate] := by
  have hraised : (b.capped != u.capped && (config || c.bridgeUsed i)) = true ↔
      ¬ ((b.derate = 24 ↔ u.derate = 24) ∨ (config = false ∧ c.bridgeUsed i = false)) := by
    rw [Bridge.capped_eq, Bridge.capped_eq, Bool.and_eq_true, bne_iff_ne, Ne, decide_eq_decide, Bool.or_eq_true, not_or,
      not_and_or, Bool.not_eq_false, Bool.not_eq_false]
  unfold derateNotice
  rw [if_congr hraised rfl rfl, ite_not, Bridge.capped_eq]

/-- The DERATE notice of a derate that passes the cap's edge from one value to another (R124, R134). -/
theorem raiseAll_derateNotice {c : Store} {config : Bool} {i : BridgeNo} {b u : Bridge} {d v : Nat}
    (hedge : (b.derate = 24 ↔ u.derate = 24) ↔ b.derate ≠ d) (hvalue : b.derate = d → u.derate = v) (p : Cpt) :
    p.raiseAll (derateNotice c config i b u) =
      if b.derate = d ∧ (config = true ∨ c.bridgeUsed i = true) then p.raise (.derate i (decide (v = 24)) v) else p := by
  have hsilent : (b.derate = 24 ↔ u.derate = 24) ∨ (config = false ∧ c.bridgeUsed i = false) ↔
      ¬ (b.derate = d ∧ (config = true ∨ c.bridgeUsed i = true)) := by
    rw [hedge, not_and_or, not_or, Bool.not_eq_true, Bool.not_eq_true]
  rw [derateNotice_eq, if_congr hsilent rfl rfl, ite_not]
  split
  · next h =>
    rw [hvalue h.1]
    rfl
  · rfl

/-- The eighth warm boundary (R123, R124). -/
theorem exec_thermalDerateStep_eighth {s : State} {i : BridgeNo} (htw : s.ost.fTw.asserted = true)
    (hwarm : (s.ost.bridges.get i).thermal = 7) (hcap : (s.ost.bridges.get i).derate ≤ 24) :
    exec (.thermalDerateStep i) s = .next { s with
      ost := { s.ost with bridges := s.ost.bridges.set i { s.ost.bridges.get i with
        derate := min 24 ((s.ost.bridges.get i).derate + 1), thermal := 0 } }
      cpt := if (s.ost.bridges.get i).derate = 23 ∧ (s.inConfig = true ∨ s.cpt.store.bridgeUsed i = true) then
          s.cpt.raise (.derate i true 24) else s.cpt } := by
  rw [exec_thermalDerateStep, execThermalDerateStep, if_pos ⟨htw, by rw [hwarm]; rfl⟩, State.derateBridge,
    raiseAll_derateNotice (d := 23) (v := 24)]
  · rfl
  · dsimp only [Bridge.cap, Config.derateCap]
    omega
  · dsimp only [Bridge.cap, Config.derateCap]
    omega

/-- The sixty-fourth calm boundary (R123, R124). -/
theorem exec_calmDerateStep_last {s : State} {i : BridgeNo} (htw : s.ost.fTw.asserted = false)
    (hclip : (s.ost.bridges.get i).clip < 4) (hcalm : (s.ost.bridges.get i).calm = 63)
    (hcap : (s.ost.bridges.get i).derate ≤ 24) :
    exec (.calmDerateStep i) s = .next { s with
      ost := { s.ost with bridges := s.ost.bridges.set i { s.ost.bridges.get i with
        derate := (s.ost.bridges.get i).derate - 1, calm := 0 } }
      cpt := if (s.ost.bridges.get i).derate = 24 ∧ (s.inConfig = true ∨ s.cpt.store.bridgeUsed i = true) then
          s.cpt.raise (.derate i false 23) else s.cpt } := by
  have hno : (s.ost.bridges.get i).clipBlock = false := decide_eq_false (Nat.not_le.mpr hclip)
  rw [exec_calmDerateStep, execCalmDerateStep, if_pos ⟨htw, hno, by rw [hcalm]; rfl⟩, State.derateBridge,
    raiseAll_derateNotice (d := 24) (v := 23)]
  · rfl
  · dsimp only
    omega
  · dsimp only
    omega

/-! ### The offset count and DC (R126) -/

/-- The average of a block whose instants were all taken (R126, log 9). -/
theorem Bridge.averageDuty_of_taken {b : Bridge} (h : b.instants = 48) : b.averageDuty = b.dutySum / 48 := by
  unfold Bridge.averageDuty padTo
  rw [h]
  simp [Config.blockLen]

theorem offsetDuty_eq (d : Nat) : offsetDuty d = decide (176 < d ∨ d < 80) := by
  simp [offsetDuty]

/-- The offset count and DC after a boundary (R126). -/
theorem Bridge.watchDc_eq (b : Bridge) : b.watchDc = { b with
    dcCount := if offsetDuty b.averageDuty then min 50 (b.dcCount + 1) else 0
    dcOn := offsetDuty b.averageDuty && (b.dcOn || decide (49 ≤ b.dcCount)) } := by
  unfold Bridge.watchDc
  cases offsetDuty b.averageDuty with
  | false => rfl
  | true =>
    have hend : (min Config.dcEnd (b.dcCount + 1) == Config.dcEnd) = decide (49 ≤ b.dcCount) := by
      rw [Bool.eq_iff_iff, beq_iff_eq, decide_eq_true_iff, Config.dcEnd]
      omega
    rw [if_pos rfl, if_pos rfl, Bool.true_and, ← hend]
    rfl

theorem Bridge.addDc_of_asserted {c : Store} {before : Bool} {b : Bridge} (hb : before = false) (h : b.dcOn = true) :
    b.addDc c before = b.addSources c FaultKind.dc.bit := by
  unfold Bridge.addDc
  rw [hb, h]
  rfl

theorem Bridge.addDc_of_not {c : Store} {before : Bool} {b : Bridge} (h : ¬ (before = false ∧ b.dcOn = true)) :
    b.addDc c before = b := by
  unfold Bridge.addDc
  rw [if_neg]
  simpa [and_comm] using h

/-- DC joins the hold set at the boundary that asserts it, and at no other (R126, R128). -/
theorem Bridge.addDc_joins (c : Store) (before : Bool) (b : Bridge) :
    SourcesJoin c (fun k => k = .dc ∧ before = false ∧ b.dcOn = true) b (b.addDc c before) := by
  by_cases h : before = false ∧ b.dcOn = true
  · rw [Bridge.addDc_of_asserted h.1 h.2]
    exact (Bridge.addSources_joins (FaultKind.bit_ne_zero .dc)).congr (fun k => by simp [h, eq_comm])
  · rw [Bridge.addDc_of_not h]
    exact .refl (fun k hk => h hk.2) b

/-- What DC leaves of a bridge that it may join. -/
theorem Bridge.addDc_frame (c : Store) (before : Bool) (b : Bridge) : b.addDc c before = { b with
    state := (b.addDc c before).state, sense := (b.addDc c before).sense, hold := (b.addDc c before).hold
    ocHistory := (b.addDc c before).ocHistory, ocLock := (b.addDc c before).ocLock
    duty := (b.addDc c before).duty } := by
  unfold Bridge.addDc
  split
  · exact b.addSources_frame c _
  · rfl

/-- DC is always LATCHED, so a bridge in RUN that it joins is LOCKED (R130, R133). -/
theorem Bridge.addDc_locks {c : Store} {b : Bridge} (hdc : b.dcOn = true) (hrun : b.state = .run) :
    (b.addDc c false).state = .locked := by
  obtain ⟨hhold, _, hstate, _⟩ := b.addDc_joins c false
  obtain ⟨_, hlocked, _⟩ := hstate ⟨.dc, rfl, rfl, hdc⟩
  exact hlocked (by rw [hrun]; nofun) ⟨.dc, (hhold .dc).mpr (.inr ⟨rfl, rfl, hdc⟩), trivial⟩

/-- The fiftieth offset block (R126). -/
theorem exec_dcAsserted_last {s : State} {i : BridgeNo} (hoff : (s.ost.bridges.get i).dcOn = false)
    (hcount : (s.ost.bridges.get i).dcCount = 49)
    (hoffset : 176 < (s.ost.bridges.get i).averageDuty ∨ (s.ost.bridges.get i).averageDuty < 80) :
    exec (.dcAsserted i) s = .next { s with
      ost := s.ost.setBridge i
        (Bridge.addDc s.cpt.store false { s.ost.bridges.get i with dcCount := 50, dcOn := true })
      cpt := s.cpt.raiseAll (disableNotice i (s.ost.bridges.get i)
        (Bridge.addDc s.cpt.store false { s.ost.bridges.get i with dcCount := 50, dcOn := true })) } := by
  have ho : offsetDuty (s.ost.bridges.get i).averageDuty = true := by
    rw [offsetDuty_eq]
    exact decide_eq_true hoffset
  have hwatch : (s.ost.bridges.get i).watchDc = { s.ost.bridges.get i with dcCount := 50, dcOn := true } := by
    rw [Bridge.watchDc_eq, ho, hcount]
    simp
  rw [exec_dcAsserted, execDcAsserted, if_pos ⟨hoff, by rw [hcount]; rfl, ho⟩]
  dsimp only
  rw [hwatch]

/-! ### A bridge at a block boundary (R122, R123, R126, R128, R131) -/

/-- The ages of an OC history: entries of age 999 go, the others are one boundary older (R131). -/
theorem ageHistory_eq (l : List Nat) : ageHistory l = (l.filter (fun a => decide (a < 999))).map (· + 1) := by
  have hage (a : Nat) : (a + 1 < Config.ocAgeEnd) = (a < 999) := propext Nat.succ_lt_succ_iff
  induction l with
  | nil => rfl
  | cons a l ih =>
    unfold ageHistory at ih ⊢
    rw [List.filterMap_cons, List.filter_cons, ih]
    simp only [hage]
    by_cases h : a < 999 <;> simp [h]

/-- A bridge at a boundary with its derate and its DC count taken, before DC joins its hold set. -/
def Bridge.counted (tw : Bool) (b : Bridge) : Bridge := (b.derateStep tw).watchDc

theorem Bridge.boundary_eq (c : Store) (tw : Bool) (b : Bridge) : b.boundary c tw =
    { (b.counted tw).addDc c b.dcOn with
      ocHistory := ageHistory ((b.counted tw).addDc c b.dcOn).ocHistory, clip := 0 } := rfl

theorem Bridge.counted_eq (tw : Bool) (b : Bridge) : b.counted tw = { b with
    derate := min 24 (if b.clipBlock || tw then
        b.derate + b.clipBlock.toNat + (tw && decide (7 ≤ b.thermal)).toNat
      else if 63 ≤ b.calm then b.derate - 1 else b.derate)
    thermal := if tw && decide (b.thermal < 7) then b.thermal + 1 else 0
    calm := if !b.clipBlock && !tw && decide (b.calm < 63) then b.calm + 1 else 0
    dcCount := if offsetDuty b.averageDuty then min 50 (b.dcCount + 1) else 0
    dcOn := offsetDuty b.averageDuty && (b.dcOn || decide (49 ≤ b.dcCount)) } := by
  have haverage : (b.derateStep tw).averageDuty = b.averageDuty := by
    rw [Bridge.derateStep_frame]
    rfl
  unfold Bridge.counted
  rw [Bridge.watchDc_eq, haverage, Bridge.derateStep_eq]

/-- Beside its hold set, state and OC history a boundary leaves of a bridge what the counts make of it, the clip count
begun again (R122). -/
theorem Bridge.boundary_frame (c : Store) (tw : Bool) (b : Bridge) : b.boundary c tw = { b.counted tw with
    state := (b.boundary c tw).state, sense := (b.boundary c tw).sense, hold := (b.boundary c tw).hold
    ocHistory := (b.boundary c tw).ocHistory, ocLock := (b.boundary c tw).ocLock, duty := (b.boundary c tw).duty
    clip := 0 } := by
  simp only [Bridge.boundary_eq]
  conv_lhs => rw [Bridge.addDc_frame]

/-- DC joins the hold set at the boundary that asserts it, and the OC history ages (R126, R128, R131). -/
theorem Bridge.boundary_joins (c : Store) (tw : Bool) (b : Bridge) :
    SourcesJoin c (fun k => k = .dc ∧ b.dcOn = false ∧ (b.boundary c tw).dcOn = true)
      { b with ocHistory := (b.ocHistory.filter (fun a => decide (a < 999))).map (· + 1) } (b.boundary c tw) := by
  have hdc : (b.boundary c tw).dcOn = (b.counted tw).dcOn := by rw [Bridge.boundary_frame]
  have hjoin := (b.counted tw).addDc_joins c b.dcOn
  have hno : ¬ (FaultKind.oc = .dc ∧ b.dcOn = false ∧ (b.counted tw).dcOn = true) := fun h => nomatch h.1
  have hhistory : ((b.counted tw).addDc c b.dcOn).ocHistory = b.ocHistory := by
    obtain ⟨_, _, _, _, hkept⟩ := hjoin
    rw [(hkept (.inl hno)).1, Bridge.counted_eq]
  rw [hdc]
  refine hjoin.of_same (by rw [Bridge.counted_eq]; exact ⟨rfl, rfl, rfl⟩) ⟨rfl, rfl, rfl⟩ (.inr ⟨hno, ?_⟩)
    (fun _ _ hsense hduty => ⟨hsense, hduty⟩)
  rw [Bridge.boundary_eq, hhistory]
  exact ageHistory_eq b.ocHistory

/-- A bridge after a boundary, with the mixed block it plays next. -/
theorem Bridge.boundary_load (c : Store) (tw : Bool) (b : Bridge) (block : List Sample) : (b.boundary c tw).load block =
    { b.counted tw with
      state := (b.boundary c tw).state, sense := (b.boundary c tw).sense, hold := (b.boundary c tw).hold
      ocHistory := (b.boundary c tw).ocHistory, ocLock := (b.boundary c tw).ocLock, duty := (b.boundary c tw).duty
      clip := 0, block := block, dutySum := 0, instants := 0 } := by
  unfold Bridge.load
  conv_lhs => rw [Bridge.boundary_frame]

/-! ### The notices of a block boundary (R124, R137, R217) -/

/-- One place of the notice set after several raises: the raises of that place, in their order. -/
theorem Cpt.raiseAll_get (c : Cpt) (l : List Notice) (place : Fin 14) : (c.raiseAll l).notices.get place =
    (l.filter (fun n => n.place = place)).foldl (fun e n => some (raisedEntry e n)) (c.notices.get place) := by
  induction l generalizing c with
  | nil => rfl
  | cons n l ih =>
    rw [Cpt.raiseAll_cons, ih, List.filter_cons]
    by_cases h : n.place = place
    · subst h
      rw [Cpt.raise_place]
      simp
    · rw [Cpt.raise_other _ _ h]
      simp [h]

theorem filter_disableNotice (i : BridgeNo) (b u : Bridge) (place : Fin 14) :
    (disableNotice i b u).filter (fun n => n.place = place) = if place = 1 then disableNotice i b u else [] := by
  rw [disableNotice_eq]
  by_cases h : place = 1
  · subst h
    rw [if_pos rfl]
    split <;> rfl
  · rw [if_neg h]
    split
    · exact List.filter_eq_nil_iff.mpr (by simp [Notice.place, Ne.symm h])
    · rfl

theorem filter_derateNotice (c : Store) (config : Bool) (i : BridgeNo) (b u : Bridge) (place : Fin 14) :
    (derateNotice c config i b u).filter (fun n => n.place = place) =
      if place = 11 then derateNotice c config i b u else [] := by
  rw [derateNotice_eq]
  by_cases h : place = 11
  · subst h
    rw [if_pos rfl]
    split <;> rfl
  · rw [if_neg h]
    split
    · rfl
    · exact List.filter_eq_nil_iff.mpr (by simp [Notice.place, Ne.symm h])

/-- The notices of the Output Stage's block work, in one place of the notice set. -/
theorem State.boundaryOutput_place (s : State) (place : Fin 14) : s.boundaryOutput.cpt.notices.get place =
    ((Tbl.indices 8).flatMap (fun i =>
      let b := s.ost.bridges.get i
      let u := b.boundary s.cpt.store s.ost.fTw.asserted
      (if place = 11 then derateNotice s.cpt.store s.inConfig i b u else []) ++
        (if place = 1 then disableNotice i b u else []))).foldl (fun e n => some (raisedEntry e n))
      (s.cpt.notices.get place) := by
  rw [State.boundaryOutput_cpt, Cpt.raiseAll_get, Ost.boundary, List.filter_flatMap]
  simp only [List.filter_append, filter_derateNotice, filter_disableNotice]

/-- Beside the Output Stage's work no part of a boundary outside CONFIG raises BRIDGE_FAULT or DERATE. -/
theorem State.boundaryRun_outputPlace (s : State) {place : Fin 14} (h : place ∉ ([0, 3, 4, 5, 6, 7, 8, 12] : List (Fin 14))) :
    s.boundaryRun.cpt.notices.get place = s.boundaryOutput.cpt.notices.get place := by
  have other {p : Fin 14} (hp : p ∈ ([0, 3, 4, 5, 6, 7, 8, 12] : List (Fin 14))) : place ≠ p := fun e => h (e ▸ hp)
  have hchecked : s.boundaryOutput.cpt.SameAt place s.boundaryChecked.cpt :=
    (s.boundaryOutput.boundaryLevels_sameAt (other (by decide))).trans
      (s.boundaryOutput.boundaryLevels.boundaryIdle_sameAt (other (by decide)) (other (by decide)))
  have hpicked : s.boundaryChecked.cpt.SameAt place s.boundaryPicked.cpt :=
    (s.boundaryChecked.boundaryRadioBlock.boundaryDecide s.mixView).boundaryPickup_sameAt s.mixView
      (other (by decide))
  have hserved : s.boundaryPicked.cpt.SameAt place s.boundaryPicked.boundaryIntake.cpt :=
    s.boundaryPicked.boundaryIntake_sameAt (other (by decide))
  have hbuilt : s.boundaryBuilt.cpt = s.boundaryPicked.boundaryIntake.cpt := by
    rw [s.boundaryBuilt_eq, boundaryPublish_cpt, State.boundaryBuilding, boundaryUplink_cpt, boundaryMix_cpt]
  have hrest : s.boundaryBuilt.cpt.SameAt place s.boundaryRun.cpt := by
    rw [State.boundaryRun_eq, State.boundaryWorked]
    generalize s.boundaryBuilt = x
    rw [State.clearArbitrate_cpt]
    exact x.boundaryRest_sameAt (other (by decide)) (other (by decide)) (other (by decide)) (other (by decide)) _
  exact ((hchecked.trans hpicked).trans (hbuilt ▸ hserved)).trans hrest

/-- What a boundary leaves of the bridges and of the places of BRIDGE_FAULT and DERATE, in every lifecycle state. -/
theorem exec_blockBoundary_output (s : State) : ∃ t blocks, exec .blockBoundary s = .next t ∧
    t.ost = (s.ost.boundary s.cpt.store s.inConfig).1.load blocks ∧
    t.cpt.notices.get 1 = s.boundaryOutput.cpt.notices.get 1 ∧
    t.cpt.notices.get 11 = s.boundaryOutput.cpt.notices.get 11 := by
  cases hc : s.inConfig with
  | false =>
    obtain ⟨_, host, _⟩ := s.boundaryRun_holds
    rw [hc] at host
    exact ⟨_, _, exec_blockBoundary_of_not_inConfig hc, host, s.boundaryRun_outputPlace (by decide),
      s.boundaryRun_outputPlace (by decide)⟩
  | true =>
    refine ⟨_, Tbl.fill 8 (List.replicate Config.blockLen 0), exec_blockBoundary_of_inConfig hc, ?_,
      s.boundaryOutput.boundaryLevels_sameAt (i := 1) (by decide),
      s.boundaryOutput.boundaryLevels_sameAt (i := 11) (by decide)⟩
    rw [← hc]
    rfl

/-- The DERATE notices of the bridges that a boundary takes to or from the cap, in ascending number (R124, R134). -/
theorem flatMap_derateNotice (s t : State) :
    (Tbl.indices 8).flatMap (fun i => derateNotice s.cpt.store s.inConfig i (s.ost.bridges.get i) (t.ost.bridges.get i)) =
      (List.finRange 8).filterMap (fun j =>
        if ((s.ost.bridges.get j).derate = 24 ↔ (t.ost.bridges.get j).derate = 24) ∨
            (s.inConfig = false ∧ s.cpt.store.bridgeUsed j = false) then none
        else some (.derate j (decide ((t.ost.bridges.get j).derate = 24)) (t.ost.bridges.get j).derate)) := by
  simp only [derateNotice_eq, ← ite_not (p := _ ∨ _)]
  exact flatMap_ite_singleton _ _ _

/-- Settles O58: the rows by the operation each makes, and the boundary bridge by bridge, with its notices place by
place. -/
theorem derateAndOffsetFollowTheirCounts : Obligations.DerateAndOffsetFollowTheirCounts := by
  unfold Obligations.DerateAndOffsetFollowTheirCounts
  intro s i
  refine ⟨exec_thermalDerateStep_eighth, exec_calmDerateStep_last, Bridge.averageDuty_of_taken,
    fun hoff hcount hoffset => ?asserted, ?boundary⟩
  case asserted =>
    refine ⟨_, exec_dcAsserted_last hoff hcount hoffset, ?_⟩
    generalize hx : ({ s.ost.bridges.get i with dcCount := 50, dcOn := true } : Bridge) = x
    obtain ⟨hstate, hhold, hon, hcount⟩ : x.state = (s.ost.bridges.get i).state ∧ x.hold = (s.ost.bridges.get i).hold ∧
        x.dcOn = true ∧ x.dcCount = 50 := by
      rw [← hx]
      exact ⟨rfl, rfl, rfl, rfl⟩
    have hjoined : (x.addDc s.cpt.store false).hold = (s.ost.bridges.get i).hold ||| FaultKind.dc.bit := by
      rw [Bridge.addDc_of_asserted rfl hon, Bridge.addSources_hold, hhold]
    have hbridge : (s.ost.setBridge i (x.addDc s.cpt.store false)).bridges.get i = x.addDc s.cpt.store false :=
      Tbl.get_set_self _ _ _
    dsimp only
    rw [hbridge, disableNotice_eq, hjoined]
    refine ⟨rfl, fun j hj => Tbl.get_set_of_ne _ _ hj.symm, ?_, ?_, rfl, fun hrun => ?_, fun hrun => ?_⟩
    · rw [Bridge.addDc_frame, hon]
    · rw [Bridge.addDc_frame, hcount]
    · have hlocked := Bridge.addDc_locks (c := s.cpt.store) hon (hstate.trans hrun)
      rw [hlocked, if_pos ⟨hrun, nofun⟩]
      exact ⟨rfl, rfl⟩
    · rw [if_neg (fun h => hrun h.1)]
      rfl
  case boundary =>
    obtain ⟨t, blocks, ht, host, hfault, hderate⟩ := exec_blockBoundary_output s
    have hbridge (j : BridgeNo) : t.ost.bridges.get j =
        ((s.ost.bridges.get j).boundary s.cpt.store s.ost.fTw.asserted).load (blocks.get j) := by
      rw [host, Ost.load_bridge, Ost.boundary_bridge]
    refine ⟨t, ht, ?_⟩
    have hdc : (t.ost.bridges.get i).dcOn =
        ((s.ost.bridges.get i).boundary s.cpt.store s.ost.fTw.asserted).dcOn := by rw [hbridge]; rfl
    dsimp only
    refine ⟨?_, ?_, ?_, ?_, ?_, ?_, ?_, ?_, ?_⟩
    · rw [hbridge, Bridge.boundary_load]
    · rw [hbridge, Bridge.boundary_load, Bridge.counted_eq]
    · rw [hbridge, Bridge.boundary_load, Bridge.counted_eq]
      rfl
    · rw [hbridge, Bridge.boundary_load, Bridge.counted_eq]
      rfl
    · rw [hbridge, Bridge.boundary_load, Bridge.counted_eq]
      simp only [offsetDuty_eq]
    · rw [hbridge, Bridge.boundary_load, Bridge.counted_eq]
      simp only [offsetDuty_eq]
    · rw [hdc, hbridge]
      exact (Bridge.boundary_joins _ _ _).of_same ⟨rfl, rfl, rfl⟩ ⟨rfl, rfl, rfl⟩ (.inl ⟨rfl, rfl⟩)
        (fun _ _ hsense hduty => ⟨hsense, hduty⟩)
    · rw [hfault, State.boundaryOutput_place, ← flatMap_disableNotice]
      simp [hbridge, disableNotice_eq, Bridge.load]
    · rw [hderate, State.boundaryOutput_place, ← flatMap_derateNotice]
      simp [hbridge, derateNotice_eq, Bridge.load]

end Sys2Proof.Machine
end

section
/-! PROOF. The base duty of a sample, sample instants with their re-enables, and PWM periods with their filters (R108, R113,
R118 to R122, R125, R128, R129, R132, R133, R137). -/

namespace Sys2Proof.Machine

open Sys2Proof

/-! ### The base duty (R118) -/

theorem baseDuty_eq (x : Sample) : (baseDuty x : Int) = 128 + (x.toInt * 120 + 4194304) / 8388608 := by
  have hlo := BitVec.le_toInt x
  norm_num at hlo
  unfold baseDuty
  omega

/-- The base duty is at its ends where the sample's distance from zero is at least 8353656. -/
theorem baseDuty_ends (x : Sample) :
    (baseDuty x = 248 ↔ 8353656 ≤ x.toInt) ∧ (baseDuty x = 8 ↔ x.toInt ≤ -8353656) := by
  have heq := baseDuty_eq x
  have hlo := BitVec.le_toInt x
  have hhi := BitVec.toInt_lt (x := x)
  norm_num at hlo hhi
  constructor <;> omega

theorem baseDuty_zero : baseDuty 0 = 128 := by decide

/-! ### The due bridges re-enabled (R108, R132, R137) -/

/-- What re-enabling bridges one after another leaves of a feed: a feed silenced again stays silent. -/
theorem State.foldl_reenable_feed (l : List BridgeNo) (s : State) (o : OutputNo) (sl : SlotNo) :
    (((l.foldl State.reenable s).mxe.feeds.get o).get sl) =
      if ((s.mxe.feeds.get o).get sl).active = true ∧ ∃ i : BridgeNo, i.val = o.val ∧ i ∈ l then
        ((s.mxe.feeds.get o).get sl).silence
      else (s.mxe.feeds.get o).get sl := by
  induction l generalizing s with
  | nil => simp
  | cons j l ih =>
    rw [List.foldl_cons, ih, State.reenable_mxe, Mxe.reenable_feed]
    generalize (s.mxe.feeds.get o).get sl = f
    have hactive : f.silence.active = f.active := rfl
    have htwice : f.silence.silence = f.silence := rfl
    by_cases hj : j.val = o.val
    · have hmem : ∃ i : BridgeNo, i.val = o.val ∧ i ∈ j :: l := ⟨j, hj, List.mem_cons_self⟩
      by_cases hf : f.active = true
      · simp only [hj, hf, hmem, hactive, htwice, and_self, if_true, ite_self]
      · simp [hf]
    · have hrest : (∃ i : BridgeNo, i.val = o.val ∧ i ∈ j :: l) ↔ ∃ i : BridgeNo, i.val = o.val ∧ i ∈ l :=
        exists_congr (fun i => and_congr_right (fun hi => by
          rw [List.mem_cons, or_iff_right (fun e => hj ((congrArg Fin.val e).symm.trans hi))]))
      simp only [hj, hrest, false_and, if_false]

theorem State.foldl_reenable_cpt (l : List BridgeNo) (s : State) : (l.foldl State.reenable s).cpt =
    s.cpt.raiseAll (l.map (fun i => faultNotice i true (s.ost.bridges.get i).reenable)) := by
  induction l generalizing s with
  | nil => rfl
  | cons j l ih =>
    have hsame (i : BridgeNo) : faultNotice i true ((s.reenable j).ost.bridges.get i).reenable =
        faultNotice i true (s.ost.bridges.get i).reenable := by
      show faultNotice i true ((s.ost.bridges.set j _).get i).reenable = _
      rw [Tbl.get_set]
      split
      · next e => rw [← e]; rfl
      · rfl
    rw [List.foldl_cons, ih, List.map_cons, Cpt.raiseAll_cons, List.map_congr_left (fun i _ => hsame i)]
    rfl

/-- What re-enabling bridges one after another leaves of the rest of the station. -/
theorem State.foldl_reenable_frame (l : List BridgeNo) (s : State) : l.foldl State.reenable s = { s with
    ost := { s.ost with bridges := (l.foldl State.reenable s).ost.bridges }
    mxe := { s.mxe with feeds := (l.foldl State.reenable s).mxe.feeds }
    cpt := (l.foldl State.reenable s).cpt } := by
  induction l generalizing s with
  | nil => rfl
  | cons j l ih =>
    rw [List.foldl_cons]
    exact ih (s.reenable j)

theorem State.reenableDue_frame (s : State) : s.reenableDue = { s with
    ost := { s.ost with bridges := s.reenableDue.ost.bridges }
    mxe := { s.mxe with feeds := s.reenableDue.mxe.feeds }, cpt := s.reenableDue.cpt } :=
  State.foldl_reenable_frame _ s

theorem State.reenableDue_store (s : State) : s.reenableDue.cpt.store = s.cpt.store :=
  s.reenableDue_keeps.cpt.store

/-- A feed once the due bridges are re-enabled: silent where it is an active feed of such a bridge (R108). -/
theorem State.reenableDue_feed (s : State) (o : OutputNo) (sl : SlotNo) :
    (s.reenableDue.mxe.feeds.get o).get sl =
      if ((s.mxe.feeds.get o).get sl).active = true ∧
          ∃ i : BridgeNo, i.val = o.val ∧ (s.ost.bridges.get i).reenableDue = true then
        ((s.mxe.feeds.get o).get sl).silence
      else (s.mxe.feeds.get o).get sl := by
  unfold State.reenableDue
  rw [State.foldl_reenable_feed]
  simp only [Ost.mem_dueBridges]

/-- The due bridges raise ENABLED in ascending number (R137, log 25). -/
theorem State.reenableDue_cpt (s : State) : s.reenableDue.cpt = s.cpt.raiseAll ((List.finRange 8).filterMap (fun i =>
    if (s.ost.bridges.get i).reenableDue = true then some (.bridgeFault i true 0 .run) else none)) := by
  unfold State.reenableDue Ost.dueBridges
  rw [State.foldl_reenable_cpt, ← List.filterMap_eq_map, List.filterMap_filter]
  congr 1
  refine List.filterMap_congr (fun i _ => ?_)
  split
  · next h => exact congrArg some (Bridge.reenable_notice (Bridge.reenableDue_iff.mp h).2 i)
  · rfl

/-! ### A bridge at a sample instant (R118, R122, R129, R132) -/

theorem Ost.removeAuto_hold (o : Ost) (c : Store) (i : BridgeNo) (b : Bridge) :
    (o.removeAuto c i b).hold = b.hold &&& (latchedSet c b ||| o.assertedSet i) := Bridge.recompute_hold c _

/-- What the removal of AUTO sources leaves of a bridge. -/
theorem Ost.removeAuto_frame (o : Ost) (c : Store) (i : BridgeNo) (b : Bridge) : o.removeAuto c i b = { b with
    state := (o.removeAuto c i b).state, sense := (o.removeAuto c i b).sense, hold := (o.removeAuto c i b).hold
    duty := (o.removeAuto c i b).duty } := by
  unfold Ost.removeAuto
  rw [Bridge.recompute_hold]
  conv_lhs => rw [Bridge.recompute_frame]

/-- A bridge whose hold set is empty after the removal is as it was beside that. -/
theorem Ost.removeAuto_of_emptied {o : Ost} {c : Store} {i : BridgeNo} {b : Bridge} (h : (o.removeAuto c i b).hold = 0) :
    o.removeAuto c i b = { b with hold := 0 } := by
  rw [Ost.removeAuto_hold] at h
  unfold Ost.removeAuto
  rw [h]
  exact Bridge.recompute_of_empty rfl

/-- The removal of AUTO sources from a bridge that is not in RUN (R129, R133). -/
theorem Ost.removeAuto_of_not_run {o : Ost} {c : Store} {i : BridgeNo} {b : Bridge} (h : b.state ≠ .run) :
    (b.state = .off → (o.removeAuto c i b).state = .off) ∧ (o.removeAuto c i b).sense = b.sense ∧
      (o.removeAuto c i b).duty = b.duty := by
  refine ⟨fun hoff => ?_, Bridge.recompute_of_not_run h⟩
  unfold Ost.removeAuto
  rw [Bridge.recompute_of_off]
  · exact hoff
  · exact hoff

theorem Ost.removeAuto_heldByItsSources {o : Ost} {c : Store} {i : BridgeNo} {b : Bridge}
    (h : b.state = .halted ∨ b.state = .locked) (hhold : (o.removeAuto c i b).hold ≠ 0) :
    (o.removeAuto c i b).HeldByItsSources c := by
  rw [Ost.removeAuto_hold] at hhold
  exact Bridge.recompute_heldByItsSources hhold (fun hoff => by rcases h with e | e <;> exact nomatch e.symm.trans hoff)

/-- The first sample of a re-enabled bridge is zero, and no clip (R108, R118, R122). -/
theorem Bridge.reenable_takeSample (b : Bridge) : b.reenable.takeSample = { b with
    state := .run, sense := .split, d0 := 128, block := List.replicate (b.block.length - 1) 0
    instants := b.instants + 1, dutySum := b.dutySum + 128 } := by
  have hblock : b.reenable.block = List.replicate b.block.length 0 := List.map_const'
  have hduty : baseDuty (b.reenable.block.headD 0) = 128 := by
    rw [hblock]
    cases b.block.length <;> exact baseDuty_zero
  unfold Bridge.takeSample
  rw [hduty, hblock, List.tail_replicate]
  simp [Bridge.reenable, Bridge.silenceBlock]

/-- Re-enabling the due bridges leaves what is asserted for each bridge. -/
theorem State.reenableDue_assertedSet (s : State) (i : BridgeNo) :
    s.reenableDue.ost.assertedSet i = s.ost.assertedSet i := by
  have hdc : (s.reenableDue.ost.bridges.get i).dcOn = (s.ost.bridges.get i).dcOn := by
    rw [State.reenableDue_bridge]
    split <;> rfl
  unfold Ost.assertedSet
  rw [hdc, State.reenableDue_frame]

/-- A bridge after a sample instant. -/
def State.bridgeAtInstant (s : State) (i : BridgeNo) : Bridge :=
  s.reenableDue.ost.removeAuto s.cpt.store i (s.reenableDue.ost.bridges.get i).takeSample

/-- A bridge that the instant re-enables (R108, R132). -/
theorem State.bridgeAtInstant_of_due {s : State} {i : BridgeNo} (h : (s.ost.bridges.get i).reenableDue = true) :
    s.bridgeAtInstant i = { s.ost.bridges.get i with
      state := .run, sense := .split, hold := 0, d0 := 128
      block := List.replicate ((s.ost.bridges.get i).block.length - 1) 0
      instants := (s.ost.bridges.get i).instants + 1, dutySum := (s.ost.bridges.get i).dutySum + 128 } := by
  obtain ⟨_, hhold⟩ := Bridge.reenableDue_iff.mp h
  unfold State.bridgeAtInstant
  rw [State.reenableDue_bridge, if_pos h, Bridge.reenable_takeSample, Ost.removeAuto_of_emptied]
  rw [Ost.removeAuto_hold, hhold]
  exact BitVec.zero_and

theorem State.bridgeAtInstant_of_not_due {s : State} {i : BridgeNo} (h : (s.ost.bridges.get i).reenableDue = false) :
    s.bridgeAtInstant i = s.reenableDue.ost.removeAuto s.cpt.store i (s.ost.bridges.get i).takeSample := by
  unfold State.bridgeAtInstant
  rw [State.reenableDue_bridge, h]
  rfl

/-- What a sample instant leaves of a bridge, re-enabled or not (R118, R122). -/
theorem State.bridgeAtInstant_frame (s : State) (i : BridgeNo) :
    let b := s.ost.bridges.get i
    let u := s.bridgeAtInstant i
    u = { b with
      block := u.block, state := u.state, sense := u.sense, duty := u.duty, hold := u.hold, d0 := u.d0
      instants := b.instants + 1, dutySum := b.dutySum + u.d0
      clip := if b.state = .run ∧ (u.d0 = 8 ∨ u.d0 = 248) then b.clip + 1 else b.clip } := by
  dsimp only
  cases hdue : (s.ost.bridges.get i).reenableDue with
  | true =>
    rw [State.bridgeAtInstant_of_due hdue]
    simp
  | false =>
    rw [State.bridgeAtInstant_of_not_due hdue]
    generalize s.ost.bridges.get i = b
    conv_lhs => rw [Ost.removeAuto_frame]
    have hd0 : (s.reenableDue.ost.removeAuto s.cpt.store i b.takeSample).d0 = baseDuty (b.block.headD 0) := by
      rw [Ost.removeAuto_frame]
      rfl
    have hblock : (s.reenableDue.ost.removeAuto s.cpt.store i b.takeSample).block = b.block.tail := by
      rw [Ost.removeAuto_frame]
      rfl
    rw [hd0, hblock]
    simp [Bridge.takeSample, Bridge.enabled]

/-- A bridge that the instant does not re-enable takes its sample, and deasserted AUTO sources leave its hold set (R118,
R129, R133). -/
theorem State.bridgeAtInstant_kept {s : State} {i : BridgeNo} (h : (s.ost.bridges.get i).reenableDue = false) :
    let b := s.ost.bridges.get i
    let u := s.bridgeAtInstant i
    u.block = b.block.tail ∧ (∀ y, b.block.head? = some y → u.d0 = baseDuty y) ∧
      (u.hold = 0 → u.state = b.state ∧ u.sense = b.sense ∧ u.duty = b.duty) ∧
      (b.state ≠ .run → (b.state = .off → u.state = .off) ∧ u.sense = b.sense ∧ u.duty = b.duty) ∧
      ((b.state = .halted ∨ b.state = .locked) → u.hold ≠ 0 → u.HeldByItsSources s.cpt.store) ∧
      (∀ k, holds u.hold k = (holds b.hold k && (holds (latchedSet s.cpt.store b) k || holds (s.ost.assertedSet i) k))) ∧
      (b.hold = 0 → u.hold = 0) := by
  dsimp only
  rw [State.bridgeAtInstant_of_not_due h]
  generalize s.ost.bridges.get i = b
  refine ⟨?_, fun y hy => ?_, fun hempty => ?_, Ost.removeAuto_of_not_run (b := b.takeSample),
    Ost.removeAuto_heldByItsSources (b := b.takeSample), fun k => ?_, fun hempty => ?_⟩
  · rw [Ost.removeAuto_frame]
    rfl
  · rw [Ost.removeAuto_frame]
    show baseDuty (b.block.headD 0) = _
    rw [List.headD_eq_head?_getD, hy]
    rfl
  · rw [Ost.removeAuto_of_emptied hempty]
    exact ⟨rfl, rfl, rfl⟩
  · rw [Ost.removeAuto_hold, State.reenableDue_assertedSet, holds_and, holds_or]
    rfl
  · rw [Ost.removeAuto_hold]
    exact holds_ext (fun k => by rw [holds_and, show b.takeSample.hold = 0 from hempty]; simp)

/-! ### The whole sample instant (R113, R196) -/

theorem Mxe.play_sao0 {m : Mxe} {a b : StereoSample} (ha : m.post0.head? = some a) (hb : m.post1.head? = some b) :
    m.play.sao0 = ⟨a.l, a.r, b.l, b.r⟩ := by
  unfold Mxe.play
  rw [List.headD_eq_head?_getD, List.headD_eq_head?_getD, ha, hb]
  rfl

theorem Mxe.play_sao1 {m : Mxe} {a : StereoSample} (ha : m.lineOut.head? = some a) : m.play.sao1 = a := by
  unfold Mxe.play
  rw [List.headD_eq_head?_getD (l := m.lineOut), ha]
  rfl

/-- A sample instant writes the bridges of an Output Stage alone. -/
theorem Ost.instant_frame {o p : Ost} (h : o = { p with bridges := o.bridges }) (c : Store) :
    o.instant c = { p with bridges := (o.instant c).bridges } := by
  obtain ⟨bridges, fOc, fTs, fUv, fFlt0, fFlt1, fTw⟩ := o
  cases h
  rfl

/-- A sample instant: the blocks it changes, and the rest as it was. -/
theorem exec_sampleInstant_eq (s : State) (x : SampleInputs) : exec (.sampleInstant x) s = .next { s with
    ost := { s.ost with bridges := Tbl.ofFn s.bridgeAtInstant }
    mxe := Mxe.play { s.mxe with feeds := s.reenableDue.mxe.feeds }
    cpt := s.reenableDue.cpt, inputs := s.inputs.push x } := by
  have host : s.reenableDue.ost = { s.ost with bridges := s.reenableDue.ost.bridges } := by
    rw [State.reenableDue_frame]
  have hmxe : s.reenableDue.mxe = { s.mxe with feeds := s.reenableDue.mxe.feeds } := by
    rw [State.reenableDue_frame]
  have hbridges : (s.reenableDue.ost.instant s.cpt.store).bridges = Tbl.ofFn s.bridgeAtInstant := rfl
  rw [exec_sampleInstant, execSampleInstant]
  dsimp only
  rw [State.reenableDue_store, Ost.instant_frame host, hbridges, ← hmxe]
  generalize s.reenableDue.mxe.play = m
  conv_lhs => rw [State.reenableDue_frame]

/-! ### PWM periods (R119 to R121, R125, R128) -/

theorem Bridge.period_of_run {b : Bridge} (h : b.state = .run) (dt : Nat) (atRise atFall : Bool) :
    b.period dt atRise atFall = { b with duty := some (dutyOf b.d0 dt b.sense), sense := senseOf atRise atFall } :=
  if_pos (beq_iff_eq.mpr h)

theorem Bridge.period_of_not_run {b : Bridge} (h : b.state ≠ .run) (dt : Nat) (atRise atFall : Bool) :
    b.period dt atRise atFall = { b with duty := none, sense := .split } :=
  if_neg (fun e => h (beq_iff_eq.mp e))

/-- What a period leaves of a bridge. -/
theorem Bridge.period_frame (b : Bridge) (dt : Nat) (atRise atFall : Bool) : b.period dt atRise atFall = { b with
    duty := (b.period dt atRise atFall).duty, sense := (b.period dt atRise atFall).sense } := by
  unfold Bridge.period
  split <;> rfl

@[simp] theorem Bridge.period_state (b : Bridge) (dt : Nat) (atRise atFall : Bool) :
    (b.period dt atRise atFall).state = b.state := by
  rw [Bridge.period_frame]

@[simp] theorem Bridge.period_hold (b : Bridge) (dt : Nat) (atRise atFall : Bool) :
    (b.period dt atRise atFall).hold = b.hold := by
  rw [Bridge.period_frame]

/-- An enabled bridge that sources join is enabled no more (R128). -/
theorem SourcesJoin.state_ne_run {c : Store} {added : FaultKind → Prop} {b u : Bridge} (h : SourcesJoin c added b u)
    (hk : ∃ k, added k) (hrun : b.state = .run) : u.state ≠ .run := by
  obtain ⟨_, _, hstate, _⟩ := h
  obtain ⟨_, hlocked, hhalted, _⟩ := hstate hk
  have hon : b.state ≠ .off := by rw [hrun]; nofun
  by_cases hlatched : ∃ k, holds u.hold k = true ∧ LatchedFor c u k
  · rw [hlocked hon hlatched]
    nofun
  · rw [hhalted hon (fun k hk hl => hlatched ⟨k, hk, hl⟩)]
    nofun

/-- Sources that join before a period's switching join over the whole period (R121, R128). -/
theorem SourcesJoin.period {c : Store} {added : FaultKind → Prop} {b u : Bridge} (h : SourcesJoin c added b u)
    (dt : Nat) (atRise atFall : Bool) : SourcesJoin c added b (u.period dt atRise atFall) := by
  refine h.of_same ⟨rfl, rfl, rfl⟩ ?_ (.inl ⟨rfl, ?_⟩) (fun hrun hk _ _ => ?_)
  · rw [Bridge.period_frame]
    exact ⟨rfl, rfl, rfl⟩
  · rw [Bridge.period_frame]
  · rw [Bridge.period_of_not_run (h.state_ne_run hk hrun)]
    exact ⟨rfl, rfl⟩

/-- The sources that a period adds to the hold set of a bridge: those whose filters declare assertion (R125, R128). -/
theorem Ost.holds_periodSources (o : Ost) (c : Store) (x : PeriodInputs) (i : BridgeNo) (k : FaultKind) :
    holds (o.periodSources c x i) k = true ↔ ∃ src, ((o.filter src).asserted = false ∧
      ((o.period c x).1.filter src).asserted = true) ∧ Adds c i src k := by
  have hdeclares (f : Filter) (y : Bool) : f.declares y = true ↔ f.asserted = false ∧ (f.sample y).asserted = true := by
    simp [Filter.declares]
  have hoc (j : BridgeNo) : (o.period c x).1.filter (.oc j) = (o.fOc.get j).sample (x.oc.get j) := Tbl.get_ofFn _ j
  unfold Ost.periodSources
  simp only [holds_or, holds_mapped, holds_bitIf, Bool.or_eq_true, Bool.and_eq_true, decide_eq_true_iff, hdeclares]
  constructor
  · rintro ((((⟨⟨hd, hmap⟩, rfl⟩ | ⟨⟨hd, hmap⟩, rfl⟩) | ⟨⟨hd, hmap⟩, rfl⟩) | ⟨⟨hd, hmap⟩, rfl⟩) | ⟨hd, rfl⟩)
    · exact ⟨.ts, hd, rfl, hmap⟩
    · exact ⟨.uv, hd, rfl, hmap⟩
    · exact ⟨.flt0, hd, rfl, hmap⟩
    · exact ⟨.flt1, hd, rfl, hmap⟩
    · exact ⟨.oc i, by rw [hoc]; exact hd, rfl, rfl⟩
  · rintro ⟨src, hd, hadds⟩
    cases src with
    | oc j =>
      obtain ⟨rfl, rfl⟩ := hadds
      rw [hoc] at hd
      exact .inr ⟨hd, rfl⟩
    | ts => exact .inl (.inl (.inl (.inl ⟨⟨hd, hadds.2⟩, hadds.1.symm⟩)))
    | uv => exact .inl (.inl (.inl (.inr ⟨⟨hd, hadds.2⟩, hadds.1.symm⟩)))
    | flt0 => exact .inl (.inl (.inr ⟨⟨hd, hadds.2⟩, hadds.1.symm⟩))
    | flt1 => exact .inl (.inr ⟨⟨hd, hadds.2⟩, hadds.1.symm⟩)
    | tw => exact hadds.elim

/-- A bridge after a period joins the sources that the period's filters declare. -/
theorem Ost.period_joins (o : Ost) (c : Store) (x : PeriodInputs) (i : BridgeNo) :
    SourcesJoin c (fun k => ∃ src, ((o.filter src).asserted = false ∧ ((o.period c x).1.filter src).asserted = true) ∧
      Adds c i src k) (o.bridges.get i) ((o.period c x).1.bridges.get i) := by
  rw [Ost.period_bridge]
  exact ((Ost.addSources_joins (o.sampleFilters x) c _ i).congr (fun k => o.holds_periodSources c x i k)).period _ _ _

/-- A bridge that is enabled after a period had no source to join, and switches at the duty of its last sense reading
(R120, R121). -/
theorem Ost.period_of_run {o : Ost} {c : Store} {x : PeriodInputs} {i : BridgeNo}
    (h : ((o.period c x).1.bridges.get i).state = .run) :
    (o.period c x).1.bridges.get i =
      (o.bridges.get i).period (c.deadtime.get i) (x.atRise.get i) (x.atFall.get i) ∧ (o.bridges.get i).state = .run := by
  rw [Ost.period_bridge, Bridge.period_state] at h
  have hnone : o.periodSources c x i = 0 := by
    by_contra hsome
    rw [Ost.addSources_of_some hsome] at h
    exact Bridge.addSources_state_ne_run hsome h
  rw [Ost.addSources_of_none hnone] at h
  rw [Ost.period_bridge, Ost.addSources_of_none hnone]
  exact ⟨rfl, h⟩

/-- A bridge that is not enabled after a period does not switch (R121). -/
theorem Ost.period_of_not_run {o : Ost} {c : Store} {x : PeriodInputs} {i : BridgeNo}
    (h : ((o.period c x).1.bridges.get i).state ≠ .run) :
    ((o.period c x).1.bridges.get i).duty = none ∧ ((o.period c x).1.bridges.get i).sense = .split := by
  rw [Ost.period_bridge, Bridge.period_state] at h
  rw [Ost.period_bridge, Bridge.period_of_not_run h]
  exact ⟨rfl, rfl⟩

/-- A period leaves the base duty of every bridge. -/
theorem Ost.period_d0 (o : Ost) (c : Store) (x : PeriodInputs) (i : BridgeNo) :
    ((o.period c x).1.bridges.get i).d0 = (o.bridges.get i).d0 := by
  rw [Ost.period_bridge, Bridge.period_frame, Ost.addSources_bridge]
  split
  · rfl
  · rw [Bridge.addSources_frame]
    rfl

/-- The notices of a period are those of the bridges it disables (R137). -/
theorem Ost.period_notices (o : Ost) (c : Store) (x : PeriodInputs) : (o.period c x).2 =
    (Tbl.indices 8).flatMap (fun i => disableNotice i (o.bridges.get i) ((o.period c x).1.bridges.get i)) := by
  have hraised : (o.period c x).2 = ((o.sampleFilters x).addSources c (o.periodSources c x)).2 := rfl
  rw [hraised, Ost.addSources_notices]
  simp only [disableNotice_eq, Ost.period_bridge, Bridge.period_state, Bridge.period_hold]
  rfl

/-- Settles O59: the instant by `exec_sampleInstant_eq` and bridge by bridge, the period source by source. -/
theorem sampleInstantsAndPeriodsDriveTheBridges : Obligations.SampleInstantsAndPeriodsDriveTheBridges := by
  unfold Obligations.SampleInstantsAndPeriodsDriveTheBridges
  refine ⟨fun x => ⟨baseDuty_eq x, (baseDuty_bounds x).1, (baseDuty_bounds x).2, baseDuty_ends x⟩, baseDuty_zero,
    fun s x => ?instant, fun s x => ?period⟩
  case instant =>
    refine ⟨_, exec_sampleInstant_eq s x, rfl, rfl, rfl, fun m => Tbl.get_ofFn _ m, rfl, fun o sl => ⟨fun h => ?_, fun h => ?_⟩,
      s.reenableDue_cpt, rfl, fun a b => Mxe.play_sao0, fun a => Mxe.play_sao1, fun i => ?_⟩
    · exact (s.reenableDue_feed o sl).trans (if_pos h)
    · exact (s.reenableDue_feed o sl).trans (if_neg h)
    · dsimp only
      rw [Tbl.get_ofFn]
      refine ⟨s.bridgeAtInstant_frame i, fun hdue => ?_, State.bridgeAtInstant_kept⟩
      rw [State.bridgeAtInstant_of_due hdue]
      exact ⟨rfl, rfl, rfl, rfl, rfl, rfl⟩
  case period =>
    refine ⟨_, exec_pwmPeriod x s, rfl, rfl, rfl, rfl, rfl, rfl, ?_, fun i => ⟨Tbl.get_ofFn _ i, s.ost.period_d0 _ x i,
      s.ost.period_joins _ x i, fun hrun => ?_, Ost.period_of_not_run⟩⟩
    · exact congrArg s.cpt.raiseAll ((s.ost.period_notices _ x).trans (flatMap_disableNotice s
        { s with ost := (s.ost.period s.cpt.store x).1, cpt := s.cpt.raiseAll (s.ost.period s.cpt.store x).2 }))
    · obtain ⟨hbridge, hbefore⟩ := Ost.period_of_run hrun
      dsimp only
      rw [hbridge, Bridge.period_of_run hbefore]
      exact ⟨rfl, rfl⟩

end Sys2Proof.Machine
end

section
/-! SUPPORT. A front-end report that is kept: the record of its path, its programme-data word, and what the work on it may do
to the paths and pass on (R143 to R146, R161, R171). -/

namespace Sys2Proof.Machine

open Sys2Proof

/-! ### A candidate judged (R158) -/

/-- Whether a candidate measured so far succeeds. -/
def Rdu.Succeeds (r : Rdu) (k : Probe) : Prop := k.tagSeen = true ∧ ∃ a, r.activeRec.qs = some a ∧ a + 10 ≤ k.sum / 5

/-- A probe that goes on to its next candidate. -/
def Probe.moveOn (k : Probe) : Probe :=
  { k with index := k.index + 1, phase := .settling, measured := 0, sum := 0, tagSeen := false }

section
variable {r : Rdu} {c : Store} {k : Probe}

theorem Rdu.judge_of_succeeds (h : r.Succeeds k) :
    r.judge c k = ({ r with probe := some { k with phase := .swapWanted } }, []) := by
  obtain ⟨hseen, a, hqs, hmargin⟩ := h
  simp [Rdu.judge, hqs, hseen, hmargin, Config.probeMargin, Config.probeReports]

/-- A candidate that does not succeed gives way to the next one, and the last one ends the probe. -/
theorem Rdu.judge_of_not_succeeds (h : ¬ r.Succeeds k) : r.judge c k =
    ((k.candidates[k.index + 1]?).map (fun ch => ({ r.retune r.spare ch with probe := some k.moveOn }, []))).getD
      (r.probeFailed c) := by
  have hbad : ∀ a, r.activeRec.qs = some a → a + 10 ≤ k.sum / 5 → k.tagSeen = false := fun a hqs hmargin =>
    Bool.eq_false_iff.mpr (fun hseen => h ⟨hseen, a, hqs, hmargin⟩)
  unfold Rdu.judge
  cases hqs : r.activeRec.qs with
  | none => cases k.candidates[k.index + 1]? <;> simp [Probe.moveOn]
  | some a =>
    by_cases hmargin : a + 10 ≤ k.sum / 5
    · cases k.candidates[k.index + 1]? <;> simp [Probe.moveOn, hbad a hqs hmargin]
    · cases k.candidates[k.index + 1]? <;> simp [Probe.moveOn, Config.probeMargin, Config.probeReports, hmargin]

end

/-! ### Retunes (R143) -/

/-- The record of a path stays, or a retune replaced it. -/
def PathRec.Retunes (x u : PathRec) : Prop := u = x ∨ ∃ ch, u = x.retuned ch

theorem PathRec.Retunes.trans {x u w : PathRec} (h : x.Retunes u) (k : u.Retunes w) : x.Retunes w := by
  rcases k with rfl | ⟨ch, rfl⟩
  · exact h
  · rcases h with rfl | ⟨_, rfl⟩ <;> exact .inr ⟨ch, rfl⟩

theorem PathRec.Retunes.prepared {x u : PathRec} (h : x.Retunes u) : u.prepared = x.prepared := by
  rcases h with rfl | ⟨_, rfl⟩ <;> rfl

/-- Work that replaces the records of the paths by retunes alone. -/
def Rdu.RetunesOnly (r q : Rdu) : Prop := ∀ p, (r.path p).Retunes (q.path p)

namespace Rdu.RetunesOnly

theorem refl (r : Rdu) : r.RetunesOnly r := fun _ => .inl rfl

theorem trans {r q w : Rdu} (h : r.RetunesOnly q) (k : q.RetunesOnly w) : r.RetunesOnly w := fun p => (h p).trans (k p)

/-- An update of fields other than the paths. -/
theorem of_paths {r q : Rdu} (hA : q.pathA = r.pathA) (hB : q.pathB = r.pathB) : r.RetunesOnly q
  | .a => .inl hA
  | .b => .inl hB

theorem retune (r : Rdu) (p : Path) (ch : Channel) : r.RetunesOnly (r.retune p ch) := by
  intro q
  by_cases h : p = q
  · subst h
    exact .inr ⟨ch, by cases p <;> rfl⟩
  · exact .inl (Rdu.retune_other r p q ch h)

theorem useSpare (r : Rdu) : r.RetunesOnly r.useSpare := by
  unfold Rdu.useSpare
  split
  · exact .refl r
  · split
    · exact .retune r _ _
    · exact .refl r
  · exact (retune r _ _).trans (.of_paths rfl rfl)
  · split
    · exact .refl r
    · split
      · exact .refl r
      · exact (retune r _ _).trans (.of_paths rfl rfl)

theorem control (r : Rdu) (c : Store) (again : Bool) : r.RetunesOnly (r.control c again) := by
  have hset (m : PathBMode) (n : Nat) : r.RetunesOnly { r with mode := m, divRun := n } := .of_paths rfl rfl
  have huse (x : Rdu) : x.RetunesOnly { x.useSpare with deferred := false } := (useSpare x).trans (.of_paths rfl rfl)
  unfold Rdu.control Rdu.useSpareOrWait
  dsimp only
  split
  · split
    · exact .of_paths rfl rfl
    · exact (hset _ _).trans (huse _)
  · exact .of_paths rfl rfl

theorem watch (r : Rdu) (c : Store) : r.RetunesOnly (r.watch c).1 := by
  unfold Rdu.watch
  split
  · exact .refl r
  · next qs _ =>
    have hlow : r.RetunesOnly (r.watchLow c qs).1 := by
      rw [(r.watchLow_holds c qs).1]
      exact .of_paths rfl rfl
    have hgood : (r.watchLow c qs).1.RetunesOnly ((r.watchLow c qs).1.watchGood c qs).1 := by
      rw [(Rdu.watchGood_holds _ c qs).1]
      exact .of_paths rfl rfl
    exact (hlow.trans hgood).trans (.control _ _ _)

theorem judge (r : Rdu) (c : Store) (k : Probe) : r.RetunesOnly (r.judge c k).1 := by
  by_cases hgood : r.Succeeds k
  · rw [Rdu.judge_of_succeeds hgood]
    exact .of_paths rfl rfl
  · rw [Rdu.judge_of_not_succeeds hgood]
    cases k.candidates[k.index + 1]? with
    | some ch => exact (retune r _ _).trans (.of_paths rfl rfl)
    | none =>
      refine trans (q := ({ r with probe := none } : Rdu).restartAf) ?_ (.control _ _ _)
      unfold Rdu.restartAf
      split <;> exact .of_paths rfl rfl

theorem measureProbe (r : Rdu) (c : Store) (q : Nat) (w : Option DataWord) :
    r.RetunesOnly (r.measureProbe c q w).1 := by
  unfold Rdu.measureProbe
  split
  · exact .refl r
  · split
    · exact .refl r
    · dsimp only
      split
      · exact .of_paths rfl rfl
      · exact .judge r c _

theorem nextScan (r : Rdu) : r.RetunesOnly r.nextScan.1 := by
  have hmoved (q : Rdu) (h : r.RetunesOnly q) :
      r.RetunesOnly { q.retune q.spare q.scanPos with scanMeas := 0, scanSum := 0 } :=
    (h.trans (.retune q _ _)).trans (.of_paths rfl rfl)
  unfold Rdu.nextScan RduOut.andThen
  dsimp only
  split
  · exact hmoved { r with scanPos := _ } (.of_paths rfl rfl)
  · exact hmoved r.endPass.1 (.of_paths rfl rfl)

theorem measureScan (r : Rdu) (q : Nat) : r.RetunesOnly (r.measureScan q).1 := by
  unfold Rdu.measureScan
  dsimp only
  split
  · exact .of_paths rfl rfl
  · exact trans (q := { r with stations := _ }) (.of_paths rfl rfl) (.nextScan _)

theorem measureSeek (r : Rdu) (c : Store) (k : Seek) (q : Nat) : r.RetunesOnly (r.measureSeek c k q).1 := by
  unfold Rdu.measureSeek
  dsimp only
  split
  · exact .of_paths rfl rfl
  · split
    · exact trans (q := { r with seek := none }) (.of_paths rfl rfl) (.control _ _ _)
    · split
      · exact (retune r _ _).trans (.of_paths rfl rfl)
      · exact trans (q := { r with seek := none }) (.of_paths rfl rfl) ((retune _ _ _).trans (.control _ _ _))

theorem useActive (r : Rdu) (c : Store) (seek : Option Seek) (q : Nat) : r.RetunesOnly (r.useActive c seek q).1 := by
  cases seek with
  | none => exact watch r c
  | some k => exact measureSeek r c k q

theorem useSpareReport (r : Rdu) (c : Store) (q : Nat) (w : Option DataWord) :
    r.RetunesOnly (r.useSpareReport c q w).1 := by
  unfold Rdu.useSpareReport
  split
  · exact .refl r
  · unfold Rdu.compareSpare
    (repeat' split) <;> exact .of_paths rfl rfl
  · split
    · exact .refl r
    · exact measureProbe r c q w
  · split
    · exact .refl r
    · exact measureScan r q

end Rdu.RetunesOnly


/-! ### What the control leaves (R149) -/

theorem Rdu.retune_rest (r : Rdu) (p : Path) (ch : Channel) : r.retune p ch = { r with
    pathA := (r.retune p ch).pathA, pathB := (r.retune p ch).pathB, divRun := 0, ann := (r.retune p ch).ann } := by
  cases p <;> rfl

theorem Rdu.useSpare_rest (r : Rdu) : r.useSpare = { r with
    pathA := r.useSpare.pathA, pathB := r.useSpare.pathB, divRun := r.useSpare.divRun, probe := r.useSpare.probe
    scanMeas := r.useSpare.scanMeas, scanSum := r.useSpare.scanSum, ann := r.useSpare.ann } := by
  unfold Rdu.useSpare
  split
  · rfl
  · split
    · rw [r.retune_rest]
    · rfl
  · rw [r.retune_rest]
  · split
    · rfl
    · split
      · rfl
      · rw [r.retune_rest]

/-- The control writes the paths, the mode, and what the mode entered starts again. -/
theorem Rdu.control_rest (r : Rdu) (c : Store) (again : Bool) : let u := r.control c again
    u = { r with
      pathA := u.pathA, pathB := u.pathB, mode := r.chosenMode c, divRun := u.divRun, deferred := u.deferred
      probe := u.probe, scanMeas := u.scanMeas, scanSum := u.scanSum, ann := u.ann } := by
  unfold Rdu.control Rdu.useSpareOrWait
  dsimp only
  split
  · split
    · rfl
    · rw [Rdu.useSpare_rest]
  · rfl

/-- In DIVERSITY the end of a seek has the spare follow the active path (R170). -/
theorem Rdu.controlRetuning_follows (r : Rdu) (c : Store) {ch : Channel} (hmode : r.chosenMode c = .diversity)
    (hseek : r.seek = none) (hfade : r.crossfade = false) (htuned : r.activeRec.tuned = some ch) :
    (r.controlRetuning c false).spareRec = r.spareRec.retuned ch := by
  let x : Rdu := { r with mode := .diversity }
  obtain ⟨_, hfollows, _⟩ := x.useSpare_spareRec
  have hcontrol : r.controlRetuning c false = { x.useSpare with deferred := false } := by
    unfold Rdu.controlRetuning Rdu.control Rdu.useSpareOrWait
    simp [hmode, hfade, x]
  rw [hcontrol]
  exact (Rdu.spareRec_congr rfl rfl rfl).trans (hfollows rfl hseek ch htuned)

/-! ### A kept report (R144 to R146, R161, R171) -/

/-- The Radio Unit once a kept report has written the quality and the block of its path, and its word the record `d` and
the announcement `a`. -/
def Rdu.keeping (r : Rdu) (p : Path) (x : Report) (d : ProgData) (a : Announcement) : Rdu :=
  let rec_ := { (r.path p).keepReport x (r.seek.isSome && p == r.active) with data := d }
  { r with
    pathA := if p = .a then rec_ else r.pathA
    pathB := if p = .b then rec_ else r.pathB
    ann := a }

section
variable (r : Rdu) (p : Path) (x : Report) (d : ProgData) (a : Announcement)

@[simp] theorem Rdu.keeping_path : (r.keeping p x d a).path p =
    { (r.path p).keepReport x (r.seek.isSome && p == r.active) with data := d } := by
  cases p <;> rfl

theorem Rdu.keeping_other {q : Path} (h : p ≠ q) : (r.keeping p x d a).path q = r.path q := by
  cases p <;> cases q
  · exact absurd rfl h
  · rfl
  · rfl
  · exact absurd rfl h

theorem Rdu.keeping_activeRec_of_spare (h : p ≠ r.active) : (r.keeping p x d a).activeRec = r.activeRec :=
  r.keeping_other p x d a h

/-- The work of a kept report after its word (R144). -/
def Rdu.keptWork (r : Rdu) (c : Store) (p : Path) (x : Report) (y : Rdu) : RduOut :=
  if p = r.active then y.useActive c r.seek (reportQuality x) else y.useSpareReport c (reportQuality x) x.word

/-- What its word leaves of the Radio Unit, and passes on (R161, R171). -/
def Rdu.worded (r : Rdu) (p : Path) (x : Report) : RduOut :=
  (r.setPath p ((r.path p).keepReport x (r.seek.isSome && p == r.active))).takeWord p x.word

theorem Rdu.worded_keeping : ∃ d, (r.worded p x).1 = r.keeping p x d (r.worded p x).1.ann ∧
    DataAfter (r.path p).tuned (r.path p).data x.word d := by
  obtain ⟨a, d, heq, hdata, _⟩ :=
    Rdu.takeWord_eq (r.setPath p ((r.path p).keepReport x (r.seek.isSome && p == r.active))) p x.word
  rw [Rdu.setPath_path] at heq hdata
  refine ⟨d, ?_, hdata⟩
  unfold Rdu.worded
  rw [heq]
  cases p <;> rfl

theorem Rdu.keep_eq (c : Store) : r.keep c p x =
    ((r.keptWork c p x (r.worded p x).1).1, (r.worded p x).2 ++ (r.keptWork c p x (r.worded p x).1).2) := rfl

end

/-- A word passes on starts and ends of announcements alone. -/
theorem Rdu.takeWord_spares {i : Fin 14} (h : i ≠ 7) (r : Rdu) (p : Path) (w : Option DataWord) :
    ∀ e ∈ (r.takeWord p w).2, e.spares i := by
  have hends (x : Rdu) (cause : AnnounceCause) : ∀ e ∈ (x.endAnnouncement cause).2, e.spares i := by
    rw [Rdu.endAnnouncement_eq]
    unfold Announcement.ended
    split <;> simp [RduEffect.spares, h]
  cases w with
  | none => exact List.forall_mem_nil _
  | some w =>
    unfold Rdu.takeWord
    dsimp only
    split
    · split
      · unfold Rdu.takeFlags
        dsimp only
        split
        · split
          · exact hends _ _
          · exact List.forall_mem_nil _
        · split
          · simp [RduEffect.spares, h]
          · exact List.forall_mem_nil _
      · split
        · exact hends _ _
        · exact List.forall_mem_nil _
    · exact List.forall_mem_nil _

section
variable {s : State} {p : Path} {x : Report}

theorem PathRec.onChannel_iff (r : PathRec) (n : Nat) : r.tuned.any (fun t => t.val == n) = true ↔ r.tuned.map Fin.val = some n := by
  cases r.tuned <;> simp

/-- The work of a kept report on the Radio Unit as its word left it. -/
def State.reportWork (s : State) (p : Path) (x : Report) : RduOut :=
  s.rdu.keptWork s.cpt.store p x (s.rdu.worded p x).1

/-- The station after a kept report: its word, and then its work. -/
def State.afterReport (s : State) (p : Path) (x : Report) : State :=
  (s.setRdu ((s.reportWork p x).1, (s.rdu.worded p x).2 ++ (s.reportWork p x).2)).arbitrate

theorem exec_keptReport (hc : s.inConfig = false) (hp : pathPresent s.cpt.store.frontEnds p = true)
    (ht : (s.rdu.path p).tuned.map Fin.val = some x.channel) (hs : (s.rdu.path p).settle = 0) :
    exec (.frontEndReport p x) s = .next (s.afterReport p x) := by
  have hreport : s.rdu.report s.cpt.store p x = s.rdu.keep s.cpt.store p x :=
    if_pos ⟨(PathRec.onChannel_iff _ _).mpr ht, hs⟩
  rw [exec_frontEndReport, execFrontEndReport, if_pos ⟨hc, hp⟩, hreport, Rdu.keep_eq]
  rfl

end

/-- What the Radio Unit passes on changes the LIF, the CLE, the Publisher and the Control Port alone. -/
theorem State.setRdu_rest (s : State) (o : RduOut) : let t := s.setRdu o
    t = { s with lif := t.lif, cle := t.cle, pub := t.pub, rdu := t.rdu, cpt := t.cpt } := by
  have hext (t : State) (hi : t.iku = s.iku) (hm : t.mxe = s.mxe) (ho : t.ost = s.ost) (hp : t.pku = s.pku)
      (hx : t.inputs = s.inputs) (hq : t.pending = s.pending) :
      t = { s with lif := t.lif, cle := t.cle, pub := t.pub, rdu := t.rdu, cpt := t.cpt } := by
    obtain ⟨_, _, _, _, _, _, _, _, _, _, _⟩ := t
    subst hi hm ho hp hx hq
    rfl
  obtain ⟨hmxe, host, hpku, hinputs⟩ := s.setRdu_keepsSound o
  exact hext _ (s.setRdu_iku o) hmxe host hpku hinputs (s.setRdu_keeps o).pending

section
variable (s : State) (p : Path) (x : Report)

theorem State.afterReport_rest : let t := s.afterReport p x
    t = { s with lif := t.lif, cle := t.cle, pub := t.pub, rdu := t.rdu, cpt := t.cpt } := by
  intro t
  have h := s.setRdu_rest ((s.reportWork p x).1, (s.rdu.worded p x).2 ++ (s.reportWork p x).2)
  dsimp only at h
  show State.arbitrate _ = _
  rw [h]
  rfl

/-- After a kept report the Radio Unit is what the work leaves, but for the announcement. -/
theorem State.afterReport_rdu : ∃ a, (s.afterReport p x).rdu = { (s.reportWork p x).1 with ann := a } := by
  obtain ⟨_, h⟩ := s.setRdu_rdu ((s.reportWork p x).1, (s.rdu.worded p x).2 ++ (s.reportWork p x).2)
  exact ⟨_, h⟩

theorem State.afterReport_path (q : Path) : (s.afterReport p x).rdu.path q = (s.reportWork p x).1.path q := by
  obtain ⟨_, h⟩ := s.afterReport_rdu p x
  rw [h]
  cases q <;> rfl

theorem State.afterReport_spareRec : (s.afterReport p x).rdu.spareRec = (s.reportWork p x).1.spareRec := by
  obtain ⟨_, h⟩ := s.afterReport_rdu p x
  rw [h]
  exact Rdu.spareRec_congr rfl rfl rfl

/-- In the places other than ANNOUNCE a kept report raises what its work raises. -/
theorem State.afterReport_notices : ∃ y : State, (∀ i, i ≠ 7 → y.cpt.notices.get i = s.cpt.notices.get i) ∧
    (s.afterReport p x).cpt = ((s.reportWork p x).2.foldl State.rduEffect y).cpt := by
  refine ⟨s.setRdu ((s.reportWork p x).1, (s.rdu.worded p x).2), fun i hi => ?_, ?_⟩
  · exact s.setRdu_sameAt (o := ((s.reportWork p x).1, (s.rdu.worded p x).2)) (Rdu.takeWord_spares hi _ _ _)
  · rw [State.afterReport, State.setRdu_append]
    rfl

end

/-- Where the work of a kept report raises nothing, the other places stay. -/
theorem State.afterReport_quiet {s : State} {p : Path} {x : Report} (h : (s.reportWork p x).2 = []) {i : Fin 14}
    (hi : i ≠ 7) : (s.afterReport p x).cpt.notices.get i = s.cpt.notices.get i := by
  obtain ⟨y, hy, hcpt⟩ := s.afterReport_notices p x
  rw [hcpt, h]
  exact hy i hi

/-- A notice that the work of a kept report raises takes its place. -/
theorem State.afterReport_raised {s : State} {p : Path} {x : Report} {n : Notice}
    (h : (s.reportWork p x).2 = [.notice n]) (hn : n.place ≠ 7) :
    (s.afterReport p x).cpt.notices.get n.place = some (raisedEntry (s.cpt.notices.get n.place) n) := by
  obtain ⟨y, hy, hcpt⟩ := s.afterReport_notices p x
  rw [hcpt, h, ← hy n.place hn]
  exact Cpt.raise_place _ _

end Sys2Proof.Machine
end

section
/-! PROOF. O51: reports discarded and kept (R142 to R146), and the seek they end (R170). -/

namespace Sys2Proof.Machine

open Sys2Proof

/-! ### Quality and the prepared block (R145, R146) -/

theorem reportQuality_eq (x : Report) : (reportQuality x : Int) =
    max 0 (min 100 ((min 120 x.fs : Nat) - 20 - 3 * (min 15 x.mp : Nat) - 2 * (min 15 x.ac : Nat))) := by
  unfold reportQuality
  omega

theorem reportQuality_le (x : Report) : reportQuality x ≤ 100 := Nat.min_le_left _ _

theorem smooth_none (q : Nat) : smooth none q = 16 * q := rfl

/-- The smoothed quality stays in its range, so that no step leaves the naturals. -/
theorem smooth_some {o q : Nat} (ho : o ≤ 1600) (hq : q ≤ 100) :
    (smooth (some o) q : Int) = o + Int.tdiv (16 * q - o) 4 ∧ smooth (some o) q ≤ 1600 := by
  have hstep : 0 ≤ (o : Int) + Int.tdiv (16 * q - o) 4 ∧ (o : Int) + Int.tdiv (16 * q - o) 4 ≤ 1600 := by
    rcases le_or_gt 0 (16 * (q : Int) - o) with h | h
    · rw [Int.tdiv_eq_ediv_of_nonneg h]
      omega
    · rw [← neg_neg (16 * (q : Int) - o), Int.neg_tdiv, Int.tdiv_eq_ediv_of_nonneg (by omega)]
      omega
  unfold smooth
  dsimp only
  omega

theorem padTo_length {α : Type} (n : Nat) (e : α) (l : List α) : (padTo n e l).length = n := by
  simp only [padTo, List.length_append, List.length_take, List.length_replicate]
  omega

theorem padTo_getElem? {α : Type} {n i : Nat} {e a : α} {l : List α} (hi : i < n) (h : l[i]? = some a) :
    (padTo n e l)[i]? = some a := by
  have hlen : i < l.length := (List.getElem?_eq_some_iff.mp h).1
  rw [padTo, List.getElem?_append_left (by simp; omega), List.getElem?_take_of_lt hi, h]

theorem preparedBlock_length (x : Report) (qs : Nat) (forced : Bool) : (preparedBlock x qs forced).length = 48 := by
  simp [preparedBlock, padTo_length, Config.blockLen]

theorem preparedBlock_getElem? {x : Report} (qs : Nat) (forced : Bool) {n : Nat} {m d : Sample} (hn : n < 48)
    (hm : x.mid[n]? = some m) (hd : x.side[n]? = some d) :
    (preparedBlock x qs forced)[n]? = some (stereoFrame (blendOf qs) (gain (softMute qs forced)) m d) := by
  unfold preparedBlock
  rw [List.getElem?_zipWith, padTo_getElem? (n := Config.blockLen) hn hm, padTo_getElem? (n := Config.blockLen) hn hd]

/-! ### Discarded reports (R144) -/

section
variable {s : State} {p : Path} {x : Report}

/-- A report in CONFIG or of an absent path is ignored. -/
theorem exec_ignoredReport (h : s.inConfig = true ∨ pathPresent s.cpt.store.frontEnds p = false) :
    exec (.frontEndReport p x) s = .next s := by
  rw [exec_frontEndReport, execFrontEndReport, if_neg]
  rintro ⟨hc, hp⟩
  rcases h with h | h <;> simp_all

/-- A discarded report prepares silence, and lets the path settle where it is of its channel. -/
theorem exec_discardedReport (hc : s.inConfig = false) (hp : pathPresent s.cpt.store.frontEnds p = true) {on : Bool}
    (hon : (s.rdu.path p).tuned.any (fun t => t.val == x.channel) = on) (h : ¬ (on = true ∧ (s.rdu.path p).settle = 0)) :
    exec (.frontEndReport p x) s = .next (State.arbitrate { s with
      rdu := s.rdu.setPath p ((s.rdu.path p).discardReport on) }) := by
  subst hon
  rw [exec_frontEndReport, execFrontEndReport, if_pos ⟨hc, hp⟩, Rdu.report, if_neg h]
  rfl

end

/-! ### What a kept report leaves of its path (R143 to R146) -/

/-- The work of a kept report may retune its path, and changes nothing else of it. -/
theorem Rdu.keptWork_retunesOnly (r : Rdu) (c : Store) (p : Path) (x : Report) (y : Rdu) :
    y.RetunesOnly (r.keptWork c p x y).1 := by
  unfold Rdu.keptWork
  split
  · exact .useActive y c _ _
  · exact .useSpareReport y c _ _

/-- Where no seek runs the active path stays, and so does a spare that is neither probed nor scanned. -/
theorem Rdu.keptWork_stays (r : Rdu) (c : Store) (p : Path) (x : Report) (y : Rdu) (hactive : y.active = r.active)
    (hmode : y.mode = r.mode)
    (h : p = r.active ∧ r.seek = none ∨ p ≠ r.active ∧ (r.mode = .idle ∨ r.mode = .diversity)) :
    (r.keptWork c p x y).1.path p = y.path p := by
  unfold Rdu.keptWork
  rcases h with ⟨hp, hseek⟩ | ⟨hp, hidle⟩
  · rw [if_pos hp, hseek, hp, ← hactive]
    exact (y.watch_keepsWords c).activePath
  · rw [if_neg hp]
    unfold Rdu.useSpareReport
    rw [hmode]
    rcases hidle with hm | hm <;> rw [hm]
    dsimp only
    unfold Rdu.compareSpare
    (repeat' split) <;> cases p <;> rfl

/-! ### A seek (R170) -/

section
variable {r : Rdu} {c : Store} {k : Seek} {q : Nat}

theorem Rdu.measureSeek_counts (h : k.measured + 1 < 3) :
    r.measureSeek c k q = ({ r with seek := some { k with measured := k.measured + 1, sum := k.sum + q } }, []) :=
  if_pos h

theorem Rdu.measureSeek_finds (h : 3 ≤ k.measured + 1) (hfound : 35 ≤ (k.sum + q) / 3) :
    r.measureSeek c k q =
      (({ r with seek := none }).controlRetuning c false, [.notice (.seekFound (r.activeRec.tuned.getD 0))]) :=
  (if_neg (not_lt.mpr h)).trans (if_pos hfound)

theorem Rdu.measureSeek_moves (h : 3 ≤ k.measured + 1) (hpoor : (k.sum + q) / 3 < 35) (hsteps : k.steps + 1 < 410) :
    r.measureSeek c k q = ({ r.retune r.active (nextChannel k.direction (r.activeRec.tuned.getD 0)) with
      seek := some { k with steps := k.steps + 1, measured := 0, sum := 0 } }, []) :=
  (if_neg (not_lt.mpr h)).trans ((if_neg (not_le.mpr hpoor)).trans (if_pos hsteps))

theorem Rdu.measureSeek_fails (h : 3 ≤ k.measured + 1) (hpoor : (k.sum + q) / 3 < 35) (hsteps : 410 ≤ k.steps + 1) :
    r.measureSeek c k q =
      ((({ r with seek := none }).retune r.active k.start).controlRetuning c false, [.notice .seekFailed]) :=
  (if_neg (not_lt.mpr h)).trans ((if_neg (not_le.mpr hpoor)).trans (if_neg (not_lt.mpr hsteps)))

end

/-- What the end of a seek leaves of the Radio Unit: no seek, and in DIVERSITY a spare that follows the active path. -/
def Rdu.SeekEnded (r u : Rdu) : Prop :=
  u.seek = none ∧ (u.mode = .diversity → r.crossfade = false →
    u.spareRec.tuned = (u.path r.active).tuned ∧ u.spareRec.settle = 2)

/-- At the end of a seek the active path stays. -/
theorem Rdu.controlRetuning_ends (r : Rdu) (c : Store) {ch : Channel} (hseek : r.seek = none)
    (htuned : r.activeRec.tuned = some ch) :
    r.SeekEnded (r.controlRetuning c false) ∧ (r.controlRetuning c false).path r.active = r.activeRec := by
  have hkeeps : r.KeepsWords (r.controlRetuning c false) := r.control_keepsWords c _
  refine ⟨⟨(congrArg Rdu.seek (r.control_rest c _)).trans hseek, fun hm hfade => ?_⟩, hkeeps.activePath⟩
  have hmode : r.chosenMode c = .diversity := (r.control_holds c _).1.symm.trans hm
  rw [r.controlRetuning_follows c hmode hseek hfade htuned, hkeeps.activePath]
  exact ⟨htuned.symm, rfl⟩

/-- A report in a seek counts, finds, moves on, or fails. -/
theorem Rdu.measureSeek_holds (r : Rdu) (c : Store) (k : Seek) (q : Nat) {here : Channel}
    (htuned : r.activeRec.tuned = some here) :
    let o := r.measureSeek c k q
    let u := o.1.path r.active
    let sum := k.sum + q
    (k.measured + 1 < 3 → o.1.seek = some { k with measured := k.measured + 1, sum := sum } ∧ u = r.activeRec ∧ o.2 = []) ∧
    (3 ≤ k.measured + 1 → 35 ≤ sum / 3 → r.SeekEnded o.1 ∧ u = r.activeRec ∧ o.2 = [.notice (.seekFound here)]) ∧
    (3 ≤ k.measured + 1 → sum / 3 < 35 → k.steps + 1 < 410 →
      o.1.seek = some { k with steps := k.steps + 1, measured := 0, sum := 0 } ∧
      u = r.activeRec.retuned (nextChannel k.direction here) ∧ o.2 = []) ∧
    (3 ≤ k.measured + 1 → sum / 3 < 35 → 410 ≤ k.steps + 1 →
      r.SeekEnded o.1 ∧ u = r.activeRec.retuned k.start ∧ o.2 = [.notice .seekFailed]) := by
  intro o u sum
  have hretuned (x : Rdu) (ch : Channel) : (x.retune x.active ch).path x.active = x.activeRec.retuned ch := by
    unfold Rdu.activeRec
    cases x.active <;> rfl
  have hfield {x : Rdu} {p : Path} (hA : x.pathA = r.pathA) (hB : x.pathB = r.pathB) : x.path p = r.path p := by
    cases p
    · exact hA
    · exact hB
  refine ⟨fun hn => ?counts, fun hn hgood => ?finds, fun hn hpoor hsteps => ?moves, fun hn hpoor hsteps => ?fails⟩
  case counts =>
    have ho : o = _ := Rdu.measureSeek_counts hn
    refine ⟨by rw [ho], ?_, by rw [ho]⟩
    show o.1.path _ = _
    rw [ho]
    exact hfield rfl rfl
  case finds =>
    have ho : o = _ := Rdu.measureSeek_finds hn hgood
    let x : Rdu := { r with seek := none }
    have hx : x.activeRec = r.activeRec := hfield rfl rfl
    obtain ⟨hended, hstays⟩ := x.controlRetuning_ends c rfl (hx.symm ▸ htuned)
    refine ⟨by rw [ho]; exact hended, ?_, by rw [ho, htuned]; rfl⟩
    show o.1.path _ = _
    rw [ho]
    exact hstays.trans hx
  case moves =>
    have ho : o = _ := Rdu.measureSeek_moves hn hpoor hsteps
    rw [htuned] at ho
    refine ⟨by rw [ho], ?_, by rw [ho]⟩
    show o.1.path _ = _
    rw [ho, ← hretuned]
    cases r.active <;> rfl
  case fails =>
    have ho : o = _ := Rdu.measureSeek_fails hn hpoor hsteps
    let z : Rdu := { r with seek := none }
    let x : Rdu := z.retune r.active k.start
    have hactive : x.active = r.active := Rdu.retune_active _ _ _
    have hx : x.activeRec = r.activeRec.retuned k.start := by
      rw [Rdu.activeRec, hactive]
      exact (hretuned z k.start).trans (congrArg (·.retuned k.start) (hfield rfl rfl))
    have hrest : x = _ := z.retune_rest r.active k.start
    have hfade : x.crossfade = r.crossfade := by rw [hrest]
    have hseek : x.seek = none := by rw [hrest]
    obtain ⟨hended, hstays⟩ := x.controlRetuning_ends c hseek (ch := k.start) (by rw [hx]; rfl)
    rw [Rdu.SeekEnded, hactive, hfade] at hended
    rw [hactive] at hstays
    refine ⟨by rw [ho]; exact hended, ?_, by rw [ho]⟩
    show o.1.path _ = _
    rw [ho]
    exact hstays.trans hx

/-! ### The whole report -/

/-- What a kept report leaves of its path: its block, and the smoothed quality unless the path was retuned. -/
theorem State.afterReport_record (s : State) (p : Path) (x : Report) (hsettle : (s.rdu.path p).settle = 0) :
    let r := s.rdu.path p
    let u := (s.afterReport p x).rdu.path p
    let q := smooth r.qs16 (reportQuality x)
    u.prepared = some (preparedBlock x (q / 16) (s.rdu.seek.isSome && p == s.rdu.active)) ∧
    (u.settle = 0 → u.tuned = r.tuned ∧ u.qs16 = some q) ∧ (u.settle ≠ 0 → u.settle = 2 ∧ u.qs16 = none) ∧
    ((p = s.rdu.active ∧ s.rdu.seek = none ∨ p ≠ s.rdu.active ∧ (s.rdu.mode = .idle ∨ s.rdu.mode = .diversity)) →
      u.settle = 0) := by
  intro r u q
  obtain ⟨d, hword, _⟩ := s.rdu.worded_keeping p x
  have hpath : u = (s.reportWork p x).1.path p := s.afterReport_path p x p
  have hmoves := s.rdu.keptWork_retunesOnly s.cpt.store p x (s.rdu.worded p x).1 p
  have hstays := s.rdu.keptWork_stays s.cpt.store p x (s.rdu.worded p x).1 (by rw [hword]; rfl) (by rw [hword]; rfl)
  have hrec : (s.rdu.worded p x).1.path p = { r.keepReport x (s.rdu.seek.isSome && p == s.rdu.active) with data := d } := by
    rw [hword, Rdu.keeping_path]
  rw [hrec] at hmoves hstays
  have hmoves : PathRec.Retunes _ u := hpath ▸ hmoves
  have hkept : r.settle = 0 := hsettle
  refine ⟨hmoves.prepared, fun h => ?_, fun h => ?_, fun h => ?_⟩
  · rcases hmoves with hu | ⟨ch, hu⟩
    · rw [hu]
      exact ⟨rfl, rfl⟩
    · rw [hu] at h
      exact absurd h (show (2 : Nat) ≠ 0 by decide)
  · rcases hmoves with hu | ⟨ch, hu⟩
    · rw [hu] at h
      exact absurd hkept h
    · rw [hu]
      exact ⟨rfl, rfl⟩
  · rw [hpath]
    exact (congrArg PathRec.settle (hstays h)).trans hkept

/-- A kept report of the active path in a seek (R170). -/
theorem State.afterReport_seek {s : State} (x : Report) {k : Seek} {here : Channel} (hk : s.rdu.seek = some k)
    (htuned : s.rdu.activeRec.tuned = some here) (hsettle : s.rdu.activeRec.settle = 0) :
    let t := s.afterReport s.rdu.active x
    let u := t.rdu.path s.rdu.active
    let old := s.cpt.notices.get 9
    let sum := k.sum + reportQuality x
    (k.measured + 1 < 3 → t.rdu.seek = some { k with measured := k.measured + 1, sum := sum } ∧ u.settle = 0 ∧
      t.cpt.notices.get 9 = old) ∧
    (3 ≤ k.measured + 1 → 35 ≤ sum / 3 → s.rdu.SeekEnded t.rdu ∧ u.settle = 0 ∧
      t.cpt.notices.get 9 = some (raisedEntry old (.seekFound here))) ∧
    (3 ≤ k.measured + 1 → sum / 3 < 35 → k.steps + 1 < 410 →
      t.rdu.seek = some { k with steps := k.steps + 1, measured := 0, sum := 0 } ∧
      u.tuned = some (nextChannel k.direction here) ∧ u.settle = 2 ∧ t.cpt.notices.get 9 = old) ∧
    (3 ≤ k.measured + 1 → sum / 3 < 35 → 410 ≤ k.steps + 1 → s.rdu.SeekEnded t.rdu ∧ u.tuned = some k.start ∧
      u.settle = 2 ∧ t.cpt.notices.get 9 = some (raisedEntry old .seekFailed)) := by
  intro t u old sum
  let p := s.rdu.active
  obtain ⟨d, hword, _⟩ := s.rdu.worded_keeping p x
  obtain ⟨claim, hrdu⟩ := s.afterReport_rdu p x
  have hpath : u = (s.reportWork p x).1.path p := s.afterReport_path p x p
  have hspare : t.rdu.spareRec = (s.reportWork p x).1.spareRec := s.afterReport_spareRec p x
  have hquiet := State.afterReport_quiet (s := s) (p := p) (x := x) (i := 9)
  have hactive : (s.rdu.worded p x).1.active = p := by rw [hword]; rfl
  have hfade : (s.rdu.worded p x).1.crossfade = s.rdu.crossfade := by rw [hword]; rfl
  have hrec : (s.rdu.worded p x).1.activeRec =
      { s.rdu.activeRec.keepReport x (s.rdu.seek.isSome && p == s.rdu.active) with data := d } := by
    rw [Rdu.activeRec, hactive, hword, Rdu.keeping_path]
    rfl
  have hwork : s.reportWork p x = (s.rdu.worded p x).1.measureSeek s.cpt.store k (reportQuality x) := by
    rw [State.reportWork, Rdu.keptWork, if_pos rfl, hk]
    rfl
  obtain ⟨hcounts, hfinds, hmoves, hfails⟩ := (s.rdu.worded p x).1.measureSeek_holds s.cpt.store k (reportQuality x)
    (here := here) (by rw [hrec]; exact htuned)
  rw [← hwork, hactive, hrec] at hcounts hfinds hmoves hfails
  rw [← hpath] at hcounts hfinds hmoves hfails
  have hseek : t.rdu.seek = (s.reportWork p x).1.seek := (congrArg Rdu.seek hrdu).trans rfl
  have hended (h : (s.rdu.worded p x).1.SeekEnded (s.reportWork p x).1) : s.rdu.SeekEnded t.rdu := by
    unfold Rdu.SeekEnded at h ⊢
    rw [hactive, hfade, ← hseek, ← hspare, ← hpath] at h
    exact ⟨h.1, fun hm => h.2 (((congrArg Rdu.mode hrdu).trans rfl).symm.trans hm)⟩
  refine ⟨fun hn => ?counts, fun hn hgood => ?finds, fun hn hpoor hsteps => ?moves, fun hn hpoor hsteps => ?fails⟩
  case counts =>
    obtain ⟨hk', hu, hno⟩ := hcounts hn
    exact ⟨hseek.trans hk', by rw [hu]; exact hsettle, hquiet hno (by decide)⟩
  case finds =>
    obtain ⟨he, hu, hone⟩ := hfinds hn hgood
    exact ⟨hended he, by rw [hu]; exact hsettle, State.afterReport_raised hone (show (9 : Fin 14) ≠ 7 by decide)⟩
  case moves =>
    obtain ⟨hk', hu, hno⟩ := hmoves hn hpoor hsteps
    exact ⟨hseek.trans hk', by rw [hu]; rfl, by rw [hu]; rfl, hquiet hno (by decide)⟩
  case fails =>
    obtain ⟨he, hu, hone⟩ := hfails hn hpoor hsteps
    exact ⟨hended he, by rw [hu]; rfl, by rw [hu]; rfl, State.afterReport_raised hone (show (9 : Fin 14) ≠ 7 by decide)⟩

/-- Settles O51: quality and block by their formulas; a kept report by what its word and work leave of its path, and a
seek by its four cases. -/
theorem reportsAreKeptOrDiscarded : Obligations.ReportsAreKeptOrDiscarded := by
  unfold Obligations.ReportsAreKeptOrDiscarded
  refine ⟨reportQuality_eq, fun o q ho hq => ⟨smooth_none q, smooth_some ho hq⟩, fun x qs forced =>
    ⟨preparedBlock_length x qs forced, fun n m d hn hm hd => preparedBlock_getElem? qs forced hn hm hd⟩, ?_⟩
  intro s p x r onChannel
  refine ⟨exec_ignoredReport, fun hc hp => ⟨fun hoff => ?other, fun hon hs => ?settling, fun hon hs => ?kept⟩⟩
  case other =>
    have hoff := Bool.eq_false_iff.mpr (mt (PathRec.onChannel_iff r x.channel).mp hoff)
    exact exec_discardedReport hc hp hoff (by simp)
  case settling =>
    have hon := (PathRec.onChannel_iff r x.channel).mpr hon
    exact exec_discardedReport hc hp hon (fun h => absurd h.2 hs.ne')
  case kept =>
    refine ⟨_, exec_keptReport hc hp hon hs, ?_⟩
    intro q u old
    obtain ⟨hprepared, hsettled, hretuned, hstays⟩ := s.afterReport_record p x hs
    refine ⟨s.afterReport_rest p x, ?_, hsettled, hretuned, hstays, ?_⟩
    · rw [show u.prepared = _ from hprepared]
      congr 2
      rw [Bool.eq_iff_iff]
      simp [Option.isSome_iff_ne_none, and_comm]
    · rintro rfl k hk
      obtain ⟨here, hhere, _⟩ := Option.map_eq_some_iff.mp hon
      have hr : r.tuned.getD 0 = here := by rw [show r.tuned = some here from hhere]; rfl
      rw [hr]
      exact State.afterReport_seek x hk hhere hs

end Sys2Proof.Machine
end

section
/-! PROOF. O52: programme-data words and the announcements that they start and end (R161, R162, R171 to R173, R49). -/

namespace Sys2Proof.Machine

open Sys2Proof

/-! ### The name (R161) -/

/-- A name part before the parts after it. -/
def joinPart (p : Option (Byte × Byte)) (rest : Option (List Byte)) : Option (List Byte) :=
  p.bind (fun x => rest.map (fun l => x.1 :: x.2 :: l))

theorem ProgData.name_eq (d : ProgData) : d.name = d.parts.toList.foldr joinPart (some []) := by
  unfold ProgData.name
  congr
  funext p acc
  rcases p with _ | ⟨_, _⟩ <;> cases acc <;> rfl

theorem foldr_joinPart_none {l : List (Option (Byte × Byte))} (h : none ∈ l) : l.foldr joinPart (some []) = none := by
  induction l with
  | nil => cases h
  | cons p l ih =>
    rcases List.mem_cons.mp h with rfl | h
    · rfl
    · rw [List.foldr_cons, ih h]
      cases p <;> rfl

theorem foldr_joinPart_some {α : Type} (l : List α) (f : α → Byte × Byte) :
    (l.map (fun i => some (f i))).foldr joinPart (some []) = some (l.flatMap (fun i => [(f i).1, (f i).2])) := by
  induction l with
  | nil => rfl
  | cons i l ih =>
    rw [List.map_cons, List.foldr_cons, ih]
    rfl

theorem Tbl.toList_eq {n : Nat} {α : Type} {t : Tbl n α} {f : Fin n → α} (h : ∀ i, t.get i = f i) :
    t.toList = (List.finRange n).map f :=
  congrArg Tbl.toList (show t = Tbl.ofFn f from Tbl.ext_get (fun i => by rw [h i, Tbl.get_ofFn]))

/-- A name is present with all four parts. -/
theorem ProgData.name_holds (d : ProgData) : ((∃ i, d.parts.get i = none) → d.name = none) ∧
    ∀ f : Fin 4 → Byte × Byte, (∀ i, d.parts.get i = some (f i)) →
      d.name = some ((List.finRange 4).flatMap (fun i => [(f i).1, (f i).2])) := by
  rw [ProgData.name_eq]
  refine ⟨fun ⟨i, hi⟩ => foldr_joinPart_none (hi ▸ List.getElem_mem _), fun f hf => ?_⟩
  rw [Tbl.toList_eq hf]
  exact foldr_joinPart_some _ f

/-! ### The words of the active path (R161, R171 to R173) -/

theorem Announcement.count_eq (a : Announcement) (announce : Bool) : a.count announce = { a with
    activeRun := if announce then min 2 (a.activeRun + 1) else 0
    clearRun := if announce then 0 else min 2 (a.clearRun + 1) } := by
  cases announce <;> rfl

theorem activeRun_eq_two (a : Announcement) (announce : Bool) :
    (if announce then min 2 (a.activeRun + 1) else 0) = 2 ↔ announce = true ∧ min 2 (a.activeRun + 1) = 2 := by
  cases announce <;> simp

theorem clearRun_eq_two (a : Announcement) (announce : Bool) :
    (if announce then 0 else min 2 (a.clearRun + 1)) = 2 ↔ announce = false ∧ min 2 (a.clearRun + 1) = 2 := by
  cases announce <;> simp

section
variable {r : Rdu} {traffic announce : Bool}

theorem Rdu.takeFlags_starts (hrun : r.ann.running = false) (hann : announce = true) (htwo : min 2 (r.ann.activeRun + 1) = 2)
    (hen : r.announceEnable = true) (htr : traffic = true) : r.takeFlags traffic announce =
      ({ r with ann := ⟨true, r.ann.claim, 2, 0, 0⟩ }, [.announceStart]) := by
  subst hann htr
  unfold Rdu.takeFlags
  simp [Announcement.count_eq, hrun, hen, htwo]

theorem Rdu.takeFlags_stops (hrun : r.ann.running = true) (hann : announce = false) (htwo : min 2 (r.ann.clearRun + 1) = 2) :
    r.takeFlags traffic announce =
      ({ r with ann := ⟨false, none, 0, 2, r.ann.hold⟩ }, [.announceEnd r.ann.claim .flags]) := by
  subst hann
  unfold Rdu.takeFlags
  simp [Announcement.count_eq, Rdu.endAnnouncement, hrun, htwo]

/-- A FLAGS word that neither starts nor ends an announcement counts. -/
theorem Rdu.takeFlags_counts
    (hno : ¬ (r.ann.running = false ∧ announce = true ∧ min 2 (r.ann.activeRun + 1) = 2 ∧ r.announceEnable = true ∧
      traffic = true))
    (hgoes : ¬ (r.ann.running = true ∧ announce = false ∧ min 2 (r.ann.clearRun + 1) = 2)) :
    r.takeFlags traffic announce = ({ r with ann := r.ann.count announce }, []) := by
  unfold Rdu.takeFlags
  dsimp only
  rw [Announcement.count_eq]
  dsimp only
  cases hrun : r.ann.running with
  | true =>
    rw [if_pos rfl, if_neg]
    rintro ⟨ha, h⟩
    subst ha
    exact hgoes ⟨hrun, rfl, h⟩
  | false =>
    rw [if_neg (by decide), if_neg]
    rintro ⟨ha, h, hen, htr⟩
    subst ha
    exact hno ⟨hrun, rfl, h, hen, htr⟩

end

/-- A tag change ends a running announcement, and sets the runs to 0. -/
theorem Rdu.tagChanged_eq (r : Rdu) : r.tagChanged = ({ r with
    ann := { r.ann.clearRuns with running := false, claim := if r.ann.running = true then none else r.ann.claim } },
    r.ann.ended .programme) :=
  Rdu.endAnnouncement_eq { r with ann := r.ann.clearRuns } .programme

/-- Which words change an accepted tag (R161). -/
theorem ProgData.take_changes (d : ProgData) (tuned : Option Channel) (w : DataWord) :
    (d.take tuned w).2 = true ↔ ∃ v, w = .tagId v ∧ d.tag ≠ some v ∧ d.lastTag = some v := by
  cases w with
  | tagId v =>
    unfold ProgData.take ProgData.takeTag
    dsimp only
    split
    · simp_all
    · split <;> simp_all
  | name i a b => simp [ProgData.take]
  | flags tr an => simp [ProgData.take]
  | alt u v => simp [ProgData.take]

/-- The active path's record with a word taken. -/
def Rdu.recorded (r : Rdu) (w : DataWord) : Rdu :=
  r.setPath r.active { r.path r.active with data := ((r.path r.active).data.take (r.path r.active).tuned w).1 }

theorem Rdu.takeWord_flags (r : Rdu) (traffic announce : Bool) :
    r.takeWord r.active (some (.flags traffic announce)) =
      (r.recorded (.flags traffic announce)).takeFlags traffic announce :=
  if_pos rfl

theorem Rdu.takeWord_noFlags (r : Rdu) {w : DataWord} (hw : ∀ tr an, w ≠ .flags tr an) :
    r.takeWord r.active (some w) =
      if ((r.path r.active).data.take (r.path r.active).tuned w).2 then (r.recorded w).tagChanged else (r.recorded w, []) := by
  unfold Rdu.takeWord
  dsimp only
  rw [if_pos rfl]
  cases w with
  | flags tr an => exact absurd rfl (hw tr an)
  | _ => rfl

section
variable (r : Rdu) (x : Report)

/-- The Radio Unit once a kept report of the active path has written quality and block. -/
def Rdu.measured : Rdu :=
  r.setPath r.active ((r.path r.active).keepReport x (r.seek.isSome && r.active == r.active))

theorem Rdu.measured_active : (r.measured x).active = r.active := Rdu.setPath_active _ _ _

theorem Rdu.measured_data : ((r.measured x).path (r.measured x).active).data = (r.path r.active).data := by
  rw [Rdu.measured_active, Rdu.measured, Rdu.setPath_path]
  rfl

theorem Rdu.recorded_ann (w : DataWord) : ((r.measured x).recorded w).ann = r.ann := by
  rw [Rdu.recorded, Rdu.setPath_ann, Rdu.measured, Rdu.setPath_ann]

theorem Rdu.recorded_announceEnable (w : DataWord) : ((r.measured x).recorded w).announceEnable = r.announceEnable := by
  have hset (q : Rdu) (p : Path) (z : PathRec) : (q.setPath p z).announceEnable = q.announceEnable := by cases p <;> rfl
  rw [Rdu.recorded, hset, Rdu.measured, hset]

theorem Rdu.worded_active : r.worded r.active x = (r.measured x).takeWord (r.measured x).active x.word := by
  rw [Rdu.measured_active]
  rfl

/-- A word of the active path that is no FLAGS word: a tag change, or nothing. -/
theorem Rdu.worded_noFlags (hw : ∀ tr an, x.word ≠ some (.flags tr an)) :
    (∀ v, x.word = some (.tagId v) → (r.path r.active).data.tag ≠ some v → (r.path r.active).data.lastTag = some v →
      (r.worded r.active x).1.ann = { r.ann.clearRuns with
        running := false, claim := if r.ann.running = true then none else r.ann.claim } ∧
      (r.worded r.active x).2 = r.ann.ended .programme) ∧
    ((∀ v, x.word = some (.tagId v) → (r.path r.active).data.tag = some v ∨ (r.path r.active).data.lastTag ≠ some v) →
      (r.worded r.active x).1.ann = r.ann ∧ (r.worded r.active x).2 = []) := by
  rw [Rdu.worded_active, ← r.measured_data x]
  refine ⟨fun v hx htag hlast => ?_, fun hsame => ?_⟩
  · rw [hx, Rdu.takeWord_noFlags (w := .tagId v) _ nofun, if_pos ((ProgData.take_changes _ _ _).mpr ⟨v, rfl, htag, hlast⟩),
      Rdu.tagChanged_eq, Rdu.recorded_ann]
    exact ⟨rfl, rfl⟩
  · cases hx : x.word with
    | none => exact ⟨Rdu.setPath_ann _ _ _, rfl⟩
    | some w =>
      have hno : ¬ (((r.measured x).path (r.measured x).active).data.take
          ((r.measured x).path (r.measured x).active).tuned w).2 = true := by
        rw [ProgData.take_changes]
        rintro ⟨v, rfl, htag, hlast⟩
        exact (hsame v hx).elim htag (fun h => h hlast)
      rw [Rdu.takeWord_noFlags _ (fun tr an h => hw tr an (h ▸ hx)), if_neg hno]
      exact ⟨Rdu.recorded_ann _ _ _, rfl⟩

end

/-! ### The announcement after a kept report (R172, R173) -/

/-- The work of a kept report leaves words and announcement alone, but for a seek that is judged. -/
theorem State.reportWork_keepsWords {s : State} {p : Path} {x : Report}
    (h : p = s.rdu.active → ∀ k, s.rdu.seek = some k → k.measured < 2) :
    (s.rdu.worded p x).1.KeepsWords (s.reportWork p x).1 ∧ ∀ e ∈ (s.reportWork p x).2, e.Other := by
  unfold State.reportWork Rdu.keptWork
  split
  · next hp =>
    cases hk : s.rdu.seek with
    | none => exact ⟨Rdu.watch_keepsWords _ _, Rdu.watch_other _ _⟩
    | some k =>
      obtain ⟨hkeeps, hno⟩ := Rdu.measureSeek_keepsWords (s.rdu.worded p x).1 s.cpt.store k (reportQuality x) (h hp k hk)
      exact ⟨hkeeps, fun e he => absurd (hno ▸ he : e ∈ []) List.not_mem_nil⟩
  · exact Rdu.useSpareReport_keepsWords _ _ _ _

section
variable {s : State} {p : Path} {x : Report} (h : p = s.rdu.active → ∀ k, s.rdu.seek = some k → k.measured < 2)

include h

/-- What the announcement depends on after a kept report is what its word's effects leave. -/
theorem State.afterReport_announced :
    let t := s.afterReport p x
    ∃ r : Rdu, r.ann = (s.rdu.worded p x).1.ann ∧
      let y := (s.rdu.worded p x).2.foldl State.rduEffect { s with rdu := r }
      t.rdu = y.rdu ∧ t.pub = y.pub ∧ t.cle = y.cle ∧ t.lif.queue = y.lif.queue ∧
        t.cpt.notices.get 7 = y.cpt.notices.get 7 := by
  intro t
  obtain ⟨hkeeps, hothers⟩ := State.reportWork_keepsWords h
  refine ⟨(s.reportWork p x).1, hkeeps.ann, ?_⟩
  intro y
  obtain ⟨hrdu, hpub, hcle, hlif, hcpt⟩ := State.others _ hothers y
  have ht : t = ((s.reportWork p x).2.foldl State.rduEffect y).arbitrate :=
    congrArg State.arbitrate (s.setRdu_append _ _ _)
  rw [ht]
  refine ⟨hrdu, hpub, hcle, ?_, hcpt⟩
  rw [State.arbitrate_lif, Lif.arbitrate_frame, hlif]

theorem State.afterReport_words_quiet (hno : (s.rdu.worded p x).2 = []) : let t := s.afterReport p x
    t.rdu.ann = (s.rdu.worded p x).1.ann ∧ t.pub = s.pub ∧ t.cle = s.cle ∧
      t.cpt.notices.get 7 = s.cpt.notices.get 7 := by
  intro t
  obtain ⟨r, hann, hrdu, hpub, hcle, _, hnotice⟩ := State.afterReport_announced h
  rw [hno] at hrdu hpub hcle hnotice
  exact ⟨(congrArg Rdu.ann hrdu).trans hann, hpub, hcle, hnotice⟩

theorem State.afterReport_words_end {claim : Option Serial} {cause : AnnounceCause}
    (hend : (s.rdu.worded p x).2 = [.announceEnd claim cause]) : let t := s.afterReport p x
    t.rdu.ann = (s.rdu.worded p x).1.ann ∧ t.pub = { s.pub with radioClass := .programme } ∧
      t.cpt.notices.get 7 = some (raisedEntry (s.cpt.notices.get 7) (.announceEnded cause)) ∧
      (∀ n, claim = some n → findClaim ⟨s.own, n⟩ t.cle.claims = none) ∧ (claim = none → t.cle = s.cle) := by
  intro t
  obtain ⟨r, hann, hrdu, hpub, hcle, _, hnotice⟩ := State.afterReport_announced h
  rw [hend] at hrdu hpub hcle hnotice
  obtain ⟨hrdu', hpub', hnotice', hgone, hnone⟩ := State.announceEnd_holds s r claim cause
  refine ⟨?_, hpub.trans hpub', hnotice.trans hnotice', fun n hn => ?_, fun hn => hcle.trans (hnone hn)⟩
  · rw [show t.rdu = _ from hrdu.trans hrdu']
    exact hann
  · rw [show t.cle = _ from hcle]
    exact hgone n hn

theorem State.afterReport_words_start (hstart : (s.rdu.worded p x).2 = [.announceStart]) :
    let t := s.afterReport p x
    let n := s.link.nextSerial s.own
    let f : ClaimFields := ⟨.announce, 0, s.cpt.store.announceZones, s.announceRef⟩
    let placed := s.cle.lifecycle = .active ∧ (claimsOf s.own s.cle.claims).length < 4
    t.pub = { s.pub with radioClass := .announce } ∧
    (placed → t.rdu.ann = { (s.rdu.worded p x).1.ann with claim := some n } ∧
      t.cpt.notices.get 7 = some (raisedEntry (s.cpt.notices.get 7) (.announceStarted n)) ∧
      t.cle.claims = insertByKey ⟨⟨s.own, n⟩, f, .held, some .radio⟩ s.cle.claims ∧
      (QueueBounded s → ClaimsBounded s → s.lif.queue.length < 8 → t.lif.queue = s.lif.queue ++ [.hold n f])) ∧
    (¬ placed → t.rdu.ann = (s.rdu.worded p x).1.ann ∧
      t.cpt.notices.get 7 = some (raisedEntry (s.cpt.notices.get 7) .announceUnclaimed) ∧ t.cle = s.cle) := by
  intro t n f placed
  obtain ⟨r, hann, hrdu, hpub, hcle, hqueue, hnotice⟩ := State.afterReport_announced h
  rw [hstart] at hrdu hpub hcle hqueue hnotice
  obtain ⟨hpub', hplaced, hunplaced⟩ := State.announceStart_holds s r
  refine ⟨hpub.trans hpub', fun hp => ?_, fun hp => ?_⟩
  · obtain ⟨hrdu', hnotice', hclaims, hqueued⟩ := hplaced hp
    refine ⟨?_, hnotice.trans hnotice', (congrArg Cle.claims hcle).trans hclaims, fun hq hb hl =>
      hqueue.trans (hqueued hq hb hl)⟩
    rw [show t.rdu = _ from hrdu.trans hrdu', ← hann]
  · obtain ⟨hrdu', hnotice', hcle'⟩ := hunplaced hp
    refine ⟨?_, hnotice.trans hnotice', hcle.trans hcle'⟩
    rw [show t.rdu = _ from hrdu.trans hrdu']
    exact hann

end

/-- What a kept report leaves of the record of its path (R143, R161, R162). -/
theorem State.afterReport_data (s : State) (p : Path) (x : Report) (hsettle : (s.rdu.path p).settle = 0) :
    let u := (s.afterReport p x).rdu.path p
    (u.settle = 0 → DataAfter (s.rdu.path p).tuned (s.rdu.path p).data x.word u.data) ∧
    (u.settle ≠ 0 → u.settle = 2 ∧ u.data = ProgData.cleared) := by
  intro u
  obtain ⟨d, hword, hdata⟩ := s.rdu.worded_keeping p x
  have hmoves := s.rdu.keptWork_retunesOnly s.cpt.store p x (s.rdu.worded p x).1 p
  rw [hword, Rdu.keeping_path, ← hword] at hmoves
  have hmoves : PathRec.Retunes _ u := s.afterReport_path p x p ▸ hmoves
  rcases hmoves with hu | ⟨ch, hu⟩ <;> rw [hu]
  · exact ⟨fun _ => hdata, fun h => absurd hsettle h⟩
  · exact ⟨fun h => absurd h (show (2 : Nat) ≠ 0 by decide), fun _ => ⟨rfl, rfl⟩⟩

/-- Settles O52: the record of the path by what a word leaves of it; the announcement by what its word passes on, since the
work after it leaves the announcement, the Publisher and the claims. -/
theorem radioTakesItsWords : Obligations.RadioTakesItsWords := by
  unfold Obligations.RadioTakesItsWords
  refine ⟨fun s p x hc hp ht hs => ⟨_, exec_keptReport hc hp ht hs, ?_⟩, ProgData.name_holds⟩
  intro d u
  obtain ⟨hdata, hcleared⟩ := s.afterReport_data p x hs
  refine ⟨hdata, hcleared, fun hspare => ?spare, ?active⟩
  case spare =>
    obtain ⟨_, _, _, _, hword⟩ :=
      Rdu.takeWord_holds (s.rdu.setPath p ((s.rdu.path p).keepReport x (s.rdu.seek.isSome && p == s.rdu.active))) p x.word
    rw [Rdu.setPath_active, Rdu.setPath_ann] at hword
    obtain ⟨hann, hno⟩ := hword hspare
    obtain ⟨hann', hpub, hcle, _⟩ := State.afterReport_words_quiet (x := x) (fun h => absurd h hspare) hno
    exact ⟨hann'.trans hann, hpub, hcle⟩
  case active =>
    rintro rfl hk a before after same ends
    have h : s.rdu.active = s.rdu.active → ∀ k, s.rdu.seek = some k → k.measured < 2 := fun _ => hk
    have hquiet := State.afterReport_words_quiet (x := x) h
    refine ⟨fun traffic announce hw => ?flags, fun v hw htag hlast => ?change, fun hno hsame => ?other⟩
    case flags =>
      intro active clear starts stops
      let y := (s.rdu.measured x).recorded (.flags traffic announce)
      have hword : s.rdu.worded s.rdu.active x = y.takeFlags traffic announce := by
        rw [Rdu.worded_active, hw, Rdu.takeWord_flags]
      have hann : y.ann = a := Rdu.recorded_ann _ _ _
      have hen : y.announceEnable = s.rdu.announceEnable := Rdu.recorded_announceEnable _ _ _
      refine ⟨fun ⟨hrun, htwo, hon, htr⟩ => ?starts, fun ⟨hrun, htwo⟩ => ?stops, fun hno hgoes => ?counts⟩
      case starts =>
        obtain ⟨ha, htwo⟩ := (activeRun_eq_two a announce).mp htwo
        have hstart := hword.trans (Rdu.takeFlags_starts (hann ▸ hrun) ha (hann ▸ htwo) (hen ▸ hon) htr)
        obtain ⟨hpub, hplaced, hunplaced⟩ := State.afterReport_words_start (x := x) h (by rw [hstart])
        rw [hstart, hann] at hplaced hunplaced
        refine ⟨hpub, ?_⟩
        intro n f placed
        have hf : f = ⟨.announce, 0, s.cpt.store.announceZones, s.announceRef⟩ := by
          refine congrArg (ClaimFields.mk .announce 0 s.cpt.store.announceZones) ?_
          unfold State.announceRef
          cases s.pub.slots.get s.cpt.store.openSlot with
          | idle => rfl
          | publishing src _ => cases src <;> rfl
        rw [← hf] at hplaced
        exact ⟨hplaced, hunplaced⟩
      case stops =>
        obtain ⟨ha, htwo⟩ := (clearRun_eq_two a announce).mp htwo
        have hend := hword.trans (Rdu.takeFlags_stops (hann ▸ hrun) ha (hann ▸ htwo))
        obtain ⟨hann', hrest⟩ := State.afterReport_words_end (x := x) h (by rw [hend])
        rw [hann] at hrest
        refine ⟨hann'.trans ?_, hrest⟩
        rw [hend, hann]
        subst ha
        simp [active, clear, htwo]
      case counts =>
        have hcount := hword.trans (Rdu.takeFlags_counts (traffic := traffic) (announce := announce)
          (fun ⟨hrun, ha, htwo, hon, htr⟩ => hno ⟨hann ▸ hrun, (activeRun_eq_two a announce).mpr ⟨ha, hann ▸ htwo⟩,
            hen ▸ hon, htr⟩)
          (fun ⟨hrun, ha, htwo⟩ => hgoes ⟨hann ▸ hrun, (clearRun_eq_two a announce).mpr ⟨ha, hann ▸ htwo⟩⟩))
        obtain ⟨hann', hsame⟩ := hquiet (by rw [hcount])
        refine ⟨hann'.trans ?_, hsame⟩
        rw [hcount, hann, Announcement.count_eq]
    case change =>
      obtain ⟨hann, hend⟩ := (s.rdu.worded_noFlags x (by rw [hw]; nofun)).1 v hw htag hlast
      refine ⟨fun hrun => ?_, fun hrun => ?_⟩
      · rw [Announcement.ended, if_pos hrun] at hend
        obtain ⟨hann', hrest⟩ := State.afterReport_words_end h hend
        exact ⟨hann'.trans (by rw [hann, if_pos hrun]; rfl), hrest⟩
      · rw [Announcement.ended, if_neg (by rw [hrun]; decide)] at hend
        obtain ⟨hann', hsame⟩ := hquiet hend
        refine ⟨hann'.trans ?_, hsame⟩
        rw [hann, if_neg (by rw [hrun]; decide), ← hrun]
        rfl
    case other =>
      obtain ⟨hann, hnone⟩ := (s.rdu.worded_noFlags x hno).2 hsame
      obtain ⟨hann', hpub, hcle, hnotice⟩ := hquiet hnone
      exact ⟨hann'.trans hann, hpub, hcle, hnotice⟩

end Sys2Proof.Machine
end

section
/-! PROOF. O53: the reception watch, diversity, probing and scanning at kept reports (R149, R150, R153 to R158, R160, R163 to
R166). -/

namespace Sys2Proof.Machine

open Sys2Proof

/-! ### The mode that the control chooses (R149) -/

/-- The mode for a probe, the switch for scanning and the state of GOOD. -/
def Store.modeWith (c : Store) (probe : Option Probe) (scan good : Bool) : PathBMode :=
  if c.frontEnds ≠ .ab then .idle
  else if probe ≠ none then .probe
  else if scan = true ∧ good = true then .scan
  else if c.diversity = true then .diversity
  else .idle

theorem Rdu.chosenMode_eq (r : Rdu) (c : Store) : r.chosenMode c = c.modeWith r.probe r.scanEnable r.good.above := by
  unfold Rdu.chosenMode Store.modeWith
  simp only [Option.isSome_iff_ne_none]

theorem Store.modeWith_congr (c : Store) {k l : Option Probe} (h : k = none ↔ l = none) (scan good : Bool) :
    c.modeWith k scan good = c.modeWith l scan good := by
  unfold Store.modeWith
  simp only [ne_eq, h]

/-- The control leaves the mode that it chooses for the probe and the detectors it leaves. -/
theorem Rdu.control_mode (r : Rdu) (c : Store) (again : Bool) : (r.control c again).mode =
    c.modeWith (r.control c again).probe r.scanEnable (r.control c again).good.above := by
  obtain ⟨hmode, _, hgood, _, _, hprobe, _⟩ := r.control_holds c again
  rw [hmode, Rdu.chosenMode_eq, hgood]
  exact c.modeWith_congr hprobe.symm _ _

/-! ### The reception watch (R153 to R155) -/

/-- A detector after a compared quality: it turns at the second crossing in a row. -/
def Detector.Watched (d : Detector) (threshold qs : Nat) (e : Detector) : Prop :=
  (decide (threshold ≤ qs) = d.above → e = ⟨d.above, false⟩) ∧
  (decide (threshold ≤ qs) ≠ d.above → d.pending = false → e = ⟨d.above, true⟩) ∧
  (decide (threshold ≤ qs) ≠ d.above → d.pending = true → e = ⟨!d.above, false⟩)

theorem Detector.compare_watched (d : Detector) (threshold qs : Nat) :
    d.Watched threshold qs (d.compare threshold qs).1 := by
  obtain ⟨hstays, hpends, hturns⟩ := d.compare_holds threshold qs
  exact ⟨fun h => by rw [hstays h], fun h k => by rw [hpends h k], fun h k => by rw [hturns h k]⟩

/-- The active path's record where the paths and the roles are the same. -/
theorem Rdu.activeRec_congr {r q : Rdu} (ha : q.active = r.active) (hA : q.pathA = r.pathA) (hB : q.pathB = r.pathB) :
    q.activeRec = r.activeRec := by
  unfold Rdu.activeRec
  rw [ha]
  cases r.active
  · exact hA
  · exact hB

/-- What the watch leaves of the detectors, the AF timer, the probe, the mode and the spare, and the notices it raises. -/
structure Rdu.WatchedBy (r : Rdu) (c : Store) (qs : Nat) (o : RduOut) : Prop where
  low : r.low.Watched c.lowThreshold qs o.1.low
  good : r.good.Watched c.goodThreshold qs o.1.good
  steady : r.low.above = o.1.low.above → o.1.afTimer = r.afTimer ∧ (o.1.probe = none ↔ r.probe = none) ∧
    (r.mode = .probe → o.1.probe = r.probe)
  falls : r.low.above = true → o.1.low.above = false → o.1.afTimer = some 200
  rises : r.low.above = false → o.1.low.above = true → o.1.afTimer = none ∧ o.1.probe = none
  notices : ∀ s : State, (o.2.foldl State.rduEffect s).cpt.notices.get 8 =
    Reported c.goodEdge (.reception .good r.active r.activeRec.tuned r.activeRec.qs)
      (.reception .notGood r.active r.activeRec.tuned r.activeRec.qs) r.good o.1.good
      (Reported c.lowEdge (.reception .regained r.active r.activeRec.tuned r.activeRec.qs)
        (.reception .low r.active r.activeRec.tuned r.activeRec.qs) r.low o.1.low (s.cpt.notices.get 8))
  mode : o.1.mode = c.modeWith o.1.probe r.scanEnable o.1.good.above
  spare : o.1.mode ≠ r.mode → r.crossfade = false →
    (o.1.mode = .scan → o.1.spareRec.tuned = some r.scanPos ∧ o.1.spareRec.settle = 2) ∧
    (o.1.mode = .diversity → r.seek = none → ∀ ch, r.activeRec.tuned = some ch →
      o.1.spareRec.tuned = some ch ∧ o.1.spareRec.settle = 2)

theorem Rdu.watch_watchedBy (r : Rdu) (c : Store) {qs : Nat} (hqs : r.activeRec.qs = some qs) :
    r.WatchedBy c qs (r.watch c) := by
  let q := (r.watchLow c qs).1
  let w := (q.watchGood c qs).1
  obtain ⟨hq, hlow, hsteady, hfalls, hrises, hlowNotice⟩ := r.watchLow_holds c qs
  obtain ⟨hw, hgoodNotice⟩ := q.watchGood_holds c qs
  have hq : q = { r with low := q.low, afTimer := q.afTimer, probe := q.probe } := hq
  have hw : w = { q with good := (q.good.compare c.goodThreshold qs).1 } := hw
  have hqgood : q.good = r.good := by rw [hq]
  have hwgood : w.good = (r.good.compare c.goodThreshold qs).1 := by rw [hw, hqgood]
  have hwlow : w.low = q.low := by rw [hw]
  have hrec : q.activeRec = r.activeRec := Rdu.activeRec_congr (by rw [hq]) (by rw [hq]) (by rw [hq])
  have hwrec : w.activeRec = r.activeRec :=
    (Rdu.activeRec_congr (by rw [hw]) (by rw [hw]) (by rw [hw])).trans hrec
  obtain ⟨hmode, hclow, hcgood, haf, _, hprobe, hprobing, hspare⟩ := w.control_holds c false
  have ho : r.watch c = (w.control c false, ((r.watchLow c qs).2 ++ (q.watchGood c qs).2) ++ []) := by
    unfold Rdu.watch
    rw [hqs]
    rfl
  have hwaf : w.afTimer = q.afTimer := by rw [hw]
  have hwprobe : w.probe = q.probe := by rw [hw]
  rw [ho]
  refine ⟨?low, ?good, ?steady, ?falls, ?rises, ?notices, ?mode, ?spare⟩ <;> dsimp only
  case low =>
    rw [hclow, hwlow]
    exact hlow ▸ Detector.compare_watched _ _ _
  case good =>
    rw [hcgood, hwgood]
    exact Detector.compare_watched _ _ _
  case steady =>
    rw [hclow, hwlow, haf, hwaf, hprobe, hwprobe]
    intro h
    obtain ⟨haf, hk⟩ := hsteady h
    refine ⟨haf, by rw [show q.probe = _ from hk], fun hm => ?_⟩
    rw [hprobing (by rw [hw, hq]; exact hm) rfl, hwprobe]
    exact hk
  case falls =>
    rw [hclow, hwlow, haf, hwaf]
    exact fun h k => (hfalls h k).1
  case rises =>
    rw [hclow, hwlow, haf, hwaf, hprobe, hwprobe]
    exact hrises
  case notices =>
    intro s
    rw [List.append_nil, List.foldl_append, (hgoodNotice _).2, (hlowNotice s).2, hcgood, hclow, hwgood, hwlow, hqgood, hrec,
      show q.active = r.active by rw [hq]]
  case mode =>
    rw [Rdu.control_mode, show w.scanEnable = r.scanEnable by rw [hw, hq]]
  case spare =>
    rw [hmode]
    intro hne hfade
    obtain ⟨hscan, hfollows⟩ := hspare (by rw [show w.mode = r.mode by rw [hw, hq]]; exact hne.symm)
      (by rw [hw, hq]; exact hfade)
    refine ⟨fun h => ?_, fun h hseek ch hch => hfollows h (by rw [hw, hq]; exact hseek) ch (by rw [hwrec]; exact hch)⟩
    rw [← show w.scanPos = r.scanPos by rw [hw, hq]]
    exact hscan h

/-! ### Probing (R156 to R158, R160) -/

theorem Rdu.restartAf_eq (r : Rdu) :
    r.restartAf = { r with afTimer := if r.low.above then r.afTimer else some 200 } := by
  unfold Rdu.restartAf
  split <;> rfl

/-- A probe after a measured report. -/
def Probe.measure (k : Probe) (q : Nat) (seen : Bool) : Probe :=
  { k with phase := .measuring, measured := k.measured + 1, sum := k.sum + q, tagSeen := k.tagSeen || seen }

theorem Rdu.measureProbe_eq {r : Rdu} {k : Probe} (hk : r.probe = some k) (hphase : k.phase ≠ .swapWanted) (c : Store)
    (q : Nat) (w : Option DataWord) :
    let m := k.measure q (wordIsTag w r.activeRec.data.tag)
    r.measureProbe c q w = if k.measured + 1 < 5 then ({ r with probe := some m }, []) else r.judge c m := by
  unfold Rdu.measureProbe
  rw [hk]
  exact if_neg hphase

/-- A probe that ends with every candidate failed: the AF timer runs again while LOW is BELOW, and the control chooses. -/
theorem Rdu.probeFailed_holds (r : Rdu) (c : Store) : let u := (r.probeFailed c).1
    u.probe = none ∧ u.afTimer = (if r.low.above then r.afTimer else some 200) ∧
      u.mode = c.modeWith u.probe r.scanEnable u.good.above := by
  unfold Rdu.probeFailed
  dsimp only
  rw [Rdu.restartAf_eq]
  obtain ⟨_, _, _, haf, _, hprobe, _⟩ := Rdu.control_holds
    { r with probe := none, afTimer := if r.low.above then r.afTimer else some 200 } c false
  exact ⟨hprobe.mpr rfl, haf, Rdu.control_mode _ _ _⟩

/-- A kept report of the spare while probing: it measures a candidate, and the fifth judges it (R157, R158, R160). -/
theorem Rdu.measureProbe_holds {r : Rdu} {k : Probe} (hk : r.probe = some k) (hphase : k.phase ≠ .swapWanted) (c : Store)
    (q : Nat) (w : Option DataWord) :
    let m := k.measure q (wordIsTag w r.activeRec.data.tag)
    let o := r.measureProbe c q w
    (k.measured + 1 < 5 → o.1.probe = some m) ∧
    (5 ≤ k.measured + 1 →
      (r.Succeeds m → o.1.probe = some { m with phase := .swapWanted }) ∧
      (¬ r.Succeeds m → ∀ ch, k.candidates[k.index + 1]? = some ch →
        o.1.probe = some m.moveOn ∧ o.1.path r.spare = r.spareRec.retuned ch) ∧
      (¬ r.Succeeds m → k.candidates.length ≤ k.index + 1 → o.1.probe = none ∧
        o.1.afTimer = (if r.low.above then r.afTimer else some 200) ∧
        o.1.mode = c.modeWith o.1.probe r.scanEnable o.1.good.above ∧ o.2 = [r.reception .probeFailed])) := by
  intro m o
  have ho : o = _ := Rdu.measureProbe_eq hk hphase c q w
  refine ⟨fun hn => ?_, fun hn => ⟨fun hgood => ?_, fun hbad ch hnext => ?_, fun hbad hlast => ?_⟩⟩
  · rw [ho, if_pos hn]
  · rw [ho, if_neg (not_lt.mpr hn), Rdu.judge_of_succeeds hgood]
  · rw [if_neg (not_lt.mpr hn), Rdu.judge_of_not_succeeds hbad, show m.candidates[m.index + 1]? = some ch from hnext] at ho
    rw [ho]
    refine ⟨rfl, ?_⟩
    rw [← Rdu.retune_spareRec, Rdu.spareRec, show (r.retune r.spare ch).spare = r.spare from
      congrArg otherPath (Rdu.retune_active _ _ _)]
    cases r.spare <;> rfl
  · rw [if_neg (not_lt.mpr hn), Rdu.judge_of_not_succeeds hbad,
      show m.candidates[m.index + 1]? = none from List.getElem?_eq_none hlast] at ho
    rw [ho]
    obtain ⟨hprobe, haf, hmode⟩ := r.probeFailed_holds c
    exact ⟨hprobe, haf, hmode, rfl⟩

/-! ### Scanning (R163 to R166) -/

theorem ageStations_eq (l : List StationEntry) : ageStations l =
    (l.filter (fun e => e.seen || decide (e.unseen + 1 < 4))).map
      (fun e => if e.seen then { e with seen := false } else { e with unseen := e.unseen + 1 }) := by
  unfold ageStations
  induction l with
  | nil => rfl
  | cons e l ih =>
    rw [List.filterMap_cons, List.filter_cons, ih]
    cases hseen : e.seen with
    | true => simp [hseen]
    | false => by_cases h : e.unseen + 1 < 4 <;> simp [hseen, h, Config.unseenEnd]

/-- The spare retuned to the scan position, to be measured from the start. -/
def Rdu.scanOn (r : Rdu) : Rdu := { r.retune r.spare r.scanPos with scanMeas := 0, scanSum := 0 }

theorem Rdu.scanOn_holds (r : Rdu) : r.scanOn.scanMeas = 0 ∧ r.scanOn.scanSum = 0 ∧ r.scanOn.scanPos = r.scanPos ∧
    r.scanOn.stations = r.stations ∧ r.scanOn.spareRec = r.spareRec.retuned r.scanPos := by
  have hpos : (r.retune r.spare r.scanPos).scanPos = r.scanPos := by rw [Rdu.retune_rest]
  refine ⟨rfl, rfl, hpos, r.retune_stations _ _, ?_⟩
  rw [← Rdu.retune_spareRec]
  exact Rdu.spareRec_congr rfl rfl rfl

theorem Rdu.nextScan_of_lt {r : Rdu} (h : r.scanPos.val < 410) :
    r.nextScan = (({ r with scanPos := ⟨r.scanPos.val + 1, by omega⟩ } : Rdu).scanOn, []) := by
  unfold Rdu.nextScan
  rw [dif_pos h]
  rfl

theorem Rdu.nextScan_of_last {r : Rdu} (h : ¬ r.scanPos.val < 410) : r.nextScan = (r.endPass.1.scanOn, r.endPass.2) := by
  unfold Rdu.nextScan
  rw [dif_neg h]
  exact congrArg (Prod.mk _) (List.append_nil _)

/-- The scan position moves on, after channel 410 with the end of the pass, and the spare with it (R164, R166). -/
theorem Rdu.nextScan_holds (r : Rdu) : let o := r.nextScan
    o.1.scanMeas = 0 ∧ o.1.scanSum = 0 ∧ o.1.spareRec = r.spareRec.retuned o.1.scanPos ∧
    o.1.scanPos.val = (r.scanPos.val + 1) % 411 ∧ (r.scanPos.val < 410 → o.1.stations = r.stations ∧ o.2 = []) ∧
    (r.scanPos.val = 410 → o.1.stations = ageStations r.stations ∧
      o.2 = [.notice (.scan (ageStations r.stations).length (r.stations.length - (ageStations r.stations).length))]) := by
  have hlt := r.scanPos.isLt
  by_cases h : r.scanPos.val < 410
  · rw [Rdu.nextScan_of_lt h]
    obtain ⟨hmeas, hsum, hpos, hstations, hspare⟩ := Rdu.scanOn_holds { r with scanPos := ⟨r.scanPos.val + 1, by omega⟩ }
    refine ⟨hmeas, hsum, ?_, ?_, fun _ => ⟨hstations, rfl⟩, fun h' => absurd h' h.ne⟩
    · rw [hspare, hpos]
      exact congrArg (PathRec.retuned · _) (Rdu.spareRec_congr rfl rfl rfl)
    · rw [hpos, Nat.mod_eq_of_lt (by omega)]
  · rw [Rdu.nextScan_of_last h]
    obtain ⟨hmeas, hsum, hpos, hstations, hspare⟩ := Rdu.scanOn_holds r.endPass.1
    have hlast : r.scanPos.val = 410 := by omega
    refine ⟨hmeas, hsum, ?_, ?_, fun h' => absurd h' h, fun _ => ⟨hstations, rfl⟩⟩
    · rw [hspare, hpos]
      exact congrArg (PathRec.retuned · _) (Rdu.spareRec_congr rfl rfl rfl)
    · rw [hpos, hlast]
      rfl

theorem Rdu.measureScan_eq (r : Rdu) (q : Nat) : r.measureScan q =
    if r.scanMeas + 1 < 3 then ({ r with scanMeas := r.scanMeas + 1, scanSum := r.scanSum + q }, [])
    else ({ r with stations := enterStation r.scanPos ((r.scanSum + q) / 3) r.spareRec.data r.stations }).nextScan := rfl

/-- A kept report of the spare while scanning: it measures a channel, and the third enters it and moves on. -/
theorem Rdu.measureScan_holds (r : Rdu) (q : Nat) : let o := r.measureScan q
    let sum := r.scanSum + q
    let m := enterStation r.scanPos (sum / 3) r.spareRec.data r.stations
    (r.scanMeas + 1 < 3 → o.1.scanMeas = r.scanMeas + 1 ∧ o.1.scanSum = sum ∧ o.1.stations = r.stations ∧
      o.1.scanPos = r.scanPos) ∧
    (3 ≤ r.scanMeas + 1 → o.1.scanMeas = 0 ∧ o.1.scanSum = 0 ∧ o.1.spareRec = r.spareRec.retuned o.1.scanPos ∧
      o.1.scanPos.val = (r.scanPos.val + 1) % 411 ∧ (r.scanPos.val < 410 → o.1.stations = m ∧ o.2 = []) ∧
      (r.scanPos.val = 410 → o.1.stations = ageStations m ∧
        o.2 = [.notice (.scan (ageStations m).length (m.length - (ageStations m).length))])) := by
  intro o sum m
  have ho : o = _ := r.measureScan_eq q
  refine ⟨fun hn => ?_, fun hn => ?_⟩
  · rw [ho, if_pos hn]
    exact ⟨rfl, rfl, rfl, rfl⟩
  · let z : Rdu := { r with stations := m }
    have ho : o = z.nextScan := by rw [ho, if_neg (not_lt.mpr hn)]
    rw [ho, ← show z.spareRec = r.spareRec from Rdu.spareRec_congr rfl rfl rfl]
    exact z.nextScan_holds

/-! ### Diversity (R150) -/

/-- The diversity run counts kept reports of the spare that are better than the active path by 6. -/
theorem Rdu.compareSpare_counts {r : Rdu} {qs a : Nat} (hqs : r.spareRec.qs = some qs) (ha : r.activeRec.qs = some a)
    (hseek : r.seek = none) (hfade : r.crossfade = false) (htuned : r.spareRec.tuned = r.activeRec.tuned) :
    r.compareSpare.divRun = if a + 6 ≤ qs then min 3 (r.divRun + 1) else 0 := by
  unfold Rdu.compareSpare
  rw [hqs, ha, hseek, hfade]
  dsimp only
  rw [if_pos htuned]
  rfl

/-- It is not counted in a seek, in a crossfade, and where the paths are on different channels or one has no quality. -/
theorem Rdu.compareSpare_stays {r : Rdu} (h : r.seek = none → r.crossfade = false → r.activeRec.qs ≠ none →
    r.spareRec.tuned ≠ r.activeRec.tuned) : r.compareSpare = r := by
  unfold Rdu.compareSpare
  split
  · next hseek hfade _ ha => exact if_neg (h hseek hfade (by rw [ha]; nofun))
  · rfl

/-! ### The whole report -/

theorem Rdu.spare_eq_of_ne {r : Rdu} {p : Path} (h : p ≠ r.active) : r.spare = p := by
  unfold Rdu.spare
  revert h
  cases r.active <;> cases p <;> simp [otherPath]

/-- The spare's record once a kept report of it was written. -/
theorem Rdu.keeping_spareRec {r : Rdu} {p : Path} (h : p ≠ r.active) (x : Report) (d : ProgData) (a : Announcement) :
    (r.keeping p x d a).spareRec = { (r.path p).keepReport x (r.seek.isSome && p == r.active) with data := d } := by
  have hspare : (r.keeping p x d a).spare = p := Rdu.spare_eq_of_ne (r := r.keeping p x d a) h
  rw [Rdu.spareRec, hspare, Rdu.keeping_path]

section
variable {r : Rdu} (c : Store) (q : Nat) (w : Option DataWord)

theorem Rdu.useSpareReport_diversity (hm : r.mode = .diversity) : r.useSpareReport c q w = (r.compareSpare, []) := by
  rw [Rdu.useSpareReport, hm]

theorem Rdu.useSpareReport_probe (hm : r.mode = .probe) (hd : r.deferred = false) :
    r.useSpareReport c q w = r.measureProbe c q w := by
  rw [Rdu.useSpareReport, hm]
  exact if_neg (by rw [hd]; decide)

theorem Rdu.useSpareReport_scan (hm : r.mode = .scan) (hd : r.deferred = false) :
    r.useSpareReport c q w = r.measureScan q := by
  rw [Rdu.useSpareReport, hm]
  exact if_neg (by rw [hd]; decide)

end

/-- Settles O53: each kind of work is followed from the Radio Unit as the report's word leaves it, whose other fields are
those before the report. -/
theorem reportsWatchAndMeasure : Obligations.ReportsWatchAndMeasure := by
  unfold Obligations.ReportsWatchAndMeasure
  intro s p x hc hp ht hs hordered
  refine ⟨_, exec_keptReport hc hp ht hs, ?_⟩
  intro r u c quality qs chosen
  obtain ⟨d, hword, hdata⟩ := s.rdu.worded_keeping p x
  generalize (s.rdu.worded p x).1.ann = ann at hword
  obtain ⟨a, hrdu⟩ := s.afterReport_rdu p x
  have hquiet := State.afterReport_quiet (s := s) (p := p) (x := x)
  have hraised (n : Notice) := State.afterReport_raised (s := s) (p := p) (x := x) (n := n)
  have hnotices := s.afterReport_notices p x
  let y := s.rdu.keeping p x d ann
  have hactiveWork (h : p = r.active) (hseek : r.seek = none) : s.reportWork p x = y.watch c := by
    rw [State.reportWork, hword, Rdu.keptWork, if_pos h, show s.rdu.seek = none from hseek]
    rfl
  have hspareWork (h : p ≠ r.active) : s.reportWork p x = y.useSpareReport c quality x.word := by
    rw [State.reportWork, hword, Rdu.keptWork, if_neg h]
  have harec (h : p ≠ r.active) : y.activeRec = r.activeRec := s.rdu.keeping_activeRec_of_spare p x d ann h
  have hu : u = { (s.reportWork p x).1 with ann := a } := hrdu
  have hspare : u.spareRec = (s.reportWork p x).1.spareRec := s.afterReport_spareRec p x
  have hpath : u.path p = (s.reportWork p x).1.path p := s.afterReport_path p x p
  have hchosen : chosen = c.modeWith u.probe r.scanEnable u.good.above := rfl
  refine ⟨fun hactive hseek => ?watch, fun hne hm => ?diversity, fun hne hm hd k hk hphase => ?probe,
    fun hne hm hd => ?scan⟩
  case watch =>
    have hrec : y.activeRec = { (r.path p).keepReport x (r.seek.isSome && p == r.active) with data := d } := by
      rw [Rdu.activeRec, show y.active = p from hactive.symm]
      exact s.rdu.keeping_path p x d ann
    obtain ⟨hlow, hgood, hsteady, hfalls, hrises, hwnotices, hmode, hmoves⟩ :=
      hactiveWork hactive hseek ▸ y.watch_watchedBy c (qs := qs) (by rw [hrec]; rfl)
    obtain ⟨z, hz, hcpt⟩ := hnotices
    refine ⟨by rw [hu]; exact hlow, by rw [hu]; exact hgood, by rw [hu]; exact hsteady, by rw [hu]; exact hfalls,
      by rw [hu]; exact hrises, ?_, by rw [hchosen, hu]; exact hmode, ?_⟩
    · have hraises := hwnotices z
      rw [hrec, hz 8 (by decide), show y.active = p from hactive.symm] at hraises
      rw [hcpt, hu]
      exact hraises
    · rw [hspare, hu]
      intro hne hfade
      obtain ⟨hscan, hfollows⟩ := hmoves hne hfade
      refine ⟨hscan, fun hm => ?_⟩
      obtain ⟨ch, hch, _⟩ := Option.map_eq_some_iff.mp ht
      rw [hch]
      exact hfollows hm hseek ch (by rw [hrec]; exact hch)
  case diversity =>
    have ho := (hspareWork hne).trans (Rdu.useSpareReport_diversity (r := y) c quality x.word hm)
    have hsrec : y.spareRec = _ := Rdu.keeping_spareRec hne x d ann
    have harec := harec hne
    have hstays := Rdu.compareSpare_stays (r := y)
    rw [harec, hsrec] at hstays
    rw [hu, ho]
    show y.compareSpare.divRun = _
    cases hseek : r.seek with
    | some k => rw [hstays (fun h => absurd (hseek.symm.trans h) nofun)]; rfl
    | none =>
      cases ha : r.activeRec.qs with
      | none => rw [hstays (fun _ _ h => absurd ha h)]; rfl
      | some b =>
        dsimp only
        split
        · next h =>
          exact Rdu.compareSpare_counts (r := y) (qs := qs) (by rw [hsrec]; rfl) (by rw [harec]; exact ha) hseek h.1
            (by rw [hsrec, harec]; exact h.2)
        · next h => rw [hstays (fun _ hfade _ htuned => h ⟨hfade, htuned⟩)]; rfl
  case probe =>
    have ho := (hspareWork hne).trans (Rdu.useSpareReport_probe (r := y) c quality x.word hm hd)
    have harec := harec hne
    have hsparePath : y.spare = p := Rdu.spare_eq_of_ne (r := y) hne
    intro seen sum succeeds
    have hseen : (k.tagSeen || wordIsTag x.word y.activeRec.data.tag) = seen := by
      rw [harec]
      refine congrArg (k.tagSeen || ·) ?_
      rcases x.word with _ | ⟨v⟩ | _ | _ | _
      · rfl
      · cases r.activeRec.data.tag with
        | none => rfl
        | some w => exact Bool.beq_comm
      · rfl
      · rfl
      · rfl
    obtain ⟨hcounts, hjudged⟩ := Rdu.measureProbe_holds (r := y) hk hphase s.cpt.store quality x.word
    rw [← ho, Probe.measure, hseen] at hcounts hjudged
    rw [Rdu.Succeeds, harec] at hjudged
    refine ⟨fun hn => ?_, fun hn => ?_⟩
    · rw [hu]
      exact hcounts hn
    · obtain ⟨hgood, hnext, hlast⟩ := hjudged hn
      refine ⟨fun hsucceeds => ?_, fun hbad ch hch => ?_, fun hbad hlen => ?_⟩
      · rw [hu]
        exact hgood hsucceeds
      · obtain ⟨hk', hretuned⟩ := hnext hbad ch hch
        rw [hsparePath] at hretuned
        rw [hpath, hretuned, hu]
        exact ⟨hk', rfl, rfl⟩
      · obtain ⟨hk', haf, hmode, hone⟩ := hlast hbad hlen
        refine ⟨by rw [hu]; exact hk', by rw [hu]; exact haf, by rw [hchosen, hu]; exact hmode, ?_⟩
        rw [Rdu.reception, harec] at hone
        exact hraised _ hone (show (8 : Fin 14) ≠ 7 by decide)
  case scan =>
    have ho := (hspareWork hne).trans (Rdu.useSpareReport_scan (r := y) c quality x.word hm hd)
    have hsrec : y.spareRec = _ := Rdu.keeping_spareRec hne x d ann
    have hactive : (s.reportWork p x).1.active = r.active := by
      rw [ho]
      exact (y.measureScan_keepsWords quality).1.active
    have hsparePath : (s.reportWork p x).1.path p = (s.reportWork p x).1.spareRec := by
      rw [Rdu.spareRec, Rdu.spare_eq_of_ne (hactive ▸ hne)]
    intro sum mean l ch entered
    obtain ⟨hcounts, hmoves⟩ := y.measureScan_holds quality
    rw [← ho] at hcounts hmoves
    rw [hsrec] at hmoves
    refine ⟨fun hn => ?_, fun hn => ?_⟩
    · rw [hu]
      exact hcounts hn
    · obtain ⟨hmeas, hsum, hretuned, hpos, hgoes, hends⟩ := hmoves hn
      obtain ⟨hpoor, hknown, hroom, hfull⟩ := enterStation_holds ch mean d l hordered
      rw [hpath, hsparePath, hretuned, hu]
      refine ⟨hmeas, hsum, rfl, rfl, hpos, d, enterStation ch mean d l, hdata, fun hlt => ?_, fun hlast => ?_, hpoor, hknown,
        hroom, hfull⟩
      · obtain ⟨hstations, hno⟩ := hgoes hlt
        exact ⟨hstations, hquiet hno (by decide)⟩
      · obtain ⟨hstations, hone⟩ := hends hlast
        rw [ageStations_eq] at hstations hone
        rw [List.length_map] at hone
        exact ⟨hstations, hraised _ hone (show (10 : Fin 14) ≠ 7 by decide)⟩

end Sys2Proof.Machine
end

section
/-! SUPPORT. The pieces of the Radio Unit's work at a block boundary: the crossfade, the swaps of the roles, the AF timer and
the reception hold (R147, R148, R151, R152, R156, R159, R173). -/

namespace Sys2Proof.Machine

open Sys2Proof

/-! ### The crossfade (R152) -/

/-- A mean of two samples with whole weights that sum to 48, rounded, is a sample. -/
theorem crossfadeSample_toInt {n : Nat} (hn : n < 48) (a b : Sample) :
    (crossfadeSample n a b).toInt = (a.toInt * (48 - n) + b.toInt * n + 24) / 48 := by
  have halo := BitVec.le_toInt a
  have hahi := BitVec.toInt_lt (x := a)
  have hblo := BitVec.le_toInt b
  have hbhi := BitVec.toInt_lt (x := b)
  norm_num at halo hahi hblo hbhi
  have hw : (0 : Int) ≤ 48 - n := by omega
  have hn0 : (0 : Int) ≤ n := by omega
  have h1 : -8388608 * (48 - (n : Int)) ≤ a.toInt * (48 - n) := mul_le_mul_of_nonneg_right halo hw
  have h2 : a.toInt * (48 - n) ≤ 8388607 * (48 - (n : Int)) := mul_le_mul_of_nonneg_right (by omega) hw
  have h3 : -8388608 * (n : Int) ≤ b.toInt * n := mul_le_mul_of_nonneg_right hblo hn0
  have h4 : b.toInt * n ≤ 8388607 * (n : Int) := mul_le_mul_of_nonneg_right (by omega) hn0
  unfold crossfadeSample
  rw [BitVec.toInt_ofInt, Int.bmod_eq_of_le] <;> norm_num <;> omega

theorem crossfadeFrom_getElem? (k : Nat) (old new : List StereoSample) {n : Nat} {a b : StereoSample}
    (ha : old[n]? = some a) (hb : new[n]? = some b) : (crossfadeFrom k old new)[n]? =
      some ⟨crossfadeSample (k + n) a.l b.l, crossfadeSample (k + n) a.r b.r⟩ := by
  induction old generalizing k new n with
  | nil => simp at ha
  | cons x old ih =>
    cases new with
    | nil => simp at hb
    | cons y new =>
      cases n with
      | zero =>
        simp only [List.getElem?_cons_zero, Option.some.injEq] at ha hb
        subst ha hb
        rfl
      | succ n =>
        rw [List.getElem?_cons_succ] at ha hb
        rw [crossfadeFrom, List.getElem?_cons_succ, ih (k + 1) new ha hb, Nat.add_right_comm, Nat.add_assoc]

/-- A block faded from an old to a new one, instant by instant. -/
def Faded (old new l : List StereoSample) : Prop :=
  ∀ (n : Nat) (a b : StereoSample), old[n]? = some a → new[n]? = some b → n < 48 →
    ∃ y, l[n]? = some y ∧ y.l.toInt = (a.l.toInt * (48 - n) + b.l.toInt * n + 24) / 48 ∧
      y.r.toInt = (a.r.toInt * (48 - n) + b.r.toInt * n + 24) / 48

theorem crossfadeFrom_faded (old new : List StereoSample) : Faded old new (crossfadeFrom 0 old new) := by
  intro n a b ha hb hn
  refine ⟨_, crossfadeFrom_getElem? 0 old new ha hb, ?_⟩
  rw [Nat.zero_add]
  exact ⟨crossfadeSample_toInt hn _ _, crossfadeSample_toInt hn _ _⟩

/-- The Radio Unit once a crossfade's block was formed, before a retune that waited. -/
def Rdu.faded (r : Rdu) : Rdu :=
  { r with
    radio := crossfadeFrom 0 r.spareRec.preparedOrSilence r.activeRec.preparedOrSilence
    crossfade := false, pathA := r.pathA.taken, pathB := r.pathB.taken }

theorem Rdu.formCrossfade_eq (r : Rdu) :
    r.formCrossfade = if r.deferred then { r.faded.useSpare with deferred := false } else r.faded := rfl

/-- A crossfade formed leaves the roles, the timers and the watch; the paths by retunes alone. -/
theorem Rdu.formCrossfade_rest (r : Rdu) : let u := r.formCrossfade
    u = { r with
      pathA := u.pathA, pathB := u.pathB, radio := r.faded.radio, crossfade := false, deferred := false
      divRun := u.divRun, probe := u.probe, scanMeas := u.scanMeas, scanSum := u.scanSum, ann := u.ann } := by
  intro u
  have hu : u = _ := r.formCrossfade_eq
  rw [hu]
  split
  · rw [Rdu.useSpare_rest]
    rfl
  · next h =>
    have h : r.deferred = false := by simpa using h
    exact (show r.faded = { r.faded with deferred := r.deferred } from rfl).trans (by rw [h]; rfl)

theorem Rdu.formCrossfade_words (r : Rdu) :
    r.faded.KeepsWords r.formCrossfade ∧ r.faded.RetunesOnly r.formCrossfade := by
  rw [Rdu.formCrossfade_eq]
  split
  · exact ⟨(Rdu.useSpare_keepsWords _).trans (Rdu.set_keepsWords rfl rfl rfl rfl),
      (Rdu.RetunesOnly.useSpare _).trans (.of_paths rfl rfl)⟩
  · exact ⟨.refl _, .refl _⟩

/-- Both prepared blocks are taken by a crossfade. -/
theorem Rdu.formCrossfade_prepared (r : Rdu) (p : Path) : (r.formCrossfade.path p).prepared = none := by
  rw [(r.formCrossfade_words.2 p).prepared]
  cases p <;> rfl

/-- The retune that waited for a crossfade is made after it. -/
theorem Rdu.formCrossfade_follows {r : Rdu} (hd : r.deferred = true) (hm : r.mode = .diversity) (hs : r.seek = none)
    (ht : r.activeRec.tuned ≠ none) :
    r.formCrossfade.spareRec.tuned = r.activeRec.tuned ∧ r.formCrossfade.spareRec.settle = 2 := by
  obtain ⟨ch, hch⟩ := Option.ne_none_iff_exists'.mp ht
  have htuned : r.faded.activeRec.tuned = some ch := by
    rw [← hch]
    unfold Rdu.activeRec Rdu.faded
    cases r.active <;> rfl
  have hspare : r.formCrossfade.spareRec = r.faded.useSpare.spareRec := by
    rw [Rdu.formCrossfade_eq, if_pos hd]
    exact Rdu.spareRec_congr rfl rfl rfl
  rw [hspare, r.faded.useSpare_spareRec.2.1 hm hs ch htuned, hch]
  exact ⟨rfl, rfl⟩

/-! ### The swaps of the roles (R151, R152, R159) -/

theorem Rdu.swap_rest (r : Rdu) : r.swap = { r with
    pathA := r.swap.pathA, pathB := r.swap.pathB, active := r.spare, holdOff := 0, divRun := 0, crossfade := true
    deferred := true, low := r.low.clearPending, good := r.good.clearPending, ann := r.ann.clearRuns } := by
  obtain ⟨_, _, active, _, _, _, _, _, _, _, _, _, _, _, _, _, _, _, _, _, _⟩ := r
  cases active <;> rfl

theorem Rdu.swap_records (r : Rdu) : r.swap.activeRec = { r.spareRec with data := r.activeRec.data } ∧
    r.swap.spareRec = r.activeRec ∧ ∀ p, (r.swap.path p).prepared = (r.path p).prepared := by
  obtain ⟨_, _, active, _, _, _, _, _, _, _, _, _, _, _, _, _, _, _, _, _, _⟩ := r
  cases active <;> exact ⟨rfl, rfl, fun p => by cases p <;> rfl⟩

theorem Rdu.diversitySwap_eq (r : Rdu) : r.diversitySwap =
    (r.swap, [.notice (.reception .diversitySwitch r.spare r.spareRec.tuned r.spareRec.qs)]) := by
  rw [Rdu.diversitySwap, Rdu.reception, r.swap_records.1, r.swap_rest]
  rfl

/-- While a crossfade is pending the control leaves the paths. -/
theorem Rdu.control_of_crossfade {r : Rdu} (c : Store) (hx : r.crossfade = true) : ∃ n d,
    r.control c false = { r with mode := r.chosenMode c, divRun := n, deferred := d } := by
  by_cases hm : r.chosenMode c = r.mode
  · exact ⟨_, _, (Rdu.control_of_same hm).trans (by rw [hm])⟩
  · exact ⟨_, _, Rdu.control_of_waiting hm hx⟩

/-- A probe swap ends the probe, restarts the AF timer while LOW is BELOW, and leaves the retune to the crossfade. -/
theorem Rdu.probeSwap_eq (r : Rdu) (c : Store) : ∃ m n d, r.probeSwap c = ({ r.swap with
      probe := none, afTimer := if r.low.above then r.afTimer else some 200, mode := m, divRun := n, deferred := d },
    [.notice (.reception .probeSuccess r.spare r.spareRec.tuned r.spareRec.qs)]) := by
  have hfade : r.swap.crossfade = true := by rw [Rdu.swap_rest]
  have hlow : r.swap.low.above = r.low.above := by rw [Rdu.swap_rest]; rfl
  have haf : r.swap.afTimer = r.afTimer := by rw [Rdu.swap_rest]
  have hactive : r.swap.active = r.spare := by rw [Rdu.swap_rest]
  obtain ⟨n, d, h⟩ := Rdu.control_of_crossfade (r := ({ r.swap with probe := none } : Rdu).restartAf) c
    (by rw [Rdu.restartAf_eq]; exact hfade)
  refine ⟨(({ r.swap with probe := none } : Rdu).restartAf).chosenMode c, n, d, ?_⟩
  unfold Rdu.probeSwap
  dsimp only
  rw [h, Rdu.restartAf_eq, Rdu.reception, r.swap_records.1, hlow, haf, hactive]
  rfl

end Sys2Proof.Machine
end

section
/-! SUPPORT. The Radio Unit at a block boundary: the AF timer, the swap that is due, and the reception hold, one after the
other (R147, R151, R156, R159, R173). -/

namespace Sys2Proof.Machine

open Sys2Proof

/-! ### The AF timer (R156) -/

/-- A probe at its first candidate. -/
def Probe.first (l : List Channel) : Probe := ⟨l, 0, .settling, 0, 0, false⟩

theorem Rdu.candidates_eq (r : Rdu) : r.candidates =
    r.activeRec.data.alt.filter (fun c => decide (r.activeRec.tuned ≠ some c)) := by
  unfold Rdu.candidates
  congr 1
  funext c
  rw [Bool.eq_iff_iff]
  simp

theorem Rdu.afExpires_of_restart {r : Rdu} {c : Store} (h : r.candidates = [] ∨ c.frontEnds ≠ .ab) :
    r.afExpires c = { r with afTimer := some 200 } := by
  unfold Rdu.afExpires
  exact if_neg (fun k => h.elim k.1 (fun h => h k.2))

theorem Rdu.afExpires_of_probe {r : Rdu} {c : Store} (h : r.candidates ≠ []) (hab : c.frontEnds = .ab) :
    r.afExpires c = ({ r with afTimer := none, probe := some (Probe.first r.candidates) } : Rdu).control c false := by
  unfold Rdu.afExpires
  exact if_pos ⟨h, hab⟩

theorem Rdu.chosenMode_of_probe {r : Rdu} {c : Store} (hab : c.frontEnds = .ab) (hp : r.probe ≠ none) :
    r.chosenMode c = .probe := by
  rw [Rdu.chosenMode_eq, Store.modeWith, if_neg (not_not.mpr hab), if_pos hp]

/-- The mode PROBE entered puts the spare on the first candidate. -/
theorem Rdu.useSpare_of_probe {r : Rdu} {ch : Channel} {l : List Channel} (hm : r.mode = .probe)
    (hp : r.probe = some (.first (ch :: l))) :
    r.useSpare = { r.retune r.spare ch with probe := some (.first (ch :: l)) } := by
  unfold Rdu.useSpare
  rw [hm]
  dsimp only
  rw [hp]
  rfl

/-- The control with a new probe: the probe at its first candidate, the mode PROBE, and the spare on the candidate. -/
theorem Rdu.control_of_first {r : Rdu} {c : Store} {ch : Channel} {l : List Channel} (hab : c.frontEnds = .ab)
    (hp : r.probe = some (.first (ch :: l))) : let u := r.control c false
    u.mode = .probe ∧ u.probe = some (.first (ch :: l)) ∧
      (r.mode ≠ .probe → r.crossfade = false → u.spareRec = r.spareRec.retuned ch) := by
  have hm : r.chosenMode c = .probe := Rdu.chosenMode_of_probe hab (by rw [hp]; nofun)
  by_cases hsame : r.chosenMode c = r.mode
  · rw [Rdu.control_of_same hsame]
    exact ⟨hsame.symm.trans hm, hp, fun h => absurd (hsame.symm.trans hm) h⟩
  · cases hfade : r.crossfade with
    | true =>
      rw [Rdu.control_of_waiting hsame hfade]
      exact ⟨hm, hp, fun _ h => absurd h nofun⟩
    | false =>
      let x : Rdu := { r with mode := r.chosenMode c, divRun := if r.chosenMode c = .diversity then r.divRun else 0 }
      have hcontrol : r.control c false =
          { x.retune x.spare ch with probe := some (.first (ch :: l)), deferred := false } := by
        rw [Rdu.control_of_entering hsame hfade, Rdu.useSpare_of_probe (r := x) hm hp]
      rw [hcontrol]
      refine ⟨?_, rfl, fun _ _ => ?_⟩
      · rw [Rdu.retune_rest]
        exact hm
      · exact (Rdu.spareRec_congr rfl rfl rfl).trans (x.retune_spareRec ch)

/-- What a step of the AF timer leaves, for the candidates `found`. -/
structure Rdu.AfStepped (r : Rdu) (c : Store) (found : List Channel) (u : Rdu) : Prop where
  stopped : r.afTimer = none → u.afTimer = none ∧ u.probe = r.probe
  counts : ∀ n, r.afTimer = some n → 1 < n → u.afTimer = some (n - 1) ∧ u.probe = r.probe
  restarts : ∀ n, r.afTimer = some n → n ≤ 1 → found = [] ∨ c.frontEnds ≠ .ab →
    u.afTimer = some 200 ∧ u.probe = r.probe
  probes : ∀ n, r.afTimer = some n → n ≤ 1 → found ≠ [] → c.frontEnds = .ab →
    u.afTimer = none ∧ u.probe = some (.first found) ∧ u.mode = .probe

/-- What the AF timer and the probe that it begins leave of the Radio Unit. -/
structure Rdu.KeepsRoles (r u : Rdu) : Prop where
  active : u.active = r.active
  activeRec : u.activeRec = r.activeRec
  holdOff : u.holdOff = r.holdOff
  crossfade : u.crossfade = r.crossfade
  radio : u.radio = r.radio
  paths : r.RetunesOnly u

theorem Rdu.control_keepsRoles (r : Rdu) (c : Store) (again : Bool) : r.KeepsRoles (r.control c again) where
  active := (r.control_activeRec c again).1
  activeRec := (r.control_activeRec c again).2
  holdOff := by rw [Rdu.control_rest]
  crossfade := by rw [Rdu.control_rest]
  radio := by rw [Rdu.control_rest]
  paths := .control r c again

theorem Rdu.afExpires_keepsRoles (r : Rdu) (c : Store) : r.KeepsRoles (r.afExpires c) := by
  unfold Rdu.afExpires
  split
  · obtain ⟨hactive, hrec, hhold, hfade, hradio, hpaths⟩ := Rdu.control_keepsRoles
      { r with afTimer := none, probe := some ⟨r.candidates, 0, .settling, 0, 0, false⟩ } c false
    exact ⟨hactive, hrec, hhold, hfade, hradio, hpaths⟩
  · exact ⟨rfl, rfl, rfl, rfl, rfl, .refl r⟩

theorem Rdu.tickAf_keepsRoles (r : Rdu) (c : Store) : r.KeepsRoles (r.tickAf c) := by
  unfold Rdu.tickAf
  split
  · exact ⟨rfl, rfl, rfl, rfl, rfl, .refl r⟩
  · split
    · exact ⟨rfl, rfl, rfl, rfl, rfl, .of_paths rfl rfl⟩
    · exact r.afExpires_keepsRoles c

theorem Rdu.tickAf_of_stopped {r : Rdu} (c : Store) (h : r.afTimer = none) : r.tickAf c = r := by
  unfold Rdu.tickAf
  rw [h]

theorem Rdu.tickAf_of_counting {r : Rdu} (c : Store) {n : Nat} (h : r.afTimer = some n) (hn : 1 < n) :
    r.tickAf c = { r with afTimer := some (n - 1) } := by
  unfold Rdu.tickAf
  rw [h]
  exact if_pos hn

theorem Rdu.tickAf_of_expiring {r : Rdu} (c : Store) {n : Nat} (h : r.afTimer = some n) (hn : n ≤ 1) :
    r.tickAf c = r.afExpires c := by
  unfold Rdu.tickAf
  rw [h]
  exact if_neg (not_lt.mpr hn)

theorem Rdu.tickAf_afStepped (r : Rdu) (c : Store) : r.AfStepped c r.candidates (r.tickAf c) where
  stopped h := by
    rw [Rdu.tickAf_of_stopped c h]
    exact ⟨h, rfl⟩
  counts n h hn := by
    rw [Rdu.tickAf_of_counting c h hn]
    exact ⟨rfl, rfl⟩
  restarts n h hn hfound := by
    rw [Rdu.tickAf_of_expiring c h hn, Rdu.afExpires_of_restart hfound]
    exact ⟨rfl, rfl⟩
  probes n h hn hfound hab := by
    rw [Rdu.tickAf_of_expiring c h hn, Rdu.afExpires_of_probe hfound hab]
    obtain ⟨ch, l, hl⟩ := List.exists_cons_of_ne_nil hfound
    rw [hl]
    let x : Rdu := { r with afTimer := none, probe := some (.first (ch :: l)) }
    obtain ⟨hmode, hprobe, _⟩ := Rdu.control_of_first (r := x) hab rfl
    exact ⟨by rw [Rdu.control_rest], hprobe, hmode⟩

/-! ### The swap that is due (R151, R159) -/

/-- The RECEPTION notice of a swap: the new active path, its channel and its quality. -/
def Rdu.swapNotice (r : Rdu) (probed : Bool) : Notice :=
  .reception (if probed then .probeSuccess else .diversitySwitch) r.spare r.spareRec.tuned r.spareRec.qs

/-- What the swap that is due and the AF timer leave of the Radio Unit, and pass on. -/
structure Rdu.SwapsOrTicks (r : Rdu) (c : Store) (probed swaps : Bool) (o : RduOut) : Prop where
  active : o.1.active = if swaps then r.spare else r.active
  holdOff : o.1.holdOff = if swaps then 0 else r.holdOff
  crossfade : o.1.crossfade = (swaps || r.crossfade)
  radio : o.1.radio = r.radio
  prepared : ∀ p, (o.1.path p).prepared = (r.path p).prepared
  activeRec : o.1.activeRec = if swaps then { r.spareRec with data := r.activeRec.data } else r.activeRec
  notices : o.2 = if swaps then [.notice (r.swapNotice probed)] else []
  restarts : probed = true → o.1.probe = none ∧ o.1.afTimer = if r.low.above then r.afTimer else some 200
  steps : probed = false →
    r.AfStepped c (r.activeRec.data.alt.filter (fun c => decide (o.1.activeRec.tuned ≠ some c))) o.1

theorem Rdu.probeSwap_swaps (r : Rdu) (c : Store) : r.SwapsOrTicks c true true (r.probeSwap c) := by
  obtain ⟨m, n, d, h⟩ := r.probeSwap_eq c
  obtain ⟨hactive, _, hprepared⟩ := r.swap_records
  have hfields := r.swap_rest
  rw [h]
  refine ⟨by rw [hfields]; rfl, by rw [hfields]; rfl, by rw [hfields]; rfl, by rw [hfields], fun p => ?_, ?_, rfl,
    fun _ => ⟨rfl, rfl⟩, nofun⟩
  · rw [← hprepared p]
    cases p <;> rfl
  · exact (Rdu.activeRec_congr rfl rfl rfl).trans hactive

/-- The Radio Unit after a swap, or as it was. -/
theorem Rdu.swapIf_holds (r : Rdu) (swaps : Bool) : let y := if swaps then r.swap else r
    y.active = (if swaps then r.spare else r.active) ∧ y.holdOff = (if swaps then 0 else r.holdOff) ∧
    y.crossfade = (swaps || r.crossfade) ∧ y.radio = r.radio ∧ (∀ p, (y.path p).prepared = (r.path p).prepared) ∧
    y.activeRec = (if swaps then { r.spareRec with data := r.activeRec.data } else r.activeRec) ∧
    y.afTimer = r.afTimer ∧ y.probe = r.probe ∧ y.activeRec.data = r.activeRec.data := by
  obtain ⟨hactive, _, hprepared⟩ := r.swap_records
  cases swaps with
  | false => exact ⟨rfl, rfl, rfl, rfl, fun _ => rfl, rfl, rfl, rfl, rfl⟩
  | true =>
    have hrest := r.swap_rest
    dsimp only
    rw [if_pos rfl]
    exact ⟨by rw [hrest]; rfl, by rw [hrest]; rfl, by rw [hrest]; rfl, by rw [hrest], hprepared, hactive, by rw [hrest],
      by rw [hrest], by rw [hactive]⟩

/-- The AF timer after a diversity swap, or after none. -/
theorem Rdu.tickAf_swapsOrTicks (r : Rdu) (c : Store) (swaps : Bool) :
    r.SwapsOrTicks c false swaps ((if swaps then r.swap else r).tickAf c,
      if swaps then [.notice (r.swapNotice false)] else []) := by
  obtain ⟨hactive, hhold, hfade, hradio, hprepared, hrec, haf, hprobe, hdata⟩ := r.swapIf_holds swaps
  generalize (if swaps then r.swap else r) = y at hactive hhold hfade hradio hprepared hrec haf hprobe hdata ⊢
  have hroles := y.tickAf_keepsRoles c
  obtain ⟨hstopped, hcounts, hrestarts, hprobes⟩ := y.tickAf_afStepped c
  rw [haf] at hstopped hcounts hrestarts hprobes
  rw [hprobe] at hstopped hcounts hrestarts
  refine ⟨hroles.active.trans hactive, hroles.holdOff.trans hhold, hroles.crossfade.trans hfade, hroles.radio.trans hradio,
    fun p => (hroles.paths p).prepared.trans (hprepared p), hroles.activeRec.trans hrec, rfl, nofun, fun _ => ?_⟩
  rw [hroles.activeRec, ← hdata, ← y.candidates_eq]
  exact ⟨hstopped, hcounts, hrestarts, hprobes⟩

section
variable {r : Rdu} (c : Store)

theorem Rdu.swapOrTick_of_probe (h : r.holdOff = 20 ∧ r.probeDue = true) : r.swapOrTick c = r.probeSwap c := if_pos h

theorem Rdu.swapOrTick_of_diversity (hp : ¬ (r.holdOff = 20 ∧ r.probeDue = true))
    (hd : r.holdOff = 20 ∧ r.diversityDue = true) :
    r.swapOrTick c = (r.swap.tickAf c, [.notice (r.swapNotice false)]) := by
  have hswap : r.swapOrTick c = r.diversitySwap.andThen (fun q => (q.tickAf c, [])) :=
    (if_neg hp).trans (congrArg (RduOut.andThen · _) (if_pos hd))
  rw [hswap, r.diversitySwap_eq]
  rfl

theorem Rdu.swapOrTick_of_neither (hp : ¬ (r.holdOff = 20 ∧ r.probeDue = true))
    (hd : ¬ (r.holdOff = 20 ∧ r.diversityDue = true)) : r.swapOrTick c = (r.tickAf c, []) :=
  (if_neg hp).trans (congrArg (RduOut.andThen · _) (if_neg hd))

end

theorem Rdu.swapOrTick_holds (r : Rdu) (c : Store) :
    let probed := r.holdOff == 20 && r.probeDue
    r.SwapsOrTicks c probed (probed || (r.holdOff == 20 && r.diversityDue)) (r.swapOrTick c) := by
  intro probed
  by_cases hprobe : r.holdOff = 20 ∧ r.probeDue = true
  · have hprobed : probed = true := by simp [probed, hprobe]
    rw [hprobed, Rdu.swapOrTick_of_probe c hprobe]
    exact r.probeSwap_swaps c
  · have hprobed : probed = false := by simpa [probed] using hprobe
    rw [hprobed, Bool.false_or]
    by_cases hdue : r.holdOff = 20 ∧ r.diversityDue = true
    · have hswaps : (r.holdOff == 20 && r.diversityDue) = true := by simp [hdue]
      rw [hswaps, Rdu.swapOrTick_of_diversity c hprobe hdue]
      exact r.tickAf_swapsOrTicks c true
    · have hswaps : (r.holdOff == 20 && r.diversityDue) = false := by simpa using hdue
      rw [hswaps, Rdu.swapOrTick_of_neither c hprobe hdue]
      exact r.tickAf_swapsOrTicks c false

/-! ### The reception hold (R173) -/

/-- Whether a boundary ends the announcement. -/
def Rdu.endsAnnouncement (r : Rdu) : Bool := r.ann.running && !r.low.above && decide (99 ≤ r.ann.hold)

theorem Rdu.tickReception_of_stays {r : Rdu} (h : r.endsAnnouncement = false) : r.tickReception =
    ({ r with ann := { r.ann with
      hold := if r.ann.running then if r.low.above then 0 else r.ann.hold + 1 else r.ann.hold } }, []) := by
  unfold Rdu.tickReception
  cases hr : r.ann.running with
  | false => rfl
  | true =>
    cases hl : r.low.above with
    | true => rfl
    | false =>
      have hlt : r.ann.hold + 1 < Config.receptionEnd := by
        simp only [Rdu.endsAnnouncement, hr, hl] at h
        simp only [Bool.not_false, Bool.and_self, Bool.true_and, decide_eq_false_iff_not] at h
        simp only [Config.receptionEnd]
        omega
      dsimp only
      rw [if_pos rfl, if_neg (by decide), if_pos hlt]
      rfl

theorem Rdu.tickReception_of_ends {r : Rdu} (h : r.endsAnnouncement = true) : r.tickReception =
    ({ r with ann := { r.ann with hold := r.ann.hold + 1, running := false, claim := none } },
      [.announceEnd r.ann.claim .reception]) := by
  simp only [Rdu.endsAnnouncement, Bool.and_eq_true, Bool.not_eq_true', decide_eq_true_eq] at h
  obtain ⟨⟨hr, hl⟩, hhold⟩ := h
  unfold Rdu.tickReception
  rw [if_pos hr, if_neg (by rw [hl]; decide)]
  dsimp only
  rw [if_neg (by simp only [Config.receptionEnd]; omega), Rdu.endAnnouncement_eq, Announcement.ended]
  dsimp only
  rw [if_pos hr, if_pos hr]

/-- The reception hold writes the announcement alone. -/
theorem Rdu.tickReception_rest (r : Rdu) : r.tickReception.1 = { r with ann := r.tickReception.1.ann } := by
  cases h : r.endsAnnouncement with
  | false => rw [Rdu.tickReception_of_stays h]
  | true => rw [Rdu.tickReception_of_ends h]

end Sys2Proof.Machine
end

section
/-! SUPPORT. A block boundary at the Radio Unit: the RADIO block, the work after it, and what the later parts of the boundary
leave of both (R147, R151, R152, R159, R173). -/

namespace Sys2Proof.Machine

open Sys2Proof

/-! ### The RADIO block (R147) -/

section
variable {r : Rdu} {c : Store}

theorem Rdu.formRadio_of_none (h : c.frontEnds = .none) : r.formRadio c = { r with radio := silentBlock } := if_pos h

theorem Rdu.formRadio_of_crossfade (h : c.frontEnds ≠ .none) (hx : r.crossfade = true) : r.formRadio c = r.formCrossfade :=
  (if_neg h).trans (if_pos hx)

theorem Rdu.formRadio_of_prepared (h : c.frontEnds ≠ .none) (hx : r.crossfade = false) :
    r.formRadio c = { r.setPath r.active r.activeRec.taken with radio := r.activeRec.preparedOrSilence } :=
  (if_neg h).trans (if_neg (by rw [hx]; decide))

end

/-- The Radio Unit once the active path's prepared block is taken. -/
theorem Rdu.setActive_taken (r : Rdu) : let u := r.setPath r.active r.activeRec.taken
    u = { r with pathA := u.pathA, pathB := u.pathB } ∧ u.activeRec = r.activeRec.taken ∧ u.spareRec = r.spareRec := by
  obtain ⟨_, _, active, _, _, _, _, _, _, _, _, _, _, _, _, _, _, _, _, _, _⟩ := r
  cases active <;> exact ⟨rfl, rfl, rfl⟩

/-- What the forming of the RADIO block leaves of the Radio Unit. -/
structure Rdu.KeepsSwaps (r f : Rdu) : Prop where
  active : f.active = r.active
  holdOff : f.holdOff = r.holdOff
  low : f.low = r.low
  afTimer : f.afTimer = r.afTimer
  tuned : f.activeRec.tuned = r.activeRec.tuned
  data : f.activeRec.data = r.activeRec.data

/-- With no crossfade pending the RADIO block takes the active path's prepared block at most. -/
theorem Rdu.formRadio_of_no_crossfade {r : Rdu} (c : Store) (hx : r.crossfade = false) : let f := r.formRadio c
    f = { r with pathA := f.pathA, pathB := f.pathB, radio := f.radio } ∧ f.spareRec = r.spareRec := by
  intro f
  by_cases h : c.frontEnds = .none
  · have hf : f = _ := Rdu.formRadio_of_none h
    rw [hf]
    exact ⟨rfl, Rdu.spareRec_congr rfl rfl rfl⟩
  · obtain ⟨hrest, _, hspare⟩ := r.setActive_taken
    have hf : f = _ := Rdu.formRadio_of_prepared h hx
    rw [hf]
    refine ⟨?_, (Rdu.spareRec_congr rfl rfl rfl).trans hspare⟩
    rw [hrest]

theorem Rdu.formRadio_keepsSwaps (r : Rdu) (c : Store) : r.KeepsSwaps (r.formRadio c) := by
  by_cases h : c.frontEnds = .none
  · rw [Rdu.formRadio_of_none h]
    exact ⟨rfl, rfl, rfl, rfl, rfl, rfl⟩
  · cases hx : r.crossfade with
    | false =>
      obtain ⟨hrest, hactive, _⟩ := r.setActive_taken
      have hrec : (r.formRadio c).activeRec = r.activeRec.taken := by
        rw [Rdu.formRadio_of_prepared h hx]
        exact (Rdu.activeRec_congr rfl rfl rfl).trans hactive
      obtain ⟨hfields, _⟩ := Rdu.formRadio_of_no_crossfade c hx
      exact ⟨by rw [hfields], by rw [hfields], by rw [hfields], by rw [hfields], by rw [hrec]; rfl, by rw [hrec]; rfl⟩
    | true =>
      obtain ⟨hwords, _⟩ := r.formCrossfade_words
      have hfaded : r.faded.activeRec = r.activeRec.taken := by
        unfold Rdu.activeRec Rdu.faded
        cases r.active <;> rfl
      have hrec : r.formCrossfade.activeRec = r.activeRec.taken := by
        rw [← hfaded, Rdu.activeRec, hwords.active]
        exact hwords.activePath
      rw [Rdu.formRadio_of_crossfade h hx]
      have hfields := r.formCrossfade_rest
      exact ⟨by rw [hfields], by rw [hfields], by rw [hfields], by rw [hfields], by rw [hrec]; rfl, by rw [hrec]; rfl⟩

/-! ### The Radio Unit's other work (R147) -/

theorem State.setRdu_notices (s : State) (r : Rdu) (b : Bool) (n : Notice) :
    s.setRdu (r, if b then [.notice n] else []) = { s with rdu := r, cpt := if b then s.cpt.raise n else s.cpt } := by
  cases b <;> rfl

/-- The swaps, the AF timer and the reception hold at a boundary, at the station. -/
structure State.RadioWorked (s t : State) (o : RduOut) (swaps : Bool) (n : Notice) : Prop where
  rdu : t.rdu = { o.1 with ann := t.rdu.ann }
  swapped : t.cpt.notices.get 8 = if swaps then some (raisedEntry (s.cpt.notices.get 8) n) else s.cpt.notices.get 8
  stays : s.rdu.endsAnnouncement = false →
    t.rdu.ann.running = s.rdu.ann.running ∧ t.rdu.ann.claim = s.rdu.ann.claim ∧
      t.rdu.ann.hold = (if s.rdu.ann.running then if s.rdu.low.above then 0 else s.rdu.ann.hold + 1 else s.rdu.ann.hold) ∧
      t.pub.radioClass = s.pub.radioClass ∧ t.cpt.notices.get 7 = s.cpt.notices.get 7
  ends : s.rdu.endsAnnouncement = true →
    t.rdu.ann.running = false ∧ t.rdu.ann.claim = none ∧ t.pub.radioClass = .programme ∧
      t.cpt.notices.get 7 = some (raisedEntry (s.cpt.notices.get 7) (.announceEnded .reception)) ∧
      ∀ n, s.rdu.ann.claim = some n → findClaim ⟨s.own, n⟩ t.cle.claims = none

theorem Rdu.KeepsAnn.endsAnnouncement {r q : Rdu} (h : r.KeepsAnn q) : q.endsAnnouncement = r.endsAnnouncement := by
  unfold Rdu.endsAnnouncement
  rw [h.running, h.low, h.hold]

theorem Rdu.boundary_eq (r : Rdu) (c : Store) : let o := r.riseHoldOff.swapOrTick c
    r.boundary c = (o.1.tickReception.1, o.2 ++ o.1.tickReception.2) := rfl

theorem State.boundaryRadio_worked (s : State) {swaps : Bool} {n : Notice} (hn : n.place = 8)
    (hl : (s.rdu.riseHoldOff.swapOrTick s.cpt.store).2 = if swaps then [.notice n] else []) :
    s.RadioWorked s.boundaryRadio (s.rdu.riseHoldOff.swapOrTick s.cpt.store) swaps n := by
  have hkeeps : s.rdu.KeepsAnn (s.rdu.riseHoldOff.swapOrTick s.cpt.store).1 :=
    .trans (q := s.rdu.riseHoldOff) ⟨rfl, rfl, rfl, rfl⟩ (Rdu.swapOrTick_keepsAnn _ _).1
  have hwork := s.rdu.boundary_eq s.cpt.store
  generalize s.rdu.riseHoldOff.swapOrTick s.cpt.store = o at hl hkeeps hwork ⊢
  have hat (c : Cpt) : (if swaps then c.raise n else c).notices.get 8 =
      if swaps then some (raisedEntry (c.notices.get 8) n) else c.notices.get 8 := by
    cases swaps
    · rfl
    · exact hn ▸ Cpt.raise_place c n
  have hother (c : Cpt) : (if swaps then c.raise n else c).notices.get 7 = c.notices.get 7 := by
    cases swaps
    · rfl
    · exact Cpt.raise_other c n (by rw [hn]; decide)
  let y : State := { s with rdu := o.1.tickReception.1, cpt := if swaps then s.cpt.raise n else s.cpt }
  have ht : s.boundaryRadio = o.1.tickReception.2.foldl State.rduEffect y := by
    unfold State.boundaryRadio
    rw [hwork, State.setRdu_append, hl, State.setRdu_notices]
  cases hends : o.1.endsAnnouncement with
  | false =>
    have ht : s.boundaryRadio = y := by rw [ht, Rdu.tickReception_of_stays hends]; rfl
    have hann : y.rdu = _ := congrArg Prod.fst (Rdu.tickReception_of_stays hends)
    rw [ht]
    refine ⟨o.1.tickReception_rest, hat _, fun _ => ?_, fun h => ?_⟩
    · rw [hann]
      refine ⟨hkeeps.running, hkeeps.claim, ?_, rfl, hother _⟩
      dsimp only
      rw [hkeeps.running, hkeeps.low, hkeeps.hold]
    · rw [← hkeeps.endsAnnouncement, hends] at h
      cases h
  | true =>
    have ht : s.boundaryRadio = y.announceEnd o.1.ann.claim .reception := by
      rw [ht, Rdu.tickReception_of_ends hends]; rfl
    have hann : y.rdu = _ := congrArg Prod.fst (Rdu.tickReception_of_ends hends)
    obtain ⟨hrdu, hpub, hnotice, hclaim, _⟩ := y.announceEnd_holds y.rdu o.1.ann.claim .reception
    have hrdu : s.boundaryRadio.rdu = y.rdu := by rw [ht]; exact hrdu
    refine ⟨?_, ?_, fun h => ?_, fun _ => ?_⟩
    · rw [hrdu]
      exact o.1.tickReception_rest
    · rw [ht]
      have hsame : y.cpt.SameAt 8 (y.announceEnd o.1.ann.claim .reception).cpt :=
        y.rduEffect_sameAt (e := .announceEnd o.1.ann.claim .reception) (by decide : (8 : Fin 14) ≠ 7)
      exact Eq.trans hsame (hat _)
    · rw [← hkeeps.endsAnnouncement, hends] at h
      cases h
    · rw [hrdu, hann, ht]
      refine ⟨rfl, rfl, congrArg Pub.radioClass hpub, hnotice.trans ?_, fun n hc => ?_⟩
      · exact congrArg (fun e => some (raisedEntry e _)) (hother _)
      · have hown : y.own = s.own := by
          unfold State.own
          dsimp only [y]
          cases swaps <;> rfl
        rw [← hown]
        exact hclaim n (hkeeps.claim.trans hc)

/-! ### The parts of a boundary before and after the Radio Unit's (log 4) -/

theorem setClaimState_names (n : ClaimRef) (st : ClaimState) (l : List Claim) :
    (setClaimState n st l).map Claim.name = l.map Claim.name := by
  unfold setClaimState
  rw [List.map_map]
  refine List.map_congr_left fun c _ => ?_
  dsimp only [Function.comp_apply]
  split <;> rfl

theorem Link.tickWindow_names (k : Link) (env : Env) :
    (k.tickWindow env).cle.claims.map Claim.name ⊆ k.cle.claims.map Claim.name := by
  unfold Link.tickWindow
  split
  · exact List.Subset.refl _
  · split
    · split
      · exact fun n hn => Eq.mp (congrArg (n ∈ ·) (setClaimState_names _ _ _)) hn
      · unfold Link.expireWindow
        split
        · rw [GoodLink.recompose_claims]
          exact fun n hn => Eq.mp (congrArg (n ∈ ·) (setClaimState_names _ _ _)) hn
        · exact List.map_subset _ List.filter_sublist.subset
    · exact List.Subset.refl _

theorem ageStep_name {c d : Claim} (h : ageStep c = some d) : d.name = c.name := by
  unfold ageStep at h
  split at h
  · split at h <;> cases h
    rfl
  · cases h
    rfl

theorem ageBids_names (l : List Claim) : (ageBids l).map Claim.name ⊆ l.map Claim.name := by
  intro n hn
  obtain ⟨d, hd, rfl⟩ := List.mem_map.mp hn
  rw [ageBids_eq] at hd
  obtain ⟨c, hc, hstep⟩ := List.mem_filterMap.mp hd
  rw [ageStep_name hstep]
  exact List.mem_map_of_mem hc

theorem findClaim_eq_none_iff {n : ClaimRef} {l : List Claim} : findClaim n l = none ↔ n ∉ l.map Claim.name := by
  refine ⟨findClaim_none, fun h => List.find?_eq_none.mpr fun c hc heq => h ?_⟩
  exact List.mem_map.mpr ⟨c, hc, by simpa using heq⟩

/-- The claims' and peers' ages make no claim, and raise CLAIM and PEER notices alone. -/
theorem State.boundaryClaims_boundaryPeers (x : State) : let z := x.boundaryClaims.boundaryPeers
    z.rdu = x.rdu ∧ z.pub = x.pub ∧ (∀ i : Fin 14, i ≠ 3 → i ≠ 5 → x.cpt.SameAt i z.cpt) ∧
      ∀ n, findClaim n x.cle.claims = none → findClaim n z.cle.claims = none := by
  obtain ⟨hclaims, _, _, hraised, _⟩ := x.boundaryClaims.boundaryPeers_holds
  refine ⟨x.boundaryClaims.boundaryPeers_rdu, x.boundaryClaims.boundaryPeers_pub, fun i h3 h5 => ?_, fun n hn => ?_⟩
  · rw [hraised]
    refine Cpt.SameAt.trans (d := x.boundaryClaims.cpt) (Link.tickWindow_sameAt x.link x.env h3) ?_
    refine Cpt.raiseAll_sameAt _ fun m hm => ?_
    obtain ⟨p, _, rfl⟩ := List.mem_map.mp hm
    exact h5.symm
  · rw [findClaim_eq_none_iff] at hn ⊢
    rw [hclaims]
    intro hm
    have hbids := ageBids_names (x.link.tickWindow x.env).cle.claims (List.map_subset _ List.filter_sublist.subset hm)
    exact hn (Link.tickWindow_names x.link x.env hbids)

/-- The counters at the end of a boundary leave the Radio Unit, the Publisher, the notices and the claims. -/
theorem State.boundaryRun_worked (s : State) : s.boundaryRun.rdu = s.boundaryWorked.rdu ∧
    s.boundaryRun.pub = s.boundaryWorked.pub ∧ s.boundaryRun.cpt = s.boundaryWorked.cpt ∧
    s.boundaryRun.cle.claims = s.boundaryWorked.cle.claims := by
  rw [State.boundaryRun_eq]
  generalize s.boundaryWorked = z
  split
  · exact ⟨rfl, rfl, Link.tickCadence_cpt _ _, (Link.tickCadence_others _ _).1⟩
  · exact ⟨rfl, rfl, rfl, rfl⟩

/-- The parts of a boundary after the Radio Unit's work leave it, the Publisher and the other notices, and make no claim. -/
theorem State.boundaryRun_afterRadio (s : State) : let x := s.boundaryBuilt.boundaryRadio
    s.boundaryRun.rdu = x.rdu ∧ s.boundaryRun.pub = x.pub ∧
      (∀ i : Fin 14, i ≠ 3 → i ≠ 5 → x.cpt.SameAt i s.boundaryRun.cpt) ∧
      ∀ n, findClaim n x.cle.claims = none → findClaim n s.boundaryRun.cle.claims = none := by
  obtain ⟨hrdu, hpub, hcpt, hclaims⟩ := s.boundaryRun_worked
  rw [hrdu, hpub, hcpt, hclaims, State.boundaryWorked]
  exact s.boundaryBuilt.boundaryRadio.boundaryClaims_boundaryPeers

/-- The parts of a boundary before the Radio Unit's work leave RECEPTION and ANNOUNCE, and the class of RADIO. -/
theorem State.boundaryBuilt_beforeRadio (s : State) {i : Fin 14} (hi : i = 7 ∨ i = 8) :
    s.cpt.SameAt i s.boundaryBuilt.cpt ∧ s.boundaryBuilt.pub.radioClass = s.pub.radioClass := by
  constructor
  · have hplaces : i ≠ 0 ∧ i ≠ 1 ∧ i ≠ 3 ∧ i ≠ 4 ∧ i ≠ 6 ∧ i ≠ 11 ∧ i ≠ 12 := by
      rcases hi with rfl | rfl <;> decide
    obtain ⟨h0, h1, h3, h4, h6, h11, h12⟩ := hplaces
    unfold State.boundaryBuilt
    dsimp only
    rw [boundaryPublish_cpt, boundaryUplink_cpt, boundaryMix_cpt]
    have hidle : s.cpt.SameAt i s.boundaryOutput.boundaryLevels.boundaryIdle.cpt :=
      ((s.boundaryOutput_sameAt h1 h11).trans (s.boundaryOutput.boundaryLevels_sameAt h12)).trans
        (s.boundaryOutput.boundaryLevels.boundaryIdle_sameAt h0 h3)
    generalize s.boundaryOutput.boundaryLevels.boundaryIdle = x at hidle ⊢
    have hpickup := (x.boundaryRadioBlock.boundaryDecide s.mixView).boundaryPickup_sameAt (i := i) s.mixView h4
    generalize (x.boundaryRadioBlock.boundaryDecide s.mixView).boundaryPickup s.mixView = y at hpickup ⊢
    exact hidle.trans (hpickup.trans (y.boundaryIntake_sameAt h6))
  · obtain ⟨_, hpub, _⟩ := s.boundaryBuilding_slots
    have hbuilt (y : State) (l : List PubSlotNo) (b : Bool) : (l.foldl (State.publishSlot b) y).pub = y.pub := by
      induction l generalizing y with
      | nil => rfl
      | cons j l ih =>
        rw [List.foldl_cons, ih]
        unfold State.publishSlot
        split <;> rfl
    rw [State.boundaryBuilt_eq, State.boundaryPublish]
    show (Pub.built _).radioClass = _
    rw [hbuilt, hpub]
    rfl

end Sys2Proof.Machine
end

section
/-! PROOF. O54: the crossfade, the swaps, the AF timer, the pass end and the reception hold, alone and at a block boundary
(R147, R148, R151, R152, R156, R159, R164, R166, R173). -/

namespace Sys2Proof.Machine

open Sys2Proof

/-! ### The events with rows of their own -/

theorem exec_crossfade_holds (s : State) (hx : s.rdu.crossfade = true) :
    ∃ t, exec .crossfade s = .next t ∧ t = { s with rdu := t.rdu } ∧ t.rdu.crossfade = false ∧ t.rdu.deferred = false ∧
      t.rdu.pathA.prepared = none ∧ t.rdu.pathB.prepared = none ∧ t.rdu.active = s.rdu.active ∧
      (s.rdu.deferred = true → s.rdu.mode = .diversity → s.rdu.seek = none → s.rdu.activeRec.tuned ≠ none →
        t.rdu.spareRec.tuned = s.rdu.activeRec.tuned ∧ t.rdu.spareRec.settle = 2) ∧
      Faded s.rdu.spareRec.preparedOrSilence s.rdu.activeRec.preparedOrSilence t.rdu.radio := by
  have hexec : exec .crossfade s = .next { s with rdu := s.rdu.formCrossfade } := by
    rw [exec_crossfade]
    exact if_pos hx
  have hrest := s.rdu.formCrossfade_rest
  refine ⟨_, hexec, rfl, by rw [hrest], by rw [hrest], s.rdu.formCrossfade_prepared .a, s.rdu.formCrossfade_prepared .b,
    by rw [hrest], Rdu.formCrossfade_follows, ?_⟩
  rw [hrest]
  exact crossfadeFrom_faded _ _

/-- The hold-off counter at 20 once it rose from 19, or stayed. -/
theorem Rdu.riseHoldOff_of_top {r : Rdu} (h : r.holdOff = 19 ∨ r.holdOff = 20) : r.riseHoldOff.holdOff = Config.holdOffTop := by
  rcases h with h | h <;> simp [Rdu.riseHoldOff, h, Config.holdOffTop]

theorem exec_diversitySwap_holds (s : State) (hm : s.rdu.mode = .diversity) (hrun : s.rdu.divRun = 3)
    (hhold : s.rdu.holdOff = 19 ∨ s.rdu.holdOff = 20) :
    let r := s.rdu
    ∃ t, exec .diversitySwap s = .next t ∧
      t = { s with rdu := t.rdu, cpt := t.cpt } ∧ t.rdu.active = r.spare ∧ t.rdu.holdOff = 0 ∧ t.rdu.crossfade = true ∧
      t.rdu.divRun = 0 ∧ t.rdu.activeRec = { r.spareRec with data := r.activeRec.data } ∧ t.rdu.spareRec = r.activeRec ∧
      t.cpt = s.cpt.raise (.reception .diversitySwitch r.spare r.spareRec.tuned r.spareRec.qs) := by
  intro r
  have hdue : r.diversityDue = true := by simp [Rdu.diversityDue, r, hm, hrun, Config.divRunEnd]
  have hexec : exec .diversitySwap s = .next (s.setRdu r.riseHoldOff.diversitySwap) := by
    rw [exec_diversitySwap]
    exact if_pos ⟨hdue, Rdu.riseHoldOff_of_top hhold⟩
  obtain ⟨hactive, hspare, _⟩ := r.riseHoldOff.swap_records
  have hrest := r.riseHoldOff.swap_rest
  rw [Rdu.diversitySwap_eq] at hexec
  refine ⟨_, hexec, rfl, ?_, ?_, ?_, ?_, hactive, hspare, rfl⟩
  · show r.riseHoldOff.swap.active = _
    rw [hrest]; rfl
  · show r.riseHoldOff.swap.holdOff = _
    rw [hrest]
  · show r.riseHoldOff.swap.crossfade = _
    rw [hrest]
  · show r.riseHoldOff.swap.divRun = _
    rw [hrest]

theorem exec_probeSwap_holds (s : State) {p : Probe} (hp : s.rdu.probe = some p) (hphase : p.phase = .swapWanted)
    (hhold : s.rdu.holdOff = 19 ∨ s.rdu.holdOff = 20) :
    let r := s.rdu
    ∃ t, exec .probeSwap s = .next t ∧
      t = { s with rdu := t.rdu, cpt := t.cpt } ∧ t.rdu.active = r.spare ∧ t.rdu.holdOff = 0 ∧ t.rdu.crossfade = true ∧
      t.rdu.probe = none ∧ t.rdu.afTimer = (if r.low.above then r.afTimer else some 200) ∧
      t.cpt = s.cpt.raise (.reception .probeSuccess r.spare r.spareRec.tuned r.spareRec.qs) := by
  intro r
  have hdue : r.probeDue = true := by simp [Rdu.probeDue, r, hp, hphase]
  have hexec : exec .probeSwap s = .next (s.setRdu (r.riseHoldOff.probeSwap s.cpt.store)) := by
    rw [exec_probeSwap]
    exact if_pos ⟨hdue, Rdu.riseHoldOff_of_top hhold⟩
  obtain ⟨m, n, d, hswap⟩ := r.riseHoldOff.probeSwap_eq s.cpt.store
  have hrest := r.riseHoldOff.swap_rest
  rw [hswap] at hexec
  refine ⟨_, hexec, rfl, ?_, ?_, ?_, rfl, rfl, rfl⟩
  · show r.riseHoldOff.swap.active = _
    rw [hrest]; rfl
  · show r.riseHoldOff.swap.holdOff = _
    rw [hrest]
  · show r.riseHoldOff.swap.crossfade = _
    rw [hrest]

theorem exec_afTimerExpiry_eq {s : State} (h : s.rdu.afTimer = some 1) :
    exec .afTimerExpiry s = .next { s with rdu := s.rdu.afExpires s.cpt.store } := by
  rw [exec_afTimerExpiry]
  exact if_pos h

theorem exec_afTimerExpiry_probes {s : State} (h : s.rdu.afTimer = some 1) (hab : s.cpt.store.frontEnds = .ab) {c : Channel}
    {l : List Channel} (hfound : s.rdu.candidates = c :: l) : ∃ t, exec .afTimerExpiry s = .next t ∧
      t = { s with rdu := t.rdu } ∧ t.rdu.afTimer = none ∧ t.rdu.mode = .probe ∧
      t.rdu.probe = some ⟨c :: l, 0, .settling, 0, 0, false⟩ ∧
      (s.rdu.mode ≠ .probe → s.rdu.crossfade = false → t.rdu.spareRec.tuned = some c ∧ t.rdu.spareRec.settle = 2) := by
  let x : Rdu := { s.rdu with afTimer := none, probe := some (.first (c :: l)) }
  have hexp : s.rdu.afExpires s.cpt.store = x.control s.cpt.store false := by
    rw [Rdu.afExpires_of_probe (by rw [hfound]; nofun) hab, hfound]
  obtain ⟨hmode, hprobe, hspare⟩ := Rdu.control_of_first (r := x) hab rfl
  refine ⟨_, exec_afTimerExpiry_eq h, rfl, ?_⟩
  dsimp only
  rw [hexp]
  refine ⟨by rw [Rdu.control_rest], hmode, hprobe, fun hm hx => ?_⟩
  rw [hspare hm hx]
  exact ⟨rfl, rfl⟩

theorem mem_ageStations {l : List StationEntry} {e : StationEntry} (h : e ∈ l) :
    (e.seen = true → { e with seen := false } ∈ ageStations l) ∧
    (e.seen = false → e.unseen + 1 < 4 → { e with unseen := e.unseen + 1 } ∈ ageStations l) := by
  rw [ageStations_eq]
  refine ⟨fun hseen => List.mem_map.mpr ⟨e, List.mem_filter.mpr ⟨h, by simp [hseen]⟩, if_pos hseen⟩, fun hseen hn => ?_⟩
  exact List.mem_map.mpr ⟨e, List.mem_filter.mpr ⟨h, by simp [hn]⟩, if_neg (by simp [hseen])⟩

theorem exec_scanPassEnd_holds (s : State) (hm : s.rdu.mode = .scan) (hpos : s.rdu.scanPos = 410) :
    let r := s.rdu
    ∃ t, exec .scanPassEnd s = .next t ∧
      t = { s with rdu := t.rdu, cpt := t.cpt } ∧ t.rdu.scanPos = 0 ∧ t.rdu.spareRec.tuned = some 0 ∧
      (∀ e ∈ r.stations, (e.seen = true → { e with seen := false } ∈ t.rdu.stations) ∧
        (e.seen = false → e.unseen + 1 < 4 → { e with unseen := e.unseen + 1 } ∈ t.rdu.stations)) ∧
      t.rdu.stations.length = (r.stations.filter (fun e => e.seen || decide (e.unseen + 1 < 4))).length ∧
      t.cpt = s.cpt.raise (.scan t.rdu.stations.length (r.stations.length - t.rdu.stations.length)) := by
  intro r
  have hexec : exec .scanPassEnd s = .next (s.setRdu r.nextScan) := by
    rw [exec_scanPassEnd]
    exact if_pos ⟨hm, hpos⟩
  obtain ⟨_, _, hspare, hnext, _, hend⟩ := r.nextScan_holds
  obtain ⟨hstations, hnotice⟩ := hend (congrArg Fin.val hpos)
  have hzero : r.nextScan.1.scanPos = 0 := by
    refine Fin.ext (hnext.trans ?_)
    rw [show r.scanPos.val = 410 from congrArg Fin.val hpos]
    rfl
  have hset : s.setRdu r.nextScan = { s with
      rdu := r.nextScan.1
      cpt := s.cpt.raise (.scan r.nextScan.1.stations.length (r.stations.length - r.nextScan.1.stations.length)) } := by
    unfold State.setRdu
    rw [hnotice, hstations]
    rfl
  refine ⟨_, hexec, ?_⟩
  rw [hset]
  refine ⟨rfl, hzero, by rw [hspare, hzero]; rfl, fun e he => ?_, ?_, rfl⟩
  · rw [hstations]
    exact mem_ageStations he
  · rw [hstations, ageStations_eq, List.length_map]

theorem exec_receptionHoldExpiry_holds (s : State) (hr : s.rdu.ann.running = true) (hl : s.rdu.low.above = false)
    (hh : s.rdu.ann.hold = 99) : ∃ t, exec .receptionHoldExpiry s = .next t ∧
      t.rdu.ann.running = false ∧ t.rdu.ann.claim = none ∧ t.pub.radioClass = .programme ∧
      t.cpt.notices.get 7 = some (raisedEntry (s.cpt.notices.get 7) (.announceEnded .reception)) ∧
      (∀ n, s.rdu.ann.claim = some n → findClaim ⟨s.own, n⟩ t.cle.claims = none) ∧
      t = { s with lif := t.lif, cle := t.cle, pub := t.pub, rdu := t.rdu, cpt := t.cpt } := by
  have hexec : exec .receptionHoldExpiry s = .next (s.setRdu s.rdu.tickReception).arbitrate := by
    rw [exec_receptionHoldExpiry]
    exact if_pos ⟨hr, hl, by rw [hh]; rfl⟩
  have hends : s.rdu.endsAnnouncement = true := by simp [Rdu.endsAnnouncement, hr, hl, hh]
  have hrest := s.setRdu_rest s.rdu.tickReception
  have htick := Rdu.tickReception_of_ends hends
  obtain ⟨hrdu, hpub, hnotice, hclaim, _⟩ := s.announceEnd_holds s.rdu.tickReception.1 s.rdu.ann.claim .reception
  have hset : s.setRdu s.rdu.tickReception =
      ({ s with rdu := s.rdu.tickReception.1 } : State).announceEnd s.rdu.ann.claim .reception := by
    unfold State.setRdu
    rw [htick]
    rfl
  rw [← hset] at hrdu hpub hnotice hclaim
  refine ⟨_, hexec, ?_, ?_, congrArg Pub.radioClass hpub, hnotice, hclaim, ?_⟩
  · rw [State.arbitrate_rdu, hrdu, htick]
  · rw [State.arbitrate_rdu, hrdu, htick]
  · dsimp only at hrest ⊢
    show State.arbitrate _ = _
    rw [hrest]
    rfl

end Sys2Proof.Machine
end

section
/-! PROOF. O54, the block boundary: what the Radio Unit does at each boundary outside CONFIG. -/

namespace Sys2Proof.Machine

open Sys2Proof

/-! ### The swap that is due, told by the state as the boundary begins (R148, R151, R159) -/

/-- Whether a boundary makes a probe swap, where no crossfade stands in its way. -/
def Rdu.probesNext (r : Rdu) : Bool := min 20 (r.holdOff + 1) == 20 && r.probe.any (fun p => p.phase == .swapWanted)

/-- Whether a boundary makes a swap, where no crossfade stands in its way. -/
def Rdu.swapsNext (r : Rdu) : Bool :=
  r.probesNext || (min 20 (r.holdOff + 1) == 20 && r.mode == .diversity && r.divRun == 3)

/-- Below 19 the hold-off counter does not reach 20, and no swap is made. -/
theorem Rdu.swapsNext_of_lt {r : Rdu} (h : r.holdOff < 19) : r.probesNext = false ∧ r.swapsNext = false := by
  have hrise : (min 20 (r.holdOff + 1) == 20) = false := by
    rw [beq_eq_false_iff_ne]
    omega
  simp [Rdu.swapsNext, Rdu.probesNext, hrise]

theorem Rdu.probesNext_eq (r : Rdu) :
    r.probesNext = (r.riseHoldOff.holdOff == 20 && r.riseHoldOff.probeDue) := rfl

theorem Rdu.swapsNext_eq (r : Rdu) : r.swapsNext =
    (r.probesNext || (r.riseHoldOff.holdOff == 20 && r.riseHoldOff.diversityDue)) :=
  congrArg (r.probesNext || ·) (Bool.and_assoc _ _ _)

/-- A boundary whose hold-off counter leaves a pending crossfade time makes the swap that the state as it begins tells. -/
theorem Rdu.formRadio_swapsNext {r : Rdu} (c : Store) (h : r.crossfade = false ∨ r.holdOff < 19) :
    (r.formRadio c).probesNext = r.probesNext ∧ (r.formRadio c).swapsNext = r.swapsNext ∧
      (r.swapsNext = true → r.crossfade = false) := by
  rcases h with h | h
  · obtain ⟨hf, _⟩ := Rdu.formRadio_of_no_crossfade c h
    rw [hf]
    exact ⟨rfl, rfl, fun _ => h⟩
  · obtain ⟨hprobe, hswap⟩ := Rdu.swapsNext_of_lt h
    obtain ⟨hfprobe, hfswap⟩ := Rdu.swapsNext_of_lt (r := r.formRadio c) (by rw [(r.formRadio_keepsSwaps c).holdOff]; exact h)
    refine ⟨hfprobe.trans hprobe.symm, hfswap.trans hswap.symm, fun k => ?_⟩
    rw [hswap] at k
    cases k

/-! ### The RADIO block (R147, R152) -/

theorem Rdu.formRadio_crossfade {r : Rdu} {c : Store} (h : c.frontEnds ≠ .none) : (r.formRadio c).crossfade = false := by
  cases hx : r.crossfade with
  | false =>
    rw [(Rdu.formRadio_of_no_crossfade c hx).1]
    exact hx
  | true => rw [Rdu.formRadio_of_crossfade h hx, Rdu.formCrossfade_rest]

/-- The RADIO block of a boundary, and the prepared blocks that it takes. -/
theorem Rdu.formRadio_blocks (r : Rdu) (c : Store) : let f := r.formRadio c
    (c.frontEnds = .none → f.radio = List.replicate 48 StereoSample.zero) ∧
    (c.frontEnds ≠ .none → r.crossfade = false → f.radio = r.activeRec.preparedOrSilence ∧
      (f.path r.active).prepared = none ∧ (f.path r.spare).prepared = r.spareRec.prepared) ∧
    (c.frontEnds ≠ .none → r.crossfade = true →
      Faded r.spareRec.preparedOrSilence r.activeRec.preparedOrSilence f.radio ∧ ∀ p, (f.path p).prepared = none) := by
  intro f
  refine ⟨fun h => ?_, fun h hx => ?_, fun h hx => ?_⟩
  · have hf : f = _ := Rdu.formRadio_of_none h
    rw [hf]
    rfl
  · have hf : f = _ := Rdu.formRadio_of_prepared h hx
    rw [hf]
    refine ⟨rfl, ?_, ?_⟩
    · cases r.active <;> rfl
    · unfold Rdu.spareRec Rdu.spare
      cases r.active <;> rfl
  · have hf : f = _ := Rdu.formRadio_of_crossfade h hx
    rw [hf]
    refine ⟨?_, r.formCrossfade_prepared⟩
    rw [Rdu.formCrossfade_rest]
    exact crossfadeFrom_faded _ _

theorem Rdu.taken_both {r : Rdu} (h : ∀ p, (r.path p).prepared = none) :
    r.pathA.prepared = none ∧ r.pathB.prepared = none := ⟨h .a, h .b⟩

/-! ### The boundary (R147) -/

/-- The Radio Unit's work at a boundary after the RADIO block and before the reception hold. -/
def Rdu.boundaryWork (r : Rdu) (c : Store) : RduOut := (r.formRadio c).riseHoldOff.swapOrTick c

theorem Rdu.boundaryWork_holds (r : Rdu) (c : Store) :
    let f := r.formRadio c
    f.riseHoldOff.SwapsOrTicks c f.probesNext f.swapsNext (r.boundaryWork c) := by
  intro f
  rw [f.swapsNext_eq, f.probesNext_eq]
  exact f.riseHoldOff.swapOrTick_holds c

/-- A boundary does the Radio Unit's work on its station as it began, but for the parts that do not meet it. -/
theorem State.boundaryRun_radioWorked (s : State) :
    let f := s.rdu.formRadio s.cpt.store
    s.RadioWorked s.boundaryRun (s.rdu.boundaryWork s.cpt.store) f.swapsNext (f.riseHoldOff.swapNotice f.probesNext) := by
  intro f
  obtain ⟨hrdu, hpub, hcpt, hclaims⟩ := s.boundaryRun_afterRadio
  obtain ⟨hat7, hclass⟩ := s.boundaryBuilt_beforeRadio (.inl rfl)
  obtain ⟨hat8, _⟩ := s.boundaryBuilt_beforeRadio (.inr rfl)
  have hf : s.boundaryBuilt.rdu = f := s.boundaryServed_cle.2.2.2
  have hstore : s.boundaryBuilt.cpt.store = s.cpt.store := s.boundaryBuilt_keeps.cpt.store
  have hann : s.rdu.KeepsAnn s.boundaryBuilt.rdu := hf ▸ s.rdu.formRadio_keepsAnn s.cpt.store
  have hout : s.boundaryBuilt.rdu.riseHoldOff.swapOrTick s.boundaryBuilt.cpt.store = s.rdu.boundaryWork s.cpt.store := by
    rw [hf, hstore]
    rfl
  have hwork := s.boundaryBuilt.boundaryRadio_worked (n := f.riseHoldOff.swapNotice f.probesNext) (swaps := f.swapsNext) rfl
    (by rw [hout]; exact (s.rdu.boundaryWork_holds s.cpt.store).notices)
  rw [hout] at hwork
  obtain ⟨hwrdu, hswapped, hstays, hends⟩ := hwork
  have hsame7 : s.boundaryRun.cpt.notices.get 7 = _ := hcpt 7 (by decide) (by decide)
  have hsame8 : s.boundaryRun.cpt.notices.get 8 = _ := hcpt 8 (by decide) (by decide)
  have hat7 : s.boundaryBuilt.cpt.notices.get 7 = s.cpt.notices.get 7 := hat7
  have hat8 : s.boundaryBuilt.cpt.notices.get 8 = s.cpt.notices.get 8 := hat8
  rw [hann.endsAnnouncement, hann.running, hann.claim, hann.hold, hann.low, hclass, hat7] at hstays
  rw [hann.endsAnnouncement, hann.claim, hat7, s.boundaryBuilt_keeps.own] at hends
  refine ⟨by rw [hrdu]; exact hwrdu, ?_, fun h => ?_, fun h => ?_⟩
  · rw [hsame8, hswapped, hat8]
  · rw [hrdu, hpub, hsame7]
    exact hstays h
  · obtain ⟨hrun, hclaim, hprog, hnotice, hgone⟩ := hends h
    rw [hrdu, hpub, hsame7]
    exact ⟨hrun, hclaim, hprog, hnotice, fun n hn => hclaims _ (hgone n hn)⟩

@[simp] theorem Rdu.setAnn_path (r : Rdu) (a : Announcement) (p : Path) : ({ r with ann := a } : Rdu).path p = r.path p := by
  cases p <;> rfl

section
variable (s : State)

theorem State.boundaryRun_path (p : Path) : (s.boundaryRun.rdu.path p).prepared =
    ((s.rdu.formRadio s.cpt.store).path p).prepared := by
  rw [s.boundaryRun_radioWorked.rdu, Rdu.setAnn_path, (s.rdu.boundaryWork_holds s.cpt.store).prepared p]
  cases p <;> rfl

theorem State.boundaryRun_radio : s.boundaryRun.rdu.radio = (s.rdu.formRadio s.cpt.store).radio := by
  rw [s.boundaryRun_radioWorked.rdu]
  exact (s.rdu.boundaryWork_holds s.cpt.store).radio

theorem State.boundaryRun_activeRec : s.boundaryRun.rdu.activeRec = (s.rdu.boundaryWork s.cpt.store).1.activeRec := by
  rw [s.boundaryRun_radioWorked.rdu]
  exact Rdu.activeRec_congr rfl rfl rfl

end

/-- The swap of a boundary: the roles, the hold-off counter, the crossfade and the RECEPTION notice. -/
theorem State.boundaryRun_swap {s : State} (h : s.rdu.crossfade = false ∨ s.rdu.holdOff < 19) :
    let r := s.rdu
    let u := s.boundaryRun.rdu
    u.active = (if r.swapsNext then r.spare else r.active) ∧
    u.holdOff = (if r.swapsNext then 0 else min 20 (r.holdOff + 1)) ∧
    (s.cpt.store.frontEnds ≠ .none → u.crossfade = r.swapsNext) ∧
    (r.swapsNext = true → u.activeRec = { r.spareRec with data := r.activeRec.data }) ∧
    s.boundaryRun.cpt.notices.get 8 = (if r.swapsNext then
        some (raisedEntry (s.cpt.notices.get 8) (r.swapNotice r.probesNext)) else s.cpt.notices.get 8) := by
  intro r u
  let f := r.formRadio s.cpt.store
  obtain ⟨hprobes, hswaps, hno⟩ : f.probesNext = r.probesNext ∧ f.swapsNext = r.swapsNext ∧ _ :=
    Rdu.formRadio_swapsNext s.cpt.store h
  have hkeeps := r.formRadio_keepsSwaps s.cpt.store
  have hworked : s.RadioWorked s.boundaryRun (r.boundaryWork s.cpt.store) f.swapsNext
    (f.riseHoldOff.swapNotice f.probesNext) := s.boundaryRun_radioWorked
  have hwork : f.riseHoldOff.SwapsOrTicks s.cpt.store f.probesNext f.swapsNext (r.boundaryWork s.cpt.store) :=
    r.boundaryWork_holds s.cpt.store
  rw [hprobes, hswaps] at hworked hwork
  have hspare : f.riseHoldOff.spare = r.spare := congrArg otherPath hkeeps.active
  have hspareRec (k : r.swapsNext = true) : f.riseHoldOff.spareRec = r.spareRec :=
    (Rdu.spareRec_congr rfl rfl rfl).trans (Rdu.formRadio_of_no_crossfade s.cpt.store (hno k)).2
  have hu : u = { (r.boundaryWork s.cpt.store).1 with ann := u.ann } := hworked.rdu
  refine ⟨?_, ?_, fun hends => ?_, fun k => ?_, ?_⟩
  · rw [hu]
    refine hwork.active.trans ?_
    rw [hspare]
    exact congrArg (ite _ r.spare) hkeeps.active
  · rw [hu]
    refine hwork.holdOff.trans ?_
    exact congrArg (fun n => ite _ 0 (min 20 (n + 1))) hkeeps.holdOff
  · rw [hu]
    refine hwork.crossfade.trans ?_
    rw [show f.riseHoldOff.crossfade = false from Rdu.formRadio_crossfade hends, Bool.or_false]
  · rw [show u.activeRec = _ from s.boundaryRun_activeRec, hwork.activeRec, if_pos k, hspareRec k]
    exact congrArg (fun d => { r.spareRec with data := d }) hkeeps.data
  · rw [hworked.swapped]
    cases hs : r.swapsNext with
    | false => rfl
    | true =>
      unfold Rdu.swapNotice
      rw [hspare, hspareRec hs]

/-- The AF timer and the probe at a boundary. -/
theorem State.boundaryRun_af {s : State} (h : s.rdu.crossfade = false ∨ s.rdu.holdOff < 19) :
    let r := s.rdu
    let u := s.boundaryRun.rdu
    let found := r.activeRec.data.alt.filter (fun c => decide (u.activeRec.tuned ≠ some c))
    (r.probesNext = true → u.probe = none ∧ u.afTimer = if r.low.above then r.afTimer else some 200) ∧
    (r.probesNext = false → ({ r with probe := (r.formRadio s.cpt.store).probe } : Rdu).AfStepped s.cpt.store found u) := by
  intro r u found
  let f := r.formRadio s.cpt.store
  obtain ⟨hprobes, hswaps, _⟩ : f.probesNext = r.probesNext ∧ f.swapsNext = r.swapsNext ∧ _ :=
    Rdu.formRadio_swapsNext s.cpt.store h
  have hkeeps := r.formRadio_keepsSwaps s.cpt.store
  have hwork : f.riseHoldOff.SwapsOrTicks s.cpt.store f.probesNext f.swapsNext (r.boundaryWork s.cpt.store) :=
    r.boundaryWork_holds s.cpt.store
  have hu : u = { (r.boundaryWork s.cpt.store).1 with ann := u.ann } := s.boundaryRun_radioWorked.rdu
  rw [hprobes, hswaps] at hwork
  have haf : f.riseHoldOff.afTimer = r.afTimer := hkeeps.afTimer
  refine ⟨fun k => ?_, fun k => ?_⟩
  · obtain ⟨hprobe, hafter⟩ := hwork.restarts k
    rw [haf, show f.riseHoldOff.low = r.low from hkeeps.low] at hafter
    rw [hu]
    exact ⟨hprobe, hafter⟩
  · obtain ⟨hstopped, hcounts, hrestarts, hbegins⟩ := hwork.steps k
    rw [haf] at hstopped hcounts hrestarts hbegins
    have hfound : found = f.riseHoldOff.activeRec.data.alt.filter
        (fun c => decide ((r.boundaryWork s.cpt.store).1.activeRec.tuned ≠ some c)) := by
      rw [← s.boundaryRun_activeRec]
      exact congrArg (fun d : ProgData => d.alt.filter _) hkeeps.data.symm
    rw [← hfound] at hrestarts hbegins
    rw [hu]
    exact ⟨hstopped, hcounts, hrestarts, hbegins⟩

/-! ### The obligation -/

/-- Settles O54: the rows are the parts of the boundary's work; at a boundary the parts come one after the other, and what
the other parts of the station do at it leaves the Radio Unit and its notices. -/
theorem radioBoundaryEventsAct : Obligations.RadioBoundaryEventsAct := by
  unfold Obligations.RadioBoundaryEventsAct
  intro s r candidates faded
  have hcandidates : candidates r.activeRec.tuned = r.candidates := r.candidates_eq.symm
  refine ⟨exec_crossfade_holds s, exec_diversitySwap_holds s, fun p => exec_probeSwap_holds s, fun haf => ⟨fun h => ?restart,
    fun hab c l h => exec_afTimerExpiry_probes haf hab (hcandidates.symm.trans h)⟩, exec_scanPassEnd_holds s,
    exec_receptionHoldExpiry_holds s, fun hc => ⟨_, exec_blockBoundary_of_not_inConfig hc, ?boundary⟩⟩
  case restart =>
    rw [hcandidates] at h
    rw [exec_afTimerExpiry_eq haf, Rdu.afExpires_of_restart h]
  case boundary =>
    obtain ⟨hsilent, hactive, hfaded⟩ := r.formRadio_blocks s.cpt.store
    have hradio := s.boundaryRun_radio
    have hpath := s.boundaryRun_path
    obtain ⟨_, _, hstays, hends⟩ := s.boundaryRun_radioWorked
    have hswap := State.boundaryRun_swap (s := s)
    have hafTimer := State.boundaryRun_af (s := s)
    generalize s.boundaryRun = t at hradio hpath hstays hends hswap hafTimer ⊢
    intro u ends old holdOff probed swaps
    rw [← hradio] at hsilent hactive hfaded
    refine ⟨hsilent, fun he hx => ?_, fun he hx => ?_, fun h => ?swap, hstays, hends⟩
    · obtain ⟨hblock, htaken, hleft⟩ := hactive he hx
      exact ⟨hblock, (hpath _).trans htaken, (hpath _).trans hleft⟩
    · obtain ⟨hblock, htaken⟩ := hfaded he hx
      exact ⟨hblock, Rdu.taken_both fun p => (hpath p).trans (htaken p)⟩
    case swap =>
      obtain ⟨hrole, hhold, hfade, hrec, hnotice⟩ := hswap h
      obtain ⟨hrestarts, hsteps⟩ := hafTimer h
      refine ⟨hrole, hhold, hfade, hrec, hnotice, hrestarts, fun hp => ?_⟩
      obtain ⟨hstopped, hcounts, hstarts, hprobes⟩ := hsteps hp
      have hkept (k : u.probe = (r.formRadio s.cpt.store).probe) (hx : r.crossfade = false) : u.probe = r.probe := by
        rw [k, (Rdu.formRadio_of_no_crossfade s.cpt.store hx).1]
      refine ⟨fun haf => ?_, fun n haf hn => ?_, fun n haf hn => ⟨fun hno => ?_, fun hfound hab => hprobes n haf hn hfound hab⟩⟩
      · obtain ⟨hafter, hsame⟩ := hstopped haf
        exact ⟨hafter, hkept hsame⟩
      · obtain ⟨hafter, hsame⟩ := hcounts n haf hn
        exact ⟨hafter, hkept hsame⟩
      · obtain ⟨hafter, hsame⟩ := hstarts n haf hn hno
        exact ⟨hafter, hkept hsame⟩

end Sys2Proof.Machine
end

section
/-! PROOF. O7: the loss split of an active pickup (R181, R182, R190, R192). -/

namespace Sys2Proof.Machine

open Sys2Proof

/-! ### The commands that leave the pickup record alone -/

/-- The commands that set or reset the pickup record. -/
def actsOnPickup : Instr → Bool
  | .pinReset | .restart | .blockBoundary | .micSwitch | .hangTimerExpiry .. => true
  | _ => false

theorem State.reenableDue_pku (s : State) : s.reenableDue.pku = s.pku := by
  have h : ∀ (l : List BridgeNo) (x : State), (l.foldl State.reenable x).pku = x.pku := by
    intro l
    induction l with
    | nil => exact fun _ => rfl
    | cons i l ih => exact fun x => ih (x.reenable i)
  exact h _ s

theorem State.deliver_pku (s : State) (p : StationNo) (b : FrameBody) : (s.deliver p b).pku = s.pku := by
  unfold State.deliver
  (repeat' split) <;> rfl

theorem exec_frameReceived_pku {f : LineFrame} {s t : State} (h : exec (.frameReceived f) s = .next t) :
    t.pku = s.pku := by
  cases ha : acceptFrame s.lif.latch f with
  | none =>
    rw [exec_frameReceived_discarded ha] at h
    cases h
    rfl
  | some b =>
    rw [exec_frameReceived_accepted ha] at h
    cases h
    exact State.deliver_pku _ _ b

/-- Every other command leaves the pickup record as it is. -/
theorem exec_pku_of_no_action {c : Instr} {s t : State} (hc : actsOnPickup c = false) (h : exec c s = .next t) :
    t.pku = s.pku := by
  have worked (o : RduOut) : (s.setRdu o).pku = s.pku := (s.setRdu_keepsSound o).pku
  cases c <;> first
    | exact Bool.noConfusion (show true = false from hc)
    | skip
  case sampleInstant => cases h; exact s.reenableDue_pku
  case frameReceived => exact exec_frameReceived_pku h
  case tune | seek | announceEnable =>
    simp only [exec_tune, execTune, exec_seek, execSeek, exec_announceEnable, execAnnounceEnable] at h
    (repeat' split at h) <;> cases h
    all_goals first
      | rfl
      | exact worked _
  case frontEndReport | receptionHoldExpiry | scanPassEnd | diversitySwap | probeSwap =>
    simp only [exec_frontEndReport, execFrontEndReport, exec_receptionHoldExpiry, execReceptionHoldExpiry,
      exec_scanPassEnd, execScanPassEnd, exec_diversitySwap, execDiversitySwap, exec_probeSwap, execProbeSwap] at h
    split at h <;> cases h
    · exact worked _
    · rfl
  all_goals
    simp only [exec, execStart, execSetConfig, execReadConfig, execSetLevel, execApplyLevels, execLevelsApplied,
      execSetSource, execPublish, execUnpublish, execClaim, execRelease, execScan, execFaultAck, execReadStatus,
      execReadView, execReadClaims, execReadStations, execReadLineError, execTakeNotice, execMalformedRequest,
      execDiscardedTransaction, execReadTransaction, execStartOfFrame, execLineIdle, execLostContention, execBitError,
      execAttemptCompletion, execBrokenOffFrame, execBitErrorIsolation, execNoIdleIsolation, execJoiningComplete,
      execPresenceDue, execProbeDue, execPeerExpiry, execWindowExpiry, execBidAgeOut, execStreamStarved,
      execCallLossExpiry, execSlip, execRepeatFrame, execReleaseIntervalStep, execCrossfade, execAfTimerExpiry,
      execThermalDerateStep, execCalmDerateStep, execDcAsserted, execOcHistoryExpiry, execFaultSourceAsserted,
      execFaultSourceDeasserted, execBridgeReenable, execPwmPeriod] at h
    (repeat' split at h) <;> (cases h; rfl)

/-! ### The split of the record (R190) -/

/-- While the pickup is active, its two parts of the loss add up to it. -/
def Pku.Splits (p : Pku) (lossL : Nat) : Prop := p.call ≠ none → p.su + p.sd = lossL

theorem splitAgrees_iff {s : State} : SplitAgrees s ↔
    s.pku.Splits s.cpt.store.callLoss ∧ (s.inConfig = true → s.pku.call = none) := Iff.rfl

theorem suTarget_le (lossL : Nat) (x : Suppression) : suTarget lossL x ≤ lossL := by
  cases x with
  | receive => exact le_rfl
  | send => exact Nat.zero_le _
  | double | idle => exact Nat.div_le_self _ _

/-- One move toward a target within the loss stays within it. -/
theorem suAfter_le {target su lossL : Nat} (ht : target ≤ lossL) (hs : su ≤ lossL) : suAfter target su ≤ lossL := by
  unfold suAfter
  split <;> omega

/-- Step 1 of a boundary leaves an active pickup with Su within the loss: it starts at half of it, or goes on (R181 to
R183). -/
theorem State.decidedPku_su_le {s : State} (h : s.pku.Splits s.cpt.store.callLoss) (hc : s.decidedPku.call ≠ none) :
    s.decidedPku.su ≤ s.cpt.store.callLoss := by
  obtain ⟨r, hr⟩ := Option.ne_none_iff_exists'.mp hc
  obtain ⟨_, _, _, _, hsu⟩ := s.decidedPku_rest r hr
  rw [hsu]
  split
  · exact Nat.div_le_self _ _
  · next hsame =>
    have hsum := h (by rw [not_not.mp hsame]; nofun)
    omega

/-- A boundary outside CONFIG leaves the loss split. -/
theorem State.boundaryRun_splits {s : State} (h : s.pku.Splits s.cpt.store.callLoss) :
    s.boundaryRun.pku.Splits s.cpt.store.callLoss := by
  obtain ⟨_, _, hpku, _⟩ := s.boundaryRun_holds
  intro hc
  rw [hpku, Pku.run_call] at hc
  obtain ⟨_, _, _, _, _, _, _, _, _, hsu, hsd, _⟩ := Pku.run_holds s.decidedPku s.cpt.store s.echoSound.block
    s.echoSound.served s.micBlocks hc
  rw [← hpku] at hsu hsd
  have hle := suAfter_le (suTarget_le s.cpt.store.callLoss s.boundaryRun.pku.supp) (State.decidedPku_su_le h hc)
  rw [← hsu] at hle
  omega

theorem Pku.Splits.of_eq {p q : Pku} {lossL : Nat} (h : p.Splits lossL) (hc : q.call = p.call) (hu : q.su = p.su)
    (hd : q.sd = p.sd) : q.Splits lossL := by
  unfold Pku.Splits
  rw [hc, hu, hd]
  exact h

theorem Pku.inactive_splits (lossL : Nat) : Pku.inactive.Splits lossL := fun h => absurd rfl h

/-- The selection of a microphone leaves the split (R187). -/
theorem Pku.Splits.select {p : Pku} {lossL : Nat} (h : p.Splits lossL) : p.select.Splits lossL := by
  rw [p.select_rest]
  exact h.of_eq rfl rfl rfl

/-- A hang timer that runs out leaves the split (R189). -/
theorem Pku.Splits.clearTimer {p : Pku} {lossL : Nat} (h : p.Splits lossL) (a : Activity) :
    (p.clearTimer a).setSuppression.Splits lossL := by
  cases a <;> exact h.of_eq rfl rfl rfl

/-! ### The commands -/

/-- Outside CONFIG every command keeps the split. -/
theorem exec_splits {c : Instr} {s t : State} (hc : s.inConfig = false) (hs : s.pku.Splits s.cpt.store.callLoss)
    (h : exec c s = .next t) : t.pku.Splits s.cpt.store.callLoss := by
  cases hp : actsOnPickup c with
  | false => rw [exec_pku_of_no_action hp h]; exact hs
  | true =>
    cases c <;> first
      | exact Bool.noConfusion (show false = true from hp)
      | skip
    case pinReset => cases h; exact Pku.inactive_splits _
    case restart =>
      rw [exec_restart, execRestart, if_neg (by rw [hc]; decide)] at h
      cases h
      exact Pku.inactive_splits _
    case blockBoundary =>
      rw [exec_blockBoundary_of_not_inConfig hc] at h
      injection h with h
      rw [← h]
      exact State.boundaryRun_splits hs
    case micSwitch =>
      rw [exec_micSwitch, execMicSwitch] at h
      split at h <;> cases h
      · exact hs.select
      · exact hs
    case hangTimerExpiry a =>
      rw [exec_hangTimerExpiry, execHangTimerExpiry] at h
      split at h <;> cases h
      · exact hs.clearTimer a
      · exact hs

/-- In CONFIG no command activates the pickup (R192). -/
theorem exec_call_inConfig {c : Instr} {s t : State} (hc : s.inConfig = true) (hs : s.pku.call = none)
    (h : exec c s = .next t) : t.pku.call = none := by
  cases hp : actsOnPickup c with
  | false => rw [exec_pku_of_no_action hp h]; exact hs
  | true =>
    cases c <;> first
      | exact Bool.noConfusion (show false = true from hp)
      | skip
    case pinReset => cases h; rfl
    case restart =>
      rw [exec_restart, execRestart, if_pos hc] at h
      cases h
      exact hs
    case blockBoundary =>
      rw [exec_blockBoundary_of_inConfig hc] at h
      cases h
      exact hs
    case micSwitch =>
      rw [exec_micSwitch, execMicSwitch, if_neg (by simp [Pku.switchDue, hs])] at h
      cases h
      exact hs
    case hangTimerExpiry =>
      rw [exec_hangTimerExpiry, execHangTimerExpiry, if_neg (by simp [hs])] at h
      cases h
      exact hs

theorem exec_splitAgrees {c : Instr} {s t : State} (hs : SplitAgrees s) (h : exec c s = .next t) : SplitAgrees t := by
  rw [splitAgrees_iff] at hs ⊢
  obtain ⟨hsplit, hidle⟩ := hs
  cases hc : s.inConfig with
  | true =>
    have hcall := exec_call_inConfig hc (hidle hc) h
    exact ⟨fun hactive => absurd hcall hactive, fun _ => hcall⟩
  | false =>
    by_cases hpin : c = .pinReset
    · subst hpin
      cases h
      exact ⟨Pku.inactive_splits _, fun _ => rfl⟩
    · obtain ⟨hstore, _, hrun⟩ := (onlyPinResetUndoes c s t hpin h).1 hc
      rw [hstore, hrun]
      exact ⟨exec_splits hc hsplit h, nofun⟩

/-- Settles O7: outside CONFIG the store stays and every command keeps the split; in CONFIG none activates the pickup. -/
theorem lossSplitKept : Obligations.LossSplitKept := by
  unfold Obligations.LossSplitKept
  exact fun s t hs h => step_keeps (fun _ _ g => g) (fun _ _ _ => exec_splitAgrees) s t hs h

end Sys2Proof.Machine
end

section
/-! PROOF. O55: the pickup's call, its notice and its slot at a boundary (R68, R180 to R184). -/

namespace Sys2Proof.Machine

open Sys2Proof

/-! ### The record and the notice -/

/-- Steps 2 to 7 leave the call that step 1 decided (R179). -/
theorem State.boundaryRun_pickupCall (s : State) : s.boundaryRun.pku.call = s.decidedPku.call := by
  obtain ⟨_, _, hpku, _⟩ := s.boundaryRun_holds
  rw [hpku, Pku.run_call]

/-- Steps 2 to 7 leave the candidates and the echo stream that step 1 decided (R181 to R183). -/
theorem State.boundaryRun_pickupFields (s : State) : s.boundaryRun.pku.echo = s.decidedPku.echo ∧
    s.boundaryRun.pku.candidates = s.decidedPku.candidates := by
  obtain ⟨_, _, hpku, _⟩ := s.boundaryRun_holds
  rw [hpku]
  exact Pku.run_echo _ _ _ _ _

/-- A boundary that leaves the pickup inactive does step 1 alone (R179). -/
theorem State.boundaryRun_pickup_of_inactive {s : State} (h : s.decidedPku.call = none) :
    s.boundaryRun.pku = s.decidedPku := by
  obtain ⟨_, _, hpku, _⟩ := s.boundaryRun_holds
  rw [hpku, Pku.run_, h]
  rfl

/-- A boundary raises in the PICKUP place what step 1 raises (R193). -/
theorem State.boundaryRun_pickupPlace (s : State) : ∃ c : Cpt, c.notices.get 4 = s.cpt.notices.get 4 ∧
    s.boundaryRun.cpt.notices.get 4 = (c.raiseAll (s.pku.decide_ s.cpt.store s.cle).2.2).notices.get 4 := by
  have hchecked : s.cpt.SameAt 4 s.boundaryChecked.cpt :=
    ((s.boundaryOutput_sameAt (by decide) (by decide)).trans (s.boundaryOutput.boundaryLevels_sameAt (by decide))).trans
      (s.boundaryOutput.boundaryLevels.boundaryIdle_sameAt (by decide) (by decide))
  refine ⟨s.boundaryChecked.cpt, hchecked, s.boundaryRun_pickupNotice.trans ?_⟩
  unfold State.boundaryPickup
  rw [pickupSlot_cpt]
  rfl

/-! ### The pickup slot -/

/-- A publish slot after a boundary: the slot that the Publisher found, with its frame built (R69). -/
theorem State.boundaryRun_slot (s : State) (i : PubSlotNo) :
    s.boundaryRun.pub.slots.get i = (s.slotAtBoundary i).built := by
  obtain ⟨_, _, hslot, _⟩ := s.boundaryBuilding_slots
  rw [s.boundaryRun_published.1, s.boundaryBuilt_eq, (State.boundaryPublish_slot _ _ i).1, hslot i]

/-- Where the pickup stops, its slot hands the LIF an empty frame after the no-idle check (R184). -/
theorem State.boundaryBuilding_lif_of_stop {s : State} (h : (s.pku.decide_ s.cpt.store s.cle).2.1 = .stop) :
    s.boundaryBuilding.lif =
      s.boundaryChecked.lif.handSound s.boundaryChecked.cle.lifecycle s.cpt.store.pickupSlot none := by
  have hstore : s.boundaryChecked.cpt.store = s.cpt.store :=
    (((boundaryOutput_keeps s).trans (boundaryLevels_keeps _)).trans (boundaryIdle_keeps _)).cpt.store
  obtain ⟨_, hlif, _⟩ := s.boundaryBuilding_picked
  obtain ⟨z, hz, _, hzlif, hzcle, hzstore⟩ :=
    State.boundaryPickup_pickupSlot s.mixView (s.boundaryChecked.boundaryRadioBlock.boundaryDecide s.mixView)
  have hstop : s.boundaryPicked = z.pickupSlot .stop := hz.trans (congrArg z.pickupSlot h)
  rw [hlif, hstop]
  show z.lif.handSound z.cle.lifecycle z.cpt.store.pickupSlot none = _
  rw [hzlif, hzcle, hzstore, boundaryDecide_lif, boundaryDecide_cle, boundaryDecide_cpt, boundaryRadioBlock_lif,
    boundaryRadioBlock_cle, boundaryRadioBlock_cpt, hstore]

/-- The stopped slot builds no frame, so the boundary leaves its sound slot with the empty frame (R69, R184). -/
theorem State.boundaryRun_stoppedSound {s : State} (h : (s.pku.decide_ s.cpt.store s.cle).2.1 = .stop) :
    s.boundaryRun.lif.sound.get s.cpt.store.pickupSlot =
      (s.boundaryChecked.lif.handSound s.boundaryChecked.cle.lifecycle s.cpt.store.pickupSlot none).sound.get
        s.cpt.store.pickupSlot := by
  have hidle : s.slotAtBoundary s.cpt.store.pickupSlot = .idle := by
    unfold State.slotAtBoundary
    rw [if_pos rfl, h]
  obtain ⟨_, hnone, _⟩ :=
    State.boundaryPublish_slot (s.cle.lifecycle == .active) s.boundaryBuilding s.cpt.store.pickupSlot
  obtain ⟨_, hsound⟩ := hnone (s.boundaryBuilding_noFrame hidle)
  rw [s.boundaryRun_keepsPub.sound, s.boundaryBuilt_eq, hsound, State.boundaryBuilding_lif_of_stop h]

/-- The empty frame by lifecycle state and flight: discarded in ISOLATED, beside the frame in flight, or in the slot (R15,
R16, R19). -/
theorem State.boundaryRun_stopped_cases {s : State} (h : (s.pku.decide_ s.cpt.store s.cle).2.1 = .stop) :
    let i := s.cpt.store.pickupSlot
    let t := s.boundaryRun
    (s.cle.lifecycle = .isolated → t.lif.sound.get i = s.lif.sound.get i) ∧
    (s.cle.lifecycle ≠ .isolated → s.lif.flying (.sound i) = false → (t.lif.sound.get i).frame = none) ∧
    (s.cle.lifecycle ≠ .isolated → t.cle.lifecycle ≠ .isolated → s.lif.flying (.sound i) = true →
      t.lif.sound.get i = ⟨(s.lif.sound.get i).frame, some none⟩) := by
  intro i t
  have hsound : t.lif.sound.get i = _ := State.boundaryRun_stoppedSound h
  obtain ⟨_, _, hdiscarded, hhanded⟩ :=
    s.boundaryChecked.lif.handSound_cases s.boundaryChecked.cle.lifecycle i none
  rw [hsound]
  rcases s.boundaryChecked_pub.2 with ⟨hlife, hs, hflight⟩ | ⟨hactive, hisolated, hempty⟩
  · rw [Lif.flying_congr hflight, hs, hlife] at hhanded
    refine ⟨fun hi => ?_, fun hi hfly => ?_, fun hi _ hfly => ?_⟩
    · rw [hdiscarded (hlife.trans hi), hs]
    · rw [hlife, hhanded hi, hfly]
      rfl
    · rw [hlife, hhanded hi, hfly]
      rfl
  · rw [hdiscarded hisolated, hempty, Tbl.get_fill]
    refine ⟨fun hi => ?_, fun _ _ => rfl, fun _ ht => absurd ?_ ht⟩
    · rw [hactive] at hi
      cases hi
    · rw [State.boundaryRun_life hactive, s.boundaryBuilding_slots.1]
      exact hisolated

/-- Settles O55: the record and the notice as step 1 decides them, and the slot that the Publisher finds. -/
theorem pickupFollowsTheFirstCall : Obligations.PickupFollowsTheFirstCall := by
  unfold Obligations.PickupFollowsTheFirstCall
  intro s hc
  refine ⟨_, exec_blockBoundary_of_not_inConfig hc, ?_⟩
  intro covered first i old
  have hfirst : qualifying s.cpt.store s.cle = first := qualifying_eq s
  obtain ⟨hdecided, hfollowed, hinactive, hraised⟩ := s.decidedPku_holds
  obtain ⟨hecho, hcandidates⟩ := s.boundaryRun_pickupFields
  have hslot := s.boundaryRun_slot i
  have hfound := s.slotAtBoundary_eq i
  rw [hfirst] at hdecided hfollowed hinactive hraised
  have hcall := s.boundaryRun_pickupCall.trans hdecided
  rw [if_pos rfl, hcall] at hfound
  refine ⟨hcall, fun c h => ?fields, fun h => ?inactive, ?notice, fun hcalm h hidle => ?start,
    fun hactive h src n hpub => ?goesOn, fun hactive h => ⟨?idle, ?empty⟩⟩
  case fields =>
    obtain ⟨he, hm⟩ := hfollowed c h
    rw [hecho, hcandidates, he, hm]
    exact ⟨rfl, micIn_candidatesOf _ _⟩
  case inactive =>
    rw [State.boundaryRun_pickup_of_inactive (by rw [hdecided, h]; rfl)]
    exact hinactive h
  case notice =>
    obtain ⟨c, hc, hplace⟩ := s.boundaryRun_pickupPlace
    have hplaced := hplace.trans (hraised c)
    rw [hc, ← hcandidates] at hplaced
    exact hplaced
  case start =>
    obtain ⟨c, hc⟩ := Option.ne_none_iff_exists'.mp h
    rw [hcalm, hc, hidle] at hfound
    rw [hslot, hfound]
    rfl
  case goesOn =>
    obtain ⟨r, hr⟩ := Option.ne_none_iff_exists'.mp hactive
    obtain ⟨c, hc⟩ := Option.ne_none_iff_exists'.mp h
    rw [hr, hc, hpub] at hfound
    rw [hslot, hfound]
    rfl
  case idle =>
    obtain ⟨r, hr⟩ := Option.ne_none_iff_exists'.mp hactive
    rw [hr, h] at hfound
    rw [hslot, hfound]
    rfl
  case empty =>
    obtain ⟨r, hr⟩ := Option.ne_none_iff_exists'.mp hactive
    have hnone : (s.pku.decide_ s.cpt.store s.cle).1.call = none := hdecided.trans (by rw [h]; rfl)
    refine State.boundaryRun_stopped_cases ?_
    rw [Pku.decide_slot, hnone, hr]

end Sys2Proof.Machine
end

section
/-! PROOF. O56: measurement, selection, activity, suppression and the uplink block (R185 to R191). -/

namespace Sys2Proof.Machine

open Sys2Proof

/-! ### The selection (R187) -/

/-- The candidate with the smallest Lm beside the one left out, the lowest-numbered among several. -/
def Pku.BestBeside (p : Pku) (skip : Option MicNo) (m : MicNo) : Prop :=
  micIn p.candidates m = true ∧ some m ≠ skip ∧ ∀ d, micIn p.candidates d = true → some d ≠ skip →
    p.lm.get m < p.lm.get d ∨ (p.lm.get m = p.lm.get d ∧ m ≤ d)

/-- It is what the search of step 4 looks for. -/
theorem Pku.best_iff (p : Pku) {skip : MicNo → Bool} {o : Option MicNo} (h : ∀ x, skip x = true ↔ some x = o)
    (m : MicNo) : p.Best skip m ↔ p.BestBeside o m := by
  have hin (x : MicNo) : (micIn p.candidates x && !skip x) = true ↔ micIn p.candidates x = true ∧ some x ≠ o := by
    rw [Bool.and_eq_true, Bool.not_eq_true', ← Bool.not_eq_true, h]
  unfold Pku.Best Pku.BestBeside
  simp only [hin, and_assoc, and_imp]

theorem Pku.bestBeside_congr {p q : Pku} (hc : q.candidates = p.candidates) (hl : q.lm = p.lm) :
    q.BestBeside = p.BestBeside := by
  unfold Pku.BestBeside
  rw [hc, hl]

/-- Step 4 in the terms of the best candidates: a selection anew, and the challenger's run beside a kept one. -/
theorem Pku.select_cases (p : Pku) :
    (p.selected = none → (∀ m, p.select.selected = some m ↔ p.BestBeside none m) ∧ p.select.challenger = none ∧
      p.select.run = 0) ∧
    ∀ m, p.selected = some m →
      ((∀ d, p.BestBeside (some m) d → p.lm.get m < p.lm.get d + 6) →
        p.select.selected = some m ∧ p.select.challenger = none ∧ p.select.run = 0) ∧
      (∀ d, p.BestBeside (some m) d → p.lm.get d + 6 ≤ p.lm.get m →
        let run := if p.challenger = some d then p.run + 1 else 1
        (run < 5 → p.select.selected = some m ∧ p.select.challenger = some d ∧ p.select.run = run) ∧
        (5 ≤ run → p.select.selected = some d ∧ p.select.challenger = none ∧ p.select.run = 0)) := by
  obtain ⟨hanew, hkept⟩ := p.select_holds
  refine ⟨fun h => ?_, fun m h => ?_⟩
  · obtain ⟨hbest, hrest⟩ := hanew h
    exact ⟨fun m => (hbest m).trans (p.best_iff (by simp) m), hrest⟩
  · have hiff := p.best_iff (skip := fun x => x == m) (o := some m) (by simp)
    obtain ⟨hstays, hbeaten⟩ := hkept m h
    exact ⟨fun hall => hstays fun d hd => hall d ((hiff d).mp hd), fun d hd => hbeaten d ((hiff d).mpr hd)⟩

/-- The fifth boundary in a row at which the challenger beats the selected microphone switches to it. -/
theorem Pku.select_of_fifth_run {p : Pku} {m c : MicNo} (hm : p.selected = some m) (hrun : p.run = 4)
    (hc : p.challenger = some c) (hbest : p.BestBeside (some m) c) (hle : p.lm.get c + 6 ≤ p.lm.get m) :
    p.select = { p with selected := some c, challenger := none, run := 0 } := by
  obtain ⟨_, hkept⟩ := p.select_cases
  obtain ⟨_, hbeaten⟩ := hkept m hm
  obtain ⟨_, hswitch⟩ := hbeaten c hbest hle
  obtain ⟨hselected, hchallenger, hzero⟩ := hswitch (by rw [if_pos hc, hrun])
  rw [p.select_rest, hselected, hchallenger, hzero]

/-- MIC_SWITCH (R187). -/
theorem exec_micSwitch_of_fifth_run {s : State} {r : ClaimRef} {m c : MicNo} (hcall : s.pku.call = some r)
    (hm : s.pku.selected = some m) (hrun : s.pku.run = 4) (hc : s.pku.challenger = some c)
    (hbest : s.pku.BestBeside (some m) c) (hle : s.pku.lm.get c + 6 ≤ s.pku.lm.get m) :
    exec .micSwitch s = .next { s with pku := { s.pku with selected := some c, challenger := none, run := 0 } } := by
  have hselect := Pku.select_of_fifth_run hm hrun hc hbest hle
  obtain ⟨_, hother, _⟩ := hbest
  have hne : c ≠ m := fun e => hother (congrArg some e)
  have hdue : s.pku.switchDue = true := by
    unfold Pku.switchDue
    rw [hselect, hcall, hm, hrun]
    simp [hne, Config.micRunEnd]
  rw [exec_micSwitch, execMicSwitch, if_pos hdue, hselect]

/-! ### The hang timers and the split (R188 to R190) -/

/-- HANG_TIMER_EXPIRY (R189). -/
theorem exec_hangTimerExpiry_of_due {s : State} {r : ClaimRef} (a : Activity) (hcall : s.pku.call = some r)
    (h : s.pku.timer a = 1) :
    exec (.hangTimerExpiry a) s = .next { s with pku := (s.pku.clearTimer a).setSuppression } := by
  rw [exec_hangTimerExpiry, execHangTimerExpiry, if_pos ⟨by rw [hcall]; rfl, h⟩]

/-- A hang timer after the detection of far activity (R188, R189). -/
theorem Pku.hangAfter_farActive (p : Pku) (c : Store) (n : Nat) :
    hangAfter (p.farActive c) n = if p.ld < 128 ∧ p.ld ≤ c.farThreshold then 20 else n - 1 := by
  simp only [hangAfter, Pku.farActive, Bool.and_eq_true, decide_eq_true_eq]
  rfl

/-- A hang timer after the detection of near activity (R188, R189). -/
theorem Pku.hangAfter_nearActive (p : Pku) (c : Store) (n : Nat) : hangAfter (p.nearActive c) n =
    if p.selectedLm < 128 ∧ p.selectedLm ≤ c.nearThreshold ∧ p.selectedLm < p.ld + c.coupling then 20 else n - 1 := by
  simp only [hangAfter, Pku.nearActive, Bool.and_eq_true, decide_eq_true_eq, and_assoc]
  rfl

/-- Su moves by 4 toward its target, and Sd is the rest of the loss (R190). -/
theorem Pku.split_cases (p : Pku) (c : Store) : let target := suTarget c.callLoss p.supp
    (p.su < target → (p.split c).su = min target (p.su + 4)) ∧
    (target < p.su → (p.split c).su = max target (p.su - 4)) ∧
    (p.su = target → (p.split c).su = p.su) ∧ (p.split c).sd = c.callLoss - (p.split c).su := by
  intro target
  have hsu : (p.split c).su = if p.su < target then min target (p.su + 4) else max target (p.su - 4) := rfl
  refine ⟨fun h => hsu.trans (if_pos h), fun h => hsu.trans (if_neg (by omega)), fun h => ?_, rfl⟩
  rw [hsu, if_neg (by omega)]
  omega

/-! ### The boundary (R185 to R191) -/

theorem State.micBlocks_get (s : State) (m : MicNo) :
    s.micBlocks.get m = padTo 48 (0 : Sample) (s.inputs.mics.get m) := Tbl.get_map _ _ _

/-- The pickup record after step 3: the levels measured, and whether the echo reference was served (R185, R186). -/
def State.measuredPku (s : State) : Pku :=
  { s.decidedPku with echoServed := s.echoSound.served }.measure s.cpt.store s.echoSound.block s.micBlocks

/-- The active pickup after a boundary, step by step. -/
theorem State.boundaryRun_pickup {s : State} (h : s.boundaryRun.pku.call ≠ none) : let q := s.boundaryRun.pku
    let c := s.cpt.store
    (q.lm = s.measuredPku.lm ∧ q.ld = s.measuredPku.ld ∧ q.echoServed = s.echoSound.served) ∧
    (q.selected = s.measuredPku.select.selected ∧ q.challenger = s.measuredPku.select.challenger ∧
      q.run = s.measuredPku.select.run) ∧
    (q.far = hangAfter (q.farActive c) s.decidedPku.far ∧ q.near = hangAfter (q.nearActive c) s.decidedPku.near ∧
      q.supp = suppressionOf q.far q.near) ∧
    (q.su = suAfter (suTarget c.callLoss q.supp) s.decidedPku.su ∧ q.sd = c.callLoss - q.su) ∧
    q.uplink = some (match q.selected with
      | some m => (s.micBlocks.get m).map (attenuate (min Config.mute (q.su + c.micTrim.get m)))
      | none => List.replicate Config.blockLen 0) := by
  obtain ⟨_, _, hpku, _⟩ := s.boundaryRun_holds
  generalize s.boundaryRun.pku = q at h hpku ⊢
  rw [hpku, Pku.run_call] at h
  obtain ⟨hlm, hld, hserved, hselected, hchallenger, hrun, hfar, hnear, hsupp, hsu, hsd, huplink⟩ :=
    Pku.run_holds s.decidedPku s.cpt.store s.echoSound.block s.echoSound.served s.micBlocks h
  rw [← hpku] at hlm hld hserved hselected hchallenger hrun hfar hnear hsupp hsu hsd huplink
  exact ⟨⟨hlm, hld, hserved⟩, ⟨hselected, hchallenger, hrun⟩, ⟨hfar, hnear, hsupp⟩, ⟨hsu, hsd⟩, huplink⟩

/-- The echo stream gives what R95 and R96 say, and Ld is its level (R185, R186). -/
theorem State.boundaryRun_echo {s : State} (h : s.boundaryRun.pku.call ≠ none) {n : StreamNo}
    (hn : s.boundaryRun.pku.echo = some n) : ∃ x, StreamSound s s.boundaryRun n x ∧
      s.boundaryRun.pku.echoServed = x.served ∧
      s.boundaryRun.pku.ld = level (x.block.flatMap (fun y => [y.l, y.r])) := by
  obtain ⟨⟨_, hld, hserved⟩, _⟩ := State.boundaryRun_pickup h
  obtain ⟨_, _, _, hgiven, _, hradio, _⟩ := s.boundaryRun_holds
  have hecho : s.echoSound = streamSound s.mixView s.servedIku s.boundarySounds n := by
    obtain ⟨hstream, _⟩ := s.boundaryRun_pickupFields
    unfold State.echoSound
    rw [← hstream, hn]
  refine ⟨s.echoSound, ?_, hserved, hld⟩
  rw [hecho]
  exact streamSound_holds s s.boundaryRun hgiven hradio n

/-- The level of each microphone (R186). -/
theorem State.boundaryRun_lm {s : State} (h : s.boundaryRun.pku.call ≠ none) (m : MicNo) :
    s.boundaryRun.pku.lm.get m =
      min 128 (level (padTo 48 (0 : Sample) (s.inputs.mics.get m)) + s.cpt.store.micTrim.get m) := by
  obtain ⟨⟨hlm, _⟩, _⟩ := State.boundaryRun_pickup h
  rw [hlm, State.measuredPku, Pku.measure, Tbl.get_ofFn, s.micBlocks_get]
  rfl

/-- The selection of a boundary, from the microphone that step 1 kept (R183, R187). -/
theorem State.boundaryRun_selects {s : State} {r : ClaimRef} (h : s.boundaryRun.pku.call = some r) :
    let q := s.boundaryRun.pku
    let kept := if s.pku.call ≠ some r then none else s.pku.selected.filter (micIn q.candidates)
    (kept = none → (∀ m, q.selected = some m ↔ q.BestBeside none m) ∧ q.challenger = none ∧ q.run = 0) ∧
    ∀ m, kept = some m →
      ((∀ d, q.BestBeside (some m) d → q.lm.get m < q.lm.get d + 6) →
        q.selected = some m ∧ q.challenger = none ∧ q.run = 0) ∧
      (∀ d, q.BestBeside (some m) d → q.lm.get d + 6 ≤ q.lm.get m →
        let run := if s.pku.challenger = some d then s.pku.run + 1 else 1
        (run < 5 → q.selected = some m ∧ q.challenger = some d ∧ q.run = run) ∧
        (5 ≤ run → q.selected = some d ∧ q.challenger = none ∧ q.run = 0)) := by
  obtain ⟨⟨hlm, _⟩, ⟨hselected, hchallenger, hrun⟩, _⟩ := State.boundaryRun_pickup (by rw [h]; nofun)
  obtain ⟨_, hcandidates⟩ := s.boundaryRun_pickupFields
  obtain ⟨hkept, hcount, _⟩ := s.decidedPku_rest r (s.boundaryRun_pickupCall.symm.trans h)
  rw [← hcandidates] at hkept
  have hbest : s.boundaryRun.pku.BestBeside = s.measuredPku.BestBeside := Pku.bestBeside_congr hcandidates hlm
  obtain ⟨hanew, hstays⟩ := s.measuredPku.select_cases
  intro q kept
  rw [hselected, hchallenger, hrun, hbest, hlm]
  refine ⟨fun hk => hanew (hkept.trans hk), fun m hk => ?_⟩
  have hm : s.decidedPku.selected = some m := hkept.trans hk
  obtain ⟨hc, hr⟩ := hcount (by rw [hm]; nofun)
  rw [← hc, ← hr]
  exact hstays m hm

/-- Settles O56: the rows by the steps they make, the boundary step by step, and the level from the peak. -/
theorem pickupSelectsAndSuppresses : Obligations.PickupSelectsAndSuppresses := by
  unfold Obligations.PickupSelectsAndSuppresses
  refine ⟨⟨?micSwitch, fun s r hcall => ⟨fun h => ?far, fun h => ?near⟩, fun p c => ?split⟩, fun s hc => ?boundary,
    level_holds⟩
  case micSwitch =>
    intro s r m c hcall hm hrun hc hne hin hle hleast
    refine exec_micSwitch_of_fifth_run hcall hm hrun hc ⟨hin, fun e => hne (Option.some.inj e), fun d hd hdm => ?_⟩ hle
    exact hleast d (fun e => hdm (congrArg some e)) hd
  case far => exact exec_hangTimerExpiry_of_due .far hcall h
  case near =>
    rw [exec_hangTimerExpiry_of_due .near hcall h]
    unfold Pku.clearTimer Pku.setSuppression suppressionOf
    simp
  case split => exact p.split_cases c
  case boundary =>
    refine ⟨_, exec_blockBoundary_of_not_inConfig hc, fun r hr => ?_⟩
    have hcall : s.boundaryRun.pku.call ≠ none := by rw [hr]; nofun
    obtain ⟨_, _, hfar0, hnear0, hsu0⟩ := s.decidedPku_rest r (s.boundaryRun_pickupCall.symm.trans hr)
    obtain ⟨_, _, ⟨hfar, hnear, hsupp⟩, ⟨hsu, hsd⟩, huplink⟩ := State.boundaryRun_pickup hcall
    obtain ⟨hselected, hbeaten⟩ := State.boundaryRun_selects hr
    have hecho := fun n => State.boundaryRun_echo hcall (n := n)
    have hlm := State.boundaryRun_lm hcall
    rw [Pku.hangAfter_farActive, hfar0] at hfar
    rw [Pku.hangAfter_nearActive, hnear0] at hnear
    rw [hsu0] at hsu
    simp only [s.micBlocks_get] at huplink
    generalize s.boundaryRun = t at *
    exact ⟨hecho, hlm, hselected, hbeaten, hfar, hnear, hsupp, hsu, hsd, huplink⟩

end Sys2Proof.Machine
end

section
/-! PROOF. What every command makes of the result holder and of the attention line (R208, R209, R219). -/

namespace Sys2Proof.Machine

open Sys2Proof

/-- From c to d the result holder is not touched, and an attention line that agreed with the notice set still does. -/
structure Cpt.Unanswered (c d : Cpt) : Prop where
  result : d.result = c.result
  agrees : c.Agrees → d.Agrees

/-- Work that leaves the result holder, the notice set and the attention line. -/
theorem Cpt.Unanswered.of_eq {c d : Cpt} (hr : d.result = c.result) (hn : d.notices = c.notices) (ha : d.atn = c.atn) :
    c.Unanswered d :=
  ⟨hr, fun h => by rw [Cpt.Agrees, ha, hn]; exact h⟩

theorem Cpt.Unanswered.refl (c : Cpt) : c.Unanswered c := .of_eq rfl rfl rfl

/-- Notices raised leave the result holder, and assert the attention line they make pending. -/
theorem Cpt.RaisedFrom.unanswered {c d : Cpt} (h : c.RaisedFrom d) : c.Unanswered d :=
  ⟨h.result, fun ha => ha.of_raised h⟩

/-- A request is answered once, at the end of work that does not touch the result holder. -/
def State.AnsweredFrom (s t : State) : Prop := ∃ u st d, t = State.answer u st d ∧ s.cpt.Unanswered u.cpt

/-- A request that changes nothing is answered. -/
theorem State.answeredFrom_self (s : State) (st : Status) (d : List Byte) : s.AnsweredFrom (s.answer st d) :=
  ⟨s, st, d, rfl, .refl _⟩

/-! ### The requests that do more than raise notices -/

/-- START raises its notices and fixes the store before its answer (R214). -/
theorem exec_start_answered {s t : State} (h : exec .start s = .next t) : s.AnsweredFrom t := by
  simp only [exec_start, execStart] at h
  split at h
  · split at h <;> cases h
    · exact s.answeredFrom_self _ _
    · have hraised := (Cpt.RaisedFrom.raiseAll s.cpt (s.ost.started s.cpt.store).2).unanswered
      exact ⟨_, _, _, rfl, hraised.result, hraised.agrees⟩
  · cases h; exact s.answeredFrom_self _ _

/-- RESTART empties the notice set before its answer (R220). -/
theorem exec_restart_answered {s t : State} (h : exec .restart s = .next t) : s.AnsweredFrom t := by
  simp only [exec_restart, execRestart] at h
  split at h <;> cases h
  · exact s.answeredFrom_self _ _
  · exact ⟨_, _, _, rfl, rfl, fun _ => s.cpt.emptyAll_agrees⟩

theorem exec_setConfig_answered {s t : State} {i j : Byte} {v : List Byte} (h : exec (.setConfig i j v) s = .next t) :
    s.AnsweredFrom t := by
  simp only [exec_setConfig, execSetConfig] at h
  split at h
  · split at h <;> cases h
    · exact ⟨_, _, _, rfl, .of_eq rfl rfl rfl⟩
    · exact s.answeredFrom_self _ _
  · cases h; exact s.answeredFrom_self _ _

theorem exec_scan_answered {s t : State} {on : Byte} (h : exec (.scan on) s = .next t) : s.AnsweredFrom t := by
  simp only [exec_scan, execScan] at h
  split at h
  · cases h; exact s.answeredFrom_self _ _
  · split at h <;> cases h <;> exact ⟨_, _, _, rfl, .of_eq rfl rfl rfl⟩

theorem exec_announceEnable_answered {s t : State} {on : Byte} (h : exec (.announceEnable on) s = .next t) :
    s.AnsweredFrom t := by
  simp only [exec_announceEnable, execAnnounceEnable] at h
  split at h
  · cases h; exact s.answeredFrom_self _ _
  · split at h <;> cases h
    · exact ⟨_, _, _, rfl, .of_eq rfl rfl rfl⟩
    · rw [State.answer_arbitrate]
      exact ⟨_, _, _, rfl, ((s.setRdu_keeps _).trans (State.arbitrate_keeps _)).cpt.unanswered⟩

/-- TAKE_NOTICE empties a place before its answer, and the attention line follows the places that remain (R218, R219). -/
theorem exec_takeNotice_answered {s t : State} (h : exec .takeNotice s = .next t) : s.AnsweredFrom t := by
  simp only [exec_takeNotice, execTakeNotice] at h
  split at h
  · cases h; exact s.answeredFrom_self _ _
  · split at h <;> cases h
    · exact s.answeredFrom_self _ _
    · exact ⟨_, _, _, rfl, rfl, fun _ => s.cpt.emptyPlace_agrees _⟩

/-- READ_LINE_ERROR clears the capture before its answer (R10). -/
theorem exec_readLineError_answered {s t : State} (h : exec .readLineError s = .next t) : s.AnsweredFrom t := by
  simp only [exec_readLineError, execReadLineError] at h
  cases h
  exact ⟨_, _, _, rfl, .of_eq rfl rfl rfl⟩

/-- Every request is answered at the end of its work (R209). -/
theorem exec_isRequest_answered {c : Instr} {s t : State} (hr : isRequest c = true) (h : exec c s = .next t) :
    s.AnsweredFrom t := by
  cases hs : special c with
  | false =>
    obtain ⟨u, st, d, hu, hk⟩ := exec_request c s hr hs
    rw [hu] at h
    cases h
    exact ⟨u, st, d, rfl, hk.cpt.unanswered⟩
  | true =>
    refine exec_special (P := fun c s t => isRequest c = true → s.AnsweredFrom t) s c hs ?pinReset ?start ?restart
      ?setConfig ?scan ?announceEnable ?takeNotice ?readLineError ?discarded ?readTransaction ?frameReceived t h hr
    case start => exact fun _ h _ => exec_start_answered h
    case restart => exact fun _ h _ => exec_restart_answered h
    case setConfig => exact fun _ _ _ _ h _ => exec_setConfig_answered h
    case scan => exact fun _ _ h _ => exec_scan_answered h
    case announceEnable => exact fun _ _ h _ => exec_announceEnable_answered h
    case takeNotice => exact fun _ h _ => exec_takeNotice_answered h
    case readLineError => exact fun _ h _ => exec_readLineError_answered h
    all_goals intros; contradiction

/-! ### The events -/

/-- What an event makes of the Control Port: pin reset and the two transactions that take no request are what they are
(R208, R209), and every other event only raises notices. -/
theorem exec_event_cases {c : Instr} {s t : State} (hr : isRequest c = false) (h : exec c s = .next t) :
    c = .pinReset ∨ (∃ n, c = .readTransaction n) ∨ (∃ b, c = .discardedTransaction b) ∨ s.cpt.RaisedFrom t.cpt := by
  cases hs : special c with
  | false =>
    obtain ⟨u, hu, hk⟩ := exec_event c s hr hs
    rw [hu] at h
    cases h
    exact .inr (.inr (.inr hk.cpt))
  | true =>
    refine exec_special (P := fun c s t => isRequest c = false → c = .pinReset ∨ (∃ n, c = .readTransaction n) ∨
      (∃ b, c = .discardedTransaction b) ∨ s.cpt.RaisedFrom t.cpt) s c hs ?pinReset ?start ?restart ?setConfig ?scan
      ?announceEnable ?takeNotice ?readLineError ?discarded ?readTransaction ?frameReceived t h hr
    case pinReset => exact fun _ => .inl rfl
    case readTransaction => exact fun n _ _ _ => .inr (.inl ⟨n, rfl⟩)
    case discarded => exact fun b _ _ _ => .inr (.inr (.inl ⟨b, rfl⟩))
    case frameReceived =>
      intro f t h _
      rcases execFrameReceived_shape f s with ⟨_, u, hu, _, hraised, _⟩ | ⟨_, _, u, hu, hk⟩
      all_goals
        rw [hu] at h
        cases h
      · exact .inr (.inr (.inr hraised))
      · exact .inr (.inr (.inr hk.cpt))
    all_goals intros; contradiction

/-! ### The obligations -/

/-- Every command keeps the attention line in agreement with the notice set (R219). -/
theorem exec_agrees {c : Instr} {s t : State} (ha : s.cpt.Agrees) (h : exec c s = .next t) : t.cpt.Agrees := by
  cases hr : isRequest c with
  | true =>
    obtain ⟨u, st, d, rfl, hu⟩ := exec_isRequest_answered hr h
    exact (hu.agrees ha).answer st d
  | false =>
    rcases exec_event_cases hr h with rfl | ⟨n, rfl⟩ | ⟨b, rfl⟩ | hraised
    · cases h; exact Cpt.reset.emptyAll_agrees
    · cases h; exact ha
    · cases h; exact ha.lowSdo
    · exact ha.of_raised hraised

/-- Settles O4: every command keeps the agreement, and idling changes nothing. -/
theorem attentionKept : Obligations.AttentionKept := by
  unfold Obligations.AttentionKept
  exact step_keeps (I := AttentionAgrees) (fun _ _ h => h) (fun _ _ _ ha h => exec_agrees ha h)

/-- Settles O16: a request is answered at the end of its work; an event that is neither a transaction nor pin reset only
raises notices. -/
theorem everyRequestIsAnswered : Obligations.EveryRequestIsAnswered := by
  unfold Obligations.EveryRequestIsAnswered
  refine fun c s t h => ⟨fun hr => ?request, fun hr hp => ?event⟩
  case request =>
    obtain ⟨u, st, d, rfl, hu⟩ := exec_isRequest_answered hr h
    exact ⟨rfl, st, d, by rw [← hu.result]; rfl⟩
  case event =>
    by_cases hread : ∃ n, c = .readTransaction n
    · obtain ⟨n, rfl⟩ := hread; cases h; exact ⟨rfl, rfl⟩
    by_cases hdiscarded : ∃ b, c = .discardedTransaction b
    · obtain ⟨b, rfl⟩ := hdiscarded; cases h; exact ⟨rfl, rfl⟩
    have hraised : s.cpt.RaisedFrom t.cpt := by simpa [hp, hread, hdiscarded] using exec_event_cases hr h
    rw [hraised.result, hraised.sdo]
    constructor
    · split
      next n => exact absurd ⟨n, rfl⟩ hread
      next => rfl
    · split
      next n => exact absurd ⟨n, rfl⟩ hread
      next b => exact absurd ⟨b, rfl⟩ hdiscarded
      next => rfl

end Sys2Proof.Machine
end

section
/-! PROOF. Notices wait one a place and are taken by priority (R217, R218), and the read requests and the transactions that
take no request leave the rest of the station (R208, R209, R213, R215, R216). -/

namespace Sys2Proof.Machine

open Sys2Proof

/-! ### Notices (R217, R218) -/

/-- The first pending place is the one with no pending place before it (R218). -/
theorem firstPending_eq_some {notices : Tbl 14 (Option NoticeEntry)} {i : Fin 14} {e : NoticeEntry}
    (hi : notices.get i = some e) (hbefore : ∀ j < i, notices.get j = none) : firstPending notices = some i := by
  refine List.find?_eq_some_iff_getElem.mpr ⟨by simp [hi], i.val, by simp, by simp, fun j hj => ?_⟩
  have hnone := hbefore ⟨j, hj.trans i.isLt⟩ hj
  simp [hnone]

/-- With no place pending there is no first one. -/
theorem firstPending_eq_none {notices : Tbl 14 (Option NoticeEntry)} (h : ∀ i, notices.get i = none) :
    firstPending notices = none :=
  List.find?_eq_none.mpr (fun i _ => by simp [h i])

theorem exec_takeNotice_of_pending {s : State} {i : Fin 14} {e : NoticeEntry} (hi : s.cpt.notices.get i = some e)
    (hbefore : ∀ j < i, s.cpt.notices.get j = none) :
    exec .takeNotice s =
      .next (State.answer { s with cpt := s.cpt.emptyPlace i } .accepted (noticeBytes i e)) := by
  simp only [exec_takeNotice, execTakeNotice, firstPending_eq_some hi hbefore, hi]

theorem exec_takeNotice_of_none {s : State} (h : ∀ i, s.cpt.notices.get i = none) :
    exec .takeNotice s = .next (s.answer .accepted [0, 0]) := by
  simp only [exec_takeNotice, execTakeNotice, firstPending_eq_none h]

/-- Settles O22: the request by the place that is first, and a raise by the place of its kind. -/
theorem noticesWaitByPriority : Obligations.NoticesWaitByPriority := by
  unfold Obligations.NoticesWaitByPriority
  refine ⟨fun s => ⟨fun i e hi hbefore => ?taken, exec_takeNotice_of_none⟩, fun c n =>
    ⟨c.raise_atn n, fun h => ?first, fun e h => ?again, fun i hi => c.raise_other n (Ne.symm hi)⟩⟩
  case taken => exact ⟨_, exec_takeNotice_of_pending hi hbefore, rfl, rfl, rfl, rfl⟩
  case first => rw [c.raise_place n, h]; rfl
  case again => rw [c.raise_place n, h]; rfl

/-! ### Transactions that take no request (R208, R209) -/

/-- Settles O17: the fresh flag is what `freshAfterRead` leaves, and the other two change the port as R208 says. -/
theorem otherTransactionsChangeThePortAlone : Obligations.OtherTransactionsChangeThePortAlone := by
  unfold Obligations.OtherTransactionsChangeThePortAlone
  refine ⟨fun s n => ⟨_, exec_readTransaction n s, rfl, rfl, rfl⟩, fun s bytes => ⟨?malformed, ?discarded⟩⟩
  case malformed => exact exec_malformedRequest bytes s
  case discarded => exact exec_discardedTransaction bytes s

/-! ### The read requests (R213, R215, R216) -/

/-- READ_STATUS knows the sections 0 to 6 alone (R215). -/
theorem sectionStatus_of_le (s : State) {n : Nat} (h : n ≤ 6) : ∃ d, sectionStatus s n = some d := by
  interval_cases n <;> exact ⟨_, rfl⟩

theorem sectionStatus_of_lt (s : State) {n : Nat} (h : 6 < n) : sectionStatus s n = none := by
  obtain ⟨k, rfl⟩ := Nat.exists_eq_add_of_lt h
  rw [show 6 + k + 1 = k + 7 by omega]
  rfl

theorem exec_readView_of_station (s : State) {b : Byte} {p : StationNo} (h : b.toNat = p.val) :
    exec (.readView b) s = .next (s.answer .accepted (viewBytes (s.cle.peers.get p))) := by
  have hp : finOfByte 8 b = some p :=
    (finOfByte_eq_some (by decide)).mpr ((toNat_eq_iff_eq_ofNat (by omega)).mp h)
  simp only [exec_readView, execReadView, hp]

theorem exec_readView_of_lt (s : State) {b : Byte} (h : 7 < b.toNat) :
    exec (.readView b) s = .next (s.answer .badArgument []) := by
  have hp : finOfByte 8 b = none := dif_neg (by omega)
  simp only [exec_readView, execReadView, hp]

/-- Settles O21: each request answers with what it reads, and the sections and stations that exist are those below the
numbers given. -/
theorem readRequestsChangeOnlyTheResult : Obligations.ReadRequestsChangeOnlyTheResult := by
  unfold Obligations.ReadRequestsChangeOnlyTheResult
  refine ⟨fun s a b => ⟨?config, fun h => ?known, fun h => ?unknown,
    fun p h => exec_readView_of_station s h, exec_readView_of_lt s, exec_readClaims s, exec_readStations s⟩,
    exec_readLineError⟩
  case config =>
    rw [exec_readConfig, execReadConfig]
    cases s.cpt.store.read a.toNat b.toNat <;> rfl
  case known =>
    obtain ⟨d, hd⟩ := sectionStatus_of_le s h
    exact ⟨d, hd, by simp only [exec_readStatus, execReadStatus, hd]⟩
  case unknown => simp only [exec_readStatus, execReadStatus, sectionStatus_of_lt s h]

end Sys2Proof.Machine
end

section
/-! PROOF. The port reads back each transaction from its bytes and from its bits on SDI (R208, R210). -/

namespace Sys2Proof.Machine

open Sys2Proof

/-- A number of two bytes, most significant first, comes back from its bytes. -/
theorem append_extractBytes (x : BitVec 16) : x.extractLsb' 8 8 ++ x.extractLsb' 0 8 = x := by
  ext i hi
  rw [BitVec.getElem_append]
  split
  · simp [BitVec.getLsbD_eq_getElem hi]
  · simp [show 8 + (i - 8) = i by omega, BitVec.getLsbD_eq_getElem hi]

/-- A request is read from its code, its length and its argument bytes (R208). -/
theorem decodeTransaction_requestBytes {code : Byte} {args : List Byte} {i : Instr} (hcode : code ≠ 0)
    (hlength : args.length ≤ 32) (h : decodeRequest code args = some i) :
    decodeTransaction (requestBytes code args) = i := by
  have hlen : (BitVec.ofNat 8 args.length).toNat = args.length := by
    rw [BitVec.toNat_ofNat]
    omega
  have hfits : ¬ (32 < args.length ∨ args.length < args.length) := by omega
  unfold requestBytes decodeTransaction
  simp only [if_neg hcode, hlen, if_neg hfits, List.take_length, h]

/-- A code above 22 names no request (R210). -/
theorem decodeRequest_of_lt {code : Byte} (args : List Byte) (h : 22 < code.toNat) : decodeRequest code args = none := by
  obtain ⟨k, hk⟩ := Nat.exists_eq_add_of_lt h
  delta decodeRequest
  rw [hk, show 22 + k + 1 = k + 23 by omega]
  rfl

/-- A request is read only from as many argument bytes as its form allows; none but SET_CONFIG has more than four
(R210). -/
theorem formFits_of_decodeRequest {code : Byte} {args : List Byte} {i : Instr} (hlength : args.length ≤ 32)
    (h : decodeRequest code args = some i) : formFits code.toNat args.length = true := by
  by_cases hcode : 22 < code.toNat
  · rw [decodeRequest_of_lt args hcode] at h; cases h
  by_cases hset : code.toNat = 3 ∧ 2 ≤ args.length
  · obtain ⟨hthree, htwo⟩ := hset
    rw [hthree]
    simp [formFits, htwo, hlength]
  delta decodeRequest at h
  generalize code.toNat = n at h hcode hset ⊢
  match args with
  | [] | [_] | [_, _] | [_, _, _] | [_, _, _, _] => interval_cases n <;> first | rfl | cases h
  | _ :: _ :: _ :: _ :: _ :: _ =>
    have hthree : n ≠ 3 := fun e => hset ⟨e, by simp⟩
    interval_cases n <;> first | exact absurd rfl hthree | cases h

/-- A malformed request is read as one (R208). -/
theorem decodeTransaction_of_isMalformed {bytes : List Byte} (h : isMalformed bytes = true) :
    decodeTransaction bytes = .malformedRequest bytes := by
  match bytes, h with
  | code :: len :: args, h =>
    simp only [isMalformed, Bool.and_eq_true, Bool.or_eq_true, bne_iff_ne, decide_eq_true_eq, Bool.not_eq_true'] at h
    obtain ⟨hcode, hbad⟩ := h
    unfold decodeTransaction
    simp only [hcode, if_false]
    split
    next => rfl
    next hshort =>
      have hform : formFits code.toNat len.toNat = false := hbad.resolve_left hshort
      have htake : (args.take len.toNat).length = len.toNat := by rw [List.length_take]; omega
      split
      next i hi =>
        have := formFits_of_decodeRequest (by omega) hi
        rw [htake, hform] at this
        cases this
      next => rfl

/-- A discarded transaction is read as one (R208). -/
theorem decodeTransaction_of_isDiscarded {bytes : List Byte} (h : isDiscarded bytes = true) :
    decodeTransaction bytes = .discardedTransaction bytes := by
  match bytes, h with
  | [], _ => rfl
  | [code], h => exact if_neg (bne_iff_ne.mp h)

/-- Bytes of which the first is 0 are a read transaction of as many bytes (R209). -/
theorem decodeTransaction_replicate {n : Nat} (h : 1 ≤ n) : decodeTransaction (List.replicate n 0) = .readTransaction n := by
  match n, h with
  | 1, _ => rfl
  | n + 2, _ =>
    show Instr.readTransaction ((List.replicate n (0 : Byte)).length + 2) = _
    rw [List.length_replicate]

/-- The bytes that are a request with this code and these argument bytes, as the table of R210 reads it. -/
def IsRequestOf (i : Instr) (bytes : List Byte) : Prop :=
  ∃ code args, bytes = requestBytes code args ∧ code ≠ 0 ∧ args.length ≤ 32 ∧ decodeRequest code args = some i

/-- A command that is a transaction is a request, or one of the three kinds of transaction that R208 and R209 tell from
requests. -/
theorem encodeTransaction_cases {i : Instr} {bytes : List Byte} (hwf : i.wellFormed = true)
    (h : encodeTransaction i = some bytes) :
    IsRequestOf i bytes ∨ i = .malformedRequest bytes ∨ i = .discardedTransaction bytes ∨
      ∃ n, i = .readTransaction n ∧ bytes = List.replicate n 0 := by
  cases i with
  | malformedRequest b => cases h; exact .inr (.inl rfl)
  | discardedTransaction b => cases h; exact .inr (.inr (.inl rfl))
  | readTransaction n => cases h; exact .inr (.inr (.inr ⟨n, rfl, rfl⟩))
  | setConfig item index value =>
    cases h
    have hvalue : value.length ≤ 30 := of_decide_eq_true hwf
    exact .inl ⟨3, _, rfl, by decide, Nat.add_le_add_right hvalue 2, rfl⟩
  | tune channel =>
    cases h
    refine .inl ⟨12, _, rfl, by decide, Nat.le_of_ble_eq_true rfl, ?_⟩
    exact congrArg (fun c => some (Instr.tune c)) (append_extractBytes channel)
  | setSource source flag cls =>
    cases cls <;> cases h <;> exact .inl ⟨7, _, rfl, by decide, Nat.le_of_ble_eq_true rfl, rfl⟩
  | claim kind urgency zones ref =>
    cases ref <;> cases h <;> exact .inl ⟨10, _, rfl, by decide, Nat.le_of_ble_eq_true rfl, rfl⟩
  | _ =>
    cases h <;> exact .inl ⟨_, _, rfl, by decide, Nat.le_of_ble_eq_true rfl, rfl⟩

/-- The port reads back every command from the bytes of its transaction. -/
theorem decodeTransaction_encodeTransaction {i : Instr} {bytes : List Byte} (hwf : i.wellFormed = true)
    (h : encodeTransaction i = some bytes) : decodeTransaction bytes = i := by
  rcases encodeTransaction_cases hwf h with ⟨code, args, rfl, hcode, hlength, hi⟩ | rfl | rfl | ⟨n, rfl, rfl⟩
  · exact decodeTransaction_requestBytes hcode hlength hi
  · exact decodeTransaction_of_isMalformed hwf
  · exact decodeTransaction_of_isDiscarded hwf
  · exact decodeTransaction_replicate (of_decide_eq_true hwf)

/-- Settles O18: the bytes by the kind of transaction, and the bits by the bytes that come back from them. -/
theorem transactionsDecodeToTheirCommands : Obligations.TransactionsDecodeToTheirCommands := by
  unfold Obligations.TransactionsDecodeToTheirCommands
  intro i bytes hwf h
  have hdecode := decodeTransaction_encodeTransaction hwf h
  refine ⟨hdecode, fun extra hextra => ?_⟩
  rw [decodeSdi, bytesOfBits_flatMap bytes extra hextra, hdecode]

end Sys2Proof.Machine
end

section
/-! PROOF. START checks the store in its order and joins, with each block in its operation of START (R23, R78, R91, R115,
R133, R134, R137, R149, R174, R214). -/

namespace Sys2Proof.Machine

open Sys2Proof

/-! ### The checks (R214) -/

/-- A feed slot in use on an output whose zone set is empty (R214, check 2). -/
def Store.SlotFails (c : Store) (o : OutputNo) (sl : SlotNo) : Prop := c.used o = false ∧ (c.feed o sl).selector ≠ .none

/-- The feed slots in the order of outputs, and in an output of slots (log 45). -/
def slotOrder (x y : OutputNo × SlotNo) : Prop := x.1 < y.1 ∨ x.1 = y.1 ∧ x.2 < y.2

/-- The feed slots that check 2 looks through. -/
def feedSlots : List (OutputNo × SlotNo) :=
  (Tbl.indices 11).flatMap (fun o => (Tbl.indices 4).map (fun sl => (o, sl)))

theorem mem_feedSlots (o : OutputNo) (sl : SlotNo) : (o, sl) ∈ feedSlots :=
  List.mem_flatMap.mpr ⟨o, List.mem_finRange o, List.mem_map.mpr ⟨sl, List.mem_finRange sl, rfl⟩⟩

theorem feedSlots_pairwise : feedSlots.Pairwise slotOrder := by
  refine List.pairwise_flatMap.mpr ⟨fun o _ => ?_, ?_⟩
  · exact List.pairwise_map.mpr ((List.pairwise_lt_finRange 4).imp (fun h => .inr ⟨rfl, h⟩))
  · refine (List.pairwise_lt_finRange 11).imp (fun {o p} h x hx y hy => ?_)
    obtain ⟨_, _, rfl⟩ := List.mem_map.mp hx
    obtain ⟨_, _, rfl⟩ := List.mem_map.mp hy
    exact .inl h

/-- What is found first in an ordered list comes before whatever else the search would take. -/
theorem find?_first_of_pairwise {α : Type} {r : α → α → Prop} {p : α → Bool} {l : List α} {a b : α} (hl : l.Pairwise r)
    (h : l.find? p = some a) (hb : b ∈ l) (hp : p b = true) : b = a ∨ r a b := by
  obtain ⟨_, before, after, rfl, hbefore⟩ := List.find?_eq_some_iff_append.mp h
  obtain ⟨_, hafter, _⟩ := List.pairwise_append.mp hl
  rcases List.mem_append.mp hb with hb | hb
  · have := hbefore b hb
    simp [hp] at this
  · rcases List.mem_cons.mp hb with rfl | hb
    · exact .inl rfl
    · exact .inr ((List.pairwise_cons.mp hafter).1 b hb)

theorem unusedOutput_eq (c : Store) :
    unusedOutput c = feedSlots.find? (fun x => !c.used x.1 && (c.feed x.1 x.2).selector != .none) := rfl

theorem slotFails_iff (c : Store) (o : OutputNo) (sl : SlotNo) :
    (!c.used o && (c.feed o sl).selector != .none) = true ↔ c.SlotFails o sl := by
  simp [Store.SlotFails]

/-- Check 2 names the lowest output with a failing slot, and in it the lowest slot (log 45). -/
theorem unusedOutput_of_least {c : Store} {o : OutputNo} {sl : SlotNo} (h : c.SlotFails o sl)
    (hleast : ∀ (p : OutputNo) (k : SlotNo), c.SlotFails p k → o < p ∨ o = p ∧ sl ≤ k) :
    unusedOutput c = some (o, sl) := by
  rw [unusedOutput_eq]
  have hfail := (slotFails_iff c o sl).mpr h
  cases hfind : feedSlots.find? (fun x => !c.used x.1 && (c.feed x.1 x.2).selector != .none) with
  | none => exact absurd hfail (List.find?_eq_none.mp hfind (o, sl) (mem_feedSlots o sl))
  | some x =>
    obtain ⟨p, k⟩ := x
    have hfound := List.find?_some hfind
    have hpk := hleast p k ((slotFails_iff c p k).mp hfound)
    rcases find?_first_of_pairwise feedSlots_pairwise hfind (mem_feedSlots o sl) hfail with heq | hbefore
    · rw [heq]
    · simp only [slotOrder, Fin.lt_def, Fin.ext_iff] at hbefore
      simp only [Fin.lt_def, Fin.le_def, Fin.ext_iff] at hpk
      omega

theorem unusedOutput_of_none {c : Store} (h : ∀ (o : OutputNo) (sl : SlotNo), ¬ c.SlotFails o sl) :
    unusedOutput c = none :=
  List.find?_eq_none.mpr (fun x _ hx => h x.1 x.2 ((slotFails_iff c x.1 x.2).mp hx))

theorem startFailure_of_noStation {c : Store} (h : c.station = none) : startFailure c = some [0] := by
  rw [startFailure, h]

theorem startFailure_of_unused {c : Store} {o : OutputNo} {sl : SlotNo} (hstation : c.station ≠ none)
    (h : unusedOutput c = some (o, sl)) : startFailure c = some ([1] ++ num1 o.val ++ num1 sl.val) := by
  obtain ⟨own, hown⟩ := Option.ne_none_iff_exists'.mp hstation
  simp only [startFailure, hown, h]

/-- Past the first two checks the static streams are counted (R214). -/
theorem startFailure_of_used {c : Store} (hstation : c.station ≠ none) (h : unusedOutput c = none) :
    startFailure c = if 6 < (staticStreams c c.own).length then some ([2] ++ num1 (staticStreams c c.own).length)
      else none := by
  obtain ⟨own, hown⟩ := Option.ne_none_iff_exists'.mp hstation
  have hs : c.own = own := by simp [Store.own, hown]
  simp only [startFailure, hown, h, hs]
  rfl

/-- START in CONFIG with a check that fails. -/
theorem exec_start_of_failure {s : State} {data : List Byte} (hc : s.inConfig = true)
    (h : startFailure s.cpt.store = some data) : exec .start s = .next (s.answer .configInvalid data) := by
  simp only [exec_start, execStart, hc, h, if_true]

/-- START in CONFIG with no check that fails. -/
theorem exec_start_of_valid {s : State} (hc : s.inConfig = true) (h : startFailure s.cpt.store = none) :
    exec .start s = .next (s.started.answer .accepted []) := by
  simp only [exec_start, execStart, hc, h, if_true]

/-! ### What an accepted START leaves in each block -/

/-- A feed's inactive values (R91, R115). -/
theorem Mxe.started_feed (m : Mxe) (o : OutputNo) (sl : SlotNo) : (m.started.feeds.get o).get sl = Feed.inactive := by
  simp [Mxe.started]

/-- A buffer at START, allocated to its static stream and STARVED, or FREE (R78). -/
theorem Iku.started_buffer (c : Store) (own : StationNo) (i : BufferNo) :
    let b := (Iku.started c own).buffers.get i
    b.stream = (staticStreams c own)[i.val]? ∧ b.static = b.stream.isSome ∧
      b.state = (if b.stream = none then .free else .starved) ∧ b.ring = [] ∧ b.expected = none ∧ b.highRun = 0 ∧
      b.lowRun = 0 ∧ b.gap = false ∧ b.force = false ∧ b.returning = false := by
  simp only [Iku.started, allocateStatic, Tbl.get_ofFn]
  cases (staticStreams c own)[i.val]? <;> exact ⟨rfl, rfl, rfl, rfl, rfl, rfl, rfl, rfl, rfl, rfl⟩

/-- The Radio Unit at START: with A untuned the mode that the control chooses moves no path (R149, R174). -/
theorem Rdu.started_eq (r : Rdu) (c : Store) : r.started c =
    { Rdu.reset with
      radio := r.radio, scanEnable := c.scanDefault, announceEnable := c.announceDefault, mode := c.restartMode } := by
  let fresh : Rdu := { Rdu.reset with
    radio := r.radio, scanEnable := c.scanDefault, announceEnable := c.announceDefault }
  have hmode : fresh.chosenMode c = c.restartMode := by
    unfold Rdu.chosenMode Store.restartMode
    by_cases hf : c.frontEnds = .ab <;> simp [hf, fresh, Rdu.reset]
  show fresh.control c false = _
  unfold Rdu.control
  rw [hmode]
  rcases c.restartMode_cases with hm | hm <;> rw [hm] <;> rfl

theorem Bridge.started_of_unused {c : Store} {i : BridgeNo} (b : Bridge) (h : c.bridgeUsed i = false) :
    b.started c i = b := by
  rw [Bridge.started, h]
  rfl

theorem Bridge.started_of_used {c : Store} {i : BridgeNo} (b : Bridge) (h : c.bridgeUsed i = true) :
    b.started c i = { b with state := if b.hold = 0 then .run else heldState c b } := if_pos h

/-- A used bridge at START runs exactly where its hold set is empty (R134). -/
theorem Bridge.started_ne_run_iff {c : Store} {i : BridgeNo} (b : Bridge) (h : c.bridgeUsed i = true) :
    (b.started c i).state ≠ .run ↔ (b.started c i).hold ≠ 0 := by
  rw [b.started_of_used h]
  by_cases hhold : b.hold = 0
  · simp [hhold]
  · simp [heldState_ne_run]

/-- The notices of START are those of the used bridges it finds held (R134, R137). -/
theorem State.started_notices (s : State) : (s.ost.started s.cpt.store).2 = heldNotices s s.started := by
  have hbridge (i : BridgeNo) : s.started.ost.bridges.get i = (s.ost.bridges.get i).started s.cpt.store i :=
    Ost.started_bridge _ _ i
  unfold heldNotices
  simp only [hbridge]
  refine (flatMap_ite_singleton _ _ _).trans (List.filterMap_congr (fun i _ => ?_))
  refine if_congr ?_ rfl rfl
  rw [Bool.and_eq_true, bne_iff_ne]
  exact and_congr_right (fun hused => Bridge.started_ne_run_iff _ hused)

/-- A bridge at START (R133, R134). -/
theorem Bridge.started_cases (c : Store) (i : BridgeNo) (b : Bridge) :
    let u := b.started c i
    let latched := ∃ k, holds b.hold k = true ∧ LatchedFor c b k
    (c.bridgeUsed i = false → u = b) ∧
      (c.bridgeUsed i = true → u = { b with state := u.state } ∧ (b.hold = 0 → u.state = .run) ∧
        (b.hold ≠ 0 → latched → u.state = .locked) ∧ (b.hold ≠ 0 → ¬ latched → u.state = .halted)) := by
  refine ⟨fun h => b.started_of_unused h, fun h => ?_⟩
  rw [b.started_of_used h]
  refine ⟨rfl, fun hhold => if_pos hhold, fun hhold hl => ?_, fun hhold hl => ?_⟩
  · exact (if_neg hhold).trans (heldState_of_latched hl)
  · exact (if_neg hhold).trans (heldState_of_not_latched (fun k hk hlk => hl ⟨k, hk, hlk⟩))

/-- Settles O11: the checks one after the other, and an accepted START block by block. -/
theorem startValidatesAndJoins : Obligations.StartValidatesAndJoins := by
  unfold Obligations.StartValidatesAndJoins
  intro s c fails
  refine ⟨fun hc => ?notReady, fun hc hstation => ?noStation, fun hc hstation o sl hfails hleast => ?unused,
    fun hc hstation hnone => ⟨fun hmany => ?many, fun hfew => ?accepted⟩⟩
  case notReady => simp only [exec_start, execStart, hc, Bool.false_eq_true, if_false]
  case noStation => exact exec_start_of_failure hc (startFailure_of_noStation hstation)
  case unused =>
    exact exec_start_of_failure hc (startFailure_of_unused hstation (unusedOutput_of_least hfails hleast))
  case many =>
    have hused := startFailure_of_used hstation (unusedOutput_of_none hnone)
    exact exec_start_of_failure hc (hused.trans (if_pos hmany))
  case accepted =>
    have hused := startFailure_of_used hstation (unusedOutput_of_none hnone)
    have hvalid : startFailure s.cpt.store = none := hused.trans (if_neg (Nat.not_lt.mpr hfew))
    refine ⟨_, exec_start_of_valid hc hvalid, rfl, rfl, ?port, rfl, fun o sl => ?feed, rfl, Iku.started_buffer c s.own, rfl,
      fun i => ?bridge, s.rdu.started_eq c⟩
    case port =>
      show ({ s.cpt.raiseAll (s.ost.started s.cpt.store).2 with fixed := true } : Cpt).answer .accepted [] = _
      rw [s.started_notices]
      rfl
    case feed =>
      have hfeed : ((s.started.answer .accepted []).mxe.feeds.get o).get sl = Feed.inactive := s.mxe.started_feed o sl
      rw [hfeed]
      exact ⟨rfl, rfl, rfl, rfl, rfl, rfl, rfl⟩
    case bridge =>
      have hbridge : (s.started.answer .accepted []).ost.bridges.get i = (s.ost.bridges.get i).started c i :=
        Ost.started_bridge _ _ i
      rw [hbridge]
      exact (s.ost.bridges.get i).started_cases c i

end Sys2Proof.Machine
end

section
/-! SUPPORT. How the values of configuration items are read from bytes and written to them (R210, R212): a value that is
taken is stored as it was written or clamped, and what is stored can be written again. -/

namespace Sys2Proof.Machine

open Sys2Proof

/-- Bytes are read by `dec` where `takes` takes them, and the value read is written by `enc` as the bytes that `stored`
makes of them, which read as the same value. -/
structure Codec {α : Type} (dec : List Byte → Option α) (enc : α → List Byte) (takes : List Byte → Prop)
    (stored : List Byte → List Byte) : Prop where
  takes_iff : ∀ v, takes v ↔ ∃ a, dec v = some a
  stored_eq : ∀ {v a}, dec v = some a → stored v = enc a
  again : ∀ {v a}, dec v = some a → dec (enc a) = some a

/-- A reading of exactly the bytes that are written, of the values that may be stored. -/
theorem Codec.exact {α : Type} {dec : List Byte → Option α} {enc : α → List Byte} {takes : List Byte → Prop}
    {ok : α → Prop} (hdec : ∀ v a, dec v = some a ↔ v = enc a ∧ ok a) (htakes : ∀ v, takes v ↔ ∃ a, v = enc a ∧ ok a) :
    Codec dec enc takes id where
  takes_iff v := by simp only [htakes, hdec]
  stored_eq h := ((hdec _ _).mp h).1
  again h := (hdec _ _).mpr ⟨rfl, ((hdec _ _).mp h).2⟩

/-! ### Values of one byte -/

/-- A value of one byte, of which the number satisfies `p`. -/
def ByteIn (p : Nat → Prop) (v : List Byte) : Prop := ∃ b : Byte, v = [b] ∧ p b.toNat

theorem oneByte_eq_some {v : List Byte} {n : Nat} : oneByte v = some n ↔ ∃ b : Byte, v = [b] ∧ n = b.toNat := by
  unfold oneByte
  split
  next b => simp [eq_comm]
  next hv => simpa using fun b hb => absurd hb (hv b)

theorem oneZoneSet_eq_some {v : List Byte} {zs : ZoneSet} : oneZoneSet v = some zs ↔ v = zones1 zs := by
  unfold oneZoneSet zones1
  split
  next b => simp [zonesOfByte_eq_some]
  next hv => simpa using hv _

theorem clampNat_lt {lo hi : Nat} (hlo : lo ≤ hi) (hhi : hi < 256) (n : Nat) : clampNat lo hi n < 256 := by
  unfold clampNat
  omega

theorem clampNat_clampNat {lo hi : Nat} (n : Nat) : clampNat lo hi (clampNat lo hi n) = clampNat lo hi n := by
  unfold clampNat
  omega

theorem clampNat_zero (hi n : Nat) : clampNat 0 hi n = min hi n := Nat.zero_max _

/-- A number of one byte, brought into its range. -/
theorem Codec.number (lo hi : Nat) (hlo : lo ≤ hi) (hhi : hi < 256) : Codec (clampedByte lo hi) num1 (ByteIn (fun _ => True))
    (fun v => v.map (fun b => BitVec.ofNat 8 (max lo (min hi b.toNat)))) := by
  have hdec (v : List Byte) (n : Nat) :
      clampedByte lo hi v = some n ↔ ∃ b : Byte, v = [b] ∧ n = clampNat lo hi b.toNat := by
    unfold clampedByte
    simp only [Option.map_eq_some_iff, oneByte_eq_some]
    constructor
    · rintro ⟨_, ⟨b, hv, rfl⟩, rfl⟩
      exact ⟨b, hv, rfl⟩
    · rintro ⟨b, hv, rfl⟩
      exact ⟨_, ⟨b, hv, rfl⟩, rfl⟩
  refine ⟨fun v => ⟨?_, ?_⟩, fun {v n} h => ?_, fun {v n} h => ?_⟩
  · rintro ⟨b, hv, _⟩
    exact ⟨_, (hdec v _).mpr ⟨b, hv, rfl⟩⟩
  · rintro ⟨n, hn⟩
    obtain ⟨b, hv, _⟩ := (hdec v n).mp hn
    exact ⟨b, hv, trivial⟩
  · obtain ⟨b, rfl, rfl⟩ := (hdec v n).mp h
    rfl
  · obtain ⟨b, rfl, rfl⟩ := (hdec v n).mp h
    refine (hdec _ _).mpr ⟨_, rfl, ?_⟩
    rw [BitVec.toNat_ofNat, Nat.mod_eq_of_lt (clampNat_lt hlo hhi _), clampNat_clampNat]

/-- A code of one byte. -/
theorem Codec.code {α : Type} {ofCode : Nat → Option α} {code : α → Nat} {ok : α → Prop} {p : Nat → Prop}
    (hcode : ∀ n a, ofCode n = some a ↔ n = code a ∧ ok a) (hlt : ∀ a, ok a → code a < 256)
    (hp : ∀ n, p n ↔ ∃ a, n = code a ∧ ok a) :
    Codec (fun v => (oneByte v).bind ofCode) (fun a => num1 (code a)) (ByteIn p) id := by
  have hbyte (v : List Byte) (a : α) (ha : ok a) : v = num1 (code a) ↔ ∃ b : Byte, v = [b] ∧ b.toNat = code a := by
    simp only [toNat_eq_iff_eq_ofNat (hlt a ha)]
    simp [num1]
  refine .exact (ok := ok) (fun v a => ?_) (fun v => ?_)
  · simp only [Option.bind_eq_some_iff, oneByte_eq_some, hcode]
    constructor
    · rintro ⟨_, ⟨b, hv, rfl⟩, hb, ha⟩
      exact ⟨(hbyte v a ha).mpr ⟨b, hv, hb⟩, ha⟩
    · rintro ⟨hv, ha⟩
      obtain ⟨b, hv, hb⟩ := (hbyte v a ha).mp hv
      exact ⟨_, ⟨b, hv, rfl⟩, hb, ha⟩
  · unfold ByteIn
    simp only [hp]
    constructor
    · rintro ⟨b, hv, a, hb, ha⟩
      exact ⟨a, (hbyte v a ha).mpr ⟨b, hv, hb⟩, ha⟩
    · rintro ⟨a, hv, ha⟩
      obtain ⟨b, hv, hb⟩ := (hbyte v a ha).mp hv
      exact ⟨b, hv, a, hb, ha⟩

/-! ### The codes (R210) -/

theorem indexed_eq_some {n index : Nat} {i : Fin n} : indexed n index = some i ↔ index = i.val := by
  unfold indexed
  split
  next h => simp [Fin.ext_iff, eq_comm]
  next h => simp; omega

theorem indexed_val {n : Nat} (i : Fin n) : indexed n i.val = some i := indexed_eq_some.mpr rfl

/-- A number below a bound of at most 256. -/
theorem Codec.below (n : Nat) (hn : n ≤ 256) :
    Codec (fun v => (oneByte v).bind (indexed n)) (fun i => num1 i.val) (ByteIn (· < n)) id :=
  .code (ok := fun _ => True) (fun _ _ => by simp [indexed_eq_some]) (fun i _ => by omega)
    (fun m => ⟨fun h => ⟨⟨m, h⟩, rfl, trivial⟩, fun ⟨i, h, _⟩ => h ▸ i.isLt⟩)

theorem onOffOfCode_eq_some {n : Nat} {x : Bool} : onOffOfCode n = some x ↔ n = x.toNat := by
  constructor
  · intro h
    unfold onOffOfCode at h
    split at h <;> cases h <;> rfl
  · rintro rfl
    cases x <;> rfl

theorem FrontEnds.ofCode_eq_some {n : Nat} {x : FrontEnds} : FrontEnds.ofCode n = some x ↔ n = x.code := by
  constructor
  · intro h
    unfold FrontEnds.ofCode at h
    split at h <;> cases h <;> rfl
  · rintro rfl
    cases x <;> rfl

theorem Edge.ofCode_eq_some {n : Nat} {x : Edge} : Edge.ofCode n = some x ↔ n = x.code := by
  constructor
  · intro h
    unfold Edge.ofCode at h
    split at h <;> cases h <;> rfl
  · rintro rfl
    cases x <;> rfl

theorem Pick.ofCode_eq_some {n : Nat} {x : Pick} : Pick.ofCode n = some x ↔ n = x.code := by
  constructor
  · intro h
    unfold Pick.ofCode at h
    split at h <;> cases h <;> rfl
  · rintro rfl
    cases x <;> rfl

theorem Source.ofCode_eq_some {n : Nat} {x : Source} : Source.ofCode n = some x ↔ n = x.code := by
  constructor
  · intro h
    unfold Source.ofCode at h
    split at h <;> cases h <;> rfl
  · rintro rfl
    cases x <;> rfl

theorem fallbackZoneOf_eq_some {n : Nat} {z : Zone} : fallbackZoneOf n = some z ↔ n = z.code ∧ z ≠ .drv := by
  constructor
  · intro h
    unfold fallbackZoneOf Zone.ofCode at h
    split at h
    · cases h
    · split at h <;> cases h <;> exact ⟨rfl, by simp_all⟩
  · rintro ⟨rfl, hz⟩
    cases z
    · exact absurd rfl hz
    all_goals rfl

theorem flag1_eq (x : Bool) : flag1 x = num1 x.toNat := by cases x <;> rfl

/-- Off or on. -/
theorem Codec.onOff : Codec (fun v => (oneByte v).bind onOffOfCode) flag1 (ByteIn (· ≤ 1)) id := by
  rw [funext flag1_eq]
  refine .code (ok := fun _ => True) (fun _ _ => by simp [onOffOfCode_eq_some]) (fun x _ => by cases x <;> decide)
    (fun n => ⟨fun h => ?_, fun ⟨x, h, _⟩ => by cases x <;> simp_all⟩)
  interval_cases n
  · exact ⟨false, rfl, trivial⟩
  · exact ⟨true, rfl, trivial⟩

/-- Front-end presence. -/
theorem Codec.frontEnds :
    Codec (fun v => (oneByte v).bind FrontEnds.ofCode) (fun x => num1 x.code) (ByteIn (· ≤ 2)) id := by
  refine .code (ok := fun _ => True) (fun _ _ => by simp [FrontEnds.ofCode_eq_some]) (fun x _ => by cases x <;> decide)
    (fun n => ⟨fun h => ?_, fun ⟨x, h, _⟩ => by cases x <;> simp_all [FrontEnds.code]⟩)
  interval_cases n
  · exact ⟨.none, rfl, trivial⟩
  · exact ⟨.a, rfl, trivial⟩
  · exact ⟨.ab, rfl, trivial⟩

/-- Edge selections. -/
theorem Codec.edge : Codec (fun v => (oneByte v).bind Edge.ofCode) (fun x => num1 x.code) (ByteIn (· ≤ 3)) id := by
  refine .code (ok := fun _ => True) (fun _ _ => by simp [Edge.ofCode_eq_some]) (fun x _ => by cases x <;> decide)
    (fun n => ⟨fun h => ?_, fun ⟨x, h, _⟩ => by cases x <;> simp_all [Edge.code]⟩)
  interval_cases n
  · exact ⟨.rise, rfl, trivial⟩
  · exact ⟨.fall, rfl, trivial⟩
  · exact ⟨.both, rfl, trivial⟩
  · exact ⟨.off, rfl, trivial⟩

/-- Fallback zones: any but DRV (R105). -/
theorem Codec.fallbackZone :
    Codec (fun v => (oneByte v).bind fallbackZoneOf) (fun z => num1 z.code) (ByteIn (fun b => 1 ≤ b ∧ b ≤ 4)) id := by
  refine .code (fun _ _ => fallbackZoneOf_eq_some) (fun z _ => by cases z <;> decide)
    (fun n => ⟨fun ⟨h1, h4⟩ => ?_, fun ⟨z, h, hz⟩ => by cases z <;> simp_all [Zone.code]⟩)
  interval_cases n
  · exact ⟨.pas, rfl, nofun⟩
  · exact ⟨.rl, rfl, nofun⟩
  · exact ⟨.rr, rfl, nofun⟩
  · exact ⟨.trw, rfl, nofun⟩

/-- Any byte, as it is. -/
theorem Codec.anyByte : Codec (fun v => (oneByte v).map (BitVec.ofNat 8)) (fun b => [b]) (ByteIn (fun _ => True)) id := by
  refine .exact (ok := fun _ => True) (fun v b => ?_) (fun v => by simp [ByteIn])
  simp only [Option.map_eq_some_iff, oneByte_eq_some]
  constructor
  · rintro ⟨_, ⟨x, rfl, rfl⟩, rfl⟩
    simp
  · rintro ⟨rfl, _⟩
    exact ⟨_, ⟨b, rfl, rfl⟩, by simp⟩

/-! ### Zone sets (R90, R210) -/

/-- A zone set byte, by the zone set it spells. -/
theorem byteIn_zoneSet (p : ZoneSet → Prop) (v : List Byte) :
    ByteIn (fun b => b < 32 ∧ p (BitVec.ofNat 5 b)) v ↔ ∃ zs : ZoneSet, v = zones1 zs ∧ p zs := by
  constructor
  · rintro ⟨b, rfl, hb, hp⟩
    refine ⟨BitVec.ofNat 5 b.toNat, congrArg (fun x => [x]) (BitVec.eq_of_toNat_eq ?_), hp⟩
    simp
    omega
  · rintro ⟨zs, rfl, hp⟩
    have hlt := zs.isLt
    have hbyte : (zs.setWidth 8).toNat = zs.toNat := by simp; omega
    refine ⟨zs.setWidth 8, rfl, by omega, ?_⟩
    rwa [hbyte, BitVec.ofNat_toNat, BitVec.setWidth_eq]

/-- The zone set of an output: a post takes at most one zone (R90). -/
theorem Codec.outputZones (i : Fin 10) : Codec (outputZones i) zones1
    (ByteIn (fun b => b < 32 ∧ (8 ≤ i.val → (zonesOf (BitVec.ofNat 5 b)).length ≤ 1))) id := by
  refine .exact (fun v zs => ?_) (byteIn_zoneSet (fun zs => 8 ≤ i.val → (zonesOf zs).length ≤ 1))
  unfold Machine.outputZones
  cases h : oneZoneSet v with
  | none =>
    refine ⟨nofun, fun ⟨hv, _⟩ => ?_⟩
    rw [oneZoneSet_eq_some.mpr hv] at h
    cases h
  | some ys =>
    rw [oneZoneSet_eq_some.mp h]
    have hinj : zones1 ys = zones1 zs ↔ ys = zs := by
      rw [← oneZoneSet_eq_some, oneZoneSet_eq_some.mpr rfl, Option.some.injEq]
    rw [hinj]
    dsimp only
    split
    next hmany =>
      refine ⟨nofun, ?_⟩
      rintro ⟨rfl, hfew⟩
      exact absurd (hfew hmany.1) (Nat.not_le.mpr hmany.2)
    next hfew =>
      rw [Option.some.injEq]
      refine ⟨?_, fun ⟨h, _⟩ => h⟩
      rintro rfl
      exact ⟨rfl, fun h8 => Nat.not_lt.mp (fun hlt => hfew ⟨h8, hlt⟩)⟩

/-- A zone set that is not empty. -/
theorem Codec.someZones :
    Codec (fun v => (oneZoneSet v).filter (fun zs => zs != 0)) zones1 (ByteIn (fun b => 0 < b ∧ b < 32)) id := by
  refine .exact (ok := fun zs => zs ≠ 0) (fun v zs => ?_) (fun v => ?_)
  · rw [Option.filter_eq_some_iff, oneZoneSet_eq_some, bne_iff_ne]
  · rw [← byteIn_zoneSet]
    unfold ByteIn
    refine exists_congr (fun b => and_congr_right (fun _ => ?_))
    dsimp only
    rw [and_comm]
    refine and_congr_right (fun hb => ?_)
    rw [ne_eq, ← BitVec.toNat_inj, BitVec.toNat_ofNat]
    simp
    omega

/-- The zone set of no zone or of one. -/
def zoneSetOf (z : Option Zone) : ZoneSet := (z.map Zone.bit).getD 0

theorem zoneOrNone_eq_some {zs : ZoneSet} {z : Option Zone} : zoneOrNone zs = some z ↔ zs = zoneSetOf z := by
  revert zs
  cases z with
  | none => decide
  | some z => cases z <;> decide

theorem few_zones_iff (zs : ZoneSet) : (zonesOf zs).length ≤ 1 ↔ ∃ z, zs = zoneSetOf z := by
  simp only [← zoneOrNone_eq_some]
  unfold zoneOrNone
  split
  next h => simp [h]
  next h => simp [h]
  next hnone hone =>
    simp only [reduceCtorEq, exists_false, iff_false, Nat.not_le]
    match hzs : zonesOf zs with
    | [] => exact absurd hzs hnone
    | [z] => exact absurd hzs (hone z)
    | _ :: _ :: _ => simp

/-- The zone of a microphone, or none. -/
theorem Codec.micZone : Codec (fun v => (oneZoneSet v).bind zoneOrNone) (fun z => zones1 (zoneSetOf z))
    (ByteIn (fun b => b < 32 ∧ (zonesOf (BitVec.ofNat 5 b)).length ≤ 1)) id := by
  refine .exact (ok := fun _ => True) (fun v z => ?_) (fun v => ?_)
  · simp [Option.bind_eq_some_iff, oneZoneSet_eq_some, zoneOrNone_eq_some]
  · rw [byteIn_zoneSet (fun zs => (zonesOf zs).length ≤ 1)]
    simp only [few_zones_iff]
    constructor
    · rintro ⟨_, hv, z, rfl⟩
      exact ⟨z, hv, trivial⟩
    · rintro ⟨z, hv, _⟩
      exact ⟨_, hv, z, rfl⟩

/-! ### Feed slots (R91, R105, R210) -/

/-- The type and argument codes of a selector (R210). -/
def selectorCodes : Selector → Nat × Nat
  | .none => (0, 0)
  | .local_ src => (1, src.code)
  | .stream n => (2, n.val)
  | .follow k => (3, k.code)
  | .uplink => (4, 0)

theorem selectorBytes_eq (sel : Selector) :
    selectorBytes sel = [BitVec.ofNat 8 (selectorCodes sel).1, BitVec.ofNat 8 (selectorCodes sel).2] := by
  cases sel <;> rfl

theorem selectorCodes_lt (sel : Selector) : (selectorCodes sel).1 < 256 ∧ (selectorCodes sel).2 < 256 := by
  cases sel with
  | stream n => exact ⟨Nat.lt_of_lt_of_le (Nat.lt_succ_self 2) (by decide), by have := n.isLt; show n.val < 256; omega⟩
  | local_ src => cases src <;> decide
  | follow k => cases k <;> decide
  | none | uplink => decide

/-- A selector is read from its codes; FOLLOW(QUIET) is refused (R91). -/
theorem parseSelector_eq_some {type arg : Nat} {sel : Selector} : parseSelector type arg = some sel ↔
    type = (selectorCodes sel).1 ∧ arg = (selectorCodes sel).2 ∧ sel ≠ .follow .quiet := by
  constructor
  · intro h
    unfold parseSelector at h
    split at h
    · split at h
      · next harg => cases h; exact ⟨rfl, harg, nofun⟩
      · cases h
    · obtain ⟨src, hsrc, rfl⟩ := Option.map_eq_some_iff.mp h
      exact ⟨rfl, Source.ofCode_eq_some.mp hsrc, nofun⟩
    · obtain ⟨n, hn, rfl⟩ := Option.map_eq_some_iff.mp h
      exact ⟨rfl, indexed_eq_some.mp hn, nofun⟩
    · split at h
      · cases h
      · next k hquiet hk =>
        cases h
        exact ⟨rfl, ClaimKind.ofCode_eq_some.mp hk, by simpa using hquiet⟩
      · cases h
    · split at h
      · next harg => cases h; exact ⟨rfl, harg, nofun⟩
      · cases h
    · cases h
  · rintro ⟨rfl, rfl, hquiet⟩
    cases sel with
    | none | uplink => rfl
    | local_ src => cases src <;> rfl
    | stream n => exact congrArg (Option.map Selector.stream) (indexed_val n)
    | follow k =>
      cases k
      case quiet => exact absurd rfl hquiet
      all_goals rfl

/-- The bytes that read as a feed slot: its own, but for the trim, which is clamped (R91). -/
theorem parseFeed_eq_some {o : OutputNo} {v : List Byte} {f : FeedConfig} : parseFeed o v = some f ↔
    f.selector ≠ .follow .quiet ∧ pickSuits o f.pick = true ∧ ∃ trim : Byte, f.trim = min 32 trim.toNat ∧
      v = selectorBytes f.selector ++ [BitVec.ofNat 8 f.pick.code, trim] ++ flag1 f.fallbackOnly := by
  have hbyte {b : Byte} {n : Nat} (hn : n < 256) (h : b.toNat = n) : b = BitVec.ofNat 8 n := (toNat_eq_iff_eq_ofNat hn).mp h
  constructor
  · intro h
    unfold parseFeed at h
    split at h
    next type arg pick trim cond =>
      obtain ⟨sel, hsel, h⟩ := Option.bind_eq_some_iff.mp h
      obtain ⟨p, hp, h⟩ := Option.bind_eq_some_iff.mp h
      obtain ⟨only, honly, h⟩ := Option.bind_eq_some_iff.mp h
      split at h
      next hsuits =>
        cases h
        obtain ⟨htype, harg, hquiet⟩ := parseSelector_eq_some.mp hsel
        obtain ⟨hlt1, hlt2⟩ := selectorCodes_lt sel
        refine ⟨hquiet, hsuits, trim, rfl, ?_⟩
        rw [selectorBytes_eq, hbyte hlt1 htype, hbyte hlt2 harg,
          hbyte (by cases p <;> decide) (Pick.ofCode_eq_some.mp hp),
          hbyte (by cases only <;> decide) (onOffOfCode_eq_some.mp honly), flag1_eq]
        rfl
      next => cases h
    next => cases h
  · rintro ⟨hquiet, hsuits, trim, htrim, rfl⟩
    obtain ⟨sel, p, n, only⟩ := f
    obtain ⟨hlt1, hlt2⟩ := selectorCodes_lt sel
    have htoNat {n : Nat} (hn : n < 256) : (BitVec.ofNat 8 n).toNat = n := (toNat_eq_iff_eq_ofNat hn).mpr rfl
    have hsel : parseSelector (BitVec.ofNat 8 (selectorCodes sel).1).toNat (BitVec.ofNat 8 (selectorCodes sel).2).toNat =
        some sel := parseSelector_eq_some.mpr ⟨htoNat hlt1, htoNat hlt2, hquiet⟩
    have hp : Pick.ofCode (BitVec.ofNat 8 p.code).toNat = some p := by cases p <;> rfl
    have honly : onOffOfCode (BitVec.ofNat 8 only.toNat).toNat = some only := by cases only <;> rfl
    have htrim : n = min 32 trim.toNat := htrim
    rw [selectorBytes_eq, flag1_eq]
    unfold parseFeed
    simp only [num1, List.cons_append, List.nil_append, hsel, hp, honly, Option.bind_eq_bind, Option.bind_some,
      if_pos hsuits, htrim]

theorem Source.exists_code {n : Nat} (h : n ≤ 3) : ∃ src : Source, n = src.code := by
  interval_cases n
  · exact ⟨.radio, rfl⟩
  · exact ⟨.aux0, rfl⟩
  · exact ⟨.aux1, rfl⟩
  · exact ⟨.pickup, rfl⟩

/-- The kinds that a feed may follow are the first four (R91). -/
theorem ClaimKind.exists_code_of_le {n : Nat} (h : n ≤ 3) : ∃ k : ClaimKind, k ≠ .quiet ∧ n = k.code := by
  interval_cases n
  · exact ⟨.call, nofun, rfl⟩
  · exact ⟨.priv, nofun, rfl⟩
  · exact ⟨.announce, nofun, rfl⟩
  · exact ⟨.chime, nofun, rfl⟩

/-- The bytes of the selectors that may be written (R91); the argument byte of one without an argument is 0 (log 30). -/
theorem selectorBytes_iff (type arg : Byte) :
    (type = 0 ∧ arg = 0 ∨ type = 1 ∧ arg.toNat ≤ 3 ∨ type = 2 ∧ arg.toNat ≤ 15 ∨ type = 3 ∧ arg.toNat ≤ 3 ∨
        type = 4 ∧ arg = 0) ↔ ∃ sel : Selector, sel ≠ .follow .quiet ∧ selectorBytes sel = [type, arg] := by
  constructor
  · rintro (⟨rfl, rfl⟩ | ⟨rfl, h⟩ | ⟨rfl, h⟩ | ⟨rfl, h⟩ | ⟨rfl, rfl⟩)
    · exact ⟨.none, nofun, rfl⟩
    · obtain ⟨src, hsrc⟩ := Source.exists_code h
      exact ⟨.local_ src, nofun, by simp [selectorBytes, num1, ← hsrc]⟩
    · exact ⟨.stream ⟨arg.toNat, by omega⟩, nofun, by simp [selectorBytes, num1]⟩
    · obtain ⟨k, hk, hcode⟩ := ClaimKind.exists_code_of_le h
      exact ⟨.follow k, by simpa using hk, by simp [selectorBytes, num1, ← hcode]⟩
    · exact ⟨.uplink, nofun, rfl⟩
  · rintro ⟨sel, hquiet, h⟩
    cases sel with
    | none => cases h; exact .inl ⟨rfl, rfl⟩
    | local_ src => cases h; exact .inr (.inl ⟨rfl, by cases src <;> decide⟩)
    | stream n => cases h; exact .inr (.inr (.inl ⟨rfl, by revert n; decide⟩))
    | follow k =>
      cases h
      refine .inr (.inr (.inr (.inl ⟨rfl, ?_⟩)))
      cases k
      case quiet => exact absurd rfl hquiet
      all_goals decide
    | uplink => cases h; exact .inr (.inr (.inr (.inr ⟨rfl, rfl⟩)))

/-- The picks that suit an output (R91). -/
theorem pickSuits_iff (o : OutputNo) (n : Nat) :
    (if o.val < 8 then n ≤ 2 else n = 3) ↔ ∃ p : Pick, pickSuits o p = true ∧ n = p.code := by
  unfold pickSuits
  by_cases ho : o.val < 8
  · simp only [if_pos ho, bne_iff_ne]
    constructor
    · intro h
      interval_cases n
      · exact ⟨.left, nofun, rfl⟩
      · exact ⟨.right, nofun, rfl⟩
      · exact ⟨.mid, nofun, rfl⟩
    · rintro ⟨p, hp, rfl⟩
      cases p
      case stereo => exact absurd rfl hp
      all_goals decide
  · simp only [if_neg ho, beq_iff_eq]
    exact ⟨fun h => ⟨.stereo, rfl, h⟩, fun ⟨p, hp, h⟩ => by rw [h, hp]; rfl⟩

/-- The bytes of a feed slot as SET_CONFIG may write them (R91, R105). -/
def FeedBytes (o : OutputNo) (v : List Byte) : Prop :=
  ∃ type arg pick trim cond : Byte, v = [type, arg, pick, trim, cond] ∧ cond.toNat ≤ 1 ∧
    (if o.val < 8 then pick.toNat ≤ 2 else pick.toNat = 3) ∧
    (type = 0 ∧ arg = 0 ∨ type = 1 ∧ arg.toNat ≤ 3 ∨ type = 2 ∧ arg.toNat ≤ 15 ∨ type = 3 ∧ arg.toNat ≤ 3 ∨
      type = 4 ∧ arg = 0)

theorem feedBytes_iff (o : OutputNo) (v : List Byte) : FeedBytes o v ↔ ∃ f, parseFeed o v = some f := by
  unfold FeedBytes
  simp only [selectorBytes_iff, pickSuits_iff, parseFeed_eq_some]
  constructor
  · rintro ⟨type, arg, pick, trim, cond, rfl, hcond, ⟨p, hsuits, hp⟩, sel, hquiet, hsel⟩
    refine ⟨⟨sel, p, min 32 trim.toNat, cond.toNat == 1⟩, hquiet, hsuits, trim, rfl, ?_⟩
    have hpick : pick = BitVec.ofNat 8 p.code := (toNat_eq_iff_eq_ofNat (by cases p <;> decide)).mp hp
    have honly : flag1 (cond.toNat == 1) = [cond] := by
      have h01 : cond = 0 ∨ cond = 1 := by bv_omega
      rcases h01 with rfl | rfl <;> rfl
    rw [hsel, hpick, honly]
    rfl
  · rintro ⟨⟨sel, p, n, only⟩, hquiet, hsuits, trim, _, rfl⟩
    refine ⟨_, _, BitVec.ofNat 8 p.code, trim, if only then 1 else 0, ?_, ?_, ⟨p, hsuits, ?_⟩, sel, hquiet,
      selectorBytes_eq sel⟩
    · rw [selectorBytes_eq]; rfl
    · cases only <;> decide
    · cases p <;> rfl

/-- A feed slot, its trim clamped. -/
theorem Codec.feed (o : OutputNo) : Codec (parseFeed o) feedBytes (FeedBytes o) (storedValue 2) where
  takes_iff := feedBytes_iff o
  stored_eq {v f} h := by
    obtain ⟨_, _, trim, htrim, rfl⟩ := parseFeed_eq_some.mp h
    rw [feedBytes, htrim, selectorBytes_eq]
    rfl
  again {v f} h := by
    obtain ⟨hquiet, hsuits, trim, htrim, _⟩ := parseFeed_eq_some.mp h
    refine parseFeed_eq_some.mpr ⟨hquiet, hsuits, BitVec.ofNat 8 f.trim, ?_, ?_⟩
    · rw [BitVec.toNat_ofNat]; omega
    · rw [feedBytes, selectorBytes_eq]; rfl

end Sys2Proof.Machine
end

section
/-! PROOF. The configuration items, each by where its value stands in the store and how it is read from bytes (R210, R212,
R213). -/

namespace Sys2Proof.Tbl

/-- Of two entries stored at one place the second stays. -/
theorem set_set {n : Nat} {α : Type} (t : Tbl n α) (i : Fin n) (a b : α) : (t.set i a).set i b = t.set i b := by
  apply ext_get
  intro j
  simp only [get_set]
  split <;> rfl

end Sys2Proof.Tbl

namespace Sys2Proof.Machine

open Sys2Proof

/-! ### The fields of the store -/

/-- The store with the field of an item, and of no other, taken from another store. The clearing modes are the field of
item 10. -/
def Store.withItem (c d : Store) (item : Nat) : Store where
  station := if item = 0 then d.station else c.station
  zones := if item = 1 then d.zones else c.zones
  feeds := if item = 2 then d.feeds else c.feeds
  duck := if item = 3 then d.duck else c.duck
  ceiling := if item = 4 then d.ceiling else c.ceiling
  fallbackZone := if item = 5 then d.fallbackZone else c.fallbackZone
  attack := if item = 6 then d.attack else c.attack
  releaseInterval := if item = 7 then d.releaseInterval else c.releaseInterval
  deadtime := if item = 8 then d.deadtime else c.deadtime
  faultMap := if item = 9 then d.faultMap else c.faultMap
  tsLatched := if item = 10 then d.tsLatched else c.tsLatched
  flt0Latched := if item = 10 then d.flt0Latched else c.flt0Latched
  flt1Latched := if item = 10 then d.flt1Latched else c.flt1Latched
  micZone := if item = 11 then d.micZone else c.micZone
  micTrim := if item = 12 then d.micTrim else c.micTrim
  pickupSlot := if item = 13 then d.pickupSlot else c.pickupSlot
  callLoss := if item = 14 then d.callLoss else c.callLoss
  farThreshold := if item = 15 then d.farThreshold else c.farThreshold
  nearThreshold := if item = 16 then d.nearThreshold else c.nearThreshold
  coupling := if item = 17 then d.coupling else c.coupling
  frontEnds := if item = 18 then d.frontEnds else c.frontEnds
  diversity := if item = 19 then d.diversity else c.diversity
  scanDefault := if item = 20 then d.scanDefault else c.scanDefault
  announceDefault := if item = 21 then d.announceDefault else c.announceDefault
  announceZones := if item = 22 then d.announceZones else c.announceZones
  lowThreshold := if item = 23 then d.lowThreshold else c.lowThreshold
  goodThreshold := if item = 24 then d.goodThreshold else c.goodThreshold
  lowEdge := if item = 25 then d.lowEdge else c.lowEdge
  goodEdge := if item = 26 then d.goodEdge else c.goodEdge

/-- Each item is read from its own field (R213). -/
theorem Store.read_withItem (c d : Store) {item i : Nat} (h : i ≠ item) (j : Nat) :
    (c.withItem d item).read i j = c.read i j := by
  unfold Store.read
  split <;> simp [Store.withItem, Store.feed, Store.clearing, h.symm]

/-! ### Indices -/

theorem noIndex_eq_some {α : Type} {index : Nat} {a : Option α} {x : α} : noIndex index a = some x ↔ index = 0 ∧ a = some x := by
  unfold noIndex
  split <;> simp [*]

/-- A value read after an index, in the two ways of writing it. -/
theorem bind_some_eq_bind_map {α β γ : Type} (x : Option α) (y : α → Option β) (g : α → β → γ) :
    (do let a ← x; let b ← y a; some (g a b)) = x.bind (fun a => (y a).map (g a)) := by
  cases x with
  | none => rfl
  | some a =>
    show (y a).bind (fun b => some (g a b)) = (y a).map (g a)
    cases y a <;> rfl

theorem feedIndex_eq_some {index : Nat} {x : OutputNo × SlotNo} :
    feedIndex index = some x ↔ index = 4 * x.1.val + x.2.val := by
  obtain ⟨o, sl⟩ := x
  unfold feedIndex
  split
  next h => simp [Fin.ext_iff]; omega
  next h => simp; omega

theorem duckIndex_eq_some {index : Nat} {x : Fin 5 × Fin 4} :
    duckIndex index = some x ↔ index = 4 * x.1.val + x.2.val := by
  obtain ⟨k, cl⟩ := x
  unfold duckIndex
  split
  next h => simp [Fin.ext_iff]; omega
  next h => simp; omega

/-- A table of tables with one entry replaced. -/
def setEntry {n m : Nat} {α : Type} (t : Tbl n (Tbl m α)) (i : Fin n × Fin m) (a : α) : Tbl n (Tbl m α) :=
  t.set i.1 ((t.get i.1).set i.2 a)

theorem get_setEntry_self {n m : Nat} {α : Type} (t : Tbl n (Tbl m α)) (i : Fin n × Fin m) (a : α) :
    ((setEntry t i a).get i.1).get i.2 = a := by
  simp [setEntry]

theorem get_setEntry_of_ne {n m : Nat} {α : Type} (t : Tbl n (Tbl m α)) {i j : Fin n × Fin m} (a : α) (h : i ≠ j) :
    ((setEntry t i a).get j.1).get j.2 = (t.get j.1).get j.2 := by
  unfold setEntry
  rw [Tbl.get_set]
  split
  next h1 =>
    have h2 : i.2 ≠ j.2 := fun h2 => h (Prod.ext h1 h2)
    rw [Tbl.get_set_of_ne _ _ h2, h1]
  next => rfl

theorem setEntry_setEntry {n m : Nat} {α : Type} (t : Tbl n (Tbl m α)) (i : Fin n × Fin m) (a : α) :
    setEntry (setEntry t i a) i a = setEntry t i a := by
  simp [setEntry, Tbl.set_set]

/-- The sources with a clearing mode, TS, FLT0 and FLT1, by the index of the item (R127). -/
def clearingKey : Nat → Option (Fin 3)
  | 0 => some 0
  | 2 => some 1
  | 3 => some 2
  | _ => none

theorem clearingKey_eq_some {index : Nat} {k : Fin 3} (h : clearingKey index = some k) :
    index = if k = 0 then 0 else k.val + 1 := by
  unfold clearingKey at h
  split at h <;> cases h <;> rfl

/-- A clearing mode stored (R127). -/
def clearingPut (k : Fin 3) (c : Store) (x : Bool) : Store :=
  match k with
  | 0 => { c with tsLatched := x }
  | 1 => { c with flt0Latched := x }
  | 2 => { c with flt1Latched := x }

/-- A clearing mode in the store (R127). -/
def clearingGet (k : Fin 3) (c : Store) : Bool :=
  match k with
  | 0 => c.tsLatched
  | 1 => c.flt0Latched
  | 2 => c.flt1Latched

theorem setClearing_eq (c : Store) (index : Nat) (x : Bool) :
    c.setClearing index x = (clearingKey index).map (fun k => clearingPut k c x) := by
  match index with
  | 0 | 1 | 2 | 3 | _ + 4 => rfl

theorem clearing_eq (c : Store) (index : Nat) : c.clearing index = (clearingKey index).map (fun k => clearingGet k c) := by
  match index with
  | 0 | 1 | 2 | 3 | _ + 4 => rfl

/-! ### Items -/

/-- How an item is stored: which indices name an entry of it, how the entry's value is read from bytes and written to them,
and where it stands in the store. The bytes that READ_CONFIG gives are `shown` (R213). -/
structure ItemForm (item : Nat) where
  Key : Type
  Val : Type
  key : Nat → Option Key
  dec : Key → List Byte → Option Val
  enc : Val → List Byte
  put : Key → Store → Val → Store
  shown : Key → Store → List Byte
  takes : Key → List Byte → Prop
  key_inj : ∀ {i j : Nat} {k : Key}, key i = some k → key j = some k → i = j
  codec : ∀ k, Codec (dec k) enc (takes k) (storedValue item)
  takes_eq : ∀ index v, itemTakes item index v ↔ ∃ k, key index = some k ∧ takes k v
  write_eq : ∀ (c : Store) index v, c.write item index v = (key index).bind (fun k => (dec k v).map (put k c))
  read_eq : ∀ (c : Store) index, c.read item index = (key index).map (fun k => shown k c)
  put_put : ∀ k c a, put k (put k c a) a = put k c a
  put_field : ∀ k c a, put k c a = c.withItem (put k c a) item
  shown_put : ∀ k c a, shown k (put k c a) = if item = 0 then 1 :: enc a else enc a
  shown_put_of_ne : ∀ k l c a, k ≠ l → shown l (put k c a) = shown l c
  stored_put : ∀ k index c a, key index = some k → (put k c a).stored item index = enc a

namespace ItemForm

section

variable {item : Nat} (f : ItemForm item)
include f

/-- What an accepted write does (R212). -/
theorem write_eq_some {c d : Store} {index : Nat} {v : List Byte} (h : c.write item index v = some d) :
    ∃ k a, f.key index = some k ∧ f.dec k v = some a ∧ d = f.put k c a := by
  rw [f.write_eq] at h
  obtain ⟨k, hk, h⟩ := Option.bind_eq_some_iff.mp h
  obtain ⟨a, ha, rfl⟩ := Option.map_eq_some_iff.mp h
  exact ⟨k, a, hk, ha, rfl⟩

/-- The item table tells which writes are accepted (R212). -/
theorem takes_iff_write (c : Store) (index : Nat) (v : List Byte) :
    itemTakes item index v ↔ ∃ d, c.write item index v = some d := by
  rw [f.takes_eq]
  constructor
  · rintro ⟨k, hk, hv⟩
    obtain ⟨a, ha⟩ := ((f.codec k).takes_iff v).mp hv
    exact ⟨_, by rw [f.write_eq, hk, Option.bind_some, ha]; rfl⟩
  · rintro ⟨d, hd⟩
    obtain ⟨k, a, hk, ha, _⟩ := f.write_eq_some hd
    exact ⟨k, hk, ((f.codec k).takes_iff v).mpr ⟨a, ha⟩⟩

/-- An item answers with the value stored (R212). -/
theorem stored_of_write {c d : Store} {index : Nat} {v : List Byte} (h : c.write item index v = some d) :
    d.stored item index = storedValue item v := by
  obtain ⟨k, a, hk, ha, rfl⟩ := f.write_eq_some h
  rw [f.stored_put k index c a hk, (f.codec k).stored_eq ha]

/-- An item reads as the value stored (R213), a station number as one that is present. -/
theorem read_of_write {c d : Store} {index : Nat} {v : List Byte} (h : c.write item index v = some d) :
    d.read item index = some (if item = 0 then 1 :: storedValue item v else storedValue item v) := by
  obtain ⟨k, a, hk, ha, rfl⟩ := f.write_eq_some h
  rw [f.read_eq, hk, Option.map_some, f.shown_put, (f.codec k).stored_eq ha]

/-- The value stored can be written again without a change. -/
theorem write_stored {c d : Store} {index : Nat} {v : List Byte} (h : c.write item index v = some d) :
    d.write item index (storedValue item v) = some d := by
  obtain ⟨k, a, hk, ha, rfl⟩ := f.write_eq_some h
  rw [f.write_eq, hk, Option.bind_some, (f.codec k).stored_eq ha, (f.codec k).again ha, Option.map_some, f.put_put]

/-- No other item, and no other entry of the item, reads otherwise. -/
theorem read_other {c d : Store} {index : Nat} {v : List Byte} (h : c.write item index v = some d) {i j : Nat}
    (hother : i ≠ item ∨ j ≠ index) : d.read i j = c.read i j := by
  obtain ⟨k, a, hk, _, rfl⟩ := f.write_eq_some h
  by_cases hi : i = item
  · subst hi
    rw [f.read_eq, f.read_eq]
    cases hl : f.key j with
    | none => rfl
    | some l =>
      have hne : k ≠ l := by
        rintro rfl
        exact hother.elim (absurd rfl) (absurd (f.key_inj hl hk))
      rw [Option.map_some, Option.map_some, f.shown_put_of_ne k l c a hne]
  · rw [f.put_field]
    exact c.read_withItem _ hi j

end

/-! ### Forms from the lens laws of a field -/

section

variable {item : Nat} {α : Type}

/-- An item whose entries, one for each key, are read as they stand in the store. -/
def keyed {K : Type} (hitem : item ≠ 0) (key : Nat → Option K)
    (key_inj : ∀ {i j : Nat} {k : K}, key i = some k → key j = some k → i = j)
    (dec : K → List Byte → Option α) (enc : α → List Byte) (takes : K → List Byte → Prop)
    (codec : ∀ k, Codec (dec k) enc (takes k) (storedValue item))
    (takes_eq : ∀ index v, itemTakes item index v ↔ ∃ k, key index = some k ∧ takes k v)
    (get : K → Store → α) (put : K → Store → α → Store)
    (write_eq : ∀ (c : Store) index v, c.write item index v = (key index).bind (fun k => (dec k v).map (put k c)))
    (read_eq : ∀ (c : Store) index, c.read item index = (key index).map (fun k => enc (get k c)))
    (get_put : ∀ k c a, get k (put k c a) = a)
    (get_put_of_ne : ∀ k l c a, k ≠ l → get l (put k c a) = get l c)
    (put_put : ∀ k c a, put k (put k c a) a = put k c a)
    (put_field : ∀ k c a, put k c a = c.withItem (put k c a) item) : ItemForm item where
  Key := K
  Val := α
  key := key
  dec := dec
  enc := enc
  put := put
  shown k c := enc (get k c)
  takes := takes
  key_inj := key_inj
  codec := codec
  takes_eq := takes_eq
  write_eq := write_eq
  read_eq := read_eq
  put_put := put_put
  put_field := put_field
  shown_put k c a := by rw [if_neg hitem, get_put]
  shown_put_of_ne k l c a h := by rw [get_put_of_ne k l c a h]
  stored_put k index c a h := by rw [Store.stored, if_neg hitem, read_eq, h, Option.map_some, get_put]; rfl

/-- An item without an index: one field of the store. -/
def indexless (hitem : item ≠ 0) (dec : List Byte → Option α) (enc : α → List Byte) {takes : List Byte → Prop}
    (codec : Codec dec enc takes (storedValue item)) (get : Store → α) (put : Store → α → Store)
    (takes_eq : ∀ index v, itemTakes item index v ↔ index = 0 ∧ takes v := by exact fun _ _ => Iff.rfl)
    (write_eq : ∀ (c : Store) index v, c.write item index v = (noIndex index (dec v)).map (put c) := by intros; rfl)
    (read_eq : ∀ (c : Store) index, c.read item index = noIndex index (some (enc (get c))) := by intros; rfl)
    (get_put : ∀ c a, get (put c a) = a := by intros; rfl)
    (put_put : ∀ c a, put (put c a) a = put c a := by intros; rfl)
    (put_field : ∀ c a, put c a = c.withItem (put c a) item := by intros; rfl) : ItemForm item :=
  keyed hitem (fun index => noIndex index (some ()))
    (fun hi hj => (noIndex_eq_some.mp hi).1.trans (noIndex_eq_some.mp hj).1.symm)
    (fun _ => dec) enc (fun _ => takes) (fun _ => codec)
    (fun index v => by simp [takes_eq, noIndex_eq_some])
    (fun _ => get) (fun _ => put)
    (fun c index v => by
      rw [write_eq, noIndex, noIndex]
      split <;> rfl)
    (fun c index => by
      rw [read_eq, noIndex, noIndex]
      split <;> rfl)
    (fun _ => get_put) (fun _ l _ _ h => absurd (Subsingleton.elim _ l) h) (fun _ => put_put) (fun _ => put_field)

/-- An item with an index: the entries of one table of the store. -/
def tabled {n : Nat} (hitem : item ≠ 0) (dec : Fin n → List Byte → Option α) (enc : α → List Byte)
    {takes : Nat → List Byte → Prop} (codec : ∀ i : Fin n, Codec (dec i) enc (takes i.val) (storedValue item))
    (get : Store → Tbl n α) (put : Store → Tbl n α → Store)
    (write_eq : ∀ (c : Store) index v, c.write item index v =
      (indexed n index).bind (fun i => (dec i v).map (fun a => put c ((get c).set i a))))
    (takes_eq : ∀ index v, itemTakes item index v ↔ index < n ∧ takes index v := by exact fun _ _ => Iff.rfl)
    (read_eq : ∀ (c : Store) index, c.read item index = (indexed n index).map (fun i => enc ((get c).get i)) := by
      intros; rfl)
    (get_put : ∀ c t, get (put c t) = t := by intros; rfl)
    (put_put : ∀ c t u, put (put c t) u = put c u := by intros; rfl)
    (put_field : ∀ c t, put c t = c.withItem (put c t) item := by intros; rfl) : ItemForm item :=
  keyed hitem (indexed n)
    (fun hi hj => (indexed_eq_some.mp hi).trans (indexed_eq_some.mp hj).symm)
    dec enc (fun i => takes i.val) codec
    (fun index v => by
      rw [takes_eq]
      constructor
      · rintro ⟨h, hv⟩
        exact ⟨⟨index, h⟩, indexed_eq_some.mpr rfl, hv⟩
      · rintro ⟨i, hi, hv⟩
        rw [indexed_eq_some.mp hi]
        exact ⟨i.isLt, hv⟩)
    (fun i c => (get c).get i) (fun i c a => put c ((get c).set i a)) write_eq read_eq
    (fun i c a => by rw [get_put, Tbl.get_set_self])
    (fun i j c a h => by rw [get_put, Tbl.get_set_of_ne _ _ h])
    (fun i c a => by rw [get_put, put_put, Tbl.set_set])
    (fun i c a => put_field c _)

end

/-! ### The items (R212) -/

/-- The station number stands as present once it is written; the answer gives its value byte (log 10). -/
def stationForm : ItemForm 0 where
  Key := Unit
  Val := StationNo
  key index := noIndex index (some ())
  dec _ v := (oneByte v).bind (indexed 8)
  enc n := num1 n.val
  put _ c n := { c with station := some n }
  shown _ c := opt1 (fun n => num1 n.val) c.station
  takes _ := ByteIn (· < 8)
  key_inj hi hj := (noIndex_eq_some.mp hi).1.trans (noIndex_eq_some.mp hj).1.symm
  codec _ := .below 8 (by decide)
  takes_eq index v := by
    simp only [noIndex_eq_some, exists_const, and_true]
    rfl
  write_eq c index v := by
    show (noIndex index _).map _ = _
    unfold noIndex
    split <;> rfl
  read_eq c index := by
    show noIndex index _ = _
    unfold noIndex
    split <;> rfl
  put_put _ _ _ := rfl
  put_field _ _ _ := rfl
  shown_put _ _ _ := rfl
  shown_put_of_ne _ l _ _ h := absurd (Subsingleton.elim _ l) h
  stored_put _ _ _ _ _ := rfl

def zonesForm : ItemForm 1 :=
  tabled (by decide) outputZones zones1 .outputZones Store.zones (fun c t => { c with zones := t })
    (fun _ index _ => bind_some_eq_bind_map (indexed 10 index) _ _)

def feedForm : ItemForm 2 :=
  keyed (by decide) feedIndex (fun hi hj => (feedIndex_eq_some.mp hi).trans (feedIndex_eq_some.mp hj).symm)
    (fun i => parseFeed i.1) feedBytes (fun i => FeedBytes i.1) (fun i => .feed i.1)
    (fun index v => by
      constructor
      · rintro ⟨h, hv⟩
        exact ⟨_, dif_pos h, hv⟩
      · rintro ⟨i, hi, hv⟩
        have hindex := feedIndex_eq_some.mp hi
        have ho : index / 4 = i.1.val := by omega
        refine ⟨by omega, ?_⟩
        rw [ho]
        exact hv)
    (fun i c => c.feed i.1 i.2) (fun i c f => { c with feeds := setEntry c.feeds i f })
    (fun _ index _ => bind_some_eq_bind_map (feedIndex index) _ _) (fun _ _ => rfl)
    (fun i c f => get_setEntry_self c.feeds i f) (fun _ _ c f h => get_setEntry_of_ne c.feeds f h)
    (fun i c f => congrArg (fun t => { c with feeds := t }) (setEntry_setEntry c.feeds i f)) (fun _ _ _ => rfl)

def duckForm : ItemForm 3 :=
  keyed (by decide) duckIndex (fun hi hj => (duckIndex_eq_some.mp hi).trans (duckIndex_eq_some.mp hj).symm)
    (fun _ => clampedByte 0 128) num1 (fun _ => ByteIn (fun _ => True)) (fun _ => .number 0 128 (by decide) (by decide))
    (fun index v => by
      constructor
      · rintro ⟨h, hv⟩
        exact ⟨_, dif_pos h, hv⟩
      · rintro ⟨i, hi, hv⟩
        have hindex := duckIndex_eq_some.mp hi
        exact ⟨by omega, hv⟩)
    (fun i c => (c.duck.get i.1).get i.2) (fun i c n => { c with duck := setEntry c.duck i n })
    (fun _ index _ => bind_some_eq_bind_map (duckIndex index) _ _) (fun _ _ => rfl)
    (fun i c n => get_setEntry_self c.duck i n) (fun _ _ c n h => get_setEntry_of_ne c.duck n h)
    (fun i c n => congrArg (fun t => { c with duck := t }) (setEntry_setEntry c.duck i n)) (fun _ _ _ => rfl)

def ceilingForm : ItemForm 4 :=
  indexless (by decide) _ _ (.number 0 24 (by decide) (by decide)) Store.ceiling (fun c n => { c with ceiling := n })

def fallbackZoneForm : ItemForm 5 :=
  indexless (by decide) _ _ .fallbackZone Store.fallbackZone (fun c z => { c with fallbackZone := z })

def attackForm : ItemForm 6 :=
  indexless (by decide) _ _ (.number 1 16 (by decide) (by decide)) Store.attack (fun c n => { c with attack := n })

def releaseIntervalForm : ItemForm 7 :=
  indexless (by decide) _ _ (.number 1 16 (by decide) (by decide)) Store.releaseInterval
    (fun c n => { c with releaseInterval := n })

def deadtimeForm : ItemForm 8 :=
  tabled (by decide) _ _ (fun _ => .number 0 7 (by decide) (by decide)) Store.deadtime
    (fun c t => { c with deadtime := t }) (fun _ index _ => bind_some_eq_bind_map (indexed 8 index) _ _)

def faultMapForm : ItemForm 9 :=
  tabled (by decide) (fun _ v => (oneByte v).map (BitVec.ofNat 8)) (fun b => [b]) (fun _ => .anyByte) Store.faultMap
    (fun c t => { c with faultMap := t })
    (fun c index v => by
      simp only [Option.map_map]
      exact bind_some_eq_bind_map (indexed 4 index) _ _)

def clearingForm : ItemForm 10 :=
  keyed (by decide) clearingKey (fun hi hj => (clearingKey_eq_some hi).trans (clearingKey_eq_some hj).symm)
    (fun _ v => (oneByte v).bind onOffOfCode) flag1 (fun _ => ByteIn (· ≤ 1)) (fun _ => .onOff)
    (fun index v => by
      constructor
      · rintro ⟨rfl | rfl | rfl, hv⟩
        · exact ⟨0, rfl, hv⟩
        · exact ⟨1, rfl, hv⟩
        · exact ⟨2, rfl, hv⟩
      · rintro ⟨k, hk, hv⟩
        have hindex := clearingKey_eq_some hk
        refine ⟨?_, hv⟩
        fin_cases k <;> simp_all)
    clearingGet clearingPut
    (fun c index v => by
      show ((oneByte v).bind onOffOfCode).bind (c.setClearing index) = _
      simp only [setClearing_eq]
      cases (oneByte v).bind onOffOfCode <;> cases clearingKey index <;> rfl)
    (fun c index => by
      show (c.clearing index).map flag1 = _
      rw [clearing_eq, Option.map_map]
      rfl)
    (fun k c x => by fin_cases k <;> rfl)
    (fun k l c x h => by fin_cases k <;> fin_cases l <;> first | rfl | exact absurd rfl h)
    (fun k c x => by fin_cases k <;> rfl)
    (fun k c x => by fin_cases k <;> rfl)

def micZoneForm : ItemForm 11 :=
  tabled (by decide) (fun _ v => (oneZoneSet v).bind zoneOrNone) (fun z => zones1 (zoneSetOf z)) (fun _ => .micZone)
    Store.micZone (fun c t => { c with micZone := t })
    (fun c index v => by
      simp only [Option.map_bind]
      exact congrArg (indexed 4 index).bind (funext fun m =>
        bind_some_eq_bind_map (oneZoneSet v) zoneOrNone (fun _ z => { c with micZone := c.micZone.set m z })))

def micTrimForm : ItemForm 12 :=
  tabled (by decide) _ _ (fun _ => .number 0 32 (by decide) (by decide)) Store.micTrim
    (fun c t => { c with micTrim := t }) (fun _ index _ => bind_some_eq_bind_map (indexed 4 index) _ _)

def pickupSlotForm : ItemForm 13 :=
  indexless (by decide) _ _ (.below 2 (by decide)) Store.pickupSlot (fun c i => { c with pickupSlot := i })
    (takes_eq := fun _ _ => by simp only [itemTakes, ByteIn, Nat.lt_succ_iff])

def callLossForm : ItemForm 14 :=
  indexless (by decide) _ _ (.number 24 48 (by decide) (by decide)) Store.callLoss (fun c n => { c with callLoss := n })

def farThresholdForm : ItemForm 15 :=
  indexless (by decide) _ _ (.number 0 128 (by decide) (by decide)) Store.farThreshold
    (fun c n => { c with farThreshold := n })

def nearThresholdForm : ItemForm 16 :=
  indexless (by decide) _ _ (.number 0 128 (by decide) (by decide)) Store.nearThreshold
    (fun c n => { c with nearThreshold := n })

def couplingForm : ItemForm 17 :=
  indexless (by decide) _ _ (.number 0 48 (by decide) (by decide)) Store.coupling (fun c n => { c with coupling := n })

def frontEndsForm : ItemForm 18 :=
  indexless (by decide) _ _ .frontEnds Store.frontEnds (fun c x => { c with frontEnds := x })

def diversityForm : ItemForm 19 :=
  indexless (by decide) _ _ .onOff Store.diversity (fun c x => { c with diversity := x })

def scanDefaultForm : ItemForm 20 :=
  indexless (by decide) _ _ .onOff Store.scanDefault (fun c x => { c with scanDefault := x })

def announceDefaultForm : ItemForm 21 :=
  indexless (by decide) _ _ .onOff Store.announceDefault (fun c x => { c with announceDefault := x })

def announceZonesForm : ItemForm 22 :=
  indexless (by decide) _ _ .someZones Store.announceZones (fun c zs => { c with announceZones := zs })

def lowThresholdForm : ItemForm 23 :=
  indexless (by decide) _ _ (.number 0 100 (by decide) (by decide)) Store.lowThreshold
    (fun c n => { c with lowThreshold := n })

def goodThresholdForm : ItemForm 24 :=
  indexless (by decide) _ _ (.number 0 100 (by decide) (by decide)) Store.goodThreshold
    (fun c n => { c with goodThreshold := n })

def lowEdgeForm : ItemForm 25 :=
  indexless (by decide) _ _ .edge Store.lowEdge (fun c x => { c with lowEdge := x })

def goodEdgeForm : ItemForm 26 :=
  indexless (by decide) _ _ .edge Store.goodEdge (fun c x => { c with goodEdge := x })

/-- Every item of the table has its form (R212). -/
theorem nonempty_of_lt {item : Nat} (h : item < 27) : Nonempty (ItemForm item) := by
  interval_cases item
  exacts [⟨stationForm⟩, ⟨zonesForm⟩, ⟨feedForm⟩, ⟨duckForm⟩, ⟨ceilingForm⟩, ⟨fallbackZoneForm⟩, ⟨attackForm⟩,
    ⟨releaseIntervalForm⟩, ⟨deadtimeForm⟩, ⟨faultMapForm⟩, ⟨clearingForm⟩, ⟨micZoneForm⟩, ⟨micTrimForm⟩,
    ⟨pickupSlotForm⟩, ⟨callLossForm⟩, ⟨farThresholdForm⟩, ⟨nearThresholdForm⟩, ⟨couplingForm⟩, ⟨frontEndsForm⟩,
    ⟨diversityForm⟩, ⟨scanDefaultForm⟩, ⟨announceDefaultForm⟩, ⟨announceZonesForm⟩, ⟨lowThresholdForm⟩,
    ⟨goodThresholdForm⟩, ⟨lowEdgeForm⟩, ⟨goodEdgeForm⟩]

end ItemForm

/-- No item has a number above 26 (R212). -/
theorem Store.write_of_le (c : Store) {item : Nat} (h : 27 ≤ item) (index : Nat) (v : List Byte) :
    c.write item index v = none := by
  obtain ⟨k, rfl⟩ := Nat.exists_eq_add_of_le' h
  rfl

theorem itemTakes_of_le {item : Nat} (h : 27 ≤ item) (index : Nat) (v : List Byte) : ¬ itemTakes item index v := by
  obtain ⟨k, rfl⟩ := Nat.exists_eq_add_of_le' h
  exact id

/-- An item that can be written has its form. -/
theorem Store.nonempty_form_of_write {c d : Store} {item index : Nat} {v : List Byte}
    (h : c.write item index v = some d) : Nonempty (ItemForm item) := by
  refine ItemForm.nonempty_of_lt (Nat.lt_of_not_le (fun hle => ?_))
  rw [c.write_of_le hle] at h
  cases h

/-- The item table tells which writes are accepted (R212). -/
theorem Store.itemTakes_iff_write (c : Store) (item index : Nat) (v : List Byte) :
    itemTakes item index v ↔ ∃ d, c.write item index v = some d := by
  by_cases h : item < 27
  · obtain ⟨f⟩ := ItemForm.nonempty_of_lt h
    exact f.takes_iff_write c index v
  · have hle : 27 ≤ item := Nat.not_lt.mp h
    simp [c.write_of_le hle, itemTakes_of_le hle index v]

/-- Settles O20: each item by its form. -/
theorem configurationReadsWhatWasWritten : Obligations.ConfigurationReadsWhatWasWritten := by
  unfold Obligations.ConfigurationReadsWhatWasWritten
  intro c d item index v h
  obtain ⟨f⟩ := Store.nonempty_form_of_write h
  refine ⟨(f.read_of_write h).trans ?_, f.stored_of_write h, f.write_stored h, fun i j => f.read_other h⟩
  split
  next h0 => subst h0; rfl
  next => rfl

end Sys2Proof.Machine
end

section
/-! PROOF. SET_CONFIG stores what each item takes in the item's own field, and refuses the rest (R212, R213). -/

namespace Sys2Proof.Machine

open Sys2Proof

theorem exec_setConfig_of_write {s : State} {item index : Byte} {v : List Byte} {d : Store} (hc : s.inConfig = true)
    (h : s.cpt.store.write item.toNat index.toNat v = some d) : exec (.setConfig item index v) s = .next
      (State.answer { s with cpt := { s.cpt with store := d } } .accepted (d.stored item.toNat index.toNat)) := by
  simp only [exec_setConfig, execSetConfig, hc, if_true, h]

theorem exec_setConfig_of_refused {s : State} {item index : Byte} {v : List Byte} (hc : s.inConfig = true)
    (h : s.cpt.store.write item.toNat index.toNat v = none) :
    exec (.setConfig item index v) s = .next (s.answer .badArgument []) := by
  simp only [exec_setConfig, execSetConfig, hc, if_true, h]

/-! ### Where each value lands -/

/-- A value that is read lands where the item's form puts it. -/
theorem ItemForm.write_of_dec {item : Nat} (f : ItemForm item) (c : Store) {index : Nat} {v : List Byte} {k : f.Key}
    {a : f.Val} (hk : f.key index = some k) (ha : f.dec k v = some a) : c.write item index v = some (f.put k c a) := by
  rw [f.write_eq, hk, Option.bind_some, ha]
  rfl

/-- A number whose range begins at 0 is brought under its upper end. -/
theorem clampedByte_zero (hi : Nat) (b : Byte) : clampedByte 0 hi [b] = some (min hi b.toNat) :=
  congrArg some (clampNat_zero hi b.toNat)

theorem outputZones_of_few {o : Fin 10} {b : Byte} (hlt : b.toNat < 32)
    (hfew : 8 ≤ o.val → (zonesOf (b.setWidth 5)).length ≤ 1) : outputZones o [b] = some (b.setWidth 5) := by
  have hzones : oneZoneSet [b] = some (b.setWidth 5) := if_pos hlt
  unfold outputZones
  rw [hzones]
  exact if_neg (fun h => Nat.not_lt.mpr (hfew h.1) h.2)

theorem parseFeed_of_suits {o : OutputNo} {f : FeedConfig} (b : Byte) (hquiet : f.selector ≠ .follow .quiet)
    (hpick : o.val < 8 ↔ f.pick ≠ .stereo) :
    parseFeed o (selectorBytes f.selector ++ [BitVec.ofNat 8 f.pick.code, b, if f.fallbackOnly then 1 else 0]) =
      some { f with trim := min 32 b.toNat } := by
  have hsuits : pickSuits o f.pick = true := by
    unfold pickSuits
    split
    next ho => simpa using hpick.mp ho
    next ho => simpa using mt hpick.mpr ho
  exact parseFeed_eq_some.mpr ⟨hquiet, hsuits, b, rfl, by simp [flag1]⟩

theorem duckIndex_code (k : ClaimKind) (cl : SoundClass) : duckIndex (4 * k.code + cl.code) = some (k.idx, cl.idx) := by
  cases k <;> cases cl <;> rfl

/-- The zone of a microphone is read from the byte of its set. -/
theorem micZone_of_byte {b : Byte} {z : Option Zone} (h : b.toNat = (zoneSetOf z).toNat) :
    (oneZoneSet [b]).bind zoneOrNone = some z := by
  have hlt := (zoneSetOf z).isLt
  have hb : b = (zoneSetOf z).setWidth 8 := BitVec.eq_of_toNat_eq (by simp; omega)
  have hzones : oneZoneSet [b] = some (zoneSetOf z) := oneZoneSet_eq_some.mpr (congrArg (fun x => [x]) hb)
  rw [hzones, Option.bind_some, zoneOrNone_eq_some]

theorem someZones_of_byte {b : Byte} (hpos : 0 < b.toNat) (hlt : b.toNat < 32) :
    (oneZoneSet [b]).filter (fun zs => zs != 0) = some (b.setWidth 5) := by
  have hzones : oneZoneSet [b] = some (b.setWidth 5) := if_pos hlt
  have hne : (b.setWidth 5 != (0 : ZoneSet)) = true := by
    rw [bne_iff_ne, ne_eq, ← BitVec.toNat_inj]
    simp
    omega
  rw [hzones, Option.filter_some, if_pos hne]

/-- Settles O19: refusal by the item table, the answer by the item's form, and the field by the value that is read. -/
theorem setConfigWritesOrRefuses : Obligations.SetConfigWritesOrRefuses := by
  unfold Obligations.SetConfigWritesOrRefuses
  refine ⟨fun s item index v => ⟨fun hc => ?notReady, fun hc hrefused => ?refused, fun hc htakes => ?stored⟩,
    fun c b => ?fields⟩
  case notReady => simp only [exec_setConfig, execSetConfig, hc, Bool.false_eq_true, if_false]
  case refused =>
    refine exec_setConfig_of_refused hc (Option.eq_none_iff_forall_ne_some.mpr (fun d hd => hrefused ?_))
    exact (s.cpt.store.itemTakes_iff_write _ _ v).mpr ⟨d, hd⟩
  case stored =>
    obtain ⟨d, hd⟩ := (s.cpt.store.itemTakes_iff_write _ _ v).mp htakes
    obtain ⟨f⟩ := Store.nonempty_form_of_write hd
    exact ⟨d, hd, by rw [exec_setConfig_of_write hc hd, f.stored_of_write hd]⟩
  case fields =>
    intro n
    have number (hi : Nat) : clampedByte 0 hi [b] = some (min hi n) := clampedByte_zero hi b
    open ItemForm in
    refine ⟨fun p hp => stationForm.write_of_dec c rfl (indexed_eq_some.mpr hp),
      fun o hlt hfew => zonesForm.write_of_dec c (indexed_val o) (outputZones_of_few hlt hfew),
      fun o sl f hquiet hpick => feedForm.write_of_dec c (k := (o, sl)) (feedIndex_eq_some.mpr rfl)
        (parseFeed_of_suits b hquiet hpick),
      fun k cl => duckForm.write_of_dec c (duckIndex_code k cl) (number 128),
      ceilingForm.write_of_dec c rfl (number 24),
      fun z hz hn => fallbackZoneForm.write_of_dec c rfl (fallbackZoneOf_eq_some.mpr ⟨hn, hz⟩), rfl, rfl,
      fun i => deadtimeForm.write_of_dec c (indexed_val i) (number 7), fun i => ?faultMap, fun x hx => ?switches,
      fun m => ⟨fun hn => micZoneForm.write_of_dec c (indexed_val m) (micZone_of_byte (z := none) hn),
        fun z hz => micZoneForm.write_of_dec c (indexed_val m) (micZone_of_byte (z := some z) (hz.trans ?bit)),
        micTrimForm.write_of_dec c (indexed_val m) (number 32)⟩,
      fun i hi => pickupSlotForm.write_of_dec c rfl (indexed_eq_some.mpr hi), rfl,
      farThresholdForm.write_of_dec c rfl (number 128), nearThresholdForm.write_of_dec c rfl (number 128),
      couplingForm.write_of_dec c rfl (number 48),
      fun x hx => frontEndsForm.write_of_dec c rfl (FrontEnds.ofCode_eq_some.mpr hx),
      fun hpos hlt => announceZonesForm.write_of_dec c rfl (someZones_of_byte hpos hlt),
      lowThresholdForm.write_of_dec c rfl (number 100), goodThresholdForm.write_of_dec c rfl (number 100),
      fun x hx => ⟨lowEdgeForm.write_of_dec c rfl (Edge.ofCode_eq_some.mpr hx),
        goodEdgeForm.write_of_dec c rfl (Edge.ofCode_eq_some.mpr hx)⟩⟩
    case faultMap =>
      have hbyte : (oneByte [b]).map (BitVec.ofNat 8) = some b := by simp [oneByte]
      exact ItemForm.faultMapForm.write_of_dec c (indexed_val i) hbyte
    case switches =>
      have hx : (oneByte [b]).bind onOffOfCode = some x := onOffOfCode_eq_some.mpr hx
      open ItemForm in
      exact ⟨clearingForm.write_of_dec c (k := (0 : Fin 3)) rfl hx, clearingForm.write_of_dec c (k := (1 : Fin 3)) rfl hx,
        clearingForm.write_of_dec c (k := (2 : Fin 3)) rfl hx, diversityForm.write_of_dec c rfl hx,
        scanDefaultForm.write_of_dec c rfl hx, announceDefaultForm.write_of_dec c rfl hx⟩
    case bit => cases z <;> rfl

end Sys2Proof.Machine
end
